-- ==== Sys2Proof/Word.lean ====
section
/-!
DEFINITION. The word types of the W40 and the shape of a sparse map. Bit 0 is the least significant bit of
every word and multi-byte values are little-endian in memory (00_scope.md, R1).
-/

namespace Sys2Proof

/-- One byte of memory. -/
abbrev Byte := BitVec 8
/-- A 64-bit register or command-record word (R99, R233). -/
abbrev Word := BitVec 64
/-- A 32-bit sequencer instruction word or FP32 pattern (R104, R50). -/
abbrev W32 := BitVec 32
/-- The 128 data bits of a data-plane beat (R48). -/
abbrev W128 := BitVec 128
/-- The 36-bit sideband of a beat (R59). -/
abbrev Side := BitVec 36
/-- A general register number (R99). -/
abbrev Reg := BitVec 5
/-- A context: 2 x region + partition (R13, R151). -/
abbrev Ctx := BitVec 5
/-- An element of a region: row x 32 + column (R158). -/
abbrev ElemIx := BitVec 9

/-- A sparse map from natural-number keys: keys rise strictly and no entry holds the default value, so
equal maps are equal data. An unlisted key reads as the default. -/
abbrev SMap (α : Type) := List (Nat × α)

end Sys2Proof
end

