-- ==== Sys2Proof/Syntax.lean ====
section
/-!
DEFINITION. The steps of the W40: the sequencer instructions (05_sequencer_isa.md), the timed entries
(07_fabric_elements.md, 08_islands_and_schedules.md), the command records of every engine, and the events
that the machine, the host and the link bring about (opcode_table.json, 95_what_each_step_holds.md). One
constructor per row of the opcode table. Also the structured contents of a task image (R46).
-/

namespace Sys2Proof

/-! ## Names used in encodings -/

/-- A scope level and its code 0 to 5 (R107). -/
inductive Scope where
  | lane | core | quad | die | package | pod
  deriving DecidableEq, Repr, Inhabited

/-- What a fence orders (R119). -/
inductive FenceKind where
  | acq | rel | ar
  deriving DecidableEq, Repr, Inhabited

/-- The order field of an atomic (R117). -/
inductive AtomOrd where
  | plain | acq | rel | ar
  deriving DecidableEq, Repr, Inhabited

/-- The line that an operand of a timed entry names (R37). -/
inductive Line where
  | n | e | s | w | l | m | c | k
  deriving DecidableEq, Repr, Inhabited

/-- A direction: of a neighbour, of a control capture, of a lock link (R198, R204). -/
inductive Dir where
  | n | e | s | w
  deriving DecidableEq, Repr, Inhabited

/-- The type field of a timed entry, codes 0 to 13 (R173). -/
inductive Ty where
  | f32 | bf16 | f16 | e4m3 | e5m2 | e2m1 | i32 | n32 | i16 | n16 | i8 | n8 | i64 | bits
  deriving DecidableEq, Repr, Inhabited

/-- A rounding mode (R53, R172). -/
inductive Rnd where
  | rn | rz | ru | rs
  deriving DecidableEq, Repr, Inhabited

/-- An operand field: line code and tap (R37). A tap is age - 1, or the constant's number for K. -/
structure Opnd where
  line : Line := .n
  tap : BitVec 4 := 0
  deriving DecidableEq, Repr, Inhabited

/-- The fields of a timed entry apart from its opcode (R172). -/
structure EntryF where
  stamp : BitVec 12
  a : Opnd
  b : Opnd
  c : Opnd
  ty : Ty
  sat : Bool
  rnd : Rnd
  we : Bool
  x : BitVec 16
  deriving DecidableEq, Repr, Inhabited

/-! ## Command records -/

/-- The start offset and the bound island of a record (R233 word 0). -/
structure CmdHdr where
  start : BitVec 32
  island : BitVec 6
  deriving DecidableEq, Repr, Inhabited

/-- A loop level: count and signed byte stride (R235). -/
structure Lvl where
  count : BitVec 24 := 1
  stride : BitVec 40 := 0
  deriving DecidableEq, Repr, Inhabited

/-- A record of the stream engine (R235, R236). `base2` is the destination base of `s.copy`, in word 5; the
other commands hold loop level 5 there. -/
structure StreamRec where
  hdr : CmdHdr
  l1 : Lvl
  l2 : Lvl
  l3 : Lvl
  l4 : Lvl
  l5 : Lvl
  base2 : BitVec 52
  base : BitVec 52
  window : BitVec 16
  port : BitVec 3
  edge : Bool
  esize : BitVec 3
  poison : Bool
  span : BitVec 3
  pfmt : BitVec 2
  blk : BitVec 2
  bank : BitVec 16
  deriving DecidableEq, Repr, Inhabited

/-- The element type of `wh.red` (R247). -/
inductive RedTy where
  | f32 | bf16 | i32
  deriving DecidableEq, Repr, Inhabited

/-- How a `wh.red` intent merges into its destination (R247, R248). -/
inductive Merge where
  | write | add | max | min
  deriving DecidableEq, Repr, Inhabited

/-- A record of `wh.red` (R247). -/
structure WhRedRec where
  hdr : CmdHdr
  bags : Lvl
  inds : Lvl
  idx : BitVec 52
  dst : BitVec 52
  cw : BitVec 52
  table : BitVec 52
  port : BitVec 3
  ty : RedTy
  merge : Merge
  scope : Scope
  row : BitVec 16
  deriving DecidableEq, Repr, Inhabited

/-- A record of `wh.filt` (R249). -/
structure WhFiltRec where
  hdr : CmdHdr
  l1 : Lvl
  l2 : Lvl
  l3 : Lvl
  lo : Word
  hi : Word
  base : BitVec 52
  window : BitVec 16
  port : BitVec 3
  edge : Bool
  ty : Ty
  poison : Bool
  deriving DecidableEq, Repr, Inhabited

/-- A record of `mx.wload` (R274): format code, block code, kt and nt codes. -/
structure MxWloadRec where
  hdr : CmdHdr
  base : BitVec 52
  wfmt : BitVec 3
  blk : BitVec 2
  kb : BitVec 3
  nb : BitVec 4
  deriving DecidableEq, Repr, Inhabited

/-- A record of `mx.step` (R276). -/
structure MxStepRec where
  hdr : CmdHdr
  l1 : Lvl
  l2 : Lvl
  bank : BitVec 16
  accrow : BitVec 10
  acccol : BitVec 8
  t1 : BitVec 11
  t2 : BitVec 11
  afmt : BitVec 3
  span : BitVec 3
  deriving DecidableEq, Repr, Inhabited

/-- A record of `mx.epi` (R279). -/
structure MxEpiRec where
  hdr : CmdHdr
  l1 : Lvl
  clear : Bool
  relu : Bool
  base : BitVec 52
  accrow : BitVec 10
  acccol : BitVec 8
  cols1 : BitVec 8
  ofmt : BitVec 3
  sat : Bool
  rnd : BitVec 2
  scale : W32
  deriving DecidableEq, Repr, Inhabited

/-- A record of `mx.drain` (R281). -/
structure MxDrainRec where
  hdr : CmdHdr
  l1 : Lvl
  clear : Bool
  accrow : BitVec 10
  acccol : BitVec 8
  wide : Bool
  deriving DecidableEq, Repr, Inhabited

/-- A record of `mx.zero` (R282). -/
structure MxZeroRec where
  hdr : CmdHdr
  l1 : Lvl
  accrow : BitVec 10
  acccol : BitVec 8
  cols1 : BitVec 8
  deriving DecidableEq, Repr, Inhabited

/-- A record of `g.run` (R300). -/
structure GRunRec where
  hdr : CmdHdr
  vectors : BitVec 24
  sx : W32
  window : BitVec 16
  port : BitVec 2
  slot : BitVec 4
  i16 : Bool
  side : Bool
  deriving DecidableEq, Repr, Inhabited

/-- How a `cam.scat` intent merges into its cell (R324). -/
inductive CamMerge where
  | keep | replace | blend
  deriving DecidableEq, Repr, Inhabited

/-- A record of the camera engine (R319). -/
structure CamRec where
  hdr : CmdHdr
  cam : BitVec 3
  handle : BitVec 2
  merge : CamMerge
  l1 : Lvl
  l2 : Lvl
  l3 : Lvl
  l4 : Lvl
  l5 : Lvl
  tok : BitVec 24
  steps1 : BitVec 9
  thr : BitVec 8
  window : BitVec 16
  port : BitVec 3
  edge : Bool
  deriving DecidableEq, Repr, Inhabited

/-- A record of the attention engine (R341, R342). `w4` holds the key and value scales of `at.app`, and the
list address of `at.sel` and `at.att`. -/
structure AtRec where
  hdr : CmdHdr
  rows : Lvl
  handle : BitVec 52
  rowBase : BitVec 52
  w4 : Word
  out : BitVec 52
  cw : BitVec 52
  scope : Scope
  causal : Bool
  sinks : BitVec 8
  recent : BitVec 8
  limit1 : BitVec 8
  deriving DecidableEq, Repr, Inhabited

/-- The four attention commands (R341). -/
inductive AtOp where
  | app | sel | att | trunc
  deriving DecidableEq, Repr, Inhabited

/-- The operation of an `l.coll` (R374). -/
inductive CollOp where
  | sum | max | min | allgather | broadcast
  deriving DecidableEq, Repr, Inhabited

/-- The element type of an `l.coll` (R374). -/
inductive CollTy where
  | f32 | bf16 | i32 | n32
  deriving DecidableEq, Repr, Inhabited

/-- A record of `l.coll` (R374). -/
structure LCollRec where
  hdr : CmdHdr
  n : BitVec 24
  src : BitVec 52
  dst : BitVec 52
  grp : BitVec 52
  cw : BitVec 52
  op : CollOp
  ty : CollTy
  pair : Bool
  root : BitVec 10
  scope : Scope
  deriving DecidableEq, Repr, Inhabited

/-! ## Messages and packets -/

/-- A task of a package, as the link names it. -/
structure TaskName where
  pkg : BitVec 10
  task : W32
  deriving DecidableEq, Repr, Inhabited

/-- The sender of a remote operation: its package and task, the number of the operation there, its tenant
context and its owner tag (R369). -/
structure Sender where
  who : TaskName
  op : Nat
  tenant : BitVec 16
  owner : BitVec 8
  deriving DecidableEq, Repr, Inhabited

/-- What comes back to the sender of a remote operation (R370, R371, R165, R373). -/
inductive Reply where
  | done                       -- an `lput` has performed, an `lsend` was delivered
  | bytes (bs : List Byte)     -- the bytes of an `lget`
  | old (v : Word)             -- the old value of an `lamo`
  | failed (va : Word)         -- 0x38, with the remote address
  | dead                       -- 0x39, the message came back
  | page (ge : Option Word) (bs : List Byte)  -- a global entry, none beyond ATGSIZE, and the page's bytes (R340)
  | pageBad (ge : Option Word) (hard : Bool)  -- a granule of the table, or of an entry's page, is past correction or fails its check (R335)
  deriving DecidableEq, Repr, Inhabited

/-- A member's part of a collective (R375, R376): what must agree, and the member's elements. -/
structure CollPart where
  tag : W32
  seqNo : Nat
  rank : Nat
  members : List (BitVec 10)
  op : CollOp
  ty : CollTy
  pair : Bool
  root : BitVec 10
  n : Nat
  data : List W32
  deriving DecidableEq, Repr, Inhabited

/-- A packet of the Collective class (R364, R376, R379). -/
inductive CollMsg where
  | part (p : CollPart)                          -- data of a member's `l.coll`
  | ended (tag : W32) (seqNo : Nat) (from' : BitVec 10)  -- the collective of a member failed, or its gang ended first
  | arrive (id : BitVec 4) (from' : BitVec 10)    -- all parties of `bar.pd id` on a package arrived
  | barEnded (id : BitVec 4) (from' : BitVec 10)  -- a member's gang ended with a party still to arrive
  deriving DecidableEq, Repr, Inhabited

/-- What an attention command asks of a block that another package holds: bytes of its page to read, or bytes to write at
an offset of it (R340, R357). DEDUCED, log entry 24. -/
structure PageReq where
  block : BitVec 52
  len : Nat := 0
  put : Option (Nat × List Byte) := none
  deriving DecidableEq, Repr, Inhabited

/-- An array line that the scrubber reads (R380). -/
inductive ArrayLine where
  | bank (region : BitVec 4) (part : Bool) (elem : ElemIx) (line : BitVec 10)
  | entry (region : BitVec 4) (part : Bool) (elem : ElemIx) (ix : BitVec 11)
  | acc (region : BitVec 4) (part : Bool) (row : BitVec 10) (col : BitVec 8)
  | loom (region : BitVec 4) (part : Bool) (slot : BitVec 4) (node : BitVec 20)
  | mem (granule : BitVec 46)
  deriving DecidableEq, Repr, Inhabited

/-! ## Task images -/

/-- An island of an image (R197). -/
structure IslandDesc where
  top : Nat := 0
  left : Nat := 0
  bottom : Nat := 0
  right : Nat := 0
  selRow : Nat := 0
  selCol : Nat := 0
  hasB : Bool := false
  period : Nat := 1
  count : Nat := 0
  deriving DecidableEq, Repr, Inhabited

/-- An element's configuration word, constants and entries under schedules A and B (R198, R35, R46). `bad` says
that the word holds an illegal code or a reserved bit. -/
structure ElemCfg where
  bad : Bool := false
  cdir : Option Dir := none
  repl : Bool := false
  blk : Nat := 32
  consts : SMap W128 := []
  entA : List Word := []
  entB : List Word := []
  deriving DecidableEq, Repr, Inhabited

/-- An address word of a record that the loader patches: the stream or block it names and the byte offset
from the start of that block (R32, R38). -/
structure CmdRef where
  word : Nat
  stream : Nat
  off : Nat
  deriving DecidableEq, Repr, Inhabited

/-- A record of the command table: its eight words and the objects its address words name. -/
structure CmdRec where
  words : List Word := []
  refs : List CmdRef := []
  deriving DecidableEq, Repr, Inhabited

/-- A declared memory node (R32); `data` is the index of its data block. -/
structure StreamDecl where
  data : Nat := 0
  reads : Bool := true
  writes : Bool := false
  bw : Nat := 0
  lo : Nat := 0
  hi : Nat := 0
  deriving DecidableEq, Repr, Inhabited

/-- Where a data block goes (R31, R263). -/
inductive DataPlace where
  | basin
  | device (va : Option Nat)
  | bank (elem : Nat) (at' : Nat)
  deriving DecidableEq, Repr, Inhabited

/-- A data block (R31). DESIGN CHOICE, log entry 69. -/
structure DataDecl where
  place : DataPlace := .basin
  align : Nat := 64
  bytes : List Byte := []
  name : Nat := 0
  deriving DecidableEq, Repr, Inhabited

/-- A store block (R40, R311, R312). -/
structure StoreDecl where
  name : Nat := 0
  handle : Nat := 0
  origin : List W32 := []
  icell : W32 := 0
  low : List Int := []
  high : List Int := []
  fcode : Nat := 0
  fill : BitVec 16 := 0
  pool : Nat := 0
  table : Nat := 1
  bw : Nat := 1
  va : Option Nat := none
  deriving DecidableEq, Repr, Inhabited

/-- Where a data block's contents lie in the Data section, with its declaration (R31, R46). -/
structure DataLay where
  decl : DataDecl := {}
  at' : Nat := 0
  len : Nat := 0
  deriving DecidableEq, Repr, Inhabited

/-- Where the contents of the sections of an image lie in their bytes, and the declarations whose encoding the
spec does not give (R46). Islands, records and the Children table need none: they stand one after the other.
DESIGN CHOICE, log entry 10. -/
structure ImageLayout where
  /-- An element, the byte offset of its part of the Elements section, its entries under A and under B. -/
  elems : List (Nat × Nat × Nat × Nat) := []
  /-- The objects that the address words of each record name. -/
  refs : List (List CmdRef) := []
  streams : List StreamDecl := []
  datas : List DataLay := []
  /-- Offset and size of each graph image. -/
  graphs : List (Nat × Nat) := []
  /-- Offset of each camera image. -/
  cams : List Nat := []
  stores : List StoreDecl := []
  /-- Offset of the first sequencer word, number of words, entry offset. -/
  codeAt : Nat := 0
  codeLen : Nat := 0
  entry : Nat := 0
  /-- Number of child images. -/
  children : Nat := 0
  deriving DecidableEq, Repr, Inhabited

/-- The contents of the sections of a task image (R46). Graphs and camera blocks are the byte images of
R288 and R309; a child is the offset and size of its image in the parent's Children section (R42); the Symbols
section is kept as its bytes. DESIGN CHOICE, log entries 10 and 69. -/
structure Image where
  isls : List IslandDesc := []
  elems : SMap ElemCfg := []
  cmds : List CmdRec := []
  streams : List StreamDecl := []
  datas : List DataDecl := []
  graphs : List (List Byte) := []
  cams : List (SMap W32) := []
  stores : List StoreDecl := []
  code : List W32 := []
  entry : Nat := 0
  symbols : List Byte := []
  children : List (Nat × Nat) := []
  deriving DecidableEq, Repr, Inhabited

/-! ## The steps -/

/-- One constructor per row of the opcode table, in its order. Contexts `c` are 2 x region + partition;
`k` is a command index, `i` an island index, `e` an element index. -/
inductive Instr where
  /-- ADD (R112). -/
  | add (d a b : Reg)
  /-- SUB (R112). -/
  | sub (d a b : Reg)
  /-- AND (R112). -/
  | and (d a b : Reg)
  /-- OR (R112). -/
  | or (d a b : Reg)
  /-- XOR (R112). -/
  | xor (d a b : Reg)
  /-- SHL (R112). -/
  | shl (d a b : Reg)
  /-- SHR (R112). -/
  | shr (d a b : Reg)
  /-- SRA (R112). -/
  | sra (d a b : Reg)
  /-- SLT (R112). -/
  | slt (d a b : Reg)
  /-- SLTN (R112). -/
  | sltn (d a b : Reg)
  /-- MIN (R112). -/
  | min (d a b : Reg)
  /-- MAX (R112). -/
  | max (d a b : Reg)
  /-- MINN (R112). -/
  | minn (d a b : Reg)
  /-- MAXN (R112). -/
  | maxn (d a b : Reg)
  /-- MUL (R112). -/
  | mul (d a b : Reg)
  /-- MULH (R112). -/
  | mulh (d a b : Reg)
  /-- MULHN (R112). -/
  | mulhn (d a b : Reg)
  /-- DIV (R113). -/
  | div (d a b : Reg)
  /-- DIVN (R113). -/
  | divn (d a b : Reg)
  /-- REM (R113). -/
  | rem (d a b : Reg)
  /-- REMN (R113). -/
  | remn (d a b : Reg)
  /-- ADDX (R112). -/
  | addx (d a b : Reg) (k : BitVec 3)
  /-- ADDI (R114). -/
  | addi (d a : Reg) (imm : BitVec 16)
  /-- SLTI (R114). -/
  | slti (d a : Reg) (imm : BitVec 16)
  /-- SLTNI (R114). -/
  | sltni (d a : Reg) (imm : BitVec 16)
  /-- ANDI (R114). -/
  | andi (d a : Reg) (imm : BitVec 16)
  /-- ORI (R114). -/
  | ori (d a : Reg) (imm : BitVec 16)
  /-- XORI (R114). -/
  | xori (d a : Reg) (imm : BitVec 16)
  /-- SHLI (R114). -/
  | shli (d a : Reg) (imm : BitVec 6)
  /-- SHRI (R114). -/
  | shri (d a : Reg) (imm : BitVec 6)
  /-- SRAI (R114). -/
  | srai (d a : Reg) (imm : BitVec 6)
  /-- LUI (R114). -/
  | lui (d : Reg) (imm : BitVec 16)
  /-- LB (R115). -/
  | lb (d a : Reg) (off : BitVec 16)
  /-- LBN (R115). -/
  | lbn (d a : Reg) (off : BitVec 16)
  /-- LH (R115). -/
  | lh (d a : Reg) (off : BitVec 16)
  /-- LHN (R115). -/
  | lhn (d a : Reg) (off : BitVec 16)
  /-- LW (R115). -/
  | lw (d a : Reg) (off : BitVec 16)
  /-- LWN (R115). -/
  | lwn (d a : Reg) (off : BitVec 16)
  /-- LD (R115). -/
  | ld (d a : Reg) (off : BitVec 16)
  /-- SB (R115). -/
  | sb (src a : Reg) (off : BitVec 16)
  /-- SH (R115). -/
  | sh (src a : Reg) (off : BitVec 16)
  /-- SW (R115). -/
  | sw (src a : Reg) (off : BitVec 16)
  /-- SD (R115). -/
  | sd (src a : Reg) (off : BitVec 16)
  /-- ASWP (R117). -/
  | aswp (d a b : Reg) (ord : AtomOrd) (scope : Scope) (dbl : Bool)
  /-- AADD (R117). -/
  | aadd (d a b : Reg) (ord : AtomOrd) (scope : Scope) (dbl : Bool)
  /-- AAND (R117). -/
  | aand (d a b : Reg) (ord : AtomOrd) (scope : Scope) (dbl : Bool)
  /-- AOR (R117). -/
  | aor (d a b : Reg) (ord : AtomOrd) (scope : Scope) (dbl : Bool)
  /-- AXOR (R117). -/
  | axor (d a b : Reg) (ord : AtomOrd) (scope : Scope) (dbl : Bool)
  /-- AMIN (R117). -/
  | amin (d a b : Reg) (ord : AtomOrd) (scope : Scope) (dbl : Bool)
  /-- AMAX (R117). -/
  | amax (d a b : Reg) (ord : AtomOrd) (scope : Scope) (dbl : Bool)
  /-- AMINN (R117). -/
  | aminn (d a b : Reg) (ord : AtomOrd) (scope : Scope) (dbl : Bool)
  /-- AMAXN (R117). -/
  | amaxn (d a b : Reg) (ord : AtomOrd) (scope : Scope) (dbl : Bool)
  /-- ACAS (R117). -/
  | acas (d a b : Reg) (ord : AtomOrd) (scope : Scope) (dbl : Bool)
  /-- FENCE (R119). -/
  | fence (kind : FenceKind) (scope : Scope)
  /-- BEQ (R120). -/
  | beq (a b : Reg) (off : BitVec 16)
  /-- BNE (R120). -/
  | bne (a b : Reg) (off : BitVec 16)
  /-- BLT (R120). -/
  | blt (a b : Reg) (off : BitVec 16)
  /-- BGE (R120). -/
  | bge (a b : Reg) (off : BitVec 16)
  /-- BLTN (R120). -/
  | bltn (a b : Reg) (off : BitVec 16)
  /-- BGEN (R120). -/
  | bgen (a b : Reg) (off : BitVec 16)
  /-- JAL (R121). -/
  | jal (d : Reg) (off : BitVec 21)
  /-- JLR (R121). -/
  | jlr (d a : Reg) (off : BitVec 16)
  /-- MFS (R122). -/
  | mfs (d : Reg) (sys : BitVec 12)
  /-- MTS (R122). -/
  | mts (a : Reg) (sys : BitVec 12)
  /-- ERET (R122). -/
  | eret
  /-- WAIT (R122). -/
  | wait
  /-- TLBINV (R122). -/
  | tlbinv (a : Reg)
  /-- TRAP (R123). -/
  | trap (imm : BitVec 16)
  /-- BRK (R123). -/
  | brk (imm : BitVec 16)
  /-- TGO (R124). -/
  | tgo (i : BitVec 6)
  /-- TWAIT (R125). -/
  | twait (i : BitVec 6)
  /-- TEND (R126). -/
  | tend
  /-- TSPAWN (R127). -/
  | tspawn (d a : Reg) (image : BitVec 16)
  /-- BAR (R128). -/
  | bar (scope : Scope) (id : BitVec 4)
  /-- CWAIT (R129). -/
  | cwait (d a b : Reg) (scope : Scope)
  /-- CMDW (R130). -/
  | cmdw (a b : Reg) (field : BitVec 5)
  /-- GLOAD (R131). -/
  | gload (d : Reg) (graph : BitVec 16)
  /-- GFREE (R132). -/
  | gfree (a : Reg)
  /-- GSTAT (R133). -/
  | gstat (d a : Reg)
  /-- CAMW (R134). -/
  | camw (cam : BitVec 3) (a : Reg) (field : BitVec 6)
  /-- CAMLD (R134). -/
  | camld (cam : BitVec 3) (block : BitVec 16)
  /-- LPUT (R136). -/
  | lput (a : Reg)
  /-- LGET (R136). -/
  | lget (a : Reg)
  /-- LAMO (R136). -/
  | lamo (d a : Reg)
  /-- LSEND (R136). -/
  | lsend (a : Reg)
  /-- LNOTIFY (R136). -/
  | lnotify (a : Reg)
  /-- MRECV (R136). -/
  | mrecv (d a : Reg)
  /-- ENTRY_ADD (R177). -/
  | entryAdd (f : EntryF)
  /-- ENTRY_SUB (R177). -/
  | entrySub (f : EntryF)
  /-- ENTRY_MUL (R177). -/
  | entryMul (f : EntryF)
  /-- ENTRY_FMA (R177). -/
  | entryFma (f : EntryF)
  /-- ENTRY_FMS (R177). -/
  | entryFms (f : EntryF)
  /-- ENTRY_FNMA (R177). -/
  | entryFnma (f : EntryF)
  /-- ENTRY_MIN (R177). -/
  | entryMin (f : EntryF)
  /-- ENTRY_MAX (R177). -/
  | entryMax (f : EntryF)
  /-- ENTRY_ABS (R177). -/
  | entryAbs (f : EntryF)
  /-- ENTRY_NEG (R177). -/
  | entryNeg (f : EntryF)
  /-- ENTRY_CLAMP (R177). -/
  | entryClamp (f : EntryF)
  /-- ENTRY_DIV (R177). -/
  | entryDiv (f : EntryF)
  /-- ENTRY_SQRT (R177). -/
  | entrySqrt (f : EntryF)
  /-- ENTRY_EXP2 (R177). -/
  | entryExp2 (f : EntryF)
  /-- ENTRY_LG2 (R177). -/
  | entryLg2 (f : EntryF)
  /-- ENTRY_RINT (R177). -/
  | entryRint (f : EntryF)
  /-- ENTRY_SHL (R179). -/
  | entryShl (f : EntryF)
  /-- ENTRY_SHR (R179). -/
  | entryShr (f : EntryF)
  /-- ENTRY_SRA (R179). -/
  | entrySra (f : EntryF)
  /-- ENTRY_AND (R179). -/
  | entryAnd (f : EntryF)
  /-- ENTRY_OR (R179). -/
  | entryOr (f : EntryF)
  /-- ENTRY_XOR (R179). -/
  | entryXor (f : EntryF)
  /-- ENTRY_ANDN (R179). -/
  | entryAndn (f : EntryF)
  /-- ENTRY_NOT (R179). -/
  | entryNot (f : EntryF)
  /-- ENTRY_MULH (R179). -/
  | entryMulh (f : EntryF)
  /-- ENTRY_CLZ (R179). -/
  | entryClz (f : EntryF)
  /-- ENTRY_POPC (R179). -/
  | entryPopc (f : EntryF)
  /-- ENTRY_CMPEQ (R181). -/
  | entryCmpeq (f : EntryF)
  /-- ENTRY_CMPNE (R181). -/
  | entryCmpne (f : EntryF)
  /-- ENTRY_CMPLT (R181). -/
  | entryCmplt (f : EntryF)
  /-- ENTRY_CMPLE (R181). -/
  | entryCmple (f : EntryF)
  /-- ENTRY_CMPGT (R181). -/
  | entryCmpgt (f : EntryF)
  /-- ENTRY_CMPGE (R181). -/
  | entryCmpge (f : EntryF)
  /-- ENTRY_CMPUN (R181). -/
  | entryCmpun (f : EntryF)
  /-- ENTRY_SEL (R182). -/
  | entrySel (f : EntryF)
  /-- ENTRY_CVT (R183). -/
  | entryCvt (f : EntryF)
  /-- ENTRY_BLK_PACK (R184). -/
  | entryBlkPack (f : EntryF)
  /-- ENTRY_BLK_UNPK (R185). -/
  | entryBlkUnpk (f : EntryF)
  /-- ENTRY_SHUF (R186). -/
  | entryShuf (f : EntryF)
  /-- ENTRY_BCAST (R186). -/
  | entryBcast (f : EntryF)
  /-- ENTRY_ROT (R186). -/
  | entryRot (f : EntryF)
  /-- ENTRY_HSUM (R187). -/
  | entryHsum (f : EntryF)
  /-- ENTRY_HMAX (R187). -/
  | entryHmax (f : EntryF)
  /-- ENTRY_HMIN (R187). -/
  | entryHmin (f : EntryF)
  /-- ENTRY_SCAN (R187). -/
  | entryScan (f : EntryF)
  /-- ENTRY_MOV (R188). -/
  | entryMov (f : EntryF)
  /-- ENTRY_REP (R189). -/
  | entryRep (f : EntryF)
  /-- ENTRY_LDB (R192). -/
  | entryLdb (f : EntryF)
  /-- ENTRY_LDBX (R192). -/
  | entryLdbx (f : EntryF)
  /-- ENTRY_STB (R193). -/
  | entryStb (f : EntryF)
  /-- ENTRY_STBX (R193). -/
  | entryStbx (f : EntryF)
  /-- ENTRY_CADD (R190). -/
  | entryCadd (f : EntryF)
  /-- ENTRY_CSUB (R190). -/
  | entryCsub (f : EntryF)
  /-- ENTRY_CAND (R190). -/
  | entryCand (f : EntryF)
  /-- ENTRY_COR (R190). -/
  | entryCor (f : EntryF)
  /-- ENTRY_CSHL (R190). -/
  | entryCshl (f : EntryF)
  /-- ENTRY_CMOV (R190). -/
  | entryCmov (f : EntryF)
  /-- ENTRY_CCMP (R190). -/
  | entryCcmp (f : EntryF)
  /-- ENTRY_RNG_DRAW (R212). -/
  | entryRngDraw (f : EntryF)
  /-- ENTRY_RNG_SEED (R212). -/
  | entryRngSeed (f : EntryF)
  /-- ENTRY_RSV (R213). -/
  | entryRsv (f : EntryF)
  /-- ENTRY_RSVM (R214). -/
  | entryRsvm (f : EntryF)
  /-- ENTRY_BITT (R215). -/
  | entryBitt (f : EntryF)
  /-- ENTRY_LUT16 (R216). -/
  | entryLut16 (f : EntryF)
  /-- ENTRY_COND (R210). -/
  | entryCond (f : EntryF)
  /-- ENTRY_CHK (R211). -/
  | entryChk (f : EntryF)
  /-- S_IN (R242). -/
  | sIn (r : StreamRec)
  /-- S_IN_PLANE (R245). -/
  | sInPlane (r : StreamRec)
  /-- S_OUT (R242). -/
  | sOut (r : StreamRec)
  /-- S_GATH (R243). -/
  | sGath (r : StreamRec)
  /-- S_SCAT (R243). -/
  | sScat (r : StreamRec)
  /-- S_COPY (R244). -/
  | sCopy (r : StreamRec)
  /-- WH_RED (R248). -/
  | whRed (r : WhRedRec)
  /-- WH_FILT (R249). -/
  | whFilt (r : WhFiltRec)
  /-- MX_WLOAD (R274). -/
  | mxWload (r : MxWloadRec)
  /-- MX_SWAP (R275). -/
  | mxSwap (h : CmdHdr)
  /-- MX_STEP (R276). -/
  | mxStep (r : MxStepRec)
  /-- MX_EPI (R279). -/
  | mxEpi (r : MxEpiRec)
  /-- MX_ZERO (R282). -/
  | mxZero (r : MxZeroRec)
  /-- MX_DRAIN (R281). -/
  | mxDrain (r : MxDrainRec)
  /-- G_RUN (R301). -/
  | gRun (r : GRunRec)
  /-- CAM_GATH (R320). -/
  | camGath (r : CamRec)
  /-- CAM_GATH_DEPTH (R321). -/
  | camGathDepth (r : CamRec)
  /-- CAM_SCAT (R323). -/
  | camScat (r : CamRec)
  /-- CAM_PROJ (R326). -/
  | camProj (r : CamRec)
  /-- ATTENTION_QUEUE_JOIN (R348). -/
  | attentionQueueJoin (op : AtOp) (r : AtRec)
  /-- AT_APP (R350). -/
  | atApp (r : AtRec)
  /-- AT_SEL (R352). -/
  | atSel (r : AtRec)
  /-- AT_ATT (R353). -/
  | atAtt (r : AtRec)
  /-- AT_TRUNC (R351). -/
  | atTrunc (r : AtRec)
  /-- L_COLL_REDUCE (R377). -/
  | lCollReduce (r : LCollRec)
  /-- L_COLL_ALLGATHER (R377). -/
  | lCollAllgather (r : LCollRec)
  /-- L_COLL_BROADCAST (R377). -/
  | lCollBroadcast (r : LCollRec)
  /-- WINDOW_END (R17). -/
  | windowEnd (c : Ctx) (k : BitVec 8)
  /-- STREAM_READ_ARRIVES (R240). -/
  | streamReadArrives (c : Ctx) (k : BitVec 8)
  /-- INTERVAL_SAMPLE (R202). -/
  | intervalSample (c : Ctx) (i : BitVec 6)
  /-- ISLAND_FINISH (R201). -/
  | islandFinish (c : Ctx) (i : BitVec 6)
  /-- LOCK_ENTRY_AVAILABLE (R205). -/
  | lockEntryAvailable (c : Ctx) (e : ElemIx) (dir : Dir)
  /-- PENDING_WRITE_LANDS (R109). -/
  | pendingWriteLands (c : Ctx) (d : Reg)
  /-- GLOAD_COMPLETE (R296). -/
  | gloadComplete (c : Ctx)
  /-- TSPAWN_REPLY (R127). -/
  | tspawnReply (c : Ctx)
  /-- LINK_OP_LEAVES (R136). -/
  | linkOpLeaves (task : W32)
  /-- LINK_REPLY (R370). -/
  | linkReply (op : Nat) (r : Reply)
  /-- REMOTE_WRITE (R370). -/
  | remoteWrite (s : Sender) (va : Word) (bs : List Byte)
  /-- REMOTE_READ (R369). -/
  | remoteRead (s : Sender) (va : Word) (len : Nat)
  /-- REMOTE_ATOMIC (R371). -/
  | remoteAtomic (s : Sender) (va : Word) (aop : BitVec 4) (dbl : Bool) (operand compare : Word)
  /-- MAILBOX_DELIVERY (R165). -/
  | mailboxDelivery (s : Sender) (task : W32) (bs : List Byte)
  /-- BARRIER_RELEASE (R128). -/
  | barrierRelease (scope : Scope) (inst : BitVec 5) (id : BitVec 4)
  /-- COMMIT (R80). -/
  | commit (scope : Scope) (inst : BitVec 5)
  /-- FAULT_RECORD_WRITE (R158). -/
  | faultRecordWrite
  /-- FBFLUSH (R159). -/
  | fbflush
  /-- INVALIDATE_PAGE (R257). -/
  | invalidatePage
  /-- INVALIDATE_CONTEXT (R257). -/
  | invalidateContext
  /-- STARTCTL_CLEAR (R388). -/
  | startctlClear
  /-- MAINTENANCE_RESET (R388). -/
  | maintenanceReset
  /-- WARM_RESET (R388). -/
  | warmReset
  /-- REGISTER_WRITE (R160). -/
  | registerWrite (addr : BitVec 52) (v : Word)
  /-- HOST_READ (R366). -/
  | hostRead (addr : BitVec 52) (len : Nat)
  /-- HOST_WRITE (R366). -/
  | hostWrite (addr : BitVec 52) (bs : List Byte)
  /-- LAUNCH (R138). -/
  | launch (q : BitVec 8) (ep : Word) (msg : List Word)
  /-- BATCH_LAUNCH (R163). -/
  | batchLaunch (q : BitVec 8) (ep : Word) (msg : List Word)
  /-- ATTENTION_RESUME (R355). -/
  | attentionResume (q : BitVec 8) (ep : Word) (msg : List Word)
  /-- GANG_PLACEMENT (R143). -/
  | gangPlacement (g : Nat)
  /-- PLANE_SWAP (R146). -/
  | planeSwap (c : Ctx)
  /-- BATCH_ITERATION (R164). -/
  | batchIteration (g : Nat)
  /-- SPILL (R155). -/
  | spill (c : Ctx)
  /-- RESTORE (R149). -/
  | restore (c : Ctx)
  /-- FREEZE (R152). -/
  | freeze (r : BitVec 4)
  /-- DRAIN_END (R153). -/
  | drainEnd (r : BitVec 4)
  /-- SLICE_END (R150). -/
  | sliceEnd (r : BitVec 4)
  /-- STALL_TIMEOUT (R150). -/
  | stallTimeout (c : Ctx)
  /-- COALESCE_WINDOW_CLOSE (R162). -/
  | coalesceWindowClose (q : BitVec 8)
  /-- WAIT_TIMEOUT (R122). -/
  | waitTimeout (c : Ctx)
  /-- COLD_START (R385). -/
  | coldStart
  /-- RESET_LINE (R385). -/
  | resetLine
  /-- START_TIMEOUT (R386). -/
  | startTimeout
  /-- AGEING_CHECK (R383). -/
  | ageingCheck (r : BitVec 4)
  /-- SCRUB_LINE (R380). -/
  | scrubLine (l : ArrayLine)
  /-- REFRESH (R261). -/
  | refresh (stack : BitVec 4) (chan : BitVec 5) (pseudo : Bool)
  /-- ISLAND_CYCLE (R167). -/
  | islandCycle (c : Ctx) (i : BitVec 6)
  /-- WRITE_BEAT_ACCEPTED (R240). -/
  | writeBeatAccepted (c : Ctx) (k : BitVec 8)
  /-- COLLECTIVE_PACKET (R376). -/
  | collectivePacket (m : CollMsg)
  /-- LINK_PATH_FAILURE (R363). -/
  | linkPathFailure (port : BitVec 5)
  /-- REMOTE_PAGE_REQUEST (R340). -/
  | remotePageRequest (s : Sender) (block : PageReq)
  deriving DecidableEq, Repr, Inhabited

end Sys2Proof
end

