-- ==== Sys2Proof/WellFormed.lean ====
section
/-!
DEFINITION. Which steps are well formed: the field values that the encodings allow (R2, R106, R107, R128,
R134, R173, R175, R236, R238, R247, R249, R270 to R282, R300, R319, R342, R374). What needs an element's
configuration, a stream's range or a placement is checked by the loader, in Machine/Loader.lean.
-/

namespace Sys2Proof

/-! ## Sequencer instructions -/

/-- A scope that a sequencer instruction or a descriptor may name: every level but lane (R107). -/
def Scope.named : Scope → Bool
  | .lane => false
  | _ => true

/-! ## Timed entries -/

/-- Set F of R173. -/
def Ty.isF : Ty → Bool
  | .f32 | .bf16 | .f16 => true
  | _ => false

/-- Set F8 of R173. -/
def Ty.isF8 : Ty → Bool
  | .e4m3 | .e5m2 => true
  | _ => false

/-- Set I of R173. -/
def Ty.isI : Ty → Bool
  | .i32 | .n32 | .i16 | .n16 | .i8 | .n8 => true
  | _ => false

/-- Set I64 of R173. -/
def Ty.isI64 : Ty → Bool
  | .i64 => true
  | _ => false

/-- The width in bits of a lane of a type (R48). -/
def Ty.width : Ty → Nat
  | .f32 | .i32 | .n32 => 32
  | .bf16 | .f16 | .i16 | .n16 => 16
  | .e4m3 | .e5m2 | .i8 | .n8 => 8
  | .e2m1 => 4
  | .i64 => 64
  | .bits => 128

/-- The number of lanes of a type (R48). -/
def Ty.lanes (t : Ty) : Nat := 128 / t.width

/-- The type that a 4-bit code names (R173). -/
def Ty.ofCode? : Nat → Option Ty
  | 0 => some .f32 | 1 => some .bf16 | 2 => some .f16 | 3 => some .e4m3 | 4 => some .e5m2
  | 5 => some .e2m1 | 6 => some .i32 | 7 => some .n32 | 8 => some .i16 | 9 => some .n16
  | 10 => some .i8 | 11 => some .n8 | 12 => some .i64 | 13 => some .bits
  | _ => none

/-- The code of a type (R173). -/
def Ty.code : Ty → Nat
  | .f32 => 0 | .bf16 => 1 | .f16 => 2 | .e4m3 => 3 | .e5m2 => 4 | .e2m1 => 5 | .i32 => 6
  | .n32 => 7 | .i16 => 8 | .n16 => 9 | .i8 => 10 | .n8 => 11 | .i64 => 12 | .bits => 13

/-- The code of a rounding mode (R172). -/
def Rnd.code : Rnd → Nat
  | .rn => 0 | .rz => 1 | .ru => 2 | .rs => 3

/-- The 3-bit mode of an entry: overflow mode, then rounding mode (R172). -/
def EntryF.mode (f : EntryF) : Nat := (if f.sat then 4 else 0) + f.rnd.code

/-- An operand field that the op does not use is zero (R175). -/
def Opnd.zero (o : Opnd) : Bool := o == {}

/-- No operand, A alone, A and B, or all three are used. -/
def EntryF.uses0 (f : EntryF) : Bool := f.a.zero && f.b.zero && f.c.zero
def EntryF.uses1 (f : EntryF) : Bool := f.b.zero && f.c.zero
def EntryF.uses2 (f : EntryF) : Bool := f.c.zero

/-- X bits lo and up are zero. -/
def EntryF.xBelow (f : EntryF) (lo : Nat) : Bool := f.x.toNat < 2 ^ lo

/-- Arithmetic that rounds floats in every mode and wraps or clamps integers (R178, R180). -/
def EntryF.arith (f : EntryF) (i64 : Bool) : Bool :=
  ((f.ty.isF || f.ty.isF8) || ((f.ty.isI || (i64 && f.ty.isI64)) && (f.mode == 0 || f.mode == 4)))
    && f.xBelow 0

/-- `min`, `max`, `clamp` (R178, R180). -/
def EntryF.exact (f : EntryF) : Bool :=
  (f.ty.isF || f.ty.isF8 || f.ty.isI || f.ty.isI64) && f.mode == 0 && f.xBelow 0

/-- `abs` and `neg` (R178, R180). -/
def EntryF.absNeg (f : EntryF) : Bool :=
  (((f.ty.isF || f.ty.isF8) && f.mode == 0) || ((f.ty.isI || f.ty.isI64) && (f.mode == 0 || f.mode == 4)))
    && f.xBelow 0

/-- Set F alone, in modes 0 to 7 (R178). -/
def EntryF.fOnly (f : EntryF) : Bool := f.ty.isF && f.xBelow 0

/-- Set I alone, mode 0 (R180). -/
def EntryF.iOnly (f : EntryF) : Bool := f.ty.isI && f.mode == 0 && f.xBelow 0

/-- Shifts (R180). -/
def EntryF.shift (f : EntryF) : Bool := (f.ty.isI || f.ty.isI64) && f.mode == 0 && f.xBelow 0

/-- Logic on all bits, whatever the type (R180). -/
def EntryF.logic (f : EntryF) : Bool := f.mode == 0 && f.xBelow 0

/-- Compares (R181). -/
def EntryF.cmp (f : EntryF) : Bool := f.exact

/-- The source type of `cvt`, `blk.pack` and `blk.unpk` (R183 to R185). -/
def EntryF.src (f : EntryF) : Option Ty := Ty.ofCode? (f.x.toNat % 16)

/-- `cvt` (R183). -/
def EntryF.cvtOk (f : EntryF) : Bool :=
  match f.src with
  | none => false
  | some s =>
    s != .bits && f.ty != .bits && f.xBelow 9 &&
    (let part := f.x.toNat / 16 % 16
     let merge := f.x.toNat / 256 % 2
     let ls := s.lanes
     let ld := f.ty.lanes
     part < (max ls ld) / (min ls ld) && (merge == 0 || ls < ld) && (merge == 1 || f.b.zero)
      && f.c.zero)

/-- `blk.pack` (R184), apart from what needs the element's block length. -/
def EntryF.packOk (f : EntryF) : Bool :=
  (f.ty == .e2m1 || f.ty.isF8) && (match f.src with | some s => s.isF | none => false)
    && f.xBelow 5 && f.mode == 0 && f.a.line != .k && f.uses1
    && (f.x.toNat / 16 == 0 || f.ty.isF8)

/-- `blk.unpk` (R185). -/
def EntryF.unpkOk (f : EntryF) : Bool :=
  match f.src with
  | none => false
  | some e =>
    (e == .e2m1 || e.isF8) && f.ty.isF && f.xBelow 8 && f.uses1
      && decide (f.x.toNat / 16 % 8 < e.lanes / f.ty.lanes)
      && (f.x.toNat / 128 == 0 || (e.isF8 && f.a.line != .k && decide (f.a.tap.toNat < 15)))

/-- The modes of `hsum` and `scan` (R187). -/
def EntryF.sumMode (f : EntryF) : Bool :=
  if f.ty.isI then f.mode == 0 || f.mode == 4 else f.rnd != .rs

/-- Control-plane ops (R190). -/
def EntryF.ctl (f : EntryF) : Bool := (f.ty == .i32 || f.ty == .n32) && f.mode == 0

/-- The types of `lut16` (R216). -/
def EntryF.lutTy (f : EntryF) : Bool :=
  match f.ty with
  | .e2m1 | .e4m3 | .e5m2 | .i8 | .n8 | .bf16 | .f16 | .i16 | .n16 => true
  | _ => false

/-! ## Command records -/

/-- A level that a command does not use holds count 1 and stride 0 (R272). -/
def Lvl.unused (l : Lvl) : Bool := l == {}

/-- The fields of a stream record outside plane mode (R236). -/
def StreamRec.plain (r : StreamRec) : Bool :=
  r.span == 0 && r.pfmt == 0 && r.bank == 0 && r.esize.toNat ≤ 5 && r.window != 0
    && r.blk != 3 && (r.esize == 5 || r.blk == 0)

/-- The scope of a completion word (R19, R107). -/
abbrev Scope.cwScope (s : Scope) : Bool := s.named

/-- The fields that an attention command does not use hold zero (R342). -/
def AtRec.wf (r : AtRec) : AtOp → Bool
  | .app => r.scope.cwScope && !r.causal && r.sinks == 0 && r.recent == 0 && r.limit1 == 0 && r.out == 0
  | .sel => r.scope.cwScope && r.out == 0 && r.w4.toNat < 2 ^ 52
  | .att => r.scope.cwScope && r.sinks == 0 && r.recent == 0 && r.limit1 == 0 && r.w4.toNat < 2 ^ 52
  | .trunc =>
    r.scope.cwScope && !r.causal && r.sinks == 0 && r.recent == 0 && r.limit1 == 0 && r.out == 0
      && r.rowBase == 0 && r.w4 == 0

/-- Which field values an instruction's encoding admits. An event names any object. -/
def Instr.wf : Instr → Bool
  | .aswp _ _ _ _ s _ | .aadd _ _ _ _ s _ | .aand _ _ _ _ s _ | .aor _ _ _ _ s _
  | .axor _ _ _ _ s _ | .amin _ _ _ _ s _ | .amax _ _ _ _ s _ | .aminn _ _ _ _ s _
  | .amaxn _ _ _ _ s _ | .acas _ _ _ _ s _ => s.named
  | .fence _ s => s.named
  | .bar s _ => s.named
  | .cwait _ _ _ s => s.named
  | .camw _ _ field => field.toNat ≤ 34
  | .entryAdd f | .entrySub f => f.arith true && f.uses2
  | .entryMul f => f.arith false && f.uses2
  | .entryFma f | .entryFms f | .entryFnma f => f.arith false
  | .entryMin f | .entryMax f => f.exact && f.uses2
  | .entryClamp f => f.exact
  | .entryAbs f | .entryNeg f => f.absNeg && f.uses1
  | .entryDiv f => f.fOnly && f.uses2
  | .entrySqrt f | .entryExp2 f | .entryLg2 f => f.fOnly && f.uses1
  | .entryRint f => f.fOnly && !f.sat && f.uses1
  | .entryShl f | .entryShr f | .entrySra f => f.shift && f.uses2
  | .entryAnd f | .entryOr f | .entryXor f | .entryAndn f => f.logic && f.uses2
  | .entryNot f => f.logic && f.uses1
  | .entryMulh f => f.iOnly && f.uses2
  | .entryClz f | .entryPopc f => f.iOnly && f.uses1
  | .entryCmpeq f | .entryCmpne f | .entryCmplt f | .entryCmple f | .entryCmpgt f | .entryCmpge f =>
    f.cmp && f.uses2
  | .entryCmpun f => f.cmp && (f.ty.isF || f.ty.isF8) && f.uses2
  | .entrySel f => f.mode == 0 && f.xBelow 1 && (f.x == 1 || f.c.zero)
  | .entryCvt f => f.cvtOk
  | .entryBlkPack f => f.packOk
  | .entryBlkUnpk f => f.unpkOk
  | .entryShuf f => f.ty != .bits && f.mode == 0 && f.xBelow 0 && f.uses2
  | .entryBcast f | .entryRot f => f.ty != .bits && f.mode == 0 && f.xBelow 5 && f.uses1
  | .entryHsum f => (f.ty.isF || f.ty.isF8 || f.ty.isI) && f.sumMode && f.xBelow 0 && f.uses1
  | .entryScan f => (f.ty.isF || f.ty.isI) && f.sumMode && f.xBelow 0 && f.uses1
  | .entryHmax f | .entryHmin f =>
    (f.ty.isF || f.ty.isF8 || f.ty.isI) && f.mode == 0 && f.xBelow 0 && f.uses1
  | .entryMov f => f.ty == .bits && f.mode == 0 && f.xBelow 0 && f.uses1
  | .entryRep f =>
    (f.ty == .i32 || f.ty == .n32 || f.ty == .f32 || f.ty == .bits) && f.mode == 0 && f.xBelow 0
      && f.a.zero && f.b.zero && f.c.line == .c
  | .entryLdb f => f.ty == .bits && f.mode == 0 && !f.we && f.x.toNat % 16 == 0 && f.uses0
  | .entryLdbx f => f.ty == .bits && f.mode == 0 && !f.we && f.uses1
  | .entryStb f => f.ty == .bits && f.mode == 0 && !f.we && f.x.toNat % 16 == 0 && f.uses1
  | .entryStbx f => f.ty == .bits && f.mode == 0 && !f.we && f.uses2
  | .entryCadd f | .entryCsub f | .entryCand f | .entryCor f | .entryCshl f =>
    f.ctl && f.xBelow 0 && f.uses2
  | .entryCmov f => f.ctl && f.xBelow 0 && f.uses1
  | .entryCcmp f => f.ctl && f.x.toNat ≤ 5 && f.uses2
  | .entryRngDraw f =>
    (f.ty == .f32 || f.ty == .n32 || f.ty == .bits) && f.mode == 0 && f.x == 0 && f.uses0
  | .entryRngSeed f =>
    (f.ty == .bits || f.ty == .i64) && f.mode == 0 && f.x == 1 && f.uses1
  | .entryRsv f => f.ty.isF && f.mode == 0 && f.uses2
  | .entryRsvm f => f.ty == .f32 && f.mode == 0 && f.xBelow 0 && f.uses2
  | .entryBitt f =>
    f.mode == 0 && f.xBelow 8 && f.c.zero &&
      (if f.x.toNat / 128 = 0 then f.ty.isI else f.ty != .bits && f.b.zero)
  | .entryLut16 f => f.lutTy && f.mode == 0 && f.xBelow 0 && (f.ty.width == 16 || f.c.zero)
  | .entryCond f => (f.ty.isI || f.ty == .bits) && f.mode == 0 && !f.we && f.xBelow 0 && f.uses1
  | .entryChk f =>
    (f.ty.isF || f.ty.isF8 || f.ty.isI || f.ty.isI64) && f.mode == 0 && !f.we
      && f.x.toNat % 16 ≤ 5 && f.uses2
  | .sIn r => r.plain && r.base2 == 0
  | .sInPlane r =>
    !r.poison && r.esize == 0 && r.pfmt != 3 && r.bank.toNat % 64 == 0 && r.blk == 0 && r.window != 0
      && r.base2 == 0
  | .sOut r => r.plain && !r.poison && r.base2 == 0
  | .sGath r => r.plain && r.base2 == 0 && r.base.toNat < 2 ^ 48
  | .sScat r => r.plain && !r.poison && r.base2 == 0 && r.base.toNat < 2 ^ 48
  | .sCopy r => r.plain && !r.poison && r.l5.unused
  | .whRed r => r.scope.cwScope && 16 ≤ r.row.toNat && r.row.toNat ≤ 4096 && r.row.toNat % 16 == 0
  | .whFilt r =>
    r.window != 0 && (r.ty.isI || r.ty.isF)
  | .mxWload r =>
    r.wfmt.toNat ≤ 5 && r.blk != 3 && (r.wfmt.toNat ≤ 2 || r.blk == 0)
  | .mxStep r => r.afmt.toNat ≤ 4
  | .mxEpi r => r.ofmt.toNat ≤ 4 && r.rnd != 3
  | .gRun r => r.window != 0 && (!r.side || r.sx == 0)
  | .camGath r => r.window != 0 && r.steps1.toNat ≤ 255 && r.merge == .keep
  | .camGathDepth r => r.window != 0 && r.steps1 == 0 && r.merge == .keep
  | .camScat r => r.window != 0 && r.steps1 == 0 && r.thr == 0
  | .camProj r =>
    r.window != 0 && r.steps1 == 0 && r.thr == 0 && r.merge == .keep && r.handle == 0 && r.tok == 0
  | .attentionQueueJoin op r => r.wf op
  | .atApp r => r.wf .app
  | .atSel r => r.wf .sel
  | .atAtt r => r.wf .att
  | .atTrunc r => r.wf .trunc
  | .lCollReduce r =>
    r.scope.cwScope && r.root == 0 && (r.op == .sum || r.op == .max || r.op == .min)
  | .lCollAllgather r => r.scope.cwScope && r.root == 0 && r.op == .allgather
  | .lCollBroadcast r => r.scope.cwScope && r.op == .broadcast
  | .add .. | .sub .. | .and .. | .or .. | .xor .. | .shl .. | .shr .. | .sra .. | .slt .. | .sltn ..
  | .min .. | .max .. | .minn .. | .maxn .. | .mul .. | .mulh .. | .mulhn .. | .div .. | .divn .. | .rem .. | .remn ..
  | .addx .. | .addi .. | .slti .. | .sltni .. | .andi .. | .ori .. | .xori .. | .shli .. | .shri ..
  | .srai .. | .lui .. | .lb .. | .lbn .. | .lh .. | .lhn .. | .lw .. | .lwn .. | .ld .. | .sb ..
  | .sh .. | .sw .. | .sd .. | .beq .. | .bne .. | .blt .. | .bge .. | .bltn .. | .bgen .. | .jal ..
  | .jlr .. | .mfs .. | .mts .. | .eret | .wait | .tlbinv .. | .trap .. | .brk .. | .tgo .. | .twait ..
  | .tend | .tspawn .. | .cmdw .. | .gload .. | .gfree .. | .gstat .. | .camld .. | .lput .. | .lget ..
  | .lamo .. | .lsend .. | .lnotify .. | .mrecv .. | .mxSwap .. | .mxZero .. | .mxDrain ..
  | .windowEnd .. | .streamReadArrives .. | .intervalSample .. | .islandFinish ..
  | .lockEntryAvailable .. | .pendingWriteLands .. | .gloadComplete .. | .tspawnReply ..
  | .linkOpLeaves .. | .linkReply .. | .remoteWrite .. | .remoteRead .. | .remoteAtomic ..
  | .mailboxDelivery .. | .barrierRelease .. | .commit .. | .faultRecordWrite | .fbflush
  | .invalidatePage | .invalidateContext | .startctlClear | .maintenanceReset | .warmReset
  | .registerWrite .. | .hostRead .. | .hostWrite .. | .launch .. | .batchLaunch ..
  | .attentionResume .. | .gangPlacement .. | .planeSwap .. | .batchIteration .. | .spill ..
  | .restore .. | .freeze .. | .drainEnd .. | .sliceEnd .. | .stallTimeout .. | .coalesceWindowClose ..
  | .waitTimeout .. | .coldStart | .resetLine | .startTimeout | .ageingCheck .. | .scrubLine ..
  | .refresh .. | .islandCycle .. | .writeBeatAccepted .. | .collectivePacket .. | .linkPathFailure ..
  | .remotePageRequest .. => true

end Sys2Proof
end

