-- ==== Sys2Proof/Decode.lean ====
section
/-!
DEFINITION. Decoding of sequencer words (05_sequencer_isa.md, R104 to R136), timed entries (R172 to R175) and
command records (R233 to R236 and each engine's card), total on any bits and refusing by name, and the
encoders of the same encodings.
-/

namespace Sys2Proof

/-- Why a word, an entry or a record is refused: each is an illegal encoding, 0x01 (R2, R106, R175). -/
inductive Reject where
  | unassignedOp
  | unassignedCode
  | reservedField
  | illegalScope
  | illegalType
  | illegalField
  | shortWord
  deriving DecidableEq, Repr, Inhabited

/-- Bits lo + n - 1 down to lo of a number (R1). -/
def fld (w lo n : Nat) : Nat := w / 2 ^ lo % 2 ^ n

/-- Bit lo of a number. -/
def bit (w lo : Nat) : Bool := w / 2 ^ lo % 2 == 1

/-- 0 or 1. -/
def b2n (b : Bool) : Nat := if b then 1 else 0

/-- Refuse when a condition fails. -/
def guardWith (e : Reject) (ok : Bool) (r : Except Reject Instr) : Except Reject Instr :=
  if ok then r else .error e

/-- Accept an instruction if its fields are legal. -/
def accept (e : Reject) (i : Instr) : Except Reject Instr := if i.wf then .ok i else .error e

/-- The scope a 3-bit code names (R107). -/
def Scope.ofCode? : Nat → Option Scope
  | 0 => some .lane | 1 => some .core | 2 => some .quad | 3 => some .die | 4 => some .package
  | 5 => some .pod | _ => none

/-- The code of a scope (R107). -/
def Scope.code : Scope → Nat
  | .lane => 0 | .core => 1 | .quad => 2 | .die => 3 | .package => 4 | .pod => 5

/-- The scope of a sequencer instruction: lane and the codes 6 and 7 are illegal (R107). -/
def withScope (code : Nat) (k : Scope → Instr) : Except Reject Instr :=
  match Scope.ofCode? code with
  | some s => accept .illegalScope (k s)
  | none => .error .illegalScope

/-- The order an atomic's ord field names (R117). -/
def AtomOrd.ofCode (n : Nat) : AtomOrd :=
  match n % 4 with
  | 0 => .plain | 1 => .acq | 2 => .rel | _ => .ar

/-- The code of an order (R117). -/
def AtomOrd.code : AtomOrd → Nat
  | .plain => 0 | .acq => 1 | .rel => 2 | .ar => 3

/-- The code of a fence kind (R119). -/
def FenceKind.code : FenceKind → Nat
  | .acq => 1 | .rel => 2 | .ar => 3

/-! ## Sequencer words -/

/-- Fields d, a and b of forms A, I and S (R104). -/
def rD (w : Nat) : Reg := BitVec.ofNat 5 (w / 2 ^ 21)
def rA (w : Nat) : Reg := BitVec.ofNat 5 (w / 2 ^ 16)
def rB (w : Nat) : Reg := BitVec.ofNat 5 (w / 2 ^ 11)
/-- imm16 of forms I and B (R104). -/
def imm (w : Nat) : BitVec 16 := BitVec.ofNat 16 w

/-- The integer group (R112): fn<8:6> is k for `addx` alone, and bits 10:9 are reserved. -/
def decodeIntGroup (w : Nat) : Except Reject Instr :=
  let d := rD w
  let a := rA w
  let b := rB w
  let k0 := fld w 6 5 == 0
  match fld w 0 6 with
  | 0 => guardWith .reservedField k0 (.ok (.add d a b))
  | 1 => guardWith .reservedField k0 (.ok (.sub d a b))
  | 2 => guardWith .reservedField k0 (.ok (.and d a b))
  | 3 => guardWith .reservedField k0 (.ok (.or d a b))
  | 4 => guardWith .reservedField k0 (.ok (.xor d a b))
  | 5 => guardWith .reservedField k0 (.ok (.shl d a b))
  | 6 => guardWith .reservedField k0 (.ok (.shr d a b))
  | 7 => guardWith .reservedField k0 (.ok (.sra d a b))
  | 8 => guardWith .reservedField k0 (.ok (.slt d a b))
  | 9 => guardWith .reservedField k0 (.ok (.sltn d a b))
  | 10 => guardWith .reservedField k0 (.ok (.min d a b))
  | 11 => guardWith .reservedField k0 (.ok (.max d a b))
  | 12 => guardWith .reservedField k0 (.ok (.minn d a b))
  | 13 => guardWith .reservedField k0 (.ok (.maxn d a b))
  | 16 => guardWith .reservedField k0 (.ok (.mul d a b))
  | 17 => guardWith .reservedField k0 (.ok (.mulh d a b))
  | 18 => guardWith .reservedField k0 (.ok (.mulhn d a b))
  | 20 => guardWith .reservedField k0 (.ok (.div d a b))
  | 21 => guardWith .reservedField k0 (.ok (.divn d a b))
  | 22 => guardWith .reservedField k0 (.ok (.rem d a b))
  | 23 => guardWith .reservedField k0 (.ok (.remn d a b))
  | 24 => guardWith .reservedField (fld w 9 2 == 0) (.ok (.addx d a b (BitVec.ofNat 3 (w / 2 ^ 6))))
  | _ => .error .unassignedCode

/-- The atomics (R117): bit 10 is reserved, and aop codes 10 to 15 are unassigned. -/
def decodeAtomic (w : Nat) : Except Reject Instr :=
  let d := rD w
  let a := rA w
  let b := rB w
  let o := AtomOrd.ofCode (fld w 8 2)
  let dbl := bit w 4
  guardWith .reservedField (fld w 10 1 == 0) <|
  match fld w 0 4 with
  | 0 => withScope (fld w 5 3) (fun s => .aswp d a b o s dbl)
  | 1 => withScope (fld w 5 3) (fun s => .aadd d a b o s dbl)
  | 2 => withScope (fld w 5 3) (fun s => .aand d a b o s dbl)
  | 3 => withScope (fld w 5 3) (fun s => .aor d a b o s dbl)
  | 4 => withScope (fld w 5 3) (fun s => .axor d a b o s dbl)
  | 5 => withScope (fld w 5 3) (fun s => .amin d a b o s dbl)
  | 6 => withScope (fld w 5 3) (fun s => .amax d a b o s dbl)
  | 7 => withScope (fld w 5 3) (fun s => .aminn d a b o s dbl)
  | 8 => withScope (fld w 5 3) (fun s => .amaxn d a b o s dbl)
  | 9 => withScope (fld w 5 3) (fun s => .acas d a b o s dbl)
  | _ => .error .unassignedCode

/-- `fence` (R119): kind 0 is unassigned. -/
def decodeFence (w : Nat) : Except Reject Instr :=
  guardWith .reservedField (fld w 5 21 == 0) <|
  match fld w 3 2 with
  | 1 => withScope (fld w 0 3) (.fence .acq)
  | 2 => withScope (fld w 0 3) (.fence .rel)
  | 3 => withScope (fld w 0 3) (.fence .ar)
  | _ => .error .unassignedCode

/-- The S form (R122): fn codes 5 to 15 are unassigned. Which system registers exist, and who may name
them, is decided when the instruction runs, because privilege is checked first (R122). -/
def decodeSystem (w : Nat) : Except Reject Instr :=
  match fld w 0 4 with
  | 0 => guardWith .reservedField (fld w 16 5 == 0) (.ok (.mfs (rD w) (BitVec.ofNat 12 (w / 2 ^ 4))))
  | 1 => guardWith .reservedField (fld w 21 5 == 0) (.ok (.mts (rA w) (BitVec.ofNat 12 (w / 2 ^ 4))))
  | 2 => guardWith .reservedField (fld w 4 22 == 0) (.ok .eret)
  | 3 => guardWith .reservedField (fld w 4 22 == 0) (.ok .wait)
  | 4 => guardWith .reservedField (fld w 21 5 == 0 && fld w 4 12 == 0) (.ok (.tlbinv (rA w)))
  | _ => .error .unassignedCode

/-- The link group (R135, R136): lfn codes 6 and 7 are unassigned; d is used by `lamo` and `mrecv` alone. -/
def decodeLink (w : Nat) : Except Reject Instr :=
  let d := rD w
  let a := rA w
  let d0 := fld w 21 5 == 0
  guardWith .reservedField (fld w 3 13 == 0) <|
  match fld w 0 3 with
  | 0 => guardWith .reservedField d0 (.ok (.lput a))
  | 1 => guardWith .reservedField d0 (.ok (.lget a))
  | 2 => .ok (.lamo d a)
  | 3 => guardWith .reservedField d0 (.ok (.lsend a))
  | 4 => guardWith .reservedField d0 (.ok (.lnotify a))
  | 5 => .ok (.mrecv d a)
  | _ => .error .unassignedCode

/-- The sequencer's decoder, by major opcode (R105). -/
def decodeSeq (w : Nat) : Except Reject Instr :=
  let d := rD w
  let a := rA w
  let d0 := fld w 21 5 == 0
  let a0 := fld w 16 5 == 0
  match fld w 26 6 with
  | 0x01 => decodeIntGroup w

  | 0x02 => .ok (.addi d a (imm w))
  | 0x03 => .ok (.slti d a (imm w))
  | 0x04 => .ok (.sltni d a (imm w))
  | 0x05 => .ok (.andi d a (imm w))
  | 0x06 => .ok (.ori d a (imm w))
  | 0x07 => .ok (.xori d a (imm w))
  | 0x08 => guardWith .reservedField (fld w 6 10 == 0) (.ok (.shli d a (BitVec.ofNat 6 w)))
  | 0x09 => guardWith .reservedField (fld w 6 10 == 0) (.ok (.shri d a (BitVec.ofNat 6 w)))
  | 0x0A => guardWith .reservedField (fld w 6 10 == 0) (.ok (.srai d a (BitVec.ofNat 6 w)))
  | 0x0B => guardWith .reservedField a0 (.ok (.lui d (imm w)))
  | 0x10 => .ok (.lb d a (imm w))
  | 0x11 => .ok (.lbn d a (imm w))
  | 0x12 => .ok (.lh d a (imm w))
  | 0x13 => .ok (.lhn d a (imm w))
  | 0x14 => .ok (.lw d a (imm w))
  | 0x15 => .ok (.lwn d a (imm w))
  | 0x16 => .ok (.ld d a (imm w))
  | 0x18 => .ok (.sb d a (imm w))
  | 0x19 => .ok (.sh d a (imm w))
  | 0x1A => .ok (.sw d a (imm w))
  | 0x1B => .ok (.sd d a (imm w))
  | 0x20 => .ok (.beq d a (imm w))
  | 0x21 => .ok (.bne d a (imm w))
  | 0x22 => .ok (.blt d a (imm w))
  | 0x23 => .ok (.bge d a (imm w))
  | 0x24 => .ok (.bltn d a (imm w))
  | 0x25 => .ok (.bgen d a (imm w))
  | 0x1C => decodeAtomic w
  | 0x1D => decodeFence w
  | 0x26 => .ok (.jal d (BitVec.ofNat 21 w))
  | 0x27 => .ok (.jlr d a (imm w))
  | 0x28 => decodeSystem w
  | 0x29 => guardWith .reservedField (d0 && a0) (.ok (.trap (imm w)))
  | 0x2A => guardWith .reservedField (d0 && a0) (.ok (.brk (imm w)))
  | 0x30 => guardWith .reservedField (fld w 6 20 == 0) (.ok (.tgo (BitVec.ofNat 6 w)))
  | 0x31 => guardWith .reservedField (fld w 6 20 == 0) (.ok (.twait (BitVec.ofNat 6 w)))
  | 0x32 => guardWith .reservedField (fld w 0 26 == 0) (.ok .tend)
  | 0x33 => .ok (.tspawn d a (imm w))
  | 0x34 => guardWith .reservedField (a0 && fld w 4 12 == 0)
      (withScope (fld w 21 5) (fun s => .bar s (BitVec.ofNat 4 w)))
  | 0x35 => guardWith .reservedField (fld w 3 8 == 0) (withScope (fld w 0 3) (.cwait d a (rB w)))
  | 0x36 => guardWith .reservedField (d0 && fld w 5 6 == 0) (.ok (.cmdw a (rB w) (BitVec.ofNat 5 w)))
  | 0x38 => guardWith .reservedField a0 (.ok (.gload d (imm w)))
  | 0x39 => guardWith .reservedField (d0 && fld w 0 16 == 0) (.ok (.gfree a))
  | 0x3A => guardWith .reservedField (fld w 0 16 == 0) (.ok (.gstat d a))
  | 0x3B => guardWith .illegalField (fld w 21 5 < 8 && fld w 0 16 < 35)
      (.ok (.camw (BitVec.ofNat 3 (w / 2 ^ 21)) a (BitVec.ofNat 6 w)))
  | 0x3C => guardWith .reservedField a0 <| guardWith .illegalField (fld w 21 5 < 8)
      (.ok (.camld (BitVec.ofNat 3 (w / 2 ^ 21)) (imm w)))
  | 0x3D => decodeLink w
  | _ => .error .unassignedOp

/-! ## Timed entries -/

/-- The line a 3-bit code names (R37). -/
def Line.ofCode (n : Nat) : Line :=
  match n % 8 with
  | 0 => .n | 1 => .e | 2 => .s | 3 => .w | 4 => .l | 5 => .m | 6 => .c | _ => .k

/-- The code of a line (R37). -/
def Line.code : Line → Nat
  | .n => 0 | .e => 1 | .s => 2 | .w => 3 | .l => 4 | .m => 5 | .c => 6 | .k => 7

/-- An operand field: line code in bits 2:0, tap in bits 6:3 (R172). -/
def Opnd.ofNat (n : Nat) : Opnd := { line := Line.ofCode n, tap := BitVec.ofNat 4 (n / 8) }
def Opnd.toNat (o : Opnd) : Nat := o.line.code + o.tap.toNat * 8

/-- The rounding mode a 2-bit code names (R172). -/
def Rnd.ofCode (n : Nat) : Rnd :=
  match n % 4 with
  | 0 => .rn | 1 => .rz | 2 => .ru | _ => .rs

/-- The fields of a timed entry apart from its opcode; type codes 14 and 15 are illegal (R172, R173). -/
def EntryF.ofNat? (w : Nat) : Option EntryF :=
  match Ty.ofCode? (fld w 20 4) with
  | none => none
  | some ty => some {
      stamp := BitVec.ofNat 12 (w / 2 ^ 52)
      a := Opnd.ofNat (w / 2 ^ 38)
      b := Opnd.ofNat (w / 2 ^ 31)
      c := Opnd.ofNat (w / 2 ^ 24)
      ty := ty
      sat := bit w 19
      rnd := Rnd.ofCode (w / 2 ^ 17)
      we := bit w 16
      x := BitVec.ofNat 16 w }

/-- A timed entry's word from its opcode and fields (R172). -/
def EntryF.toNat (op : Nat) (f : EntryF) : Nat :=
  f.stamp.toNat * 2 ^ 52 + op * 2 ^ 45 + f.a.toNat * 2 ^ 38 + f.b.toNat * 2 ^ 31 + f.c.toNat * 2 ^ 24
    + f.ty.code * 2 ^ 20 + b2n f.sat * 2 ^ 19 + f.rnd.code * 2 ^ 17 + b2n f.we * 2 ^ 16 + f.x.toNat

/-- The op of a timed entry, by its opcode (R174). `rng` draws or seeds by X bit 0 (R212). -/
def entryOp (op : Nat) (f : EntryF) : Except Reject Instr :=
  match op with
  | 0x01 => accept .illegalField (.entryAdd f)
  | 0x02 => accept .illegalField (.entrySub f)
  | 0x03 => accept .illegalField (.entryMul f)
  | 0x04 => accept .illegalField (.entryFma f)
  | 0x05 => accept .illegalField (.entryFms f)
  | 0x06 => accept .illegalField (.entryFnma f)
  | 0x07 => accept .illegalField (.entryMin f)
  | 0x08 => accept .illegalField (.entryMax f)
  | 0x09 => accept .illegalField (.entryAbs f)
  | 0x0A => accept .illegalField (.entryNeg f)
  | 0x0B => accept .illegalField (.entryClamp f)
  | 0x0C => accept .illegalField (.entryDiv f)
  | 0x0D => accept .illegalField (.entrySqrt f)
  | 0x0E => accept .illegalField (.entryExp2 f)
  | 0x0F => accept .illegalField (.entryLg2 f)
  | 0x10 => accept .illegalField (.entryRint f)
  | 0x18 => accept .illegalField (.entryShl f)
  | 0x19 => accept .illegalField (.entryShr f)
  | 0x1A => accept .illegalField (.entrySra f)
  | 0x1B => accept .illegalField (.entryAnd f)
  | 0x1C => accept .illegalField (.entryOr f)
  | 0x1D => accept .illegalField (.entryXor f)
  | 0x1E => accept .illegalField (.entryAndn f)
  | 0x1F => accept .illegalField (.entryNot f)
  | 0x20 => accept .illegalField (.entryMulh f)
  | 0x21 => accept .illegalField (.entryClz f)
  | 0x22 => accept .illegalField (.entryPopc f)
  | 0x28 => accept .illegalField (.entryCmpeq f)
  | 0x29 => accept .illegalField (.entryCmpne f)
  | 0x2A => accept .illegalField (.entryCmplt f)
  | 0x2B => accept .illegalField (.entryCmple f)
  | 0x2C => accept .illegalField (.entryCmpgt f)
  | 0x2D => accept .illegalField (.entryCmpge f)
  | 0x2E => accept .illegalField (.entryCmpun f)
  | 0x2F => accept .illegalField (.entrySel f)
  | 0x30 => accept .illegalField (.entryCvt f)
  | 0x31 => accept .illegalField (.entryBlkPack f)
  | 0x32 => accept .illegalField (.entryBlkUnpk f)
  | 0x38 => accept .illegalField (.entryShuf f)
  | 0x39 => accept .illegalField (.entryBcast f)
  | 0x3A => accept .illegalField (.entryRot f)
  | 0x3B => accept .illegalField (.entryHsum f)
  | 0x3C => accept .illegalField (.entryHmax f)
  | 0x3D => accept .illegalField (.entryHmin f)
  | 0x3E => accept .illegalField (.entryScan f)
  | 0x40 => accept .illegalField (.entryMov f)
  | 0x41 => accept .illegalField (.entryRep f)
  | 0x48 => accept .illegalField (.entryLdb f)
  | 0x49 => accept .illegalField (.entryStb f)
  | 0x4A => accept .illegalField (.entryLdbx f)
  | 0x4B => accept .illegalField (.entryStbx f)
  | 0x50 => accept .illegalField (.entryCadd f)
  | 0x51 => accept .illegalField (.entryCsub f)
  | 0x52 => accept .illegalField (.entryCand f)
  | 0x53 => accept .illegalField (.entryCor f)
  | 0x54 => accept .illegalField (.entryCshl f)
  | 0x55 => accept .illegalField (.entryCmov f)
  | 0x56 => accept .illegalField (.entryCcmp f)
  | 0x58 => if f.x.toNat % 2 = 1 then accept .illegalField (.entryRngSeed f) else accept .illegalField (.entryRngDraw f)
  | 0x59 => accept .illegalField (.entryRsv f)
  | 0x5A => accept .illegalField (.entryRsvm f)
  | 0x5B => accept .illegalField (.entryBitt f)
  | 0x5C => accept .illegalField (.entryLut16 f)
  | 0x5D => accept .illegalField (.entryCond f)
  | 0x5E => accept .illegalField (.entryChk f)
  | _ => .error .unassignedOp

/-- The decoder of timed entries (R172 to R175). -/
def decodeEntry (w : Nat) : Except Reject Instr :=
  match EntryF.ofNat? w with
  | none => .error .illegalType
  | some f => entryOp (fld w 45 7) f

/-! ## Command records -/

/-- Word 0 of a record: start offset and island (R233). -/
def CmdHdr.ofNat (w : Nat) : CmdHdr :=
  { start := BitVec.ofNat 32 w, island := BitVec.ofNat 6 (w / 2 ^ 32) }

/-- Word 0 from its engine and op codes (R233, R234). -/
def CmdHdr.toNat (h : CmdHdr) (engine op : Nat) : Nat :=
  h.start.toNat + h.island.toNat * 2 ^ 32 + engine * 2 ^ 38 + op * 2 ^ 41

/-- A loop-level word (R235). -/
def Lvl.ofNat (w : Nat) : Lvl := { count := BitVec.ofNat 24 w, stride := BitVec.ofNat 40 (w / 2 ^ 24) }
def Lvl.toNat (l : Lvl) : Nat := l.count.toNat + l.stride.toNat * 2 ^ 24

/-- Word n of a record. -/
def recW (ws : List Nat) (n : Nat) : Nat := ws.getD n 0

/-- The fields of a stream record (R236); `copy` says that word 5 is the destination base. -/
def StreamRec.ofWords (copy : Bool) (ws : List Nat) : StreamRec :=
  let w7 := recW ws 7
  { hdr := CmdHdr.ofNat (recW ws 0)
    l1 := Lvl.ofNat (recW ws 1)
    l2 := Lvl.ofNat (recW ws 2)
    l3 := Lvl.ofNat (recW ws 3)
    l4 := Lvl.ofNat (recW ws 4)
    l5 := if copy then {} else Lvl.ofNat (recW ws 5)
    base2 := if copy then BitVec.ofNat 52 (recW ws 5) else 0
    base := BitVec.ofNat 52 (recW ws 6)
    window := BitVec.ofNat 16 w7
    port := BitVec.ofNat 3 (w7 / 2 ^ 16)
    edge := bit w7 19
    esize := BitVec.ofNat 3 (w7 / 2 ^ 20)
    poison := bit w7 23
    span := BitVec.ofNat 3 (w7 / 2 ^ 25)
    pfmt := BitVec.ofNat 2 (w7 / 2 ^ 28)
    blk := BitVec.ofNat 2 (w7 / 2 ^ 30)
    bank := BitVec.ofNat 16 (w7 / 2 ^ 32) }

/-- The words of a stream record (R236). -/
def StreamRec.toWords (r : StreamRec) (op : Nat) (plane copy : Bool) : List Nat :=
  [r.hdr.toNat 0 op, r.l1.toNat, r.l2.toNat, r.l3.toNat, r.l4.toNat,
   (if copy then r.base2.toNat else r.l5.toNat), r.base.toNat,
   r.window.toNat + r.port.toNat * 2 ^ 16 + b2n r.edge * 2 ^ 19 + r.esize.toNat * 2 ^ 20
     + b2n r.poison * 2 ^ 23 + b2n plane * 2 ^ 24 + r.span.toNat * 2 ^ 25 + r.pfmt.toNat * 2 ^ 28
     + r.blk.toNat * 2 ^ 30 + r.bank.toNat * 2 ^ 32]

/-- The stream commands (R234, R236). -/
def decodeStream (op : Nat) (ws : List Nat) : Except Reject Instr :=
  let w7 := recW ws 7
  let copy := op == 4
  let r := StreamRec.ofWords copy ws
  guardWith .reservedField
    (fld (recW ws 0) 45 19 == 0 && fld (recW ws 6) 52 12 == 0 && fld w7 48 16 == 0
      && (!copy || fld (recW ws 5) 52 12 == 0)) <|
  match op with
  | 0 => if bit w7 24 then accept .illegalField (.sInPlane r) else accept .illegalField (.sIn r)
  | 1 => guardWith .illegalField (!bit w7 24) (accept .illegalField (.sOut r))
  | 2 => guardWith .illegalField (!bit w7 24) (accept .illegalField (.sGath r))
  | 3 => guardWith .illegalField (!bit w7 24) (accept .illegalField (.sScat r))
  | 4 => guardWith .illegalField (!bit w7 24) (accept .illegalField (.sCopy r))
  | _ => .error .unassignedCode

/-- The type and merge of `wh.red` (R247). -/
def RedTy.ofCode? : Nat → Option RedTy
  | 0 => some .f32 | 1 => some .bf16 | 2 => some .i32 | _ => none
def RedTy.code : RedTy → Nat
  | .f32 => 0 | .bf16 => 1 | .i32 => 2
def Merge.ofCode (n : Nat) : Merge :=
  match n % 4 with
  | 0 => .write | 1 => .add | 2 => .max | _ => .min
def Merge.code : Merge → Nat
  | .write => 0 | .add => 1 | .max => 2 | .min => 3

/-- `wh.red` (R247). -/
def decodeWhRed (ws : List Nat) : Except Reject Instr :=
  let w7 := recW ws 7
  guardWith .reservedField
    (fld (recW ws 0) 45 19 == 0 && fld (recW ws 3) 52 12 == 0 && fld (recW ws 4) 52 12 == 0
      && fld (recW ws 5) 52 12 == 0 && fld (recW ws 6) 52 12 == 0
      && fld w7 0 16 == 0 && fld w7 19 1 == 0 && fld w7 27 5 == 0 && fld w7 48 16 == 0) <|
  match RedTy.ofCode? (fld w7 20 2), Scope.ofCode? (fld w7 24 3) with
  | some ty, some s => accept .illegalField (.whRed {
      hdr := CmdHdr.ofNat (recW ws 0)
      bags := Lvl.ofNat (recW ws 1)
      inds := Lvl.ofNat (recW ws 2)
      idx := BitVec.ofNat 52 (recW ws 3)
      dst := BitVec.ofNat 52 (recW ws 4)
      cw := BitVec.ofNat 52 (recW ws 5)
      table := BitVec.ofNat 52 (recW ws 6)
      port := BitVec.ofNat 3 (w7 / 2 ^ 16)
      ty := ty
      merge := Merge.ofCode (w7 / 2 ^ 22)
      scope := s
      row := BitVec.ofNat 16 (w7 / 2 ^ 32) })
  | _, _ => .error .illegalField

def WhRedRec.toWords (r : WhRedRec) : List Nat :=
  [r.hdr.toNat 1 0, r.bags.toNat, r.inds.toNat, r.idx.toNat, r.dst.toNat, r.cw.toNat, r.table.toNat,
   r.port.toNat * 2 ^ 16 + r.ty.code * 2 ^ 20 + r.merge.code * 2 ^ 22 + r.scope.code * 2 ^ 24
     + r.row.toNat * 2 ^ 32]

/-- `wh.filt` (R249). -/
def decodeWhFilt (ws : List Nat) : Except Reject Instr :=
  let w7 := recW ws 7
  guardWith .reservedField
    (fld (recW ws 0) 45 19 == 0 && fld (recW ws 6) 52 12 == 0 && fld w7 25 39 == 0) <|
  match Ty.ofCode? (fld w7 20 4) with
  | some ty => accept .illegalField (.whFilt {
      hdr := CmdHdr.ofNat (recW ws 0)
      l1 := Lvl.ofNat (recW ws 1)
      l2 := Lvl.ofNat (recW ws 2)
      l3 := Lvl.ofNat (recW ws 3)
      lo := BitVec.ofNat 64 (recW ws 4)
      hi := BitVec.ofNat 64 (recW ws 5)
      base := BitVec.ofNat 52 (recW ws 6)
      window := BitVec.ofNat 16 w7
      port := BitVec.ofNat 3 (w7 / 2 ^ 16)
      edge := bit w7 19
      ty := ty
      poison := bit w7 24 })
  | none => .error .illegalType

def WhFiltRec.toWords (r : WhFiltRec) : List Nat :=
  [r.hdr.toNat 1 1, r.l1.toNat, r.l2.toNat, r.l3.toNat, r.lo.toNat, r.hi.toNat, r.base.toNat,
   r.window.toNat + r.port.toNat * 2 ^ 16 + b2n r.edge * 2 ^ 19 + r.ty.code * 2 ^ 20
     + b2n r.poison * 2 ^ 24]

/-- The matrix commands (R272 to R282). Bit 45 of word 0 is Clear in `mx.epi` and `mx.drain`, bit 46 Relu in
`mx.epi`. Unused levels hold count 1 and stride 0; anything else there is a refusal at load, 0x28. -/
def decodeMatrix (op : Nat) (ws : List Nat) : Except Reject Instr :=
  let w0 := recW ws 0
  let w6 := recW ws 6
  let w7 := recW ws 7
  let h := CmdHdr.ofNat w0
  let l1 := Lvl.ofNat (recW ws 1)
  match op with
  | 0 => guardWith .reservedField (fld w0 45 19 == 0 && fld w6 52 12 == 0 && fld w7 12 52 == 0)
      (accept .illegalField (.mxWload {
        hdr := h
        base := BitVec.ofNat 52 w6
        wfmt := BitVec.ofNat 3 w7
        blk := BitVec.ofNat 2 (w7 / 2 ^ 3)
        kb := BitVec.ofNat 3 (w7 / 2 ^ 5)
        nb := BitVec.ofNat 4 (w7 / 2 ^ 8) }))
  | 1 => guardWith .reservedField (fld w0 45 19 == 0 && w6 == 0 && w7 == 0) (.ok (.mxSwap h))
  | 2 => guardWith .reservedField (fld w0 45 19 == 0 && fld w6 56 8 == 0 && fld w7 6 58 == 0)
      (accept .illegalField (.mxStep {
        hdr := h
        l1 := l1
        l2 := Lvl.ofNat (recW ws 2)
        bank := BitVec.ofNat 16 w6
        accrow := BitVec.ofNat 10 (w6 / 2 ^ 16)
        acccol := BitVec.ofNat 8 (w6 / 2 ^ 26)
        t1 := BitVec.ofNat 11 (w6 / 2 ^ 34)
        t2 := BitVec.ofNat 11 (w6 / 2 ^ 45)
        afmt := BitVec.ofNat 3 w7
        span := BitVec.ofNat 3 (w7 / 2 ^ 3) }))
  | 3 => guardWith .reservedField (fld w0 47 17 == 0 && fld w6 52 12 == 0)
      (accept .illegalField (.mxEpi {
        hdr := h
        l1 := l1
        clear := bit w0 45
        relu := bit w0 46
        base := BitVec.ofNat 52 w6
        accrow := BitVec.ofNat 10 w7
        acccol := BitVec.ofNat 8 (w7 / 2 ^ 10)
        cols1 := BitVec.ofNat 8 (w7 / 2 ^ 18)
        ofmt := BitVec.ofNat 3 (w7 / 2 ^ 26)
        sat := bit w7 29
        rnd := BitVec.ofNat 2 (w7 / 2 ^ 30)
        scale := BitVec.ofNat 32 (w7 / 2 ^ 32) }))
  | 4 => guardWith .reservedField (fld w0 45 19 == 0 && w6 == 0 && fld w7 26 38 == 0)
      (.ok (.mxZero {
        hdr := h
        l1 := l1
        accrow := BitVec.ofNat 10 w7
        acccol := BitVec.ofNat 8 (w7 / 2 ^ 10)
        cols1 := BitVec.ofNat 8 (w7 / 2 ^ 18) }))
  | 5 => guardWith .reservedField (fld w0 46 18 == 0 && w6 == 0 && fld w7 19 45 == 0)
      (.ok (.mxDrain {
        hdr := h
        l1 := l1
        clear := bit w0 45
        accrow := BitVec.ofNat 10 w7
        acccol := BitVec.ofNat 8 (w7 / 2 ^ 10)
        wide := bit w7 18 }))
  | _ => .error .unassignedCode

def MxWloadRec.toWords (r : MxWloadRec) : List Nat :=
  [r.hdr.toNat 2 0, 1, 1, 1, 1, 1, r.base.toNat,
   r.wfmt.toNat + r.blk.toNat * 2 ^ 3 + r.kb.toNat * 2 ^ 5 + r.nb.toNat * 2 ^ 8]
def MxStepRec.toWords (r : MxStepRec) : List Nat :=
  [r.hdr.toNat 2 2, r.l1.toNat, r.l2.toNat, 1, 1, 1,
   r.bank.toNat + r.accrow.toNat * 2 ^ 16 + r.acccol.toNat * 2 ^ 26 + r.t1.toNat * 2 ^ 34
     + r.t2.toNat * 2 ^ 45,
   r.afmt.toNat + r.span.toNat * 2 ^ 3]
def MxEpiRec.toWords (r : MxEpiRec) : List Nat :=
  [r.hdr.toNat 2 3 + b2n r.clear * 2 ^ 45 + b2n r.relu * 2 ^ 46, r.l1.toNat, 1, 1, 1, 1, r.base.toNat,
   r.accrow.toNat + r.acccol.toNat * 2 ^ 10 + r.cols1.toNat * 2 ^ 18 + r.ofmt.toNat * 2 ^ 26
     + b2n r.sat * 2 ^ 29 + r.rnd.toNat * 2 ^ 30 + r.scale.toNat * 2 ^ 32]
def MxZeroRec.toWords (r : MxZeroRec) : List Nat :=
  [r.hdr.toNat 2 4, r.l1.toNat, 1, 1, 1, 1, 0,
   r.accrow.toNat + r.acccol.toNat * 2 ^ 10 + r.cols1.toNat * 2 ^ 18]
def MxDrainRec.toWords (r : MxDrainRec) : List Nat :=
  [r.hdr.toNat 2 5 + b2n r.clear * 2 ^ 45, r.l1.toNat, 1, 1, 1, 1, 0,
   r.accrow.toNat + r.acccol.toNat * 2 ^ 10 + b2n r.wide * 2 ^ 18]

/-- `g.run` (R300). -/
def decodeLoom (op : Nat) (ws : List Nat) : Except Reject Instr :=
  let w7 := recW ws 7
  guardWith .unassignedCode (op == 0) <|
  guardWith .reservedField
    (fld (recW ws 0) 45 19 == 0 && fld (recW ws 6) 32 32 == 0 && fld w7 24 40 == 0)
    (accept .illegalField (.gRun {
      hdr := CmdHdr.ofNat (recW ws 0)
      vectors := BitVec.ofNat 24 (recW ws 1)
      sx := BitVec.ofNat 32 (recW ws 6)
      window := BitVec.ofNat 16 w7
      port := BitVec.ofNat 2 (w7 / 2 ^ 16)
      slot := BitVec.ofNat 4 (w7 / 2 ^ 18)
      i16 := bit w7 22
      side := bit w7 23 }))

def GRunRec.toWords (r : GRunRec) : List Nat :=
  [r.hdr.toNat 3 0, r.vectors.toNat, 1, 1, 1, 1, r.sx.toNat,
   r.window.toNat + r.port.toNat * 2 ^ 16 + r.slot.toNat * 2 ^ 18 + b2n r.i16 * 2 ^ 22
     + b2n r.side * 2 ^ 23]

/-- The merge of `cam.scat` (R319, R324). -/
def CamMerge.ofCode? : Nat → Option CamMerge
  | 0 => some .keep | 1 => some .replace | 2 => some .blend | _ => none
def CamMerge.code : CamMerge → Nat
  | .keep => 0 | .replace => 1 | .blend => 2

/-- The camera commands (R319): bit 50 of word 0 is Mode in `cam.gath` and the low bit of Merge in
`cam.scat`. -/
def decodeCamera (op : Nat) (ws : List Nat) : Except Reject Instr :=
  let w0 := recW ws 0
  let w6 := recW ws 6
  let w7 := recW ws 7
  let mk (m : CamMerge) : CamRec := {
      hdr := CmdHdr.ofNat w0
      cam := BitVec.ofNat 3 (w0 / 2 ^ 45)
      handle := BitVec.ofNat 2 (w0 / 2 ^ 48)
      merge := m
      l1 := Lvl.ofNat (recW ws 1)
      l2 := Lvl.ofNat (recW ws 2)
      l3 := Lvl.ofNat (recW ws 3)
      l4 := Lvl.ofNat (recW ws 4)
      l5 := Lvl.ofNat (recW ws 5)
      tok := BitVec.ofNat 24 w6
      steps1 := BitVec.ofNat 9 (w6 / 2 ^ 24)
      thr := BitVec.ofNat 8 (w6 / 2 ^ 33)
      window := BitVec.ofNat 16 w7
      port := BitVec.ofNat 3 (w7 / 2 ^ 16)
      edge := bit w7 19 }
  guardWith .reservedField (fld w0 52 12 == 0 && fld w6 41 23 == 0 && fld w7 20 44 == 0) <|
  match op with
  | 0 => guardWith .reservedField (fld w0 51 1 == 0)
      (if bit w0 50 then accept .illegalField (.camGathDepth (mk .keep))
       else accept .illegalField (.camGath (mk .keep)))
  | 1 =>
    match CamMerge.ofCode? (fld w0 50 2) with
    | some m => accept .illegalField (.camScat (mk m))
    | none => .error .illegalField
  | 2 => guardWith .reservedField (fld w0 50 2 == 0) (accept .illegalField (.camProj (mk .keep)))
  | _ => .error .unassignedCode

/-- The words of a camera record; `mode` is what stands in bits 51:50 of word 0. -/
def CamRec.toWords (r : CamRec) (op mode : Nat) : List Nat :=
  [r.hdr.toNat 4 op + r.cam.toNat * 2 ^ 45 + r.handle.toNat * 2 ^ 48 + mode * 2 ^ 50,
   r.l1.toNat, r.l2.toNat, r.l3.toNat, r.l4.toNat, r.l5.toNat,
   r.tok.toNat + r.steps1.toNat * 2 ^ 24 + r.thr.toNat * 2 ^ 33,
   r.window.toNat + r.port.toNat * 2 ^ 16 + b2n r.edge * 2 ^ 19]

/-- The attention commands (R341, R342). -/
def decodeAttention (op : Nat) (ws : List Nat) : Except Reject Instr :=
  let w7 := recW ws 7
  guardWith .reservedField
    (fld (recW ws 0) 45 19 == 0 && fld (recW ws 2) 52 12 == 0 && fld (recW ws 3) 52 12 == 0
      && fld (recW ws 5) 52 12 == 0 && fld (recW ws 6) 52 12 == 0 && fld w7 4 4 == 0
      && fld w7 32 32 == 0) <|
  match Scope.ofCode? (fld w7 0 3) with
  | none => .error .illegalScope
  | some s =>
    let r : AtRec := {
      hdr := CmdHdr.ofNat (recW ws 0)
      rows := Lvl.ofNat (recW ws 1)
      handle := BitVec.ofNat 52 (recW ws 2)
      rowBase := BitVec.ofNat 52 (recW ws 3)
      w4 := BitVec.ofNat 64 (recW ws 4)
      out := BitVec.ofNat 52 (recW ws 5)
      cw := BitVec.ofNat 52 (recW ws 6)
      scope := s
      causal := bit w7 3
      sinks := BitVec.ofNat 8 (w7 / 2 ^ 8)
      recent := BitVec.ofNat 8 (w7 / 2 ^ 16)
      limit1 := BitVec.ofNat 8 (w7 / 2 ^ 24) }
    match op with
    | 0 => accept .illegalField (.atApp r)
    | 1 => accept .illegalField (.atSel r)
    | 2 => accept .illegalField (.atAtt r)
    | 3 => accept .illegalField (.atTrunc r)
    | _ => .error .unassignedCode

def AtRec.toWords (r : AtRec) (op : Nat) : List Nat :=
  [r.hdr.toNat 5 op, r.rows.toNat, r.handle.toNat, r.rowBase.toNat, r.w4.toNat, r.out.toNat, r.cw.toNat,
   r.scope.code + b2n r.causal * 2 ^ 3 + r.sinks.toNat * 2 ^ 8 + r.recent.toNat * 2 ^ 16
     + r.limit1.toNat * 2 ^ 24]

/-- The operation and type of `l.coll` (R374). -/
def CollOp.ofCode? : Nat → Option CollOp
  | 0 => some .sum | 1 => some .max | 2 => some .min | 3 => some .allgather | 4 => some .broadcast
  | _ => none
def CollOp.code : CollOp → Nat
  | .sum => 0 | .max => 1 | .min => 2 | .allgather => 3 | .broadcast => 4
def CollTy.ofCode? : Nat → Option CollTy
  | 0 => some .f32 | 1 => some .bf16 | 2 => some .i32 | 3 => some .n32 | _ => none
def CollTy.code : CollTy → Nat
  | .f32 => 0 | .bf16 => 1 | .i32 => 2 | .n32 => 3

/-- `l.coll` (R374). The upper bits of word 1, and the root of an operation other than broadcast, are no codes and no
reserved fields: the loader looks at them in the record (`recOk`). -/
def decodeColl (op : Nat) (ws : List Nat) : Except Reject Instr :=
  let w6 := recW ws 6
  guardWith .unassignedCode (op == 0) <|
  guardWith .reservedField
    (fld (recW ws 0) 45 19 == 0 && fld (recW ws 2) 52 12 == 0
      && fld (recW ws 3) 52 12 == 0 && fld (recW ws 4) 52 12 == 0 && fld (recW ws 5) 52 12 == 0
      && fld w6 7 1 == 0 && fld w6 18 46 == 0 && fld (recW ws 7) 3 61 == 0) <|
  match CollOp.ofCode? (fld w6 0 3), CollTy.ofCode? (fld w6 3 3), Scope.ofCode? (fld (recW ws 7) 0 3) with
  | some o, some ty, some s =>
    let r : LCollRec := {
      hdr := CmdHdr.ofNat (recW ws 0)
      n := BitVec.ofNat 24 (recW ws 1)
      src := BitVec.ofNat 52 (recW ws 2)
      dst := BitVec.ofNat 52 (recW ws 3)
      grp := BitVec.ofNat 52 (recW ws 4)
      cw := BitVec.ofNat 52 (recW ws 5)
      op := o
      ty := ty
      pair := bit w6 6
      root := if o == .broadcast then BitVec.ofNat 10 (w6 / 2 ^ 8) else 0
      scope := s }
    match o with
    | .allgather => accept .illegalField (.lCollAllgather r)
    | .broadcast => accept .illegalField (.lCollBroadcast r)
    | _ => accept .illegalField (.lCollReduce r)
  | _, _, _ => .error .illegalField

def LCollRec.toWords (r : LCollRec) : List Nat :=
  [r.hdr.toNat 6 0, r.n.toNat, r.src.toNat, r.dst.toNat, r.grp.toNat, r.cw.toNat,
   r.op.code + r.ty.code * 2 ^ 3 + b2n r.pair * 2 ^ 6 + r.root.toNat * 2 ^ 8, r.scope.code]

/-- The decoder of command records, by engine code (R233, R234). -/
def decodeCmd (ws : List Nat) : Except Reject Instr :=
  let op := fld (recW ws 0) 41 4
  match fld (recW ws 0) 38 3 with
  | 0 => decodeStream op ws
  | 1 =>
    match op with
    | 0 => decodeWhRed ws
    | 1 => decodeWhFilt ws
    | _ => .error .unassignedCode
  | 2 => decodeMatrix op ws
  | 3 => decodeLoom op ws
  | 4 => decodeCamera op ws
  | 5 => decodeAttention op ws
  | 6 => decodeColl op ws
  | _ => .error .unassignedCode

/-! ## Bytes and words -/

/-- The little-endian number that bytes hold (R1). -/
def leNat : List Byte → Nat
  | [] => 0
  | b :: bs => b.toNat + 256 * leNat bs

/-- The n little-endian bytes of a number (R1). -/
def leBytes : Nat → Nat → List Byte
  | 0, _ => []
  | n + 1, v => BitVec.ofNat 8 v :: leBytes n (v / 256)

/-- The n 64-bit words of a number, least significant first. -/
def words64 : Nat → Nat → List Nat
  | 0, _ => []
  | n + 1, v => v % 2 ^ 64 :: words64 n (v / 2 ^ 64)

/-- A sequencer instruction from its four bytes. -/
def decodeSeqBytes (bs : List Byte) : Except Reject Instr :=
  if bs.length = 4 then decodeSeq (leNat bs) else .error .shortWord

/-- The instruction that a word of the opcode table stands for: a 32-bit sequencer word, a 64-bit timed entry
or a 512-bit command record. -/
def decodeTableWord (nbits w : Nat) : Option Instr :=
  let r := match nbits with
    | 32 => decodeSeqBytes (leBytes 4 w)
    | 64 => decodeEntry (leNat (leBytes 8 w))
    | 512 => decodeCmd (words64 8 (leNat (leBytes 64 w)))
    | _ => .error .shortWord
  match r with
  | .ok i => some i
  | .error _ => none

/-! ## Encoders -/

/-- Form A: op, d, a, b, fn (R104). -/
def formA (op : Nat) (d a b : Reg) (fn : Nat) : Nat :=
  op * 2 ^ 26 + d.toNat * 2 ^ 21 + a.toNat * 2 ^ 16 + b.toNat * 2 ^ 11 + fn
/-- Forms I and B (R104). -/
def formI (op : Nat) (d a : Reg) (v : Nat) : Nat := op * 2 ^ 26 + d.toNat * 2 ^ 21 + a.toNat * 2 ^ 16 + v
/-- Form J (R104). -/
def formJ (op : Nat) (d : Reg) (v : Nat) : Nat := op * 2 ^ 26 + d.toNat * 2 ^ 21 + v
/-- Form S (R104). -/
def formS (d a : Reg) (sys fn : Nat) : Nat :=
  0x28 * 2 ^ 26 + d.toNat * 2 ^ 21 + a.toNat * 2 ^ 16 + sys * 2 ^ 4 + fn
/-- An atomic's word (R117). -/
def formAtomic (aop : Nat) (d a b : Reg) (o : AtomOrd) (s : Scope) (dbl : Bool) : Nat :=
  formA 0x1C d a b (o.code * 2 ^ 8 + s.code * 2 ^ 5 + b2n dbl * 2 ^ 4 + aop)

/-- The word of a sequencer instruction (R104 to R136). -/
def encodeSeq? : Instr → Option Nat
  | .add d a b => some (formA 0x01 d a b 0)
  | .sub d a b => some (formA 0x01 d a b 1)
  | .and d a b => some (formA 0x01 d a b 2)
  | .or d a b => some (formA 0x01 d a b 3)
  | .xor d a b => some (formA 0x01 d a b 4)
  | .shl d a b => some (formA 0x01 d a b 5)
  | .shr d a b => some (formA 0x01 d a b 6)
  | .sra d a b => some (formA 0x01 d a b 7)
  | .slt d a b => some (formA 0x01 d a b 8)
  | .sltn d a b => some (formA 0x01 d a b 9)
  | .min d a b => some (formA 0x01 d a b 10)
  | .max d a b => some (formA 0x01 d a b 11)
  | .minn d a b => some (formA 0x01 d a b 12)
  | .maxn d a b => some (formA 0x01 d a b 13)
  | .mul d a b => some (formA 0x01 d a b 16)
  | .mulh d a b => some (formA 0x01 d a b 17)
  | .mulhn d a b => some (formA 0x01 d a b 18)
  | .div d a b => some (formA 0x01 d a b 20)
  | .divn d a b => some (formA 0x01 d a b 21)
  | .rem d a b => some (formA 0x01 d a b 22)
  | .remn d a b => some (formA 0x01 d a b 23)
  | .addx d a b k => some (formA 0x01 d a b (k.toNat * 2 ^ 6 + 24))
  | .addi d a i => some (formI 0x02 d a i.toNat)
  | .slti d a i => some (formI 0x03 d a i.toNat)
  | .sltni d a i => some (formI 0x04 d a i.toNat)
  | .andi d a i => some (formI 0x05 d a i.toNat)
  | .ori d a i => some (formI 0x06 d a i.toNat)
  | .xori d a i => some (formI 0x07 d a i.toNat)
  | .shli d a i => some (formI 0x08 d a i.toNat)
  | .shri d a i => some (formI 0x09 d a i.toNat)
  | .srai d a i => some (formI 0x0A d a i.toNat)
  | .lui d i => some (formI 0x0B d 0 i.toNat)
  | .lb d a i => some (formI 0x10 d a i.toNat)
  | .lbn d a i => some (formI 0x11 d a i.toNat)
  | .lh d a i => some (formI 0x12 d a i.toNat)
  | .lhn d a i => some (formI 0x13 d a i.toNat)
  | .lw d a i => some (formI 0x14 d a i.toNat)
  | .lwn d a i => some (formI 0x15 d a i.toNat)
  | .ld d a i => some (formI 0x16 d a i.toNat)
  | .sb d a i => some (formI 0x18 d a i.toNat)
  | .sh d a i => some (formI 0x19 d a i.toNat)
  | .sw d a i => some (formI 0x1A d a i.toNat)
  | .sd d a i => some (formI 0x1B d a i.toNat)
  | .beq d a i => some (formI 0x20 d a i.toNat)
  | .bne d a i => some (formI 0x21 d a i.toNat)
  | .blt d a i => some (formI 0x22 d a i.toNat)
  | .bge d a i => some (formI 0x23 d a i.toNat)
  | .bltn d a i => some (formI 0x24 d a i.toNat)
  | .bgen d a i => some (formI 0x25 d a i.toNat)
  | .aswp d a b o s dbl => some (formAtomic 0 d a b o s dbl)
  | .aadd d a b o s dbl => some (formAtomic 1 d a b o s dbl)
  | .aand d a b o s dbl => some (formAtomic 2 d a b o s dbl)
  | .aor d a b o s dbl => some (formAtomic 3 d a b o s dbl)
  | .axor d a b o s dbl => some (formAtomic 4 d a b o s dbl)
  | .amin d a b o s dbl => some (formAtomic 5 d a b o s dbl)
  | .amax d a b o s dbl => some (formAtomic 6 d a b o s dbl)
  | .aminn d a b o s dbl => some (formAtomic 7 d a b o s dbl)
  | .amaxn d a b o s dbl => some (formAtomic 8 d a b o s dbl)
  | .acas d a b o s dbl => some (formAtomic 9 d a b o s dbl)
  | .fence k s => some (formA 0x1D 0 0 0 (k.code * 2 ^ 3 + s.code))
  | .jal d o => some (formJ 0x26 d o.toNat)
  | .jlr d a o => some (formI 0x27 d a o.toNat)
  | .mfs d sys => some (formS d 0 sys.toNat 0)
  | .mts a sys => some (formS 0 a sys.toNat 1)
  | .eret => some (formS 0 0 0 2)
  | .wait => some (formS 0 0 0 3)
  | .tlbinv a => some (formS 0 a 0 4)
  | .trap i => some (formI 0x29 0 0 i.toNat)
  | .brk i => some (formI 0x2A 0 0 i.toNat)
  | .tgo i => some (formI 0x30 0 0 i.toNat)
  | .twait i => some (formI 0x31 0 0 i.toNat)
  | .tend => some (formI 0x32 0 0 0)
  | .tspawn d a i => some (formI 0x33 d a i.toNat)
  | .bar s id => some (formI 0x34 (BitVec.ofNat 5 s.code) 0 id.toNat)
  | .cwait d a b s => some (formA 0x35 d a b s.code)
  | .cmdw a b f => some (formA 0x36 0 a b f.toNat)
  | .gload d i => some (formI 0x38 d 0 i.toNat)
  | .gfree a => some (formI 0x39 0 a 0)
  | .gstat d a => some (formI 0x3A d a 0)
  | .camw n a f => some (formI 0x3B (BitVec.ofNat 5 n.toNat) a f.toNat)
  | .camld n i => some (formI 0x3C (BitVec.ofNat 5 n.toNat) 0 i.toNat)
  | .lput a => some (formA 0x3D 0 a 0 0)
  | .lget a => some (formA 0x3D 0 a 0 1)
  | .lamo d a => some (formA 0x3D d a 0 2)
  | .lsend a => some (formA 0x3D 0 a 0 3)
  | .lnotify a => some (formA 0x3D 0 a 0 4)
  | .mrecv d a => some (formA 0x3D d a 0 5)
  | _ => none

/-- The word of a timed entry (R172, R174). -/
def encodeEntry? : Instr → Option Nat
  | .entryAdd f => some (f.toNat 0x01)
  | .entrySub f => some (f.toNat 0x02)
  | .entryMul f => some (f.toNat 0x03)
  | .entryFma f => some (f.toNat 0x04)
  | .entryFms f => some (f.toNat 0x05)
  | .entryFnma f => some (f.toNat 0x06)
  | .entryMin f => some (f.toNat 0x07)
  | .entryMax f => some (f.toNat 0x08)
  | .entryAbs f => some (f.toNat 0x09)
  | .entryNeg f => some (f.toNat 0x0A)
  | .entryClamp f => some (f.toNat 0x0B)
  | .entryDiv f => some (f.toNat 0x0C)
  | .entrySqrt f => some (f.toNat 0x0D)
  | .entryExp2 f => some (f.toNat 0x0E)
  | .entryLg2 f => some (f.toNat 0x0F)
  | .entryRint f => some (f.toNat 0x10)
  | .entryShl f => some (f.toNat 0x18)
  | .entryShr f => some (f.toNat 0x19)
  | .entrySra f => some (f.toNat 0x1A)
  | .entryAnd f => some (f.toNat 0x1B)
  | .entryOr f => some (f.toNat 0x1C)
  | .entryXor f => some (f.toNat 0x1D)
  | .entryAndn f => some (f.toNat 0x1E)
  | .entryNot f => some (f.toNat 0x1F)
  | .entryMulh f => some (f.toNat 0x20)
  | .entryClz f => some (f.toNat 0x21)
  | .entryPopc f => some (f.toNat 0x22)
  | .entryCmpeq f => some (f.toNat 0x28)
  | .entryCmpne f => some (f.toNat 0x29)
  | .entryCmplt f => some (f.toNat 0x2A)
  | .entryCmple f => some (f.toNat 0x2B)
  | .entryCmpgt f => some (f.toNat 0x2C)
  | .entryCmpge f => some (f.toNat 0x2D)
  | .entryCmpun f => some (f.toNat 0x2E)
  | .entrySel f => some (f.toNat 0x2F)
  | .entryCvt f => some (f.toNat 0x30)
  | .entryBlkPack f => some (f.toNat 0x31)
  | .entryBlkUnpk f => some (f.toNat 0x32)
  | .entryShuf f => some (f.toNat 0x38)
  | .entryBcast f => some (f.toNat 0x39)
  | .entryRot f => some (f.toNat 0x3A)
  | .entryHsum f => some (f.toNat 0x3B)
  | .entryHmax f => some (f.toNat 0x3C)
  | .entryHmin f => some (f.toNat 0x3D)
  | .entryScan f => some (f.toNat 0x3E)
  | .entryMov f => some (f.toNat 0x40)
  | .entryRep f => some (f.toNat 0x41)
  | .entryLdb f => some (f.toNat 0x48)
  | .entryStb f => some (f.toNat 0x49)
  | .entryLdbx f => some (f.toNat 0x4A)
  | .entryStbx f => some (f.toNat 0x4B)
  | .entryCadd f => some (f.toNat 0x50)
  | .entryCsub f => some (f.toNat 0x51)
  | .entryCand f => some (f.toNat 0x52)
  | .entryCor f => some (f.toNat 0x53)
  | .entryCshl f => some (f.toNat 0x54)
  | .entryCmov f => some (f.toNat 0x55)
  | .entryCcmp f => some (f.toNat 0x56)
  | .entryRngDraw f => some (f.toNat 0x58)
  | .entryRsv f => some (f.toNat 0x59)
  | .entryRsvm f => some (f.toNat 0x5A)
  | .entryBitt f => some (f.toNat 0x5B)
  | .entryLut16 f => some (f.toNat 0x5C)
  | .entryCond f => some (f.toNat 0x5D)
  | .entryChk f => some (f.toNat 0x5E)
  | .entryRngSeed f => some (f.toNat 0x58)
  | _ => none

/-- The eight words of a command record (R233). -/
def encodeCmd? : Instr → Option (List Nat)
  | .sIn r => some (r.toWords 0 false false)
  | .sInPlane r => some (r.toWords 0 true false)
  | .sOut r => some (r.toWords 1 false false)
  | .sGath r => some (r.toWords 2 false false)
  | .sScat r => some (r.toWords 3 false false)
  | .sCopy r => some (r.toWords 4 false true)
  | .whRed r => some r.toWords
  | .whFilt r => some r.toWords
  | .mxWload r => some r.toWords
  | .mxSwap h => some [h.toNat 2 1, 1, 1, 1, 1, 1, 0, 0]
  | .mxStep r => some r.toWords
  | .mxEpi r => some r.toWords
  | .mxZero r => some r.toWords
  | .mxDrain r => some r.toWords
  | .gRun r => some r.toWords
  | .camGath r => some (r.toWords 0 0)
  | .camGathDepth r => some (r.toWords 0 1)
  | .camScat r => some (r.toWords 1 r.merge.code)
  | .camProj r => some (r.toWords 2 0)
  | .atApp r => some (r.toWords 0)
  | .atSel r => some (r.toWords 1)
  | .atAtt r => some (r.toWords 2)
  | .atTrunc r => some (r.toWords 3)
  | .lCollReduce r => some r.toWords
  | .lCollAllgather r => some r.toWords
  | .lCollBroadcast r => some r.toWords
  | _ => none

/-- The words that stand for an instruction: one sequencer word, one entry word, or a record's eight; an
event has none. -/
def encode (i : Instr) : Option (List Nat) :=
  match encodeSeq? i with
  | some w => some [w]
  | none =>
    match encodeEntry? i with
    | some w => some [w]
    | none => encodeCmd? i

end Sys2Proof
end

