-- ==== Sys2Proof/Config.lean ====
section
/-!
DEFINITION. What the spec leaves to an implementation or leaves open. Every constant without a body is a
free value: nothing constrains it. The assumption log names each one.
-/

namespace Sys2Proof.Config

/-- The package identifier, fused (R160). DESIGN CHOICE, log entry 66. -/
opaque pkgId : BitVec 10
/-- The entry of the Karuc trap handler that the loader places (R101, R102 `evec`); its low two bits are
dropped where it is used. DESIGN CHOICE, log entry 66. -/
opaque handlerEntry : Word
/-- The data bits of the n-th capture that falls inside a landing window (R170). -/
opaque freeData : Nat → W128
/-- The scale bytes of such a capture (R170). -/
opaque freeScale : Nat → W32
/-- The token of a control capture, the mask and the flag read inside a landing window (R170). -/
opaque freeTok : Nat → W32
/-- A 64-bit value the spec leaves open: private-stack contents after an abort (R84), a poisoned loom node
(R294). -/
opaque freeWord : Nat → Word
/-- An integer the spec leaves open: the value of a poisoned loom node (R294). -/
opaque freeInt : Nat → Int

/-- Whether the k-th operation that may complete at this real cycle does so; the spec states no exact
time for it (R109, R240, R76, R89, R143). DESIGN CHOICE, log entry 4. -/
opaque happens : (cycle : Nat) → (k : Nat) → Bool
/-- The array line, and whether it is past correction, of the n-th upset of a memory cell (R74, R380). -/
opaque upset : Nat → ArrayLine × Bool
/-- A choice among alternatives that the spec calls implementation-defined: a partition, a frame, an
address in the loader window, a TLB victim (R391, R143, R253). DESIGN CHOICE, log entry 11. -/
opaque pick : Nat → Nat

/-- Where the contents of the twelve sections of a task image lie in their bytes (R46). The spec gives the layout
of the header, of records, entries, descriptors, graphs and camera images, and not how the sections pack them.
DESIGN CHOICE, log entry 10. -/
opaque readImage : List (List Byte) → ImageLayout

/-- 64 KiB units of a private stack beyond the first, taken modulo 16 (R12, R103). -/
opaque stackUnits : Nat
/-- Private stacks that a die's basin holds beyond sixteen, taken modulo 17 (R12). -/
opaque stackSlots : Nat
/-- Bytes of a private stack. DESIGN CHOICE, log entry 21. -/
def stackBytes : Nat := 65536 * (1 + stackUnits % 16)
/-- Private stacks that a die's basin holds. DESIGN CHOICE, log entry 21. -/
def stackCount : Nat := stackSlots % 17 + 16
/-- Offset in a die's basin of the holds of its regions, 4 MiB each, of their lay-by logs, 512 KiB each, and of the
private stacks (R12). DESIGN CHOICE, log entry 21. -/
def layStart : Nat := 0x2000000
def stackStart : Nat := 0x2400000
/-- Byte offset in each die's basin at which the remainder begins: the reserved parts of R12 end there (R391
`BRSTART`). -/
def brStart : BitVec 27 := BitVec.ofNat 27 (stackStart + stackCount * stackBytes)
/-- The 256-byte header of a mailbox: read and write index, and the lengths of its 31 slots. The spec does not
place them in the header (R165). DESIGN CHOICE, log entry 45. -/
opaque mailHeader : (rd wr : Nat) → (lengths : List Nat) → List Byte
/-- Parts of a save area whose fields R154 names and does not place: an island's 32 bytes (counter, intervals left,
schedule B in force, selector flag, started, finished), the lay-by pointer (head, tail, generation) and an entry of the hold
index (granule, byte mask). DESIGN CHOICE, log entry 13. -/
opaque saveIsland : (ctr left : Nat) → (schedB flag started finished : Bool) → List Byte
opaque saveLay : (head tail gen : Nat) → List Byte
opaque saveHold : (granule mask : Nat) → List Byte
/-- What other bytes of an island say than those a spill wrote: counter, intervals left, schedule B in force, started and
finished. DESIGN CHOICE, log entry 13. -/
opaque readIsland : List Byte → Nat × Nat × Bool × Bool × Bool

/-- Packages to which the route table that firmware keeps holds no path (R340, R363). DESIGN CHOICE, log entry 47. -/
opaque unrouted : List (BitVec 10)

/-- The rows of a bank of a pseudo-channel, each as the 64 KiB frames that have bytes in it (R261, R382): the spec gives no
row layout. DESIGN CHOICE, log entry 62. -/
opaque rowsOf : (pseudoChannel bank : Nat) → List (List Nat)
/-- SHAKE256 measurements of the firmware images of the n-th start, in the order loaded, and the device identity key that
the fuses give (R387). DESIGN CHOICE, log entry 84. -/
opaque measures : Nat → List (BitVec 512)
opaque identityKey : List Byte
/-- The signature of a report under a key (R387). DESIGN CHOICE, log entry 84. -/
opaque sign : (key body : List Byte) → List Byte
/-- Whether a step of the n-th start passes (R384, R386): a physical outcome. DESIGN CHOICE, log entry 68. -/
opaque startStepPasses : (start : Nat) → (stepNo : Nat) → Bool
/-- Whether the margin of a region is exhausted at its n-th ageing check (R383). DESIGN CHOICE, log entry 68. -/
opaque marginGone : (region : Nat) → (check : Nat) → Bool
/-- Whether repairs are found pending by the n-th start (R385, R388). -/
opaque repairsPending : Nat → Bool

end Sys2Proof.Config
end

