-- ==== Sys2Proof/Machine/Maps.lean ====
section
/-!
DEFINITION. Reading and writing sparse maps. A map is a list of (key, value) pairs whose keys rise strictly
and in which no entry holds the default value, so equal maps are equal data; an unlisted key reads as the
default.
-/

namespace Sys2Proof.Machine

/-- The value at a key; the default when the key is not listed. -/
def mget {α : Type} [Inhabited α] : SMap α → Nat → α
  | [], _ => default
  | (j, v) :: m, k => if j = k then v else mget m k

/-- Put a pair into its place among rising keys. -/
def mput {α : Type} (k : Nat) (v : α) : SMap α → SMap α
  | [] => [(k, v)]
  | (j, w) :: m => if j < k then (j, w) :: mput k v m else (k, v) :: (j, w) :: m

/-- Drop every pair of a key. -/
def mdel {α : Type} (k : Nat) (m : SMap α) : SMap α := m.filter (fun p => p.1 != k)

/-- Write a key: the default value removes the entry. -/
def mset {α : Type} [Inhabited α] [DecidableEq α] (m : SMap α) (k : Nat) (v : α) : SMap α :=
  if v = default then mdel k m else mput k v (mdel k m)

/-- Change the value at a key. -/
def mmod {α : Type} [Inhabited α] [DecidableEq α] (m : SMap α) (k : Nat) (f : α → α) : SMap α :=
  mset m k (f (mget m k))

/-- The entries with keys lo to lo + n - 1, renumbered from 0. -/
def mslice {α : Type} (lo n : Nat) (m : SMap α) : SMap α :=
  (m.filter (fun p => lo ≤ p.1 && p.1 < lo + n)).map (fun p => (p.1 - lo, p.2))

/-- Drop the entries with keys lo to lo + n - 1. -/
def mcut {α : Type} (lo n : Nat) (m : SMap α) : SMap α :=
  m.filter (fun p => !(lo ≤ p.1 && p.1 < lo + n))

/-- Replace the entries with keys lo to lo + n - 1 by a renumbered slice. -/
def msplice {α : Type} (lo n : Nat) (sl m : SMap α) : SMap α :=
  m.filter (fun p => p.1 < lo) ++ sl.map (fun p => (p.1 + lo, p.2)) ++ m.filter (fun p => lo + n ≤ p.1)

/-- The canonical form: keys rise strictly and no entry holds the default. -/
def mwf {α : Type} [Inhabited α] [DecidableEq α] : SMap α → Bool
  | [] => true
  | [(_, v)] => v != default
  | (j, v) :: (k, w) :: m => decide (j < k) && v != default && mwf ((k, w) :: m)

/-- The keys listed. -/
def mkeys {α : Type} (m : SMap α) : List Nat := m.map (·.1)

end Sys2Proof.Machine
end

