-- ==== Sys2Proof/Machine/State.lean ====
section
/-!
DEFINITION. The state of one W40 package as plain data: every piece of state the spec names, and the fields
of the model's own (`agenda`, `cur`, `curElem`, `curCmd`, `free`, `hostIn`, `linkIn`, `out`).
Keys: a context c is 2 x region + partition; an element of a context is 512 c + e; an island 64 c + i; a
command 256 c + k. A map's unlisted key reads as the value a partition has at task start (R166, R268).
-/

namespace Sys2Proof.Machine

/-! ## Sequencer -/

/-- What the write of a pending register waits for (R109). -/
inductive PendKind where
  /-- A load, an atomic or a `cwait`: the value has been read and will land. -/
  | value
  /-- A `gload` (R296), with the graph's index, the real cycle of issue and its pc. -/
  | gload (graph : Nat) (issued : Nat) (pc : Word)
  /-- A `tspawn` (R127): timestamp asked for, child index, the g8 to g15 copied at the request, pc. -/
  | spawn (ts : Word) (child : Nat) (args : List Word) (pc : Word)
  /-- A link operation by its number in the package (R136). -/
  | link (op : Nat)
  deriving DecidableEq, Repr, Inhabited

/-- Where a load in flight may still take a later value from (R96, R390): its bytes, sign extension, and what stood there
when it last looked. -/
structure Again where
  pa : Nat
  n : Nat
  signed : Bool
  seen : Nat
  deriving DecidableEq, Repr, Inhabited

/-- A write in flight to a general register (R109). -/
structure Pend where
  d : Reg
  kind : PendKind
  v : Word := 0
  poison : Bool := false
  /-- Real cycle by which a stated bound makes it land (R20). -/
  due : Option Nat := none
  /-- Device address whose bound holds only within the task's reserved bandwidth (R20, R21). -/
  dev : Option Nat := none
  again : Option Again := none
  deriving DecidableEq, Repr, Inhabited

/-- Why a thread does not issue although its partition does. -/
inductive Held where
  /-- It issues. -/
  | no
  /-- Held at its instruction by a page fault at a virtual address until a flush (R116, R159). -/
  | fault (va : Word)
  /-- Frozen at a breakpoint until the host resumes it (R156). -/
  | debug
  deriving DecidableEq, Repr, Inhabited

/-- The context of one partition's thread (R99, R102). -/
structure Thread where
  /-- g1 to g31 by number; g0 is not stored. -/
  g : SMap Word := []
  /-- The poison bit of each register (system register 0x008). -/
  poison : BitVec 32 := 0
  /-- Writes in flight; a register is pending while one names it. -/
  pend : List Pend := []
  /-- Real cycle from which a dependant may use a fixed-latency result (R108). -/
  ready : SMap Nat := []
  /-- Real cycle of the next issue after a taken transfer (R108). -/
  nextIssue : Nat := 0
  pc : Word := 0
  /-- Mode: supervisor (status bit 0). -/
  sup : Bool := false
  /-- Status bit 1. -/
  prevSup : Bool := false
  /-- Status bit 2. -/
  nested : Bool := false
  cyc : Word := 0
  bounces : Word := 0
  epc : Word := 0
  ecause : BitVec 8 := 0
  earg : Word := 0
  /-- `evec` once written; `none` while it holds the entry that the loader placed (R101, R102). -/
  evec : Option Word := none
  escr : Word := 0
  /-- The thread executed `tend` (R126). -/
  stopped : Bool := false
  held : Held := .no
  /-- Real cycle in which the present stall began (R150, R122). -/
  waitSince : Option Nat := none
  /-- Real cycle in which a `wait` began to idle; and it has seen what ends it (R122). -/
  idle : Option Nat := none
  woken : Bool := false
  /-- A `bar` has arrived and waits for its release; and the release has come (R128). -/
  barArrived : Bool := false
  barReleased : Bool := false
  /-- A release fence has been executed while stores were held: what it orders behind them drains them first
  (R93; log entry 71). -/
  fenced : Bool := false
  deriving DecidableEq, Repr, Inhabited

/-! ## Fabric -/

/-- One capture of a data line, or a data beat: data, sideband, pending bit (R166, R205, R226). -/
structure Cap where
  data : W128 := 0
  side : Side := 0
  pend : Bool := false
  deriving DecidableEq, Repr, Inhabited

/-- One capture of the C line, or the control result register (R166). -/
structure CCap where
  tok : W32 := 0
  poison : Bool := false
  pend : Bool := false
  deriving DecidableEq, Repr, Inhabited

/-- A `chk` that has failed and is decided at the end of a real cycle (R211). -/
structure ChkPend where
  at' : Nat
  code : BitVec 8
  id : BitVec 12
  pos : Nat
  deriving DecidableEq, Repr, Inhabited

/-- One element for one partition (R166). For each register: the newest value; the island cycle before
whose end every capture of it is undefined (`…U`, R170); the poison of older values that the window still
mixes in (`…P`). Lines list age 1 first; an age beyond the list is a zero capture. -/
structure Elem where
  res : Cap := {}
  resU : Nat := 0
  resP : BitVec 4 := 0
  cres : CCap := {}
  cresU : Nat := 0
  cresP : Bool := false
  q : W32 := 0
  qPoison : Bool := false
  qU : Nat := 0
  qP : Bool := false
  flag : Bool := false
  flagPoison : Bool := false
  flagU : Nat := 0
  flagP : Bool := false
  ln : List Cap := []
  le : List Cap := []
  ls : List Cap := []
  lw : List Cap := []
  ll : List Cap := []
  lm : List Cap := []
  lc : List CCap := []
  /-- Block length that the command that delivered each M capture declared (R185); age 1 first. -/
  mBlk : List Nat := []
  rand : Word := 0
  /-- Bank reads in flight, by the island cycle at whose end M captures them (R192). -/
  bankRd : SMap (Option Cap) := []
  /-- The engine source that lands on M at the end of this island cycle, with its block length (R18). -/
  mNext : Option (Cap × Nat) := none
  chks : List ChkPend := []
  deriving DecidableEq, Repr, Inhabited

/-- Metadata of a 64-byte bank line (R74), and the plane format of its last plane write (R278). Bit 8 is
the even parity of the other bits; an error of it stands in `errs`. -/
structure BankMeta where
  owner : BitVec 4 := 0
  guard : Bool := false
  span : BitVec 3 := 0
  pfmt : BitVec 2 := 0
  /-- It has been written in plane mode, so that it has a format. -/
  plane : Bool := false
  deriving DecidableEq, Repr, Inhabited

/-- A bank access of an entry: it performs in the cycle after its issue (R192, R194). -/
structure BankOp where
  c : Ctx
  e : Nat
  a : Nat
  /-- The beat that a store writes; none for a read, which lands on M at the end of island cycle `at'`. -/
  store : Option W128 := none
  at' : Nat := 0
  poison : Bool := false
  deriving DecidableEq, Repr, Inhabited

/-- A plane write of the stream engine: it performs after the accesses of entries and the plane reads of its real
cycle (R194, R277). -/
structure PlaneWr where
  c : Ctx
  e : Nat
  a : Nat
  span : BitVec 3
  pfmt : BitVec 2
  v : W128
  deriving DecidableEq, Repr, Inhabited

/-- A configuration plane (R146): islands, element words, constants and entry stores, the command table. -/
structure Plane where
  isls : List IslandDesc := []
  elems : SMap ElemCfg := []
  cmds : List CmdRec := []
  deriving DecidableEq, Repr, Inhabited

/-- An island of a partition (R199 to R207). `abs` counts its island cycles over all its runs (R169). -/
structure Isl where
  /-- Started and not finished (bit of `islrun`). -/
  running : Bool := false
  /-- A run of it has finished. -/
  finished : Bool := false
  ctr : Nat := 0
  abs : Nat := 0
  /-- `abs` at the start of the present run: the capture of counter value n has number `start` + n. -/
  start : Nat := 0
  /-- Counter value at which the present interval begins; above the counter in switch cycles (R202). -/
  base : Nat := 0
  /-- Intervals left, the present one included. -/
  left : Nat := 0
  schedB : Bool := false
  /-- The last interval has ended (R43). -/
  past : Bool := false
  /-- Cycles left of a count-0 run (R200). -/
  zero : Nat := 0
  /-- Entries and commands of this counter value have been taken up. -/
  issued : Bool := false
  /-- It stalls in this real cycle (R206). -/
  stall : Bool := false
  /-- Real cycle of its last island cycle (R150). -/
  moved : Nat := 0
  deriving DecidableEq, Repr, Inhabited

/-- An entry pushed on a lock link (R205): the number of the consumer's capture that it fills. -/
structure LinkEnt where
  n : Nat
  cap : Cap
  cc : CCap
  /-- Real cycle at whose end it becomes available. -/
  at' : Nat
  avail : Bool := false
  deriving DecidableEq, Repr, Inhabited

/-! ## Engines -/

/-- State of a command (R262). -/
inductive RunSt where
  | notStarted | running | held | ended
  deriving DecidableEq, Repr, Inhabited

/-- What a command of a run has done (R231, R239, R262). -/
structure CmdRun where
  st : RunSt := .notStarted
  /-- The record in force since its start. -/
  ins : Option Instr := none
  /-- Real cycle from which its bounds count, and counter value of its start. -/
  startReal : Nat := 0
  startCtr : Nat := 0
  /-- Next flat iteration (or ray, row, byte block) not yet transferred. -/
  f : Nat := 0
  /-- It has stalled its island at its join (R280). -/
  late : Bool := false
  /-- Position and address of a held access. -/
  heldAt : Nat := 0
  heldVa : Word := 0
  /-- Held by a full hold (R86) and not by a page fault. -/
  full : Bool := false
  /-- The first transfer that `startReal` counts from: the start, or the cycle in which a held access is translated
  anew (R232). -/
  first : Nat := 0
  /-- It has been held, so that what it has not delivered by its renewed bound is missing because of the hold (R206). -/
  slip : Bool := false
  /-- Beats that have arrived in the port latch and have not been captured, by number; how many have been captured. -/
  latch : SMap (Option Cap) := []
  captured : Nat := 0
  /-- Bytes of the beat, row or step in progress that have been read before a hold (R246). -/
  part : List (Byte × Bool) := []
  /-- Beats and indices taken from result registers, by number. -/
  taken : SMap (Option Cap) := []
  idx : SMap (Option Cap) := []
  /-- Write beats accepted, rows finished, vectors finished. -/
  done : Nat := 0
  /-- Registers read once at the start: camera fields, slot contents. -/
  snap : SMap W32 := []
  /-- Partial row of a `wh.red`, and whether its lanes are poisoned. -/
  acc : List W32 := []
  accPoison : List Bool := []
  deriving DecidableEq, Repr, Inhabited

/-- A weight tile in a buffer (R270): format, block and shape codes, image bytes, the command that loaded
it, and whether the load has completed. -/
structure Tile where
  fmt : BitVec 3
  blk : BitVec 2
  kb : Nat
  nb : Nat
  bytes : List Byte
  cmd : Nat
  whole : Bool
  deriving DecidableEq, Repr, Inhabited

/-- An operand of a loom node (R289). -/
inductive Src where
  | tap (k : Nat)
  | node (n : Nat)
  deriving DecidableEq, Repr, Inhabited

/-- An add node (R289). -/
structure Node where
  a : Src
  b : Src
  na : Bool
  nb : Bool
  sa : Nat
  sb : Nat
  w : Nat
  deriving DecidableEq, Repr, Inhabited

/-- A graph held by a slot (R287). -/
structure Graph where
  strict : Bool := false
  taps : List Nat := []
  nodes : List Node := []
  outs : List Src := []
  scales : List W32 := []
  depth : Nat := 1
  deriving DecidableEq, Repr, Inhabited

/-- A loom slot (R285, R298). -/
structure Slot where
  resident : Bool := false
  sticky : Bool := false
  image : Nat := 0
  first : Nat := 0
  bays : Nat := 0
  graph : Graph := {}
  deriving DecidableEq, Repr, Inhabited

/-- A camera register: fields by the numbers of R134, and its version (R309). -/
structure Cam where
  f : SMap W32 := []
  version : BitVec 16 := 0
  deriving DecidableEq, Repr, Inhabited

/-- An attention command in a partition's queue (R348): the record at its start with virtual addresses, the
ranges of the streams of words 3 to 5, and whether the read of its handle word is held by a page fault. -/
structure AtQueued where
  cmd : Nat
  op : AtOp
  rec' : AtRec
  lims : List (Nat × Nat) := []
  startReal : Nat
  held : Bool := false
  deriving DecidableEq, Repr, Inhabited

/-- Why an attention command that has left does not go on. -/
inductive AtWait where
  /-- It goes on, or waits behind an earlier command of its sequence. -/
  | ready
  /-- Held by a page fault (R348). -/
  | held (va : Word)
  /-- Parked at an unallocated block (R354). -/
  | parked
  /-- Waits for a page of another package, asked for by an operation number (R340). -/
  | remote (page op : Nat) (pkg : BitVec 10) (block : Nat)
  deriving DecidableEq, Repr, Inhabited

/-- The copy of a page that another package holds, with its address there, as the one translation found it (R340). -/
structure FarPage where
  page : Nat
  pkg : BitVec 10
  pa : Nat
  bytes : List Byte
  deriving DecidableEq, Repr, Inhabited

/-- An attention command that has left (R348, R354). -/
structure AtRun where
  task : Nat
  cmd : Nat
  op : AtOp
  rec' : AtRec
  /-- Physical address of the sequence descriptor. -/
  desc : Nat
  row : Nat := 0
  wait : AtWait := .ready
  /-- Pages translated so far with their addresses; copies of pages that other packages hold (R340). -/
  pages : List (Nat × Nat) := []
  far : List FarPage := []
  /-- Writes of far pages that have not been answered, by operation (R357). -/
  acks : List Nat := []
  deriving DecidableEq, Repr, Inhabited

/-! ## Tasks, gangs and commit -/

/-- What an intent does at its application (R97). -/
inductive IntentKind where
  /-- Bag b of a `wh.red` (R248). -/
  | red (va : Nat) (acc : List W32) (poison : Bool) (merge : Merge) (ty : RedTy)
  /-- A token of a `cam.scat` (R323): descriptor address, cell, features, confidence, stamp, view. -/
  | scat (desc : Nat) (cx cy cz : Int) (feats : List (BitVec 16)) (cn : Byte) (stamp : BitVec 24)
      (view : Byte) (merge : CamMerge)
  /-- The completion-word increment that follows the intents of a deferred command (R19, R80). -/
  | inc (va : Nat) (scope : Scope)
  deriving DecidableEq, Repr, Inhabited

/-- A deferred intent in a hold (R77). -/
structure Intent where
  cmd : Nat
  pos : Nat
  slots : Nat
  kind : IntentKind
  /-- Its first hold slot (R258). -/
  first : Nat := 0
  deriving DecidableEq, Repr, Inhabited

/-- An entry of a lay-by log (R258). -/
structure Lay where
  /-- Virtual address of the granule; for an intent, the address it is laid by under. -/
  va : Nat
  gen : BitVec 16
  /-- Bytes to write, by offset in the granule. -/
  bytes : SMap (Option Byte)
  cmd : Nat
  pos : Nat
  intent : Option Intent := none
  /-- An external effect's write, which goes directly to memory and holds back no commit (R89). -/
  ext : Bool := false
  /-- Address whose 64 KiB unit it holds back (R98): the target of the intent as it came to apply. -/
  target : Nat := 0
  /-- Number of the entry in its partition's log, and its place in the order of entry. -/
  slot : Nat := 0
  seq : Nat := 0
  deriving DecidableEq, Repr, Inhabited

/-- An increment of a completion word that waits for replays (R19). -/
structure CwWait where
  va : Nat
  scope : Scope
  cmd : Nat
  deriving DecidableEq, Repr, Inhabited

/-- The kinds of link operation (R136). -/
inductive LinkKind where
  | put | get | amo | send | notify | recv | coll
  deriving DecidableEq, Repr, Inhabited

/-- A link operation of a task, queued or in flight (R135, R136, R374). -/
structure LinkOp where
  num : Nat
  kind : LinkKind
  pkg : BitVec 10 := 0
  scope : Nat := 0
  aop : BitVec 4 := 0
  dbl : Bool := false
  len : Nat := 0
  remote : Word := 0
  local' : Word := 0
  cw : Word := 0
  /-- g[d] of an `acas`, g[a] of `lnotify` and `mrecv`. -/
  arg : Word := 0
  left : Bool := false
  /-- A page fault of its local access holds it (R116, R159). -/
  held : Bool := false
  /-- pc of the instruction (R158). -/
  pc : Word := 0
  /-- For a collective: its command's index and record. `local'` is then the source, `remote` the group and
  `arg` the destination. -/
  cmd : Nat := 0
  ins : Option Instr := none
  deriving DecidableEq, Repr, Inhabited

/-- Where a task is in its life (R75, R76, R85). -/
inductive Phase where
  /-- Admitted, not placed. -/
  | waiting
  /-- Placed; waits for its first dispatch. -/
  | placed
  /-- Its context is in its partition. -/
  | resident
  /-- Its context is in its save area (R155). -/
  | spilled
  /-- Committed or ended, kept only while operations it sent are in flight (R89, R157). -/
  | done
  deriving DecidableEq, Repr, Inhabited

/-- What a task has moved through one channel (R21): the 1 µs interval counted last, its bytes, and the real cycle in
which the last interval ends in which it was outside its reservation. -/
structure Traffic where
  span : Nat := 0
  bytes : Nat := 0
  outside : Nat := 0
  deriving DecidableEq, Repr, Inhabited

/-- A stream of a placed task: virtual range of its data block and of the node (R32). -/
structure Strm where
  va : Nat := 0
  lo : Nat := 0
  hi : Nat := 0
  reads : Bool := false
  writes : Bool := false
  bw : Nat := 0
  device : Bool := true
  /-- Its bound is void: a page of it is placed for an earlier stream (R144). -/
  void : Bool := false
  deriving DecidableEq, Repr, Inhabited

/-- A first guard access not yet reported (R223). -/
structure GuardHit where
  elem : Nat
  addr : Nat
  pos : Nat
  deriving DecidableEq, Repr, Inhabited

/-- A task (R13, R75 to R84). -/
structure Task where
  gang : Nat := 0
  ts : Word := 0
  scope : Scope := .core
  tenant : BitVec 16 := 0
  owner : BitVec 8 := 0
  queue : BitVec 8 := 0
  /-- Number in gang-table order; children follow. -/
  index : Nat := 0
  /-- A child, with its parent and the pc of the `tspawn` (R127). -/
  parent : Option (Nat × Word) := none
  childIx : Nat := 0
  ctx : Ctx := 0
  phase : Phase := .waiting
  /-- It executed `tend` (R76). -/
  tended : Bool := false
  /-- Aborted while spilled (R84). -/
  marked : Bool := false
  /-- Its image, once read (R141), and where the basin holds its Children section (R42). -/
  image : Image := {}
  kidsPa : Nat := 0
  /-- Rounded demands (R142). -/
  entries : Nat := 0
  bank : Nat := 0
  acc : Nat := 0
  loom : Nat := 0
  /-- Bank owner tag (R224). -/
  tag : BitVec 4 := 0
  args : List Word := []
  entryPc : Word := 0
  /-- Private stack: virtual base, physical base, size (R12, R103). -/
  stackVa : Nat := 0
  stackPa : Nat := 0
  stackLen : Nat := 0
  /-- Byte addresses of graph images in the basin (R288). -/
  graphs : List Nat := []
  streams : List Strm := []
  /-- Leaf PTE of each 64 KiB unit of the ranges, patched at load; 0 is a faulting entry (R256). -/
  extents : SMap Word := []
  /-- Held bytes by physical address (R77). -/
  hold : SMap (Option Byte) := []
  /-- Bytes that a release let out of the hold before the task was head; and those of them that a task before it in the
  commit order has stored to since, which are written again when it becomes head (R90; log entry 71). -/
  out : SMap (Option Byte) := []
  redo : SMap (Option Byte) := []
  intents : List Intent := []
  sig : BitVec 4096 := 0
  /-- Bricks read, with their store's descriptor (R82); and the stores whose set is past 1,024. -/
  bricks : List (Nat × Int × Int × Int) := []
  brickAll : List Nat := []
  lays : List Lay := []
  cws : List CwWait := []
  links : List LinkOp := []
  /-- Its mailbox in device memory (R165): base, slot that is read next, and lengths of the messages in it. -/
  mailPa : Nat := 0
  mailRd : Nat := 0
  mail : List Nat := []
  guardHit : Option GuardHit := none
  /-- What it has moved, by stack x 32 + channel (R21). -/
  traffic : SMap Traffic := []
  /-- Held at step 3 of its load by a page fault at an address: its gang, or the child, keeps what step 2 found
  (R145). -/
  step3 : Option Nat := none
  deriving DecidableEq, Repr, Inhabited

/-- A batch launch (R163). -/
structure Batch where
  table : Nat := 0
  count : Nat := 0
  iter : Nat := 0
  deriving DecidableEq, Repr, Inhabited

/-- Progress of a gang (R85, R143, R145). -/
inductive GangPhase where
  | waiting
  | placed
  /-- Between two iterations of a batch (R163). -/
  | between
  deriving DecidableEq, Repr, Inhabited

/-- A gang (R13, R138). -/
structure Gang where
  queue : BitVec 8 := 0
  tag : W32 := 0
  permissive : Bool := false
  tenant : BitVec 16 := 0
  size : Nat := 0
  table : Nat := 0
  args : List Word := []
  batch : Option Batch := none
  phase : GangPhase := .waiting
  /-- Messages discarded at exits (R161, R165). -/
  discarded : Nat := 0
  /-- Mappings in the loader window, by virtual 64 KiB unit, and frames by number, to return at the end (R391). -/
  maps : List Nat := []
  frames : List Nat := []
  /-- Units that this launch mapped with `va=`, for its later iterations (R163, R263); units of `va=` blocks and stores that
  what is under load has mapped. -/
  own : List Nat := []
  fresh : List Nat := []
  /-- Its `va=` blocks (address, name, alignment, size) and its stores as first declared, with their addresses
  (R263, R311). -/
  blocks : List (Nat × Nat × Nat × Nat) := []
  decls : List (Nat × StoreDecl) := []
  /-- Notes of the load report, of two words each, and whether a permissive overlap was placed (R147). -/
  notes : List (Word × Word) := []
  raced : Bool := false
  deriving DecidableEq, Repr, Inhabited

/-- An episode of a barrier identifier (R14, R128, R379). -/
structure Bar where
  /-- Gang the identifier is allocated to. -/
  gang : Option Nat := none
  arrived : List Nat := []
  /-- Real cycle of the last arrival. -/
  last : Nat := 0
  /-- Packages of a pod group that have arrived. -/
  pods : List (BitVec 10) := []
  sent : Bool := false
  /-- Packages of which a member's gang ended with a party still to arrive. -/
  lost : List (BitVec 10) := []
  deriving DecidableEq, Repr, Inhabited

/-! ## Dispatch, host interface, reliability -/

/-- A berth record (R148) and the sequence value last acted on (R149). -/
structure Berth where
  task : W32 := 0
  queue : BitVec 8 := 0
  tenant : BitVec 16 := 0
  cls : BitVec 2 := 0
  preempt : Bool := false
  valid : Bool := false
  slice : BitVec 16 := 0
  save : Word := 0
  seqNo : W32 := 0
  acted : W32 := 0
  /-- Save area of the record last acted on (R149). -/
  area : Word := 0
  /-- Real cycle in which the record was written (R153). -/
  wrote : Nat := 0
  deriving DecidableEq, Repr, Inhabited

/-- The dispatch word of a region (R148), a drain in progress (R153) and the slice (R150). -/
structure Disp where
  part : Bool := false
  none' : Bool := false
  seqNo : W32 := 0
  acted : W32 := 0
  /-- The partition that issues: the word as last acted on. -/
  live : Option Bool := some false
  /-- Last real cycle of the drain; 0 when none runs. -/
  drain : Nat := 0
  /-- Real cycle at which the slice ends; 0 when none runs. -/
  sliceEnd : Nat := 0
  sliceStart : Nat := 0
  deriving DecidableEq, Repr, Inhabited

/-- A package queue: its registers (R160), its admission buffer (R137, R367) and coalescing window (R162).
DESIGN CHOICE, log entry 1. -/
structure Queue where
  weight : BitVec 8 := 1
  cls : BitVec 2 := 3
  enable : Bool := false
  debugged : Bool := false
  holdOn : Bool := false
  coalesce : BitVec 16 := 0
  endpoint : Word := 0
  notify : Word := 0
  report : Word := 0
  refused : W32 := 0
  /-- Records written so far (R161). -/
  count : Nat := 0
  /-- Messages in the admission buffer: endpoint and eight words. -/
  msgs : List (Word × List Word) := []
  /-- Endpoints that must resend a refused message first (R367). -/
  resend : List (Word × List Word) := []
  /-- Open coalescing window: real cycle of opening and records in it. -/
  window : Option (Nat × Nat) := none
  deficit : Nat := 0
  deriving DecidableEq, Repr, Inhabited

/-- A fault record (R158). -/
structure FaultRec where
  code : BitVec 8
  held : Bool := false
  laid : Bool := false
  ended : Bool := false
  nested : Bool := false
  gen : BitVec 16
  task : W32 := 0
  addr : Word := 0
  tenant : BitVec 16 := 0
  ctx : Ctx := 0
  cmd : BitVec 9 := 0
  elem : BitVec 9 := 0
  pos : Word := 0
  /-- The model's own: an element raised it, so that it follows those of commands (R221). -/
  byElem : Bool := false
  deriving DecidableEq, Repr, Inhabited

/-- An attestation report (R387). -/
structure Report where
  nonce : Word
  pkg : BitVec 10
  kind : BitVec 2
  retired : BitVec 16
  measures : List (BitVec 512)
  signature : List Byte
  deriving DecidableEq, Repr, Inhabited

/-- What the package sends to the host and to other packages. DESIGN CHOICE, log entry 15. -/
inductive OutMsg where
  /-- A notify record at a host address (R161); address 0 for an unset notify area is never sent. -/
  | notify (addr : Word) (words : List Word)
  /-- A user-level interrupt with the records of the window and the last sequence (R162). -/
  | irq (endpoint : Word) (records : Nat) (last : Nat)
  /-- A reply to a host access; `ok` is false for an error reply (R366). -/
  | reply (ok : Bool) (bs : List Byte)
  /-- A launch message refused at link level (R137, R367). -/
  | refusal (queue : BitVec 8) (endpoint : Word)
  /-- A remote operation to a package (R369). -/
  | put (pkg : BitVec 10) (s : Sender) (va : Word) (bs : List Byte)
  | get (pkg : BitVec 10) (s : Sender) (va : Word) (len : Nat)
  | amo (pkg : BitVec 10) (s : Sender) (va : Word) (aop : BitVec 4) (dbl : Bool) (operand compare : Word)
  | mail (pkg : BitVec 10) (s : Sender) (task : W32) (bs : List Byte)
  | page (pkg : BitVec 10) (s : Sender) (block len : Nat)
  | pageWrite (pkg : BitVec 10) (s : Sender) (pa : Nat) (bs : List Byte)
  | coll (pkg : BitVec 10) (m : CollMsg)
  /-- An attestation report (R387). -/
  | attest (r : Report)
  /-- The answer to a remote operation (R370). -/
  | answer (pkg : BitVec 10) (op : Nat) (r : Reply)
  deriving DecidableEq, Repr, Inhabited

/-- An array line with an error (R74, R299, R380). -/
structure ErrLine where
  line : ArrayLine
  /-- Uncorrectable, else a single-bit error. -/
  hard : Bool
  /-- Real cycle of the upset, or in which the scrubber last read it. -/
  at' : Nat := 0
  deriving DecidableEq, Repr, Inhabited

/-- A translation held by a TLB (R253): tenant, virtual base, page size in bytes, leaf. -/
structure TlbEnt where
  tenant : BitVec 16
  base : Nat
  size : Nat
  pte : Word
  deriving DecidableEq, Repr, Inhabited

/-- The fault buffer's registers (R160). -/
structure FaultBuf where
  base : Word := 0
  size : Nat := 256
  prod : Word := 0
  cons : Word := 0
  gen : BitVec 16 := 0
  stat : Bool := false
  deriving DecidableEq, Repr, Inhabited

/-- The other package registers (R160, R257, R339, R379, R391, R392). DESIGN CHOICE, log entry 1. -/
structure PkgRegs where
  saveSz : Word := 0x2B00000
  saveVer : BitVec 16 := 1
  quantum : BitVec 10 := 50
  ctxBase : BitVec 52 := 0
  ctxCount : BitVec 17 := 0
  invCtx : BitVec 16 := 0
  invVa : BitVec 48 := 0
  invDone : Word := 0
  atgBase : BitVec 52 := 0
  atgSize : W32 := 0
  podBar : SMap Word := []
  lpBase : BitVec 52 := 0
  lpSize : BitVec 52 := 0
  bpSize : BitVec 27 := 0
  brStart : BitVec 27 := Config.brStart
  deriving DecidableEq, Repr, Inhabited

/-- Kind of a start (R388). -/
inductive StartKind where
  | cold | warm | safe | maintenance
  deriving DecidableEq, Repr, Inhabited

/-- Start, ageing and error registers (R383 to R388), and what the persistent store keeps. -/
structure Start where
  kind : StartKind := .cold
  repair : Bool := false
  failed : BitVec 2 := 0
  ready : Bool := false
  retired : BitVec 16 := 0
  hbmCE : Word := 0
  hbmUE : Word := 0
  /-- Number of starts made; the step the present start has reached. -/
  starts : Nat := 0
  stage : Nat := 0
  began : Nat := 0
  /-- Saved HBM training, and whether STARTCTL 1 was written since (R385). -/
  saved : Bool := false
  ctl1 : Bool := false
  /-- Ageing checks made of each region, and regions being measured. -/
  checks : SMap Nat := []
  measuring : List Nat := []
  /-- Real cycle in which each region was measured last (R383). -/
  aged : SMap Nat := []
  /-- Real cycle in which the measuring of a region began. -/
  since : Nat := 0
  /-- Frames of uncorrectable HBM rows marked for repair (R382). -/
  badRows : List Nat := []
  /-- The digest of the saved training has failed, so that the start goes on as a cold one (R384). -/
  fell : Bool := false
  /-- Measurements of the firmware images of this start, and the derived identity key (R387). -/
  measured : List (BitVec 512) := []
  identity : Option (List Byte) := none
  deriving DecidableEq, Repr, Inhabited

/-- A context written by a spill (R154), with its save area and the real cycle of the spill. DESIGN CHOICE, log entry 13. -/
structure Save where
  area : Word := 0
  at' : Nat := 0
  thr : Thread := {}
  plane : Plane := {}
  elems : SMap Elem := []
  bank : SMap W128 := []
  bankMeta : SMap BankMeta := []
  isls : SMap Isl := []
  links : SMap (List LinkEnt) := []
  cmdTab : SMap CmdRec := []
  runs : SMap CmdRun := []
  acc : SMap W32 := []
  tileA : Option Tile := none
  tileS : Option Tile := none
  slots : SMap Slot := []
  cams : SMap Cam := []
  sst : SMap Word := []
  atq : List AtQueued := []
  deriving DecidableEq, Repr, Inhabited

/-- A collective of a tag on this package (R376). -/
structure Coll where
  tag : W32
  seqNo : Nat
  /-- The command that left: its task, link operation, record and members. -/
  mine : Option (Nat × Nat × LCollRec × List (BitVec 10)) := none
  parts : List CollPart := []
  /-- Packages whose member failed or ended first. -/
  ended : List (BitVec 10) := []
  /-- Its destination write is held by a full lay-by log (R259). -/
  held : Bool := false
  deriving DecidableEq, Repr, Inhabited

/-- Who moves next within a real cycle (the model's own). -/
inductive Act where
  /-- The thread of a context has its issue slot. -/
  | thread (c : Ctx)
  /-- An element issues the entry due at its island's counter. -/
  | entry (c : Ctx) (e : ElemIx)
  /-- A command starts. -/
  | cmd (c : Ctx) (k : BitVec 8)
  /-- An attention command of a sequence, or a queued one, moves: by position in `atRun`, or of context c. -/
  | att (c : Ctx)
  | attGo (i : Nat)
  /-- The first queued `l.coll` of a task leaves. -/
  | coll (task : Nat)
  /-- A message that waits for a slot of its mailbox is delivered (R165). -/
  | mail
  /-- The host resumes the task of a context that a breakpoint froze (R156). -/
  | unfreeze (c : Ctx)
  /-- The fetches of a context take up one word of memory as it stands (R108). -/
  | refill (c : Ctx)
  /-- An island takes up its cycle. -/
  | isl (c : Ctx) (i : BitVec 6)
  /-- The end of a real cycle. -/
  | last
  /-- The bank accesses of a real cycle perform (R194, R277). -/
  | banks
  /-- Gangs that a fabric fault ends are ended (R221). -/
  | reap
  /-- The lockkeeper takes the oldest message of a queue. -/
  | takeMsg (q : BitVec 8)
  /-- The start reaches its next step (R384). -/
  | startStep
  /-- A report is made for a nonce of the host (R387). -/
  | attest (nonce : Word)
  /-- An event of the opcode table. -/
  | ev (i : Instr)
  deriving DecidableEq, Repr, Inhabited

/-- The package. -/
structure State where
  /-- Real cycles (R3), counted on over starts. -/
  cycle : Nat := 0
  agenda : List Act := []
  cur : Ctx := 0
  curElem : ElemIx := 0
  curCmd : BitVec 8 := 0
  /-- Number of the next free value. -/
  free : Nat := 0
  hostIn : List Instr := []
  linkIn : List Instr := []
  out : List OutMsg := []
  /-- Device memory, attention memory and basins, by physical byte address (R9). -/
  mem : SMap Byte := []
  /-- The check of each granule, by granule number (R71). -/
  checks : SMap (BitVec 16) := []
  /-- Memory as it stood at a context's last acquire: a fetch may still see these words (R108). -/
  codeSeen : SMap (SMap Byte) := []
  errs : List ErrLine := []
  /-- Corrected errors of the arrays of each region, and of the basin of each die (R74, R299, R380). -/
  bankCE : SMap Word := []
  basinCE : SMap Word := []
  tlb1 : SMap (List TlbEnt) := []
  tlb2 : SMap (List TlbEnt) := []
  /-- Pages pinned in the second-level TLB of each die (R253). -/
  pins : SMap (List TlbEnt) := []
  /-- Dead pages that a walk or an invalidation has met: tenant, virtual base, size; and addresses of entries of dead
  pages in which the host has set Live since the last invalidation that covers them (R255). -/
  dead : List (BitVec 16 × Nat × Nat) := []
  raised : List Nat := []
  refreshPtr : SMap Nat := []
  /-- Rows that the last refresh of a bank passed over, by 16 x pseudo-channel + bank (R382). -/
  elided : SMap (List Nat) := []
  threads : SMap Thread := []
  elems : SMap Elem := []
  /-- 16-byte beats of the banks, by (512 c + e) x 4096 + beat; metadata by (512 c + e) x 1024 + line. -/
  bank : SMap W128 := []
  bankMeta : SMap BankMeta := []
  /-- Engine plane writes and bank accesses of entries in this real cycle, oldest first. -/
  planeQ : List PlaneWr := []
  bankQ : List BankOp := []
  active : SMap Plane := []
  standby : SMap (Option Plane) := []
  isls : SMap Isl := []
  /-- Lock links by 4 (512 c + consumer) + direction in which the consumer looks (N, E, S, W). -/
  links : SMap (List LinkEnt) := []
  cmdTab : SMap CmdRec := []
  runs : SMap CmdRun := []
  /-- Accumulator cells by (1024 c + row) x 256 + column (R268). -/
  acc : SMap W32 := []
  tileA : SMap (Option Tile) := []
  tileS : SMap (Option Tile) := []
  /-- Loom slots by 16 c + slot. -/
  slots : SMap Slot := []
  /-- Camera registers by 8 c + N, store handles by 4 c + k (R309, R313). -/
  cams : SMap Cam := []
  sst : SMap Word := []
  atq : SMap (List AtQueued) := []
  atRun : List AtRun := []
  tasks : SMap Task := []
  gangs : SMap Gang := []
  /-- Task resident on a context, or placed there; task whose standby plane waits for the swap (R146). -/
  owner : SMap (Option Nat) := []
  booked : SMap (Option Nat) := []
  nextTask : Nat := 1
  nextGang : Nat := 1
  nextOp : Nat := 1
  nextLay : Nat := 1
  /-- Barriers by (32 x scope code + instance) x 16 + identifier. -/
  bars : SMap Bar := []
  berths : SMap Berth := []
  disps : SMap Disp := []
  saves : SMap Save := []
  queues : SMap Queue := []
  fb : FaultBuf := {}
  faultQ : List FaultRec := []
  /-- Records made in this generation: tenant, code, 64 KiB unit (R159). -/
  recorded : List (BitVec 16 × BitVec 8 × Nat) := []
  regs : PkgRegs := {}
  pkgId : BitVec 10 := Config.pkgId
  /-- Race flag in each region's status (R91). -/
  raceFlag : SMap Bool := []
  /-- Frames (64 KiB units) in use that outlive their launch: `va=` blocks and stores (R263, R311). -/
  kept : List (BitVec 16 × Nat × Nat) := []
  /-- Stores: tenant, virtual address, descriptor, declaration (R311). -/
  stores : List (BitVec 16 × Nat × Nat × StoreDecl) := []
  /-- Failed paths (link ports), and packages to which firmware has no path (R340, R363). -/
  badPorts : List (BitVec 5) := []
  unreach : List (BitVec 10) := Config.unrouted
  /-- Messages that wait for a slot of a full mailbox, oldest first (R165). -/
  mailWait : List (Sender × W32 × List Byte) := []
  colls : List Coll := []
  collCount : SMap Nat := []
  /-- Gangs that a fabric fault of this real cycle ends, with the code and whether the context ends. -/
  dying : List (Nat × BitVec 8 × Bool) := []
  start : Start := {}
  deriving DecidableEq, Repr, Inhabited

/-- The stops of the model beside a refusal. Every fault of the spec is taken as the spec describes and is
a next state, so no step of this model raises one. -/
inductive Fault where
  /-- Raised by no step; safe. -/
  | notRaised
  deriving DecidableEq, Repr, Inhabited

/-- Why a step has no next state. -/
inductive Refusal where
  /-- An instruction without a meaning yet; answered by `exec` alone; safe. -/
  | notModelled (mnemonic : String)
  deriving DecidableEq, Repr, Inhabited

/-- The machine right after reset: a cold start has begun, every register has its reset value, nothing is
placed and memory lists nothing (R160, R385; log entries 1 and 2). -/
def State.reset : State := { start := { starts := 1 } }

end Sys2Proof.Machine
end

