-- ==== Sys2Proof/Machine/Ops.lean ====
section
/-!
DEFINITION. Named operations over registers and memory: accessors, the physical map, checks, fault records,
trap entry and return, translation.
-/

namespace Sys2Proof.Machine

/-- The outcome of a step. -/
abbrev Out := Host.Outcome State Fault Refusal

/-! ## Places and keys -/

/-- Region of a context (R13). -/
def regionOf (c : Ctx) : Nat := c.toNat / 2
/-- Compute die of a context (R5). -/
def dieOf (c : Ctx) : Nat := c.toNat / 16
/-- Context of a region and partition. -/
def ctxOf (r : Nat) (p : Bool) : Ctx := BitVec.ofNat 5 (2 * r + p.toNat)
/-- Keys of the maps of `State`. -/
def eKey (c : Ctx) (e : Nat) : Nat := c.toNat * 512 + e
def iKey (c : Ctx) (i : Nat) : Nat := c.toNat * 64 + i
def kKey (c : Ctx) (k : Nat) : Nat := c.toNat * 256 + k
/-- Instance number of the lane scope, of an element of a context's region (R14). It has no barriers. -/
def laneInst (c : Ctx) (e : Nat) : Nat := c.toNat / 2 * 512 + e
/-- Instance number of a scope of tasks for a context (R14); a lane is numbered by `laneInst`. -/
def instOf : Scope → Ctx → Nat
  | .core, c => c.toNat / 2
  | .quad, c => c.toNat / 8
  | .die, c => c.toNat / 16
  | .lane, _ => 0 | .package, _ => 0 | .pod, _ => 0
/-- Code of a scope (R107). -/
def scopeNum : Scope → Nat
  | .lane => 0 | .core => 1 | .quad => 2 | .die => 3 | .package => 4 | .pod => 5
/-- Scope of a code (R107). -/
def scopeOfNum : Nat → Scope
  | 1 => .core | 2 => .quad | 3 => .die | 4 => .package | 5 => .pod | _ => .lane

/-! ## Accessors -/

/-- Thread of a context. -/
def State.thr (s : State) (c : Ctx) : Thread := mget s.threads c.toNat
def State.setThr (s : State) (c : Ctx) (t : Thread) : State :=
  { s with threads := mset s.threads c.toNat t }
def State.modThr (s : State) (c : Ctx) (f : Thread → Thread) : State := s.setThr c (f (s.thr c))
/-- Element of a context. -/
def State.elem (s : State) (c : Ctx) (e : Nat) : Elem := mget s.elems (eKey c e)
def State.setElem (s : State) (c : Ctx) (e : Nat) (x : Elem) : State :=
  { s with elems := mset s.elems (eKey c e) x }
/-- Island of a context. -/
def State.isl (s : State) (c : Ctx) (i : Nat) : Isl := mget s.isls (iKey c i)
def State.setIsl (s : State) (c : Ctx) (i : Nat) (x : Isl) : State :=
  { s with isls := mset s.isls (iKey c i) x }
/-- Active configuration plane of a context (R146). -/
def State.plane (s : State) (c : Ctx) : Plane := mget s.active c.toNat
/-- Run state of a command. -/
def State.run (s : State) (c : Ctx) (k : Nat) : CmdRun := mget s.runs (kKey c k)
def State.setRun (s : State) (c : Ctx) (k : Nat) (x : CmdRun) : State :=
  { s with runs := mset s.runs (kKey c k) x }
/-- Record of the command table as it stands (R130). -/
def State.cmdRec (s : State) (c : Ctx) (k : Nat) : CmdRec := mget s.cmdTab (kKey c k)
/-- Task by identifier; gang 0 means that there is none. -/
def State.task (s : State) (id : Nat) : Task := mget s.tasks id
def State.setTask (s : State) (id : Nat) (t : Task) : State := { s with tasks := mset s.tasks id t }
def State.modTask (s : State) (id : Nat) (f : Task → Task) : State :=
  if (s.task id).gang = 0 then s else s.setTask id (f (s.task id))
/-- Identifier of the task resident on a context; 0 for none. -/
def State.taskAt (s : State) (c : Ctx) : Nat := (mget s.owner c.toNat).getD 0
/-- Task whose standby plane waits for the swap on a context; 0 for none. -/
def State.bookedAt (s : State) (c : Ctx) : Nat := (mget s.booked c.toNat).getD 0
def State.gang (s : State) (g : Nat) : Gang := mget s.gangs g
def State.setGang (s : State) (g : Nat) (x : Gang) : State := { s with gangs := mset s.gangs g x }
def State.queue (s : State) (q : Nat) : Queue := mget s.queues q
def State.setQueue (s : State) (q : Nat) (x : Queue) : State := { s with queues := mset s.queues q x }
def State.setCmdRec (s : State) (c : Ctx) (k : Nat) (x : CmdRec) : State :=
  { s with cmdTab := mset s.cmdTab (kKey c k) x }

/-! ## General registers (R99) -/

/-- A register read: g0 is zero. -/
def Thread.get (t : Thread) (r : Reg) : Word := if r = 0 then 0 else mget t.g r.toNat
/-- A register write with its poison bit: g0 discards it. -/
def Thread.put (t : Thread) (r : Reg) (v : Word) (p : Bool) : Thread :=
  if r = 0 then t
  else { t with g := mset t.g r.toNat v
                poison := if p then t.poison ||| (1#32 <<< r.toNat) else t.poison &&& ~~~(1#32 <<< r.toNat) }
/-- Poison bit of a register. -/
def Thread.poisoned (t : Thread) (r : Reg) : Bool := t.poison.getLsbD r.toNat
/-- Whether a register is pending (R109); g0 never is. -/
def Thread.pending (t : Thread) (r : Reg) : Bool := r != 0 && t.pend.any (·.d == r)
/-- Whether an instruction stalls on its registers (R108, R109). -/
def Thread.busy (t : Thread) (now : Nat) (srcs dsts : List Reg) : Bool :=
  srcs.any (fun r => t.pending r || now < mget t.ready r.toNat) || dsts.any t.pending
/-- The lowest-numbered poisoned register among the sources (R110). -/
def Thread.firstPoisoned (t : Thread) (srcs : List Reg) : Option Reg :=
  (srcs.filter t.poisoned).foldl (fun m r => match m with
    | none => some r
    | some x => if r.toNat < x.toNat then some r else some x) none

/-! ## Retiring, stalling, trapping -/

/-- The loads in flight take no later value: what comes next is ordered behind them (R389). -/
def Thread.closeLoads (t : Thread) : Thread := { t with pend := t.pend.map (fun p => { p with again := none }) }
/-- The instruction stays at the pc and issues again (R108). -/
def State.stalled (s : State) (c : Ctx) : State :=
  s.modThr c (fun t => { t with waitSince := some (t.waitSince.getD s.cycle) })
/-- The next word follows. -/
def State.retire (s : State) (c : Ctx) (f : Thread → Thread) : State :=
  s.modThr c (fun t => { f t with pc := t.pc + 4, waitSince := none, idle := none, woken := false,
                                  barArrived := false, barReleased := false })
/-- A transfer to a target, with the delay of the next issue (R108). -/
def State.transfer (s : State) (c : Ctx) (f : Thread → Thread) (target : Word) (delay : Nat) : State :=
  s.modThr c (fun t => { f t with pc := target, waitSince := none, idle := none, woken := false, nextIssue := s.cycle + delay })

/-- Fault records with a stated once-per-generation rule (R159). -/
def onceCode (code : BitVec 8) : Bool := code == 0x08 || code == 0x09 || code == 0x0B || code == 0x20
/-- The buffer is full, or not yet placed (R158). -/
def FaultBuf.full (f : FaultBuf) : Bool :=
  f.base == 0 || (f.prod - f.cons).toNat ≥ f.size
/-- Make a fault record under the present generation (R158, R159). -/
def State.record (s : State) (r : FaultRec) : State :=
  let r := { r with gen := s.fb.gen }
  let key := (r.tenant, r.code, r.addr.toNat / 65536)
  if onceCode r.code && s.recorded.contains key then s
  else
    { s with faultQ := s.faultQ ++ [r]
             recorded := if onceCode r.code then key :: s.recorded else s.recorded
             fb := { s.fb with stat := s.fb.stat || s.fb.full } }
/-- A record that names the task of a context. -/
def State.recordAt (s : State) (c : Ctx) (code : BitVec 8) (addr : Word) (cmd elem : Nat) (pos : Word)
    (held laid ended nested : Bool) : State :=
  let id := s.taskAt c
  s.record { code := code, held := held, laid := laid, ended := ended, nested := nested, gen := 0
             task := BitVec.ofNat 32 id, addr := addr, tenant := (s.task id).tenant, ctx := c
             cmd := BitVec.ofNat 9 cmd, elem := BitVec.ofNat 9 elem, pos := pos }
/-- The command number that stands for the sequencer (R158). -/
def seqCmd : Nat := 0x1FF

/-- Mark a gang to be ended at the end of the real cycle, or its context (R157, R221). -/
def State.doom (s : State) (g : Nat) (code : BitVec 8) (ctx : Bool) : State :=
  if g = 0 then s else { s with dying := s.dying ++ [(g, code, ctx)] }
def State.doomed (s : State) (g : Nat) : Bool := s.dying.any (·.1 == g)
/-- A fault of a command or an element that ends the gang of a context's task (R156, R221). No fault of a gang
is recorded in a later real cycle, because the gang is ended at the end of this one. -/
def State.fabricFault (s : State) (c : Ctx) (code : BitVec 8) (addr : Word) (cmd elem : Nat) (pos : Nat)
    (byElem : Bool) : State :=
  let t := s.task (s.taskAt c)
  (s.record { code := code, ended := true, gen := 0, task := BitVec.ofNat 32 (s.taskAt c), addr := addr
              tenant := t.tenant, ctx := c, cmd := BitVec.ofNat 9 cmd, elem := BitVec.ofNat 9 elem
              pos := BitVec.ofNat 64 pos, byElem := byElem }).doom t.gang code false

/-- Taking a precise trap (R111). In supervisor mode the run stops, the record is nested and the gang ends. -/
def State.trap (s : State) (c : Ctx) (code : BitVec 8) (arg : Word) : State :=
  let t := s.thr c
  if t.sup then
    ((s.recordAt c code arg seqCmd 0 t.pc false false true true).doom (s.task (s.taskAt c)).gang code
      false).modThr c (fun t => { t with nested := true, stopped := true })
  else
    s.modThr c (fun t => { t with epc := t.pc, ecause := code, earg := arg, prevSup := false, sup := true
                                  pc := t.evec.getD (Config.handlerEntry &&& ~~~(3 : Word))
                                  waitSince := none, idle := none, woken := false })
/-- The return from a trap (R122 `eret`). `pc` is always a multiple of 4 (R99). -/
def State.trapReturn (s : State) (c : Ctx) : State :=
  s.modThr c (fun t => { t with sup := t.prevSup, pc := t.epc &&& ~~~(3 : Word), waitSince := none })

/-- The Karuc handler as R156 states it: a breakpoint in a debugged queue is recorded and the task frozen
until the host resumes it; every other code is recorded and ends the gang. DESIGN CHOICE, log entry 14. -/
def State.karuc (s : State) (c : Ctx) : State :=
  let t := s.thr c
  let id := s.taskAt c
  let tk := s.task id
  if t.ecause == 0x04 && (s.queue tk.queue.toNat).debugged then
    (s.recordAt c t.ecause t.earg seqCmd 0 t.epc false false false false).modThr c
      (fun t => { t with held := .debug })
  else
    ((s.recordAt c t.ecause t.earg seqCmd 0 t.epc false false true false).doom tk.gang t.ecause
      false).modThr c (fun t => { t with stopped := true })

/-- The host resumes a task frozen at a breakpoint: it goes on in user mode after its `brk`. DESIGN CHOICE, log
entry 14. -/
def State.unfreeze (s : State) (c : Ctx) : State :=
  s.modThr c (fun t => if t.held == .debug then { t with held := .no, sup := false, pc := t.epc + 4 } else t)

/-! ## The physical map (R9) -/

/-- What lies at a physical address. -/
inductive Place where
  | device | attention | basin | registers | reserved
  deriving DecidableEq, Repr, Inhabited

/-- The map of R9; in a safe start FD1's basin, stacks 4 to 7 and attention memory are reserved (R386). -/
def placeOf (safe : Bool) (pa : Nat) : Place :=
  if pa < 0x8000000000 then (if safe && 0x4000000000 ≤ pa then .reserved else .device)
  else if pa < 0x10000000000 then .reserved
  else if pa < 0x14000000000 then (if safe then .reserved else .attention)
  else if pa < 0x20000000000 then .reserved
  else if pa < 0x20008000000 then .basin
  else if pa < 0x20010000000 then (if safe then .reserved else .basin)
  else if pa < 0x30000000000 then .reserved
  else if pa < 0x30100000000 then .registers
  else .reserved
def State.place (s : State) (pa : Nat) : Place := placeOf (s.start.kind == .safe) pa

/-! ## Memory and its checks -/

/-- The canonical form of memory: addresses rise strictly, and no entry holds what an unlisted byte reads as. -/
abbrev Memory.wf (m : SMap Byte) : Bool := mwf m
/-- A byte of memory; an unlisted byte reads 0 (log entry 2). -/
def State.byte (s : State) (pa : Nat) : Byte := mget s.mem pa
def byteList (f : Nat → Byte) : Nat → Nat → List Byte
  | _, 0 => []
  | a, n + 1 => f a :: byteList f (a + 1) n
def State.bytes (s : State) (pa n : Nat) : List Byte := byteList s.byte pa n
/-- The number a little-endian byte list stands for (R1). -/
def leVal : List Byte → Nat
  | [] => 0
  | b :: bs => b.toNat + 256 * leVal bs
/-- n bytes of a number, least significant first (R1). -/
def leList : Nat → Nat → List Byte
  | 0, _ => []
  | n + 1, v => BitVec.ofNat 8 v :: leList n (v / 256)
def State.word (s : State) (pa : Nat) : Nat := leVal (s.bytes pa 8)
/-- Bytes cut or filled up with zeros to n. -/
def fitBytes (n : Nat) (bs : List Byte) : List Byte := (bs ++ List.replicate n 0).take n
/-- Set bytes from an address on. -/
def putBytes : SMap Byte → Nat → List Byte → SMap Byte
  | m, _, [] => m
  | m, a, b :: bs => putBytes (mset m a b) (a + 1) bs

/-- One byte of the CRC of R71, most significant bit first. -/
def crcBits : Nat → Nat → Nat
  | 0, c => c
  | n + 1, c => crcBits n (if c / 32768 % 2 = 1 then Nat.xor (c * 2 % 65536) 0x8BB7 else c * 2 % 65536)
def crc16 (bs : List Byte) : BitVec 16 :=
  BitVec.ofNat 16 (bs.foldl (fun c b => crcBits 8 (Nat.xor c (b.toNat * 256))) 0)
def State.granule (s : State) (g : Nat) : List Byte := s.bytes (64 * g) 64
/-- Whether a granule's check holds (R73). DESIGN CHOICE, log entry 2. -/
def State.checkOk (s : State) (g : Nat) : Bool := mget s.checks g == crc16 (s.granule g)
/-- Make the check of a granule anew (R72). -/
def State.remake (s : State) (g : Nat) : State :=
  { s with checks := mset s.checks g (crc16 (s.granule g)) }
/-- Write bytes inside one granule: a part first verifies the old check (R72). `false` when it fails and
nothing is stored. -/
def State.writeGranule (s : State) (pa : Nat) (bs : List Byte) : State × Bool :=
  let g := pa / 64
  if bs.length < 64 && !s.checkOk g then (s, false)
  else
    let s1 := { s with mem := putBytes s.mem pa bs }
    (s1.remake g, true)
/-- Split a byte list at granule boundaries. -/
def splitGranules : Nat → Nat → List Byte → List (Nat × List Byte)
  | 0, _, _ => []
  | _, _, [] => []
  | n + 1, pa, bs =>
    let k := 64 - pa % 64
    (pa, bs.take k) :: splitGranules n (pa + k) (bs.drop k)
/-- The granule pieces of a write. -/
def pieces (pa : Nat) (bs : List Byte) : List (Nat × List Byte) := splitGranules (bs.length / 64 + 2) pa bs
/-- Write bytes with their checks; the granules whose old check failed are not stored and are listed. -/
def State.write (s : State) (pa : Nat) (bs : List Byte) : State × List Nat :=
  (pieces pa bs).foldl (fun (p : State × List Nat) (q : Nat × List Byte) =>
    let (s2, ok) := p.1.writeGranule q.1 q.2
    (s2, if ok then p.2 else p.2 ++ [q.1 / 64])) (s, [])
/-- The old check of a partly written granule has failed: 0x14, and the end of the gang of the task that a write is made
for, if any (R73, R156). -/
def State.integrity (s : State) (id g : Nat) : State :=
  let t := s.task id
  (s.record { code := 0x14, ended := t.gang != 0, gen := 0, task := BitVec.ofNat 32 id, addr := BitVec.ofNat 64 (64 * g)
              tenant := t.tenant, ctx := t.ctx, cmd := 0x1FF }).doom t.gang 0x14 false
/-- A hardware update of a structure in memory, for a task or for none (0): a write like any other, which stores nothing
into a granule whose old check fails (R72, R73). DEDUCED, log entry 51. -/
def State.updateFor (s : State) (id pa : Nat) (bs : List Byte) : State :=
  (pieces pa bs).foldl (fun (s : State) (q : Nat × List Byte) =>
    match s.writeGranule q.1 q.2 with
    | (s1, true) => s1
    | (s1, false) => s1.integrity id (q.1 / 64)) s
def State.update (s : State) (pa : Nat) (bs : List Byte) : State := s.updateFor 0 pa bs
/-- A hardware update of one word. DEDUCED, log entry 51. -/
def State.updateWord (s : State) (pa v : Nat) : State := s.update pa (leList 8 v)
/-- Set Accessed and Dirty in an entry, for a task's translation (R254). -/
def State.markWord (s : State) (id pa old new : Nat) : State := if new = old then s else s.updateFor id pa (leList 8 new)
/-- Granules a byte range touches. -/
def granulesOf (pa n : Nat) : List Nat :=
  if n = 0 then [] else (List.range ((pa + n - 1) / 64 - pa / 64 + 1)).map (· + pa / 64)

/-! ## Context table (R392) -/

/-- An entry of the context table: whether it may be used, L0 root and owner tag. -/
structure CtxEntry where
  ok : Bool
  valid : Bool
  root : Nat
  owner : BitVec 8
  deriving DecidableEq, Repr, Inhabited
def State.ctxEntry (s : State) (n : Nat) : CtxEntry :=
  if n ≥ s.regs.ctxCount.toNat then { ok := false, valid := false, root := 0, owner := 0 }
  else
    let w0 := s.word (s.regs.ctxBase.toNat + 16 * n)
    let w1 := s.word (s.regs.ctxBase.toNat + 16 * n + 8)
    let valid := w0 / 2 ^ 63 == 1
    { ok := valid && w1 % 256 != 0 && w1 / 256 == 0 && w0 / 2 ^ 52 % 2 ^ 11 == 0 && w0 % 4096 == 0
      valid := valid, root := w0 % 2 ^ 52, owner := BitVec.ofNat 8 w1 }

/-- Doom every gang of the context that an owner tag names; tag 0 ends nothing (R381). -/
def State.doomOwner (s : State) (tag : Nat) : State :=
  if tag = 0 then s
  else (s.gangs.filter (fun p => p.2.size != 0 && (s.ctxEntry p.2.tenant.toNat).owner.toNat == tag)).foldl
    (fun s p => s.doom p.1 0x30 true) s
/-- A context end for what a task holds: its gang and every other gang of its tenant context (R157). -/
def State.doomContext (s : State) (t : Task) : State := (s.doom t.gang 0x30 true).doomOwner t.owner.toNat

/-! ## Translation (R250 to R255) -/

/-- Fields of a leaf PTE (R251). -/
def pteBit (p n : Nat) : Bool := p / 2 ^ n % 2 == 1
def pteFrame (p : Nat) : Nat := p / 2 ^ 16 % 2 ^ 36
def pteOwner (p : Nat) : Nat := p / 2 ^ 52 % 256
/-- Page size by the code that an extent keeps in the reserved bits 62:60 of its leaf. -/
def sizeOfCode : Nat → Nat
  | 0 => 2 ^ 16 | 1 => 2 ^ 21 | 2 => 2 ^ 25 | _ => 2 ^ 30
/-- Bytes of a leaf at a level (R252). -/
def leafSize (lv p : Nat) : Nat :=
  if lv = 1 then 2 ^ 30 else if lv = 2 then (if pteBit p 5 then 2 ^ 25 else 2 ^ 21) else 2 ^ 16

/-- The end of a walk. -/
inductive Walk where
  | fault | prot
  | leaf (pte lv pteAddr : Nat)
  deriving DecidableEq, Repr, Inhabited

/-- The checks of a leaf of R252: level, span, alignment, reserved fields, placement. -/
def leafOk (p lv : Nat) : Bool :=
  lv != 0 && (!pteBit p 5 || lv == 2) && pteFrame p * 65536 % leafSize lv p == 0
    && p / 2 ^ 11 % 32 == 0 && p / 2 ^ 60 % 8 == 0 && p / 64 % 4 < 2

/-- Index of a level (R250). -/
def walkIndex (lv va : Nat) : Nat :=
  match lv with
  | 0 => va / 2 ^ 39 % 512 | 1 => va / 2 ^ 30 % 512 | 2 => va / 2 ^ 21 % 512 | _ => va / 2 ^ 16 % 32

/-- Walk the remaining levels from a table (R250). A table outside device memory and the basins is taken as
a misplaced one, 0x0A. DEDUCED, log entry 20. -/
def State.walkFrom (s : State) (va : Nat) : Nat → Nat → Walk
  | 0, _ => .prot
  | n + 1, t =>
    let lv := 3 - n
    if (lv < 3 && t % 4096 != 0) || !(s.place t == .device || s.place t == .basin) then .prot
    else
      let a := t + 8 * walkIndex lv va
      let e := s.word a
      if !pteBit e 0 then .fault
      else if pteBit e 1 then (if leafOk e lv then .leaf e lv a else .prot)
      else if lv = 3 then .prot
      else if e / 4 % 64 != 0 || e / 2 ^ 52 != 0 then .prot
      else s.walkFrom va n (e / 256 % 2 ^ 44 * 256)
def State.walk (s : State) (tenant : Nat) (va : Nat) : Walk := s.walkFrom va 4 (s.ctxEntry tenant).root
/-- The valid entries of a table, with their indices. -/
def State.tableEntries (s : State) (t n : Nat) : List (Nat × Nat) :=
  (s.mem.filter (fun p => t ≤ p.1 && p.1 < t + 8 * n && (p.1 - t) % 8 == 0 && p.2.getLsbD 0)).map (fun p =>
    ((p.1 - t) / 8, s.word p.1))
/-- The pages below a table that covers addresses from `va` on: virtual base, size and PTE of each leaf (R250). -/
def State.pagesFrom (s : State) : Nat → Nat → Nat → List (Nat × Nat × Nat)
  | 0, _, _ => []
  | n + 1, t, va =>
    let lv := 3 - n
    if (lv < 3 && t % 4096 != 0) || !(s.place t == .device || s.place t == .basin) then []
    else (s.tableEntries t (if n = 0 then 32 else 512)).flatMap (fun q =>
      let e := q.2
      let va2 := va + q.1 * 2 ^ (match lv with | 0 => 39 | 1 => 30 | 2 => 21 | _ => 16)
      if pteBit e 1 then (if leafOk e lv then [(va2 / leafSize lv e * leafSize lv e, leafSize lv e, e)] else [])
      else if lv = 3 || e / 4 % 64 != 0 || e / 2 ^ 52 != 0 then []
      else s.pagesFrom n (e / 256 % 2 ^ 44 * 256) va2)

/-- What an access asks for. -/
inductive AccK where
  | load | store | fetch
  deriving DecidableEq, Repr, Inhabited

/-- The outcome of a translation. -/
inductive Acc where
  /-- Allowed at a physical address; poisoned by the page, and dead (R241, R255); the page's owner tag. -/
  | ok (pa : Nat) (poison dead : Bool) (tag : Nat)
  | pageFault
  | prot
  | owner
  deriving DecidableEq, Repr, Inhabited

/-- The access checks of R252, R255, R116, R11 and R12 on a leaf. The owner tag is compared first. An extent names
the frame of its 64 KiB unit, so the page begins at the multiple of its size below. DEDUCED, log entries 19 and 25. -/
def State.checkLeaf (s : State) (owner : BitVec 8) (sup : Bool) (k : AccK) (pte size va : Nat) : Acc :=
  let page := pteFrame pte * 65536 / size * size
  let pa := page + va % size
  let pl := s.place pa
  if pteOwner pte != 0 && pteOwner pte != owner.toNat then .owner
  else if pl == .reserved || pl == .attention || (pl == .registers && !sup) then .prot
  else if pl == .basin && (page - 0x20000000000) % 0x8000000 < s.regs.brStart.toNat then .prot
  else if !sup && !pteBit pte 4 then .prot
  else match k with
    | .load => .ok pa (pteBit pte 63 || !pteBit pte 10) (!pteBit pte 10) (pteOwner pte)
    | .fetch => if pteBit pte 3 then .ok pa false (!pteBit pte 10) (pteOwner pte) else .prot
    | .store => if pteBit pte 2 && pteBit pte 10 then .ok pa (pteBit pte 63) false (pteOwner pte) else .prot

def tlbFind (tenant : BitVec 16) (va : Nat) : List TlbEnt → Option TlbEnt
  | [] => none
  | e :: es => if e.tenant == tenant && e.base ≤ va && va < e.base + e.size then some e
               else tlbFind tenant va es
/-- The other entries of a TLB than those of one page. -/
def tlbSans (e : TlbEnt) (l : List TlbEnt) : List TlbEnt :=
  l.filter (fun x => !(x.tenant == e.tenant && x.base == e.base && x.size == e.size))
/-- Put an entry into a fully associative TLB of a capacity; a full one loses an entry of no stated choice (R253).
DESIGN CHOICE, log entry 12. -/
def tlbPut (cap pick : Nat) (e : TlbEnt) (l : List TlbEnt) : List TlbEnt :=
  let l := tlbSans e l
  e :: (if l.length < cap then l else l.eraseIdx (Config.pick pick % l.length))
/-- The set of the second-level TLB that an entry lies in: 32,768 entries, 8-way. The spec does not say which set a page
takes. DESIGN CHOICE, log entry 12. -/
def tlbSet (e : TlbEnt) : Nat := e.base / e.size % 4096
def tlbWays : Nat := 8
/-- Entries of the set of an entry. -/
def tlbMates (e : TlbEnt) (l : List TlbEnt) : List TlbEnt := l.filter (fun x => tlbSet x == tlbSet e)
/-- Take entries out of a set until a way is free beside its pins. -/
def tlbRoom (pick : Nat) (pins : List TlbEnt) (e : TlbEnt) (l : List TlbEnt) : List TlbEnt :=
  let mine := tlbMates e l
  if mine.length + (tlbMates e pins).length < tlbWays then l else l.erase (mine.getD (Config.pick pick % mine.length) e)
/-- Put an entry into the second level, where pins hold ways of its sets too (R253). -/
def tlbPutSet (pick : Nat) (pins : List TlbEnt) (e : TlbEnt) (l : List TlbEnt) : List TlbEnt :=
  if (tlbMates e pins).length ≥ tlbWays then l else e :: tlbRoom pick pins e (tlbSans e l)

/-- Look up the first-level TLB of the region, then the second level and the pins of its die. -/
def State.tlbLookup (s : State) (c : Ctx) (tenant : BitVec 16) (va : Nat) : Option TlbEnt :=
  match tlbFind tenant va (mget s.tlb1 (regionOf c)) with
  | some e => some e
  | none => match tlbFind tenant va (mget s.pins (dieOf c)) with
    | some e => some e
    | none => tlbFind tenant va (mget s.tlb2 (dieOf c))

/-- Set Accessed, and Dirty for a write, in a PTE (R254). -/
def markPte (store : Bool) (p : Nat) : Nat := Nat.lor p (if store then 0x300 else 0x100)

/-- Walk, set Accessed and Dirty, and fill both TLBs (R253, R254). -/
def State.walkFill (s : State) (c : Ctx) (tenant : BitVec 16) (k : AccK) (va : Nat) : State × Walk × Nat :=
  match s.walk tenant.toNat va with
  | .fault => (s, .fault, 1)
  | .prot => (s, .prot, 1)
  | .leaf p lv a =>
    let p2 := markPte (k == .store && pteBit p 2) p
    let s1 := s.markWord (s.taskAt c) a p p2
    let size := leafSize lv p
    let e : TlbEnt := { tenant := tenant, base := va / size * size, size := size, pte := BitVec.ofNat 64 p2 }
    let mark := (tenant, va / size * size, size)
    ({ s1 with dead := if pteBit p 10 || s1.dead.contains mark then s1.dead else mark :: s1.dead
               tlb1 := mmod s1.tlb1 (regionOf c) (tlbPut 1024 s1.free e)
               tlb2 := mmod s1.tlb2 (dieOf c) (tlbPutSet (s1.free + 1) (mget s1.pins (dieOf c)) e)
               free := s1.free + 2 }, .leaf p2 lv a, size)

/-- Find the leaf for an access: a TLB entry, unless a store needs Dirty set, else a walk (R253, R254).
DESIGN CHOICE, log entry 12. -/
def State.findLeaf (s : State) (c : Ctx) (tenant : BitVec 16) (k : AccK) (va : Nat) : State × Walk × Nat :=
  match s.tlbLookup c tenant va with
  | some e =>
    if k != .store || pteBit e.pte.toNat 9 || !pteBit e.pte.toNat 2 then (s, .leaf e.pte.toNat 3 0, e.size)
    else s.walkFill c tenant k va
  | none => s.walkFill c tenant k va

/-- Translate and check a sequencer or indirect access (R116, R243, R250, R252). -/
def State.translate (s : State) (c : Ctx) (tenant : BitVec 16) (owner : BitVec 8) (sup : Bool) (k : AccK)
    (va : Nat) : State × Acc :=
  if va ≥ 2 ^ 48 then (s, .prot)
  else
    let (s1, w, size) := s.findLeaf c tenant k va
    match w with
    | .fault => (s1, .pageFault)
    | .prot => (s1, .prot)
    | .leaf p _ _ => (s1, s1.checkLeaf owner sup k p size va)

/-- Remove a page's entries, at every page size, or a context's, from a list (R122, R257). -/
def tlbDrop (tenant : BitVec 16) (page : Option Nat) (l : List TlbEnt) : List TlbEnt :=
  l.filter (fun e => !(e.tenant == tenant &&
    (match page with | none => true | some va => e.base ≤ va && va < e.base + e.size)))

end Sys2Proof.Machine
end

