-- ==== Sys2Proof/Machine/Commit.lean ====
section
/-!
DEFINITION. Tasks in their commit order (04_memory_model.md): head and head group, hold and read set,
visibility events and aborts, the lay-by log, the start of a task, the end of a gang, notify records.
-/

namespace Sys2Proof.Machine

/-! ## Head and head group (R75, R76) -/

/-- A task that is placed and uncommitted, so that it has a commit order. -/
def Task.inOrder (t : Task) : Bool :=
  t.gang != 0 && (t.phase == .placed || t.phase == .resident || t.phase == .spilled)
/-- Two tasks of one commit-scope instance (R15). -/
def Task.sameInst (t u : Task) : Bool := t.scope == u.scope && instOf t.scope t.ctx == instOf u.scope u.ctx
/-- The commit order of (timestamp, identifier) pairs (R75). -/
def precedes (ts1 : Word) (id1 : Nat) (ts2 : Word) (id2 : Nat) : Bool :=
  ts1.toNat < ts2.toNat || (ts1 == ts2 && id1 < id2)
def State.isHead (s : State) (id : Nat) : Bool :=
  let t := s.task id
  t.inOrder && (mkeys s.tasks).all (fun k =>
    let u := s.task k
    !(u.inOrder && t.sameInst u && precedes u.ts k t.ts id))
def State.inHeadGroup (s : State) (id : Nat) : Bool :=
  let t := s.task id
  t.inOrder && (mkeys s.tasks).all (fun k =>
    let u := s.task k
    !(u.inOrder && t.sameInst u && u.ts.toNat < t.ts.toNat))

/-! ## Read set (R82) -/

/-- Rotate left within 48 bits. -/
def rotl48 (v n : Nat) : Nat := (v * 2 ^ (n % 48) % 2 ^ 48) + v / 2 ^ (48 - n % 48)
/-- Bit j of the signature for a granule. -/
def sigHash (g j : Nat) : Nat :=
  let v := rotl48 (g % 2 ^ 48) (11 * j)
  Nat.xor (Nat.xor (v % 4096) (v / 2 ^ 12 % 4096)) (Nat.xor (v / 2 ^ 24 % 4096) (v / 2 ^ 36 % 4096))
def sigAdd (sig : BitVec 4096) (g : Nat) : BitVec 4096 :=
  (List.range 4).foldl (fun m j => m ||| (1#4096 <<< sigHash g j)) sig
def sigHas (sig : BitVec 4096) (g : Nat) : Bool := (List.range 4).all (fun j => sig.getLsbD (sigHash g j))
/-- A read of granules enters the signature. -/
def State.noteRead (s : State) (id : Nat) (gs : List Nat) : State :=
  s.modTask id (fun t => { t with sig := gs.foldl sigAdd t.sig })
/-- A brick that a gather reads or finds missing enters its store's set, up to 1,024 (R82). -/
def Task.noteBrick (t : Task) (b : Nat × Int × Int × Int) : Task :=
  if t.bricks.contains b || t.brickAll.contains b.1 then t
  else if (t.bricks.filter (·.1 == b.1)).length ≥ 1024 then { t with brickAll := b.1 :: t.brickAll }
  else { t with bricks := t.bricks ++ [b] }
def Task.hasBrick (t : Task) (b : Nat × Int × Int × Int) : Bool :=
  t.bricks.contains b || t.brickAll.contains b.1

/-! ## Start of a task (R84, R100, R166, R268, R309) -/

/-- Seed of an element's random stream (R209). -/
def seedOf (k15 : W128) (e : Nat) : Word :=
  let s := k15.setWidth 64
  if s = 0 then 0x9E3779B97F4A7C15#64 ^^^ BitVec.ofNat 64 e else s
/-- Whether an element lies in an island. -/
def islHas (d : IslandDesc) (e : Nat) : Bool :=
  d.top ≤ e / 32 && e / 32 ≤ d.bottom && d.left ≤ e % 32 && e % 32 ≤ d.right
/-- Index of the island of an element; 64 for none. -/
def islandIx (ds : List IslandDesc) (e : Nat) : Nat :=
  match (ds.zipIdx.filter (fun p => islHas p.1 e)) with
  | [] => 64
  | p :: _ => p.2
def inIsland (ds : List IslandDesc) (e : Nat) : Bool := ds.any (islHas · e)
/-- Constant n of an element (R35). -/
def Plane.const (p : Plane) (e n : Nat) : W128 := mget (mget p.elems e).consts n

/-- The bank blocks of an image: element, address, bytes (R31). -/
def bankBlocks (im : Image) : List (Nat × Nat × List Byte) :=
  im.datas.filterMap (fun d => match d.place with
    | .bank e a => some (e, a, d.bytes)
    | _ => none)
/-- The 16-byte beats of a bank block, by beat number in the element. -/
def blockBeats (a : Nat) (bs : List Byte) : List (Nat × W128) :=
  (List.range ((bs.length + 15) / 16)).map (fun i =>
    (a / 16 + i, BitVec.ofNat 128 (leVal ((bs.drop (16 * i)).take 16))))
/-- Whether a block covers a line of an element. -/
def coversLine (blocks : List (Nat × Nat × List Byte)) (e line : Nat) : Bool :=
  blocks.any (fun b => b.1 == e && b.2.2.length != 0 && b.2.1 / 64 ≤ line && line ≤ (b.2.1 + b.2.2.length - 1) / 64)
/-- Whether a line is a guard line: it follows the last byte of a block and no block covers it (R223). -/
def guardLine (blocks : List (Nat × Nat × List Byte)) (e line : Nat) : Bool :=
  blocks.any (fun b => b.1 == e && (b.2.1 + b.2.2.length + 63) / 64 == line) && !coversLine blocks e line

/-- Granted lines of the elements of islands, with their tag and guards (R196, R223, R224).
DEDUCED, log entry 8. DESIGN CHOICE, log entry 53. -/
def metaSlice (ds : List IslandDesc) (bank : Nat) (tag : BitVec 4) (blocks : List (Nat × Nat × List Byte)) :
    SMap BankMeta :=
  (List.range 512).flatMap (fun e => if inIsland ds e then
    (List.range (bank / 64)).map (fun l => (e * 1024 + l, { owner := tag, guard := guardLine blocks e l }))
    else [])

/-- The thread at task start (R100). `pc` is always a multiple of 4 (R99). -/
def Task.thread (t : Task) : Thread :=
  let regs := (List.range 8).foldl (fun m i => mset m (8 + i) (t.args.getD i 0)) ([] : SMap Word)
  { g := mset regs 2 (BitVec.ofNat 64 (t.stackVa + t.stackLen)), pc := t.entryPc &&& ~~~(3 : Word) }

/-- Put a partition into its state at task start (R84, R166). -/
def State.startPartition (s : State) (id : Nat) : State :=
  let t := s.task id
  let c := t.ctx
  let n := c.toNat
  let p := s.plane c
  let blocks := bankBlocks t.image
  let bank := blocks.foldl (fun m b => (blockBeats b.2.1 b.2.2).foldl
    (fun m q => mset m (b.1 * 4096 + q.1) q.2) m) ([] : SMap W128)
  { s with
    threads := mset s.threads n t.thread
    elems := msplice (n * 512) 512 ((List.range 512).map (fun e => (e, { rand := seedOf (p.const e 15) e }))) s.elems
    bank := msplice (n * 2097152) 2097152 bank s.bank
    bankMeta := msplice (n * 524288) 524288 (metaSlice p.isls t.bank t.tag blocks) s.bankMeta
    planeQ := s.planeQ.filter (·.c != c)
    bankQ := s.bankQ.filter (·.c != c)
    isls := mcut (n * 64) 64 s.isls
    links := mcut (n * 2048) 2048 s.links
    cmdTab := msplice (n * 256) 256 ((p.cmds.zipIdx.map (fun q => (q.2, q.1))).filter (·.2 != default)) s.cmdTab
    runs := mcut (n * 256) 256 s.runs
    acc := mcut (n * 262144) 262144 s.acc
    tileA := mset s.tileA n none
    tileS := mset s.tileS n none
    slots := mcut (n * 16) 16 s.slots
    cams := mcut (n * 8) 8 s.cams
    atq := mset s.atq n []
    codeSeen := mset s.codeSeen n s.mem
    tasks := mset s.tasks id { t with tended := false, marked := false, hold := [], out := [], redo := [], intents := [], sig := 0
                                      bricks := [], brickAll := [], lays := [], cws := []
                                      links := t.links.filter (·.left), guardHit := none } }

/-! ## Visibility and abort (R83, R84) -/

/-- Free bytes of a range (R84). -/
def freeSlice (free n : Nat) : SMap Byte :=
  ((List.range n).map (fun i => (i, (Config.freeWord (free + i)).setWidth 8))).filter (·.2 != 0)
/-- The private stack of an aborted task holds free values, with their checks (R84). -/
def State.wipeStack (s : State) (id : Nat) : State :=
  let t := s.task id
  let s1 : State := { s with mem := msplice t.stackPa t.stackLen (freeSlice s.free t.stackLen) s.mem, free := s.free + t.stackLen }
  let crcs := ((List.range (t.stackLen / 64)).map (fun i => (i, crc16 (s1.granule (t.stackPa / 64 + i))))).filter (·.2 != 0)
  { s1 with checks := msplice (t.stackPa / 64) (t.stackLen / 64) crcs s1.checks }
/-- Bytes of a save area, and where it marks a context that was aborted while spilled (R154, R155). DESIGN CHOICE, log entry
13. -/
@[irreducible] def saveSize : Nat := 0x2B00000
@[irreducible] def abortMark : Nat := 0x49000
/-- Whether a save area lies at an address in device memory; a record that names none has the address 0. -/
def State.areaOk (s : State) (pa : Nat) : Bool :=
  pa != 0 && s.place pa == .device && s.place (pa + saveSize - 1) == .device
/-- Mark the save area of a task. -/
def State.markSave (s : State) (id : Nat) : State :=
  let a := (mget s.saves id).area.toNat
  if s.areaOk a then s.updateFor id (a + abortMark) (leList 8 1 ++ List.replicate 56 0) else s
/-- Abort a task: it restarts, or is marked while spilled (R84). -/
def State.abort (s : State) (id : Nat) : State :=
  let t := s.task id
  if t.phase == .spilled then
    (s.markSave id).modTask id (fun t => { t with
      marked := true, tended := false, hold := [], out := [], redo := [], intents := [], sig := 0, bricks := [], brickAll := []
      lays := [], cws := [], links := t.links.filter (·.left), guardHit := none })
  else if t.phase == .resident then (s.startPartition id).wipeStack id
  else s

/-- The tasks that a visibility event of a task aborts (R83). No member of a head group does (R85). -/
def State.victims (s : State) (id : Nat) (gs : List Nat) (bricks : List (Nat × Int × Int × Int)) : List Nat :=
  let t := s.task id
  (s.tasks.filter (fun p => p.2.inOrder && t.sameInst p.2 && t.ts.toNat < p.2.ts.toNat && !s.inHeadGroup p.1 &&
    (gs.any (sigHas p.2.sig) || bricks.any p.2.hasBrick))).map (·.1)
/-- A visibility event of a task. -/
def State.visible (s : State) (id : Nat) (gs : List Nat) (bricks : List (Nat × Int × Int × Int)) : State :=
  if (s.task id).gang != 0 then (s.victims id gs bricks).foldl State.abort s else s
/-- A remote write aborts every uncommitted task outside its head group whose read set it meets (R83, R370). -/
def State.remoteVisible (s : State) (gs : List Nat) : State :=
  ((s.tasks.filter (fun p => p.2.inOrder && !s.inHeadGroup p.1 && gs.any (sigHas p.2.sig))).map (·.1)).foldl
    State.abort s

/-! ## Hold (R77, R79, R86) -/

/-- Slots of a hold in use: granules with held bytes, and intents, laid-by ones included (R77, R258). -/
def Task.slots (t : Task) : Nat :=
  ((t.hold.map (fun p => p.1 / 64)).eraseDups).length + (t.intents.map (·.slots)).sum +
    (t.lays.map (fun l => match l.intent with | some i => i.slots | none => 0)).sum
def holdSize : Nat := 32768
/-- Merge bytes into a hold. -/
def holdPut : SMap (Option Byte) → Nat → List Byte → SMap (Option Byte)
  | m, _, [] => m
  | m, a, b :: bs => holdPut (mset m a (some b)) (a + 1) bs
/-- A byte as a task reads it: its own held byte, else memory (R78). -/
def State.taskByte (s : State) (t : Task) (pa : Nat) : Byte :=
  match mget t.hold pa with
  | some b => b
  | none => s.byte pa
def State.taskBytes (s : State) (id pa n : Nat) : List Byte := byteList (s.taskByte (s.task id)) pa n

/-- Held bytes as runs within one granule. -/
def holdRuns (m : SMap (Option Byte)) : List (Nat × List Byte) :=
  m.foldr (fun p rs => match p.2, rs with
    | none, rs => rs
    | some b, (a, bs) :: rest => if p.1 + 1 = a && p.1 / 64 = a / 64 then (p.1, b :: bs) :: rest
                                 else (p.1, [b]) :: (a, bs) :: rest
    | some b, [] => [(p.1, [b])]) []

/-- The held bytes of a map over those of another. -/
def holdOver (m : SMap (Option Byte)) (n : SMap (Option Byte)) : SMap (Option Byte) :=
  m.foldl (fun n p => mset n p.1 p.2) n
/-- A map without the bytes of a range. -/
def holdSans (pa n : Nat) (m : SMap (Option Byte)) : SMap (Option Byte) := mcut pa n m
/-- Plain stores of a task reach bytes that tasks behind it in the commit order have let out already: these are written again
when their task becomes head, so that the later commit stands (R90). DESIGN CHOICE, log entry 71. -/
def State.overtake (s : State) (id pa n : Nat) : State :=
  let t := s.task id
  let late := fun (u : Task) => u.out.filter (fun p => decide (pa ≤ p.1) && decide (p.1 < pa + n))
  (s.tasks.filter (fun p => p.2.inOrder && t.sameInst p.2 && precedes t.ts id p.2.ts p.1 && late p.2 != [])).foldl (fun s p =>
    s.modTask p.1 (fun u => { u with out := holdSans pa n u.out, redo := holdOver (late u) u.redo })) s
/-- An atomic at a range, or a write of another package, comes behind every byte let out there: none of them is written
again. -/
def State.strike (s : State) (pa n : Nat) : State :=
  (s.tasks.filter (fun p => holdSans pa n p.2.out != p.2.out || holdSans pa n p.2.redo != p.2.redo)).foldl (fun s p =>
    s.modTask p.1 (fun u => { u with out := holdSans pa n u.out, redo := holdSans pa n u.redo })) s

/-- Held bytes of a task perform in memory, as one visibility event (R79). A partial-granule store whose old check fails
stores nothing and ends the gang with 0x14 (R73). -/
def State.letGo (s : State) (id : Nat) (m : SMap (Option Byte)) (f : Task → Task) : State :=
  let t := s.task id
  let rs := holdRuns m
  let s1 := s.setTask id (f t)
  let (s2, bad) := rs.foldl (fun (p : State × List Nat) r =>
    let (s', ok) := p.1.writeGranule r.1 r.2
    (s', if ok then p.2 else p.2 ++ [r.1 / 64])) (s1, [])
  let s3 := bad.foldl (fun s g => (s.recordAt t.ctx 0x14 (BitVec.ofNat 64 (64 * g)) seqCmd 0 0 false false true
    false).doom t.gang 0x14 false) s2
  (rs.foldl (fun s r => s.overtake id r.1 r.2.length) s3).visible id (rs.map (fun r => r.1 / 64)) []
/-- A task that has become head drains its hold (R79), with the bytes that are to be written again (R90). -/
def State.drain (s : State) (id : Nat) : State :=
  s.letGo id (holdOver (s.task id).hold (s.task id).redo) (fun t => { t with hold := [], out := [], redo := [] })
/-- The held stores of a task perform ahead of what its release orders behind them (R93, R94, R119), before it is head. It
keeps what it let out. DESIGN CHOICE, log entry 71. -/
def State.releaseHold (s : State) (id : Nat) : State :=
  if (s.task id).hold = [] then s
  else s.letGo id (s.task id).hold (fun t => { t with hold := [], out := holdOver t.hold t.out })

/-- Every head drains (R79): run after each step. -/
def State.settle (s : State) : State :=
  (mkeys s.tasks).foldl (fun s id =>
    if s.isHead id && ((s.task id).hold != [] || (s.task id).redo != []) then s.drain id else s) s

/-! ## Reserved bandwidth (R20, R21) -/

/-- 64 KiB units of a range. -/
def unitsOf (va lo hi : Nat) : List Nat :=
  if hi ≤ lo then [] else (List.range ((va + hi - 1) / 65536 - (va + lo) / 65536 + 1)).map (· + (va + lo) / 65536)
/-- Channels, by stack x 32 + channel, that a leaf of a unit reserves on (R10, R232). -/
def channelsOf (frame size : Nat) : List Nat :=
  if size = 65536 then [frame / 2 ^ 20 * 32 + frame % 32] else (List.range 32).map (· + frame / 2 ^ 20 * 32)
/-- The store that a task's declaration names: its virtual base and descriptor. -/
def State.findStore (s : State) (t : Task) (d : StoreDecl) : Option (Nat × Nat) :=
  ((s.stores.find? (fun p => p.1 == t.tenant && (match d.va with
    | some a => p.2.1 == a
    | none => p.2.2.2.name == d.name && p.2.2.2.va.isNone && (s.gang t.gang).maps.contains (p.2.1 / 65536)))).map
      (fun p => (p.2.1, p.2.2.1)))
/-- Reservations of a task: channel, by stack x 32 + channel, and GB/s (R21, R311). -/
def State.reserves (s : State) (t : Task) : List (Nat × Nat) :=
  t.streams.flatMap (fun st => if !st.device || st.bw = 0 then [] else
    ((unitsOf st.va st.lo st.hi).flatMap (fun u => match s.walk t.tenant.toNat (u * 65536) with
      | .leaf p lv _ => channelsOf (pteFrame p) (leafSize lv p)
      | _ => [])).eraseDups.map (fun c => (c, st.bw))) ++
  t.image.stores.flatMap (fun d => match s.findStore t d with
    | some (_, pa) => (List.range 32).map (fun c => (pa / 2 ^ 36 * 32 + c, d.bw))
    | none => [])
/-- Channel of a device-memory address, by stack x 32 + channel (R10). -/
def chanOf (pa : Nat) : Nat := pa / 2 ^ 36 * 32 + pa / 65536 % 32
/-- Real cycles of one microsecond (R3). R21 says "any 1 µs interval": the model counts aligned ones. DESIGN CHOICE, log
entry 86. -/
def perUs : Nat := 4000
/-- Bytes that a task's reservation lets it move through a channel in a microsecond. -/
def State.share (s : State) (t : Task) (ch : Nat) : Nat :=
  1000 * ((((s.reserves t).filter (·.1 == ch)).map (·.2)).sum)
/-- Count bytes moved at a real cycle under an allowance. -/
def Traffic.add (x : Traffic) (now n allow : Nat) : Traffic :=
  let had := if x.span = now / perUs then x.bytes else 0
  { span := now / perUs, bytes := had + n, outside := if allow < had + n then (now / perUs + 1) * perUs else x.outside }
/-- A task moves bytes at a physical address. -/
def State.move (s : State) (id pa n : Nat) : State :=
  if s.place pa == .device then
    s.modTask id (fun t => { t with traffic := mmod t.traffic (chanOf pa) (·.add s.cycle n (s.share t (chanOf pa))) })
  else s
/-- Whether a task may move bytes ahead of their bound without leaving its reservation, or is outside it already. -/
def State.spare (s : State) (id pa n : Nat) : Bool :=
  let x := mget (s.task id).traffic (chanOf pa)
  s.place pa != .device || decide (s.cycle < x.outside) ||
    decide ((if x.span = s.cycle / perUs then x.bytes else 0) + n ≤ s.share (s.task id) (chanOf pa))
/-- The real cycle by which an access of a task is due: none while the task is outside its reservation on the channel, and no
earlier than the bound after the interval in which it was (R20, R21). -/
def State.within (s : State) (id pa bound due : Nat) : Option Nat :=
  if s.place pa != .device then some due
  else
    let due0 := (mget (s.task id).traffic (chanOf pa)).outside
    if s.cycle < due0 then none else some (max due (due0 + bound))

/-! ## Lay-by log (R98, R258, R259) -/

/-- Whether a task has a laid-by store to a granule. -/
def Task.laidGranule (t : Task) (va : Nat) : Bool :=
  t.lays.any (fun l => l.intent == none && l.va == va / 64 * 64)
/-- Whether a load meets a laid-by byte (R98). DEDUCED, log entry 30. -/
def Task.laidByte (t : Task) (va n : Nat) : Bool :=
  t.lays.any (fun l => l.intent == none && (List.range n).any (fun i =>
    l.va == (va + i) / 64 * 64 && (mget l.bytes ((va + i) % 64)).isSome))
def layBytes : SMap (Option Byte) → Nat → List Byte → SMap (Option Byte)
  | m, _, [] => m
  | m, o, b :: bs => layBytes (mset m o (some b)) (o + 1) bs
/-- Entries of the log of a partition (R258). -/
def State.laysOf (s : State) (c : Ctx) : List Lay := (s.tasks.filter (·.2.ctx == c)).flatMap (·.2.lays)
def laySize : Nat := 2048
/-- Address of an entry in the basin of a context's die (R12, R258). -/
def layAddr (c : Ctx) (slot : Nat) : Nat :=
  0x20000000000 + 0x8000000 * dieOf c + Config.layStart + 0x80000 * (regionOf c % 8) + 0x40000 * (c.toNat % 2) + 128 * slot
/-- Bytes that the destination of an intent has. -/
def IntentKind.size : IntentKind → Nat
  | .red _ acc _ _ ty => (match ty with | .bf16 => 2 | _ => 4) * acc.length
  | .scat _ _ _ _ feats _ _ _ _ => 8 + 2 * feats.length
  | .inc _ _ => 8
/-- Mask of the bytes of its granule that an entry writes: those of its first granule for an intent. -/
def Lay.mask (l : Lay) : Nat :=
  match l.intent with
  | some i => (List.range (min i.kind.size (64 - l.va % 64))).foldl (fun v n => v + 2 ^ (l.va % 64 + n)) 0
  | none => l.bytes.foldl (fun v p => if p.2.isSome then v + 2 ^ p.1 else v) 0
/-- The 128 bytes of an entry (R258). DEDUCED, log entry 82. -/
def Lay.words (l : Lay) (id : Nat) : List Byte :=
  [l.va / 64 * 64 % 2 ^ 48 + 2 ^ 48 * l.gen.toNat, l.mask,
   id % 2 ^ 32 + 2 ^ 32 * (l.cmd % 512) + 2 ^ 41 * l.intent.isSome.toNat, l.pos,
   (match l.intent with | some i => i.first % 32768 + 2 ^ 15 * i.slots | none => 0), 0, 0, 0].flatMap (leList 8) ++
  (List.range 64).map (fun o => (mget l.bytes o).getD 0)
/-- Write an entry into its place in the basin. -/
def State.mirrorLay (s : State) (id : Nat) (l : Lay) : State := s.update (layAddr (s.task id).ctx l.slot) (l.words id)
/-- Put an entry behind those of its task, in the lowest free place of the partition's log; `none` when all 2,048 are in
use. -/
def State.addLay (s : State) (id : Nat) (l : Lay) : Option State :=
  let used := (s.laysOf (s.task id).ctx).map (·.slot)
  if used.length ≥ laySize then none
  else
    let e := { l with gen := s.fb.gen, slot := ((List.range laySize).find? (fun n => !used.contains n)).getD 0
                      seq := s.nextLay }
    let s1 := s.setTask id { s.task id with lays := (s.task id).lays ++ [e] }
    some (State.mirrorLay { s1 with nextLay := s1.nextLay + 1 } id e)
/-- Lay a store of one granule by; beats of a command merge into the task's newest entry where that is the partition's
newest, of the same command and granule. `none` when all 2,048 entries are in use (R259). -/
def State.layGranule (s : State) (id va : Nat) (bs : List Byte) (cmd pos : Nat) (ext : Bool) : Option State :=
  let t := s.task id
  let g := va / 64 * 64
  let fresh : Lay := { va := g, gen := s.fb.gen, bytes := layBytes [] (va % 64) bs, cmd := cmd, pos := pos, ext := ext }
  match t.lays.getLast? with
  | some l =>
    if cmd != seqCmd && l.intent == none && l.va == g && l.cmd == cmd && l.ext == ext && l.gen == s.fb.gen &&
        (s.laysOf t.ctx).all (fun m => decide (m.seq ≤ l.seq)) then
      let e := { l with bytes := layBytes l.bytes (va % 64) bs }
      some ((s.setTask id { t with lays := t.lays.dropLast ++ [e] }).mirrorLay id e)
    else s.addLay id fresh
  | none => s.addLay id fresh

/-- What became of a store. -/
inductive StRes where
  /-- It entered memory or the hold. -/
  | ok
  /-- It entered the lay-by log. -/
  | laid
  /-- No free slot in the hold: the unit stalls (R86). -/
  | full
  /-- A page fault and a full lay-by log: the store is held (R259). -/
  | heldLog
  /-- The old check of a partly written granule failed (R73). -/
  | integrity (g : Nat)
  | prot
  | owner
  deriving DecidableEq, Repr, Inhabited

/-- Lay a store by, with a 0x09 record where the access faulted itself (R98, R259). One that is laid behind another entry and
finds the log full is treated as a faulting one. DESIGN CHOICE, log entry 87. -/
def State.layStore (s : State) (id va : Nat) (bs : List Byte) (cmd pos : Nat) (ext faulted : Bool) : State × StRes :=
  let t := s.task id
  match s.layGranule id va bs cmd pos ext with
  | none => (s.record { code := 0x09, held := true, gen := 0, task := BitVec.ofNat 32 id, addr := BitVec.ofNat 64 va
                        tenant := t.tenant, ctx := t.ctx, cmd := BitVec.ofNat 9 cmd, pos := BitVec.ofNat 64 pos }, .heldLog)
  | some s1 =>
    (if faulted then s1.record { code := 0x09, laid := true, gen := 0, task := BitVec.ofNat 32 id
                                 addr := BitVec.ofNat 64 va, tenant := t.tenant, ctx := t.ctx
                                 cmd := BitVec.ofNat 9 cmd, pos := BitVec.ofNat 64 pos } else s1, .laid)

/-- A store of a task, within one granule, at a translated address (R77, R79, R86, R89, R98): behind a
laid-by entry of its granule, through to memory for a head or an external effect, else into the hold. -/
def State.storePa (s : State) (id va pa : Nat) (bs : List Byte) (cmd pos : Nat) (ext : Bool) : State × StRes :=
  let t := s.task id
  if t.laidGranule va then s.layStore id va bs cmd pos ext false
  else if ext || s.isHead id then
    let (s1, ok) := s.writeGranule pa bs
    if ok then (((s1.move id pa bs.length).overtake id pa bs.length).visible id [pa / 64] [], .ok)
    else (s, .integrity (pa / 64))
  else if (t.hold.any (fun p => p.1 / 64 == pa / 64)) || t.slots < holdSize then
    ((s.setTask id { t with hold := holdPut t.hold pa bs, out := holdSans pa bs.length t.out
                            redo := holdSans pa bs.length t.redo }).move id pa bs.length, .ok)
  else (s, .full)

/-- A store of a task after its translation. -/
def State.storeAcc (s : State) (id va : Nat) (a : Acc) (bs : List Byte) (cmd pos : Nat) (ext : Bool) :
    State × StRes :=
  match a with
  | .ok pa _ _ _ => s.storePa id va pa bs cmd pos ext
  | .pageFault => s.layStore id va bs cmd pos ext true
  | .prot => (s, .prot)
  | .owner => (s, .owner)

/-- Code of a page size, kept in the reserved bits 62:60 of an extent's leaf. -/
def sizeCode (size : Nat) : Nat :=
  if size = 2 ^ 16 then 0 else if size = 2 ^ 21 then 1 else if size = 2 ^ 25 then 2 else 3
/-- The leaf of one 64 KiB unit of a page, as an extent holds it (R256). -/
def extLeaf (pte size unit : Nat) : Word :=
  let frame := pteFrame pte + unit % (size / 65536)
  BitVec.ofNat 64 (pte % 65536 + frame * 65536 + pteOwner pte * 2 ^ 52 + sizeCode size * 2 ^ 60 +
    (if pteBit pte 63 then 2 ^ 63 else 0))
/-- Whether a unit lies in the ranges of a task's streams, and of those it writes. -/
def Task.lists (t : Task) (u : Nat) : Bool := t.streams.any (fun st =>
  st.lo < st.hi && (st.va + st.lo) / 65536 ≤ u && u ≤ (st.va + st.hi - 1) / 65536)
def Task.listsWrite (t : Task) (u : Nat) : Bool := t.streams.any (fun st =>
  st.writes && st.lo < st.hi && (st.va + st.lo) / 65536 ≤ u && u ≤ (st.va + st.hi - 1) / 65536)
/-- Translate a unit of a task anew from the PTE as it stands: Accessed is set, and Dirty for a write; an entry of its
extent lists is repatched, 0 for a faulting one (R254, R256). -/
def State.patchUnit (s : State) (id u : Nat) (store : Bool) : State :=
  let t := s.task id
  match s.walk t.tenant.toNat (u * 65536) with
  | .leaf p lv a =>
    let p2 := markPte (store && pteBit p 2) p
    let s1 := s.markWord id a p p2
    if t.lists u then s1.modTask id (fun t => { t with extents := mset t.extents u (extLeaf p2 (leafSize lv p) u) }) else s1
  | _ => s.modTask id (fun t => { t with extents := mset t.extents u 0 })
/-- An access finds its entry faulting, or none: the unit is translated anew (R266). -/
def State.freshen (s : State) (id : Nat) (store : Bool) (va : Nat) : State :=
  if va ≥ 2 ^ 48 || pteBit (mget (s.task id).extents (va / 65536)).toNat 0 then s
  else s.patchUnit id (va / 65536) store
/-- The same for the units of a range. -/
def State.freshenAll (s : State) (id : Nat) (store : Bool) (va n : Nat) : State :=
  (List.range (if n = 0 then 0 else (va + n - 1) / 65536 - va / 65536 + 1)).foldl (fun s i =>
    s.freshen id store ((va / 65536 + i) * 65536)) s
/-- An access through the extents patched at load (R256): the leaf of the 64 KiB unit, 0 for a faulting one,
which is translated anew from the PTE as it stands. `sup` passes over Tenant-visible (R311). -/
def State.extAccM (s : State) (t : Task) (sup : Bool) (k : AccK) (va : Nat) : Acc :=
  if va ≥ 2 ^ 48 then .prot
  else
    let p := (mget t.extents (va / 65536)).toNat
    if pteBit p 0 then s.checkLeaf t.owner sup k p (sizeOfCode (p / 2 ^ 60 % 8)) va
    else
      match s.walk t.tenant.toNat va with
      | .fault => .pageFault
      | .prot => .prot
      | .leaf p lv _ => s.checkLeaf t.owner sup k p (leafSize lv p) va
def State.extAcc (s : State) (t : Task) (k : AccK) (va : Nat) : Acc := s.extAccM t false k va

/-! ## Notify records and interrupts (R161, R162) -/

/-- Send the interrupt that closes a queue's window. -/
def State.closeWindow (s : State) (q : Nat) : State :=
  let x := s.queue q
  match x.window with
  | none => s
  | some (_, n) =>
    let s1 := s.setQueue q { x with window := none }
    if x.endpoint = 0 then s1 else { s1 with out := s1.out ++ [.irq x.endpoint n x.count] }

/-- Write one notify record to a queue: type, discarded messages, launch tag, code, value. -/
def State.notify (s : State) (q : Nat) (type : Nat) (discarded : Nat) (tag : W32) (code : BitVec 8)
    (value : Word) : State :=
  let x := s.queue q
  let n := x.count + 1
  let w0 := BitVec.ofNat 64 (type + 256 * q + 65536 * (discarded % 65536) + 2 ^ 32 * tag.toNat)
  let words := [w0, code.setWidth 64, value, BitVec.ofNat 64 n]
  let s1 := if x.notify = 0 then s
    else { s with out := s.out ++ [.notify (x.notify + BitVec.ofNat 64 (32 * (x.count % 256))) words] }
  let (opened, k) := match x.window with
    | some (a, m) => (a, m + 1)
    | none => (s.cycle, 1)
  let s2 := s1.setQueue q { x with count := n, window := some (opened, k) }
  if x.coalesce = 0 || (3 ≤ type && type ≤ 5) then s2.closeWindow q else s2

/-! ## Stores as laid out by the loader (R312, R314, R315) -/

def up64k (n : Nat) : Nat := (n + 65535) / 65536 * 65536
/-- Byte offsets of the table, the free stack and the pool behind a store's descriptor, and the end. -/
def storeLayout (x : StoreDecl) : Nat × Nat × Nat × Nat :=
  let free := (512 + 16 * x.table + 63) / 64 * 64
  let pool := up64k (free + 4 * x.pool)
  (512, free, pool, up64k (pool + x.pool * 512 * (8 + 2 * (32 * 2 ^ x.fcode))))
def storeSpan (x : StoreDecl) : Nat := (storeLayout x).2.2.2

/-! ## End of a gang (R157) -/

/-- Whether a task keeps an entry after its commit or end: operations it sent are in flight, or writes of
external effects wait for replay. -/
def State.lingers (s : State) (id : Nat) (t : Task) : Bool :=
  t.links.any (·.left) || t.lays.any (·.ext) || !t.cws.isEmpty || s.atRun.any (·.task == id)

/-- Empty a partition: its task has committed or ended, or was spilled. -/
def State.clearPartition (s : State) (c : Ctx) : State :=
  let n := c.toNat
  { s with
    threads := mset s.threads n default
    elems := mcut (n * 512) 512 s.elems
    bank := mcut (n * 2097152) 2097152 s.bank
    bankMeta := mcut (n * 524288) 524288 s.bankMeta
    planeQ := s.planeQ.filter (·.c != c)
    bankQ := s.bankQ.filter (·.c != c)
    isls := mcut (n * 64) 64 s.isls
    links := mcut (n * 2048) 2048 s.links
    cmdTab := mcut (n * 256) 256 s.cmdTab
    runs := mcut (n * 256) 256 s.runs
    acc := mcut (n * 262144) 262144 s.acc
    tileA := mset s.tileA n none
    tileS := mset s.tileS n none
    slots := mcut (n * 16) 16 s.slots
    cams := mcut (n * 8) 8 s.cams
    sst := mcut (n * 4) 4 s.sst
    atq := mset s.atq n []
    codeSeen := mset s.codeSeen n [] }

/-- Address of the slot of a mailbox that is read n messages from now (R165). -/
def Task.mailSlot (t : Task) (n : Nat) : Nat := t.mailPa + 256 + 256 * ((t.mailRd + n) % 31)
/-- Write the header of a task's mailbox. -/
def State.mailHead (s : State) (id : Nat) : State :=
  let t := s.task id
  let lens := (List.range 31).map (fun k => t.mail.getD ((k + 31 - t.mailRd) % 31) 0)
  s.update t.mailPa (fitBytes 256 (Config.mailHeader t.mailRd ((t.mailRd + t.mail.length) % 31) lens))

/-- Put a task out of its partition and its commit order; operations in flight keep an entry. -/
def State.removeTask (s : State) (id : Nat) : State :=
  let t := s.task id
  let s1 := if t.phase == .placed || t.phase == .resident || t.phase == .spilled then
      let s1 := if t.phase == .spilled then { s with saves := s.saves.filter (·.1 != id) }
        else s.clearPartition t.ctx
      { s1 with owner := if s1.taskAt t.ctx = id then mset s1.owner t.ctx.toNat none else s1.owner
                berths := mmod s1.berths t.ctx.toNat (fun b => if b.task.toNat = id then
                  { b with valid := false, seqNo := b.seqNo + 2, acted := b.seqNo + 2 } else b) }
    else if s.bookedAt t.ctx = id then { s with booked := mset s.booked t.ctx.toNat none, standby := mset s.standby t.ctx.toNat none }
    else s
  let t2 : Task := { t with phase := .done, hold := [], out := [], redo := [], intents := [], sig := 0, bricks := [], brickAll := []
                            lays := t.lays.filter (·.ext), links := t.links.filter (·.left), mail := [], mailPa := 0
                            guardHit := none }
  if s.lingers id t then s1.setTask id t2 else { s1 with tasks := mset s1.tasks id default }

/-- Virtual addresses from here on are the loader window (R391). -/
def loaderWindow : Nat := 0xF00000000000
/-- Change every entry of a map of lists. -/
def mapLists {α : Type} [DecidableEq α] (f : List α → List α) (m : SMap (List α)) : SMap (List α) :=
  (mkeys m).foldl (fun m k => mmod m k f) m
/-- Unmap the 64 KiB page of a unit, and drop its translations. -/
def State.unmapUnit (s : State) (tenant : BitVec 16) (unit : Nat) : State :=
  match s.walk tenant.toNat (unit * 65536) with
  | .leaf _ 3 a =>
    let s1 := s.updateWord a 0
    let f := tlbDrop tenant (some (unit * 65536))
    { s1 with tlb1 := mapLists f s1.tlb1, tlb2 := mapLists f s1.tlb2, pins := mapLists f s1.pins }
  | _ => s
/-- Unmap a gang's mappings in the loader window and forget its stores there (R311, R391); `all` false keeps
the stores, for the next iteration of a batch. -/
def State.dropMaps (s : State) (g : Nat) (all : Bool) : State :=
  let x := s.gang g
  let mine := s.stores.filter (fun p => p.1 == x.tenant && x.maps.contains (p.2.1 / 65536))
  let keep := fun (u : Nat) => !all && mine.any (fun p => p.2.1 / 65536 ≤ u && u * 65536 < p.2.1 + storeSpan p.2.2.2)
  let frameOf := fun (u : Nat) => match s.walk x.tenant.toNat (u * 65536) with
    | .leaf p _ _ => some (pteFrame p)
    | _ => none
  let kept := x.maps.filter keep
  let s1 := (x.maps.filter (fun u => !keep u)).foldl (fun s u => s.unmapUnit x.tenant u) s
  let s2 := if all then { s1 with stores := s1.stores.filter (fun p => !mine.contains p) } else s1
  s2.setGang g { x with maps := kept, frames := kept.filterMap frameOf }
/-- A barrier identifier after its gang: arrivals of other packages stay for its next user (R379; log entry 83). -/
def Bar.released (b : Bar) : Bar := { pods := b.pods }
/-- Release a gang: barrier identifiers, mappings in the loader window, frames (R157, R391). -/
def State.releaseGang (s : State) (g : Nat) : State :=
  let s1 := s.dropMaps g true
  { s1 with bars := (s1.bars.filter (fun p => p.2.gang == some g)).foldl (fun m p => mset m p.1 p.2.released) s1.bars
            gangs := mset s1.gangs g default }

/-- Number of members that the header of a group descriptor gives (R375). -/
def groupSize (head : List Byte) : Nat := leVal (head.take 2) % 2048
/-- A group descriptor from its header and entries (R375): tag and member packages by rank; `none` when a
reserved field is not zero, or the member count is outside 1 to 1,024. -/
def readGroup (head entries : List Byte) : Option (W32 × List (BitVec 10)) :=
  let w0 := leVal (head.take 8)
  let m := groupSize head
  let es := (List.range m).map (fun r => leVal ((entries.drop (2 * r)).take 2))
  if w0 / 2048 % 2 ^ 21 != 0 || m = 0 || m > 1024 || es.any (· ≥ 1024) || leVal (head.drop 8) != 0 then none
  else some (BitVec.ofNat 32 (w0 / 2 ^ 32), es.map (BitVec.ofNat 10))
/-- The group descriptor at a physical address. -/
def State.group (s : State) (pa : Nat) : Option (W32 × List (BitVec 10)) :=
  let head := s.bytes pa 64
  readGroup head (s.bytes (pa + 64) (2 * groupSize head))

/-- Triris ports of the package: those of FD0 alone in a safe start (R7, R386). -/
def State.ports (s : State) : Nat := if s.start.kind == .safe then 9 else 18
/-- Whether a package can be reached: the route table has a path to it and some path works (R340, R363). -/
def State.reaches (s : State) (p : BitVec 10) : Bool :=
  p == s.pkgId || (!s.unreach.contains p &&
    decide ((s.badPorts.filter (fun q => decide (q.toNat < s.ports))).length < s.ports))

/-- The event that a message to a package is at that package. -/
def arrival : OutMsg → Option (BitVec 10 × Instr)
  | .put p x va bs => some (p, .remoteWrite x va bs)
  | .get p x va n => some (p, .remoteRead x va n)
  | .amo p x va o d v w => some (p, .remoteAtomic x va o d v w)
  | .mail p x t bs => some (p, .mailboxDelivery x t bs)
  | .page p x b n => some (p, .remotePageRequest x { block := BitVec.ofNat 52 b, len := n })
  | .pageWrite p x pa bs => some (p, .remotePageRequest x { block := 0, put := some (pa, bs) })
  | .coll p m => some (p, .collectivePacket m)
  | .answer p o r => some (p, .linkReply o r)
  | _ => none
/-- Send a message; one that names this package loops back (R362). DESIGN CHOICE, log entry 15. -/
def State.emit (s : State) (m : OutMsg) : State :=
  match arrival m with
  | some (p, i) => if p == s.pkgId then { s with linkIn := s.linkIn ++ [i] } else { s with out := s.out ++ [m] }
  | none => { s with out := s.out ++ [m] }

/-- Send a collective packet to every other member of a group (R364, R376, R379). -/
def State.toMembers (s : State) (members : List (BitVec 10)) (m : CollMsg) : State :=
  (members.filter (· != s.pkgId)).foldl (fun s p => s.emit (.coll p m)) s

/-! ## Records -/

/-- The command that a record's words encode. -/
def readRec (r : CmdRec) : Option Instr :=
  match decodeCmd (r.words.map BitVec.toNat) with
  | .ok i => some i
  | .error _ => none
/-- The stream that an address word names, with the byte offset in its data block. -/
def refOf (strs : List Strm) (r : CmdRec) (word : Nat) : Option (Strm × Nat) :=
  match r.refs.find? (·.word == word) with
  | some f => some (strs.getD f.stream {}, f.off)
  | none => none
/-- The virtual address of an address word: its stream's block and offset; a word that names no stream stands for
itself. -/
def vaIn (strs : List Strm) (r : CmdRec) (word : Nat) (raw : BitVec 52) : Nat :=
  match refOf strs r word with
  | some (st, off) => st.va + off
  | none => raw.toNat
/-- The record of a collective. -/
def collRec : Instr → Option LCollRec
  | .lCollReduce r | .lCollAllgather r | .lCollBroadcast r => some r
  | _ => none

/-! ## Members that wait for a gang that ends (R376, R379) -/

/-- Records of a task that have not been started since their island was. -/
def State.unstarted (s : State) (id : Nat) : List CmdRec :=
  let t := s.task id
  match t.phase with
  | .resident => (s.cmdTab.filter (fun p => p.1 / 256 == t.ctx.toNat && (mget s.runs p.1).st == .notStarted)).map (·.2)
  | .spilled =>
    let x := mget s.saves id
    (x.cmdTab.filter (fun p => (mget x.runs p.1).st == .notStarted)).map (·.2)
  | .placed => (s.plane t.ctx).cmds
  | _ => []
/-- Virtual addresses of the group descriptors of the collectives of a task that have not left: those queued, then those not
started. DEDUCED, log entry 61. -/
def State.groupsLeft (s : State) (id : Nat) : List Nat :=
  let t := s.task id
  (t.links.filter (fun o => o.kind == .coll && !o.left)).map (·.remote.toNat) ++
  (s.unstarted id).filterMap (fun r => ((readRec r).bind collRec).map (fun x => vaIn t.streams r 4 x.grp))
/-- The members of a collective that will not leave are told. -/
def State.tellColl (s : State) (id va : Nat) : State :=
  match s.extAcc (s.task id) .load va with
  | .ok pa _ _ _ => (match s.group pa with
    | some (tag, ms) =>
      let k := mget s.collCount tag.toNat
      State.toMembers { s with collCount := mset s.collCount tag.toNat (k + 1) } ms (.ended tag k s.pkgId)
    | none => s)
  | _ => s
/-- The members of a pod barrier of a gang that ends with a party still to arrive are told; their arrivals go with the
episode. DEDUCED, log entry 83. -/
def State.tellBar (s : State) (key : Nat) : State :=
  let s1 : State := { s with bars := mmod s.bars key (fun b => { b with pods := [] }) }
  match s.group (mget s.regs.podBar (key % 16)).toNat with
  | some (_, ms) => s1.toMembers ms (.barEnded (BitVec.ofNat 4 key) s.pkgId)
  | none => s1
/-- Pod barriers and collectives of a gang that ends: the other members are told (R376, R379), but for a barrier of which the
end of a member has told them already. -/
def State.tellMembers (s : State) (g : Nat) : State :=
  let s1 := (s.bars.filter (fun p => p.2.gang == some g && p.1 / 512 == 5 && !p.2.sent && p.2.lost.isEmpty)).foldl (fun s p => s.tellBar p.1) s
  (s1.tasks.filter (fun p => p.2.gang == g)).foldl (fun s p => (s.groupsLeft p.1).foldl (fun s va => s.tellColl p.1 va) s) s1

/-- A gang end (R157): every task stops, pending effects are discarded, resources are released, one notify
record of type 3, or 4 for a context end. -/
def State.endGang (s : State) (g : Nat) (code : BitVec 8) (ctx : Bool) : State :=
  let x := s.gang g
  if x.size = 0 then s
  else
    let ids := (s.tasks.filter (fun p => p.2.gang == g)).map (·.1)
    let lost := (ids.map (fun id => (s.task id).mail.length)).sum
    let s0 := s.tellMembers g
    -- a parked command of the gang is discarded and its sequence freed (R355)
    let parked := s0.atRun.filter (fun a => ids.contains a.task && a.wait == .parked)
    let s1 := parked.foldl (fun s a =>
      let w0 := s.word a.desc
      let s' := s.updateWord a.desc (if pteBit w0 3 then w0 - 8 else w0)
      s'.updateWord (a.desc + 24) 0) s0
    let s2 := { s1 with atRun := s1.atRun.filter (fun a => !ids.contains a.task) }
    -- the entries of its tasks in the lay-by log are discarded, external effects' too (R157, R260)
    let s3 := ids.foldl (fun s id => (s.modTask id (fun t => { t with lays := [], cws := [] })).removeTask id) s2
    let s4 := s3.releaseGang g
    let v := match x.batch with
      | some b => BitVec.ofNat 64 b.iter
      | none => 0
    { (s4.notify x.queue.toNat (if ctx then 4 else 3) (x.discarded + lost) x.tag code v) with
      dying := s4.dying.filter (fun p => p.1 != g) }

/-- A context end: every gang of a tenant context (R157, R381). -/
def State.endContext (s : State) (tenant : BitVec 16) (code : BitVec 8) : State :=
  ((s.gangs.filter (fun p => p.2.tenant == tenant && p.2.size != 0)).map (·.1)).foldl
    (fun s g => s.endGang g code true) s

/-- Place of a record among the faults of one real cycle: commands before elements, then by index (R221). -/
def FaultRec.rank (r : FaultRec) : Nat := if r.byElem then 1024 + r.elem.toNat else r.cmd.toNat
/-- Put a record behind those that do not come after it. -/
def FaultRec.into (r : FaultRec) : List FaultRec → List FaultRec
  | [] => [r]
  | x :: xs => if r.rank < x.rank then r :: x :: xs else x :: r.into xs
/-- The records of gangs that end in this real cycle, in the order of R221. -/
def State.orderFaults (s : State) : State :=
  let mine := fun (r : FaultRec) => r.ended && r.cmd != 0x1FF && s.doomed (s.task r.task.toNat).gang
  { s with faultQ := s.faultQ.filter (fun r => !mine r) ++
      (s.faultQ.filter mine).foldl (fun l r => r.into l) [] }
/-- End the gangs that faults of this real cycle end (R221). -/
def State.reap (s0 : State) : State :=
  let s := s0.orderFaults
  { (s.dying.foldl (fun s p => s.endGang p.1 p.2.1 p.2.2) s) with dying := [] }

end Sys2Proof.Machine
end

