-- ==== Sys2Proof/Machine/Num.lean ====
section
/-!
DEFINITION. Number formats, rounding and exact arithmetic (03_number_formats.md). A value is computed exactly,
or to far more bits than any format holds with a mark that a nonzero remainder was cut, and rounded once.
-/

namespace Sys2Proof.Machine

/-- A real value or a special one: NaN, an infinity, or (m + r) x 2^e with its sign, where r is 0, or lies
strictly between 0 and 1 when `rest` is set. -/
inductive Val where
  | nan
  | inf (neg : Bool)
  | fin (neg : Bool) (m : Nat) (e : Int) (rest : Bool)
  deriving DecidableEq, Repr, Inhabited

/-- Fraction bits, exponent bits and bias of a float type (R50). -/
def mantBits : Ty → Nat
  | .f32 => 23 | .f16 => 10 | .bf16 => 7 | .e4m3 => 3 | .e5m2 => 2 | .e2m1 => 1 | _ => 0
def expBits : Ty → Nat
  | .f32 | .bf16 => 8 | .f16 | .e5m2 => 5 | .e4m3 => 4 | .e2m1 => 2 | _ => 0
def expBias : Ty → Nat
  | .f32 | .bf16 => 127 | .f16 | .e5m2 => 15 | .e4m3 => 7 | .e2m1 => 1 | _ => 0
/-- Types with infinities. -/
def hasInf : Ty → Bool
  | .f32 | .bf16 | .f16 | .e5m2 => true
  | _ => false
/-- Float types. -/
def isFloat : Ty → Bool
  | .f32 | .bf16 | .f16 | .e4m3 | .e5m2 | .e2m1 => true
  | _ => false
/-- Signed integer types (R49). -/
def isSigned : Ty → Bool
  | .i32 | .i16 | .i8 | .i64 => true
  | _ => false
/-- Canonical NaN (R52). -/
def nanCode : Ty → Nat
  | .f32 => 0x7FC00000 | .f16 => 0x7E00 | .bf16 => 0x7FC0 | .e4m3 => 0x7F | .e5m2 => 0x7E | _ => 0
/-- Code of the largest finite value, without its sign (R50). -/
def maxCode : Ty → Nat
  | .f32 => 0x7F7FFFFF | .f16 => 0x7BFF | .bf16 => 0x7F7F | .e4m3 => 0x7E | .e5m2 => 0x7B | .e2m1 => 7 | _ => 0
/-- The largest finite value as k x 2^q. -/
def maxFin : Ty → Nat × Int
  | .f32 => (16777215, 104) | .f16 => (2047, 5) | .bf16 => (255, 120) | .e4m3 => (14, 5) | .e5m2 => (7, 13)
  | .e2m1 => (3, 1) | _ => (0, 0)
/-- A code with its sign bit. -/
def withSign (t : Ty) (neg : Bool) (code : Nat) : Nat := if neg then code + 2 ^ (t.width - 1) else code
/-- Code of an infinity. -/
def infCode (t : Ty) (neg : Bool) : Nat := withSign t neg ((2 ^ expBits t - 1) * 2 ^ mantBits t)

/-- The value of a float code (R50). -/
def decodeFloat (t : Ty) (code : Nat) : Val :=
  let mb := mantBits t
  let neg := code / 2 ^ (t.width - 1) % 2 == 1
  let m := code % 2 ^ mb
  let e := code / 2 ^ mb % 2 ^ expBits t
  if e = 2 ^ expBits t - 1 && hasInf t then (if m = 0 then .inf neg else .nan)
  else if t == .e4m3 && e = 15 && m = 7 then .nan
  else if e = 0 then .fin neg m (1 - (expBias t : Int) - mb) false
  else .fin neg (m + 2 ^ mb) ((e : Int) - expBias t - mb) false

/-- The value of an integer code (R49). -/
def decodeInt (t : Ty) (code : Nat) : Int :=
  let w := t.width
  let c := code % 2 ^ w
  if isSigned t && c ≥ 2 ^ (w - 1) then (c : Int) - 2 ^ w else c
/-- Least and greatest values of an integer type. -/
def minInt (t : Ty) : Int := if isSigned t then -(2 ^ (t.width - 1) : Int) else 0
def maxInt (t : Ty) : Int := if isSigned t then 2 ^ (t.width - 1) - 1 else 2 ^ t.width - 1
def clampInt (lo hi x : Int) : Int := if x < lo then lo else if hi < x then hi else x
/-- Code of an integer, wrapped to a width. -/
def encodeInt (w : Nat) (x : Int) : Nat := (x % (2 ^ w : Int)).toNat

/-- The integer a mode rounds (m + r) x 2^-sh to, in magnitude (R53, R54). `rnd` is the 16-bit draw. -/
def roundMag (mode : Rnd) (neg : Bool) (m sh : Nat) (rest : Bool) (rnd : Nat) : Nat :=
  let k := m / 2 ^ sh
  let r := m % 2 ^ sh
  let exact := r = 0 && !rest
  if exact then k
  else match mode with
    | .rz => k
    | .ru => if neg then k else k + 1
    | .rn => if 2 ^ sh < 2 * r || (2 * r = 2 ^ sh && (rest || k % 2 = 1)) then k + 1 else k
    | .rs => if r * 65536 / 2 ^ sh + rnd ≥ 65536 then k + 1 else k

/-- Exponent of the last place of a value in a float type, subnormals included (R51, R53). -/
def quantum (t : Ty) (m : Nat) (e : Int) : Int :=
  let top := (Nat.log2 m : Int) + e
  let emin := 1 - (expBias t : Int)
  (if top < emin then emin else top) - mantBits t

/-- Code of k x 2^q, with q a quantum of the type and k at most 2^(mb+1). -/
def encodeFin (t : Ty) (neg : Bool) (k : Nat) (q : Int) : Nat :=
  let mb := mantBits t
  let (k, q) := if k = 2 ^ (mb + 1) then (2 ^ mb, q + 1) else (k, q)
  if k < 2 ^ mb then withSign t neg k
  else withSign t neg ((q + mb + expBias t).toNat * 2 ^ mb + (k - 2 ^ mb))

/-- Whether k x 2^q lies beyond the largest finite value. -/
def beyond (t : Ty) (k : Nat) (q : Int) : Bool :=
  let (km, qm) := maxFin t
  if q ≥ qm then k * 2 ^ (q - qm).toNat > km else false

/-- What a magnitude beyond the largest finite value becomes (R55). `aBeyond` says that the value rounded
toward zero lies beyond it already. DEDUCED, log entry 23. -/
def overflow (t : Ty) (mode : Rnd) (sat neg aBeyond : Bool) : Nat :=
  if hasInf t then
    if sat then withSign t neg (maxCode t)
    else match mode with
      | .rn => infCode t neg
      | .rz => withSign t neg (maxCode t)
      | .ru => if neg then withSign t neg (maxCode t) else infCode t neg
      | .rs => if aBeyond then infCode t neg else infCode t neg
  else if t == .e4m3 && !sat then 0x7F
  else withSign t neg (maxCode t)

/-- Round a value to a float type in a mode, then apply R55 in an overflow mode. An infinity under `sat` takes the
largest finite value of R55's row where the conversion is not exact, R56 notwithstanding (DESIGN CHOICE, log entry 80). -/
def roundTo (t : Ty) (mode : Rnd) (sat : Bool) (rnd : Nat) : Val → Nat
  | .nan => if t == .e2m1 then maxCode t else nanCode t
  | .inf neg =>
    if hasInf t then (if sat then withSign t neg (maxCode t) else infCode t neg)
    else if t == .e4m3 && !sat then 0x7F else withSign t neg (maxCode t)
  | .fin neg m e rest =>
    if m = 0 && !rest then withSign t neg 0
    else
      let q := quantum t m e
      let (k0, k) :=
        if q ≤ e then (m * 2 ^ (e - q).toNat, m * 2 ^ (e - q).toNat)
        else (m / 2 ^ (q - e).toNat, roundMag mode neg m (q - e).toNat rest rnd)
      if beyond t k q then
        (if mode == .rs && hasInf t && !sat && !beyond t k0 q && k == k0 then encodeFin t neg k q
         else overflow t mode sat neg (beyond t k0 q))
      else encodeFin t neg k q

/-- Round a value to an integer in a mode (R53, R57); NaN and infinities are given by the caller's clamp. -/
def roundToInt (mode : Rnd) (rnd : Nat) (neg : Bool) (m : Nat) (e : Int) (rest : Bool) : Int :=
  let k := if 0 ≤ e then m * 2 ^ e.toNat else roundMag mode neg m (-e).toNat rest rnd
  if neg then -(k : Int) else k
/-- Conversion of a value to an integer type (R55, R57). -/
def toIntTy (t : Ty) (mode : Rnd) (rnd : Nat) : Val → Int
  | .nan => maxInt t
  | .inf neg => if neg then minInt t else maxInt t
  | .fin neg m e rest => clampInt (minInt t) (maxInt t) (roundToInt mode rnd neg m e rest)

/-- An integer as a value; zero is +0 (R57). -/
def ofInt (x : Int) : Val := .fin (x < 0) x.natAbs 0 false

/-! ## Exact arithmetic -/

def Val.isNan : Val → Bool
  | .nan => true
  | _ => false
def Val.neg : Val → Val
  | .nan => .nan
  | .inf n => .inf (!n)
  | .fin n m e r => .fin (!n) m e r
def Val.abs : Val → Val
  | .nan => .nan
  | .inf _ => .inf false
  | .fin _ m e r => .fin false m e r
def Val.isZero : Val → Bool
  | .fin _ m _ r => m = 0 && !r
  | _ => false
def Val.signBit : Val → Bool
  | .nan => false
  | .inf n => n
  | .fin n _ _ _ => n
/-- Signed integer of a finite value at a common exponent. -/
def scaled (n : Bool) (m : Nat) (e lo : Int) : Int :=
  let k : Nat := m * 2 ^ (e - lo).toNat
  if n then -(k : Int) else k

/-- Exact sum of values without remainder (R177): an exact zero of unlike signs is +0. -/
def Val.add : Val → Val → Val
  | .nan, _ => .nan
  | _, .nan => .nan
  | .inf a, .inf b => if a == b then .inf a else .nan
  | .inf a, _ => .inf a
  | _, .inf b => .inf b
  | .fin a m e _, .fin b n f _ =>
    if m = 0 && n = 0 then .fin (a && b) 0 0 false
    else
      let lo := if e ≤ f then e else f
      let x := scaled a m e lo + scaled b n f lo
      .fin (x < 0) x.natAbs lo false
def Val.sub (x y : Val) : Val := x.add y.neg
/-- Exact product (R177). -/
def Val.mul : Val → Val → Val
  | .nan, _ => .nan
  | _, .nan => .nan
  | .inf a, .inf b => .inf (a != b)
  | .inf a, .fin b n _ _ => if n = 0 then .nan else .inf (a != b)
  | .fin a m _ _, .inf b => if m = 0 then .nan else .inf (a != b)
  | .fin a m e _, .fin b n f _ => .fin (a != b) (m * n) (e + f) false
/-- Quotient to at least 100 bits with its remainder mark (R70). -/
def Val.div : Val → Val → Val
  | .nan, _ => .nan
  | _, .nan => .nan
  | .inf _, .inf _ => .nan
  | .inf a, .fin b _ _ _ => .inf (a != b)
  | .fin a _ _ _, .inf b => .fin (a != b) 0 0 false
  | .fin a m e _, .fin b n f _ =>
    if n = 0 then (if m = 0 then .nan else .inf (a != b))
    else if m = 0 then .fin (a != b) 0 0 false
    else
      let k := 100 + Nat.log2 n
      let x := m * 2 ^ k
      .fin (a != b) (x / n) (e - f - k) (x % n != 0)
/-- Integer square root by bits from the top. -/
def isqrt : Nat → Nat → Nat → Nat
  | 0, _, r => r
  | n + 1, x, r => let c := r + 2 ^ n; isqrt n x (if c * c ≤ x then c else r)
/-- Square root with its remainder mark (R70). -/
def Val.sqrt : Val → Val
  | .nan => .nan
  | .inf n => if n then .nan else .inf false
  | .fin n m e _ =>
    if m = 0 then .fin n 0 0 false
    else if n then .nan
    else
      let e0 := e - 200
      let k : Nat := if e0 % 2 = 0 then 200 else 201
      let x := m * 2 ^ k
      let r := isqrt (Nat.log2 x / 2 + 1) x 0
      .fin false r ((e - k) / 2) (r * r != x)

/-- Working precision of `exp2` and `lg2` in bits (log entry 6). -/
def prec : Nat := 320
/-- Sum of the series of exp(x / 2^prec), x in fixed point. -/
def expSeries : Nat → Nat → Nat → Nat → Nat
  | 0, _, _, acc => acc
  | n + 1, x, term, acc =>
    let k := 99 - n
    let t := term * x / 2 ^ prec / k
    expSeries n x t (acc + t)
/-- Sum of z^(2k+1) / (2k+1), z in fixed point. -/
def atanhSeries : Nat → Nat → Nat → Nat → Nat
  | 0, _, _, acc => acc
  | n + 1, z2, term, acc =>
    let k := 2 * (120 - n) - 1
    atanhSeries n z2 (term * z2 / 2 ^ prec) (acc + term / k)
/-- ln y for y in [1, 2] given as m / 2^sh, in fixed point. -/
def lnFix (m sh : Nat) : Nat :=
  let z := (m - 2 ^ sh) * 2 ^ prec / (m + 2 ^ sh)
  2 * atanhSeries 120 (z * z / 2 ^ prec) z 0
/-- ln 2 in fixed point. -/
def ln2Fix : Nat := lnFix 2 0
/-- 2^a (R70). UNVERIFIED, log entry 6. DEDUCED, log entry 23. -/
def Val.exp2 : Val → Val
  | .nan => .nan
  | .inf n => if n then .fin false 0 0 false else .inf false
  | .fin n m e _ =>
    if m = 0 then .fin false 1 0 false
    else if (Nat.log2 m : Int) + e > 12 then (if n then .fin false 1 (-6000) true else .fin false 1 6000 true)
    else if 0 ≤ e then .fin false 1 (if n then -(m * 2 ^ e.toNat : Nat) else (m * 2 ^ e.toNat : Nat)) false
    else
      let sh := (-e).toNat
      let ip := m / 2 ^ sh
      let fr := m % 2 ^ sh
      if fr = 0 then .fin false 1 (if n then -(ip : Int) else ip) false
      else
        -- for a negative argument: 2^-(ip + fr) = 2^-(ip+1) x 2^(1 - fr)
        let f := if n then 2 ^ sh - fr else fr
        let ipart : Int := if n then -(ip : Int) - 1 else ip
        let x := if sh ≤ prec then f * 2 ^ (prec - sh) else f / 2 ^ (sh - prec)
        let y := expSeries 99 (x * ln2Fix / 2 ^ prec) (2 ^ prec) (2 ^ prec)
        .fin false y (ipart - prec) true
/-- log2 a (R70). UNVERIFIED, log entry 6. -/
def Val.lg2 : Val → Val
  | .nan => .nan
  | .inf n => if n then .nan else .inf false
  | .fin n m e _ =>
    if m = 0 then .inf true
    else if n then .nan
    else
      let l := Nat.log2 m
      let p : Int := l + e
      if m = 2 ^ l then ofInt p
      else
        let fr := lnFix m l * 2 ^ prec / ln2Fix
        let x : Int := p * 2 ^ prec + fr
        .fin (x < 0) x.natAbs (-(prec : Int)) true
/-- The integral value of a under a mode, keeping the sign of a zero result (R177 `rint`). -/
def Val.rint (mode : Rnd) : Val → Val
  | .nan => .nan
  | .inf n => .inf n
  | .fin n m e r => .fin n (roundToInt mode 0 n m e r).natAbs 0 false

/-- Compare without NaN: less, with -0 equal to +0. -/
def Val.lt : Val → Val → Bool
  | .nan, _ => false
  | _, .nan => false
  | .inf a, .inf b => a && !b
  | .inf a, _ => a
  | _, .inf b => !b
  | .fin a m e _, .fin b n f _ =>
    let lo := if e ≤ f then e else f
    scaled a m e lo < scaled b n f lo
def Val.eq (x y : Val) : Bool := !x.isNan && !y.isNan && !x.lt y && !y.lt x
def Val.le (x y : Val) : Bool := x.lt y || x.eq y
/-- Lesser and greater of R68: a NaN gives NaN, and -0 orders below +0. -/
def Val.min (x y : Val) : Val :=
  if x.isNan || y.isNan then .nan else if x.lt y then x else if y.lt x then y
  else if x.signBit then x else y
def Val.max (x y : Val) : Val :=
  if x.isNan || y.isNan then .nan else if x.lt y then y else if y.lt x then x
  else if x.signBit then y else x

/-- The value of a scale code, E3M5 (R50). -/
def decodeScale (c : Nat) : Val :=
  let e := c / 32 % 8
  let m := c % 32
  if e = 0 then .fin false m (-7) false else .fin false (m + 32) ((e : Int) - 8) false

/-! ## FP32 steps -/

/-- The value of an FP32 pattern, and rounding to it under `ieee` and under `sat`. -/
def f32 (w : W32) : Val := decodeFloat .f32 w.toNat
def rnd32 (mode : Rnd) (v : Val) : W32 := BitVec.ofNat 32 (roundTo .f32 mode false 0 v)
def rn32 (v : Val) : W32 := rnd32 .rn v
def ru32 (v : Val) : W32 := rnd32 .ru v
def rsat32 (v : Val) : W32 := BitVec.ofNat 32 (roundTo .f32 .rn true 0 v)
def fAdd (a b : W32) : W32 := rn32 ((f32 a).add (f32 b))
def fMul (a b : W32) : W32 := rn32 ((f32 a).mul (f32 b))
def fDiv (a b : W32) : W32 := rn32 ((f32 a).div (f32 b))
/-- BF16 patterns. -/
def bf16 (h : BitVec 16) : Val := decodeFloat .bf16 h.toNat
def rnB16 (v : Val) : BitVec 16 := BitVec.ofNat 16 (roundTo .bf16 .rn false 0 v)

end Sys2Proof.Machine
end

