-- ==== Sys2Proof/Machine/Operands.lean ====
section
/-!
DEFINITION. Operands of timed entries and of engines: lanes, line taps, constants, sideband fields, landing
windows, the random stream, and the writes of an element's registers (R48, R59, R166 to R171, R209).
-/

namespace Sys2Proof.Machine

/-! ## Lanes and sideband -/

/-- Lane i of a beat at a width (R48). -/
def laneOf (w : Nat) (d : W128) (i : Nat) : Nat := d.toNat / 2 ^ (w * i) % 2 ^ w
/-- A beat from its lanes. -/
def packLanes (w : Nat) (vs : List Nat) : W128 :=
  BitVec.ofNat 128 (vs.foldr (fun v acc => v % 2 ^ w + acc * 2 ^ w) 0)
/-- The four poison bits of a sideband (R59). -/
def poisonOf (s : Side) : BitVec 4 := (s >>> 32).setWidth 4
/-- The scale bytes of a sideband. -/
def scalesOf (s : Side) : W32 := s.setWidth 32
/-- Scale byte j. -/
def scaleByte (s : Side) (j : Nat) : Nat := s.toNat / 2 ^ (8 * j) % 256
/-- A sideband from poison bits and scale bytes. -/
def mkSide (p : BitVec 4) (sc : W32) : Side := (p.setWidth 36 <<< 32) ||| sc.setWidth 36
/-- Poison bit of a quarter. -/
def Cap.pq (c : Cap) (q : Nat) : Bool := (poisonOf c.side).getLsbD q
/-- Whether any quarter is poisoned. -/
def Cap.anyP (c : Cap) : Bool := poisonOf c.side != 0
/-- Four bits from a predicate. -/
def bits4 (f : Nat → Bool) : BitVec 4 :=
  (List.range 4).foldl (fun m q => if f q then m ||| (1#4 <<< q) else m) 0
/-- Quarters that lane i of a width lies in. -/
def quartersOf (w i : Nat) : List Nat := (List.range 4).filter (fun q => q * 32 < w * (i + 1) && w * i < 32 * (q + 1))
/-- Whether a lane's quarters of a capture hold poison. -/
def Cap.laneP (c : Cap) (w i : Nat) : Bool := (quartersOf w i).any c.pq
/-- Poison bits of a result whose lane i has poison `dep i` (R218). -/
def lanePoison (w n : Nat) (dep : Nat → Bool) : BitVec 4 :=
  bits4 (fun q => (List.range n).any (fun i => (quartersOf w i).contains q && dep i))

/-! ## Landing windows (R170, R171) -/

/-- Poison of a register that its window still mixes in when a new value is issued at `now`. -/
def Elem.putRes (x : Elem) (now lat : Nat) (data : W128) (side : Side) : Elem :=
  { x with res := { data := data, side := side }
           resP := (if now < x.resU then x.resP else 0) ||| poisonOf x.res.side
           resU := max x.resU (now + lat) }
def Elem.putCres (x : Elem) (now lat : Nat) (tok : W32) (p : Bool) : Elem :=
  { x with cres := { tok := tok, poison := p }
           cresP := (now < x.cresU && x.cresP) || x.cres.poison
           cresU := max x.cresU (now + lat) }
def Elem.putQ (x : Elem) (now lat : Nat) (q : W32) (p : Bool) : Elem :=
  { x with q := q, qPoison := p, qP := (now < x.qU && x.qP) || x.qPoison, qU := max x.qU (now + lat) }
def Elem.putFlag (x : Elem) (now lat : Nat) (f p : Bool) : Elem :=
  { x with flag := f, flagPoison := p, flagP := (now < x.flagU && x.flagP) || x.flagPoison
           flagU := max x.flagU (now + lat) }
/-- The result register as a capture made at the end of island cycle n finds it; inside a window the data and
scale bytes are free (R170). DEDUCED, log entries 18 and 44. -/
def Elem.seeRes (x : Elem) (n free : Nat) : Cap :=
  if n < x.resU then
    { data := Config.freeData free, side := mkSide (x.resP ||| poisonOf x.res.side) (Config.freeScale free) }
  else x.res
/-- What a capture sees of the control result. DEDUCED, log entry 18. -/
def Elem.seeCres (x : Elem) (n free : Nat) : CCap :=
  if n < x.cresU then { tok := Config.freeTok free, poison := x.cresP || x.cres.poison } else x.cres
/-- Mask and flag as read in, or sampled at the end of, the cycle after n. -/
def Elem.seeQ (x : Elem) (n free : Nat) : W32 × Bool :=
  if n < x.qU then (Config.freeTok free, x.qP || x.qPoison) else (x.q, x.qPoison)
def Elem.seeFlag (x : Elem) (n free : Nat) : Bool × Bool :=
  if n < x.flagU then ((Config.freeTok free).getLsbD 0, x.flagP || x.flagPoison) else (x.flag, x.flagPoison)

/-! ## Line taps (R37, R168) -/

/-- Captures of a data line, age 1 first. DEDUCED, log entry 65. -/
def Elem.line (x : Elem) : Line → List Cap
  | .n => x.ln | .e => x.le | .s => x.ls | .w => x.lw | .l => x.ll | .m => x.lm
  | .c => x.lc.map (fun t => { data := t.tok.setWidth 128, side := mkSide (if t.poison then 1 else 0) 0
                               pend := t.pend })
  | .k => []
/-- An operand of an entry of element e: a capture, or a constant with zero sideband. A C operand gives the
token in bits 31:0 with its poison bit as poison bit 32. DEDUCED, log entry 65. -/
def State.opnd (s : State) (c : Ctx) (e : Nat) (o : Opnd) : Cap :=
  match o.line with
  | .k => { data := (s.plane c).const e o.tap.toNat }
  | ln => ((s.elem c e).line ln).getD o.tap.toNat {}
/-- The capture one or more ages older. -/
def State.opndOlder (s : State) (c : Ctx) (e : Nat) (o : Opnd) (k : Nat) : Cap :=
  ((s.elem c e).line o.line).getD (o.tap.toNat + k) {}

/-- Row and column of a neighbour; none outside the region. -/
def neighbour (e : Nat) : Dir → Option Nat
  | .n => if e < 32 then none else some (e - 32)
  | .s => if e + 32 < 512 then some (e + 32) else none
  | .e => if e % 32 = 31 then none else some (e + 1)
  | .w => if e % 32 = 0 then none else some (e - 1)
/-- Direction of a neighbour line. -/
def lineDir : Line → Option Dir
  | .n => some .n | .e => some .e | .s => some .s | .w => some .w | _ => none

/-! ## Random stream (R54, R209) -/

/-- One draw: the new state, which is also the value drawn. -/
def nextRand (s : Word) : Word :=
  let s := s ^^^ (s <<< 13)
  let s := s ^^^ (s >>> 7)
  s ^^^ (s <<< 17)
/-- n draws and the state after them. -/
def drawN : Nat → Word → List Word × Word
  | 0, s => ([], s)
  | n + 1, s => let v := nextRand s; let r := drawN n v; (v :: r.1, r.2)
/-- The 16 bits of lane i in the draws of an `rs` op. -/
def rs16 (vs : List Word) (i : Nat) : Nat := (vs.getD (i / 4) 0).toNat / 2 ^ (16 * (i % 4)) % 65536
/-- The 24-bit uniform of a draw, as a value (R212, R213). -/
def uniform (v : Word) : Val := .fin false (v.toNat / 2 ^ 40) (-24) false

/-! ## The acting element -/

/-- Index of the acting element, its island and the cycle of its island. -/
def State.ei (s : State) : Nat := s.curElem.toNat
def State.islOf (s : State) (c : Ctx) (e : Nat) : Isl := s.isl c (islandIx (s.plane c).isls e)
/-- Configuration word of an element (R198). -/
def State.cfg (s : State) (c : Ctx) (e : Nat) : ElemCfg := mget (s.plane c).elems e

end Sys2Proof.Machine
end

