-- ==== Sys2Proof/Machine/Flags.lean ====
section
/-!
DEFINITION. Flag and mask computations of the fabric (R181, R190, R202, R210, R215), the comparisons of the
sequencer (R112, R120), and the reporting of poison (R220).
-/

namespace Sys2Proof.Machine

/-- The relations of compares, `ccmp` and `chk`. -/
inductive Rel where
  | eq | ne | lt | le | gt | ge | un
  deriving DecidableEq, Repr, Inhabited

/-- Codes of `ccmp` and `chk` (R190, R211). -/
def relOfCode : Nat → Rel
  | 0 => .eq | 1 => .ne | 2 => .lt | 3 => .le | 4 => .gt | _ => .ge

/-- A relation of float values (R181): every one but `cmpne` is false on a NaN. -/
def relFloat (r : Rel) (a b : Val) : Bool :=
  match r with
  | .eq => a.eq b | .ne => !a.eq b | .lt => a.lt b | .le => a.le b | .gt => b.lt a | .ge => b.le a
  | .un => a.isNan || b.isNan
/-- A relation of integers. -/
def relInt (r : Rel) (a b : Int) : Bool :=
  match r with
  | .eq => a == b | .ne => a != b | .lt => a < b | .le => a ≤ b | .gt => b < a | .ge => b ≤ a | .un => false
/-- A relation of lane codes of a type. -/
def relLane (t : Ty) (r : Rel) (a b : Nat) : Bool :=
  if isFloat t then relFloat r (decodeFloat t a) (decodeFloat t b) else relInt r (decodeInt t a) (decodeInt t b)

/-- The mask of 32 bits from a predicate on lanes below n. -/
def maskOf (n : Nat) (f : Nat → Bool) : W32 :=
  (List.range n).foldl (fun m i => if f i then m ||| (1#32 <<< i) else m) 0
/-- Lanes of all ones where the mask holds. -/
def onesOf (w n : Nat) (m : W32) : W128 :=
  packLanes w ((List.range n).map (fun i => if m.getLsbD i then 2 ^ w - 1 else 0))

/-- Write Q and the flag together, as a compare does (R181). -/
def Elem.putMask (x : Elem) (now lat : Nat) (m : W32) (p : Bool) : Elem :=
  (x.putQ now lat m p).putFlag now lat (m != 0) p

/-- A fabric fault of the acting element at its island cycle (R221). DESIGN CHOICE, log entry 49. -/
def State.elemFault (s : State) (code : BitVec 8) (addr : Word) : State :=
  s.fabricFault s.cur code addr 0 s.ei (s.islOf s.cur s.ei).ctr true

/-- Comparisons of the sequencer. -/
def ltS (a b : Word) : Bool := a.toInt < b.toInt
def ltN (a b : Word) : Bool := a.toNat < b.toNat

end Sys2Proof.Machine
end

