-- ==== Sys2Proof/Machine/SeqInt.lean ====
section
/-!
DEFINITION. The integer group, the immediates, branches and jumps of the sequencer (05_sequencer_isa.md, R108
to R114, R120, R121). Each acts for the thread of the context `cur`.
-/

namespace Sys2Proof.Machine

/-! ## Shared operations -/

/-- An instruction whose every source must be unpoisoned (R110): it stalls on its registers, traps with 0x13
and the lowest poisoned register, or does what it does. -/
def State.strict (s : State) (srcs dsts : List Reg) (k : Thread → Out) : Out :=
  let t := s.thr s.cur
  if t.busy s.cycle srcs dsts then .next (s.stalled s.cur)
  else match t.firstPoisoned srcs with
    | some r => .next (s.trap s.cur 0x13 (BitVec.ofNat 64 r.toNat))
    | none => k t

/-- Put a fixed-latency result (R108): a dependant may use it `lat` cycles after issue. -/
def Thread.result (t : Thread) (now lat : Nat) (d : Reg) (v : Word) (p : Bool) : Thread :=
  let t1 := t.put d v p
  { t1 with ready := mset t1.ready d.toNat (if lat ≤ 1 || d = 0 then 0 else now + lat) }

/-- An integer-group or immediate instruction: a poisoned source poisons the result (R110). -/
def State.intOp (s : State) (d : Reg) (srcs : List Reg) (lat : Nat) (v : Thread → Word) : Out :=
  let t := s.thr s.cur
  if t.busy s.cycle srcs [d] then .next (s.stalled s.cur)
  else .next (s.retire s.cur (fun t => t.result s.cycle lat d (v t) (srcs.any t.poisoned)))
/-- A register-register instruction. -/
def State.regOp (s : State) (d a b : Reg) (lat : Nat) (g : Word → Word → Word) : Out :=
  s.intOp d [a, b] lat (fun t => g (t.get a) (t.get b))
/-- An immediate instruction. -/
def State.immOp (s : State) (d a : Reg) (g : Word → Word) : Out := s.intOp d [a] 1 (fun t => g (t.get a))

/-! ## Integer group (R112, R113) -/

def boolW (b : Bool) : Word := if b then 1 else 0
/-- Shift amount: bits 5:0. -/
def shamt (b : Word) : Nat := b.toNat % 64
/-- Signed quotient, rounded toward zero, with its edge results (R113). -/
def divS (a b : Word) : Word :=
  if b = 0 then (if a.msb then BitVec.allOnes 64 else BitVec.ofNat 64 (2 ^ 63 - 1))
  else BitVec.ofInt 64 (a.toInt.tdiv b.toInt)
def divU (a b : Word) : Word := if b = 0 then BitVec.allOnes 64 else BitVec.ofNat 64 (a.toNat / b.toNat)
def remS (a b : Word) : Word := if b = 0 then a else BitVec.ofInt 64 (a.toInt.tmod b.toInt)
def remU (a b : Word) : Word := if b = 0 then a else BitVec.ofNat 64 (a.toNat % b.toNat)
/-- High halves of the products. -/
def mulHS (a b : Word) : Word := BitVec.ofInt 64 (a.toInt * b.toInt / 2 ^ 64)
def mulHU (a b : Word) : Word := BitVec.ofNat 64 (a.toNat * b.toNat / 2 ^ 64)

def execAdd (d a b : Reg) (s : State) : Out := s.regOp d a b 1 (fun x y => x + y)
def execSub (d a b : Reg) (s : State) : Out := s.regOp d a b 1 (fun x y => x - y)
def execAnd (d a b : Reg) (s : State) : Out := s.regOp d a b 1 (fun x y => x &&& y)
def execOr (d a b : Reg) (s : State) : Out := s.regOp d a b 1 (fun x y => x ||| y)
def execXor (d a b : Reg) (s : State) : Out := s.regOp d a b 1 (fun x y => x ^^^ y)
def execShl (d a b : Reg) (s : State) : Out := s.regOp d a b 1 (fun x y => x <<< shamt y)
def execShr (d a b : Reg) (s : State) : Out := s.regOp d a b 1 (fun x y => x >>> shamt y)
def execSra (d a b : Reg) (s : State) : Out := s.regOp d a b 1 (fun x y => x.sshiftRight (shamt y))
def execSlt (d a b : Reg) (s : State) : Out := s.regOp d a b 1 (fun x y => boolW (ltS x y))
def execSltn (d a b : Reg) (s : State) : Out := s.regOp d a b 1 (fun x y => boolW (ltN x y))
def execMin (d a b : Reg) (s : State) : Out := s.regOp d a b 1 (fun x y => if ltS y x then y else x)
def execMax (d a b : Reg) (s : State) : Out := s.regOp d a b 1 (fun x y => if ltS x y then y else x)
def execMinn (d a b : Reg) (s : State) : Out := s.regOp d a b 1 (fun x y => if ltN y x then y else x)
def execMaxn (d a b : Reg) (s : State) : Out := s.regOp d a b 1 (fun x y => if ltN x y then y else x)
def execMul (d a b : Reg) (s : State) : Out := s.regOp d a b 4 (fun x y => x * y)
def execMulh (d a b : Reg) (s : State) : Out := s.regOp d a b 4 mulHS
def execMulhn (d a b : Reg) (s : State) : Out := s.regOp d a b 4 mulHU
def execDiv (d a b : Reg) (s : State) : Out := s.regOp d a b 20 divS
def execDivn (d a b : Reg) (s : State) : Out := s.regOp d a b 20 divU
def execRem (d a b : Reg) (s : State) : Out := s.regOp d a b 20 remS
def execRemn (d a b : Reg) (s : State) : Out := s.regOp d a b 20 remU
def execAddx (d a b : Reg) (k : BitVec 3) (s : State) : Out := s.regOp d a b 1 (fun x y => x + (y <<< k.toNat))

/-! ## Immediates (R114) -/

def sext16 (i : BitVec 16) : Word := i.signExtend 64
def zext16 (i : BitVec 16) : Word := i.setWidth 64
def execAddi (d a : Reg) (i : BitVec 16) (s : State) : Out := s.immOp d a (fun x => x + sext16 i)
def execSlti (d a : Reg) (i : BitVec 16) (s : State) : Out := s.immOp d a (fun x => boolW (ltS x (sext16 i)))
def execSltni (d a : Reg) (i : BitVec 16) (s : State) : Out := s.immOp d a (fun x => boolW (ltN x (sext16 i)))
def execAndi (d a : Reg) (i : BitVec 16) (s : State) : Out := s.immOp d a (fun x => x &&& zext16 i)
def execOri (d a : Reg) (i : BitVec 16) (s : State) : Out := s.immOp d a (fun x => x ||| zext16 i)
def execXori (d a : Reg) (i : BitVec 16) (s : State) : Out := s.immOp d a (fun x => x ^^^ zext16 i)
def execShli (d a : Reg) (i : BitVec 6) (s : State) : Out := s.immOp d a (fun x => x <<< i.toNat)
def execShri (d a : Reg) (i : BitVec 6) (s : State) : Out := s.immOp d a (fun x => x >>> i.toNat)
def execSrai (d a : Reg) (i : BitVec 6) (s : State) : Out := s.immOp d a (fun x => x.sshiftRight i.toNat)
/-- `lui`: sext(imm16 << 16), a 32-bit value sign-extended. -/
def execLui (d : Reg) (i : BitVec 16) (s : State) : Out :=
  s.intOp d [] 1 (fun _ => (i.setWidth 32 <<< 16).signExtend 64)

/-! ## Branches and jumps (R120, R121) -/

/-- A branch: the target is the branch's own address + 4 x sext(off16). -/
def State.branch (s : State) (a b : Reg) (off : BitVec 16) (cond : Word → Word → Bool) : Out :=
  s.strict [a, b] [] (fun t =>
    if cond (t.get a) (t.get b) then .next (s.transfer s.cur id (t.pc + (sext16 off <<< 2)) 2)
    else .next (s.retire s.cur id))
def execBeq (a b : Reg) (off : BitVec 16) (s : State) : Out := s.branch a b off (fun x y => x == y)
def execBne (a b : Reg) (off : BitVec 16) (s : State) : Out := s.branch a b off (fun x y => x != y)
def execBlt (a b : Reg) (off : BitVec 16) (s : State) : Out := s.branch a b off ltS
def execBge (a b : Reg) (off : BitVec 16) (s : State) : Out := s.branch a b off (fun x y => !ltS x y)
def execBltn (a b : Reg) (off : BitVec 16) (s : State) : Out := s.branch a b off ltN
def execBgen (a b : Reg) (off : BitVec 16) (s : State) : Out := s.branch a b off (fun x y => !ltN x y)
def execJal (d : Reg) (off : BitVec 21) (s : State) : Out :=
  s.strict [] [d] (fun t =>
    .next (s.transfer s.cur (fun t => t.result s.cycle 1 d (t.pc + 4) false)
      (t.pc + (off.signExtend 64 <<< 2)) 2))
/-- `jlr`: the target is read before d is written; a misaligned target raises 0x02 and writes nothing. -/
def execJlr (d a : Reg) (off : BitVec 16) (s : State) : Out :=
  s.strict [a] [d] (fun t =>
    let target := t.get a + sext16 off
    if target.toNat % 4 != 0 then .next (s.trap s.cur 0x02 target)
    else .next (s.transfer s.cur (fun t => t.result s.cycle 1 d (t.pc + 4) false) target 3))

end Sys2Proof.Machine
end

