-- ==== Sys2Proof/Machine/Registers.lean ====
section
/-!
DEFINITION. The package registers (R160, R257, R339, R379, R388, R391) and the system registers of the
sequencer (R102): one operation that reads a register and one that writes it.
-/

namespace Sys2Proof.Machine

/-! ## Package registers -/

/-- Byte address of package register 0 (R9). -/
def regBase : Nat := 0x30000000000
/-- Register q's block begins at this offset (R160). -/
def queueBase : Nat := 0x10000

/-- A queue's first register word (R160). -/
def Queue.word0 (q : Queue) : Word :=
  BitVec.ofNat 64 (q.weight.toNat + 256 * q.cls.toNat + 1024 * q.enable.toNat + 2048 * q.debugged.toNat +
    4096 * q.holdOn.toNat + 65536 * q.coalesce.toNat)

/-- Code of a kind of start (R388). -/
def StartKind.code : StartKind → Nat
  | .cold => 0 | .warm => 1 | .safe => 2 | .maintenance => 3
/-- Register STARTST (R388). Rows marked at run time are repairs pending. -/
def Start.word (t : Start) : Word :=
  BitVec.ofNat 64 (t.kind.code + 4 * (t.repair || !t.badRows.isEmpty).toNat + 8 * t.failed.toNat + 32 * t.ready.toNat)

/-- The value a register at an offset reads as; `none` where no readable register lies (log entry 16). -/
def State.regRead (s : State) (off : Nat) : Option Word :=
  let r := s.regs
  if queueBase ≤ off && off < queueBase + 256 * 64 then
    let q := s.queue ((off - queueBase) / 64)
    match (off - queueBase) % 64 with
    | 0x00 => some q.word0 | 0x08 => some q.endpoint | 0x10 => some q.notify | 0x18 => some q.report
    | 0x20 => some (BitVec.ofNat 64 (q.msgs.length + 2 ^ 32 * q.refused.toNat))
    | _ => none
  else if 0x400 ≤ off && off < 0x480 && off % 8 = 0 then some (mget r.podBar ((off - 0x400) / 8))
  else match off with
    | 0x000 => some (s.pkgId.setWidth 64) | 0x008 => some r.saveSz | 0x010 => some (r.saveVer.setWidth 64)
    | 0x018 => some (r.quantum.setWidth 64)
    | 0x100 => some s.fb.base | 0x108 => some (BitVec.ofNat 64 s.fb.size) | 0x110 => some s.fb.prod
    | 0x118 => some s.fb.cons | 0x128 => some (s.fb.gen.setWidth 64)
    | 0x130 => some (BitVec.ofNat 64 s.fb.stat.toNat)
    | 0x138 => some (r.ctxBase.setWidth 64) | 0x140 => some (r.ctxCount.setWidth 64)
    | 0x200 => some (r.invCtx.setWidth 64) | 0x208 => some (r.invVa.setWidth 64) | 0x218 => some r.invDone
    | 0x300 => some (r.atgBase.setWidth 64) | 0x308 => some (r.atgSize.setWidth 64)
    | 0x500 => some s.start.word | 0x508 => some (s.start.retired.setWidth 64)
    | 0x518 => some s.start.hbmCE | 0x520 => some s.start.hbmUE
    | 0x600 => some (r.lpBase.setWidth 64) | 0x608 => some (r.lpSize.setWidth 64)
    | 0x610 => some (r.bpSize.setWidth 64) | 0x618 => some (r.brStart.setWidth 64)
    | _ => none

/-- FBSTAT stays set until space frees (R158). -/
def FaultBuf.settle (f : FaultBuf) : FaultBuf := { f with stat := f.stat && f.full }
/-- Let an event of the table be the next act. -/
def State.soon (s : State) (i : Instr) : State := { s with agenda := .ev i :: s.agenda }
/-- Whether a number is a power of two from 256 to 65,536. -/
def fbSizeOk (n : Nat) : Bool := (List.range 9).any (fun i => n == 256 * 2 ^ i)

/-- Write a queue's block. Disabling a queue ends the wait of its launches held at step 3 (R145): the loader
acts on each of them next. DESIGN CHOICE, log entry 16. -/
def State.queueWrite (s : State) (q off : Nat) (v : Word) : Option State :=
  let x := s.queue q
  match off with
  | 0x00 =>
    let w := v.setWidth 8
    let y := { x with weight := if w = 0 then 1 else w, cls := (v >>> 8).setWidth 2, enable := v.getLsbD 10
                      debugged := v.getLsbD 11, holdOn := v.getLsbD 12, coalesce := (v >>> 16).setWidth 16 }
    let s1 := s.setQueue q y
    if y.enable then some s1
    else some (((s.tasks.filter (fun p => p.2.queue.toNat == q && p.2.step3.isSome)).map (·.2.gang)).eraseDups.foldl
      (fun s g => s.soon (.gangPlacement g)) s1)
  | 0x08 => some (s.setQueue q { x with endpoint := v })
  | 0x10 => some (s.setQueue q { x with notify := v })
  | 0x18 => some (s.setQueue q { x with report := v })
  | _ => none

/-- Write a register. `none` where no writable register lies; a value out of a register's range, or not
aligned as the register states, changes nothing (log entry 16). FBFLUSH, INVGO and STARTCTL act through the
event of the table that follows. -/
def State.regWrite (s : State) (off : Nat) (v : Word) : Option State :=
  let r := s.regs
  let n := v.toNat
  if queueBase ≤ off && off < queueBase + 256 * 64 then
    s.queueWrite ((off - queueBase) / 64) ((off - queueBase) % 64) v
  else if 0x400 ≤ off && off < 0x480 && off % 8 = 0 then
    some { s with regs := { r with podBar := mset r.podBar ((off - 0x400) / 8) (BitVec.ofNat 64 (n % 2 ^ 52)) } }
  else match off with
    | 0x018 => some (if 10 ≤ n % 1024 && n % 1024 ≤ 1000 then { s with regs := { r with quantum := v.setWidth 10 } }
                     else s)
    | 0x100 => some (if n % 4096 = 0 then { s with fb := FaultBuf.settle { s.fb with base := v } } else s)
    | 0x108 => some (if fbSizeOk (n % 2 ^ 17) then
                       { s with fb := FaultBuf.settle { s.fb with size := n % 2 ^ 17 } } else s)
    | 0x118 => some { s with fb := FaultBuf.settle { s.fb with cons := v } }
    | 0x120 => some (s.soon .fbflush)
    | 0x138 => some (if n % 2 ^ 52 % 4096 = 0 then { s with regs := { r with ctxBase := v.setWidth 52 } } else s)
    | 0x140 => some (if n % 2 ^ 17 ≤ 65536 then { s with regs := { r with ctxCount := v.setWidth 17 } } else s)
    | 0x200 => some { s with regs := { r with invCtx := v.setWidth 16 } }
    | 0x208 => some { s with regs := { r with invVa := v.setWidth 48 } }
    | 0x210 => some (if n % 4 = 1 then s.soon .invalidatePage else if n % 4 = 2 then s.soon .invalidateContext else s)
    | 0x300 => some (if n % 2 ^ 52 % 4096 = 0 then { s with regs := { r with atgBase := v.setWidth 52 } } else s)
    | 0x308 => some { s with regs := { r with atgSize := v.setWidth 32 } }
    | 0x510 => some (match n % 4 with
        | 1 => s.soon .startctlClear | 2 => s.soon .maintenanceReset | 3 => s.soon .warmReset | _ => s)
    | 0x600 => some (if n % 2 ^ 52 % 65536 = 0 && n % 2 ^ 52 < 0x8000000000 then
                       { s with regs := { r with lpBase := v.setWidth 52 } } else s)
    | 0x608 => some (if n % 2 ^ 52 % 65536 = 0 then { s with regs := { r with lpSize := v.setWidth 52 } } else s)
    | 0x610 => some (if n % 2 ^ 27 % 65536 = 0 then { s with regs := { r with bpSize := v.setWidth 27 } } else s)
    | _ => none

/-- Bytes of a register; `none` where the access is wider than its register or meets none (R366). -/
def State.regBytes (s : State) (pa n : Nat) : Option (List Byte) :=
  let o := (pa - regBase) % 8
  if o + n > 8 then none
  else (s.regRead (pa - regBase - o)).map (fun v => (leList 8 v.toNat).drop o |>.take n)
/-- Replace bytes of a register; the bytes that a narrow write leaves out keep what the register reads as. -/
def State.regPut (s : State) (pa : Nat) (bs : List Byte) : Option State :=
  let o := (pa - regBase) % 8
  if o + bs.length > 8 then none
  else
    let old := leList 8 ((s.regRead (pa - regBase - o)).getD 0).toNat
    s.regWrite (pa - regBase - o) (BitVec.ofNat 64 (leVal (old.take o ++ bs ++ old.drop (o + bs.length))))

/-! ## System registers (R102) -/

/-- Whether a number names a system register. -/
def sysAssigned (n : Nat) : Bool := n ≤ 0x008 || (0x100 ≤ n && n ≤ 0x108)
/-- Whether it may be written (Access RW or S-RW). -/
def sysWritable (n : Nat) : Bool := n == 0x006 || (0x100 ≤ n && n ≤ 0x105)
/-- Mask of the islands started and not finished. -/
def State.islRun (s : State) (c : Ctx) : Word :=
  (List.range 64).foldl (fun m i => if (s.isl c i).running then m ||| (1#64 <<< i) else m) 0
/-- The status register. -/
def Thread.status (t : Thread) : Word :=
  BitVec.ofNat 64 (t.sup.toNat + 2 * t.prevSup.toNat + 4 * t.nested.toNat)
/-- The value that `mfs` reads for a context's thread. -/
def State.sysRead (s : State) (c : Ctx) (n : Nat) : Word :=
  let t := s.thr c
  let id := s.taskAt c
  let tk := s.task id
  match n with
  | 0x000 => t.cyc
  | 0x001 => tk.ts
  | 0x002 => BitVec.ofNat 64 (id % 2 ^ 32)
  | 0x003 => BitVec.ofNat 64 (c.toNat / 2 + 16 * (c.toNat % 2) + 32 * s.pkgId.toNat + 2 ^ 15 * scopeNum tk.scope)
  | 0x004 => BitVec.ofNat 64 ((s.isHead id).toNat + 2 * (s.inHeadGroup id).toNat)
  | 0x005 => s.islRun c
  | 0x006 => t.bounces
  | 0x007 => BitVec.ofNat 64 tk.mail.length
  | 0x008 => t.poison.setWidth 64
  | 0x100 => t.status
  | 0x101 => t.epc
  | 0x102 => t.ecause.setWidth 64
  | 0x103 => t.earg
  | 0x104 => t.evec.getD (Config.handlerEntry &&& ~~~(3 : Word))
  | 0x105 => t.escr
  | 0x106 => tk.tenant.setWidth 64
  | 0x107 => BitVec.ofNat 64 (s.ctxEntry tk.tenant.toNat).root
  | 0x108 => (s.ctxEntry tk.tenant.toNat).owner.setWidth 64
  | _ => 0
/-- What `mts` writes. The current mode stays: only `eret` leaves supervisor mode (R101; DEDUCED, log entry 85). -/
def Thread.sysWrite (t : Thread) (n : Nat) (v : Word) : Thread :=
  match n with
  | 0x006 => { t with bounces := v }
  | 0x100 => { t with prevSup := v.getLsbD 1, nested := v.getLsbD 2 }
  | 0x101 => { t with epc := v }
  | 0x102 => { t with ecause := v.setWidth 8 }
  | 0x103 => { t with earg := v }
  | 0x104 => { t with evec := some (v &&& ~~~(3 : Word)) }
  | 0x105 => { t with escr := v }
  | _ => t

end Sys2Proof.Machine
end

