-- ==== Sys2Proof/Machine/SeqMem.lean ====
section
/-!
DEFINITION. Loads, stores, atomics and fences of the sequencer (05_sequencer_isa.md, R115 to R119), under the
memory model (04_memory_model.md) and the checks of R116 and R252.
-/

namespace Sys2Proof.Machine

/-! ## Faults of a sequencer access -/

/-- Record a fault of the sequencer with the position of its pc (R158). -/
def State.seqRecord (s : State) (code : BitVec 8) (addr : Word) (held ended : Bool) : State :=
  s.recordAt s.cur code addr seqCmd 0 (s.thr s.cur).pc held false ended false
/-- A fault that ends the gang of the acting task (R156, R157). -/
def State.seqEnd (s : State) (code : BitVec 8) (addr : Word) : State :=
  (s.seqRecord code addr false true).doom (s.task (s.taskAt s.cur)).gang code false
/-- A page fault on a load or fetch: the sequencer is held at the instruction (R111, R116). -/
def State.holdThread (s : State) (code : BitVec 8) (va : Word) : State :=
  (s.seqRecord code va true false).modThr s.cur (fun t =>
    { t with held := .fault va, waitSince := some (t.waitSince.getD s.cycle) })
/-- Count an uncorrectable error of HBM and mark its row for repair (R382, R388). -/
def State.countUE (s : State) (pa : Nat) : State :=
  let rows := s.start.badRows
  let rows := if rows.contains (pa / 65536) then rows else pa / 65536 :: rows
  if s.place pa == .device || s.place pa == .attention then
    { s with start := { s.start with hbmUE := s.start.hbmUE + 1, badRows := rows } }
  else s
/-- An uncorrectable error at a granule: record, and the end of the context whose owner tag it carries (R381). -/
def State.memError (s : State) (c : Ctx) (pa tag cmd elem : Nat) (pos : Word) : State :=
  ((s.countUE pa).recordAt c 0x30 (BitVec.ofNat 64 pa) cmd elem pos false false (tag != 0) false).doomOwner tag
/-- The same where no task of the package accesses. -/
def State.memErrorAlone (s : State) (pa tag : Nat) (tenant : BitVec 16) : State :=
  ((s.countUE pa).record { code := 0x30, ended := tag != 0, gen := 0, addr := BitVec.ofNat 64 pa, tenant := tenant,
                           cmd := 0x1FF }).doomOwner tag
/-- Whether a granule of memory holds an uncorrectable error. -/
def State.hardMem (s : State) (pa : Nat) : Bool :=
  s.errs.any (fun e => e.hard && e.line == .mem (BitVec.ofNat 46 (pa / 64)))

/-! ## Translation with the private stack (R12, R77, R103) -/

/-- Whether an access lies in the task's private stack; the page below it is never mapped. -/
def Task.inStack (t : Task) (va : Nat) : Bool := t.stackVa ≤ va && va < t.stackVa + t.stackLen
def Task.belowStack (t : Task) (va : Nat) : Bool := t.stackLen != 0 && va < t.stackVa && t.stackVa ≤ va + 65536
/-- Translate an access of the acting thread. The private stack has no entry and so no permissions: every access of
its own task is allowed, a fetch too (DESIGN CHOICE, log entry 78); its frames carry the owner tag of the task's context
(R381). -/
def State.seqTranslate (s : State) (k : AccK) (va : Nat) : State × Acc :=
  let t := s.task (s.taskAt s.cur)
  if t.inStack va then (s, .ok (t.stackPa + (va - t.stackVa)) false false t.owner.toNat)
  else if t.belowStack va then (s, .prot)
  else s.translate s.cur t.tenant t.owner (s.thr s.cur).sup k va

/-! ## Loads (R78, R82, R98, R110, R115, R116, R255) -/

/-- What a read of the acting thread gives. -/
inductive Read where
  /-- The value, whether it is poisoned. -/
  | value (v : Nat) (poison : Bool)
  /-- The read cannot perform in this cycle; the state says why, or a fault has been taken. -/
  | stop
  deriving DecidableEq, Repr, Inhabited

/-- Read n bytes at an aligned virtual address: the fault is taken in the state where one arises. `wide`
says that poison traps with 0x13 and this argument in place of poisoning a register (R129, R135).
DEDUCED, log entries 26 and 30. -/
def State.seqRead (s : State) (va n : Nat) (poisonTrap : Option Word) : State × Read :=
  let id := s.taskAt s.cur
  let t := s.task id
  if t.laidByte va n then (s.stalled s.cur, .stop)
  else
    let (s1, a) := s.seqTranslate .load va
    match a with
    | .pageFault => (s1.holdThread 0x08 (BitVec.ofNat 64 va), .stop)
    | .prot => (s1.trap s1.cur 0x0A (BitVec.ofNat 64 va), .stop)
    | .owner => (s1.seqEnd 0x31 (BitVec.ofNat 64 va), .stop)
    | .ok pa poison dead tag =>
      let s2 := if dead then s1.seqRecord 0x0B (BitVec.ofNat 64 va) false false else s1
      let s3 := if t.inStack va then s2 else s2.noteRead id [pa / 64]
      if s3.place pa == .registers then
        match s3.regBytes pa n with
        | some bs => (s3, .value (leVal bs) false)
        | none => (s3.trap s3.cur 0x0A (BitVec.ofNat 64 va), .stop)
      else if !dead && s3.hardMem pa then
        let s4 := s3.memError s3.cur pa tag seqCmd 0 (s3.thr s3.cur).pc
        if tag != 0 then (s4, .stop)
        else match poisonTrap with
          | some arg => (s4.trap s4.cur 0x13 arg, .stop)
          | none => (s4, .value 0 true)
      else if poison then
        match poisonTrap with
        | some arg => (s3.trap s3.cur 0x13 arg, .stop)
        | none => (s3, .value 0 true)
      else (s3.move id pa n, .value (leVal (if t.inStack va then s3.bytes pa n else s3.taskBytes id pa n)) false)

/-- Put a write in flight to a register; g0 discards it (R99, R109). -/
def Thread.await (t : Thread) (p : Pend) : Thread := if p.d = 0 then t else { t with pend := t.pend ++ [p] }

/-- Whether a `lamo` or `mrecv` of a thread is in flight. Each acts as an acquire (R371, R372), so later accesses of
the thread stall until it lands. DEDUCED, log entry 72. -/
def Thread.acquiring (t : Thread) : Bool := t.pend.any (fun p => match p.kind with | .link _ => true | _ => false)
/-- The real cycle by which a read at a virtual address lands: a basin read has a bound without a condition, one of device
memory a bound within its task's reserved bandwidth, which `readDev` names (R20, R21). DEDUCED, log entry 7. -/
def State.readDue (s : State) (va : Nat) : Option Nat :=
  match (s.seqTranslate .load va).2 with
  | .ok pa _ _ _ =>
    if s.place pa == .basin then some (s.cycle + (if (pa - 0x20000000000) / 0x8000000 == dieOf s.cur then 96 else 224))
    else if s.place pa == .device then some (s.cycle + 2048)
    else none
  | _ => none
def State.readDev (s : State) (va : Nat) : Option Nat :=
  match (s.seqTranslate .load va).2 with
  | .ok pa _ _ _ => if s.place pa == .device then some pa else none
  | _ => none
/-- Sign or zero extension from n bytes. -/
def sextN (n v : Nat) : Word := (BitVec.ofNat (8 * n) v).signExtend 64
def zextN (_ v : Nat) : Word := BitVec.ofNat 64 v
def extN (signed : Bool) (n v : Nat) : Word := if signed then sextN n v else zextN n v
/-- Memory from which a load in flight may still take a later value: neither registers nor the private stack (R96, R390).
DEDUCED, log entry 7. -/
def State.readAgain (s : State) (va n : Nat) (signed : Bool) : Option Again :=
  match (s.seqTranslate .load va).2 with
  | .ok pa false false _ => if (s.task (s.taskAt s.cur)).inStack va || s.place pa == .registers then none
      else some { pa := pa, n := n, signed := signed, seen := leVal (s.taskBytes (s.taskAt s.cur) pa n) }
  | _ => none
/-- A load of n bytes. DEDUCED, log entry 7. -/
def State.load (s : State) (d a : Reg) (off : BitVec 16) (n : Nat) (signed : Bool) : Out :=
  s.strict [a] [d] (fun t =>
    let ea := t.get a + sext16 off
    if ea.toNat % n != 0 then .next (s.trap s.cur 0x02 ea)
    else if t.acquiring then .next (s.stalled s.cur)
    else match s.seqRead ea.toNat n none with
      | (s1, .value v p) => .next (s1.retire s1.cur (fun t =>
          t.await { d := d, kind := .value, v := extN signed n v, poison := p, due := s1.readDue ea.toNat
                    dev := s1.readDev ea.toNat, again := s1.readAgain ea.toNat n signed }))
      | (s1, .stop) => .next s1)

/-- The loads in flight of a thread, oldest first, look at memory again: what has changed there they may take, a store of
their own thread, which comes behind them, apart. A load that takes a later value makes the younger ones of its bytes take it
too. `k` counts free choices, and `old` names the loads that have taken something now. DEDUCED, log entry 7. -/
def lookPends (see : Again → Nat) (own : Bool) : Nat → List Again → List Pend → List Pend
  | _, _, [] => []
  | k, old, p :: ps =>
    match p.again with
    | none => p :: lookPends see own (k + 1) old ps
    | some a =>
      let now := see a
      if old.any (fun b => decide (b.pa < a.pa + a.n) && decide (a.pa < b.pa + b.n)) ||
          (!own && now != a.seen && Config.pick k % 2 == 0) then
        { p with v := extN a.signed a.n now, again := some { a with seen := now } } :: lookPends see own (k + 1) (a :: old) ps
      else { p with again := some { a with seen := now } } :: lookPends see own (k + 1) old ps
/-- After an act, of a thread or of something else, the loads in flight of every context look again. -/
def State.lookAgain (s : State) (actor : Option Ctx) : State :=
  (s.threads.filter (fun p => p.2.pend.any (·.again.isSome))).foldl (fun s p =>
    let c : Ctx := BitVec.ofNat 5 p.1
    let see := fun (a : Again) => leVal (s.taskBytes (s.taskAt c) a.pa a.n)
    { s.modThr c (fun t => { t with pend := lookPends see (actor == some c) s.free [] t.pend }) with
      free := s.free + p.2.pend.length }) s

def execLb (d a : Reg) (off : BitVec 16) (s : State) : Out := s.load d a off 1 true
def execLbn (d a : Reg) (off : BitVec 16) (s : State) : Out := s.load d a off 1 false
def execLh (d a : Reg) (off : BitVec 16) (s : State) : Out := s.load d a off 2 true
def execLhn (d a : Reg) (off : BitVec 16) (s : State) : Out := s.load d a off 2 false
def execLw (d a : Reg) (off : BitVec 16) (s : State) : Out := s.load d a off 4 true
def execLwn (d a : Reg) (off : BitVec 16) (s : State) : Out := s.load d a off 4 false
def execLd (d a : Reg) (off : BitVec 16) (s : State) : Out := s.load d a off 8 false

/-! ## Stores (R77, R79, R86, R98, R115, R116) -/

/-- Write bytes within one granule directly to memory; a failing old check ends the gang with 0x14 (R73). -/
def State.seqDirect (s : State) (va pa : Nat) (bs : List Byte) : State × Bool :=
  let (s1, ok) := s.writeGranule pa bs
  if ok then (s1, true) else (s.seqEnd 0x14 (BitVec.ofNat 64 (va / 64 * 64)), false)

/-- The outcome of a sequencer store after translation: the new state and whether the instruction retires.
DEDUCED, log entry 26. -/
def State.seqStore (s : State) (va : Nat) (a : Acc) (bs : List Byte) : State × Bool :=
  let id := s.taskAt s.cur
  match a with
  | .prot => (s.trap s.cur 0x0A (BitVec.ofNat 64 va), false)
  | .owner => (s.seqEnd 0x31 (BitVec.ofNat 64 va), false)
  | .ok pa _ _ tag =>
    if (s.task id).inStack va then s.seqDirect va pa bs
    else if s.place pa == .registers then
      match s.regPut pa bs with
      | some s1 => (s1, true)
      | none => (s.trap s.cur 0x0A (BitVec.ofNat 64 va), false)
    else if s.hardMem pa && tag != 0 then (s.memError s.cur pa tag seqCmd 0 (s.thr s.cur).pc, false)
    else
      let s0 := if s.hardMem pa then s.memError s.cur pa 0 seqCmd 0 (s.thr s.cur).pc else s
      match s0.storePa id va pa bs seqCmd (s.thr s.cur).pc.toNat false with
      | (s1, .ok) => (s1, true)
      | (s1, .laid) => (s1, true)
      | (s1, .full) => (s1.stalled s1.cur, false)
      | (s1, .integrity _) => (s1.seqEnd 0x14 (BitVec.ofNat 64 (va / 64 * 64)), false)
      | (s1, _) => (s1, false)
  | .pageFault =>
    match s.layStore id va bs seqCmd (s.thr s.cur).pc.toNat false true with
    | (s1, .laid) => (s1, true)
    | (s1, _) => (s1.modThr s1.cur (fun t =>
        { t with held := .fault (BitVec.ofNat 64 va), waitSince := some (t.waitSince.getD s1.cycle) }), false)

/-- A store of the low n bytes of g[src]. -/
def State.store (s : State) (src a : Reg) (off : BitVec 16) (n : Nat) : Out :=
  s.strict [a, src] [] (fun t =>
    let ea := t.get a + sext16 off
    if ea.toNat % n != 0 then .next (s.trap s.cur 0x02 ea)
    else if t.acquiring then .next (s.stalled s.cur)
    else
      let (s1, acc) := s.seqTranslate .store ea.toNat
      let (s2, done) := s1.seqStore ea.toNat acc (leList n (t.get src).toNat)
      .next (if done then s2.retire s2.cur id else s2))

def execSb (src a : Reg) (off : BitVec 16) (s : State) : Out := s.store src a off 1
def execSh (src a : Reg) (off : BitVec 16) (s : State) : Out := s.store src a off 2
def execSw (src a : Reg) (off : BitVec 16) (s : State) : Out := s.store src a off 4
def execSd (src a : Reg) (off : BitVec 16) (s : State) : Out := s.store src a off 8

/-! ## Atomics (R117, R118) -/

/-- The atomic operations of R117. -/
inductive Aop where
  | swp | add | and | or | xor | min | max | minn | maxn | cas
  deriving DecidableEq, Repr, Inhabited
/-- Operation of a code; codes 10 to 15 are unassigned. -/
def aopOfCode : Nat → Option Aop
  | 0 => some .swp | 1 => some .add | 2 => some .and | 3 => some .or | 4 => some .xor | 5 => some .min
  | 6 => some .max | 7 => some .minn | 8 => some .maxn | 9 => some .cas | _ => none
/-- The new value of a word of n bytes: old, operand, compare value, each below 2^(8n). -/
def aopNew (o : Aop) (n old b cmp : Nat) : Nat :=
  let w := 8 * n
  let si (v : Nat) : Int := (BitVec.ofNat w v).toInt
  match o with
  | .swp => b
  | .add => (old + b) % 2 ^ w
  | .and => Nat.land old b
  | .or => Nat.lor old b
  | .xor => Nat.xor old b
  | .min => if si b < si old then b else old
  | .max => if si old < si b then b else old
  | .minn => if b < old then b else old
  | .maxn => if old < b then b else old
  | .cas => if old = cmp then b else old
/-- The register value of an old value (R117). -/
def aopResult (o : Aop) (n old : Nat) : Word :=
  match o with
  | .minn | .maxn => zextN n old
  | _ => sextN n old

/-- Whether an order of an atomic releases, and whether it acquires (R94, R117). -/
def ordReleases (o : AtomOrd) : Bool := o == .rel || o == .ar
def ordAcquires (o : AtomOrd) : Bool := o == .acq || o == .ar
/-- Read and write one word in memory, past the hold (R118): a visibility event outside the private stack.
DEDUCED, log entries 7 and 25. -/
def State.atomicAt (s : State) (o : Aop) (ord : AtomOrd) (d : Reg) (n va pa : Nat) (poison stack : Bool) (b cmp : Nat) : State :=
  let id := s.taskAt s.cur
  let old := if poison then 0 else leVal (s.bytes pa n)
  let s1 := if stack then s else s.noteRead id [pa / 64]
  let (s2, ok) := s1.seqDirect va pa (leList n (aopNew o n old b cmp))
  if !ok then s2
  else
    let s3 := if stack then s2 else ((s2.move id pa n).strike pa n).visible id [pa / 64] []
    s3.retire s3.cur (fun t => (if ordReleases ord then t.closeLoads else t).await
      { d := d, kind := .value, v := aopResult o n old, poison := poison, due := s.readDue va, dev := s.readDev va })

/-- Whether a release of a task has to wait: a store of it lies in the lay-by log. DEDUCED, log entry 73. -/
def Task.laidPlain (t : Task) : Bool := t.lays.any (fun l => l.intent == none && !l.ext)
/-- Memory as a task sees it: with its held bytes. -/
def State.seenMem (s : State) (id : Nat) : SMap Byte :=
  (s.task id).hold.foldl (fun m p => match p.2 with | some b => mset m p.1 b | none => m) s.mem
/-- An acquire of a context: its fetches see memory as it now stands (R108). -/
def State.acquire (s : State) (c : Ctx) : State :=
  { s with codeSeen := mset s.codeSeen c.toNat (s.seenMem (s.taskAt c)) }
/-- Whether an atomic at n bytes of memory comes behind the held stores of its task: it releases, a release fence came
before it, or it would pass over a store of its own word (R78, R93, R94). -/
def State.behindHold (s : State) (c : Ctx) (o : AtomOrd) (pa n : Nat) : Bool :=
  ordReleases o || (s.thr c).fenced || (s.task (s.taskAt c)).hold.any (fun p => pa ≤ p.1 && p.1 < pa + n)

/-- An atomic. In the private stack it orders nothing beyond the task (R118); else it waits for the head group, its
release performs the held stores first, and its acquire reaches the fetches of its context. -/
def State.atomic (s : State) (o : Aop) (d a b : Reg) (ord : AtomOrd) (sc : Scope) (dbl : Bool) : Out :=
  let n := if dbl then 8 else 4
  let id := s.taskAt s.cur
  s.strict (if o == .cas then [a, b, d] else [a, b]) [d] (fun t =>
    let va := (t.get a).toNat
    let stack := (s.task id).inStack va
    if va % n != 0 then .next (s.trap s.cur 0x02 (t.get a))
    else if t.acquiring || (!stack && (!s.inHeadGroup id || (s.task id).laidByte va n ||
        ((ordReleases ord || t.fenced) && (s.task id).laidPlain))) then .next (s.stalled s.cur)
    else
      let (s1, acc) := s.seqTranslate .store va
      match acc with
      | .pageFault => .next (s1.holdThread 0x08 (t.get a))
      | .prot => .next (s1.trap s1.cur 0x0A (t.get a))
      | .owner => .next (s1.seqEnd 0x31 (t.get a))
      | .ok pa poison _ tag =>
        if s1.place pa == .registers then .next (s1.trap s1.cur 0x0A (t.get a))
        else if s1.hardMem pa && tag != 0 then .next (s1.memError s1.cur pa tag seqCmd 0 t.pc)
        else
          let bad := s1.hardMem pa
          let s2 := if bad then s1.memError s1.cur pa 0 seqCmd 0 t.pc else s1
          let s3 := if !stack && s2.behindHold s2.cur ord pa n then s2.releaseHold id else s2
          let s4 := s3.atomicAt o ord d n va pa (bad || poison) stack
            ((t.get b).toNat % 2 ^ (8 * n)) ((t.get d).toNat % 2 ^ (8 * n))
          .next (if !stack && ordAcquires ord && sc != .lane then s4.acquire s4.cur else s4))

def execAswp (d a b : Reg) (o : AtomOrd) (sc : Scope) (w : Bool) (s : State) : Out := s.atomic .swp d a b o sc w
def execAadd (d a b : Reg) (o : AtomOrd) (sc : Scope) (w : Bool) (s : State) : Out := s.atomic .add d a b o sc w
def execAand (d a b : Reg) (o : AtomOrd) (sc : Scope) (w : Bool) (s : State) : Out := s.atomic .and d a b o sc w
def execAor (d a b : Reg) (o : AtomOrd) (sc : Scope) (w : Bool) (s : State) : Out := s.atomic .or d a b o sc w
def execAxor (d a b : Reg) (o : AtomOrd) (sc : Scope) (w : Bool) (s : State) : Out := s.atomic .xor d a b o sc w
def execAmin (d a b : Reg) (o : AtomOrd) (sc : Scope) (w : Bool) (s : State) : Out := s.atomic .min d a b o sc w
def execAmax (d a b : Reg) (o : AtomOrd) (sc : Scope) (w : Bool) (s : State) : Out := s.atomic .max d a b o sc w
def execAminn (d a b : Reg) (o : AtomOrd) (sc : Scope) (w : Bool) (s : State) : Out := s.atomic .minn d a b o sc w
def execAmaxn (d a b : Reg) (o : AtomOrd) (sc : Scope) (w : Bool) (s : State) : Out := s.atomic .maxn d a b o sc w
def execAcas (d a b : Reg) (o : AtomOrd) (sc : Scope) (w : Bool) (s : State) : Out := s.atomic .cas d a b o sc w

/-! ## Fences (R93, R119) -/

/-- A fence. An acquire stalls until every earlier load and acquire has landed, and reaches the fetches of its context.
Every earlier write that was written through or performed directly has been performed at its step, and held stores need
no stall; a release stalls while an earlier store lies in the lay-by log (R93, R98). DEDUCED, log entries 3, 71 and 73. -/
def execFence (kind : FenceKind) (sc : Scope) (s : State) : Out :=
  let t := s.thr s.cur
  let k := s.task (s.taskAt s.cur)
  let waits := t.pend.any (fun p => match p.kind with | .value => true | .link _ => true | _ => false)
  if (kind != .rel && waits) || (kind != .acq && k.laidPlain) then .next (s.stalled s.cur)
  else
    let s1 := if kind != .rel && sc != .lane then s.acquire s.cur else s
    .next (s1.retire s.cur (fun t => { (if kind == .acq then t else t.closeLoads) with fenced := t.fenced || (kind != .acq && k.hold != []) }))

end Sys2Proof.Machine
end

