-- ==== Sys2Proof/Machine/SeqSys.lean ====
section
/-!
DEFINITION. The S-form instructions, `trap` and `brk` (R122, R123), and the invalidation of translations with
its repatch of extents (R255 to R257).
-/

namespace Sys2Proof.Machine

/-! ## Extents and invalidation -/

/-- The extent of a unit from the PTE as it stands; 0 for a faulting one. -/
def State.extentOf (s : State) (tenant : BitVec 16) (unit : Nat) : Word :=
  match s.walk tenant.toNat (unit * 65536) with
  | .leaf p lv _ => extLeaf p (leafSize lv p) unit
  | _ => 0
/-- Whether a held extent lies in the page, of its own size, that holds an address. -/
def extCovers (pte : Word) (unit va : Nat) : Bool :=
  let size := sizeOfCode (pte.toNat / 2 ^ 60 % 8)
  unit * 65536 / size == va / size
/-- Repatch the extents of a task that an invalidation covers (R256). -/
def State.repatch (s : State) (id : Nat) (page : Option Nat) : State :=
  let t := s.task id
  (t.extents.filter (fun p => match page with | none => true | some va => extCovers p.2 p.1 va)).foldl (fun s p =>
    s.patchUnit id p.1 (t.listsWrite p.1)) s

/-- Fill a page with zero data and zero checks (R255). -/
def State.fillZero (s : State) (frame size : Nat) : State :=
  { s with mem := mcut (frame * 65536) size s.mem, checks := mcut (frame * 1024) (size / 64) s.checks }
/-- Pages of a context that an invalidation covers and that were dead, as a walk or an earlier invalidation has met them or
as the host's own write shows: a revived one is filled with zeros, and the pages that are dead now are remembered (R255). -/
def State.revive (s : State) (tenant : BitVec 16) (page : Option Nat) : State :=
  let s1 := (s.dead.filter (fun d => d.1 == tenant && (match page with
      | none => true
      | some va => d.2.1 ≤ va && va < d.2.1 + d.2.2))).foldl (fun s d =>
    match s.walk tenant.toNat d.2.1 with
    | .leaf p lv _ =>
      if pteBit p 10 then { (s.fillZero (pteFrame p) (leafSize lv p)) with dead := s.dead.filter (· != d) } else s
    | _ => s) s
  let pages := match page with
    | none => s1.pagesFrom 4 (s1.ctxEntry tenant.toNat).root 0
    | some va => match s1.walk tenant.toNat va with
      | .leaf p lv _ => [(va / leafSize lv p * leafSize lv p, leafSize lv p, p)]
      | _ => []
  let s2 := pages.foldl (fun (s : State) q => match s.walk tenant.toNat q.1 with
    | .leaf p lv a =>
      if s.raised.contains a then { (if pteBit p 10 then s.fillZero (pteFrame p) (leafSize lv p) else s) with
        raised := s.raised.filter (· != a) } else s
    | _ => s) s1
  pages.foldl (fun s q =>
    let mark := (tenant, q.1, q.2.1)
    if pteBit q.2.2 10 || s.dead.contains mark then s else { s with dead := mark :: s.dead }) s2

/-- Pins of a die that an invalidation covers take the PTE as it stands, with Accessed set, or fall away (R253, R254). -/
def State.repin (s : State) (tenant : BitVec 16) (page : Option Nat) (d : Nat) : State :=
  (mget s.pins d).foldl (fun s e =>
    if (tlbDrop tenant page [e]).isEmpty then
      let s1 : State := { s with pins := mmod s.pins d (fun l => l.erase e) }
      match s1.walk tenant.toNat e.base with
      | .leaf p lv a =>
        let p2 := markPte false p
        let size := leafSize lv p
        let s2 := s1.markWord 0 a p p2
        { s2 with pins := mmod s2.pins d (fun l => l ++
            [{ tenant := tenant, base := e.base / size * size, size := size, pte := BitVec.ofNat 64 p2 }]) }
      | _ => s1
    else s) s

/-- Invalidate a page at every size, or a whole context, in some regions and dies, and repatch the extents of
the tasks there (R122, R256, R257). -/
def State.invalidate (s : State) (tenant : BitVec 16) (page : Option Nat) (regions dies : List Nat) : State :=
  let s1 := s.revive tenant page
  let s2 := dies.foldl (fun s d => s.repin tenant page d) { s1 with
    tlb1 := regions.foldl (fun m r => mmod m r (tlbDrop tenant page)) s1.tlb1
    tlb2 := dies.foldl (fun m d => mmod m d (tlbDrop tenant page)) s1.tlb2 }
  ((s2.tasks.filter (fun p => p.2.tenant == tenant && regions.contains (regionOf p.2.ctx))).map (·.1)).foldl
    (fun s id => s.repatch id page) s2

/-! ## S-form instructions (R101, R102, R122) -/

/-- A privileged instruction in user mode raises 0x03 (R101). DESIGN CHOICE, log entry 9. -/
def State.privileged (s : State) (k : Out) : Out :=
  let t := s.thr s.cur
  if t.sup then k else .next (s.trap s.cur 0x03 t.pc)
/-- The checks of `mfs` and `mts`, privilege before assignment (R122). -/
def State.sysCheck (s : State) (n : Nat) (ok : Bool) (k : Out) : Out :=
  let t := s.thr s.cur
  if n ≥ 0x100 && !t.sup then .next (s.trap s.cur 0x03 t.pc)
  else if !ok then .next (s.trap s.cur 0x01 t.pc)
  else k

def execMfs (d : Reg) (sys : BitVec 12) (s : State) : Out :=
  s.sysCheck sys.toNat (sysAssigned sys.toNat)
    (s.intOp d [] 1 (fun _ => s.sysRead s.cur sys.toNat))
def execMts (a : Reg) (sys : BitVec 12) (s : State) : Out :=
  s.sysCheck sys.toNat (sysWritable sys.toNat)
    (s.strict [a] [] (fun t => .next (s.retire s.cur (fun u => u.sysWrite sys.toNat (t.get a)))))
def execEret (s : State) : Out := s.privileged (.next (s.trapReturn s.cur))
/-- `wait` idles until a message enters the mailbox, an island finishes or the time is up; each of them sets
`woken` of a thread that idles, held by a page fault meanwhile or not. -/
def execWait (s : State) : Out :=
  if (s.thr s.cur).woken then .next (s.retire s.cur id)
  else .next ((s.stalled s.cur).modThr s.cur (fun t => { t with idle := some (t.idle.getD s.cycle) }))
def execTlbinv (a : Reg) (s : State) : Out :=
  s.privileged (s.strict [a] [] (fun t =>
    let s1 := s.invalidate (s.task (s.taskAt s.cur)).tenant
      (if a = 0 then none else some (t.get a).toNat) [regionOf s.cur] [dieOf s.cur]
    .next (s1.retire s1.cur id)))

/-! ## Software traps (R123) -/

def execTrap (imm : BitVec 16) (s : State) : Out := .next (s.trap s.cur 0x05 (zext16 imm))
def execBrk (imm : BitVec 16) (s : State) : Out := .next (s.trap s.cur 0x04 (zext16 imm))

end Sys2Proof.Machine
end

