-- ==== Sys2Proof/Machine/Records.lean ====
section
/-!
DEFINITION. Command records as the loader, `cmdw` and the engines see them: geometry of the ports, loop nests
(R239), the streams that address words name (R32, R38), the checks of each engine's records (R231, R238, R243 to
R249, R269 to R282, R300, R319, R347, R374), and what a `cmdw` may patch (R130, R235, R272, R302).
-/

namespace Sys2Proof.Machine

/-! ## Geometry -/

/-- Edge element of a stream port (R6). -/
def portElem (port : Nat) (edge : Bool) : Nat := (2 * port + edge.toNat) * 32 + 31
/-- West element e of a loom port (R285). -/
def westElem (port e : Nat) : Nat := (4 * port + e) * 32
/-- South element (15,c). -/
def southElem (c : Nat) : Nat := 15 * 32 + c
/-- Whether an island contains the whole south row. -/
def southRow (d : IslandDesc) : Bool := islHas d (southElem 0) && islHas d (southElem 31)

/-! ## Records -/

/-- The common word of a command (R233). -/
def hdrOf : Instr → Option CmdHdr
  | .sIn r | .sInPlane r | .sOut r | .sGath r | .sScat r | .sCopy r => some r.hdr
  | .whRed r => some r.hdr
  | .whFilt r => some r.hdr
  | .mxWload r => some r.hdr
  | .mxSwap h => some h
  | .mxStep r => some r.hdr
  | .mxEpi r => some r.hdr
  | .mxZero r => some r.hdr
  | .mxDrain r => some r.hdr
  | .gRun r => some r.hdr
  | .camGath r | .camGathDepth r | .camScat r | .camProj r => some r.hdr
  | .attentionQueueJoin _ r | .atApp r | .atSel r | .atAtt r | .atTrunc r => some r.hdr
  | .lCollReduce r | .lCollAllgather r | .lCollBroadcast r => some r.hdr
  | _ => none
/-- The command at an index of a context's table, as it stands. -/
def State.cmdAt (s : State) (c : Ctx) (k : Nat) : Option Instr := readRec (s.cmdRec c k)
/-- Number of records in a context's table. -/
def State.tableLen (s : State) (c : Ctx) : Nat := (s.plane c).cmds.length
/-- Commands of a context that are bound to an island, with their indices. -/
def State.cmdsOf (s : State) (c : Ctx) (i : Nat) : List (Nat × Instr) :=
  (List.range (s.tableLen c)).filterMap (fun k => match s.cmdAt c k with
    | some x => if (hdrOf x).any (·.island.toNat == i) then some (k, x) else none
    | none => none)
/-- The virtual address of an address word of a command of a context. -/
def State.vaOf (s : State) (c : Ctx) (k word : Nat) (raw : BitVec 52) : Nat :=
  vaIn (s.task (s.taskAt c)).streams (s.cmdRec c k) word raw

/-! ## Loop nests (R239) -/

/-- Stride as a signed number. -/
def Lvl.step (l : Lvl) : Int := l.stride.toInt
/-- Number of iterations. -/
def nestN (ls : List Lvl) : Nat := ls.foldl (fun n l => n * l.count.toNat) 1
/-- Offset of flat iteration f, innermost level first. -/
def nestOff : List Lvl → Nat → Int
  | [], _ => 0
  | l :: ls, f => if l.count.toNat = 0 then 0
    else ((f % l.count.toNat : Nat) : Int) * l.stride.toInt + nestOff ls (f / l.count.toNat)
/-- Least and greatest offset over the nest. -/
def nestMin (ls : List Lvl) : Int :=
  (ls.map (fun l => let m := ((l.count.toNat - 1 : Nat) : Int) * l.stride.toInt; if m < 0 then m else 0)).foldl (· + ·) 0
def nestMax (ls : List Lvl) : Int :=
  (ls.map (fun l => let m := ((l.count.toNat - 1 : Nat) : Int) * l.stride.toInt; if 0 < m then m else 0)).foldl (· + ·) 0
/-- The levels of a stream record; `s.copy` has four. -/
def StreamRec.levels (r : StreamRec) (copy : Bool) : List Lvl :=
  if copy then [r.l1, r.l2, r.l3, r.l4] else [r.l1, r.l2, r.l3, r.l4, r.l5]
/-- Bytes of an element (R236). -/
def StreamRec.bytes (r : StreamRec) : Nat := 2 ^ r.esize.toNat
/-- Iterations of a beat (R239). -/
def StreamRec.perBeat (r : StreamRec) : Nat := if r.esize.toNat ≥ 4 then 1 else 16 / 2 ^ r.esize.toNat
/-- Beats of an s.in, s.out or s.copy. -/
def StreamRec.beats (r : StreamRec) (copy : Bool) : Nat :=
  (nestN (StreamRec.levels r copy) + StreamRec.perBeat r - 1) / StreamRec.perBeat r
/-- Row bytes and beats per element of plane mode (R245). -/
def StreamRec.rowBytes (r : StreamRec) : Nat := if r.pfmt = 1 then 1024 else 512
def StreamRec.bpr (r : StreamRec) : Nat := if r.pfmt = 1 then 2 else 1

/-! ## Checks of one record -/

/-- Whether accesses of `size` bytes at offsets mn to mx of an address word stay in its stream's range, and its
own offset does (R32, R238). -/
def fits (o : Option (Strm × Nat)) (mn mx : Int) (size : Nat) : Bool :=
  match o with
  | none => false
  | some (st, off) =>
    st.lo ≤ off && off < st.hi && (st.lo : Int) ≤ (off : Int) + mn && (off : Int) + mx + size ≤ st.hi
/-- A nest's accesses stay in the range; a nest of no iterations accesses nothing. -/
def nestFits (o : Option (Strm × Nat)) (ls : List Lvl) (size : Nat) : Bool :=
  if nestN ls = 0 then fits o 0 0 0 else fits o (nestMin ls) (nestMax ls) size
/-- Whether an address word is aligned. -/
def aligned (o : Option (Strm × Nat)) (n : Nat) : Bool :=
  match o with
  | none => false
  | some (st, off) => (st.va + off) % n == 0
/-- A completion word: absent, or aligned to 8 (R19). -/
def cwOk (o : Option (Strm × Nat)) (raw : BitVec 52) : Bool := (o.isNone && raw == 0) || aligned o 8
/-- Strides that are multiples of an element. -/
def stridesOk (ls : List Lvl) (n : Nat) : Bool := ls.all (fun l => l.stride.toInt % n == 0)
/-- Loop-level words that a command does not use hold count 1 and stride 0. -/
def unusedOk (r : CmdRec) (ws : List Nat) : Bool := ws.all (fun w => r.words.getD w 0 == 1)

/-- Bytes of a row of a format code of `mx.epi`. -/
def ofmtBytes (f : Nat) : Nat := match f with | 0 => 4 | 1 => 2 | 2 => 2 | _ => 1
/-- Width of a weight format (R270). -/
def wfmtBits (f : Nat) : Nat := match f with | 0 => 8 | 1 => 8 | 2 => 4 | 3 => 16 | 4 => 8 | _ => 4
def up64 (n : Nat) : Nat := (n + 63) / 64 * 64
/-- Sizes of the three sections of a tile image, each rounded up to 64 (R270). -/
def tileSections (fmt blk kb nb : Nat) : Nat × Nat × Nat :=
  let kt := 64 * (kb + 1)
  let nt := 16 * (nb + 1)
  (up64 (kt * nt * wfmtBits fmt / 8), if fmt ≤ 2 then up64 (nt * kt / (8 * 2 ^ blk)) else 0, up64 (2 * nt * kt / 64))
def tileBytes (fmt blk kb nb : Nat) : Nat :=
  let (a, b, c) := tileSections fmt blk kb nb
  a + b + c
/-- Beats per iteration of a step (R276). -/
def MxStepRec.bpr (r : MxStepRec) : Nat := if r.afmt = 3 then 2 else 1
/-- Bytes of an element of `wh.red` and of `l.coll`. -/
def redBytes : RedTy → Nat | .bf16 => 2 | _ => 4
def collBytes : CollTy → Nat | .bf16 => 2 | _ => 4

/-- The checks that the loader makes of one record and `cmdw` of a patched one. -/
def recOk (isls : List IslandDesc) (strs : List Strm) (acc : Nat) (r : CmdRec) (i : Instr) : Bool :=
  let isl := isls.getD ((hdrOf i).map (·.island.toNat) |>.getD 64) {}
  let known := decide (((hdrOf i).map (·.island.toNat) |>.getD 64) < isls.length)
  let st (w : Nat) := refOf strs r w
  let edge (p : BitVec 3) (e : Bool) := islHas isl (portElem p.toNat e)
  -- what runs in wharf nodes, and the matrix array but for its loads, reaches device memory alone (R8)
  let dev (w : Nat) := (st w).any (fun q => q.1.device)
  known && match i with
  | .sIn x | .sOut x =>
    edge x.port x.edge && aligned (st 6) (StreamRec.bytes x) && stridesOk (StreamRec.levels x false) (StreamRec.bytes x)
      && nestFits (st 6) (StreamRec.levels x false) (StreamRec.bytes x)
  | .sInPlane x => edge x.port x.edge && southRow isl && nestFits (st 6) (StreamRec.levels x false) (StreamRec.rowBytes x)
  | .sGath x | .sScat x =>
    edge x.port x.edge && (i == .sGath x || edge x.port (!x.edge)) && (x.esize == 2 || x.esize == 4)
      && unusedOk r [2, 3, 4, 5] && aligned (st 6) (StreamRec.bytes x) && stridesOk [x.l1] (StreamRec.bytes x)
      && fits (st 6) 0 0 0
  | .sCopy x =>
    let ls := StreamRec.levels x true
    aligned (st 6) (StreamRec.bytes x) && aligned (st 5) (StreamRec.bytes x) && stridesOk ls (StreamRec.bytes x)
      && nestFits (st 6) ls (StreamRec.bytes x) && nestFits (st 5) ls (StreamRec.bytes x)
  | .whRed x =>
    let e := redBytes x.ty
    dev 3 && dev 4 && dev 6 && aligned (st 3) 4 && aligned (st 4) e && aligned (st 6) e && cwOk (st 5) x.cw && stridesOk [x.bags, x.inds] e
      && fits (st 3) 0 (4 * (x.bags.count.toNat * x.inds.count.toNat : Nat)) 0
      && nestFits (st 4) [x.bags] x.row.toNat && fits (st 6) 0 0 0
  | .whFilt x =>
    dev 6 && edge x.port x.edge && aligned (st 6) 16 && stridesOk [x.l1, x.l2, x.l3] 16 && nestFits (st 6) [x.l1, x.l2, x.l3] 16
  | .mxWload x =>
    unusedOk r [1, 2, 3, 4, 5] && aligned (st 6) 64 && (match st 6 with | some (s, _) => !s.device | none => false)
      && fits (st 6) 0 0 (tileBytes x.wfmt.toNat x.blk.toNat x.kb.toNat x.nb.toNat)
  | .mxSwap _ => unusedOk r [1, 2, 3, 4, 5]
  | .mxStep x =>
    unusedOk r [3, 4, 5] && x.bank.toNat % 16 == 0 && stridesOk [x.l1, x.l2] 16 && x.acccol.toNat < acc
      && (nestN [x.l1, x.l2] == 0 || (0 ≤ (x.bank.toNat : Int) + nestMin [x.l1, x.l2] &&
        (x.bank.toNat : Int) + nestMax [x.l1, x.l2] ≤ 65536 - 16 * (MxStepRec.bpr x : Int)))
  | .mxEpi x =>
    let n := ofmtBytes x.ofmt.toNat
    dev 6 && unusedOk r [2, 3, 4, 5] && x.acccol.toNat + x.cols1.toNat + 1 ≤ acc && aligned (st 6) n && stridesOk [x.l1] n
      && nestFits (st 6) [x.l1] (n * (x.cols1.toNat + 1))
  | .mxZero x => unusedOk r [2, 3, 4, 5] && x.l1.stride == 0 && x.acccol.toNat + x.cols1.toNat + 1 ≤ acc
  | .mxDrain x =>
    unusedOk r [2, 3, 4, 5] && x.l1.stride == 0 && southRow isl && x.acccol.toNat + 128 * (1 + x.wide.toNat) ≤ acc
  | .gRun x =>
    unusedOk r [2, 3, 4, 5] && (r.words.getD 1 0).toNat / 2 ^ 24 == 0
      && (List.range 4).all (fun e => islHas isl (westElem x.port.toNat e))
  | .camGath x => edge x.port x.edge
  | .camGathDepth x | .camScat x => edge x.port x.edge && edge x.port (!x.edge)
  | .camProj x => edge x.port x.edge && [x.l1, x.l2, x.l3, x.l4, x.l5].all (·.stride == 0)
  | .atApp x =>
    aligned (st 2) 8 && fits (st 2) 0 0 8 && aligned (st 3) 64 && x.rows.stride.toInt % 64 == 0 && cwOk (st 6) x.cw
      && nestFits (st 3) [x.rows] 256
  | .atSel x =>
    aligned (st 2) 8 && fits (st 2) 0 0 8 && aligned (st 3) 64 && aligned (st 4) 64 && x.rows.stride.toInt % 64 == 0
      && cwOk (st 6) x.cw && x.sinks.toNat + x.recent.toNat ≤ x.limit1.toNat + 1
      && nestFits (st 3) [x.rows] 192 && fits (st 4) 0 (2112 * (x.rows.count.toNat : Nat)) 0
  | .atAtt x =>
    aligned (st 2) 8 && fits (st 2) 0 0 8 && aligned (st 3) 64 && aligned (st 4) 64 && aligned (st 5) 64
      && x.rows.stride.toInt % 64 == 0 && cwOk (st 6) x.cw && nestFits (st 3) [x.rows] 192
      && fits (st 4) 0 (2112 * (x.rows.count.toNat : Nat)) 0 && fits (st 5) 0 (320 * (x.rows.count.toNat : Nat)) 0
  | .atTrunc x => aligned (st 2) 8 && fits (st 2) 0 0 8 && x.rows.stride == 0 && cwOk (st 6) x.cw
  | .lCollReduce x | .lCollAllgather x | .lCollBroadcast x =>
    let n := x.n.toNat * collBytes x.ty
    (r.words.getD 1 0).toNat / 2 ^ 24 == 0 && (x.op == .broadcast || (r.words.getD 6 0).toNat / 2 ^ 8 % 2 ^ 10 == 0)
      && aligned (st 2) 64 && aligned (st 3) 64 && aligned (st 4) 64 && cwOk (st 5) x.cw
      && fits (st 2) 0 n 0 && fits (st 3) 0 n 0 && fits (st 4) 0 64 0
  | _ => false

/-! ## What `cmdw` may patch -/

/-- Whether a command has a field that `cmdw` may patch (R235, R247, R272, R302, R319, R347, R374). -/
def cmdwField (i : Instr) (field : Nat) : Bool :=
  match i with
  | .sIn _ | .sInPlane _ | .sOut _ | .sGath _ | .sScat _ => field ≤ 12
  | .sCopy _ => field ≤ 12 && field != 5 && field != 10
  | .whRed _ => [0, 1, 2, 6, 7, 12].contains field
  | .whFilt _ => [0, 1, 2, 3, 6, 7, 8, 11, 12].contains field
  | .mxWload _ | .mxEpi _ => field ≤ 12 && field != 11
  | .mxSwap _ | .mxStep _ | .mxZero _ | .mxDrain _ => field ≤ 10
  | .gRun _ => [0, 1, 11].contains field
  | .camGath _ | .camGathDepth _ | .camScat _ | .camProj _ => field ≤ 11
  | .atApp _ | .atSel _ | .atAtt _ => [0, 1, 6, 12].contains field
  | .atTrunc _ => [0, 1, 6].contains field
  | .lCollReduce _ | .lCollAllgather _ | .lCollBroadcast _ => [0, 1, 6, 12].contains field
  | _ => false
/-- The address word that field 12 moves. -/
def offsetWord (i : Instr) : Nat :=
  match i with
  | .atApp _ | .atSel _ | .atAtt _ => 3
  | .lCollReduce _ | .lCollAllgather _ | .lCollBroadcast _ => 2
  | _ => 6
/-- Whether a value lies in a field's range (R130). -/
def cmdwRange (field : Nat) (v : Word) : Bool :=
  if field = 0 then v.toNat < 2 ^ 32
  else if field ≤ 5 then v.toNat < 2 ^ 24
  else if field ≤ 10 then -(2 ^ 39 : Int) ≤ v.toInt && v.toInt < 2 ^ 39
  else if field = 11 then 1 ≤ v.toNat && v.toNat < 2 ^ 16
  else v.toNat < 2 ^ 48
/-- Replace n bits of a word from bit lo. -/
def putField (w : Word) (lo n : Nat) (v : Nat) : Word :=
  BitVec.ofNat 64 (w.toNat - w.toNat / 2 ^ lo % 2 ^ n * 2 ^ lo + v % 2 ^ n * 2 ^ lo)
/-- A record with a field patched; field 12 moves the offset of its stream. -/
def patchRec (r : CmdRec) (i : Instr) (field : Nat) (v : Word) : CmdRec :=
  if field = 0 then { r with words := r.words.modify 0 (putField · 0 32 v.toNat) }
  else if field ≤ 5 then { r with words := r.words.modify field (putField · 0 24 v.toNat) }
  else if field ≤ 10 then { r with words := r.words.modify (field - 5) (putField · 24 40 v.toNat) }
  else if field = 11 then { r with words := r.words.modify 7 (putField · 0 16 v.toNat) }
  else { r with refs := r.refs.map (fun f => if f.word = offsetWord i then { f with off := v.toNat } else f) }

end Sys2Proof.Machine
end

