-- ==== Sys2Proof/Machine/SeqCtl.lean ====
section
/-!
DEFINITION. Task control, engine controls and link instructions of the sequencer (R124 to R136), and the lock
groups of islands (R204).
-/

namespace Sys2Proof.Machine

/-! ## Islands (R43, R124, R125, R204) -/

/-- Whether two rectangles share an edge. -/
def adjoin (a b : IslandDesc) : Bool :=
  let rows := a.top ≤ b.bottom && b.top ≤ a.bottom
  let cols := a.left ≤ b.right && b.left ≤ a.right
  (rows && (a.right + 1 == b.left || b.right + 1 == a.left)) ||
    (cols && (a.bottom + 1 == b.top || b.bottom + 1 == a.top))
/-- Islands reached from a set through links, in n rounds. -/
def spread (ds : List IslandDesc) : Nat → List Nat → List Nat
  | 0, g => g
  | n + 1, g => spread ds n ((List.range ds.length).filter (fun j =>
      g.contains j || g.any (fun i => adjoin (ds.getD i {}) (ds.getD j {}))))
/-- The lock group of an island. -/
def lockGroup (ds : List IslandDesc) (i : Nat) : List Nat := spread ds ds.length [i]

/-- Start one island (R199, R200): its commands are not started, its links and control results stay. -/
def State.startIsland (s : State) (c : Ctx) (i : Nat) : State :=
  let d := (s.plane c).isls.getD i {}
  let s1 := s.setIsl c i { (s.isl c i) with
    running := true, finished := false, ctr := 0, start := (s.isl c i).abs, base := 0, left := d.count, schedB := false
    past := d.count == 0, zero := if d.count = 0 then 2 else 0, issued := false, stall := false }
  (s.cmdsOf c i).foldl (fun s p => s.setRun c p.1 {}) s1
/-- Start a lock group. Its links keep what captures of the last run still wait for; entries that the consumer has not
captured go (R205, R207). -/
def State.startGroup (s : State) (c : Ctx) (g : List Nat) : State :=
  let ds := (s.plane c).isls
  let es := (List.range 512).filter (fun e => g.contains (islandIx ds e))
  let s1 := { s with links := es.foldl (fun m e => (List.range 4).foldl (fun m d =>
    mmod m (4 * eKey c e + d) (fun l => l.filter (fun x => decide (x.n < (s.isl c (islandIx ds e)).abs)))) m) s.links }
  g.foldl (fun s i => s.startIsland c i) s1

/-- `tgo`: it stalls until every island of the group has finished, and until an `lamo` or `mrecv` in flight has acquired for
what the islands access (R94, R95; DEDUCED, log entry 72). The index of an island that the image has not, which
only a computed word can name, starts nothing (DEDUCED, log entry 39). -/
def execTgo (i : BitVec 6) (s : State) : Out :=
  let ds := (s.plane s.cur).isls
  if i.toNat ≥ ds.length then .next (s.retire s.cur id)
  else
    let g := lockGroup ds i.toNat
    if (s.thr s.cur).acquiring || g.any (fun j => (s.isl s.cur j).running) then .next (s.stalled s.cur)
    else
      let s1 := s.startGroup s.cur g
      .next (s1.retire s1.cur (fun t => t.closeLoads))
/-- `twait`; there is nothing to wait for under an index that the image has not (DEDUCED, log entry 39). -/
def execTwait (i : BitVec 6) (s : State) : Out :=
  if (s.isl s.cur i.toNat).running then .next (s.stalled s.cur) else .next (s.retire s.cur id)

/-! ## `tend` (R110, R126, R220, R223) -/

/-- Elements of a context, by index, with what they hold. -/
def State.elemsOf (s : State) (c : Ctx) : List (Nat × Elem) := mslice (c.toNat * 512) 512 s.elems
/-- Whether any register of an element is poisoned (R220). -/
def Elem.poisoned (x : Elem) : Bool := x.res.anyP || x.cres.poison || x.qPoison || x.flagPoison
/-- Report the pending guard access of a task (R223). -/
def State.guardReport (s : State) (id : Nat) (g : GuardHit) : State :=
  (s.modTask id (fun t => { t with guardHit := none })).fabricFault s.cur 0x12 (BitVec.ofNat 64 g.addr) 0 g.elem g.pos true
/-- `tend`: islands, pending writes, poison of registers, a pending guard access, poison of elements, stop. The spec gives no
order of the last three: a register goes first, then the guard access, then the lowest element. DESIGN CHOICE, log entry 87. -/
def execTend (s : State) : Out :=
  let c := s.cur
  let t := s.thr c
  let id := s.taskAt c
  if (List.range 64).any (fun i => (s.isl c i).running) || !t.pend.isEmpty
      || (s.elemsOf c).any (fun p => !p.2.chks.isEmpty) then .next (s.stalled c)
  else match t.firstPoisoned ((List.range 32).map (BitVec.ofNat 5)) with
    | some r => .next (s.trap c 0x13 (BitVec.ofNat 64 r.toNat))
    | none => match (s.task id).guardHit with
      | some g => .next (s.guardReport id g)
      | none => match (s.elemsOf c).find? (fun p => p.2.poisoned) with
        | some (e, _) => .next (s.fabricFault c 0x13 0 0 e (s.islOf c e).ctr true)
        | none => .next ((s.modThr c (fun t => { t with stopped := true, waitSince := none })).modTask id
            (fun t => { t with tended := true }))

/-! ## `tspawn` (R127) and `bar` (R128) -/

/-- The registers that a `tspawn` copies for its child: g8 to g15. DEDUCED, log entry 17. -/
def argRegs : List Reg := [8, 9, 10, 11, 12, 13, 14, 15]
/-- `tspawn`: once head and once its earlier stores and acquires have performed, which the child comes behind, the request, for
which it reads its argument registers too; the reply is the event TSPAWN_REPLY. DEDUCED, log entries 17, 72 and 73. -/
def execTspawn (d a : Reg) (image : BitVec 16) (s : State) : Out :=
  s.strict (a :: argRegs) [d] (fun t =>
    if !s.isHead (s.taskAt s.cur) || t.acquiring || (s.task (s.taskAt s.cur)).laidPlain then .next (s.stalled s.cur)
    else
      let args := argRegs.map t.get
      .next (s.retire s.cur (fun t => { t.closeLoads with pend := t.closeLoads.pend ++
        [{ d := d, kind := .spawn (t.get a) image.toNat args t.pc }] })))

/-- Key of a barrier identifier (R14). -/
def barKey (sc : Scope) (inst id : Nat) : Nat := (32 * scopeNum sc + inst) * 16 + id
/-- Whether a pod barrier may be used: its group is set and names this package (R379). -/
def State.podOk (s : State) (id : Nat) : Bool :=
  let g := (mget s.regs.podBar id).toNat
  g != 0 && (match s.group g with | some (_, ms) => ms.contains s.pkgId | none => false)
/-- `bar`: a pending guard access is reported instead; the task arrives once it is in the head group, its held stores
performing first, and stalls until the episode releases, which is an acquire (R94). DESIGN CHOICE, log entry 71. -/
def execBar (sc : Scope) (b : BitVec 4) (s : State) : Out :=
  let c := s.cur
  let t := s.thr c
  let id := s.taskAt c
  match (s.task id).guardHit with
  | some g => .next (s.guardReport id g)
  | none =>
    if t.barReleased then .next ((s.acquire c).retire c (fun t => t))
    else if t.barArrived || t.acquiring || !s.inHeadGroup id || (s.task id).laidPlain then .next (s.stalled c)
    else if sc == .pod && (!s.podOk b.toNat || !(mget s.bars (barKey .pod 0 b.toNat)).lost.isEmpty) then
      .next (s.seqEnd 0x38 (BitVec.ofNat 64 b.toNat))
    else
      let key := barKey sc (instOf sc c) b.toNat
      let s0 := s.releaseHold id
      let s1 := { s0 with bars := mmod s0.bars key (fun x => { x with arrived := x.arrived ++ [id], last := s.cycle }) }
      .next ((s1.modThr c (fun t => { t.closeLoads with barArrived := true })).stalled c)

/-! ## `cwait` (R129) and `cmdw` (R130) -/

/-- `cwait`: one read an issue, until the word reaches g[b]; it then acquires. -/
def execCwait (d a b : Reg) (sc : Scope) (s : State) : Out :=
  s.strict [a, b] [d] (fun t =>
    let ea := t.get a
    if ea.toNat % 8 != 0 then .next (s.trap s.cur 0x02 ea)
    else if t.acquiring then .next (s.stalled s.cur)
    else match s.seqRead ea.toNat 8 (some ea) with
      | (s1, .stop) => .next s1
      | (s1, .value v _) =>
        if v < (t.get b).toNat then .next (s1.stalled s1.cur)
        else .next ((if sc != .lane then s1.acquire s1.cur else s1).retire s1.cur (fun t =>
          t.await { d := d, kind := .value, v := BitVec.ofNat 64 v, due := s1.readDue ea.toNat, dev := s1.readDev ea.toNat })))

/-- The physical base that the loader, or a `cmdw` to field 12, patches into an address word: for `s.gath` and
`s.scat` the virtual address (R236). -/
def State.patchBase (s : State) (id : Nat) (r : CmdRec) (i : Instr) (word : Nat) : CmdRec × Acc :=
  let t := s.task id
  match refOf t.streams r word with
  | none => (r, .prot)
  | some (st, off) =>
    let va := st.va + off
    let virt := match i with | .sGath _ | .sScat _ => true | _ => false
    match s.extAcc t .load va with
    | .ok pa p d g =>
      ({ r with words := r.words.modify word (fun w => putField w 0 52 (if virt then va else pa)) }, .ok pa p d g)
    | x => (r, x)
/-- `cmdw`: a patch that breaks a rule raises 0x0A and leaves the record unchanged (log entry 9 gives earg); on a record whose
island runs it stalls first, whatever its field and value (DESIGN CHOICE, log entry 87). DEDUCED, log entry 34. -/
def execCmdw (a b : Reg) (field : BitVec 5) (s : State) : Out :=
  s.strict [a, b] [] (fun t =>
    let c := s.cur
    let id := s.taskAt c
    let tk := s.task id
    let k := (t.get b).toNat
    let f := field.toNat
    let v := t.get a
    if k ≥ s.tableLen c then .next (s.trap c 0x0A (t.get b))
    else match s.cmdAt c k with
      | none => .next (s.trap c 0x0A (t.get b))
      | some i =>
        if ((hdrOf i).any (fun h => (s.isl c h.island.toNat).running)) then .next (s.stalled c)
        else if !cmdwField i f || !cmdwRange f v then .next (s.trap c 0x0A v)
        else
          let r := patchRec (s.cmdRec c k) i f v
          match readRec r with
          | none => .next (s.trap c 0x0A v)
          | some j =>
            if !recOk (s.plane c).isls tk.streams tk.acc r j then .next (s.trap c 0x0A v)
            else if f = 12 then
              match s.patchBase id r j (offsetWord j) with
              | (r2, .ok _ _ _ _) => .next ((s.setCmdRec c k r2).retire c (fun t => t))
              | (_, .pageFault) =>
                let va := s.vaOf c k (offsetWord j) 0 + v.toNat
                let va := match refOf tk.streams r (offsetWord j) with
                  | some (st, off) => st.va + off
                  | none => va
                .next ((s.recordAt c 0x08 (BitVec.ofNat 64 va) k 0 0 true false false false).modThr c (fun t =>
                  { t with held := .fault (BitVec.ofNat 64 va), waitSince := some (t.waitSince.getD s.cycle) }))
              | (_, .owner) => .next (s.seqEnd 0x31 v)
              | (_, .prot) => .next (s.trap c 0x0A v)
            else .next ((s.setCmdRec c k r).retire c (fun t => t)))

/-! ## Loom controls (R131 to R133, R297) -/

def execGload (d : Reg) (graph : BitVec 16) (s : State) : Out :=
  s.strict [] [d] (fun t =>
    .next (s.retire s.cur (fun t' => { t' with pend := t'.pend ++ [{ d := d, kind := .gload graph.toNat s.cycle t.pc }] })))

/-- Key of a loom slot. -/
def slotKey (c : Ctx) (n : Nat) : Nat := c.toNat * 16 + n
def State.slot (s : State) (c : Ctx) (n : Nat) : Slot := mget s.slots (slotKey c n)
/-- Whether a running island has a command of which something holds. -/
def State.runningCmd (s : State) (c : Ctx) (p : Instr → Bool) : Bool :=
  (List.range (s.plane c).isls.length).any (fun i => (s.isl c i).running && (s.cmdsOf c i).any (fun q => p q.2))
def execGfree (a : Reg) (s : State) : Out :=
  s.strict [a] [] (fun t =>
    let n := (t.get a).toNat
    if n > 15 then .next (s.retire s.cur id)
    else if s.runningCmd s.cur (fun i => match i with | .gRun r => r.slot.toNat == n | _ => false) then
      .next (s.stalled s.cur)
    else
      let s1 := { s with slots := mset s.slots (slotKey s.cur n) {} }
      .next (s1.retire s1.cur id))
/-- The status word of a slot (R133); a free slot reads as 0. -/
def Slot.status (x : Slot) : Word :=
  if !x.resident then 0
  else BitVec.ofNat 64 (1 + 2 * x.sticky.toNat + 4 * x.graph.strict.toNat + 2 ^ 8 * x.graph.depth +
    2 ^ 16 * x.graph.nodes.length + 2 ^ 36 * x.graph.taps.length + 2 ^ 45 * x.graph.outs.length)
def execGstat (d a : Reg) (s : State) : Out :=
  s.strict [a] [d] (fun t =>
    let n := (t.get a).toNat
    let v := if n > 15 then 0 else (s.slot s.cur n).status
    .next (s.retire s.cur (fun t => t.result s.cycle 1 d v false)))

/-! ## Camera controls (R134, R309) -/

/-- Width of a camera field (R134). -/
def camBits (f : Nat) : Nat := if f = 28 || f = 29 then 16 else if f = 30 then 5 else if f = 34 then 8 else 32
def camKey (c : Ctx) (n : Nat) : Nat := c.toNat * 8 + n
def State.cam (s : State) (c : Ctx) (n : Nat) : Cam := mget s.cams (camKey c n)
def camNames (n : Nat) (i : Instr) : Bool :=
  match i with
  | .camGath r | .camGathDepth r | .camScat r | .camProj r => r.cam.toNat == n
  | _ => false
/-- Set fields of a camera register, with its version. -/
def Cam.put (x : Cam) (fs : List (Nat × W32)) : Cam :=
  { f := fs.foldl (fun m p => mset m p.1 (BitVec.ofNat 32 (p.2.toNat % 2 ^ camBits p.1))) x.f, version := x.version + 1 }
def execCamw (cam : BitVec 3) (a : Reg) (field : BitVec 6) (s : State) : Out :=
  s.strict [a] [] (fun t =>
    if s.runningCmd s.cur (camNames cam.toNat) then .next (s.stalled s.cur)
    else
      let s1 := { s with cams := mmod s.cams (camKey s.cur cam.toNat) (fun x =>
        x.put [(field.toNat, (t.get a).setWidth 32)]) }
      .next (s1.retire s1.cur id))
/-- `camld`; a block that the image has not reads as zeros (DEDUCED, log entry 39). -/
def execCamld (cam : BitVec 3) (block : BitVec 16) (s : State) : Out :=
  if s.runningCmd s.cur (camNames cam.toNat) then .next (s.stalled s.cur)
  else
    let b := (s.task (s.taskAt s.cur)).image.cams.getD block.toNat []
    let s1 := { s with cams := mmod s.cams (camKey s.cur cam.toNat) (fun x =>
      x.put ((List.range 35).map (fun f => (f, mget b f)))) }
    .next (s1.retire s1.cur id)

/-! ## Link instructions (R135, R136) -/

/-- The limits of a descriptor (R135, R136). -/
def linkOk (k : LinkKind) (w0 w1 cw : Nat) : Bool :=
  let aop := w0 / 2 ^ 16 % 16
  let dbl := w0 / 2 ^ 20 % 2
  let len := w0 / 2 ^ 24 % 2 ^ 24
  let sc := w0 / 2 ^ 10 % 8
  w0 / 2 ^ 13 % 8 == 0 && w0 / 2 ^ 21 % 8 == 0 && w0 / 2 ^ 48 == 0 && (cw == 0 || (1 ≤ sc && sc ≤ 5)) &&
    (match k with
    | .amo => aop ≤ 9 && len == 0
    | .send => aop == 0 && dbl == 0 && 1 ≤ len && len ≤ 256 && w1 / 2 ^ 32 == 0
    | _ => aop == 0 && dbl == 0)
/-- Queue a link operation; `pend` says that g[d] waits for it. -/
def State.queueLink (s : State) (o : LinkOp) (pend : Option Reg) : Out :=
  let o := { o with num := s.nextOp, pc := (s.thr s.cur).pc }
  let s1 := { s with nextOp := s.nextOp + 1 }
  let s2 := s1.modTask (s1.taskAt s1.cur) (fun t => { t with links := t.links ++ [o] })
  .next (s2.retire s2.cur (fun t => match pend with
    | some d => { t.closeLoads with pend := t.closeLoads.pend ++ [{ d := d, kind := .link o.num }] }
    | none => t.closeLoads))
/-- An instruction with a descriptor, read at issue. DEDUCED, log entry 33. -/
def State.linkInstr (s : State) (k : LinkKind) (a : Reg) (d : Option Reg) : Out :=
  s.strict [a] (match d with | some d => [d] | none => []) (fun t =>
    let va := t.get a
    if va.toNat % 32 != 0 then .next (s.trap s.cur 0x02 va)
    else if t.acquiring then .next (s.stalled s.cur)
    else match s.seqRead va.toNat 32 (some va) with
      | (s1, .stop) => .next s1
      | (s1, .value v _) =>
        let w (n : Nat) := v / 2 ^ (64 * n) % 2 ^ 64
        if w 3 % 8 != 0 then .next (s1.trap s1.cur 0x02 (BitVec.ofNat 64 (w 3)))
        else if !linkOk k (w 0) (w 1) (w 3) then .next (s1.trap s1.cur 0x01 t.pc)
        else if w 0 / 2 ^ 16 % 16 == 9 && d.any t.poisoned then
          .next (s1.trap s1.cur 0x13 (BitVec.ofNat 64 (d.getD 0).toNat))
        else s1.queueLink
          { num := 0, kind := k, pkg := BitVec.ofNat 10 (w 0), scope := w 0 / 2 ^ 10 % 8
            aop := BitVec.ofNat 4 (w 0 / 2 ^ 16), dbl := w 0 / 2 ^ 20 % 2 == 1, len := w 0 / 2 ^ 24 % 2 ^ 24
            remote := BitVec.ofNat 64 (w 1), local' := BitVec.ofNat 64 (w 2), cw := BitVec.ofNat 64 (w 3)
            arg := match d with | some d => t.get d | none => 0 } d)
def execLput (a : Reg) (s : State) : Out := s.linkInstr .put a none
def execLget (a : Reg) (s : State) : Out := s.linkInstr .get a none
def execLamo (d a : Reg) (s : State) : Out := s.linkInstr .amo a (some d)
def execLsend (a : Reg) (s : State) : Out := s.linkInstr .send a none
def execLnotify (a : Reg) (s : State) : Out :=
  s.strict [a] [] (fun t => s.queueLink { num := 0, kind := .notify, arg := t.get a } none)
def execMrecv (d a : Reg) (s : State) : Out :=
  s.strict [a] [d] (fun t => s.queueLink { num := 0, kind := .recv, arg := t.get a } (some d))

end Sys2Proof.Machine
end

