-- ==== Sys2Proof/Machine/Engine.lean ====
section
/-!
DEFINITION. What the engines share: records and gang ends of a command, reads and writes of a task by granule
(R241, R246, R256), the contexts of a port (R231), the bounds of R20, R232 and R240, captures and takes.
-/

namespace Sys2Proof.Machine

/-! ## Records -/

/-- A record of a command of a task, named by its identifier (R158). -/
def State.engRecord (s : State) (id cmd : Nat) (code : BitVec 8) (addr elem pos : Nat) (held laid ended : Bool) :
    State :=
  let t := s.task id
  s.record { code := code, held := held, laid := laid, ended := ended, gen := 0, task := BitVec.ofNat 32 id
             addr := BitVec.ofNat 64 addr, tenant := t.tenant, ctx := t.ctx, cmd := BitVec.ofNat 9 cmd
             elem := BitVec.ofNat 9 elem, pos := BitVec.ofNat 64 pos }
/-- A fault of a command that ends its gang (R156, R157). -/
def State.engEnd (s : State) (id cmd : Nat) (code : BitVec 8) (addr pos : Nat) : State :=
  (s.engRecord id cmd code addr 0 pos false false true).doom (s.task id).gang code false
/-- A fabric fault of a command of a context at its island's counter (R221). -/
def State.cmdFault (s : State) (c : Ctx) (k : Nat) (code : BitVec 8) (addr elem pos : Nat) : State :=
  s.fabricFault c code (BitVec.ofNat 64 addr) k elem pos false
/-- Island and counter of a command. -/
def State.islOfCmd (s : State) (c : Ctx) (i : Instr) : Isl := s.isl c ((hdrOf i).map (·.island.toNat) |>.getD 64)

/-! ## Reads (R78, R82, R98, R241, R255) -/

/-- Why an access of an engine goes no further. -/
inductive EStop where
  | none
  /-- Held by a page fault at an address (R241). -/
  | held (va : Nat)
  /-- Held by a laid-by byte (R98), or by a full hold (R86). -/
  | wait
  /-- Its gang or context ends. -/
  | ended
  deriving DecidableEq, Repr, Inhabited

/-- Zero bytes that are poisoned. -/
def poisonBytes (n : Nat) : List (Byte × Bool) := List.replicate n (0, true)

/-- Read bytes of one granule for a command. `pol` is the POISON policy, `virt` a translation through the TLB.
DEDUCED, log entry 37. -/
def State.engPiece (s : State) (id cmd pos : Nat) (pol virt : Bool) (va n : Nat) :
    State × List (Byte × Bool) × EStop :=
  let s := if virt then s else s.freshen id false va
  let t := s.task id
  if t.laidByte va n then (s, [], .wait)
  else
    let (s1, a) := if virt then s.translate t.ctx t.tenant t.owner false .load va else (s, s.extAcc t .load va)
    match a with
    | .pageFault =>
      if pol then (s1, poisonBytes n, .none)
      else (s1.engRecord id cmd 0x08 va 0 pos true false false, [], .held va)
    | .prot => (s1.engEnd id cmd 0x0A va pos, [], .ended)
    | .owner => (s1.engEnd id cmd 0x31 va pos, [], .ended)
    | .ok pa poison dead tag =>
      let s2 := (if dead then s1.engRecord id cmd 0x0B va 0 pos false false false else s1).noteRead id [pa / 64]
      if poison then (s2, poisonBytes n, .none)
      else if s2.hardMem pa then
        (s2.memError t.ctx pa tag cmd 0 (BitVec.ofNat 64 pos), poisonBytes n, if tag = 0 then .none else .ended)
      else
        let ok := s2.checkOk (pa / 64)
        let s3 := (if ok then s2 else s2.engRecord id cmd 0x14 (va / 64 * 64) 0 pos false false false).move id pa n
        (s3, (s3.taskBytes id pa n).map (fun b => (b, !ok)), .none)
/-- The pieces of a range by granule. -/
def vaPieces (va n : Nat) : List (Nat × Nat) :=
  (granulesOf va n).map (fun g => (max va (64 * g), min (va + n) (64 * g + 64) - max va (64 * g)))
/-- Read a range granule by granule, up to the first stop. -/
def State.engPieces (s : State) (id cmd pos : Nat) (pol virt : Bool) :
    List (Nat × Nat) → State × List (Byte × Bool) × EStop
  | [] => (s, [], .none)
  | (va, n) :: ps =>
    match s.engPiece id cmd pos pol virt va n with
    | (s1, bs, .none) =>
      let (s2, cs, e) := s1.engPieces id cmd pos pol virt ps
      (s2, bs ++ cs, e)
    | (s1, bs, e) => (s1, bs, e)
def State.engRead (s : State) (id cmd pos : Nat) (pol virt : Bool) (va n : Nat) :
    State × List (Byte × Bool) × EStop :=
  s.engPieces id cmd pos pol virt (vaPieces va n)
/-- The accesses of a beat by granule: iteration, address, bytes. -/
def beatPieces (n : Nat) (ps : List (Nat × Nat)) : List (Nat × Nat × Nat) :=
  ps.flatMap (fun p => (vaPieces p.2 n).map (fun q => (p.1, q.1, q.2)))
/-- The pieces that remain behind bytes already read. -/
def piecesPast : Nat → List (Nat × Nat × Nat) → List (Nat × Nat × Nat)
  | _, [] => []
  | k, p :: ps => if k = 0 then p :: ps else piecesPast (k - p.2.2) ps
/-- Read pieces one after another, each once (R246): the bytes read before a stop, and the iteration that stopped. -/
def State.engRun (s : State) (id cmd : Nat) (pol virt : Bool) :
    List (Nat × Nat × Nat) → State × List (Byte × Bool) × Nat × EStop
  | [] => (s, [], 0, .none)
  | (f, va, n) :: ps =>
    match s.engPiece id cmd f pol virt va n with
    | (s1, bs, .none) =>
      let (s2, cs, g, e) := s1.engRun id cmd pol virt ps
      (s2, bs ++ cs, g, e)
    | (s1, _, e) => (s1, [], f, e)

/-! ## Writes (R72, R77, R86, R89, R98, R246) -/

/-- Write bytes within one granule for a command; `ext` is an external effect. DEDUCED, log entry 37. -/
def State.engPut (s : State) (id cmd pos : Nat) (virt ext : Bool) (va : Nat) (bs : List Byte) : State × EStop :=
  let s := if virt then s else s.freshen id true va
  let t := s.task id
  let (s1, a) := if virt then s.translate t.ctx t.tenant t.owner false .store va else (s, s.extAcc t .store va)
  let hard := match a with
    | .ok pa _ _ tag => if s1.hardMem pa then some (pa, tag) else none
    | _ => none
  let s2 := match hard with
    | some (pa, tag) => s1.memError t.ctx pa tag cmd 0 (BitVec.ofNat 64 pos)
    | none => s1
  if hard.any (fun h => h.2 != 0) then (s2, .ended)
  else match s2.storeAcc id va a bs cmd pos ext with
    | (s3, .ok) => (s3, .none)
    | (s3, .laid) => (s3, .none)
    | (s3, .full) => (s3, .wait)
    | (s3, .heldLog) => (s3, .held va)
    | (s3, .integrity _) => (s3.engEnd id cmd 0x14 (va / 64 * 64) pos, .ended)
    | (s3, .prot) => (s3.engEnd id cmd 0x0A va pos, .ended)
    | (s3, .owner) => (s3.engEnd id cmd 0x31 va pos, .ended)
/-- Write a range granule by granule, up to the first stop. -/
def State.engWrites (s : State) (id cmd pos : Nat) (virt ext : Bool) :
    List (Nat × List Byte) → State × EStop
  | [] => (s, .none)
  | (va, bs) :: ps =>
    match s.engPut id cmd pos virt ext va bs with
    | (s1, .none) => s1.engWrites id cmd pos virt ext ps
    | r => r
def State.engWrite (s : State) (id cmd pos : Nat) (virt ext : Bool) (va : Nat) (bs : List Byte) : State × EStop :=
  s.engWrites id cmd pos virt ext (pieces va bs)

/-! ## Completion words (R19) -/

/-- Add 1 to a completion word, as a direct atomic and a visibility event; an unmapped page lays the increment
by, like a store, and a full log holds it until the next flush (R19, R259); a page that forbids it ends the gang. -/
def State.incWord (s : State) (id cmd va : Nat) (scope : Scope) : State :=
  let s := if va = 0 then s else s.freshen id true va
  let t := s.task id
  if va = 0 then s
  else match s.extAcc t .store va with
    | .ok pa _ _ _ =>
      let (s1, ok) := s.writeGranule pa (leList 8 ((s.word pa + 1) % 2 ^ 64))
      if ok then s1.visible id [pa / 64] [] else s.engEnd id cmd 0x14 (va / 64 * 64) 0
    | .pageFault =>
      let i : Intent := { cmd := cmd, pos := 0, slots := 0, kind := .inc va scope }
      (match s.addLay id { va := va, gen := s.fb.gen, bytes := [], cmd := cmd, pos := 0, intent := some i, ext := true
                           target := va } with
      | some s1 => s1.engRecord id cmd 0x09 va 0 0 false true false
      | none => (s.modTask id (fun t => { t with cws := t.cws ++ [{ va := va, scope := scope, cmd := cmd }] })).engRecord
          id cmd 0x09 va 0 0 true false false)
    | .prot => s.engEnd id cmd 0x0A va 0
    | .owner => s.engEnd id cmd 0x31 va 0

/-! ## Starts, contexts and captures (R17, R231, R239) -/

/-- The port whose context a command holds. -/
def portOf : Instr → Option Nat
  | .sIn r | .sInPlane r | .sOut r | .sGath r | .sScat r | .sCopy r => some r.port.toNat
  | .whRed r => some r.port.toNat
  | .whFilt r => some r.port.toNat
  | .camGath r | .camGathDepth r | .camScat r | .camProj r => some r.port.toNat
  | _ => none
/-- Whether a command has started and not ended. -/
def CmdRun.live (x : CmdRun) : Bool := x.st == .running || x.st == .held
/-- Contexts of a port in use. -/
def State.portUse (s : State) (c : Ctx) (p : Nat) : Nat :=
  ((List.range (s.tableLen c)).filter (fun k =>
    (s.run c k).live && ((s.run c k).ins.bind portOf) == some p)).length
/-- Start the acting command: it needs a context where it names a port, else 0x10 (R222, R231). -/
def State.beginCmd (s : State) (i : Instr) : State :=
  let c := s.cur
  let k := s.curCmd.toNat
  let ctr := (s.islOfCmd c i).ctr
  if (portOf i).any (fun p => s.portUse c p ≥ 16) then s.cmdFault c k 0x10 0 0 ctr
  else s.setRun c k { st := .running, ins := some i, startReal := s.cycle, startCtr := ctr }
/-- Put a command into a state. -/
def State.putRun (s : State) (c : Ctx) (k : Nat) (f : CmdRun → CmdRun) : State := s.setRun c k (f (s.run c k))
/-- Whether a command may try its next transfer: held ones wait for a flush, unless it is a full hold or a
laid-by byte that holds them. -/
def CmdRun.tries (x : CmdRun) : Bool := x.st == .running || (x.st == .held && x.full)
/-- What a stop makes of a command's run; its bounds count from the last cycle in which it waits. DEDUCED, log entry
42. -/
def State.stopRun (s : State) (c : Ctx) (k f : Nat) (e : EStop) : State :=
  match e with
  | .none => s.putRun c k (fun x => { x with st := .running, full := false })
  | .held va => s.putRun c k (fun x => { x with st := .held, heldAt := f, heldVa := BitVec.ofNat 64 va, full := false
                                                slip := true })
  | .wait => s.putRun c k (fun x => { x with st := .held, heldAt := f, full := true, slip := true, startReal := s.cycle
                                             first := x.done })
  | .ended => s
/-- Go on with the accesses of a beat behind those already read: the whole of its bytes, or a stop that holds the command
at the iteration it stopped at (R246, R262). -/
def State.engBeat (s : State) (c : Ctx) (k : Nat) (pol virt : Bool) (ps : List (Nat × Nat × Nat)) :
    State × List (Byte × Bool) × EStop :=
  let had := (s.run c k).part
  let (s1, bs, f, e) := s.engRun (s.taskAt c) k pol virt (piecesPast had.length ps)
  match e with
  | .none => (s1.putRun c k (fun x => { x with part := [] }), had ++ bs, .none)
  | e => ((s1.putRun c k (fun x => { x with part := had ++ bs })).stopRun c k f e, [], e)
/-- The edge element to which a command delivers beats. -/
def latchElem : Instr → Option Nat
  | .sIn r | .sGath r => some (portElem r.port.toNat r.edge)
  | .whFilt r => some (portElem r.port.toNat r.edge)
  | .camGath r | .camGathDepth r | .camProj r => some (portElem r.port.toNat r.edge)
  | _ => none
/-- Beats in the latch of an edge element (R231): those of every command that delivers to it. -/
def State.latched (s : State) (c : Ctx) (e : Nat) : Nat :=
  ((List.range (s.tableLen c)).map (fun k =>
    if ((s.run c k).ins.bind latchElem) == some e then (s.run c k).latch.length else 0)).sum

/-! ## Bounds (R20, R232, R240) -/

/-- Whether a frame lies in a near channel of a port of a region. -/
def nearChannel (region port pa : Nat) : Bool :=
  let st := 4 * (region / 8) + region % 8 / 2
  let c0 := 16 * (region % 2) + 2 * port
  pa / 2 ^ 36 == st && (pa / 65536 % 32 == c0 || pa / 65536 % 32 == c0 + 1)
/-- Physical address behind a virtual one by the extents of a context's task. -/
def State.extPa (s : State) (c : Ctx) (va : Nat) : Nat :=
  pteFrame (mget (s.task (s.taskAt c)).extents (va / 65536)).toNat * 65536 + va % 65536
/-- The bound of an access path: basin of this die or the other, near channel, any other device memory. -/
def State.pathBound (s : State) (c : Ctx) (port : Nat) (va : Nat) : Nat :=
  let p := (mget (s.task (s.taskAt c)).extents (va / 65536)).toNat
  let pa := pteFrame p * 65536
  if s.place pa == .basin then (if (pa - 0x20000000000) / 0x8000000 == dieOf c then 96 else 224)
  else if sizeOfCode (p / 2 ^ 60 % 8) == 65536 && nearChannel (regionOf c) port pa then 1280 else 2048
/-- Whether every page of a stream is pinned in the second-level TLB of a task's die (R253). -/
def State.pinned (s : State) (t : Task) (st : Strm) : Bool :=
  (List.range (if st.hi ≤ st.lo then 0 else (st.va + st.hi - 1) / 65536 - (st.va + st.lo) / 65536 + 1)).all (fun n =>
    let va := ((st.va + st.lo) / 65536 + n) * 65536
    (mget s.pins (dieOf t.ctx)).any (fun e => e.tenant == t.tenant && e.base ≤ va && va < e.base + e.size))
def indirect : Instr → Bool
  | .sGath _ | .sScat _ | .whRed _ => true
  | _ => false
/-- The rate of the stream of an address word that has its bound: not a void one (R144), one without a reserved bandwidth, or
an indirect one whose pages are not all pinned (R253). -/
def State.paced (s : State) (c : Ctx) (k word : Nat) : Option Nat :=
  let t := s.task (s.taskAt c)
  match (s.cmdRec c k).refs.find? (·.word == word) with
  | none => none
  | some f =>
    let st := t.streams.getD f.stream {}
    if (s.run c k).ins.any indirect && !s.pinned t st then none
    else if !st.device then some 64 else if st.bw = 0 || st.void then none else some st.bw
/-- The cycle by which a beat is due: `b` beats of 64 bytes' cycles at g after the bound B (R240). -/
def dueBy (start bound b g : Nat) : Nat := start + bound + (64 * b + g - 1) / g

/-! ## Fabric side -/

/-- A capture from the latch of a command. -/
def CmdRun.beat (x : CmdRun) (b : Nat) : Option Cap := mget x.latch b
/-- A beat from bytes, poisoned as a whole when a byte of it is (R241). -/
def beatOf (bs : List (Byte × Bool)) : Cap :=
  { data := BitVec.ofNat 128 (leVal ((bs.take 16).map (·.1))), side := if bs.any (·.2) then mkSide 15 0 else 0 }

end Sys2Proof.Machine
end

