-- ==== Sys2Proof/Machine/Fabric.lean ====
section
/-!
DEFINITION. The timed entries (07_fabric_elements.md; 08_islands_and_schedules.md, R209 to R216). Each acts for
the element `curElem` of the context `cur`, in the present cycle of its island.
-/

namespace Sys2Proof.Machine

/-! ## Shared operations -/

/-- A result beat. -/
structure Res where
  data : W128
  side : Side := 0
  deriving DecidableEq, Repr, Inhabited

/-- The acting element and the present cycle of its island. -/
def State.me (s : State) : Elem := s.elem s.cur s.ei
def State.now (s : State) : Nat := (s.islOf s.cur s.ei).abs
def State.putMe (s : State) (x : Elem) : State := s.setElem s.cur s.ei x
/-- Operands A, B and C of an entry. -/
def State.opA (s : State) (f : EntryF) : Cap := s.opnd s.cur s.ei f.a
def State.opB (s : State) (f : EntryF) : Cap := s.opnd s.cur s.ei f.b
def State.opC (s : State) (f : EntryF) : Cap := s.opnd s.cur s.ei f.c

/-- Write a result with its latency where write-enable is set (R170). -/
def State.result (s : State) (f : EntryF) (lat : Nat) (x : Elem) (r : Res) : Out :=
  .next (s.putMe (if f.we then x.putRes s.now lat r.data r.side else x))

/-- Poison of an op that forms each quarter from the same quarter of its operands (R218). DEDUCED, log entry 28. -/
def quarterPoison (w : Nat) (ops : List Cap) : BitVec 4 :=
  bits4 (fun q => ops.any (fun o =>
    if w = 64 then o.pq (q / 2 * 2) || o.pq (q / 2 * 2 + 1) else o.pq q))

/-- A lane-by-lane op: lane i of the result from lane codes of A, B and C and the draw of an `rs` op; draws
are taken for `n` lanes (R54). Scale bytes are zero. -/
def State.laneOp (s : State) (f : EntryF) (lat nops : Nat) (g : Nat → Nat → Nat → Nat → Nat) : Out :=
  let t := f.ty
  let w := t.width
  let n := t.lanes
  let a := s.opA f
  let b := s.opB f
  let c := s.opC f
  let x := s.me
  let ds := if f.rnd == .rs then drawN ((n + 3) / 4) x.rand else ([], x.rand)
  let data := packLanes w ((List.range n).map (fun i =>
    g (rs16 ds.1 i) (laneOf w a.data i) (laneOf w b.data i) (laneOf w c.data i)))
  s.result f lat { x with rand := ds.2 }
    { data := data, side := mkSide (quarterPoison w ([a, b, c].take nops)) 0 }

/-- A float op: the exact value of decoded operands, rounded once (R177). -/
def EntryF.floatLane (f : EntryF) (v : Val → Val → Val → Val) (rnd a b c : Nat) : Nat :=
  roundTo f.ty f.rnd f.sat rnd (v (decodeFloat f.ty a) (decodeFloat f.ty b) (decodeFloat f.ty c))
/-- A float op whose overflow is `ieee` whatever the entry's overflow mode: R177 refers to R67 and R70 for the ops
concerned. DEDUCED, log entry 81. -/
def EntryF.ieeeLane (f : EntryF) (v : Val → Val → Val → Val) (rnd a b c : Nat) : Nat :=
  roundTo f.ty f.rnd false rnd (v (decodeFloat f.ty a) (decodeFloat f.ty b) (decodeFloat f.ty c))
/-- An integer op: the exact value, wrapped or clamped (R179). -/
def EntryF.intLane (f : EntryF) (v : Int → Int → Int → Int) (a b c : Nat) : Nat :=
  let x := v (decodeInt f.ty a) (decodeInt f.ty b) (decodeInt f.ty c)
  encodeInt f.ty.width (if f.sat then clampInt (minInt f.ty) (maxInt f.ty) x else x)
/-- A fused op: `ieee` overflow for a float type (R67), wrapped or clamped for an integer type (R179). -/
def State.fused (s : State) (f : EntryF) (vf : Val → Val → Val → Val) (vi : Int → Int → Int → Int) : Out :=
  if isFloat f.ty then s.laneOp f 4 3 (EntryF.ieeeLane f vf)
  else s.laneOp f 4 3 (fun _ a b c => EntryF.intLane f vi a b c)
/-- An arithmetic op of both kinds of type, with the latencies of R176. -/
def State.arith (s : State) (f : EntryF) (latF latI nops : Nat) (vf : Val → Val → Val → Val)
    (vi : Int → Int → Int → Int) : Out :=
  if isFloat f.ty then s.laneOp f latF nops (EntryF.floatLane f vf)
  else s.laneOp f latI nops (fun _ a b c => EntryF.intLane f vi a b c)
/-- A float result that is one of the operands, or one with its sign changed: exact, NaN canonical. -/
def State.exactOp (s : State) (f : EntryF) (nops : Nat) (vf : Val → Val → Val → Val)
    (vi : Int → Int → Int → Int) : Out := s.arith f 2 2 nops vf vi

/-! ## Arithmetic (R177 to R180) -/

def execEntryAdd (f : EntryF) (s : State) : Out :=
  s.arith f 3 2 2 (fun a b _ => a.add b) (fun a b _ => a + b)
def execEntrySub (f : EntryF) (s : State) : Out :=
  s.arith f 3 2 2 (fun a b _ => a.sub b) (fun a b _ => a - b)
def execEntryMul (f : EntryF) (s : State) : Out :=
  s.arith f 3 4 2 (fun a b _ => a.mul b) (fun a b _ => a * b)
def execEntryFma (f : EntryF) (s : State) : Out :=
  s.fused f (fun a b c => (a.mul b).add c) (fun a b c => a * b + c)
def execEntryFms (f : EntryF) (s : State) : Out :=
  s.fused f (fun a b c => (a.mul b).sub c) (fun a b c => a * b - c)
def execEntryFnma (f : EntryF) (s : State) : Out :=
  s.fused f (fun a b c => c.sub (a.mul b)) (fun a b c => c - a * b)
def execEntryMin (f : EntryF) (s : State) : Out :=
  s.exactOp f 2 (fun a b _ => a.min b) (fun a b _ => if a < b then a else b)
def execEntryMax (f : EntryF) (s : State) : Out :=
  s.exactOp f 2 (fun a b _ => a.max b) (fun a b _ => if a < b then b else a)
def execEntryAbs (f : EntryF) (s : State) : Out :=
  s.exactOp f 1 (fun a _ _ => a.abs) (fun a _ _ => if a < 0 then -a else a)
def execEntryNeg (f : EntryF) (s : State) : Out :=
  s.exactOp f 1 (fun a _ _ => a.neg) (fun a _ _ => -a)
def execEntryClamp (f : EntryF) (s : State) : Out :=
  s.exactOp f 3 (fun a b c => (a.max b).min c) (fun a b c => let m := if a < b then b else a; if m < c then m else c)
/-- `div`: the infinity of a division by zero stays one (R70); another quotient rounds in the entry's modes. -/
def execEntryDiv (f : EntryF) (s : State) : Out :=
  s.laneOp f 16 2 (fun rnd a b c =>
    if (decodeFloat f.ty b).isZero then EntryF.ieeeLane f (fun a b _ => a.div b) rnd a b c
    else EntryF.floatLane f (fun a b _ => a.div b) rnd a b c)
def execEntrySqrt (f : EntryF) (s : State) : Out :=
  s.laneOp f 16 1 (EntryF.ieeeLane f (fun a _ _ => a.sqrt))
def execEntryExp2 (f : EntryF) (s : State) : Out :=
  s.laneOp f 12 1 (EntryF.ieeeLane f (fun a _ _ => a.exp2))
def execEntryLg2 (f : EntryF) (s : State) : Out :=
  s.laneOp f 12 1 (EntryF.ieeeLane f (fun a _ _ => a.lg2))
/-- `rint`: the value rounds to an integer under the entry's mode, an `rs` draw included (R177). -/
def execEntryRint (f : EntryF) (s : State) : Out :=
  s.laneOp f 3 1 (fun rnd a _ _ => roundTo f.ty .rz false 0 (match decodeFloat f.ty a with
    | .fin n m e r => .fin n (roundToInt f.rnd rnd n m e r).natAbs 0 false
    | v => v))

/-! ## Integer and logic (R179) -/

def execEntryShl (f : EntryF) (s : State) : Out :=
  s.laneOp f 1 2 (fun _ a b _ => if b ≥ f.ty.width then 0 else a * 2 ^ b % 2 ^ f.ty.width)
def execEntryShr (f : EntryF) (s : State) : Out :=
  s.laneOp f 1 2 (fun _ a b _ => if b ≥ f.ty.width then 0 else a / 2 ^ b)
/-- `sra` fills with the sign, bit w - 1, whatever the signedness of the type ("a signed"). -/
def execEntrySra (f : EntryF) (s : State) : Out :=
  s.laneOp f 1 2 (fun _ a b _ =>
    let w := f.ty.width
    let x : Int := if a ≥ 2 ^ (w - 1) then (a : Int) - 2 ^ w else a
    encodeInt w (x / (2 ^ (if b ≥ w then w else b) : Int)))
/-- A bitwise op over all 128 data bits whatever the type (R179). -/
def State.logic (s : State) (f : EntryF) (nops : Nat) (g : W128 → W128 → W128) : Out :=
  let a := s.opA f
  let b := s.opB f
  s.result f 1 s.me { data := g a.data b.data, side := mkSide (quarterPoison 32 ([a, b].take nops)) 0 }
def execEntryAnd (f : EntryF) (s : State) : Out := s.logic f 2 (fun a b => a &&& b)
def execEntryOr (f : EntryF) (s : State) : Out := s.logic f 2 (fun a b => a ||| b)
def execEntryXor (f : EntryF) (s : State) : Out := s.logic f 2 (fun a b => a ^^^ b)
def execEntryAndn (f : EntryF) (s : State) : Out := s.logic f 2 (fun a b => a &&& ~~~b)
def execEntryNot (f : EntryF) (s : State) : Out := s.logic f 1 (fun a _ => ~~~a)
/-- `mulh`: the high half of the exact product, in the type's signedness (R179). -/
def execEntryMulh (f : EntryF) (s : State) : Out :=
  s.laneOp f 4 2 (fun _ a b _ =>
    encodeInt f.ty.width (decodeInt f.ty a * decodeInt f.ty b / (2 ^ f.ty.width : Int)))
def execEntryClz (f : EntryF) (s : State) : Out :=
  s.laneOp f 2 1 (fun _ a _ _ => if a = 0 then f.ty.width else f.ty.width - 1 - Nat.log2 a)
/-- One bits of a number. -/
def popCount (w a : Nat) : Nat := ((List.range w).filter (fun i => a / 2 ^ i % 2 = 1)).length
def execEntryPopc (f : EntryF) (s : State) : Out := s.laneOp f 2 1 (fun _ a _ _ => popCount f.ty.width a)

/-! ## Compares and `sel` (R181, R182, R219) -/

/-- A compare: mask, flag and, with write-enable, lanes of ones (R181). -/
def State.compare (s : State) (f : EntryF) (r : Rel) : Out :=
  let w := f.ty.width
  let n := f.ty.lanes
  let a := s.opA f
  let b := s.opB f
  let m := maskOf n (fun i => relLane f.ty r (laneOf w a.data i) (laneOf w b.data i))
  let x := s.me.putMask s.now 2 m (a.anyP || b.anyP)
  s.result f 2 x { data := onesOf w n m, side := mkSide (quarterPoison w [a, b]) 0 }
def execEntryCmpeq (f : EntryF) (s : State) : Out := s.compare f .eq
def execEntryCmpne (f : EntryF) (s : State) : Out := s.compare f .ne
def execEntryCmplt (f : EntryF) (s : State) : Out := s.compare f .lt
def execEntryCmple (f : EntryF) (s : State) : Out := s.compare f .le
def execEntryCmpgt (f : EntryF) (s : State) : Out := s.compare f .gt
def execEntryCmpge (f : EntryF) (s : State) : Out := s.compare f .ge
def execEntryCmpun (f : EntryF) (s : State) : Out := s.compare f .un

/-- `sel` (R182, R219). A poisoned mask raises 0x13 and gives no result (R220). -/
def execEntrySel (f : EntryF) (s : State) : Out :=
  let w := f.ty.width
  let n := f.ty.lanes
  let a := s.opA f
  let b := s.opB f
  let c := s.opC f
  let x := s.me
  let fromC := f.x.getLsbD 0
  let q := x.seeQ (s.now - 1) s.free
  let s1 := { s with free := s.free + 1 }
  if (if fromC then c.anyP else q.2) then .next (s1.elemFault 0x13 0)
  else
    let pick := fun i => if fromC then laneOf w c.data i != 0 else q.1.getLsbD i
    let data := packLanes w ((List.range n).map (fun i => if pick i then laneOf w a.data i else laneOf w b.data i))
    let chose := fun (v : Bool) q => (List.range n).all (fun i => !(quartersOf w i).contains q || pick i == v)
    let p := bits4 (fun q => if chose true q then a.pq q else if chose false q then b.pq q else a.pq q || b.pq q)
    let sc := (List.range 4).foldl (fun m q => m + (if chose true q then scaleByte a.side q
      else if chose false q then scaleByte b.side q else 0) * 2 ^ (8 * q)) 0
    s1.result f 1 x { data := data, side := mkSide p (BitVec.ofNat 32 sc) }

/-! ## Conversion and block packing (R56, R57, R183 to R185) -/

/-- The value of a lane code of any type but `bits`. -/
def laneVal (t : Ty) (code : Nat) : Val := if isFloat t then decodeFloat t code else ofInt (decodeInt t code)
/-- Pairs of float types whose conversion is exact, so that the mode has no effect (R56, R183). -/
def exactPair (src dst : Ty) : Bool :=
  src == dst || (isFloat src && dst == .f32) ||
    ((src == .e4m3 || src == .e5m2 || src == .e2m1) && (dst == .f16 || dst == .bf16)) ||
    (src == .e2m1 && (dst == .e4m3 || dst == .e5m2))
/-- Conversion of one lane (R56, R57). -/
def convLane (src dst : Ty) (mode : Rnd) (sat : Bool) (rnd code : Nat) : Nat :=
  let v := laneVal src code
  if isFloat dst then roundTo dst mode (sat && !exactPair src dst) rnd v
  else encodeInt dst.width (toIntTy dst mode rnd v)

/-- `cvt` (R183). -/
def execEntryCvt (f : EntryF) (s : State) : Out :=
  let src := (Ty.ofCode? (f.x.toNat % 16)).getD .f32
  let part := f.x.toNat / 16 % 16
  let merge := f.x.getLsbD 8
  let ws := src.width
  let wd := f.ty.width
  let ls := src.lanes
  let ld := f.ty.lanes
  let a := s.opA f
  let b := s.opB f
  let x := s.me
  let ds := if f.rnd == .rs then drawN ((ld + 3) / 4) x.rand else ([], x.rand)
  -- source lane of a destination lane; none for a lane merged or zeroed
  let from' := fun i => if ld ≤ ls then some (part * ld + i) else if i / ls = part then some (i % ls) else none
  let from' := fun i => if ls = ld then some i else from' i
  let data := packLanes wd ((List.range ld).map (fun i => match from' i with
    | some j => convLane src f.ty f.rnd f.sat (rs16 ds.1 i) (laneOf ws a.data j)
    | none => if merge then laneOf wd b.data i else 0))
  let p := lanePoison wd ld (fun i => match from' i with
    | some j => a.laneP ws j
    | none => merge && b.laneP wd i)
  let whole := fun q => (List.range ld).all (fun i => !(quartersOf wd i).contains q || (from' i).isNone)
  let sc := (List.range 4).foldl (fun m q => m + (if merge && whole q then scaleByte b.side q else 0) * 2 ^ (8 * q)) 0
  s.result f 2 { x with rand := ds.2 } { data := data, side := mkSide p (BitVec.ofNat 32 sc) }

/-- Largest finite value of an element type (R60). -/
def qmax (t : Ty) : Val := decodeFloat t (maxCode t)
/-- Scale code of a block (R60). -/
def blockCode (t : Ty) (xs : List Val) : Nat :=
  let m := xs.foldl (fun (m : Val) x => if x.isNan then m else m.max x.abs) (Val.fin false 0 0 false)
  if m.isZero then 0
  else (((List.range 255).map (· + 1)).find? (fun c => m.le ((qmax t).mul (decodeScale c)))).getD 255
/-- Element codes of a block. -/
def blockElems (t : Ty) (code : Nat) (xs : List Val) : List Nat :=
  xs.map (fun x => if x.isNan then roundTo t .rn true 0 .nan
    else if code = 0 then withSign t x.signBit 0
    else roundTo t .rn true 0 (x.div (decodeScale code)))

/-- `blk.pack` (R184). Beat 0 of the source is the oldest capture; every quarter read is a source of the whole beat.
DEDUCED, log entry 28. -/
def execEntryBlkPack (f : EntryF) (s : State) : Out :=
  let src := (Ty.ofCode? (f.x.toNat % 16)).getD .f32
  let half := f.x.toNat / 16 % 2
  let n := (s.cfg s.cur s.ei).blk
  let t := f.ty
  let el := t.lanes
  let ls := src.lanes
  let k := max el n / ls
  let beats := (List.range k).map (fun j => s.opndOlder s.cur s.ei f.a (k - 1 - j))
  let xs := beats.flatMap (fun b => (List.range ls).map (fun i => decodeFloat src (laneOf src.width b.data i)))
  let ps := beats.flatMap (fun b => (List.range ls).map (fun i => b.laneP src.width i))
  let nb := max el n / n
  let blocks := (List.range nb).map (fun j => (xs.drop (j * n)).take n)
  let codes := blocks.map (blockCode t)
  let elems := (blocks.zip codes).flatMap (fun p => blockElems t p.2 p.1)
  let mine := if el < n then (elems.drop (half * el)).take el else elems
  let sc := (codes.zipIdx.take 4).foldl (fun m p => m + p.1 * 2 ^ (8 * p.2)) 0
  let p := if ps.any id then 15 else 0
  s.result f 4 s.me { data := packLanes t.width mine, side := mkSide p (BitVec.ofNat 32 sc) }

/-- Block length that the beat on an operand's line was sent with (R185). -/
def State.lineBlk (s : State) (c : Ctx) (e : Nat) (o : Opnd) : Nat :=
  match o.line with
  | .l => (s.cfg c e).blk
  | .m => (s.elem c e).mBlk.getD o.tap.toNat 32
  | ln => match (lineDir ln).bind (neighbour e) with
    | some e2 => (s.cfg c e2).blk
    | none => 32

/-- `blk.unpk` (R185). -/
def execEntryBlkUnpk (f : EntryF) (s : State) : Out :=
  let et := (Ty.ofCode? (f.x.toNat % 16)).getD .e2m1
  let part := f.x.toNat / 16 % 8
  let prev := f.x.getLsbD 7
  let a := s.opA f
  let old := s.opndOlder s.cur s.ei f.a 1
  let n := s.lineBlk s.cur s.ei f.a
  let t := f.ty
  let ld := t.lanes
  let x := s.me
  let ds := if f.rnd == .rs then drawN ((ld + 3) / 4) x.rand else ([], x.rand)
  let data := packLanes t.width ((List.range ld).map (fun i =>
    let e := part * ld + i
    let sc := if prev then scaleByte old.side 0
      else if n > et.lanes then scaleByte a.side 0 else scaleByte a.side (e / n)
    roundTo t f.rnd f.sat (rs16 ds.1 i) ((decodeFloat et (laneOf et.width a.data e)).mul (decodeScale sc))))
  let p := lanePoison t.width ld (fun i => a.laneP et.width (part * ld + i))
  s.result f 2 { x with rand := ds.2 } { data := data, side := mkSide p 0 }

/-! ## Lane moves and reductions (R186, R187) -/

/-- A lane move: result lane i from lane `from' i` of A, with further quarters it reads. -/
def State.laneMove (s : State) (f : EntryF) (a : Cap) (from' : Nat → Nat) (dep : Nat → Bool) : Out :=
  let w := f.ty.width
  let n := f.ty.lanes
  s.result f 1 s.me {
    data := packLanes w ((List.range n).map (fun i => laneOf w a.data (from' i)))
    side := mkSide (lanePoison w n (fun i => a.laneP w (from' i) || dep i)) 0 }
def execEntryShuf (f : EntryF) (s : State) : Out :=
  let w := f.ty.width
  let b := s.opB f
  s.laneMove f (s.opA f) (fun i => laneOf w b.data i % f.ty.lanes) (fun i => b.laneP w i)
def execEntryBcast (f : EntryF) (s : State) : Out :=
  s.laneMove f (s.opA f) (fun _ => f.x.toNat % 32 % f.ty.lanes) (fun _ => false)
def execEntryRot (f : EntryF) (s : State) : Out :=
  s.laneMove f (s.opA f) (fun i => (i + f.x.toNat % 32) % f.ty.lanes) (fun _ => false)

/-- One level of the pairwise tree of R68. -/
def pairUp (g : Val → Val → Val) : List Val → List Val
  | a :: b :: r => g a b :: pairUp g r
  | l => l
def pairTree (g : Val → Val → Val) : Nat → List Val → Val
  | 0, l => l.headD .nan
  | n + 1, l => pairTree g n (pairUp g l)
/-- A result in bits 31:0 with zeros above. -/
def State.scalar (s : State) (f : EntryF) (lat : Nat) (a : Cap) (v : Nat) : Out :=
  s.result f lat s.me { data := BitVec.ofNat 128 v, side := mkSide (if a.anyP then 1 else 0) 0 }
def execEntryHsum (f : EntryF) (s : State) : Out :=
  let a := s.opA f
  let t := f.ty
  let codes := (List.range t.lanes).map (laneOf t.width a.data)
  if isFloat t then
    let r := fun v => f32 (BitVec.ofNat 32 (roundTo .f32 f.rnd f.sat 0 v))
    let leaves := codes.map (fun c => match decodeFloat t c with
      | .inf n => if f.sat then decodeFloat .f32 (withSign .f32 n (maxCode .f32)) else .inf n
      | v => v)
    let v := pairTree (fun x y => r (x.add y)) 5 leaves
    s.scalar f (if t == .f32 then 6 else if t.width = 16 then 9 else 12) a (roundTo .f32 .rn false 0 v)
  else
    let v := (codes.map (decodeInt t)).foldl (· + ·) 0
    let u : Ty := if isSigned t then .i32 else .n32
    s.scalar f 3 a (encodeInt 32 (if f.sat then clampInt (minInt u) (maxInt u) v else v))
/-- `hmax` and `hmin`: the exact extreme lane in lane 0 (R187). -/
def State.extreme (s : State) (f : EntryF) (vf : Val → Val → Val) (vi : Int → Int → Int) : Out :=
  let a := s.opA f
  let t := f.ty
  let codes := (List.range t.lanes).map (laneOf t.width a.data)
  match codes with
  | [] => s.scalar f 3 a 0
  | c0 :: cs =>
    if isFloat t then
      s.scalar f 3 a (roundTo t .rz false 0 (cs.foldl (fun m c => vf m (decodeFloat t c)) (decodeFloat t c0)))
    else s.scalar f 3 a (encodeInt t.width (cs.foldl (fun m c => vi m (decodeInt t c)) (decodeInt t c0)))
def execEntryHmax (f : EntryF) (s : State) : Out := s.extreme f Val.max (fun a b => if a < b then b else a)
def execEntryHmin (f : EntryF) (s : State) : Out := s.extreme f Val.min (fun a b => if a < b then a else b)
/-- Inclusive scan of codes (R68). -/
def scanCodes (g : Nat → Nat → Nat) : Option Nat → List Nat → List Nat
  | _, [] => []
  | none, c :: cs => c :: scanCodes g (some c) cs
  | some p, c :: cs => let v := g p c; v :: scanCodes g (some v) cs
/-- `scan` (R187): lane 0 is x_0 itself, in the lane type and the entry's modes. -/
def execEntryScan (f : EntryF) (s : State) : Out :=
  let a := s.opA f
  let t := f.ty
  let codes := (List.range t.lanes).map (laneOf t.width a.data)
  let codes := match codes with
    | c0 :: cs => (if isFloat t then roundTo t f.rnd f.sat 0 (decodeFloat t c0) else c0) :: cs
    | [] => []
  let g := fun p c =>
    if isFloat t then roundTo t f.rnd f.sat 0 ((decodeFloat t p).add (decodeFloat t c))
    else
      let v := decodeInt t p + decodeInt t c
      encodeInt t.width (if f.sat then clampInt (minInt t) (maxInt t) v else v)
  s.result f (if t.isI then 4 else if t == .f32 then 8 else 12) s.me
    { data := packLanes t.width (scanCodes g none codes)
      side := mkSide (lanePoison t.width t.lanes (fun i => (List.range (i + 1)).any (a.laneP t.width))) 0 }

/-! ## `mov`, `rep` and the control plane (R188 to R190) -/

def execEntryMov (f : EntryF) (s : State) : Out :=
  let a := s.opA f
  s.result f 1 s.me { data := a.data, side := a.side }
def execEntryRep (f : EntryF) (s : State) : Out :=
  let c := s.opC f
  let tok := laneOf 32 c.data 0
  if f.ty == .bits then
    s.result f 1 s.me { data := BitVec.ofNat 128 tok, side := mkSide (if c.pq 0 then 1 else 0) 0 }
  else
    s.result f 1 s.me { data := packLanes 32 [tok, tok, tok, tok], side := mkSide (if c.pq 0 then 15 else 0) 0 }
/-- A control-plane op on the 32-bit operands (R190). -/
def State.control (s : State) (f : EntryF) (nops : Nat) (g : Nat → Nat → Nat) : Out :=
  let a := s.opA f
  let b := s.opB f
  let p := a.pq 0 || (nops = 2 && b.pq 0)
  let x := s.me
  .next (s.putMe (if f.we then
    x.putCres s.now 1 (BitVec.ofNat 32 (g (laneOf 32 a.data 0) (laneOf 32 b.data 0))) p else x))
def execEntryCadd (f : EntryF) (s : State) : Out := s.control f 2 (fun a b => a + b)
def execEntryCsub (f : EntryF) (s : State) : Out := s.control f 2 (fun a b => a + 2 ^ 32 - b)
def execEntryCand (f : EntryF) (s : State) : Out := s.control f 2 Nat.land
def execEntryCor (f : EntryF) (s : State) : Out := s.control f 2 Nat.lor
/-- `cshl` of A by a signed count (R190). -/
def cshlTok (signed : Bool) (a b : Nat) : Nat :=
  let n := decodeInt .i32 b
  if 0 ≤ n then (if n ≥ 32 then 0 else a * 2 ^ n.toNat)
  else
    let k := if -n ≥ 32 then 32 else (-n).toNat
    if signed then encodeInt 32 (decodeInt .i32 a / (2 ^ k : Int)) else a / 2 ^ k
def execEntryCshl (f : EntryF) (s : State) : Out := s.control f 2 (cshlTok (f.ty == .i32))
def execEntryCmov (f : EntryF) (s : State) : Out := s.control f 1 (fun a _ => a)
/-- `ccmp`: token and flag (R190). -/
def execEntryCcmp (f : EntryF) (s : State) : Out :=
  let a := s.opA f
  let b := s.opB f
  let v := relLane f.ty (relOfCode (f.x.toNat % 8)) (laneOf 32 a.data 0) (laneOf 32 b.data 0)
  let p := a.pq 0 || b.pq 0
  let x := s.me.putFlag s.now 1 v p
  .next (s.putMe (if f.we then x.putCres s.now 1 (if v then 1 else 0) p else x))

/-! ## Bank access (R191 to R195, R223) -/

/-- What an access to a bank line finds (R195). -/
inductive BankChk where
  | ok | notOwned | guard | broken
  deriving DecidableEq, Repr, Inhabited
/-- Key of a beat and of a line. -/
def beatKey (c : Ctx) (e a : Nat) : Nat := eKey c e * 4096 + a / 16
def lineKey (c : Ctx) (e a : Nat) : Nat := eKey c e * 1024 + a / 64
/-- An error of a bank line (R74, R380). -/
def State.bankErr (s : State) (c : Ctx) (e a : Nat) (hard : Bool) : Bool :=
  s.errs.any (fun x => x.hard == hard && x.line == .bank (BitVec.ofNat 4 (regionOf c)) (c.toNat % 2 == 1)
    (BitVec.ofNat 9 e) (BitVec.ofNat 10 (a / 64)))
/-- The checks of a bank access at an address. The spec gives no order of them: owner, guard, then the word itself.
DESIGN CHOICE, log entry 87. DEDUCED, log entry 29. -/
def State.bankChk (s : State) (c : Ctx) (e a : Nat) : BankChk :=
  let m := mget s.bankMeta (lineKey c e a)
  if m.owner = 0 || m.owner != (s.task (s.taskAt c)).tag then .notOwned
  else if m.guard then .guard
  else if s.bankErr c e a true then .broken
  else .ok
/-- The first guard access since the last report is held as pending (R223). -/
def State.guardAccess (s : State) (c : Ctx) (e a pos : Nat) : State :=
  s.modTask (s.taskAt c) (fun t => { t with guardHit := some (t.guardHit.getD { elem := e, addr := a, pos := pos }) })
/-- An uncorrectable word of a bank: a context end of the line's owner (R74, R224). DEDUCED, log entry 58. -/
def State.bankBroken (s : State) (c : Ctx) (e a : Nat) : State :=
  let id := s.taskAt c
  (s.recordAt c 0x30 (BitVec.ofNat 64 a) 0 e (BitVec.ofNat 64 (s.islOf c e).ctr) false false true false).doomContext (s.task id)
/-- A single-bit error is corrected and counted (R74). -/
def State.bankCorrected (s : State) (c : Ctx) (e a : Nat) : State :=
  if s.bankErr c e a false then { s with bankCE := mmod s.bankCE (regionOf c) (· + 1) } else s

/-- A bank access of an entry performs. -/
def State.bankDo (s : State) (o : BankOp) : State :=
  match o.store with
  | some v => { s with bank := mset s.bank (beatKey o.c o.e o.a) v }
  | none => s.setElem o.c o.e { s.elem o.c o.e with
      bankRd := mset (s.elem o.c o.e).bankRd o.at' (some { data := mget s.bank (beatKey o.c o.e o.a)
                                                           side := if o.poison then mkSide 15 0 else 0 }) }
/-- A plane write performs: the beat, and the span and format of its line. -/
def State.planeDo (s : State) (w : PlaneWr) : State :=
  { s with bank := mset s.bank (beatKey w.c w.e w.a) w.v
           bankMeta := mmod s.bankMeta (lineKey w.c w.e w.a) (fun m => { m with span := w.span, pfmt := w.pfmt, plane := true }) }
/-- What the banks do between the plane reads of one real cycle and those of the next: the engine's plane writes of the
cycle, then the accesses that entries issued in it (R192, R194, R277). -/
def State.bankTurn (s : State) : State :=
  { (s.bankQ.foldl State.bankDo (s.planeQ.foldl State.planeDo s)) with planeQ := [], bankQ := [] }

/-- Issue a bank access. -/
def State.bankLate (s : State) (o : BankOp) : State := { s with bankQ := s.bankQ ++ [o] }
/-- A bank read issued now performs in the next cycle and lands on M at the end of the third cycle after (R192). -/
def State.bankRead (s : State) (a : Nat) : Out :=
  let c := s.cur
  let e := s.ei
  let a := a / 16 * 16
  let put := fun (s : State) (poison : Bool) => State.bankLate s { c := c, e := e, a := a, at' := s.now + 3, poison := poison }
  match s.bankChk c e a with
  | .notOwned => .next (s.elemFault 0x31 (BitVec.ofNat 64 a))
  | .guard => .next ((s.setElem c e { s.elem c e with bankRd := mset (s.elem c e).bankRd (s.now + 3) (some {}) }).guardAccess
      c e a (s.islOf c e).ctr)
  | .broken => .next ((put s true).bankBroken c e a)
  | .ok => .next ((put s false).bankCorrected c e a)
/-- A bank store (R193), which performs in the next cycle (R194). A beat with poison raises 0x13 and writes nothing
(R220), before any check of the line (DESIGN CHOICE, log entry 87). DEDUCED, log entry 29. -/
def State.bankStore (s : State) (a : Nat) (v : Cap) : Out :=
  let c := s.cur
  let e := s.ei
  let a := a / 16 * 16
  let put := fun (s : State) => State.bankLate s { c := c, e := e, a := a, store := some v.data }
  if v.anyP then .next (s.elemFault 0x13 (BitVec.ofNat 64 a))
  else match s.bankChk c e a with
    | .notOwned => .next (s.elemFault 0x31 (BitVec.ofNat 64 a))
    | .guard => .next (s.guardAccess c e a (s.islOf c e).ctr)
    | .broken => .next ((put s).bankBroken c e a)
    | .ok => .next (put s)
def execEntryLdb (f : EntryF) (s : State) : Out := s.bankRead f.x.toNat
def execEntryLdbx (f : EntryF) (s : State) : Out :=
  s.bankRead ((f.x.toNat + laneOf 16 (s.opA f).data 0) % 65536)
def execEntryStb (f : EntryF) (s : State) : Out := s.bankStore f.x.toNat (s.opA f)
def execEntryStbx (f : EntryF) (s : State) : Out :=
  s.bankStore ((f.x.toNat + laneOf 16 (s.opB f).data 0) % 65536) (s.opA f)

/-! ## Sampling and steering (R209 to R216) -/

def execEntryRngDraw (f : EntryF) (s : State) : Out :=
  let x := s.me
  if f.ty == .f32 then
    let ds := drawN 4 x.rand
    s.result f 2 { x with rand := ds.2 }
      { data := packLanes 32 (ds.1.map (fun v => roundTo .f32 .rz false 0 (uniform v))) }
  else
    let ds := drawN 2 x.rand
    s.result f 2 { x with rand := ds.2 } { data := packLanes 64 (ds.1.map (·.toNat)) }
def execEntryRngSeed (f : EntryF) (s : State) : Out :=
  let a := s.opA f
  if a.anyP then .next (s.elemFault 0x13 0)
  else
    let v := seedOf a.data s.ei
    s.result f 1 { s.me with rand := v } { data := v.setWidth 128 }
/-- `norm` of R213. -/
def normW (v : Val) : Val :=
  match v with
  | .nan => .fin false 0 0 false
  | .inf n => if n then .fin false 0 0 false else decodeFloat .f32 (maxCode .f32)
  | .fin n m e r => if n then .fin false 0 0 false else .fin false m e r
/-- A running weight sum in FP32, saturated (R213). -/
def addW (a b : Val) : Val := f32 (rsat32 (a.add b))
/-- Whether u x W < w, exact. -/
def wins (u w big : Val) : Bool := (Val.fin false 0 0 false).lt w && (u.mul big).lt w
/-- The state beat of a reservoir. -/
def reservoir (w : Val) (idx : Nat) : W128 := packLanes 32 [roundTo .f32 .rn false 0 w, idx, 0, 0]
def execEntryRsv (f : EntryF) (s : State) : Out :=
  let a := s.opA f
  let b := s.opB f
  let t := f.ty
  let x := s.me
  let n := t.lanes
  let ds := drawN n x.rand
  let w0 := normW (f32 (BitVec.ofNat 32 (laneOf 32 b.data 0)))
  let r := (List.range n).foldl (fun (p : Val × Nat) i =>
    let w := normW (decodeFloat t (laneOf t.width a.data i))
    let big := addW p.1 w
    (big, if wins (uniform (ds.1.getD i 0)) w big then f.x.toNat + i else p.2)) (w0, laneOf 32 b.data 1)
  let p0 := a.anyP || b.pq 0
  s.result f (if t == .f32 then 6 else 10) { x with rand := ds.2 }
    { data := reservoir r.1 r.2, side := mkSide (bits4 (fun q => if q = 0 then p0 else q = 1 && (p0 || b.pq 1))) 0 }
def execEntryRsvm (f : EntryF) (s : State) : Out :=
  let a := s.opA f
  let b := s.opB f
  let x := s.me
  let ds := drawN 1 x.rand
  let wa := normW (f32 (BitVec.ofNat 32 (laneOf 32 a.data 0)))
  let wb := normW (f32 (BitVec.ofNat 32 (laneOf 32 b.data 0)))
  let w := addW wa wb
  let idx := if wins (uniform (ds.1.getD 0 0)) wb w then laneOf 32 b.data 1 else laneOf 32 a.data 1
  let p0 := a.pq 0 || b.pq 0
  s.result f 4 { x with rand := ds.2 }
    { data := reservoir w idx
      side := mkSide (bits4 (fun q => if q = 0 then p0 else q = 1 && (p0 || a.pq 1 || b.pq 1))) 0 }
/-- `bitt` (R215). -/
def execEntryBitt (f : EntryF) (s : State) : Out :=
  let a := s.opA f
  let b := s.opB f
  let w := f.ty.width
  let n := f.ty.lanes
  let base := f.x.toNat % 128
  let lane := f.x.getLsbD 7
  let pos := fun i => if lane then base + i else laneOf w b.data i + base
  let m := maskOf n (fun i => pos i < 128 && a.data.getLsbD (pos i))
  let x := s.me.putMask s.now 2 m (a.anyP || (!lane && b.anyP))
  let dep := fun i => (pos i < 128 && a.pq (pos i / 32)) || (!lane && b.laneP w i)
  s.result f 2 x { data := onesOf w n m, side := mkSide (lanePoison w n dep) 0 }
/-- `lut16` (R216). -/
def execEntryLut16 (f : EntryF) (s : State) : Out :=
  let a := s.opA f
  let b := s.opB f
  let c := s.opC f
  let w := f.ty.width
  let wide := w = 16
  let pick := fun i =>
    let k := laneOf w a.data i % 16
    if wide then (if k < 8 then laneOf 16 b.data k else laneOf 16 c.data (k - 8)) else laneOf w b.data k
  let p := b.anyP || (wide && c.anyP)
  s.result f 2 s.me { data := packLanes w ((List.range f.ty.lanes).map pick)
                      side := mkSide (bits4 (fun q => a.pq q || p)) 0 }
/-- Bits of lane 0 that `cond` compares: a C operand gives its token (R210; DEDUCED, log entry 67). -/
def condWidth (f : EntryF) : Nat := if f.a.line == .c then 32 else f.ty.width
/-- `cond` (R210). DEDUCED, log entry 67. -/
def execEntryCond (f : EntryF) (s : State) : Out :=
  let a := s.opA f
  let (v, p) := if f.ty == .bits then (a.data != 0, a.anyP) else (laneOf (condWidth f) a.data 0 != 0, a.pq 0)
  .next (s.putMe (s.me.putFlag s.now 1 v p))
/-- `chk` (R211): decided at the end of the second cycle after its issue. -/
def execEntryChk (f : EntryF) (s : State) : Out :=
  let a := s.opA f
  let b := s.opB f
  let w := f.ty.width
  let r := relOfCode (f.x.toNat % 8)
  let id : BitVec 12 := BitVec.ofNat 12 (f.x.toNat / 16)
  let holds := (List.range f.ty.lanes).all (fun i => relLane f.ty r (laneOf w a.data i) (laneOf w b.data i))
  let x := s.me
  let fail := fun (code : BitVec 8) (id : BitVec 12) =>
    Host.Outcome.next (s.putMe { x with chks := x.chks ++ [{ at' := s.cycle + 2, code := code, id := id
                                                             pos := (s.islOf s.cur s.ei).ctr }] })
  if a.anyP || b.anyP then fail 0x13 0 else if holds then .next s else fail 0x05 id

end Sys2Proof.Machine
end

