-- ==== Sys2Proof/Machine/Stream.lean ====
section
/-!
DEFINITION. The stream commands (10_stream_and_wharf.md, R239 to R246). The row of a command is its start; its
read beats arrive by STREAM_READ_ARRIVES and its write beats are accepted by WRITE_BEAT_ACCEPTED.
-/

namespace Sys2Proof.Machine

/-! ## Starts -/

def execSIn (r : StreamRec) (s : State) : Out := .next (s.beginCmd (.sIn r))
def execSInPlane (r : StreamRec) (s : State) : Out := .next (s.beginCmd (.sInPlane r))
def execSOut (r : StreamRec) (s : State) : Out := .next (s.beginCmd (.sOut r))
def execSGath (r : StreamRec) (s : State) : Out := .next (s.beginCmd (.sGath r))
def execSScat (r : StreamRec) (s : State) : Out := .next (s.beginCmd (.sScat r))
def execSCopy (r : StreamRec) (s : State) : Out := .next (s.beginCmd (.sCopy r))

/-! ## Addresses and beats -/

/-- An address from a base and a signed offset. -/
def addOff (base : Nat) (off : Int) : Nat := ((base : Int) + off).toNat
/-- The flat iterations of a beat of N iterations. -/
def beatIters (n per b : Nat) : List Nat := (List.range (min n (per * (b + 1)) - per * b)).map (· + per * b)
/-- A capture from the bytes of a beat's elements; a scaled beat carries its scale bytes (R236, R242). -/
def StreamRec.capOf (r : StreamRec) (bs : List (Byte × Bool)) : Cap :=
  let sc := if r.esize = 5 then BitVec.ofNat 32 (leVal (((bs.drop 16).take 4).map (·.1))) else 0
  { data := BitVec.ofNat 128 (leVal ((bs.take 16).map (·.1)))
    side := mkSide (if bs.any (·.2) then 15 else 0) sc }
/-- The bytes that lane `ln` of a beat stores (R236, R242). -/
def StreamRec.laneBytes (r : StreamRec) (x : Cap) (ln : Nat) : List Byte :=
  if r.esize = 5 then leList 16 x.data.toNat ++ leList 4 (scalesOf x.side).toNat ++ List.replicate 12 0
  else ((leList 16 x.data.toNat).drop (ln * StreamRec.bytes r)).take (StreamRec.bytes r)
/-- Base address of a stream command, and destination base of an `s.copy`. -/
def State.sBase (s : State) (c : Ctx) (k : Nat) (r : StreamRec) : Nat := s.vaOf c k 6 r.base
def State.sDst (s : State) (c : Ctx) (k : Nat) (r : StreamRec) : Nat := s.vaOf c k 5 r.base2
/-- The range of the stream of an address word, as virtual addresses. -/
def State.sRange (s : State) (c : Ctx) (k word : Nat) : Nat × Nat :=
  match refOf (s.task (s.taskAt c)).streams (s.cmdRec c k) word with
  | some (st, _) => (st.va + st.lo, st.va + st.hi)
  | none => (0, 0)

/-! ## Reads -/

/-- Read beat b of a command's source nest; a stop holds the command. -/
def State.sBeat (s : State) (c : Ctx) (k : Nat) (r : StreamRec) (copy : Bool) (b : Nat) : State × Cap × EStop :=
  let ls := StreamRec.levels r copy
  let base := s.sBase c k r
  let fs := beatIters (nestN ls) (StreamRec.perBeat r) b
  let (s1, bs, e) := s.engBeat c k r.poison false
    (beatPieces (StreamRec.bytes r) (fs.map (fun f => (f, addOff base (nestOff ls f)))))
  (s1, StreamRec.capOf r bs, e)
/-- Put a beat that has been read into the latch. -/
def State.latchBeat (s : State) (c : Ctx) (k b next : Nat) (x : Cap) : State :=
  s.putRun c k (fun y => { y with st := .running, full := false, latch := mset y.latch b (some x), done := b + 1, f := next })
/-- The next read beat of an `s.in` arrives (R240, R241). -/
def State.sInRead (s : State) (c : Ctx) (k : Nat) (r : StreamRec) : State :=
  let b := (s.run c k).done
  if b ≥ StreamRec.beats r false then s
  else match s.sBeat c k r false b with
    | (s1, x, .none) => s1.latchBeat c k b ((b + 1) * StreamRec.perBeat r) x
    | (s1, _, _) => s1

/-- Index j of an indirect command, with whether its lane is poisoned. -/
def CmdRun.index (x : CmdRun) (j : Nat) : Option (Nat × Bool) :=
  (mget x.idx (j / 4)).map (fun v => (laneOf 32 v.data (j % 4), v.pq (j % 4)))
/-- The address that an index names; `none` outside the stream's range (R243). -/
def State.indexVa (s : State) (c : Ctx) (k : Nat) (r : StreamRec) (ix : Nat) : Option Nat :=
  let a : Int := (s.sBase c k r : Int) + ix * r.l1.stride.toInt
  let (lo, hi) := s.sRange c k 6
  if (lo : Int) ≤ a && a + StreamRec.bytes r ≤ hi then some a.toNat else none
/-- Element j of an `s.gath`, which lies in one granule: a poisoned index lane gives a poisoned zero element. -/
def State.gatherOne (s : State) (c : Ctx) (k : Nat) (r : StreamRec) (j : Nat) :
    State × List (Byte × Bool) × EStop :=
  match (s.run c k).index j with
  | none => (s, [], .wait)
  | some (ix, p) =>
    if p then (s, List.replicate (StreamRec.bytes r) (0, false), .none)
    else match s.indexVa c k r ix with
      | none => (s.engEnd (s.taskAt c) k 0x0A (addOff (s.sBase c k r) (ix * r.l1.stride.toInt)) j, [], .ended)
      | some va => s.engRead (s.taskAt c) k j r.poison true va (StreamRec.bytes r)
/-- Elements of one result beat: the bytes read before a stop, and the element that stopped. -/
def State.gatherAll (s : State) (c : Ctx) (k : Nat) (r : StreamRec) :
    List Nat → State × List (Byte × Bool) × Nat × EStop
  | [] => (s, [], 0, .none)
  | j :: js =>
    match s.gatherOne c k r j with
    | (s1, bs, .none) =>
      let (s2, cs, g, e) := s1.gatherAll c k r js
      (s2, bs ++ cs, g, e)
    | (s1, _, e) => (s1, [], j, e)
/-- Index beats and result or data beats of an indirect command. -/
def StreamRec.indexBeats (r : StreamRec) : Nat := r.l1.count.toNat
def StreamRec.dataBeats (r : StreamRec) : Nat := if r.esize = 4 then 4 * r.l1.count.toNat else r.l1.count.toNat
/-- Indices of a result or data beat. -/
def StreamRec.beatIx (r : StreamRec) (b : Nat) : List Nat :=
  if r.esize = 4 then [b] else (List.range 4).map (· + 4 * b)
/-- The next result beat of an `s.gath` arrives, once its indices have been taken. -/
def State.sGathRead (s : State) (c : Ctx) (k : Nat) (r : StreamRec) : State :=
  let x := s.run c k
  let b := x.done
  let js := StreamRec.beatIx r b
  if b ≥ StreamRec.dataBeats r || js.any (fun j => (x.index j).isNone) then s
  else
    let (s1, new, j, e) := s.gatherAll c k r (js.drop (x.part.length / StreamRec.bytes r))
    let bs := x.part ++ new
    match e with
    | .none =>
      let whole := if bs.any (·.2) then (15 : BitVec 4) else 0
      let lanes := bits4 (fun q => js.any (fun j => (x.index j).any (·.2) && (r.esize == 4 || j % 4 == q)))
      let cap : Cap := { data := BitVec.ofNat 128 (leVal (bs.map (·.1))), side := mkSide (whole ||| lanes) 0 }
      (s1.putRun c k (fun y => { y with part := [] })).latchBeat c k b (js.headD 0 + js.length) cap
    | e => (s1.putRun c k (fun y => { y with part := bs })).stopRun c k j e

/-! ## Plane mode (R62, R64, R245) -/

/-- Physical bank address of a logical one under a span code (R64). -/
def swizzle (code a : Nat) : Nat :=
  let sp := 16 * 2 ^ code
  Nat.xor a (16 * (a / sp % (sp / 16)))
/-- Bit p of K-element i of a row, for row `n` of a pair. -/
def rowBit (pfmt : Nat) (row : List Byte) (n i p : Nat) : Bool :=
  if pfmt = 1 then (row.getD (2 * i + p / 8) 0).getLsbD (p % 8)
  else if pfmt = 0 then (row.getD i 0).getLsbD p
  else (row.getD (256 * n + i / 2) 0).getLsbD (4 * (i % 2) + p)
/-- Beat m of a transposed row in south element col (R62). -/
def planeBeat (pfmt : Nat) (row : List Byte) (col m : Nat) : W128 :=
  BitVec.ofNat 128 (((List.range 128).filter (fun b =>
    let j := b / 16
    let i := 16 * col + b % 16
    if pfmt = 2 then rowBit 2 row (j / 4) i (j % 4) else rowBit pfmt row 0 i (8 * m + j))).foldl (fun v b => v + 2 ^ b) 0)
/-- An engine plane write of one beat: tag and guard as for an entry, and the span and format of the line. -/
def State.planeWrite (s : State) (c : Ctx) (k e a : Nat) (span : BitVec 3) (pfmt : BitVec 2) (v : W128) : State :=
  let pos := (s.islOf c e).ctr
  let put := fun (s : State) => { s with planeQ := s.planeQ ++ [{ c := c, e := e, a := a, span := span, pfmt := pfmt, v := v }] }
  match s.bankChk c e a with
  | .notOwned => s.cmdFault c k 0x31 a e pos
  | .guard => s.guardAccess c e a pos
  | .broken => (put s).bankBroken c e a
  | .ok => put s
/-- The next row of a plane-mode `s.in` is read, transposed and written. DEDUCED, log entry 36. -/
def State.sPlaneRead (s : State) (c : Ctx) (k : Nat) (r : StreamRec) : State :=
  let f := (s.run c k).done
  let ls := StreamRec.levels r false
  if f ≥ nestN ls then s
  else
    match s.engBeat c k false false (beatPieces (StreamRec.rowBytes r) [(f, addOff (s.sBase c k r) (nestOff ls f))]) with
    | (s1, bs, .none) =>
      let row := bs.map (·.1)
      let n := StreamRec.bpr r
      let s2 := (List.range 32).foldl (fun s col => (List.range n).foldl (fun s m =>
        let a := (r.bank.toNat + 16 * n * f + 16 * m) % 65536
        s.planeWrite c k (southElem col) (swizzle r.span.toNat a) r.span r.pfmt
          (planeBeat r.pfmt.toNat row col m)) s) s1
      s2.putRun c k (fun y => { y with st := .running, full := false, done := f + 1, f := f + 1 })
    | (s1, _, _) => s1

/-! ## Writes -/

/-- Write lanes of a beat one after another from the next iteration on; a stop holds the command there.
DEDUCED, log entry 35. -/
def State.putLanes (s : State) (c : Ctx) (k : Nat) (virt : Bool) : List (Nat × Nat × List Byte) → State × EStop
  | [] => (s, .none)
  | (f, va, bs) :: ps =>
    match s.engPut (s.taskAt c) k f virt false va bs with
    | (s1, .none) => (s1.putRun c k (fun y => { y with f := f + 1 })).putLanes c k virt ps
    | (s1, e) => (s1.stopRun c k f e, e)
/-- A beat of a write command, once taken, is written lane by lane. -/
def State.putBeat (s : State) (c : Ctx) (k b : Nat) (virt : Bool) (ps : List (Nat × Nat × List Byte)) : State :=
  match s.putLanes c k virt (ps.filter (fun p => (s.run c k).f ≤ p.1)) with
  | (s1, .none) => s1.putRun c k (fun y => { y with st := .running, full := false, done := b + 1
                                                    taken := mset y.taken b none })
  | (s1, _) => s1
/-- The next write beat of an `s.out` is accepted (R240, R242). -/
def State.sOutWrite (s : State) (c : Ctx) (k : Nat) (r : StreamRec) : State :=
  let x := s.run c k
  let b := x.done
  match mget x.taken b with
  | none => s
  | some v =>
    let ls := StreamRec.levels r false
    let base := s.sBase c k r
    let per := StreamRec.perBeat r
    s.putBeat c k b false ((beatIters (nestN ls) per b).map (fun f =>
      (f, addOff base (nestOff ls f), StreamRec.laneBytes r v (f - b * per))))
/-- The next data beat of an `s.scat` is accepted; an index outside the range ends the gang (R243). -/
def State.sScatWrite (s : State) (c : Ctx) (k : Nat) (r : StreamRec) : State :=
  let x := s.run c k
  let b := x.done
  let js := StreamRec.beatIx r b
  match mget x.taken b with
  | none => s
  | some v =>
    if js.any (fun j => (x.index j).isNone) then s
    else
      let ps := js.map (fun j => (j, (x.index j).getD (0, false)))
      match ps.find? (fun p => (s.indexVa c k r p.2.1).isNone) with
      | some p =>
        let good := (ps.takeWhile (fun q => (s.indexVa c k r q.2.1).isSome))
        let (s1, e) := s.putLanes c k true ((good.filter (fun q => x.f ≤ q.1)).map (fun q =>
          (q.1, (s.indexVa c k r q.2.1).getD 0, StreamRec.laneBytes r v (q.1 - js.headD 0))))
        if e == .none then
          s1.engEnd (s1.taskAt c) k 0x0A (addOff (s.sBase c k r) (p.2.1 * r.l1.stride.toInt)) p.1
        else s1
      | none => s.putBeat c k b true (ps.map (fun q =>
          (q.1, (s.indexVa c k r q.2.1).getD 0, StreamRec.laneBytes r v (q.1 - js.headD 0))))
/-- The next beat of an `s.copy` is read, checked for poison and written (R242, R244). A beat held while it is
written is kept. -/
def State.sCopyWrite (s : State) (c : Ctx) (k : Nat) (r : StreamRec) : State :=
  let x := s.run c k
  let b := x.done
  if b ≥ StreamRec.beats r true then s
  else
    let ls := StreamRec.levels r true
    let per := StreamRec.perBeat r
    let dst := s.sDst c k r
    let (s1, v, e) := match mget x.taken b with
      | some v => (s, v, EStop.none)
      | none => s.sBeat c k r true b
    match e with
    | .none =>
      if v.anyP then s1.cmdFault c k 0x13 0 0 (s1.islOfCmd c (.sCopy r)).ctr
      else
        let s2 := s1.putRun c k (fun y => { y with taken := mset y.taken b (some v) })
        s2.putBeat c k b false ((beatIters (nestN ls) per b).map (fun f =>
          (f, addOff dst (nestOff ls f), StreamRec.laneBytes r v (f - b * per))))
    | _ => s1

/-! ## Takes at the fabric side (R45, R242, R243) -/

/-- What a command takes from a result register at the end of an island cycle: number, element, whether it is
an index, and whether poison in it is reported (R220). -/
structure Take where
  num : Nat
  elem : Nat
  index : Bool
  report : Bool
  deriving DecidableEq, Repr, Inhabited

/-- Index beat taken d cycles after the start, for an element size. -/
def StreamRec.indexTake (r : StreamRec) (d elem : Nat) (report : Bool) : List Take :=
  if r.esize = 4 then (if d % 4 = 0 && d / 4 < StreamRec.indexBeats r then
      [{ num := d / 4, elem := elem, index := true, report := report }] else [])
  else if d < StreamRec.indexBeats r then [{ num := d, elem := elem, index := true, report := report }] else []
/-- Takes of a stream command d cycles after its start. -/
def streamTakes (i : Instr) (d : Nat) : List Take :=
  match i with
  | .sOut r =>
    if d < StreamRec.beats r false then [{ num := d, elem := portElem r.port.toNat r.edge, index := false, report := true }]
    else []
  | .sGath r => StreamRec.indexTake r d (portElem r.port.toNat r.edge) false
  | .sScat r => StreamRec.indexTake r d (portElem r.port.toNat (!r.edge)) true ++
      (if d < StreamRec.dataBeats r then [{ num := d, elem := portElem r.port.toNat r.edge, index := false, report := true }]
       else [])
  | _ => []

/-! ## Bounds (R240, R245) -/

/-- The next transfer of a stream command: what it accesses, by address word and address; cycles that its work adds to the
bound; the beat that its pace counts. -/
def State.nextMove (s : State) (c : Ctx) (k : Nat) : Option (List (Nat × Nat) × Nat × Nat) :=
  let x := s.run c k
  match x.ins with
  | some (.sIn r) | some (.sOut r) =>
    some ([(6, addOff (s.sBase c k r) (nestOff (StreamRec.levels r false) (x.done * StreamRec.perBeat r)))], 0, x.done - x.first)
  | some (.sInPlane r) =>
    some ([(6, addOff (s.sBase c k r) (nestOff (StreamRec.levels r false) x.done))], 4,
      StreamRec.rowBytes r / 16 * (x.done + 1 - x.first))
  | some (.sGath r) | some (.sScat r) =>
    some ([(6, ((StreamRec.beatIx r x.done).head?.bind (fun j => (x.index j).bind (fun p => s.indexVa c k r p.1))).getD
      (s.sBase c k r))], 32, x.done - x.first)
  | some (.sCopy r) =>
    let off := nestOff (StreamRec.levels r true) (x.done * StreamRec.perBeat r)
    some ([(6, addOff (s.sBase c k r) off), (5, addOff (s.sDst c k r) off)], 0, x.done - x.first)
  | some (.whFilt r) => some ([(6, addOff (s.vaOf c k 6 r.base) (nestOff [r.l1, r.l2, r.l3] x.done))], 0, x.done - x.first)
  | _ => none
/-- Bytes that a transfer of a stream command moves on each of its streams. -/
def moveBytes : Instr → Nat
  | .sIn r | .sOut r | .sCopy r => StreamRec.perBeat r * StreamRec.bytes r
  | .sGath r | .sScat r => (StreamRec.beatIx r 0).length * StreamRec.bytes r
  | .sInPlane r => StreamRec.rowBytes r
  | .whFilt _ => 16
  | _ => 0
/-- Whether the next transfer of a command may go ahead of its bound: one that would take a task out of its reservation waits
for it, so that the guarantee of R240 is not voided by reading ahead. DESIGN CHOICE, log entry 86. -/
def State.affords (s : State) (c : Ctx) (k : Nat) : Bool :=
  match s.nextMove c k with
  | none => true
  | some m => m.1.all (fun q => (s.paced c k q.1).isNone ||
      s.spare (s.taskAt c) (s.extPa c q.2) (((s.run c k).ins.map moveBytes).getD 0))
/-- The real cycle by which the next beat of a stream command is due by its stated bound: of its bounds together, at the
lesser rate, while its task is within its reservation (R20, R21). DESIGN CHOICE, log entry 70. -/
def State.streamBound (s : State) (c : Ctx) (k : Nat) : Option Nat :=
  let x := s.run c k
  let port := (x.ins.bind portOf).getD 0
  (s.nextMove c k).bind (fun m =>
    let bound := (m.1.map (fun q => s.pathBound c port q.2)).sum + m.2.1
    let rate := m.1.foldl (fun (g : Option Nat) q => g.bind (fun g => (s.paced c k q.1).map (min g))) (some 64)
    rate.bind (fun g => m.1.foldl (fun (d : Option Nat) q => d.bind (s.within (s.taskAt c) (s.extPa c q.2) bound))
      (some (dueBy x.startReal bound m.2.2 g))))

end Sys2Proof.Machine
end

