-- ==== Sys2Proof/Machine/Matrix.lean ====
section
/-!
DEFINITION. The matrix commands (12_matrix_array.md, R268 to R284). The row of a command is its start; its fixed
cycles act at the end of each island cycle (`State.mxAdvance`), a held load or store goes on by
STREAM_READ_ARRIVES and WRITE_BEAT_ACCEPTED.
-/

namespace Sys2Proof.Machine

/-! ## Geometry and joins -/

/-- The three units (R273). -/
inductive MxUnit where
  | load | array | port
  deriving DecidableEq, Repr, Inhabited
def mxUnit : Instr → Option MxUnit
  | .mxWload _ => some .load
  | .mxSwap _ | .mxStep _ => some .array
  | .mxEpi _ | .mxZero _ | .mxDrain _ => some .port
  | _ => none
/-- Cycles per iteration and rows per iteration of a step (R63, R271). -/
def stepCycles (afmt : Nat) : Nat := if afmt = 3 || afmt = 4 then 2 else 1
def stepRows (afmt : Nat) : Nat := if afmt = 2 then 2 else 1
/-- Iterations of a step. -/
def MxStepRec.iters (r : MxStepRec) : Nat := nestN [r.l1, r.l2]
/-- Cycles per row of an epilogue (R280). -/
def epiCycles (r : MxEpiRec) : Nat := ((r.cols1.toNat + 1) * ofmtBytes r.ofmt.toNat + 255) / 256
/-- The join of a matrix command, in island cycles after its start. -/
def mxJoin : Instr → Nat
  | .mxWload r => 104 + (tileBytes r.wfmt.toNat r.blk.toNat r.kb.toNat r.nb.toNat + 255) / 256
  | .mxStep r => if MxStepRec.iters r = 0 then 1 else stepCycles r.afmt.toNat * MxStepRec.iters r + 48
  | .mxEpi r => if r.l1.count = 0 then 1 else 4 + epiCycles r * r.l1.count.toNat
  | .mxDrain r => if r.l1.count = 0 then 1 else 8 + (1 + r.wide.toNat) * r.l1.count.toNat
  | .mxZero r => if r.l1.count = 0 then 1 else 1 + (r.l1.count.toNat + 15) / 16
  | _ => 1
/-- Island cycles since a command's start. -/
def State.since (s : State) (c : Ctx) (k : Nat) : Nat :=
  match (s.run c k).ins with
  | some i => (s.islOfCmd c i).ctr - (s.run c k).startCtr
  | none => 0
/-- Beats of 256 bytes of a tile image (R274). -/
def MxWloadRec.beats (r : MxWloadRec) : Nat := (tileBytes r.wfmt.toNat r.blk.toNat r.kb.toNat r.nb.toNat + 255) / 256
/-- Whether a running command occupies its unit in the present cycle: until its join, or longer when late. -/
def State.mxBusy (s : State) (c : Ctx) (u : MxUnit) : Bool :=
  (List.range (s.tableLen c)).any (fun k =>
    let x := s.run c k
    x.live && x.ins.any (fun i => mxUnit i == some u &&
      (s.since c k < mxJoin i || x.st == .held || x.full || x.late || (x.slip && u == .load))))

/-! ## Accumulator (R268, R269) -/

def accKey (c : Ctx) (row col : Nat) : Nat := (1024 * c.toNat + row % 1024) * 256 + col
def State.accAt (s : State) (c : Ctx) (row col : Nat) : W32 := mget s.acc (accKey c row col)
/-- Set cells of a row from a column on. -/
def State.accPut (s : State) (c : Ctx) (row col : Nat) (vs : List W32) : State :=
  { s with acc := vs.zipIdx.foldl (fun m p => mset m (accKey c row (col + p.2)) p.1) s.acc }
/-- Accumulator row of iteration f of a step. -/
def MxStepRec.row (r : MxStepRec) (f : Nat) : Nat :=
  let n := r.l1.count.toNat
  (((r.accrow.toNat : Int) + (f % n : Nat) * r.t1.toInt + (f / n : Nat) * r.t2.toInt) % 1024).toNat
/-- Rows of a command with the cycle after its start at whose end each is last touched, and its columns. -/
def mxCells (nt : Nat) : Instr → List (Nat × Nat) × Nat × Nat
  | .mxStep r => ((List.range (MxStepRec.iters r)).flatMap (fun f => (List.range (stepRows r.afmt.toNat)).map (fun h =>
      ((MxStepRec.row r f + h) % 1024, stepCycles r.afmt.toNat * (f + 1) + 48))), r.acccol.toNat, nt)
  | .mxEpi r => ((List.range r.l1.count.toNat).map (fun f => ((r.accrow.toNat + f) % 1024,
      if r.clear then 4 + epiCycles r * (f + 1) else 1 + epiCycles r * f)), r.acccol.toNat, r.cols1.toNat + 1)
  | .mxDrain r => ((List.range r.l1.count.toNat).map (fun f => ((r.accrow.toNat + f) % 1024,
      8 + (1 + r.wide.toNat) * f + r.wide.toNat)), r.acccol.toNat, 128 * (1 + r.wide.toNat))
  | .mxZero r => ((List.range r.l1.count.toNat).map (fun f => ((r.accrow.toNat + f) % 1024, 1 + f / 16)),
      r.acccol.toNat, r.cols1.toNat + 1)
  | _ => ([], 0, 0)
/-- Columns of the active tile; 0 without one. -/
def State.tileN (s : State) (c : Ctx) : Nat := match mget s.tileA c.toNat with | some t => 16 * (t.nb + 1) | none => 0
/-- Whether a command's cells overlap cells that a running command of another unit still touches (R273): those of an
epilogue that clears until the row has entered, however late. -/
def State.mxOverlap (s : State) (c : Ctx) (i : Instr) : Bool :=
  let nt := s.tileN c
  let (rows, lo, n) := mxCells nt i
  (List.range (s.tableLen c)).any (fun k =>
    let x := s.run c k
    x.live && x.ins.any (fun j =>
      let (rs, l2, n2) := mxCells nt j
      mxUnit j != mxUnit i && mxUnit j != some .load && lo < l2 + n2 && l2 < lo + n &&
        rs.zipIdx.any (fun p => (s.since c k < p.1.2 || (match j with
            | .mxEpi r => r.clear && decide (x.done ≤ p.2) && (x.st == .held || x.full || x.late || decide (p.1.2 < s.since c k) ||
                (decide (p.1.2 = s.since c k) && decide (x.done < p.2)))
            | _ => false)) && rows.any (fun q => q.1 == p.1.1))))

/-! ## Starts -/

/-- Start a matrix command, or 0x10 where its unit is busy, its cells overlap, or `bad` holds (R273, R278). -/
def State.beginMx (s : State) (i : Instr) (bad : Bool) : State :=
  let c := s.cur
  if bad || (mxUnit i).any (s.mxBusy c) || s.mxOverlap c i then
    s.cmdFault c s.curCmd.toNat 0x10 0 0 (s.islOfCmd c i).ctr
  else s.beginCmd i
/-- `mx.wload`: the shadow is empty from the start on (R274). -/
def execMxWload (r : MxWloadRec) (s : State) : Out :=
  let c := s.cur
  let k := s.curCmd.toNat
  let s1 := s.beginMx (.mxWload r) false
  .next (if (s1.run c k).live then
    { s1 with tileS := mset s1.tileS c.toNat (some { fmt := r.wfmt, blk := r.blk, kb := r.kb.toNat, nb := r.nb.toNat
                                                     bytes := [], cmd := k, whole := false }) }
    else s1)
/-- Whether the shadow's load is held. -/
def State.loadHeld (s : State) (c : Ctx) : Bool :=
  match mget s.tileS c.toNat with
  | some t => !t.whole && (let x := s.run c t.cmd; x.st == .held || x.full)
  | none => false
/-- The load of the shadow that joins at the end of this island cycle (R274): the command and its record. -/
def State.loadJoins (s : State) (c : Ctx) : Option (Nat × MxWloadRec) :=
  match mget s.tileS c.toNat with
  | some t =>
    let x := s.run c t.cmd
    if t.whole || !x.tries then none
    else match x.ins with
      | some (.mxWload r) =>
        if MxWloadRec.beats r ≤ x.f && (mxJoin (.mxWload r) ≤ s.since c t.cmd || x.slip) && x.done + 9 ≤ s.cycle then some (t.cmd, r)
        else none
      | _ => none
  | none => none
/-- `mx.swap` (R275): an empty shadow, or one whose load neither has joined by this cycle nor is held, is 0x10. -/
def execMxSwap (h : CmdHdr) (s : State) : Out :=
  let c := s.cur
  let bad := match mget s.tileS c.toNat with
    | none => true
    | some t => !t.whole && !s.loadHeld c && (s.loadJoins c).isNone
  .next (s.beginMx (.mxSwap h) bad)
/-- Whether activation and weight formats pair (R271). -/
def fmtPair (afmt wfmt : Nat) : Bool := if afmt = 4 then wfmt = 4 || wfmt = 5 else wfmt ≤ 3
def execMxStep (r : MxStepRec) (s : State) : Out :=
  let c := s.cur
  let bad := match mget s.tileA c.toNat with
    | none => true
    | some t => !t.whole || !fmtPair r.afmt.toNat t.fmt.toNat ||
        r.acccol.toNat + 16 * (t.nb + 1) > (s.task (s.taskAt c)).acc
  .next (s.beginMx (.mxStep r) bad)
def execMxEpi (r : MxEpiRec) (s : State) : Out := .next (s.beginMx (.mxEpi r) false)
def execMxZero (r : MxZeroRec) (s : State) : Out := .next (s.beginMx (.mxZero r) false)
def execMxDrain (r : MxDrainRec) (s : State) : Out := .next (s.beginMx (.mxDrain r) false)

/-! ## Loading a tile (R270, R274) -/

/-- Read the next 256 bytes of an image. A granule that reads as poison or fails its check ends the gang, because the
buffers hold no poison; a page fault holds the load there. DESIGN CHOICE, log entry 38. -/
def State.mxBeat (s : State) (c : Ctx) (k : Nat) (r : MxWloadRec) : State :=
  let id := s.taskAt c
  let x := s.run c k
  let va := s.vaOf c k 6 r.base
  let had := x.part.length
  let upTo := min (tileBytes r.wfmt.toNat r.blk.toNat r.kb.toNat r.nb.toNat) (256 * (x.f + 1))
  let (s1, bs, _, e) := s.engRun id k false false (beatPieces (upTo - had) [(0, va + had)])
  match bs.zipIdx.find? (fun p => p.1.2) with
  | some p =>
    let g := (va + had + p.2) / 64 * 64
    (match s1.extAcc (s1.task id) .load (va + had + p.2) with
    | .ok _ true _ _ => s1.engEnd id k 0x13 g 0
    | _ => s.engEnd id k 0x14 g 0)
  | none =>
    let s2 := s1.putRun c k (fun y => { y with part := y.part ++ bs })
    (match e with
    | .none => s2.putRun c k (fun y => { y with st := .running, full := false, f := y.f + 1, done := s.cycle })
    | .ended => s2
    | e => s2.stopRun c k 0 e)
/-- A load at the end of the d-th cycle after its start: it reads 256 bytes a cycle from the 96th on, and joins 9 cycles
after the last of them (R274). One that has been held goes on as fast. DESIGN CHOICE, log entry 38. -/
def State.mxLoad (s : State) (c : Ctx) (k : Nat) (r : MxWloadRec) (d : Nat) : State :=
  let x := s.run c k
  if !x.tries then s
  else if x.f < MxWloadRec.beats r then (if 96 + x.f ≤ d || x.slip then s.mxBeat c k r else s)
  else if (mxJoin (.mxWload r) ≤ d || x.slip) && x.done + 9 ≤ s.cycle then
    { (s.putRun c k (fun y => { y with st := .ended, part := [], startReal := s.cycle })) with
      tileS := mset s.tileS c.toNat (some { fmt := r.wfmt, blk := r.blk, kb := r.kb.toNat, nb := r.nb.toNat
                                            bytes := x.part.map (·.1), cmd := k, whole := true }) }
  else s

/-! ## Weights and activations (R61, R62, R66, R270) -/

/-- Bytes from an offset as a number. -/
def bytesAt (bs : List Byte) (o n : Nat) : Nat := leVal ((bs.drop o).take n)
/-- Value of the weight of row k, column n. -/
def Tile.weight (t : Tile) (k n : Nat) : Val :=
  let f := t.fmt.toNat
  let kt := 64 * (t.kb + 1)
  let w := wfmtBits f
  let (el, bl, _) := tileSections f t.blk.toNat t.kb t.nb
  let blk := 8 * 2 ^ t.blk.toNat
  let code := if w ≥ 8 then bytesAt t.bytes (n * kt * w / 8 + k * w / 8) (w / 8)
    else bytesAt t.bytes (n * kt / 2 + k / 2) 1 / 2 ^ (4 * (k % 2)) % 16
  let e := match f with
    | 0 => decodeFloat .e4m3 code | 1 => decodeFloat .e5m2 code | 2 => decodeFloat .e2m1 code
    | 3 => decodeFloat .bf16 code | 4 => ofInt (decodeInt .i8 code)
    | _ => ofInt (if code ≥ 8 then (code : Int) - 16 else code)
  let e2 := if f ≤ 2 then e.mul (decodeScale (bytesAt t.bytes (el + n * kt / blk + k / blk) 1)) else e
  e2.mul (decodeFloat .bf16 (bytesAt t.bytes (el + bl + 2 * (n * kt / 64 + k / 64)) 2))
/-- The plane format that a step needs (R278). -/
def stepPfmt (afmt : Nat) : Nat := if afmt = 3 then 1 else if afmt = 2 then 2 else 0
/-- Code of K-element i of a south element, for row h of an iteration, from its beats. -/
def planeCode (afmt h : Nat) (beats : List W128) (i : Nat) : Nat :=
  let bit := fun (m j : Nat) => ((beats.getD m 0).getLsbD (16 * j + i)).toNat
  if afmt = 2 then ((List.range 4).map (fun j => bit 0 (4 * h + j) * 2 ^ j)).sum
  else ((List.range (if afmt = 3 then 16 else 8)).map (fun p => bit (p / 8) (p % 8) * 2 ^ p)).sum
/-- Value of an activation code. -/
def actVal (afmt code : Nat) : Val :=
  match afmt with
  | 0 => decodeFloat .e4m3 code | 1 => decodeFloat .e5m2 code | 2 => decodeFloat .e2m1 code
  | 3 => decodeFloat .bf16 code | _ => ofInt (decodeInt .i8 code)
/-- Exact sum of values. -/
def sumVals : List Val → Val
  | [] => .fin false 0 0 false
  | v :: vs => vs.foldl Val.add v
/-- One column of one row: its groups added in order (R66). -/
def Tile.dot (t : Tile) (acts : List Val) (n : Nat) (acc : W32) : W32 :=
  (List.range (4 * (t.kb + 1))).foldl (fun a g =>
    fAdd a (rn32 (sumVals ((List.range 16).map (fun j => (acts.getD (16 * g + j) .nan).mul (t.weight (16 * g + j) n)))))) acc

/-! ## Steps of a running command -/

/-- Set what lands on M of an element at the end of this cycle. -/
def State.aimM (s : State) (c : Ctx) (e : Nat) (x : Cap) (blk : Nat) : State :=
  s.setElem c e { s.elem c e with mNext := some (x, blk) }
/-- Read one plane beat of a south element, with its checks (R195, R277, R278): the beat, poisoned where its iteration is
not added, or none where the step stops. A guard line is checked before its span and format: it reads zero and leaves the
guard access pending, with no 0x15 (DESIGN CHOICE, log entry 76). -/
def State.planeRead (s : State) (c : Ctx) (k : Nat) (r : MxStepRec) (col a : Nat) : State × Option Cap :=
  let e := southElem col
  let p := swizzle r.span.toNat a
  let m := mget s.bankMeta (lineKey c e p)
  let pos := (s.islOf c e).ctr
  match s.bankChk c e p with
  | .notOwned => (s.cmdFault c k 0x31 p e pos, none)
  | .guard => (s.guardAccess c e p pos, some { side := mkSide 15 0 })
  | .broken => (s.bankBroken c e p, none)
  | .ok =>
    if m.span != r.span || (m.plane && m.pfmt.toNat != stepPfmt r.afmt.toNat) then
      (s.cmdFault c k 0x15 p e (s.run c k).startCtr, none)
    else (s.bankCorrected c e p, some { data := mget s.bank (beatKey c e p) })
/-- Read the beats of one cycle from the 32 south elements. -/
def State.planeReads (s : State) (c : Ctx) (k : Nat) (r : MxStepRec) (a : Nat) : List Nat → State × List Cap × Bool
  | [] => (s, [], true)
  | col :: cs =>
    match s.planeRead c k r col a with
    | (s1, some v) => let (s2, vs, ok) := s1.planeReads c k r a cs; (s2, v :: vs, ok)
    | (s1, none) => (s1, [], false)
/-- Add one iteration's sums. -/
def State.stepSums (s : State) (c : Ctx) (r : MxStepRec) (f : Nat) (beats : List (List W128)) : State :=
  match mget s.tileA c.toNat with
  | none => s
  | some t =>
    let af := r.afmt.toNat
    (List.range (stepRows af)).foldl (fun s h =>
      let acts := (List.range (64 * (t.kb + 1))).map (fun k =>
        actVal af (planeCode af h (beats.map (fun m => m.getD (k / 16) 0)) (k % 16)))
      let row := (MxStepRec.row r f + h) % 1024
      s.accPut c row r.acccol.toNat ((List.range (16 * (t.nb + 1))).map (fun n =>
        t.dot acts n (s.accAt c row (r.acccol.toNat + n))))) s
/-- A step at the end of the d-th cycle after its start. Beats of an iteration wait in the latch; the sums of one that
met a guard line are not added. DESIGN CHOICE, log entry 38. -/
def State.stepAdvance (s : State) (c : Ctx) (k : Nat) (r : MxStepRec) (d : Nat) : State :=
  let cy := stepCycles r.afmt.toNat
  let f := (d - 1) / cy
  let j := (d - 1) % cy
  let n := MxStepRec.bpr r
  if d = 0 || f ≥ MxStepRec.iters r || j ≥ n || (s.run c k).f != f * n + j then s
  else
    let a := ((r.bank.toNat : Int) + nestOff [r.l1, r.l2] f).toNat + 16 * j
    match s.planeReads c k r a (List.range 32) with
    | (s1, _, false) => s1.putRun c k (fun x => { x with st := .ended })
    | (s1, vs, true) =>
      let s2 := s1.putRun c k (fun x => { x with
        f := x.f + 1, latch := vs.zipIdx.foldl (fun m p => mset m (32 * j + p.2) (some p.1)) x.latch })
      if j + 1 < n then s2
      else
        let l := (s2.run c k).latch
        let beats := (List.range n).map (fun m => (List.range 32).map (fun col => ((mget l (32 * m + col)).getD {}).data))
        (if l.any (fun p => p.2.any Cap.anyP) then s2 else s2.stepSums c r f beats).putRun c k (fun x => { x with latch := [] })

/-- Bytes of row f of an epilogue (R279). -/
def State.epiRow (s : State) (c : Ctx) (r : MxEpiRec) (f : Nat) : List Byte :=
  let ty : Ty := match r.ofmt.toNat with | 0 => .f32 | 1 => .bf16 | 2 => .f16 | 3 => .e4m3 | _ => .e5m2
  let mode : Rnd := match r.rnd.toNat with | 0 => .rn | 1 => .rz | _ => .ru
  (List.range (r.cols1.toNat + 1)).flatMap (fun j =>
    let v := f32 (fMul (s.accAt c (r.accrow.toNat + f) (r.acccol.toNat + j)) r.scale)
    let v := if r.relu && v.le (.fin false 0 0 false) then .fin false 0 0 false else v
    leList (ofmtBytes r.ofmt.toNat) (convLane .f32 ty mode r.sat 0 (rn32 v).toNat))
/-- Store the pieces of a row that have not entered yet. -/
def State.epiPieces (s : State) (c : Ctx) (k f : Nat) : List (Nat × List Byte) → State × EStop
  | [] => (s, .none)
  | (va, bs) :: ps =>
    match s.engPut (s.taskAt c) k f false false va bs with
    | (s1, .none) => (s1.putRun c k (fun y => { y with f := y.f + 1 })).epiPieces c k f ps
    | (s1, e) => (s1.stopRun c k f e, e)
/-- The rows of an epilogue that are read at the end of the d-th cycle (R280): their bytes wait in the port. -/
def State.epiRead (s : State) (c : Ctx) (k : Nat) (r : MxEpiRec) (d : Nat) : State :=
  let f := (s.run c k).captured
  if f < r.l1.count.toNat && 1 + epiCycles r * f ≤ d then
    let row := (s.epiRow c r f).map (fun b => (b, false))
    s.putRun c k (fun y => { y with part := y.part ++ row, captured := f + 1 })
  else s
/-- Store the next row of an epilogue, and clear it after its bytes have entered (R280). -/
def State.epiStore (s : State) (c : Ctx) (k : Nat) (r : MxEpiRec) : State :=
  let x := s.run c k
  let f := x.done
  if f ≥ r.l1.count.toNat then s
  else
    let va := addOff (s.vaOf c k 6 r.base) (nestOff [r.l1] f)
    let n := (r.cols1.toNat + 1) * ofmtBytes r.ofmt.toNat
    match s.epiPieces c k f ((pieces va ((x.part.take n).map (·.1))).drop x.f) with
    | (s1, .none) =>
      let s2 := s1.putRun c k (fun y => { y with st := .running, full := false, f := 0, done := f + 1, part := y.part.drop n })
      if r.clear then s2.accPut c (r.accrow.toNat + f) r.acccol.toNat (List.replicate (r.cols1.toNat + 1) 0) else s2
    | (s1, _) => s1
/-- Rows of an epilogue that are due at the end of the d-th cycle; a port that stalls goes on when it can. -/
def epiDue (r : MxEpiRec) (done d : Nat) : Bool := done < r.l1.count.toNat && 4 + epiCycles r * (done + 1) ≤ d
/-- A drain at the end of the d-th cycle (R281). -/
def State.drainAdvance (s : State) (c : Ctx) (k : Nat) (r : MxDrainRec) (d : Nat) : State :=
  let b := 1 + r.wide.toNat
  let m := d - 8
  let f := m / b
  let j := m % b
  if d < 8 || f ≥ r.l1.count.toNat || (s.run c k).f != m then s
  else
    let row := r.accrow.toNat + f
    let s1 := (List.range 32).foldl (fun s col =>
      s.aimM c (southElem col) { data := packLanes 32 ((List.range 4).map (fun i =>
        (s.accAt c row (r.acccol.toNat + 128 * j + 4 * col + i)).toNat)) } 32) s
    let s2 := s1.putRun c k (fun x => { x with f := m + 1 })
    if r.clear && j + 1 = b then s2.accPut c row r.acccol.toNat (List.replicate (128 * b) 0) else s2
/-- `mx.zero` at the end of the d-th cycle: 16 rows a cycle (R282). -/
def State.zeroAdvance (s : State) (c : Ctx) (k : Nat) (r : MxZeroRec) (d : Nat) : State :=
  let n := min r.l1.count.toNat (16 * d)
  let s1 := ((List.range n).filter (fun f => (s.run c k).done ≤ f)).foldl (fun s f =>
    s.accPut c (r.accrow.toNat + f) r.acccol.toNat (List.replicate (r.cols1.toNat + 1) 0)) s
  s1.putRun c k (fun x => { x with done := max x.done n })
/-- Stall the island of a command in this real cycle (R206). -/
def State.stallIsl (s : State) (c : Ctx) (i : Instr) : State :=
  match hdrOf i with
  | some h => s.setIsl c h.island.toNat { s.isl c h.island.toNat with stall := true }
  | none => s
/-- What a matrix command does at the end of an island cycle. It ends at its join; an epilogue with rows that
have not entered, and a swap behind a held load, stall the island instead; the swap performs in the cycle after the load
completes (R275). -/
def State.mxAdvance (s : State) (c : Ctx) (k : Nat) : State :=
  let x := s.run c k
  let d := s.since c k
  if !x.live then s
  else
    let finish := fun (s : State) (i : Instr) =>
      if mxJoin i ≤ d && (s.run c k).live then s.putRun c k (fun x => { x with st := .ended }) else s
    match x.ins with
    | some (.mxWload r) => s.mxLoad c k r d
    | some (.mxSwap h) =>
      if d = 0 then
        -- a load of another island that joins in this cycle has joined for the swap too
        let s := match s.loadJoins c with
          | some (j, r) => if (s.islOfCmd c (.mxWload r)).issued && !(s.islOfCmd c (.mxWload r)).stall then
              s.mxLoad c j r (s.since c j) else s
          | none => s
        match mget s.tileS c.toNat with
        | some t =>
          if !t.whole || ((s.run c t.cmd).slip && (s.run c t.cmd).startReal == s.cycle) then s.stallIsl c (.mxSwap h)
          else if x.done = 0 then
            { (s.putRun c k (fun x => { x with done := 1 })) with
              tileA := mset s.tileA c.toNat (some t), tileS := mset s.tileS c.toNat (mget s.tileA c.toNat) }
          else s
        | none => s
      else finish s (.mxSwap h)
    | some (.mxStep r) => finish (s.stepAdvance c k r d) (.mxStep r)
    | some (.mxEpi r) =>
      let s0 := s.epiRead c k r d
      let s1 := if x.st == .running && epiDue r x.done d then s0.epiStore c k r else s0
      if mxJoin (.mxEpi r) ≤ d && (s1.run c k).done < r.l1.count.toNat then
        (s1.putRun c k (fun x => { x with late := true })).stallIsl c (.mxEpi r)
      else finish s1 (.mxEpi r)
    | some (.mxDrain r) => finish (s.drainAdvance c k r d) (.mxDrain r)
    | some (.mxZero r) => finish (s.zeroAdvance c k r d) (.mxZero r)
    | _ => s

end Sys2Proof.Machine
end

