-- ==== Sys2Proof/Machine/Attention.lean ====
section
/-!
DEFINITION. The attention commands (17_attention_die.md, R333 to R358). ATTENTION_QUEUE_JOIN is the start of a
command; the row of each command is its leaving, with all that it performs until it ends, is held or parks.
-/

namespace Sys2Proof.Machine

/-! ## Start (R348) -/

/-- Put a command into a queue in start order: real cycle first, then command index. -/
def AtQueued.into (x : AtQueued) : List AtQueued → List AtQueued
  | [] => [x]
  | q :: qs => if q.startReal == x.startReal && decide (x.cmd < q.cmd) then x :: q :: qs else q :: x.into qs
def atQueueSize : Nat := 64
/-- Join the partition's queue in start order; 0x10 where a started command finds no place in its 64. The command has
ended at its start cycle. -/
def execAttentionQueueJoin (op : AtOp) (r : AtRec) (s : State) : Out :=
  let c := s.cur
  let k := s.curCmd.toNat
  let i := Instr.attentionQueueJoin op r
  let va := fun (w : Nat) (raw : BitVec 52) => BitVec.ofNat 52 (s.vaOf c k w raw)
  let r2 := { r with handle := va 2 r.handle, rowBase := va 3 r.rowBase, out := va 5 r.out, cw := va 6 r.cw
                     w4 := if op == AtOp.sel || op == AtOp.att then (va 4 (r.w4.setWidth 52)).setWidth 64 else r.w4 }
  let q := ({ cmd := k, op := op, rec' := r2, lims := [s.sRange c k 3, s.sRange c k 4, s.sRange c k 5]
              startReal := s.cycle } : AtQueued).into (mget s.atq c.toNat)
  let s1 := ({ s with atq := mset s.atq c.toNat (q.take atQueueSize) } : State).setRun c k
    { st := .ended, ins := some i, startReal := s.cycle, startCtr := (s.islOfCmd c i).ctr }
  match q.drop atQueueSize with
  | [] => .next s1
  | x :: _ => .next (s1.cmdFault c x.cmd 0x10 0 0 (((s1.run c x.cmd).ins.map (fun j => (s.islOfCmd c j).ctr)).getD 0))

/-! ## Attention memory (R334 to R340) -/

def atBase : Nat := 0x10000000000
def inAttention (pa : Nat) : Bool := atBase ≤ pa && pa < 0x14000000000
def State.atOf (s : State) (i : Nat) : AtRun := s.atRun.getD i default
def State.modAt (s : State) (i : Nat) (f : AtRun → AtRun) : State := { s with atRun := s.atRun.modify i f }

/-- What a row, or a translation, of a command comes to. -/
inductive RowRes where
  | ok
  | held (va : Nat)
  | wait
  /-- Parks, with the Address field of its record. -/
  | park (addr : Nat)
  | remote
  | ended
  deriving DecidableEq, Repr, Inhabited

/-- End the gang of a run. -/
def State.atEnd (s : State) (i : Nat) (code : BitVec 8) (addr pos : Nat) : State :=
  let a := s.atOf i
  s.engEnd a.task a.cmd code addr pos
/-- Fields of a descriptor (R336). -/
structure SeqDesc where
  dcode : Nat
  e4m3 : Bool
  length : Nat
  entries : Nat
  table : Nat
  context : Nat
  owner : Nat
  ok : Bool
  deriving DecidableEq, Repr, Inhabited
def State.seqDesc (s : State) (pa : Nat) : SeqDesc :=
  let w (i : Nat) := s.word (pa + 8 * i)
  { dcode := w 0 % 4, e4m3 := w 0 / 4 % 2 == 1, length := w 0 / 256 % 2 ^ 24, entries := w 0 / 2 ^ 32
    table := w 1 % 2 ^ 52, context := w 2 % 65536, owner := w 2 / 65536 % 256
    ok := w 0 % 4 != 3 && w 0 / 16 % 16 == 0 && w 1 / 2 ^ 52 == 0 && w 2 / 2 ^ 24 == 0 &&
      (List.range 28).all (fun j => w (4 + j) == 0) }
def SeqDesc.d (x : SeqDesc) : Nat := 64 * 2 ^ x.dcode
def SeqDesc.e (x : SeqDesc) : Nat := if x.e4m3 then 1 else 2
def SeqDesc.pageBytes (x : SeqDesc) : Nat := 64 + 4 * x.d + 128 * x.d * x.e
/-- Set the Length of a descriptor. -/
def State.setLength (s : State) (pa n : Nat) : State :=
  let w := s.word pa
  s.updateWord pa (w - w / 256 % 2 ^ 24 * 256 + n * 256)
/-- An uncorrectable error that a run meets ends the context of the owner (R335); with owner tag 0 it ends the gang of the run
with 0x13, as poison (R381). DEDUCED, log entry 24. -/
def State.atBroken (s : State) (i pa pos tag : Nat) : State :=
  let a := s.atOf i
  let s1 := s.memError (s.task a.task).ctx pa tag a.cmd 0 (BitVec.ofNat 64 pos)
  if tag = 0 then s1.atEnd i 0x13 pa pos else s1
/-- Read attention memory for a run: a failing check ends the gang with 0x14, an uncorrectable error the context
of the owner (R335). -/
def State.atGet (s : State) (i pa n pos tag : Nat) : State × Option (List Byte) :=
  let gs := granulesOf pa n
  if gs.any (fun g => s.hardMem (64 * g)) then (s.atBroken i pa pos tag, none)
  else if gs.all s.checkOk then (s, some (s.bytes pa n))
  else (s.atEnd i 0x14 pa pos, none)
/-- Read the descriptor of a run, its check verified (R335). It has no global entry, so that an error past correction in it
ends the context of the commanding task. DEDUCED, log entry 24. -/
def State.descGet (s : State) (i pos : Nat) : State × Bool :=
  let a := s.atOf i
  let (s1, bs) := s.atGet i a.desc 256 pos (s.task a.task).owner.toNat
  (s1, bs.isSome)
/-- The sender of a message about a task's operation. -/
def State.senderOf (s : State) (id op : Nat) : Sender :=
  { who := { pkg := s.pkgId, task := BitVec.ofNat 32 id }, op := op, tenant := (s.task id).tenant
    owner := (s.task id).owner }
/-- The checks of a global entry (R340). -/
def State.globalOk (s : State) (i pos addr own : Nat) (ge : Option Nat) : State × Option Nat × RowRes :=
  match ge with
  | none => (s, none, .park addr)
  | some ge =>
    if ge % 2 = 0 then (s, none, .park addr)
    else if ge / 2 % 2 ^ 11 != 0 || ge / 2 ^ 60 != 0 || !inAttention (ge / 4096 % 2 ^ 40 * 4096) then
      (s.atEnd i 0x22 addr pos, none, .ended)
    else if ge / 2 ^ 52 % 256 != own then (s.atEnd i 0x31 addr pos, none, .ended)
    else (s, some (ge / 4096 % 2 ^ 40 * 4096), .ok)
/-- Translate page P of a run's sequence, once a command (R340). A page of another package is asked for. -/
def State.atPage (s : State) (i pos addr p : Nat) : State × RowRes :=
  let a := s.atOf i
  let d := s.seqDesc a.desc
  if a.pages.any (·.1 == p) || a.far.any (·.page == p) then (s, .ok)
  else if p ≥ d.entries then (s, .park addr)
  else match s.atGet i (d.table + 8 * p) 8 pos d.owner with
    | (s1, none) => (s1, .ended)
    | (s1, some bs) =>
      let le := leVal bs
      let tier := le / 1024 % 4
      let pkg := BitVec.ofNat 10 le
      let block := le / 4096
      if tier = 0 then (s1, .park addr)
      else if tier ≥ 2 then (s1.atEnd i 0x22 addr pos, .ended)
      else if pkg != s1.pkgId then
        if !s1.reaches pkg then (s1.atEnd i 0x38 addr pos, .ended)
        else
          let op := s1.nextOp
          ({ ((s1.modAt i (fun a => { a with wait := .remote p op pkg block })).emit
                (.page pkg (s1.senderOf a.task op) block d.pageBytes)) with nextOp := op + 1 }, .remote)
      else
        let g := if block ≥ s1.regs.atgSize.toNat then (s1, some none)
          else match s1.atGet i (s1.regs.atgBase.toNat + 8 * block) 8 pos d.owner with
            | (s2, some gs) => (s2, some (some (leVal gs)))
            | (s2, none) => (s2, none)
        match g with
        | (s2, none) => (s2, .ended)
        | (s2, some ge) => match s2.globalOk i pos addr d.owner ge with
          | (s3, some pa, _) => (s3.modAt i (fun a => { a with pages := a.pages ++ [(p, pa)] }), .ok)
          | (s3, none, r) => (s3, r)
/-- Translate pages in order, up to the first that does not go through. DEDUCED, log entry 24. -/
def State.atPages (s : State) (i pos : Nat) (addr : Nat → Nat) : List Nat → State × RowRes
  | [] => (s, .ok)
  | p :: ps => match s.atPage i pos (addr p) p with
    | (s1, .ok) => s1.atPages i pos addr ps
    | r => r
/-- Bytes of a translated page. DEDUCED, log entry 24. -/
def State.pageGet (s : State) (i pos p off n : Nat) : State × Option (List Byte) :=
  let a := s.atOf i
  match a.far.find? (·.page == p) with
  | some x => (s, some ((x.bytes.drop off).take n))
  | none =>
    let pa := ((a.pages.find? (·.1 == p)).map (·.2)).getD 0
    s.atGet i (pa + off) n pos (s.seqDesc a.desc).owner
/-- Replace bytes of a list from an offset on. -/
def patchBytes (l : List Byte) (off : Nat) (bs : List Byte) : List Byte := l.take off ++ bs ++ l.drop (off + bs.length)
/-- Write bytes into attention memory for a run, granule by granule; a part of a granule first reads it (R72, R73), and what
that read meets stops the row. -/
def State.atWrite (s : State) (i pos tag : Nat) : List (Nat × List Byte) → State × Bool
  | [] => (s, true)
  | (pa, bs) :: ps =>
    match (if bs.length < 64 then s.atGet i (pa / 64 * 64) 64 pos tag else (s, some [])) with
    | (s1, none) => (s1, false)
    | (s1, some _) => (s1.writeGranule pa bs).1.atWrite i pos tag ps
/-- Write bytes of a translated page. A page of another package is written in the copy and sent to the address that its
translation found; the run waits for the answer before it ends (R357, log entry 24). -/
def State.pagePut (s : State) (i pos p off : Nat) (bs : List Byte) : State × Bool :=
  let a := s.atOf i
  match a.far.find? (·.page == p) with
  | some x =>
    let op := s.nextOp
    ({ ((s.modAt i (fun a => { a with
        far := a.far.map (fun q => if q.page = p then { q with bytes := patchBytes q.bytes off bs } else q)
        acks := a.acks ++ [op] })).emit (.pageWrite x.pkg (s.senderOf a.task op) (x.pa + off) bs)) with nextOp := op + 1 }, true)
  | none => s.atWrite i pos (s.seqDesc a.desc).owner (pieces (((a.pages.find? (·.1 == p)).map (·.2)).getD 0 + off) bs)
/-- Write parts of pages in order, up to the first that does not go through. -/
def State.pagePuts (s : State) (i pos : Nat) : List (Nat × Nat × List Byte) → State × Bool
  | [] => (s, true)
  | (p, off, bs) :: ps =>
    match s.pagePut i pos p off bs with
    | (s1, true) => s1.pagePuts i pos ps
    | r => r

/-! ## Compute-side reads and writes (R348) -/

/-- Read a row, a list or a handle word of a task. Poison ends the gang: 0x14 for a failing check, 0x13 for a
page that reads as poison and for an error past correction that ended no context (R381; DEDUCED, log entry 24). -/
def State.rowGet (s : State) (id cmd pos va n : Nat) : State × List Byte × RowRes :=
  match s.engRead id cmd pos false false va n with
  | (s1, bs, .none) =>
    (match (bs.zipIdx).find? (fun p => p.1.2) with
    | none => (s1, bs.map (·.1), .ok)
    | some p => match s.extAcc (s.task id) .load (va + p.2) with
      | .ok pa poison _ _ =>
        if poison || s.hardMem pa then (s1.engEnd id cmd 0x13 (va + p.2) pos, [], .ended)
        else ((s.freshenAll id false va n).engEnd id cmd 0x14 ((va + p.2) / 64 * 64) pos, [], .ended)
      | _ => (s1, [], .ended))
  | (s1, _, .held v) => (s1, [], .held v)
  | (s1, _, .wait) => (s1, [], .wait)
  | (s1, _, .ended) => (s1, [], .ended)
/-- Write bytes of a task as an external effect. -/
def State.rowPut (s : State) (id cmd pos va : Nat) (bs : List Byte) : State × RowRes :=
  match s.engWrite id cmd pos false true va bs with
  | (s1, .none) => (s1, .ok)
  | (s1, .held v) => (s1, .held v)
  | (s1, .wait) => (s1, .wait)
  | (s1, .ended) => (s1, .ended)

/-! ## Arithmetic (R349, R350, R352, R353) -/

/-- Sanitised BF16 code, and whether it was replaced. -/
def sanitise (c : Nat) : Nat × Bool :=
  if c / 128 % 256 = 255 then ((if c % 128 = 0 then c / 32768 * 32768 + 0x7F7F else 0), true) else (c, false)
/-- Code u of width 16 at an offset. -/
def half (bs : List Byte) (o : Nat) : Nat := leVal ((bs.drop o).take 2)
/-- Sanitised BF16 values of d channels from an offset, with the codes. -/
def channels (bs : List Byte) (o d : Nat) : List (Nat × Bool) := (List.range d).map (fun c => sanitise (half bs (o + 2 * c)))
/-- Rounding up and down to BF16 (R350). -/
def ruB16 (v : Val) : Nat := roundTo .bf16 .ru false 0 v
def rdB16 (v : Val) : Nat := roundTo .bf16 .rn false 0 (decodeFloat .bf16 (ruB16 v.neg)).neg
/-- A positive, normal and finite FP32 scale. -/
def scaleOk (w : W32) : Bool := w.toNat < 0x7F800000 && 0x00800000 ≤ w.toNat
/-- Stored code and value of a channel. -/
def storeElem (e4m3 : Bool) (scale : W32) (c : Nat) : Nat × Val :=
  if e4m3 then
    let q := roundTo .e4m3 .rn true 0 ((decodeFloat .bf16 c).div (f32 scale))
    (q, (decodeFloat .e4m3 q).mul (f32 scale))
  else (c, decodeFloat .bf16 c)
/-- Value of a stored element at an offset of a page section. -/
def elemVal (e4m3 : Bool) (scale : W32) (bs : List Byte) (o : Nat) : Val :=
  if e4m3 then (decodeFloat .e4m3 (leVal ((bs.drop o).take 1))).mul (f32 scale) else decodeFloat .bf16 (half bs o)
/-- Lo and Hi after a key's values, as BF16 codes. -/
def widen (lo hi : List Nat) (kv : List Val) : List Nat × List Nat :=
  let b (c : Nat) := decodeFloat .bf16 c
  let enc (v : Val) := roundTo .bf16 .rn false 0 v
  (((lo.zip kv).map (fun p => enc ((b p.1).min (b (rdB16 p.2))))), (hi.zip kv).map (fun p => enc ((b p.1).max (b (ruB16 p.2)))))
def codes16 (l : List Nat) : List Byte := (l.map (leList 2)).flatten
/-- Summary of an empty page. -/
def emptyLoHi (d : Nat) : List Nat × List Nat := (List.replicate d 0x7F80, List.replicate d 0xFF80)
/-- Dot product under R69 with a rounding of each group. -/
def dotBy (r : Val → Val) (q k : List Val) : Val :=
  let ps := (q.zip k).map (fun p => p.1.mul p.2)
  (List.range (ps.length / 16)).foldl (fun a g => r (a.add (r (sumVals ((ps.drop (16 * g)).take 16)))))
    (.fin false 0 0 false)

/-! ## `at.app` (R350) -/

/-- Append row f. -/
def State.appRow (s : State) (i f : Nat) : State × RowRes :=
  let a := s.atOf i
  let r := a.rec'
  let x := s.seqDesc a.desc
  let d := x.d
  let j := x.length
  let p := j / 64
  let row := j % 64
  match s.atPage i f j p with
  | (s1, .ok) =>
    let fresh := row = 0
    if fresh && x.e4m3 && !(scaleOk (r.w4.setWidth 32) && scaleOk ((r.w4 >>> 32).setWidth 32)) then
      (s1.atEnd i 0x22 j f, .ended)
    else match s1.rowGet a.task a.cmd f (r.rowBase.toNat + f * r.rows.stride.toNat) (4 * d) with
      | (s2, kvs, .ok) => (match (if fresh then (s2, some []) else s2.pageGet i f p 0 (64 + 4 * d)) with
        | (s3, none) => (s3, .ended)
        | (s3, some h) =>
          let ks : W32 := if fresh then (if x.e4m3 then r.w4.setWidth 32 else 0) else BitVec.ofNat 32 (bytesAt h 4 4)
          let vs : W32 := if fresh then (if x.e4m3 then (r.w4 >>> 32).setWidth 32 else 0) else BitVec.ofNat 32 (bytesAt h 8 4)
          let flags := if fresh then 0 else bytesAt h 2 1
          let key := channels kvs 0 d
          let val := channels kvs (2 * d) d
          let st := key.map (fun c => storeElem x.e4m3 ks c.1)
          let sv := val.map (fun c => storeElem x.e4m3 vs c.1)
          let (lo0, hi0) := if fresh then emptyLoHi d
            else ((List.range d).map (fun c => half h (64 + 2 * c)), (List.range d).map (fun c => half h (64 + 2 * d + 2 * c)))
          let (lo, hi) := widen lo0 hi0 (st.map (·.2))
          let scrub := (key ++ val).any (·.2)
          let enc := fun (l : List (Nat × Val)) => (l.map (fun c => leList x.e c.1)).flatten
          match s3.pagePuts i f [(p, 64, codes16 lo ++ codes16 hi), (p, 64 + 4 * d + row * d * x.e, enc st),
              (p, 64 + 4 * d + 64 * d * x.e + row * d * x.e, enc sv),
              (p, 0, leList 2 (row + 1) ++ leList 1 (Nat.lor flags (if scrub then 1 else 0)) ++ [0] ++ leList 4 ks.toNat ++
                leList 4 vs.toNat)] with
          | (s4, true) => (s4.setLength a.desc (j + 1), .ok)
          | (s4, false) => (s4, .ended))
      | (s2, _, e) => (s2, e)
  | r => r

/-! ## `at.trunc` (R351) -/

def ceil64 (n : Nat) : Nat := (n + 63) / 64
/-- Truncate to m tokens: every page that it touches is translated, and then the length is checked. -/
def State.truncAll (s : State) (i m : Nat) : State × RowRes :=
  let a := s.atOf i
  let x := s.seqDesc a.desc
  let d := x.d
  let past := (List.range (ceil64 x.length - ceil64 m)).map (· + ceil64 m)
  let cut := if m % 64 != 0 then [m / 64] else []
  match s.atPages i 0 (fun p => 64 * p) (cut ++ past) with
  | (s1, .ok) =>
    if m > x.length then (s1.atEnd i 0x22 m 0, .ended)
    else
      let keys := match cut with
        | p :: _ => s1.pageGet i 0 p 0 (64 + 4 * d + m % 64 * d * x.e)
        | [] => (s1, some [])
      match keys with
      | (s2, none) => (s2, .ended)
      | (s2, some h) =>
        let s3 := s2.setLength a.desc m
        let puts := cut.flatMap (fun p =>
          let ks : W32 := BitVec.ofNat 32 (bytesAt h 4 4)
          let (lo, hi) := (List.range (m % 64)).foldl (fun (b : List Nat × List Nat) r =>
            widen b.1 b.2 ((List.range d).map (fun c => elemVal x.e4m3 ks h (64 + 4 * d + (r * d + c) * x.e)))) (emptyLoHi d)
          [(p, 0, leList 2 (m % 64)), (p, 64, codes16 lo ++ codes16 hi)]) ++
          past.flatMap (fun p => [(p, 0, leList 2 0), (p, 64, codes16 (emptyLoHi d).1 ++ codes16 (emptyLoHi d).2)])
        match s3.pagePuts i 0 puts with
        | (s4, true) => (s4, .ok)
        | (s4, false) => (s4, .ended)
  | r => r

/-! ## Query rows (R343) -/

/-- A query row: Qpos, Kvalid, Scale, Threshold and sanitised values. -/
structure Query where
  vend : Nat
  scale : W32
  thr : W32
  q : List Val
  deriving DecidableEq, Repr, Inhabited
def readQuery (bs : List Byte) (d len : Nat) (causal : Bool) : Query :=
  let v := min len (bytesAt bs 4 4)
  { vend := if causal then min v (bytesAt bs 0 4 + 1) else v, scale := BitVec.ofNat 32 (bytesAt bs 8 4)
    thr := BitVec.ofNat 32 (bytesAt bs 12 4), q := (channels bs 64 d).map (fun c => decodeFloat .bf16 c.1) }

/-! ## `at.sel` (R352) -/

/-- Upper bound of a page, rounded up at every step. -/
def boundOf (q : Query) (lh : List Byte) (d : Nat) : W32 :=
  let acc := (q.q.zipIdx).foldl (fun (acc : W32) p =>
    let lo := decodeFloat .bf16 (half lh (2 * p.2))
    let hi := decodeFloat .bf16 (half lh (2 * d + 2 * p.2))
    ru32 ((f32 acc).add ((f32 (ru32 (p.1.mul lo))).max (f32 (ru32 (p.1.mul hi)))))) 0
  ru32 ((f32 acc).mul (f32 q.scale))
/-- Bounds of pages, each translated as it is reached. -/
def State.bounds (s : State) (i f : Nat) (q : Query) (d : Nat) (us : List W32) : List Nat → State × RowRes × List W32
  | [] => (s, .ok, us)
  | p :: ps => match s.atPage i f (64 * p) p with
    | (s1, .ok) => (match s1.pageGet i f p 64 (4 * d) with
      | (s2, none) => (s2, .ended, us)
      | (s2, some lh) => s2.bounds i f q d (us ++ [boundOf q lh d]) ps)
    | (s1, e) => (s1, e, us)
/-- The gather list of a row. -/
def gatherList (r : AtRec) (q : Query) (ubs : List W32) : List Byte :=
  let np := ubs.length
  let u := fun (p : Nat) => f32 (ubs.getD p 0)
  let sink := fun (p : Nat) => decide (p < min r.sinks.toNat np)
  let rec' := fun (p : Nat) => decide (np ≤ p + r.recent.toNat)
  let ps := List.range np
  let forced := ps.filter (fun p => sink p || rec' p)
  let bset := ps.filter (fun p => !(sink p || rec' p) && (f32 q.thr).le (u p))
  let room := r.limit1.toNat + 1 - forced.length
  let keep := ps.filter (fun p => sink p || rec' p || (bset.contains p &&
    (bset.filter (fun o => (u p).lt (u o) || ((u o).eq (u p) && o < p))).length < room))
  let entry := fun (p : Nat) => leList 4 (p % 2 ^ 24 + 2 ^ 24 * ((if sink p then 1 else 0) + (if rec' p then 2 else 0) +
    (if sink p || rec' p then 0 else 4))) ++ leList 4 (ubs.getD p 0).toNat
  let body := (keep.map entry).flatten
  leList 2 keep.length ++ [0, 0] ++ leList 4 np ++ leList 4 bset.length ++ List.replicate 52 0 ++ body ++
    List.replicate (2048 - body.length) 0
/-- Bound the pages of row f and write its list. -/
def State.selRow (s : State) (i f : Nat) : State × RowRes :=
  let a := s.atOf i
  let r := a.rec'
  let x := s.seqDesc a.desc
  match s.rowGet a.task a.cmd f (r.rowBase.toNat + f * r.rows.stride.toNat) (64 + 2 * x.d) with
  | (s1, bs, .ok) =>
    let q := readQuery bs x.d x.length r.causal
    if !scaleOk q.scale then (s1.atEnd i 0x22 (r.rowBase.toNat + f * r.rows.stride.toNat) f, .ended)
    else match s1.bounds i f q x.d [] (List.range (ceil64 q.vend)) with
      | (s2, .ok, ubs) => s2.rowPut a.task a.cmd f (r.w4.toNat + 2112 * f) (gatherList r q ubs)
      | (s2, e, _) => (s2, e)
  | (s1, _, e) => (s1, e)

/-! ## `at.att` (R353) -/

def rsat (v : Val) : Val := f32 (rsat32 v)
/-- The softmax state: maximum, sum, outputs, pages, keys. -/
structure Soft where
  m : Val := .inf true
  l : Val := .fin false 0 0 false
  o : List Val := []
  pages : Nat := 0
  keys : Nat := 0
  deriving DecidableEq, Repr, Inhabited
/-- 2^x in FP32 (R70). -/
def exp2f (v : Val) : Val := f32 (rn32 v.exp2)
/-- One key. -/
def softKey (q : Query) (y : Soft) (key val : List Val) : Soft :=
  let sc := rsat ((dotBy rsat q.q key).mul (f32 q.scale))
  let y := if y.m.lt sc then
      let a := if y.m == .inf true then .fin false 0 0 false else exp2f (rsat (y.m.sub sc))
      { y with l := rsat (y.l.mul a), o := y.o.map (fun v => rsat (v.mul a)), m := sc }
    else y
  let p := exp2f (rsat (sc.sub y.m))
  { y with l := rsat (y.l.add p), o := (y.o.zip val).map (fun v => rsat (v.1.add (rsat (p.mul v.2)))), keys := y.keys + 1 }
/-- Rows of one page: the scales, and the keys and values of the first n rows. -/
def softPage (x : SeqDesc) (q : Query) (ks vs : W32) (keys vals : List Byte) (n : Nat) (y : Soft) : Soft :=
  let row := fun (bs : List Byte) (sc : W32) (r : Nat) =>
    (List.range x.d).map (fun c => elemVal x.e4m3 sc bs ((r * x.d + c) * x.e))
  (List.range n).foldl (fun y r => softKey q y (row keys ks r) (row vals vs r)) y
/-- The pages of a list in order, each translated as it is reached; those not live for the row add nothing. -/
def State.softPages (s : State) (i f : Nat) (x : SeqDesc) (q : Query) (y : Soft) : List Nat → State × RowRes × Soft
  | [] => (s, .ok, y)
  | p :: ps => match s.atPage i f (64 * p) p with
    | (s1, .ok) => (match s1.pageGet i f p 0 12 with
      | (s2, none) => (s2, .ended, y)
      | (s2, some h) =>
        let n := min (bytesAt h 0 2) (q.vend - 64 * p)
        let len := n * x.d * x.e
        let y := if 64 * p < q.vend then { y with pages := y.pages + 1 } else y
        match s2.pageGet i f p (64 + 4 * x.d) len with
        | (s3, none) => (s3, .ended, y)
        | (s3, some ks) => (match s3.pageGet i f p (64 + 4 * x.d + 64 * x.d * x.e) len with
          | (s4, none) => (s4, .ended, y)
          | (s4, some vs) => s4.softPages i f x q
              (softPage x q (BitVec.ofNat 32 (bytesAt h 4 4)) (BitVec.ofNat 32 (bytesAt h 8 4)) ks vs n y) ps))
    | (s1, e) => (s1, e, y)
/-- An output record. -/
def outRecord (y : Soft) : List Byte :=
  let empty := y.keys = 0
  let lse := if empty then rn32 (.inf true) else rsat32 (y.m.add (f32 (rn32 y.l.lg2)))
  leList 4 lse.toNat ++ leList 4 (if empty then 1 else 0) ++ leList 4 y.pages ++ leList 4 y.keys ++ List.replicate 48 0 ++
    (y.o.map (fun v => leList 4 (if empty then 0 else (rsat32 (v.div y.l)).toNat))).flatten
/-- Whether a list is in strictly ascending order below a limit. -/
def ascending (lim : Nat) : List Nat → Bool
  | [] => true
  | [a] => a < lim
  | a :: b :: r => a < b && ascending lim (b :: r)
/-- Read the Position fields of the entries of a list, in order. -/
def State.positions (s : State) (id cmd f base : Nat) : List Nat → State × List Nat × RowRes
  | [] => (s, [], .ok)
  | k :: ks => match s.rowGet id cmd f (base + 64 + 8 * k) 3 with
    | (s1, bs, .ok) =>
      let (s2, ps, e) := s1.positions id cmd f base ks
      (s2, leVal bs :: ps, e)
    | (s1, _, e) => (s1, [], e)
/-- Read a list: its Count, and the Position fields of so many entries; nothing more where the Count is too great. -/
def State.listGet (s : State) (id cmd f base : Nat) : State × Nat × List Nat × RowRes :=
  match s.rowGet id cmd f base 2 with
  | (s1, bs, .ok) =>
    let (s2, ps, e) := s1.positions id cmd f base (if leVal bs > 256 then [] else List.range (leVal bs))
    (s2, leVal bs, ps, e)
  | (s1, _, e) => (s1, 0, [], e)
/-- Attend over the list of row f. -/
def State.attRow (s : State) (i f : Nat) : State × RowRes :=
  let a := s.atOf i
  let r := a.rec'
  let x := s.seqDesc a.desc
  match s.listGet a.task a.cmd f (r.w4.toNat + 2112 * f) with
  | (s1, n, ps, .ok) =>
    if n > 256 || !ascending (ceil64 x.length) ps then (s1.atEnd i 0x22 (r.w4.toNat + 2112 * f) f, .ended)
    else (match s1.rowGet a.task a.cmd f (r.rowBase.toNat + f * r.rows.stride.toNat) (64 + 2 * x.d) with
      | (s2, bs, .ok) =>
        let q := readQuery bs x.d x.length r.causal
        if !scaleOk q.scale then (s2.atEnd i 0x22 (r.rowBase.toNat + f * r.rows.stride.toNat) f, .ended)
        else (match s2.softPages i f x q { o := List.replicate x.d (.fin false 0 0 false) } ps with
          | (s3, .ok, y) => s3.rowPut a.task a.cmd f (r.out.toNat + (64 + 4 * x.d) * f) (outRecord y)
          | (s3, e, _) => (s3, e))
      | (s2, _, e) => (s2, e))
  | (s1, _, _, e) => (s1, e)

/-! ## Leaving, performing, parking (R347, R348, R354, R357) -/

/-- Rows of a command; a truncation is one. -/
def AtRun.total (a : AtRun) : Nat := match a.op with | .trunc => 1 | _ => a.rec'.rows.count.toNat
/-- Row f of a run, once its descriptor has been read. -/
def State.atRow (s0 : State) (i f : Nat) : State × RowRes :=
  match s0.descGet i f with
  | (s, false) => (s, .ended)
  | (s, true) => match (s.atOf i).op with
    | .app => s.appRow i f
    | .sel => s.selRow i f
    | .att => s.attRow i f
    | .trunc => s.truncAll i (s.atOf i).rec'.rows.count.toNat
/-- Park a run at a row (R354); a truncation translates anew from its first page (R351). -/
def State.park (s : State) (i f addr : Nat) : State :=
  let a := s.atOf i
  let s1 := s.updateWord a.desc (Nat.lor (s.word a.desc) 8)
  let s2 := s1.updateWord (a.desc + 24) (f + 2 ^ 32 * a.task)
  (s2.engRecord a.task a.cmd 0x21 addr 0 f true false false).modAt i (fun a => { a with
    wait := .parked, row := f, pages := if a.op == .trunc then [] else a.pages, far := if a.op == .trunc then [] else a.far })
/-- Drop a run. -/
def State.dropAt (s : State) (i : Nat) : State := { s with atRun := s.atRun.eraseIdx i }
/-- A run whose rows are done ends once its laid-by writes have been replayed and its writes at other packages have been
performed; its word is incremented. -/
def State.attFinish (s : State) (i : Nat) : State :=
  let a := s.atOf i
  if !a.acks.isEmpty || (s.task a.task).lays.any (fun l => l.ext && l.intent.isNone && l.cmd == a.cmd) then s
  else (s.incWord a.task a.cmd a.rec'.cw.toNat a.rec'.scope).dropAt i
/-- Perform the rows that remain, up to a stop. -/
def State.atRows (s : State) (i : Nat) : Nat → State
  | 0 => s.attFinish i
  | n + 1 =>
    let f := (s.atOf i).row
    if f ≥ (s.atOf i).total then s.attFinish i
    else match s.atRow i f with
      | (s1, .ok) => (s1.modAt i (fun a => { a with row := f + 1 })).atRows i n
      | (s1, .park addr) => s1.park i f addr
      | (s1, .held va) => s1.modAt i (fun a => { a with wait := .held (BitVec.ofNat 64 va) })
      | (s1, .ended) => s1.dropAt i
      | (s1, _) => s1
/-- A run goes on: it is ready, it is the first of its sequence, and an append fits (R350, R357).
DESIGN CHOICE, log entry 41. -/
def State.attGo (s : State) (i : Nat) : State :=
  let a := s.atOf i
  let first := (s.atRun.take i).all (·.desc != a.desc)
  if a.wait != .ready || !first || i ≥ s.atRun.length then s
  else if a.op == .app && a.row = 0 then
    (match s.descGet i 0 with
    | (s1, false) => s1.dropAt i
    | (s1, true) =>
      if (s1.seqDesc a.desc).length + a.total > 2 ^ 24 - 1 then (s1.atEnd i 0x22 a.rec'.rowBase.toNat 0).dropAt i
      else s1.atRows i (a.total + 1))
  else s.atRows i (a.total + 1)

/-- The check of sizes when a command leaves (R347). -/
def extentsOk (op : AtOp) (r : AtRec) (lims : List (Nat × Nat)) (d : Nat) : Bool :=
  let n := r.rows.count.toNat
  let size : Nat := match op with | .app => 4 * d | _ => 64 + 2 * d
  let inLim (k a len : Nat) : Bool := decide ((lims.getD k (0, 0)).1 ≤ a) && decide (a + len ≤ (lims.getD k (0, 0)).2)
  let span : Nat := (n - 1) * r.rows.stride.toNat + size
  let rows := decide ((size : Int) ≤ r.rows.stride.toInt) && (n = 0 || inLim 0 r.rowBase.toNat span)
  match op with
  | .trunc => true
  | .app => rows
  | .sel => rows && (n = 0 || inLim 1 r.w4.toNat (2112 * n))
  | .att => rows && (n = 0 || (inLim 1 r.w4.toNat (2112 * n) && inLim 2 r.out.toNat ((64 + 4 * d) * n)))
/-- The first queued command of a context leaves, if it is of this kind and its task is head, and performs. -/
def State.atLeave (s : State) (op : AtOp) : State :=
  let c := s.cur
  let id := s.taskAt c
  match mget s.atq c.toNat with
  | [] => s
  | q :: rest =>
    if q.op != op || !s.isHead id || q.held then s
    else
      let pop := fun (s : State) => { s with atq := mset s.atq c.toNat rest }
      match s.rowGet id q.cmd 0 q.rec'.handle.toNat 8 with
      | (s1, bs, .ok) =>
        let h := leVal bs
        let desc := atBase + h % 2 ^ 30 * 256
        let x := s1.seqDesc desc
        let s2 := pop s1
        if h / 2 ^ 40 != 0 || h / 2 ^ 30 % 1024 != s1.pkgId.toNat then s2.engEnd id q.cmd 0x22 h 0
        else if (granulesOf desc 256).any (fun g => s1.hardMem (64 * g)) then
          (let s3 := s2.memError c desc (s1.task id).owner.toNat q.cmd 0 0
           if (s1.task id).owner = 0 then s3.engEnd id q.cmd 0x13 desc 0 else s3)
        else if (granulesOf desc 256).any (fun g => !s1.checkOk g) then s2.engEnd id q.cmd 0x14 desc 0
        else if !x.ok || !inAttention x.table then s2.engEnd id q.cmd 0x22 h 0
        else if x.context != (s1.task id).tenant.toNat then s2.engEnd id q.cmd 0x31 h 0
        else if !extentsOk op q.rec' q.lims x.d then s2.engEnd id q.cmd 0x22 h 0
        else
          let s3 := { s2 with atRun := s2.atRun ++
            [({ task := id, cmd := q.cmd, op := op, rec' := q.rec', desc := desc } : AtRun)] }
          s3.attGo (s3.atRun.length - 1)
      | (s1, _, .held _) => { s1 with atq := mset s1.atq c.toNat (({ q with held := true } : AtQueued) :: rest) }
      | (s1, _, .ended) => pop s1
      | (s1, _, _) => s1
def execAtApp (_ : AtRec) (s : State) : Out := .next (s.atLeave .app)
def execAtSel (_ : AtRec) (s : State) : Out := .next (s.atLeave .sel)
def execAtAtt (_ : AtRec) (s : State) : Out := .next (s.atLeave .att)
def execAtTrunc (_ : AtRec) (s : State) : Out := .next (s.atLeave .trunc)

end Sys2Proof.Machine
end

