-- ==== Sys2Proof/Machine/Spatial.lean ====
section
/-!
DEFINITION. The spatial store of the camera engine (15_camera_engine.md, R312 to R318) and the deferred intents
of `wh.red` and `cam.scat`: how one is recorded, applied and laid by (04_memory_model.md R77, R87, R97, R98;
R248, R266, R324, R325).
-/

namespace Sys2Proof.Machine

/-! ## Stores (R312) -/

/-- A store as its descriptor gives it. -/
structure Store where
  desc : Nat
  /-- Virtual address of the descriptor; the rest of the store follows it in both spaces. -/
  va : Nat
  origin : List W32
  icell : W32
  low : List Int
  high : List Int
  fcode : Nat
  tlog : Nat
  cap : Nat
  table : Nat
  pool : Nat
  free : Nat
  deriving DecidableEq, Repr, Inhabited

/-- Signed 21-bit field. -/
def s21 (v : Nat) : Int := (BitVec.ofNat 21 v).toInt
/-- Read a descriptor. -/
def State.readStore (s : State) (desc : Nat) : Store :=
  let w (i : Nat) := s.word (desc + 8 * i)
  { desc := desc
    va := ((s.stores.find? (fun x => x.2.2.1 == desc)).map (fun x => x.2.1)).getD 0
    origin := [BitVec.ofNat 32 (w 0), BitVec.ofNat 32 (w 0 / 2 ^ 32), BitVec.ofNat 32 (w 1)]
    icell := BitVec.ofNat 32 (w 1 / 2 ^ 32)
    low := [s21 (w 2), s21 (w 3), s21 (w 4)]
    high := [s21 (w 2 / 2 ^ 21), s21 (w 3 / 2 ^ 21), s21 (w 4 / 2 ^ 21)]
    fcode := w 5 % 4, tlog := w 5 / 2 ^ 8 % 32, cap := w 5 / 2 ^ 16 % 2 ^ 24
    table := w 6 % 2 ^ 52, pool := w 7 % 2 ^ 52, free := w 8 % 2 ^ 52 }
/-- Features of a cell, and bytes of a cell (R312, R314). -/
def Store.nf (x : Store) : Nat := 32 * 2 ^ x.fcode
def Store.cellBytes (x : Store) : Nat := 8 + 2 * x.nf
def Store.brickBytes (x : Store) : Nat := 512 * x.cellBytes
/-- Virtual address of a physical one within the store. -/
def Store.vaOf (x : Store) (pa : Nat) : Nat := x.va + (pa - x.desc)
/-- Physical address of a cell of a brick (R314). -/
def Store.cellPa (x : Store) (brick : Nat) (c : Int × Int × Int) : Nat :=
  x.pool + brick * x.brickBytes +
    x.cellBytes * ((c.1 % 8).toNat + 8 * (c.2.1 % 8).toNat + 64 * (c.2.2 % 8).toNat)
/-- Brick of a cell. -/
def brickOf (c : Int × Int × Int) : Int × Int × Int := (c.1 / 8, c.2.1 / 8, c.2.2 / 8)

/-- Read bytes of a store for a command: 0x08 for a faulting page; the check is verified where asked (R320,
R322). -/
def State.storePieces (s : State) (id cmd pos : Nat) (check : Bool) :
    List (Nat × Nat) → State × List (Byte × Bool) × EStop
  | [] => (s, [], .none)
  | (va, n) :: ps =>
    let s := s.freshen id false va
    let t := s.task id
    match s.extAccM t true .load va with
    | .pageFault => (s.engRecord id cmd 0x08 va 0 pos true false false, [], .held va)
    | .prot => (s.engEnd id cmd 0x0A va pos, [], .ended)
    | .owner => (s.engEnd id cmd 0x31 va pos, [], .ended)
    | .ok pa poison dead tag =>
      let s1 := if dead then s.engRecord id cmd 0x0B va 0 pos false false false else s
      if !poison && s1.hardMem pa && tag != 0 then (s1.memError t.ctx pa tag cmd 0 (BitVec.ofNat 64 pos), [], .ended)
      else
        let hard := !poison && s1.hardMem pa
        let s2 := if hard then s1.memError t.ctx pa tag cmd 0 (BitVec.ofNat 64 pos) else s1
        let bad := check && !poison && !hard && !s2.checkOk (pa / 64)
        let s3 := (if bad then s2.engRecord id cmd 0x14 (va / 64 * 64) 0 pos false false false else s2).move id pa n
        let bs := if poison || hard then poisonBytes n else (s3.bytes pa n).map (fun b => (b, bad))
        let (s4, cs, e) := s3.storePieces id cmd pos check ps
        (s4, bs ++ cs, e)
def State.storeRead (s : State) (id cmd pos : Nat) (check : Bool) (va n : Nat) :
    State × List (Byte × Bool) × EStop :=
  s.storePieces id cmd pos check (vaPieces va n)

/-- What a lookup of a brick finds (R315). -/
inductive Look where
  | present (brick : Nat)
  | missing (slot : Option Nat)
  deriving DecidableEq, Repr, Inhabited
/-- Key and first slot of a brick coordinate (R315). -/
def brickKey (b : Int × Int × Int) : Nat := (b.2.2 % 2 ^ 21).toNat * 2 ^ 42 + (b.2.1 % 2 ^ 21).toNat * 2 ^ 21 + (b.1 % 2 ^ 21).toNat
def brickHash (tlog key : Nat) : Nat :=
  if tlog = 0 then 0 else key * 0x9E3779B97F4A7C15 % 2 ^ 64 / 2 ^ (64 - tlog)
/-- The probes that remain from slot h + i on: slot words are read by `rd`, which may stop. -/
def lookFrom (rd : State → Nat → State × List (Byte × Bool) × EStop) (x : Store) (key h : Nat) :
    Nat → State → State × Option (Look × Bool) × EStop
  | 0, s => (s, some (.missing none, false), .none)
  | n + 1, s =>
    let slot := (h + (15 - n)) % 2 ^ x.tlog
    match rd s slot with
    | (s1, bs, .none) =>
      let w0 := leVal ((bs.take 8).map (·.1))
      let bad := bs.any (·.2)
      if w0 / 2 ^ 63 = 0 then (s1, some (.missing (some slot), bad), .none)
      else if w0 % 2 ^ 63 = key then (s1, some (.present (leVal ((bs.drop 8).map (·.1)) % 2 ^ 24), bad), .none)
      else lookFrom rd x key h n s1
    | (s1, _, e) => (s1, none, e)
/-- Look a brick up for a command. -/
def State.lookup (s : State) (id cmd pos : Nat) (x : Store) (b : Int × Int × Int) :
    State × Option (Look × Bool) × EStop :=
  let key := brickKey b
  lookFrom (fun s slot => s.storeRead id cmd pos false (x.vaOf (x.table + 16 * slot)) 16) x key (brickHash x.tlog key) 16 s

/-! ## Rays and cells (R317, R318) -/

/-- FP32 steps on patterns. -/
def fSub (a b : W32) : W32 := rn32 ((f32 a).sub (f32 b))
/-- Row i of a 3 x 4 matrix of camera fields from field `base`. -/
def xformRow (f : SMap W32) (base i : Nat) (a b c : W32) : W32 :=
  let m (j : Nat) := mget f (base + 4 * i + j)
  fAdd (fAdd (fAdd (fMul (m 0) a) (fMul (m 1) b)) (fMul (m 2) c)) (m 3)
def xform (f : SMap W32) (base : Nat) (a b c : W32) : List W32 :=
  [xformRow f base 0 a b c, xformRow f base 1 a b c, xformRow f base 2 a b c]
/-- Tokens across and down. -/
def camTw (f : SMap W32) : Nat := (mget f 28).toNat / (mget f 30).toNat
def camTh (f : SMap W32) : Nat := (mget f 29).toNat / (mget f 30).toNat
/-- The image point of a token: rn((t + 0.5) x p). -/
def pixel (t p : Nat) : W32 := rn32 (.fin false ((2 * t + 1) * p) (-1) false)
/-- The ray point of a token at a depth. -/
def rayPoint (f : SMap W32) (t : Nat) (d : W32) : List W32 :=
  let p := (mget f 30).toNat
  let xn := fMul (fSub (pixel (t % camTw f) p) (mget f 26)) (mget f 24)
  let yn := fMul (fSub (pixel (t / camTw f) p) (mget f 27)) (mget f 25)
  xform f 12 (fMul xn d) (fMul yn d) d
/-- Floor of a finite value. -/
def Val.floor? : Val → Option Int
  | .fin n m e _ =>
    let x : Int := if n then -(m : Int) else m
    some (if 0 ≤ e then x * 2 ^ e.toNat else x / (2 ^ (-e).toNat : Int))
  | _ => none
/-- One axis of the cell of a point. -/
def cellAxis (x : Store) (w : List W32) (a : Nat) : Option Int :=
  match (f32 (fMul (fSub (w.getD a 0) (x.origin.getD a 0)) x.icell)).floor? with
  | some q =>
    if q < -(2 ^ 20) || 2 ^ 20 - 1 < q || q < x.low.getD a 0 || x.high.getD a 0 < q then none else some q
  | none => none
/-- The cell of a world point; none outside the store's bounds. -/
def cellOf (x : Store) (w : List W32) : Option (Int × Int × Int) :=
  match cellAxis x w 0, cellAxis x w 1, cellAxis x w 2 with
  | some a, some b, some c => some (a, b, c)
  | _, _, _ => none

/-! ## Application of an intent (R97, R98, R248, R266, R324, R325) -/

/-- What the application of an intent comes to. -/
inductive Apply where
  | done
  /-- It is laid by under an address with a record of a code (R98). -/
  | lay (va : Nat) (code : BitVec 8)
  /-- It ends its gang. -/
  | ended
  deriving DecidableEq, Repr, Inhabited

/-- Translate the granule pieces of a destination; the first that does not allow a store decides. -/
def State.allStore (s : State) (t : Task) (sup : Bool) (va n : Nat) : Acc :=
  (vaPieces va n).foldl (fun a p => match a with
    | .ok pa po d tag => (match s.extAccM t sup .store p.1 with
        | .ok _ po2 _ _ => .ok pa (po || po2) d tag
        | x => x)
    | x => x) (match s.extAccM t sup .store va with | .ok pa _ d tag => .ok pa false d tag | x => x)
/-- One destination lane of a `wh.red` intent (R248). -/
def redLane (ty : RedTy) (m : Merge) (old : Nat) (acc : W32) : Nat :=
  match ty with
  | .i32 =>
    let a : Int := decodeInt .i32 old
    let b : Int := decodeInt .i32 acc.toNat
    (match m with
    | .write => acc.toNat
    | .add => (old + acc.toNat) % 2 ^ 32
    | .max => if a < b then acc.toNat else old
    | .min => if b < a then acc.toNat else old)
  | .f32 => (match m with
    | .write => acc.toNat
    | .add => (fAdd (BitVec.ofNat 32 old) acc).toNat
    | .max => (rn32 ((decodeFloat .f32 old).max (f32 acc))).toNat
    | .min => (rn32 ((decodeFloat .f32 old).min (f32 acc))).toNat)
  | .bf16 =>
    let o := decodeFloat .bf16 old
    let r (v : Val) := roundTo .bf16 .rn false 0 v
    (match m with
    | .write => r (f32 acc)
    | .add => r (o.add (f32 acc))
    | .max => r (o.max (f32 acc))
    | .min => r (o.min (f32 acc)))
/-- New destination bytes of a `wh.red` intent. -/
def redResult (ty : RedTy) (m : Merge) (old : List Byte) (acc : List W32) : List Byte :=
  let n := redBytes ty
  (acc.zipIdx.map (fun p => leList n (redLane ty m (leVal ((old.drop (n * p.2)).take n)) p.1))).flatten
/-- Bytes of memory behind a virtual range whose pages all allow it. -/
def State.extBytes (s : State) (t : Task) (sup : Bool) (va n : Nat) : List Byte :=
  (vaPieces va n).flatMap (fun p => match s.extAccM t sup .load p.1 with
    | .ok pa _ _ _ => s.bytes pa p.2
    | _ => List.replicate p.2 0)
/-- Physical pieces of a virtual range whose pages all allow a store. -/
def State.storePas (s : State) (t : Task) (sup : Bool) (va : Nat) (bs : List Byte) : List (Nat × List Byte) :=
  (pieces va bs).filterMap (fun p => match s.extAccM t sup .store p.1 with
    | .ok pa _ _ _ => some (pa, p.2)
    | _ => none)
/-- Write a whole range as one access: nothing is stored when an old check fails (R72, R73, R324). -/
def State.writeAll (s : State) (ps : List (Nat × List Byte)) : State × Bool :=
  if ps.any (fun p => p.2.length < 64 && !s.checkOk (p.1 / 64)) then (s, false)
  else (ps.foldl (fun s p => (s.writeGranule p.1 p.2).1) s, true)

/-- Apply a bag of a `wh.red`. A destination that reads as poison for a merge raises 0x13. DEDUCED, log entry 40. -/
def State.applyRed (s : State) (id cmd pos va : Nat) (acc : List W32) (poison : Bool) (m : Merge) (ty : RedTy) :
    State × Apply :=
  let n := redBytes ty * acc.length
  let s := s.freshenAll id true va n
  let t := s.task id
  if poison then (s.engEnd id cmd 0x13 va pos, .ended)
  else match s.allStore t false va n with
    | .pageFault => (s, .lay va 0x09)
    | .prot => (s.engEnd id cmd 0x0A va pos, .ended)
    | .owner => (s.engEnd id cmd 0x31 va pos, .ended)
    | .ok _ po _ _ =>
      if po && m != .write then (s.engEnd id cmd 0x13 va pos, .ended)
      else
        let ps := s.storePas t false va (redResult ty m (s.extBytes t false va n) acc)
        if m != .write && ps.any (fun p => !s.checkOk (p.1 / 64)) then (s.engEnd id cmd 0x14 va pos, .ended)
        else match s.writeAll ps with
          | (s1, true) => (s1.visible id (ps.map (fun p => p.1 / 64)) [], .done)
          | (s1, false) => (s1.engEnd id cmd 0x14 va pos, .ended)

/-- A cell as bytes of header and features (R314). -/
def cellBytesOf (cn : Nat) (stamp : BitVec 24) (view : Byte) (feats : List (BitVec 16)) : List Byte :=
  leList 8 (1 + 256 * cn + 65536 * stamp.toNat + 2 ^ 40 * view.toNat) ++ (feats.map (fun f => leList 2 f.toNat)).flatten
/-- A blended feature (R324). -/
def blendFeat (co cn : Nat) (old new : BitVec 16) : BitVec 16 :=
  let w (v : BitVec 16) : W32 := rn32 (bf16 v)
  let k (n : Nat) : W32 := rn32 (ofInt n)
  rnB16 (f32 (fDiv (fAdd (fMul (k co) (w old)) (fMul (k cn) (w new))) (k (co + cn))))
/-- What a merge leaves in a cell; none for no change (R324). -/
def mergeCell (m : CamMerge) (old : List Byte) (feats : List (BitVec 16)) (cn : Byte) (stamp : BitVec 24) (view : Byte) :
    Option (List Byte) :=
  let co := (old.getD 1 0).toNat
  if !(old.getD 0 0).getLsbD 0 then some (cellBytesOf cn.toNat stamp view feats)
  else match m with
    | .keep => none
    | .replace => if cn.toNat > co then some (cellBytesOf cn.toNat stamp view feats) else none
    | .blend =>
      if co + cn.toNat = 0 then some (cellBytesOf 0 stamp view feats)
      else
        let of := feats.zipIdx.map (fun p => BitVec.ofNat 16 (leVal ((old.drop (8 + 2 * p.2)).take 2)))
        some (cellBytesOf (min 255 (co + cn.toNat)) stamp view
          ((of.zip feats).map (fun p => blendFeat co cn.toNat p.1 p.2)))
/-- Look a brick up at application: physical reads behind the store's mapping; none where a page faults. -/
def State.lookNow (s : State) (t : Task) (x : Store) (b : Int × Int × Int) : Option Look :=
  let key := brickKey b
  let rd := fun (s : State) slot => match s.extAccM t true .load (x.vaOf (x.table + 16 * slot)) with
    | .ok pa _ _ _ => (s, (s.bytes pa 16).map (fun y => (y, false)), EStop.none)
    | _ => (s, [], EStop.wait)
  match lookFrom rd x key (brickHash x.tlog key) 16 s with
  | (_, some (l, _), _) => some l
  | _ => none
/-- Write a cell of a present brick. -/
def State.applyCell (s : State) (id cmd pos : Nat) (x : Store) (brick : Nat) (c : Int × Int × Int)
    (feats : List (BitVec 16)) (cn : Byte) (stamp : BitVec 24) (view : Byte) (m : CamMerge) : State × Apply :=
  let va := x.vaOf (x.cellPa brick c)
  let s := s.freshenAll id true va x.cellBytes
  let t := s.task id
  match s.allStore t true va x.cellBytes with
  | .pageFault => (s, .lay va 0x09)
  | .prot => (s.engEnd id cmd 0x0A va pos, .ended)
  | .owner => (s.engEnd id cmd 0x31 va pos, .ended)
  | .ok _ po _ _ =>
    if po then (s.engEnd id cmd 0x13 va pos, .ended)
    else
      let b := brickOf c
      match mergeCell m (s.extBytes t true va x.cellBytes) feats cn stamp view with
      | none => (s.visible id [] [(x.desc, b.1, b.2.1, b.2.2)], .done)
      | some bs =>
        let ps := s.storePas t true va bs
        match s.writeAll ps with
        | (s1, true) => (s1.visible id (ps.map (fun p => p.1 / 64)) [(x.desc, b.1, b.2.1, b.2.2)], .done)
        | (s1, false) => (s1.engEnd id cmd 0x14 va pos, .ended)
/-- Insert a brick and pop the free stack (R316). -/
def State.allocBrick (s : State) (x : Store) (slot : Nat) (b : Int × Int × Int) : State × Nat :=
  let cnt := s.word (x.desc + 72) % 2 ^ 24
  let brick := leVal (s.bytes (x.free + 4 * (cnt - 1)) 4) % 2 ^ 24
  let base := x.pool + brick * x.brickBytes
  let s1 := s.update (x.table + 16 * slot) (leList 8 (2 ^ 63 + brickKey b) ++ leList 8 brick)
  let s2 := s1.updateWord (x.desc + 72) (s1.word (x.desc + 72) - 1)
  ({ s2 with mem := mcut base x.brickBytes s2.mem, checks := mcut (base / 64) (x.brickBytes / 64) s2.checks }, brick)
/-- Apply a token of a `cam.scat`: a missing brick is allocated first, or 0x20 (R316, R325). DEDUCED, log entry 40. -/
def State.applyScat (s : State) (id cmd pos desc : Nat) (c : Int × Int × Int) (feats : List (BitVec 16)) (cn : Byte)
    (stamp : BitVec 24) (view : Byte) (m : CamMerge) : State × Apply :=
  let t := s.task id
  let x := s.readStore desc
  let b := brickOf c
  match s.lookNow t x b with
  | none => (s, .lay x.va 0x09)
  | some (.present brick) => s.applyCell id cmd pos x brick c feats cn stamp view m
  | some (.missing none) => (s, .lay x.va 0x20)
  | some (.missing (some slot)) =>
    let cnt := s.word (desc + 72) % 2 ^ 24
    if cnt = 0 then (s, .lay x.va 0x20)
    else
      let brick := leVal (s.bytes (x.free + 4 * (cnt - 1)) 4) % 2 ^ 24
      let base := x.pool + brick * x.brickBytes
      let s := s.freshenAll id true (x.vaOf base) x.brickBytes
      match s.allStore (s.task id) true (x.vaOf base) x.brickBytes with
      | .pageFault => (s, .lay (x.vaOf (x.cellPa brick c)) 0x09)
      | .prot => (s.engEnd id cmd 0x0A (x.vaOf base) pos, .ended)
      | .owner => (s.engEnd id cmd 0x31 (x.vaOf base) pos, .ended)
      | .ok _ _ _ _ =>
        let (s1, brick) := s.allocBrick x slot b
        let s2 := s1.visible id (granulesOf base x.brickBytes ++ [(x.table + 16 * slot) / 64])
          [(x.desc, b.1, b.2.1, b.2.2)]
        s2.applyCell id cmd pos x brick c feats cn stamp view m
/-- Apply one intent. -/
def State.applyIntent (s : State) (id : Nat) (i : Intent) : State × Apply :=
  match i.kind with
  | .red va acc po m ty => s.applyRed id i.cmd i.pos va acc po m ty
  | .scat d cx cy cz feats cn st v m => s.applyScat id i.cmd i.pos d (cx, cy, cz) feats cn st v m
  | .inc va sc => (s.incWord id i.cmd va sc, .done)
/-- The target of an intent as it comes to apply (R98). -/
def State.target (s : State) (id : Nat) (i : Intent) : Nat :=
  match i.kind with
  | .red va _ _ _ _ => va
  | .scat d cx cy cz _ _ _ _ _ =>
    let x := s.readStore d
    (match s.lookNow (s.task id) x (brickOf (cx, cy, cz)) with
    | some (.present brick) => x.vaOf (x.cellPa brick (cx, cy, cz))
    | _ => x.va)
  | .inc va _ => va
/-- A laid-by intent of a deferred command. -/
def Lay.deferred (l : Lay) : Bool := l.intent.any (fun i => match i.kind with | .inc _ _ => false | _ => true)
/-- Lay an intent by under an address; `none` when the log is full. -/
def State.layIntent (s : State) (id : Nat) (i : Intent) (va target : Nat) : Option State :=
  s.addLay id { va := va, gen := s.fb.gen, bytes := [], cmd := i.cmd, pos := i.pos, intent := some i, target := target }
/-- The first intent of a task is taken out of the hold and applied, or laid by behind an earlier one of its
64 KiB unit, or laid by itself. False when the lay-by log is full or the gang ends. R259 speaks of stores alone: an intent
that faults with a full log writes a record with Held and stays in the hold, to be tried again at the next COMMIT
(DESIGN CHOICE, log entry 77). -/
def State.applyFirst (s : State) (id : Nat) : State × Bool :=
  let t := s.task id
  match t.intents with
  | [] => (s, false)
  | i :: rest =>
    let pop := fun (s : State) => s.modTask id (fun t => { t with intents := rest })
    match i.kind with
    | .inc va sc =>
      if t.lays.any (fun l => l.deferred && l.cmd == i.cmd) then
        ((pop s).modTask id (fun t => { t with cws := t.cws ++ [{ va := va, scope := sc, cmd := i.cmd }] }), true)
      else ((pop s).incWord id i.cmd va sc, true)
    | _ =>
      let tv := s.target id i
      if t.lays.any (fun l => l.deferred && l.target / 65536 == tv / 65536) then
        (match (pop s).layIntent id i tv tv with | some s1 => (s1, true) | none => (s, false))
      else match s.applyIntent id i with
        | (s1, .done) => (s1.modTask id (fun t => { t with intents := rest }), true)
        | (s1, .ended) => (s1, false)
        | (s1, .lay va code) => match (pop s1).layIntent id i va tv with
          | some s2 => (s2.engRecord id i.cmd code va 0 i.pos false true false, true)
          | none => (s1.engRecord id i.cmd code va 0 i.pos true false false, false)

/-! ## Recording an intent (R77, R86, R87) -/

/-- Apply the oldest intents of a head early until a new one fits. -/
def State.makeRoom (s : State) (id need : Nat) : Nat → State
  | 0 => s
  | n + 1 =>
    if (s.task id).slots + need ≤ holdSize || (s.task id).intents.isEmpty then s
    else match s.applyFirst id with
      | (s1, true) => s1.makeRoom id need n
      | (s1, false) => s1
/-- The hold slot that a new intent begins at: behind the newest intent of the task. DESIGN CHOICE, log entry 82. -/
def Task.firstSlot (t : Task) : Nat :=
  (t.intents ++ t.lays.filterMap (·.intent)).foldl (fun n i => max n (i.first + i.slots)) 0
/-- Record an intent in the hold; a full hold stalls the unit, and a head's hold applies early. -/
def State.recordIntent (s : State) (id : Nat) (i : Intent) : State × EStop :=
  let s1 := if (s.task id).slots + i.slots ≤ holdSize then s
    else if s.isHead id then s.makeRoom id i.slots (s.task id).intents.length else s
  if (s1.task id).slots + i.slots ≤ holdSize then
    (s1.modTask id (fun t => { t with intents := t.intents ++ [{ i with first := t.firstSlot }] }), .none)
  else (s1, .wait)

end Sys2Proof.Machine
end

