-- ==== Sys2Proof/Machine/Wharf.lean ====
section
/-!
DEFINITION. The wharf commands `wh.red` (R247, R248, R265) and `wh.filt` (R249). The row of a command is its
start; the work of a node goes on by STREAM_READ_ARRIVES.
-/

namespace Sys2Proof.Machine

/-! ## `wh.red` -/

/-- The increment of a deferred command's completion word enters the hold behind its intents (R19, R80). -/
def State.deferInc (s : State) (c : Ctx) (k : Nat) (raw : BitVec 52) (word : Nat) (sc : Scope) : State :=
  let va := s.vaOf c k word raw
  if va = 0 then s
  else s.modTask (s.taskAt c) (fun t => { t with intents := t.intents ++ [{ cmd := k, pos := 0, slots := 0
                                                                            kind := .inc va sc }] })
/-- `wh.red`: with no bags it ends at its start cycle, and its word is incremented at commit. -/
def execWhRed (r : WhRedRec) (s : State) : Out :=
  let s1 := s.beginCmd (.whRed r)
  let c := s.cur
  let k := s.curCmd.toNat
  if r.bags.count.toNat = 0 && (s1.run c k).live then
    .next ((s1.putRun c k (fun x => { x with st := .ended })).deferInc c k r.cw 5 r.scope)
  else .next s1

/-- Lanes of a row, widened exactly to 32 bits, with their poison. -/
def redLanes (ty : RedTy) (bs : List (Byte × Bool)) : List (W32 × Bool) :=
  let n := redBytes ty
  (List.range (bs.length / n)).map (fun i =>
    let g := (bs.drop (n * i)).take n
    let v := leVal (g.map (·.1))
    (BitVec.ofNat 32 (if ty == .bf16 then v * 65536 else v), g.any (·.2)))
/-- One step of the accumulation. -/
def redAdd (ty : RedTy) (a v : W32) : W32 := if ty == .i32 then a + v else fAdd a v
/-- Number of 32-bit lanes of a row. -/
def WhRedRec.lanes (r : WhRedRec) : Nat := r.row.toNat / redBytes r.ty
/-- Take an indexed row up, or poison every lane when the index is poisoned. `part` holds the index, and behind it what
has been read of the row. -/
def State.redRow (s : State) (c : Ctx) (k : Nat) (r : WhRedRec) (pos j : Nat) : State :=
  let id := s.taskAt c
  let x := s.run c k
  let (lo, hi) := s.sRange c k 6
  let bs := x.part.take 4
  let step := fun (s : State) (v : List (W32 × Bool)) =>
    s.putRun c k (fun y => { y with
      st := .running, full := false, f := j + 1, part := []
      acc := if j = 0 then v.map (·.1) else (x.acc.zip v).map (fun p => redAdd r.ty p.1 p.2.1)
      accPoison := if j = 0 then v.map (·.2) else (x.accPoison.zip v).map (fun p => p.1 || p.2.2) })
  if bs.any (·.2) then step s (List.replicate (WhRedRec.lanes r) (0, true))
  else
    let a : Int := (s.vaOf c k 6 r.table : Int) + leVal (bs.map (·.1)) * r.inds.stride.toInt
    if a < lo || (hi : Int) < a + r.row.toNat then s.engEnd id k 0x0A a.toNat pos
    else match s.engRun id k false false (piecesPast (x.part.length - 4) (beatPieces r.row.toNat [(pos, a.toNat)])) with
      | (s1, row, _, .none) => step s1 (redLanes r.ty (x.part.drop 4 ++ row))
      | (s1, row, _, e) => (s1.putRun c k (fun y => { y with part := y.part ++ row })).stopRun c k pos e
/-- The next step of a `wh.red`: one index with its row, or the intent of a finished bag. -/
def State.redStep (s : State) (c : Ctx) (k : Nat) (r : WhRedRec) : State :=
  let id := s.taskAt c
  let x := s.run c k
  let n := r.bags.count.toNat
  let m := r.inds.count.toNat
  let b := x.done
  let j := x.f
  if b ≥ n then s
  else if j < m then
    let pos := b * m + j
    if x.part.length ≥ 4 then s.redRow c k r pos j
    else match s.engRead id k pos false false (s.vaOf c k 3 r.idx + 4 * pos) 4 with
      | (s1, bs, .none) => (s1.putRun c k (fun y => { y with part := bs })).redRow c k r pos j
      | (s1, _, e) => s1.stopRun c k pos e
  else
    let lanes := WhRedRec.lanes r
    let acc := if m = 0 then List.replicate lanes 0 else x.acc
    let i : Intent := { cmd := k, pos := b, slots := (4 * lanes + 63) / 64
                        kind := .red (addOff (s.vaOf c k 4 r.dst) (b * r.bags.stride.toInt)) acc
                          (m != 0 && x.accPoison.any (fun p => p)) r.merge r.ty }
    match s.recordIntent id i with
    | (s1, .none) =>
      let s2 := s1.putRun c k (fun y => { y with done := b + 1, f := 0, acc := [], accPoison := [], full := false
                                                 st := if b + 1 = n then .ended else .running })
      if b + 1 = n then s2.deferInc c k r.cw 5 r.scope else s2
    | (s1, e) => s1.stopRun c k (b * m) e

/-! ## `wh.filt` -/

def execWhFilt (r : WhFiltRec) (s : State) : Out := .next (s.beginCmd (.whFilt r))
/-- The slot of a source beat (R249). -/
def filtSlot (r : WhFiltRec) (x : Cap) : Cap :=
  let w := r.ty.width
  let n := r.ty.lanes
  let lo := r.lo.toNat % 2 ^ w
  let hi := r.hi.toNat % 2 ^ w
  let sel := fun i => x.laneP w i || (relLane r.ty .le lo (laneOf w x.data i) && relLane r.ty .le (laneOf w x.data i) hi)
  { data := packLanes w ((List.range n).map (fun i => if sel i then laneOf w x.data i else 0))
    side := mkSide (poisonOf x.side) (maskOf n sel) }
/-- The next slot of a `wh.filt` arrives. -/
def State.filtRead (s : State) (c : Ctx) (k : Nat) (r : WhFiltRec) : State :=
  let b := (s.run c k).done
  let ls := [r.l1, r.l2, r.l3]
  if b ≥ nestN ls then s
  else
    match s.engRead (s.taskAt c) k b r.poison false (addOff (s.vaOf c k 6 r.base) (nestOff ls b)) 16 with
    | (s1, bs, .none) => s1.latchBeat c k b (b + 1) (filtSlot r (beatOf bs))
    | (s1, _, e) => s1.stopRun c k b e

end Sys2Proof.Machine
end

