-- ==== Sys2Proof/Machine/Camera.lean ====
section
/-!
DEFINITION. The camera commands (15_camera_engine.md, R309, R310, R313, R317 to R326). The row of a command is
its start; rays, points and intents go on by STREAM_READ_ARRIVES and WRITE_BEAT_ACCEPTED.
-/

namespace Sys2Proof.Machine

/-! ## Starts (R310, R313) -/

/-- Store handle k of a context. -/
def State.handle (s : State) (c : Ctx) (k : Nat) : Word := mget s.sst (c.toNat * 4 + k)
/-- Start a camera command: every field of its register is read once; a bad register or handle is 0x10. -/
def State.beginCam (s : State) (i : Instr) (r : CamRec) (handle : Bool) : State :=
  let c := s.cur
  let k := s.curCmd.toNat
  let x := s.cam c r.cam.toNat
  let p := (mget x.f 30).toNat
  let bad := (p != 8 && p != 14 && p != 16) || camTw x.f = 0 || camTh x.f = 0 ||
    (handle && !(s.handle c r.handle.toNat).getLsbD 63)
  if bad then s.cmdFault c k 0x10 0 0 (s.islOfCmd c i).ctr
  else
    let s1 := s.beginCmd i
    if (s1.run c k).live then s1.putRun c k (fun y => { y with snap := mset x.f 35 (x.version.setWidth 32) }) else s1
def execCamGath (r : CamRec) (s : State) : Out := .next (s.beginCam (.camGath r) r true)
def execCamGathDepth (r : CamRec) (s : State) : Out := .next (s.beginCam (.camGathDepth r) r true)
def execCamScat (r : CamRec) (s : State) : Out := .next (s.beginCam (.camScat r) r true)
def execCamProj (r : CamRec) (s : State) : Out := .next (s.beginCam (.camProj r) r false)

/-! ## Tokens -/

def CamRec.levels (r : CamRec) : List Lvl := [r.l1, r.l2, r.l3, r.l4, r.l5]
/-- Iterations of a camera command. -/
def CamRec.iters (r : CamRec) : Nat := nestN (CamRec.levels r)
/-- Token of iteration f; none for an invalid one (R319). -/
def CamRec.token (r : CamRec) (snap : SMap W32) (f : Nat) : Option Nat :=
  let t : Int := (r.tok.toNat : Int) + nestOff (CamRec.levels r) f
  if 0 ≤ t && t < camTw snap * camTh snap then some t.toNat else none
/-- The store of a handle. -/
def State.storeOf (s : State) (c : Ctx) (r : CamRec) : Store :=
  s.readStore ((s.handle c r.handle.toNat).toNat % 2 ^ 52)
/-- Beats of a token (R320). -/
def Store.beats (x : Store) : Nat := 2 * x.nf / 16 + 1

/-! ## `cam.gath` (R320 to R322) -/

/-- What the march of a token has found. -/
structure March where
  hit : Option (W32 × List Byte) := none
  inb : Bool := false
  bad : Bool := false
  stop : EStop := .none
  deriving DecidableEq, Repr, Inhabited
/-- One sample: its cell, its brick and its header and features, each granule of the cell read once (R320). -/
def State.sample (s : State) (c : Ctx) (k f : Nat) (r : CamRec) (x : Store) (t : Nat) (d : W32) (m : March) :
    State × March :=
  let id := s.taskAt c
  match cellOf x (rayPoint (s.run c k).snap t d) with
  | none => (s, m)
  | some cell =>
    let m := { m with inb := true }
    let b := brickOf cell
    let s1 := s.modTask id (fun t => t.noteBrick (x.desc, b.1, b.2.1, b.2.2))
    match s1.lookup id k f x b with
    | (s2, some (.present brick, bad), _) =>
      let va := x.vaOf (x.cellPa brick cell)
      let n := min x.cellBytes (64 - va % 64)
      match s2.storeRead id k f true va n with
      | (s3, hd, .none) =>
        let h := leVal ((hd.take 8).map (·.1))
        let m := { m with bad := m.bad || bad || hd.any (·.2) }
        if h % 2 = 1 && h / 256 % 256 ≥ r.thr.toNat then
          match s3.storeRead id k f true (va + n) (x.cellBytes - n) with
          | (s4, bs, .none) => (s4, { m with hit := some (d, (hd ++ bs).map (·.1)), bad := m.bad || bs.any (·.2) })
          | (s4, _, e) => (s4, { m with stop := e })
        else (s3, m)
      | (s3, _, e) => (s3, { m with stop := e })
    | (s2, some (.missing _, bad), _) => (s2, { m with bad := m.bad || bad })
    | (s2, none, e) => (s2, { m with stop := e })
/-- The samples of a march from k on, to the first hit, stop or end (R318). -/
def State.marchFrom (s : State) (c : Ctx) (k f : Nat) (r : CamRec) (x : Store) (t : Nat) (depths : List W32)
    (m : March) : State × March :=
  match depths with
  | [] => (s, m)
  | d :: ds =>
    let (s1, m1) := s.sample c k f r x t d m
    if m1.hit.isSome || m1.stop != .none then (s1, m1) else s1.marchFrom c k f r x t ds m1
/-- Sample depths of MARCH: the first beyond far, or NaN, ends them. -/
def marchDepths (snap : SMap W32) (n : Nat) : List W32 :=
  ((List.range n).map (fun (k : Nat) => fAdd (mget snap 31) (fMul (rn32 (ofInt (k : Nat))) (mget snap 33)))).takeWhile
    (fun d => (f32 d).le (f32 (mget snap 32)))
/-- Sample depths of DEPTH. -/
def depthDepths (x : Store) (d : W32) : List W32 :=
  let e := fDiv (rn32 (ofInt 1)) x.icell
  [fSub d e, d, fAdd d e]
/-- The result beats of a token. -/
def gathBeats (x : Store) (fill : List Byte) (snap : SMap W32) (invalid : Bool) (poison : Bool) (m : March) : List Cap :=
  let cell := m.hit.map (·.2)
  let feats := match cell with | some bs => bs.drop 8 | none => fill
  let flags := if invalid then 12 else if m.hit.isSome then 1 else if m.inb then 2 else 4
  let h := match cell with | some bs => leVal (bs.take 8) | none => 0
  let inf : W32 := BitVec.ofNat 32 (infCode .f32 false)
  let depth := match m.hit with | some p => p.1 | none => inf
  let side := mkSide (if poison then 15 else 0) 0
  let n := x.beats - 1
  (List.range n).map (fun j => { data := BitVec.ofNat 128 (leVal ((feats.drop (16 * j)).take 16)), side := side }) ++
    [{ data := packLanes 32 [depth.toNat, flags + 256 * (h / 2 ^ 8 % 256) + 65536 * (h / 2 ^ 40 % 256), h / 2 ^ 16 % 2 ^ 24,
                             (mget snap 35).toNat], side := side }]
/-- The beats of the next token of a `cam.gath` arrive. A poisoned depth lane casts no samples.
DESIGN CHOICE, log entry 41. -/
def State.gathRead (s : State) (c : Ctx) (k : Nat) (r : CamRec) (depth : Bool) : State :=
  let y := s.run c k
  let f := y.done
  let x := s.storeOf c r
  let lane := (mget y.idx (f / 4)).map (fun v => (BitVec.ofNat 32 (laneOf 32 v.data (f % 4)), v.pq (f % 4)))
  if f ≥ CamRec.iters r || (depth && lane.isNone) then s
  else
    let fill := s.bytes (x.desc + 128) (2 * x.nf)
    let pz := depth && (lane.any (·.2))
    let (s1, inv, m) : State × Bool × March := match CamRec.token r y.snap f with
      | none => (s, true, {})
      | some t =>
        if pz then (s, false, {})
        else
          let ds := if depth then depthDepths x ((lane.map (·.1)).getD 0) else marchDepths y.snap (r.steps1.toNat + 1)
          let (s1, m) := s.marchFrom c k f r x t ds {}
          (s1, false, m)
    match m.stop with
    | .none =>
      let beats := gathBeats x fill y.snap inv (pz || m.bad) m
      s1.putRun c k (fun z => { z with
        st := .running, full := false, done := f + 1, f := f + 1
        latch := (beats.zipIdx.foldl (fun l p => mset l (f * x.beats + p.2) (some p.1)) z.latch) })
    | e => s1.stopRun c k f e

/-! ## `cam.scat` (R323) -/

/-- The intent of the next token of a `cam.scat` is recorded, once its beats have been taken. -/
def State.scatWrite (s : State) (c : Ctx) (k : Nat) (r : CamRec) : State :=
  let id := s.taskAt c
  let y := s.run c k
  let f := y.done
  let x := s.storeOf c r
  let bt := x.beats
  let beats := (List.range bt).map (fun j => mget y.taken (f * bt + j))
  if f ≥ CamRec.iters r || beats.any Option.isNone then s
  else
    let next := fun (s : State) => s.putRun c k (fun z => { z with
      st := .running, full := false, done := f + 1, f := f + 1
      taken := (List.range bt).foldl (fun m j => mset m (f * bt + j) none) z.taken })
    let caps := beats.map (fun b => b.getD {})
    let info := (caps.getD (bt - 1) {}).data
    let d : W32 := BitVec.ofNat 32 (laneOf 32 info 0)
    let cell := match CamRec.token r y.snap f with
      | some t => if (f32 d).isNan then none else cellOf x (rayPoint y.snap t d)
      | none => none
    match cell with
    | none => next s
    | some q =>
      let feats := (caps.take (bt - 1)).flatMap (fun b => (List.range 8).map (fun i => BitVec.ofNat 16 (laneOf 16 b.data i)))
      let i : Intent := { cmd := k, pos := f, slots := (16 + 2 * x.nf + 63) / 64
                          kind := .scat x.desc q.1 q.2.1 q.2.2 feats (BitVec.ofNat 8 (laneOf 8 info 4))
                            ((s.task id).ts.setWidth 24) ((mget y.snap 34).setWidth 8) r.merge }
      match s.recordIntent id i with
      | (s1, .none) => next s1
      | (s1, e) => s1.stopRun c k f e

/-! ## `cam.proj` (R326) -/

/-- The result of one world point. -/
def projBeat (snap : SMap W32) (v : Cap) : Cap :=
  let l (i : Nat) : W32 := BitVec.ofNat 32 (laneOf 32 v.data i)
  let w := xform snap 0 (l 0) (l 1) (l 2)
  let xc := w.getD 0 0
  let yc := w.getD 1 0
  let zc := w.getD 2 0
  let u := fAdd (fDiv (fDiv xc zc) (mget snap 24)) (mget snap 26)
  let vv := fAdd (fDiv (fDiv yc zc) (mget snap 25)) (mget snap 27)
  let p := (mget snap 30).toNat
  let tw := camTw snap
  let zero := Val.fin false 0 0 false
  let inside := fun (a : W32) (n : Nat) => zero.le (f32 a) && (f32 a).lt (ofInt n)
  let t := if zero.lt (f32 zc) && inside u (tw * p) && inside vv (camTh snap * p) then
      (((f32 u).floor?.getD 0).toNat / p) + tw * (((f32 vv).floor?.getD 0).toNat / p)
    else 0xFFFFFFFF
  let po := (poisonOf v.side).getLsbD 0 || (poisonOf v.side).getLsbD 1 || (poisonOf v.side).getLsbD 2
  { data := packLanes 32 [u.toNat, vv.toNat, zc.toNat, t], side := mkSide (if po then 15 else 0) 0 }
/-- The result of the next point of a `cam.proj` is ready. -/
def State.projRead (s : State) (c : Ctx) (k : Nat) (r : CamRec) : State :=
  let y := s.run c k
  let f := y.done
  match mget y.idx f with
  | none => s
  | some v =>
    if f ≥ CamRec.iters r then s
    else s.putRun c k (fun z => { z with done := f + 1, f := f + 1, latch := mset z.latch f (some (projBeat y.snap v)) })

/-! ## Takes and bounds -/

/-- Takes of a camera command d cycles after its start (R321, R323, R326). -/
def State.camTakes (s : State) (c : Ctx) (i : Instr) (d : Nat) : List Take :=
  match i with
  | .camGathDepth r =>
    if d < (CamRec.iters r + 3) / 4 then [{ num := d, elem := portElem r.port.toNat (!r.edge), index := true, report := false }]
    else []
  | .camScat r =>
    if d < CamRec.iters r * (s.storeOf c r).beats then
      [{ num := d, elem := portElem r.port.toNat r.edge, index := false, report := true }] else []
  | .camProj r =>
    if d < CamRec.iters r then [{ num := d, elem := portElem r.port.toNat r.edge, index := true, report := false }] else []
  | _ => []
/-- The bandwidth of a store's declaration (R311). -/
def State.storeBw (s : State) (x : Store) : Nat := ((s.stores.find? (fun y => y.2.2.1 == x.desc)).map (·.2.2.2.bw)).getD 0
/-- An address of the store's run in each channel of its stack. -/
def Store.channels (x : Store) : List Nat := (List.range 32).map (fun n => x.desc / 2 ^ 36 * 2 ^ 36 + 65536 * n)
/-- The cycle by which a step of a gather is due while its task is within its reservation on the store's channels (R21, R321). -/
def State.storeWithin (s : State) (c : Ctx) (x : Store) (bound due : Nat) : Option Nat :=
  if s.storeBw x = 0 then none
  else x.channels.foldl (fun (d : Option Nat) pa => d.bind (s.within (s.taskAt c) pa bound)) (some due)
/-- The real cycle by which the next step of a camera command is due by its stated bound. DESIGN CHOICE, log entry 70. -/
def State.camBound (s : State) (c : Ctx) (k : Nat) : Option Nat :=
  let y := s.run c k
  let gath := fun (r : CamRec) (extra : Nat) =>
    let x := s.storeOf c r
    s.storeWithin c x (1280 + extra) (y.startReal + (1280 + extra + (y.done - y.first) * x.beats))
  match y.ins with
  | some (.camGath r) => gath r (8 * (r.steps1.toNat + 1))
  | some (.camGathDepth r) => gath r 24
  | some (.camScat r) => some (y.startReal + ((y.done + 1 - y.first) * (s.storeOf c r).beats + 32))
  | some (.camProj _) => some (y.startReal + (y.done - y.first + 24))
  | _ => none
/-- Whether the next step of a command may go ahead of its bound, a gather's as if its first sample were a hit (log entry
86). -/
def State.spares (s : State) (c : Ctx) (k : Nat) : Bool :=
  let gath := fun (r : CamRec) =>
    let x := s.storeOf c r
    s.storeBw x = 0 || x.channels.all (fun pa => s.spare (s.taskAt c) pa (x.cellBytes + 64))
  match (s.run c k).ins with
  | some (.camGath r) | some (.camGathDepth r) => gath r
  | _ => s.affords c k
/-- The bound of the next transfer of a stream, wharf or camera command. -/
def State.nextBound (s : State) (c : Ctx) (k : Nat) : Option Nat :=
  match s.streamBound c k with
  | some n => some n
  | none => s.camBound c k

end Sys2Proof.Machine
end

