-- ==== Sys2Proof/Machine/Coll.lean ====
section
/-!
DEFINITION. Collectives (19_link_and_host.md, R374 to R378). The row of an `l.coll` is its leaving: it reads its
group descriptor and its source, sends its part and, where every part is here, writes its destination. Its start
queues it (`State.collStart`); parts of other members come by COLLECTIVE_PACKET.
-/

namespace Sys2Proof.Machine

/-! ## Start (R374) -/

/-- Queue a collective at its start cycle; it has ended there for its island. -/
def State.collStart (s : State) (c : Ctx) (k : Nat) (i : Instr) (r : LCollRec) : State :=
  let va := fun (w : Nat) (raw : BitVec 52) => BitVec.ofNat 64 (s.vaOf c k w raw)
  let o : LinkOp := { num := s.nextOp, kind := .coll, len := r.n.toNat, remote := va 4 r.grp, local' := va 2 r.src
                      arg := va 3 r.dst, cw := va 5 r.cw, scope := scopeNum r.scope, cmd := k, ins := some i }
  let s1 := ({ s with nextOp := s.nextOp + 1 }).modTask (s.taskAt c) (fun t => { t with links := t.links ++ [o] })
  s1.setRun c k { st := .ended, ins := some i, startReal := s.cycle, startCtr := (s.islOfCmd c i).ctr }

/-! ## Link operations of a task -/

/-- The command key of a link operation's writes: its low 9 bits are the Command field of a record. -/
def linkCmd (o : LinkOp) : Nat := (if o.kind == .coll then o.cmd else seqCmd) + 512 * (o.num + 1)
def State.modOp (s : State) (id num : Nat) (f : LinkOp → LinkOp) : State :=
  s.modTask id (fun t => { t with links := t.links.map (fun o => if o.num = num then f o else o) })
/-- Put away the entry of a task that has committed or ended, once nothing it sent is in flight. -/
def State.tidy (s : State) (id : Nat) : State :=
  let t := s.task id
  if t.gang != 0 && t.phase == .done && !s.lingers id t then { s with tasks := mset s.tasks id default } else s
def State.dropOp (s : State) (id num : Nat) : State :=
  (s.modTask id (fun t => { t with links := t.links.filter (·.num != num) })).tidy id
/-- A link operation fails with 0x38 (R373). -/
def State.linkFail (s : State) (id : Nat) (o : LinkOp) (addr : Nat) : State :=
  (s.engEnd id (linkCmd o) 0x38 addr o.pc.toNat).dropOp id o.num
/-- A link operation completes: its word is incremented once its laid-by writes have been replayed (R19, R89). -/
def State.linkDone (s : State) (id : Nat) (o : LinkOp) : State :=
  let waits := (s.task id).lays.any (fun l => l.ext && l.cmd == linkCmd o)
  let sc := scopeOfNum o.scope
  let s1 := if o.cw = 0 then s
    else if waits then s.modTask id (fun t => { t with cws := t.cws ++ [{ va := o.cw.toNat, scope := sc, cmd := linkCmd o }] })
    else s.incWord id (linkCmd o) o.cw.toNat sc
  s1.dropOp id o.num
/-- The first operation of a task that has not left, of the collectives or of the link instructions.
DEDUCED, log entry 48. -/
def Task.firstOp (t : Task) (coll : Bool) : Option LinkOp :=
  t.links.find? (fun o => !o.left && (o.kind == .coll) == coll)

/-! ## Results (R377) -/

/-- An element as FP32 or as it is. -/
def collIn (ty : CollTy) (v : W32) : W32 := if ty == .bf16 then v <<< 16 else v
/-- Combine two values. -/
def collComb (op : CollOp) (ty : CollTy) (a b : W32) : W32 :=
  let float := ty == .f32 || ty == .bf16
  match op with
  | .max => if float then rn32 ((f32 a).max (f32 b)) else if ty == .i32 then (if a.toInt < b.toInt then b else a)
            else (if a.toNat < b.toNat then b else a)
  | .min => if float then rn32 ((f32 a).min (f32 b)) else if ty == .i32 then (if b.toInt < a.toInt then b else a)
            else (if b.toNat < a.toNat then b else a)
  | _ => if float then fAdd a b else a + b
/-- One level of the PAIR tree. -/
def collLevel (f : W32 → W32 → W32) : List W32 → List W32
  | a :: b :: r => f a b :: collLevel f r
  | l => l
/-- PAIR order over levels. -/
def collTree (f : W32 → W32 → W32) : Nat → List W32 → W32
  | 0, l => l.headD 0
  | n + 1, l => collTree f n (collLevel f l)
/-- Combine the sources of one element, in rank order. -/
def collElem (r : LCollRec) (vs : List W32) : W32 :=
  let f := collComb r.op r.ty
  let v := vs.map (collIn r.ty)
  let acc := if r.pair then collTree f 10 v else match v with | a :: l => l.foldl f a | [] => 0
  if r.ty == .bf16 then (rnB16 (f32 acc)).setWidth 32 else acc
/-- Destination elements from the parts by rank. -/
def collResult (r : LCollRec) (parts : List (List W32)) : List W32 :=
  match r.op with
  | .allgather => parts.flatten
  | .broadcast => parts.getD r.root.toNat []
  | _ => (List.range r.n.toNat).map (fun i => collElem r (parts.map (fun p => p.getD i 0)))
def collBytesOf (ty : CollTy) (vs : List W32) : List Byte := vs.flatMap (fun v => leList (collBytes ty) v.toNat)
/-- Elements of source bytes. -/
def collElems (ty : CollTy) (bs : List Byte) : List W32 :=
  let w := collBytes ty
  (List.range (bs.length / w)).map (fun i => BitVec.ofNat 32 (leVal ((bs.drop (w * i)).take w)))

/-! ## Matching (R376) -/

def Coll.is (x : Coll) (tag : W32) (k : Nat) : Bool := x.tag == tag && x.seqNo == k
/-- Change the record of the k-th collective of a tag, made where there is none. -/
def State.modColl (s : State) (tag : W32) (k : Nat) (f : Coll → Coll) : State :=
  if s.colls.any (·.is tag k) then { s with colls := s.colls.map (fun x => if x.is tag k then f x else x) }
  else { s with colls := s.colls ++ [f { tag := tag, seqNo := k }] }
/-- Whether this package has not finished the k-th collective of a tag. -/
def State.collOpen (s : State) (tag : W32) (k : Nat) : Bool := s.colls.any (·.is tag k) || mget s.collCount tag.toNat ≤ k
/-- A packet for a collective that this package has not finished; the end of a member is no news for an earlier one. -/
def State.collArrive (s : State) (tag : W32) (k : Nat) (f : Coll → Coll) : State :=
  if s.collOpen tag k then s.modColl tag k f else s
/-- The package that sent a part. -/
def partSource (p : CollPart) : BitVec 10 := p.members.getD p.rank 0
/-- The part of a member arrives. One for a collective that has finished or failed here comes from a package whose list does
not agree with this one's, so that it is told to fail too (R376). -/
def State.partArrives (s : State) (p : CollPart) : State :=
  if s.collOpen p.tag p.seqNo then s.modColl p.tag p.seqNo (fun x => { x with parts := x.parts ++ [p] })
  else s.emit (.coll (partSource p) (.ended p.tag p.seqNo s.pkgId))
/-- The collective of this package fails: 0x38, and every member, of its own list or of a part, is told (R376). -/
def State.collFail (s : State) (tag : W32) (k : Nat) : State :=
  match s.colls.find? (·.is tag k) with
  | none => s
  | some x => match x.mine with
    | none => s
    | some (id, num, _, ms) =>
      let s1 := { s with colls := s.colls.filter (fun y => !y.is tag k) }
      match (s.task id).links.find? (·.num == num) with
      | none => s1
      | some o => (s1.toMembers ((ms ++ x.parts.flatMap (fun p => partSource p :: p.members)).eraseDups)
          (.ended tag k s.pkgId)).linkFail id o o.remote.toNat
/-- Whether a member's part agrees with this package's record. -/
def partAgrees (r : LCollRec) (ms : List (BitVec 10)) (p : CollPart) : Bool :=
  p.members == ms && p.op == r.op && p.ty == r.ty && p.pair == r.pair && p.root == r.root && p.n == r.n.toNat
/-- Decide the k-th collective of a tag: it fails, or performs once every member's part is here. A destination
write held by a full lay-by log waits for a flush. DEDUCED, log entry 61. -/
def State.collCheck (s : State) (tag : W32) (k : Nat) : State :=
  match s.colls.find? (·.is tag k) with
  | none => s
  | some x => match x.mine with
    | none => s
    | some (id, num, r, ms) =>
      let drop := fun (s : State) => { s with colls := s.colls.filter (fun y => !y.is tag k) }
      match (s.task id).links.find? (·.num == num) with
      | none => drop s
      | some o =>
        if !x.ended.isEmpty || x.parts.any (fun p => !partAgrees r ms p) then s.collFail tag k
        else
          let parts := (List.range ms.length).map (fun rk => x.parts.find? (·.rank == rk))
          if parts.any Option.isNone || x.held then s
          else
            let data := collBytesOf r.ty (collResult r (parts.filterMap (fun p => p.map (·.data))))
            match s.engWrite id (linkCmd o) 0 false true o.arg.toNat data with
            | (s1, .none) => (drop s1).linkDone id o
            | (s1, .held _) => s1.modColl tag k (fun y => { y with held := true })
            | (s1, .ended) => (drop s1).dropOp id num
            | (s1, _) => s1

/-! ## Leaving (R89, R374, R375, R376) -/

/-- The first queued collective of the acting task leaves, if it is this one and the task is head. A page fault
of its source or its group holds it; poison fails it; a fault that ends its gang leaves it to the gang's end, which tells
the other members (R376). DEDUCED, log entry 47. -/
def State.collLeave (s : State) (i : Instr) (r : LCollRec) : State :=
  let id := s.taskAt s.cur
  match (s.task id).firstOp true with
  | none => s
  | some o =>
    if o.ins != some i || !s.isHead id || o.held then s
    else
      let hold := fun (s : State) => s.modOp id o.num (fun o => { o with held := true })
      let read := fun (s : State) va n => s.engRead id (linkCmd o) 0 false false va n
      match read s o.remote.toNat 64 with
      | (s1, _, .held _) => hold s1
      | (s1, _, .wait) => s1
      | (s1, _, .ended) => s1
      | (s1, head, .none) =>
        match read s1 (o.remote.toNat + 64) (2 * groupSize (head.map (·.1))) with
        | (s2, _, .held _) => hold s2
        | (s2, _, .wait) => s2
        | (s2, _, .ended) => s2
        | (s2, es, .none) =>
          match read s2 o.local'.toNat (o.len * collBytes r.ty) with
          | (s3, _, .held _) => hold s3
          | (s3, _, .wait) => s3
          | (s3, _, .ended) => s3
          | (s3, src, .none) =>
            match readGroup (head.map (·.1)) (es.map (·.1)) with
            | none => s3.linkFail id o o.remote.toNat
            | some (tag, ms) =>
              let k := mget s3.collCount tag.toNat
              let bad := (head ++ es ++ src).any (·.2) || ms.countP (· == s3.pkgId) != 1 || !(ms.eraseDups == ms) ||
                ms.any (fun p => !s3.reaches p) || (r.op == .broadcast && r.root.toNat ≥ ms.length)
              let s4 : State := { s3 with collCount := mset s3.collCount tag.toNat (k + 1) }
              let rank := ms.idxOf s3.pkgId
              if bad then (s4.toMembers ms (.ended tag k s4.pkgId)).linkFail id o o.remote.toNat
              else
                let p : CollPart := { tag := tag, seqNo := k, rank := rank, members := ms, op := r.op, ty := r.ty
                                      pair := r.pair, root := r.root, n := r.n.toNat
                                      data := collElems r.ty (src.map (·.1)) }
                let s5 := (s4.modOp id o.num (fun o => { o with left := true })).modColl tag k (fun x =>
                  { x with mine := some (id, o.num, r, ms), parts := x.parts ++ [p] })
                (s5.toMembers ms (.part p)).collCheck tag k
def execLCollReduce (r : LCollRec) (s : State) : Out := .next (s.collLeave (.lCollReduce r) r)
def execLCollAllgather (r : LCollRec) (s : State) : Out := .next (s.collLeave (.lCollAllgather r) r)
def execLCollBroadcast (r : LCollRec) (s : State) : Out := .next (s.collLeave (.lCollBroadcast r) r)

end Sys2Proof.Machine
end

