-- ==== Sys2Proof/Machine/Loom.lean ====
section
/-!
DEFINITION. The loom (13_loom.md, R285 to R303): loading of a graph, node arithmetic and `g.run`. The row of
`g.run` is its start; its inputs are taken by ISLAND_CYCLE and its results captured by WINDOW_END.
-/

namespace Sys2Proof.Machine

/-! ## Loading a graph (R288, R289, R296) -/

/-- Bits hi to lo of a number. -/
def bitsOf (w hi lo : Nat) : Nat := w / 2 ^ lo % 2 ^ (hi + 1 - lo)
/-- An operand of a 20-bit source field. -/
def srcOf (v : Nat) : Src := if v / 2 ^ 19 % 2 = 1 then .tap (v % 2 ^ 19) else .node (v % 2 ^ 19)
/-- Whether an operand names an input below I, or a node below a limit. -/
def srcOk (ins lim : Nat) : Src → Bool
  | .tap k => k < ins
  | .node n => n < lim
/-- Level of an operand. -/
def srcLevel (ls : List Nat) : Src → Nat
  | .tap _ => 0
  | .node n => ls.getD n 0
/-- Levels of the add nodes, in number order. -/
def nodeLevels (ns : List Node) : List Nat :=
  ns.foldl (fun ls n => ls ++ [1 + max (srcLevel ls n.a) (srcLevel ls n.b)]) []
/-- The header of an image: strict, I, O, A, size; none where a field is wrong. -/
def graphHeader (h : List Byte) : Option (Bool × Nat × Nat × Nat × Nat) :=
  let i := bytesAt h 10 2
  let o := bytesAt h 12 2
  let a := bytesAt h 16 4
  let size := bytesAt h 20 4
  if bytesAt h 0 4 != 0x4D4F4F4C || bytesAt h 4 2 != 1 || bytesAt h 6 2 != 64 || i = 0 || i > 256 || o = 0 || o > 256
      || a > 524288 || size != (64 + 8 * (i + a + o) + 4 * o + 63) / 64 * 64 then none
  else some (bytesAt h 8 1 % 2 == 1, i, o, a, size)
/-- The graph of an image; none where it is malformed. -/
def readGraph (bs : List Byte) : Option Graph :=
  match graphHeader (bs.take 64) with
  | none => none
  | some (strict, i, o, a, _) =>
    let w (n : Nat) := bytesAt bs (64 + 8 * n) 8
    let taps := (List.range i).map w
    let adds := (List.range a).map (fun n => w (i + n))
    let outs := (List.range o).map (fun n => w (i + a + n))
    let node := fun e : Nat => ({ a := srcOf (bitsOf e 61 42), b := srcOf (bitsOf e 41 22), na := bitsOf e 21 21 == 1
                                  nb := bitsOf e 20 20 == 1, sa := bitsOf e 19 15, sb := bitsOf e 14 10
                                  w := bitsOf e 9 5 + 1 } : Node)
    let ok := taps.zipIdx.all (fun p => bitsOf p.1 63 62 == 2 && bitsOf p.1 61 42 == 2 ^ 19 + p.2)
      && adds.zipIdx.all (fun p => bitsOf p.1 63 62 == 0 && srcOk i p.2 (node p.1).a && srcOk i p.2 (node p.1).b)
      && outs.all (fun e => bitsOf e 63 62 == 1 && srcOk i a (srcOf (bitsOf e 61 42)))
    if !ok then none
    else
      let ns := adds.map node
      some { strict := strict, taps := taps.map (fun e => bitsOf e 9 5 + 1), nodes := ns
             outs := outs.map (fun e => srcOf (bitsOf e 61 42))
             scales := (List.range o).map (fun n => BitVec.ofNat 32 (bytesAt bs (64 + 8 * (i + a + o) + 4 * n) 4))
             depth := max 1 ((nodeLevels ns).foldl max 0) }
/-- Bays that a graph takes. -/
def Graph.bays (g : Graph) : Nat := (g.nodes.length + 4095) / 4096
/-- Whether some add reads a node more than one bay back. -/
def Graph.farRead (g : Graph) : Bool :=
  g.nodes.zipIdx.any (fun p => [p.1.a, p.1.b].any (fun x => match x with
    | .node n => decide (n / 4096 + 1 < p.2 / 4096)
    | .tap _ => false))
/-- Bays of a task's grant (R286). -/
def Task.bays (t : Task) : Nat := t.loom / 4096
/-- Whether logical bays from b on are free. -/
def State.runFree (s : State) (c : Ctx) (b n : Nat) : Bool :=
  (List.range 16).all (fun k => let x := s.slot c k; !x.resident || x.first + x.bays ≤ b || b + n ≤ x.first)
/-- Image of a graph as its physical address and bytes, with whether every granule's check holds. -/
def State.graphBytes (s : State) (pa : Nat) : List Byte × Bool :=
  let h := s.bytes pa 64
  match graphHeader h with
  | none => (h, s.checkOk (pa / 64))
  | some (_, _, _, _, size) => (s.bytes pa size, (granulesOf pa size).all s.checkOk)
/-- Image bytes that the time of a load counts. -/
def State.graphSize (s : State) (pa : Nat) : Nat :=
  match graphHeader (s.bytes pa 64) with
  | some (_, _, _, _, size) => size
  | none => 64
/-- An error of a node word of a slot, among those below a number of nodes: there is no word beyond (R286, R299). -/
def nodeLine (c : Ctx) (slot nodes : Nat) (e : ErrLine) : Bool :=
  match e.line with
  | .loom rg p k n => rg.toNat == regionOf c && p == (c.toNat % 2 == 1) && k.toNat == slot && decide (n.toNat < nodes)
  | _ => false
/-- Decide a `gload` that was issued at a pc: the new state and g[d]. A failure is a record and 0 (R296); an empty grant
fails every load (R142). -/
def State.gloadDecide (s : State) (c : Ctx) (ix : Nat) (pc : Word) : State × Word :=
  let t := s.task (s.taskAt c)
  let pa := t.graphs.getD ix 0
  let fail := fun (code : BitVec 8) =>
    (s.recordAt c code (BitVec.ofNat 64 ix) seqCmd 0 pc false false false false, (0 : Word))
  let (bs, ok) := if ix < t.graphs.length then s.graphBytes pa else ([], true)
  if !ok then fail 0x14
  else match readGraph bs with
    | none => fail 0x1A
    | some g =>
      let n := g.bays
      match (List.range 16).find? (fun k => !(s.slot c k).resident),
        (if n = 0 then some 0 else (List.range t.bays).find? (fun b => b + n ≤ t.bays && s.runFree c b n)) with
      | some k, some b =>
        if t.bays = 0 || g.farRead || g.depth > 64 then fail 0x18
        else ({ s with slots := mset s.slots (slotKey c k) { resident := true, sticky := false, image := pa, first := b
                                                             bays := n, graph := g }
                       errs := s.errs.filter (fun e => !nodeLine c k g.nodes.length e) }, BitVec.ofNat 64 k)
      | _, _ => fail 0x18

/-! ## Node arithmetic (R292 to R295) -/

/-- A checked value with its poison. -/
abbrev LVal := Int × Bool
/-- `check`: the value, and whether it overflowed. DEDUCED, log entry 22. -/
def checkW (w : Nat) (v : Int) : Int × Bool :=
  let lo := -(2 ^ (w - 1) : Int)
  let hi := (2 ^ (w - 1) : Int) - 1
  if v < lo then (lo, true) else if hi < v then (hi, true) else (v, false)
/-- Checked taps of an input vector; a poisoned tap has a free value (log entry 22). -/
def evalTaps (ws : List Nat) (xs : List LVal) (free : Nat) : List LVal × Bool :=
  (ws.zip xs).zipIdx.foldl (fun (p : List LVal × Bool) q =>
    let ((w, v), k) := q
    if v.2 then (p.1 ++ [(Config.freeInt (free + k), true)], p.2)
    else let r := checkW w v.1; (p.1 ++ [(r.1, false)], p.2 || r.2)) ([], false)
/-- Value of an operand. -/
def operand (taps nodes : List LVal) : Src → LVal
  | .tap k => taps.getD k (0, false)
  | .node n => nodes.getD n (0, false)
/-- The add nodes in number order. -/
def evalNodes (ns : List Node) (taps : List LVal) (free : Nat) : List LVal × Bool :=
  ns.zipIdx.foldl (fun (p : List LVal × Bool) q =>
    let a := operand taps p.1 q.1.a
    let b := operand taps p.1 q.1.b
    if a.2 || b.2 then (p.1 ++ [(Config.freeInt (free + q.2), true)], p.2)
    else
      let sg := fun (n : Bool) (v : Int) => if n then -v else v
      let r := checkW q.1.w (sg q.1.na a.1 * 2 ^ q.1.sa + sg q.1.nb b.1 * 2 ^ q.1.sb)
      (p.1 ++ [(r.1, false)], p.2 || r.2)) ([], false)
/-- Outputs of one vector, and whether anything overflowed. -/
def Graph.eval (g : Graph) (xs : List LVal) (free : Nat) : List LVal × Bool :=
  let (ts, o1) := evalTaps g.taps xs free
  let (ns, o2) := evalNodes g.nodes ts (free + g.taps.length)
  (g.outs.map (operand ts ns), o1 || o2)
/-- An output as FP32 (R295). -/
def outScale (y : Int) (sx sw : W32) : W32 := fMul (fMul (rn32 (ofInt y)) sx) sw

/-! ## `g.run` (R300 to R302) -/

/-- Clocks of inputs and outputs of a vector. -/
def GRunRec.ci (r : GRunRec) (g : Graph) : Nat := if r.i16 then (g.taps.length + 31) / 32 else (g.taps.length + 63) / 64
def Graph.co (g : Graph) : Nat := (g.outs.length + 15) / 16
def GRunRec.pv (r : GRunRec) (g : Graph) : Nat := max (GRunRec.ci r g) g.co
/-- The join of a `g.run`, in island cycles after its start. -/
def GRunRec.join (r : GRunRec) (g : Graph) : Nat :=
  let n := r.vectors.toNat
  if n = 0 then 1 else r.window.toNat + GRunRec.pv r g * (n - 1) + g.co
/-- `g.run`: the slot must be resident, slot and port free, and the grant not empty, else 0x10. -/
def execGRun (r : GRunRec) (s : State) : Out :=
  let c := s.cur
  let x := s.slot c r.slot.toNat
  let clash := (List.range (s.tableLen c)).any (fun k => (s.run c k).live && (match (s.run c k).ins with
    | some (.gRun q) => (q.slot == r.slot || q.port == r.port) &&
        s.since c k < GRunRec.join q (s.slot c q.slot.toNat).graph
    | _ => false))
  .next (if !x.resident || clash || (s.task (s.taskAt c)).bays = 0 then
      s.cmdFault c s.curCmd.toNat 0x10 0 0 (s.islOfCmd c (.gRun r)).ctr
    else s.beginCmd (.gRun r))

/-- Takes of a `g.run` d cycles after its start: number 4 (v ci + t) + e. -/
def State.gTakes (s : State) (c : Ctx) (r : GRunRec) (d : Nat) : List Take :=
  let g := (s.slot c r.slot.toNat).graph
  let pv := GRunRec.pv r g
  let ci := GRunRec.ci r g
  if pv = 0 || d / pv ≥ r.vectors.toNat || d % pv ≥ ci then []
  else (List.range 4).map (fun e =>
    { num := 4 * (d / pv * ci + d % pv) + e, elem := westElem r.port.toNat e, index := false, report := false })
/-- Input i of vector v from the beats taken. -/
def gInput (r : GRunRec) (taken : SMap (Option Cap)) (ci v i : Nat) : LVal :=
  let (per, w) := if r.i16 then (8, 16) else (16, 8)
  let b := (mget taken (4 * (v * ci + i / (4 * per)) + i / per % 4)).getD {}
  (decodeInt (if r.i16 then .i16 else .i8) (laneOf w b.data (i % per)), b.laneP w (i % per))
/-- An uncorrectable node word of a slot (R299). -/
def State.nodeErr (s : State) (c : Ctx) (slot : Nat) : Option ErrLine :=
  s.errs.find? (fun e => e.hard && nodeLine c slot (s.slot c slot).graph.nodes.length e)
/-- Physical address of a node word, which R9 maps nowhere: its offset in the slot (log entry 49). -/
def nodeAddr : ArrayLine → Nat
  | .loom _ _ _ n => 8 * n.toNat
  | _ => 0
/-- Evaluate vector v, whose last input has been taken: its result beats wait in the latch by number
4 (v co + u) + e, and `snap` marks an overflow. -/
def State.gEval (s : State) (c : Ctx) (k : Nat) (r : GRunRec) (v : Nat) : State :=
  let sl := s.slot c r.slot.toNat
  let g := sl.graph
  let x := s.run c k
  let ci := GRunRec.ci r g
  let (ys, spilt) := g.eval ((List.range g.taps.length).map (gInput r x.taken ci v)) s.free
  let first := (mget x.taken (4 * (v * ci))).getD {}
  let sx := if r.side then scalesOf first.side else r.sx
  let sxP := r.side && first.pq 0
  let lane := fun (j : Nat) => match ys[j]? with
    | some y => ((outScale y.1 sx (g.scales.getD j 0)).toNat, y.2 || sxP)
    | none => (0, false)
  let cap := fun (u e : Nat) => ({ data := packLanes 32 ((List.range 4).map (fun q => (lane (16 * u + 4 * e + q)).1))
                                   side := mkSide (bits4 (fun q => (lane (16 * u + 4 * e + q)).2)) 0 } : Cap)
  let s1 := { s with
    free := s.free + g.taps.length + g.nodes.length
    slots := if spilt then mset s.slots (slotKey c r.slot.toNat) { sl with sticky := true } else s.slots }
  let s2 := s1.putRun c k (fun y => { y with
    latch := (List.range g.co).foldl (fun m u => (List.range 4).foldl (fun m e =>
      mset m (4 * (v * g.co + u) + e) (some (cap u e))) m) y.latch
    snap := if spilt then mset y.snap v 1 else y.snap
    taken := mcut (4 * v * ci) (4 * ci) y.taken, done := v + 1 })
  match s.nodeErr c r.slot.toNat with
  | some e =>
    let s3 := (s2.recordAt c 0x30 (BitVec.ofNat 64 (nodeAddr e.line)) k 0 (BitVec.ofNat 64 v) false false true false).doomContext
      (s.task (s.taskAt c))
    { s3 with slots := mset s3.slots (slotKey c r.slot.toNat) {}
              errs := s3.errs.filter (fun x => !nodeLine c r.slot.toNat g.nodes.length x) }
  | none => s2
/-- After the takes of the d-th cycle: the vector whose last clock it was is evaluated. -/
def State.gAfterTake (s : State) (c : Ctx) (k : Nat) (r : GRunRec) (d : Nat) : State :=
  let g := (s.slot c r.slot.toNat).graph
  let pv := GRunRec.pv r g
  if pv != 0 && d / pv < r.vectors.toNat && d % pv + 1 = GRunRec.ci r g then s.gEval c k r (d / pv) else s
/-- The captures of the d-th cycle: results that are late raise 0x11, a strict overflow 0x19 (R301, R302). -/
def State.gWindow (s : State) (c : Ctx) (k : Nat) (r : GRunRec) (d : Nat) : State :=
  let g := (s.slot c r.slot.toNat).graph
  let pv := GRunRec.pv r g
  let w := r.window.toNat
  let m := d - w
  let v := m / pv
  let u := m % pv
  if GRunRec.join r g ≤ d then s.putRun c k (fun x => { x with st := .ended })
  else if d < w || pv = 0 || v ≥ r.vectors.toNat || u ≥ g.co then s
  else if d < pv * v + GRunRec.ci r g + g.depth + 3 then s.cmdFault c k 0x11 0 0 (s.islOfCmd c (.gRun r)).ctr
  else if g.strict && mget (s.run c k).snap v != 0 then s.cmdFault c k 0x19 0 0 v
  else
    let l := (s.run c k).latch
    let s1 := (List.range 4).foldl (fun s e =>
      s.aimM c (westElem r.port.toNat e) ((mget l (4 * (v * g.co + u) + e)).getD {}) 32) s
    s1.putRun c k (fun x => { x with latch := mcut 0 (4 * (v * g.co + u)) x.latch })

end Sys2Proof.Machine
end

