-- ==== Sys2Proof/Machine/EvFabric.lean ====
section
/-!
DEFINITION. The events of islands and windows: WINDOW_END, STREAM_READ_ARRIVES, WRITE_BEAT_ACCEPTED, ISLAND_CYCLE,
INTERVAL_SAMPLE, ISLAND_FINISH and LOCK_ENTRY_AVAILABLE (R16, R17, R43 to R45, R167 to R170, R199 to R211, R240).
-/

namespace Sys2Proof.Machine

/-! ## WINDOW_END (R16, R17, R45, R206) -/

/-- Beats or tokens that a write command must have had accepted at its window end. -/
def writeTotal : Instr → Nat
  | .sInPlane r => nestN (StreamRec.levels r false)
  | .sOut r => StreamRec.beats r false
  | .sScat r => StreamRec.dataBeats r
  | .sCopy r => StreamRec.beats r true
  | .camScat r => CamRec.iters r
  | _ => 0
/-- Island cycles from a command's start to its first window end. -/
def windowOf : Instr → Option Nat
  | .sIn r | .sInPlane r | .sOut r | .sGath r | .sScat r | .sCopy r => some r.window.toNat
  | .whFilt r => some r.window.toNat
  | .camGath r | .camGathDepth r => some (if CamRec.iters r = 0 then 1 else r.window.toNat)
  | .camProj r => some (if CamRec.iters r = 0 then r.window.toNat - 1 else r.window.toNat)
  | .camScat r => some r.window.toNat
  | .gRun r => some (if r.vectors = 0 then 1 else r.window.toNat)
  | _ => none
/-- Whether a hold excuses what a command lacks at a window end: it is held; or the access that was held has not landed
since, or the bound that counts from then has not passed (R206, R232). DEDUCED, log entry 42. -/
def State.excused (s : State) (c : Ctx) (k : Nat) : Bool :=
  let x := s.run c k
  x.st == .held || (x.slip && (decide (x.done ≤ x.first) || (s.nextBound c k).any (fun n => decide (s.cycle < n))))
/-- What is missing because of a hold stalls the island; what is late for any other reason raises 0x11 (R17, R206). -/
def State.windowMiss (s : State) (c : Ctx) (k : Nat) (i : Instr) : State :=
  if s.excused c k then s.stallIsl c i else s.cmdFault c k 0x11 0 0 (s.islOfCmd c i).ctr
/-- Capture the beat that is due on an element's M line; the last one, or a command without beats, ends. One captured in a
cycle that the island then stalls in stays on its way to M. -/
def State.capBeat (s : State) (c : Ctx) (k : Nat) (i : Instr) (elem blk total : Nat) : State :=
  let x := s.run c k
  let d := s.since c k - (windowOf i).getD 0
  if total ≤ d then s.putRun c k (fun x => { x with st := .ended })
  else if d < x.captured then s
  else match x.beat d with
    | some cap => (s.aimM c elem cap blk).putRun c k (fun x =>
        { x with latch := mcut 0 (d + 1) x.latch, captured := d + 1, st := if d + 1 = total then .ended else x.st })
    | none => s.windowMiss c k i
/-- A write command ends at its window end once everything has been accepted. -/
def State.joinBeat (s : State) (c : Ctx) (k : Nat) (i : Instr) : State :=
  if writeTotal i ≤ (s.run c k).done then s.putRun c k (fun x => { x with st := .ended }) else s.windowMiss c k i
/-- What the window count of a command makes due at the end of this island cycle. -/
def State.windowEnd (s : State) (c : Ctx) (k : Nat) : State :=
  let x := s.run c k
  match x.ins with
  | none => s
  | some i =>
    if !x.live || (windowOf i).any (fun w => s.since c k < w) then s
    else match i with
      | .sIn r => s.capBeat c k i (portElem r.port.toNat r.edge) (if r.esize = 5 then 8 * 2 ^ r.blk.toNat else 32)
          (StreamRec.beats r false)
      | .sGath r => s.capBeat c k i (portElem r.port.toNat r.edge) 32 (StreamRec.dataBeats r)
      | .whFilt r => s.capBeat c k i (portElem r.port.toNat r.edge) 32 (nestN [r.l1, r.l2, r.l3])
      | .camGath r | .camGathDepth r =>
        s.capBeat c k i (portElem r.port.toNat r.edge) 32 (CamRec.iters r * (s.storeOf c r).beats)
      | .camProj r => s.capBeat c k i (portElem r.port.toNat r.edge) 32 (CamRec.iters r)
      | .sInPlane _ | .sOut _ | .sScat _ | .sCopy _ | .camScat _ => s.joinBeat c k i
      | .gRun r => s.gWindow c k r (s.since c k)
      | _ => s
def execWindowEnd (c : Ctx) (k : BitVec 8) (s : State) : Out := .next (s.windowEnd c k.toNat)
/-- Commands of an island whose windows have something due. -/
def State.windowsDue (s : State) (c : Ctx) (i : Nat) : List Nat :=
  ((s.cmdsOf c i).filter (fun p => (s.run c p.1).live && (windowOf p.2).any (fun w => w ≤ s.since c p.1))).map (·.1)

/-! ## STREAM_READ_ARRIVES and WRITE_BEAT_ACCEPTED (R231, R240) -/

/-- Beats that the latch of an edge element holds (R231). -/
def latchSize : Nat := 2048
/-- The next transfer of a reading command comes about, where it may. -/
def State.readArrives (s : State) (c : Ctx) (k : Nat) : State :=
  let x := s.run c k
  match x.ins with
  | none => s
  | some i =>
    let room := (latchElem i).all (fun e => decide (s.latched c e < latchSize))
    if !x.tries then s
    else match i with
      | .sIn r => if room then s.sInRead c k r else s
      | .sInPlane r => s.sPlaneRead c k r
      | .sGath r => if room then s.sGathRead c k r else s
      | .whRed r => s.redStep c k r
      | .whFilt r => if room then s.filtRead c k r else s
      | .camGath r => if room then s.gathRead c k r false else s
      | .camGathDepth r => if room then s.gathRead c k r true else s
      | .camProj r => if room then s.projRead c k r else s
      | _ => s
def execStreamReadArrives (c : Ctx) (k : BitVec 8) (s : State) : Out := .next (s.readArrives c k.toNat)
/-- The next write of a command is accepted, where it may. -/
def State.writeAccepted (s : State) (c : Ctx) (k : Nat) : State :=
  let x := s.run c k
  if !x.tries then s
  else match x.ins with
    | some (.sOut r) => s.sOutWrite c k r
    | some (.sScat r) => s.sScatWrite c k r
    | some (.sCopy r) => s.sCopyWrite c k r
    | some (.camScat r) => s.scatWrite c k r
    | some (.mxEpi r) => if epiDue r x.done (s.since c k) then s.epiStore c k r else s
    | _ => s
def execWriteBeatAccepted (c : Ctx) (k : BitVec 8) (s : State) : Out := .next (s.writeAccepted c k.toNat)

/-! ## The entry that is due (R199) -/

/-- Elements of an island. -/
def islElems (d : IslandDesc) : List Nat := (List.range 512).filter (islHas d)
/-- The entry word that an element issues at its island's counter. -/
def State.dueEntry (s : State) (c : Ctx) (e : Nat) : Option Word :=
  let x := s.islOf c e
  let g := s.cfg c e
  if !x.running || x.past || x.ctr < x.base || x.zero != 0 then none
  else (if x.schedB then g.entB else g.entA).find? (fun w => w.toNat / 2 ^ 52 == x.ctr - x.base)
/-- Operands that an entry reads, with how many ages from each; `blk` is the element's block length. -/
def entryOpnds (blk : Nat) : Instr → List (Opnd × Nat)
  | .entryFma f | .entryFms f | .entryFnma f | .entryClamp f => [(f.a, 1), (f.b, 1), (f.c, 1)]
  | .entryAdd f | .entrySub f | .entryMul f | .entryMin f | .entryMax f | .entryDiv f | .entryShl f | .entryShr f
  | .entrySra f | .entryAnd f | .entryOr f | .entryXor f | .entryAndn f | .entryMulh f | .entryCmpeq f | .entryCmpne f
  | .entryCmplt f | .entryCmple f | .entryCmpgt f | .entryCmpge f | .entryCmpun f | .entryShuf f | .entryStbx f
  | .entryCadd f | .entryCsub f | .entryCand f | .entryCor f | .entryCshl f | .entryCcmp f | .entryRsv f | .entryRsvm f
  | .entryChk f => [(f.a, 1), (f.b, 1)]
  | .entryAbs f | .entryNeg f | .entrySqrt f | .entryExp2 f | .entryLg2 f | .entryRint f | .entryNot f | .entryClz f
  | .entryPopc f | .entryBcast f | .entryRot f | .entryHsum f | .entryHmax f | .entryHmin f | .entryScan f | .entryMov f
  | .entryLdbx f | .entryStb f | .entryCmov f | .entryRngSeed f | .entryCond f => [(f.a, 1)]
  | .entrySel f => if f.x.getLsbD 0 then [(f.a, 1), (f.b, 1), (f.c, 1)] else [(f.a, 1), (f.b, 1)]
  | .entryCvt f => if f.x.getLsbD 8 then [(f.a, 1), (f.b, 1)] else [(f.a, 1)]
  | .entryBitt f => if f.x.getLsbD 7 then [(f.a, 1)] else [(f.a, 1), (f.b, 1)]
  | .entryLut16 f => if f.ty.width = 16 then [(f.a, 1), (f.b, 1), (f.c, 1)] else [(f.a, 1), (f.b, 1)]
  | .entryRep f => [(f.c, 1)]
  | .entryBlkPack f => [(f.a, max f.ty.lanes blk / ((Ty.ofCode? (f.x.toNat % 16)).getD .f32).lanes)]
  | .entryBlkUnpk f => [(f.a, if f.x.getLsbD 7 then 2 else 1)]
  | _ => []
/-- Whether an entry reads a pending capture (R206). -/
def State.readsPending (s : State) (c : Ctx) (e : Nat) (i : Instr) : Bool :=
  (entryOpnds (s.cfg c e).blk i).any (fun o => (List.range o.2).any (fun j => (s.opndOlder c e o.1 j).pend))

/-! ## Lock links (R204, R205, R207) -/

def dirNum : Dir → Nat | .n => 0 | .e => 1 | .s => 2 | .w => 3
def Dir.opp : Dir → Dir | .n => .s | .e => .w | .s => .n | .w => .e
def dirs : List Dir := [.n, .e, .s, .w]
/-- Key of the link that a consumer sees in a direction. -/
def linkKey (c : Ctx) (e : Nat) (d : Dir) : Nat := 4 * eKey c e + dirNum d
def State.link (s : State) (c : Ctx) (e : Nat) (d : Dir) : List LinkEnt := mget s.links (linkKey c e d)
/-- Element and island behind a direction, where that island is another one. -/
def State.across (s : State) (c : Ctx) (i e : Nat) (d : Dir) : Option (Nat × Nat) :=
  match neighbour e d with
  | none => none
  | some e2 =>
    let j := islandIx (s.plane c).isls e2
    if j = 64 || j = i then none else some (e2, j)
/-- Whether a push would leave nine entries that a running consumer has not captured (R206). DEDUCED, log entry 43. -/
def State.linkFull (s : State) (c : Ctx) (i : Nat) : Bool :=
  (islElems ((s.plane c).isls.getD i {})).any (fun e => dirs.any (fun d => match s.across c i e d with
    | some (e2, j) => (s.isl c j).running &&
        ((s.link c e2 (Dir.opp d)).filter (fun x => (s.isl c j).abs ≤ x.n)).length ≥ 8
    | none => false))
/-- Fill pending captures; age 1 of a line has number `abs` - 1, over all runs of its island. -/
def fillCaps (abs : Nat) (f : Nat → Option Cap) (l : List Cap) : List Cap :=
  l.zipIdx.map (fun p => if p.1.pend && p.2 < abs then (f (abs - 1 - p.2)).getD p.1 else p.1)
def fillCCaps (abs : Nat) (f : Nat → Option CCap) (l : List CCap) : List CCap :=
  l.zipIdx.map (fun p => if p.1.pend && p.2 < abs then (f (abs - 1 - p.2)).getD p.1 else p.1)
/-- Fill the pending captures of an element's lines in a direction. -/
def Elem.fill (x : Elem) (d : Dir) (cdir : Option Dir) (abs : Nat) (f : Nat → Option (Cap × CCap)) : Elem :=
  let g := fillCaps abs (fun n => (f n).map (·.1))
  let y := match d with
    | .n => { x with ln := g x.ln } | .e => { x with le := g x.le }
    | .s => { x with ls := g x.ls } | .w => { x with lw := g x.lw }
  if cdir == some d then { y with lc := fillCCaps abs (fun n => (f n).map (·.2)) y.lc } else y
/-- Entries of a link that have become available fill what waits for them. -/
def State.lockAvail (s : State) (c : Ctx) (e : Nat) (d : Dir) : State :=
  let abs := (s.islOf c e).abs
  let ents := (s.link c e d).map (fun x => if x.at' ≤ s.cycle then { x with avail := true } else x)
  let f := fun (n : Nat) => (ents.find? (fun x => x.avail && x.n == n)).map (fun x => (x.cap, x.cc))
  let s1 := s.setElem c e ((s.elem c e).fill d (s.cfg c e).cdir abs f)
  { s1 with links := mset s1.links (linkKey c e d) (ents.filter (fun x => !(x.avail && x.n < abs))) }
def execLockEntryAvailable (c : Ctx) (e : ElemIx) (d : Dir) (s : State) : Out := .next (s.lockAvail c e.toNat d)
/-- Links with an entry that becomes available at the end of this real cycle. -/
def State.linksDue (s : State) : List (Ctx × ElemIx × Dir) :=
  (s.links.filter (fun p => p.2.any (fun x => !x.avail && x.at' ≤ s.cycle))).map (fun p =>
    (BitVec.ofNat 5 (p.1 / 2048), BitVec.ofNat 9 (p.1 / 4), dirs.getD (p.1 % 4) .n))

/-! ## ISLAND_CYCLE (R44, R45, R167, R169) -/

/-- What the line of an element in a direction, and the C line facing it, capture: zeros at once where the producer has
finished or is a count-0 island, and has pushed no entry for it (R207). -/
def State.fromDir (s : State) (c : Ctx) (i e : Nat) (d : Dir) (free : Nat) : Cap × CCap :=
  let n := (s.isl c i).abs
  match neighbour e d with
  | none => ({}, {})
  | some e2 =>
    let j := islandIx (s.plane c).isls e2
    if j = 64 then ({}, {})
    else if j = i then
      let a := (s.isl c i).abs
      ((s.elem c e2).seeRes a free, (s.elem c e2).seeCres a (free + 4))
    else match (s.link c e d).find? (·.n == n) with
      | some x => if x.avail then (x.cap, x.cc) else ({ pend := true }, { pend := true })
      | none => if (s.isl c j).running && ((s.plane c).isls.getD j {}).count != 0 then ({ pend := true }, { pend := true }) else ({}, {})
/-- Put a capture at age 1. -/
def push16 {α : Type} (v : α) (l : List α) : List α := (v :: l).take 16
/-- An element at the end of an island cycle. -/
def State.captureElem (s : State) (c : Ctx) (i e : Nat) : Elem :=
  let x := s.elem c e
  let a := (s.isl c i).abs
  let f := s.free + 16 * e
  let at' := fun (d : Dir) => s.fromDir c i e d (f + dirNum d)
  let m : Cap × Nat := match mget x.bankRd a with
    | some v => (v, 32)
    | none => x.mNext.getD ({}, 32)
  let cc := match (s.cfg c e).cdir with
    | some d => (at' d).2
    | none => {}
  { x with ln := push16 (at' .n).1 x.ln, le := push16 (at' .e).1 x.le, ls := push16 (at' .s).1 x.ls
           lw := push16 (at' .w).1 x.lw, ll := push16 (x.seeRes a (f + 8)) x.ll, lm := push16 m.1 x.lm
           lc := push16 cc x.lc, mBlk := push16 m.2 x.mBlk, bankRd := mset x.bankRd a none, mNext := none }
/-- Push the results of an island's elements on their outgoing links, after its captures. A consumer that has finished
takes what its captures wait for (R207). -/
def State.pushLinks (s : State) (c : Ctx) (i : Nat) (es : List Nat) : SMap (List LinkEnt) :=
  let a := (s.isl c i).abs
  let taken := es.foldl (fun m e => dirs.foldl (fun m d =>
    mset m (linkKey c e d) ((mget m (linkKey c e d)).filter (fun x => !(x.avail && x.n == a)))) m) s.links
  es.foldl (fun m e => dirs.foldl (fun m d => match s.across c i e d with
    | some (e2, j) =>
      let n := (s.isl c j).start + (s.isl c i).ctr
      if (s.isl c j).running || n < (s.isl c j).abs then
        -- the data is that of the producer's own L capture of the cycle (R227)
        let f := s.free + 16 * e + 8
        mset m (linkKey c e2 (Dir.opp d)) (mget m (linkKey c e2 (Dir.opp d)) ++
          [({ n := n, cap := (s.elem c e).seeRes a f, cc := (s.elem c e).seeCres a (f + 2), at' := s.cycle + 2 } : LinkEnt)])
      else m
    | none => m) m) taken
/-- What a command takes in this cycle. -/
def State.takesOf (s : State) (c : Ctx) (k : Nat) : List Take :=
  let x := s.run c k
  let d := s.since c k
  if !x.live then []
  else match x.ins with
    | some (.gRun r) => s.gTakes c r d
    | some i => streamTakes i d ++ s.camTakes c i d
    | none => []
/-- Take from a result register as it stands at the end of the cycle; reported poison ends the gang (R220). -/
def State.takeOne (s : State) (c : Ctx) (k : Nat) (t : Take) : State :=
  let x := s.islOf c t.elem
  let v := (s.elem c t.elem).seeRes x.abs s.free
  let s1 : State := { s with free := s.free + 1 }
  if t.report && v.anyP then s1.fabricFault c 0x13 0 0 t.elem x.ctr true
  else s1.putRun c k (fun y => if t.index then { y with idx := mset y.idx t.num (some v) }
                               else { y with taken := mset y.taken t.num (some v) })
/-- Takes of a command, and the evaluation of a loom vector whose last clock they are. -/
def State.takeCmd (s : State) (c : Ctx) (k : Nat) : State :=
  let s1 := (s.takesOf c k).foldl (fun s t => s.takeOne c k t) s
  match (s1.run c k).ins with
  | some (.gRun r) => if (s1.run c k).live then s1.gAfterTake c k r (s1.since c k) else s1
  | _ => s1
def isLoad : Instr → Bool | .mxWload _ => true | _ => false
/-- The end of an island cycle: the matrix commands act, loads first; where nothing stalls the island, commands
take, lines shift and capture, links are pushed and the counter advances. -/
def State.islandCycle (s : State) (c : Ctx) (i : Nat) : State :=
  let x := s.isl c i
  if !x.running || !x.issued || x.stall then s
  else if x.zero != 0 then s.setIsl c i { x with zero := x.zero - 1, issued := false, moved := s.cycle }
  else
    let cmds := s.cmdsOf c i
    let ks := (cmds.filter (fun p => isLoad p.2)).map (·.1) ++ (cmds.filter (fun p => !isLoad p.2)).map (·.1)
    let s1 := ks.foldl (fun s k => s.mxAdvance c k) s
    if (s1.isl c i).stall then s1
    else
      let s2 := ks.foldl (fun s k => s.takeCmd c k) s1
      let es := islElems ((s2.plane c).isls.getD i {})
      let links := s2.pushLinks c i es
      let s3 := es.foldl (fun t e => t.setElem c e (s2.captureElem c i e)) s2
      let s4 : State := { s3 with links := links, free := s3.free + 8192 }
      s4.setIsl c i { s4.isl c i with ctr := x.ctr + 1, abs := x.abs + 1, issued := false, moved := s.cycle }
def execIslandCycle (c : Ctx) (i : BitVec 6) (s : State) : Out := .next (s.islandCycle c i.toNat)

/-! ## INTERVAL_SAMPLE (R43, R200, R202, R203) -/

/-- The end of an interval: after the last one the island runs no more entries; before it, the selector's flag
chooses the next schedule, with three switch cycles where it changes. -/
def State.intervalSample (s : State) (c : Ctx) (i : Nat) : State :=
  let x := s.isl c i
  let d := (s.plane c).isls.getD i {}
  if !x.running || x.past || x.issued || x.zero != 0 || x.ctr != x.base + d.period then s
  else if x.left ≤ 1 then s.setIsl c i { x with left := 0, past := true }
  else
    let e := d.selRow * 32 + d.selCol
    let (v, p) := if d.hasB then (s.elem c e).seeFlag (x.abs - 1) s.free else (false, false)
    if p then s.fabricFault c 0x13 0 0 e (x.ctr - 1) true
    else
      let s1 := s.setIsl c i { x with left := x.left - 1, schedB := v, base := if v == x.schedB then x.ctr else x.ctr + 3 }
      { s1 with free := s1.free + 1 }
def execIntervalSample (c : Ctx) (i : BitVec 6) (s : State) : Out := .next (s.intervalSample c i.toNat)

/-! ## ISLAND_FINISH (R43, R200, R201, R207) -/

/-- The last interval and every window have ended: the island finishes. Captures of other islands that it never
pushed for are filled with zero, and a `wait` of its task ends. -/
def State.islandFinish (s : State) (c : Ctx) (i : Nat) : State :=
  let x := s.isl c i
  if !x.running || x.issued || !x.past || x.zero != 0 || (s.cmdsOf c i).any (fun p => (s.run c p.1).live) then s
  else
    let s1 := s.setIsl c i { x with running := false, finished := true }
    let s2 := (islElems ((s1.plane c).isls.getD i {})).foldl (fun s e => dirs.foldl (fun s d => match s.across c i e d with
      | some (e2, j) =>
        let ents := s.link c e2 (Dir.opp d)
        s.setElem c e2 ((s.elem c e2).fill (Dir.opp d) (s.cfg c e2).cdir (s.isl c j).abs (fun n =>
          if ents.any (·.n == n) then none else some ({}, {})))
      | none => s) s) s1
    s2.modThr c (fun t => if t.idle.isSome then { t with woken := true } else t)
def execIslandFinish (c : Ctx) (i : BitVec 6) (s : State) : Out := .next (s.islandFinish c i.toNat)

/-! ## Taking up a cycle (R199, R201, R206) -/

/-- A running island takes up its cycle: it stalls before an entry that reads a pending capture or a push that
finds no room; else its commands start and its entries issue. A cycle taken up stays so while it stalls.
DEDUCED, log entry 43. -/
def State.islandTake (s : State) (c : Ctx) (i : Nat) (decode : Word → Option Instr) : State :=
  let x := s.isl c i
  if !x.running then s
  else if x.issued || x.zero != 0 then s.setIsl c i { x with issued := true, stall := false }
  else
    let due := (islElems ((s.plane c).isls.getD i {})).filterMap (fun e => (s.dueEntry c e).map (fun w => (e, w)))
    let blocked := due.any (fun p => (decode p.2).any (s.readsPending c p.1)) || s.linkFull c i
    if blocked then s
    else
      let cmds := (s.cmdsOf c i).filter (fun p => (hdrOf p.2).any (·.start.toNat == x.ctr) && (s.run c p.1).st == .notStarted)
      let s1 := s.setIsl c i { x with issued := true, stall := false }
      { s1 with agenda := cmds.map (fun p => Act.cmd c (BitVec.ofNat 8 p.1)) ++
                  due.map (fun p => Act.entry c (BitVec.ofNat 9 p.1)) ++ s1.agenda }

/-- The `chk`s that are decided at the end of this real cycle (R211). -/
def State.decideChks (s : State) (c : Ctx) : State :=
  (s.elemsOf c).foldl (fun s p => p.2.chks.foldl (fun s k =>
    if k.at' ≤ s.cycle then s.fabricFault c k.code (k.id.setWidth 64) 0 p.1 k.pos true else s)
    (if p.2.chks.any (fun k => k.at' ≤ s.cycle) then
      s.setElem c p.1 { s.elem c p.1 with chks := p.2.chks.filter (fun k => s.cycle < k.at') } else s)) s

end Sys2Proof.Machine
end

