-- ==== Sys2Proof/Machine/EvLink.lean ====
section
/-!
DEFINITION. Link operations as they leave, perform at their destination and complete (R89, R135, R136, R165, R340,
R363 to R373, R376, R379).
-/

namespace Sys2Proof.Machine

/-! ## Local data (R12, R136) -/

/-- Read bytes of a private stack for a link operation, piece by piece, each with its check: one that fails reads as
poison, and one past correction ends the context (R373, R381). -/
def State.stackPieces (s : State) (id : Nat) (o : LinkOp) : List (Nat × Nat) → State × List (Byte × Bool) × EStop
  | [] => (s, [], .none)
  | (pa, n) :: ps =>
    let t := s.task id
    if s.hardMem pa then (s.memError t.ctx pa t.owner.toNat (linkCmd o) 0 o.pc, [], if t.owner = 0 then .none else .ended)
    else
      let ok := s.checkOk (pa / 64)
      let s1 := if ok then s else s.engRecord id (linkCmd o) 0x14 (pa / 64 * 64) 0 o.pc.toNat false false false
      let (s2, bs, e) := s1.stackPieces id o ps
      (s2, (s.bytes pa n).map (fun b => (b, !ok)) ++ bs, e)
/-- Read local bytes of a link operation; the private stack has no page. -/
def State.localRead (s : State) (id : Nat) (o : LinkOp) (va n : Nat) : State × List (Byte × Bool) × EStop :=
  let t := s.task id
  if n = 0 then (s, [], .none)
  else if t.inStack va && t.inStack (va + n - 1) then s.stackPieces id o (vaPieces (t.stackPa + (va - t.stackVa)) n)
  else if t.belowStack va then (s.engEnd id (linkCmd o) 0x0A va o.pc.toNat, [], .ended)
  else s.engRead id (linkCmd o) o.pc.toNat false true va n
/-- Write local bytes of a link operation directly to memory. -/
def State.localWrite (s : State) (id : Nat) (o : LinkOp) (va : Nat) (bs : List Byte) : State × EStop :=
  let t := s.task id
  if bs.isEmpty then (s, .none)
  else if t.inStack va && t.inStack (va + bs.length - 1) then
    match s.write (t.stackPa + (va - t.stackVa)) bs with
    | (s1, []) => (s1, .none)
    | (s1, g :: _) => (s1.engEnd id (linkCmd o) 0x14 (64 * g) o.pc.toNat, .ended)
  else if t.belowStack va then (s.engEnd id (linkCmd o) 0x0A va o.pc.toNat, .ended)
  else s.engWrite id (linkCmd o) o.pc.toNat true true va bs

/-! ## The thread of a task, resident or spilled -/

/-- Change the thread of a task wherever its context is; a task that has ended has none. -/
def State.modThread (s : State) (id : Nat) (f : Thread → Thread) : State :=
  let t := s.task id
  if t.phase == .resident then s.modThr t.ctx f
  else if t.phase == .spilled then { s with saves := mmod s.saves id (fun x => { x with thr := f x.thr }) }
  else s
/-- Land the register that waits for a link operation (R109). -/
def Thread.landLink (t : Thread) (num : Nat) (v : Word) : Thread :=
  t.pend.foldl (fun t p => if p.kind == .link num then t.put p.d v false else t)
    { t with pend := t.pend.filter (fun p => p.kind != .link num) }

/-! ## LINK_OP_LEAVES -/

def State.linkSender (s : State) (id : Nat) (o : LinkOp) : Sender := s.senderOf id o.num
/-- Send an operation that has read what it needs. -/
def State.sendOp (s : State) (id : Nat) (o : LinkOp) (m : OutMsg) : State :=
  if !s.reaches o.pkg then s.linkFail id o o.remote.toNat
  else (s.modOp id o.num (fun o => { o with left := true })).emit m
/-- An operation with local source data. -/
def State.sendLocal (s : State) (id : Nat) (o : LinkOp) (m : List Byte → OutMsg) : State :=
  match s.localRead id o o.local'.toNat o.len with
  | (s1, bs, .none) =>
    if bs.any (·.2) then s1.linkFail id o o.local'.toNat else s1.sendOp id o (m (bs.map (·.1)))
  | (s1, _, .held _) => s1.modOp id o.num (fun o => { o with held := true })
  | (s1, _, .ended) => s1.dropOp id o.num
  | (s1, _, .wait) => s1
/-- `mrecv`: the oldest message and zeros to 256 bytes, with an acquire, or nothing and a length of 0 (R372).
DEDUCED, log entry 45. -/
def State.recvMail (s : State) (id : Nat) (o : LinkOp) : State :=
  let t := s.task id
  match t.mail with
  | [] => (s.modThread id (fun t => t.landLink o.num 0)).dropOp id o.num
  | n :: rest =>
    match s.localWrite id o o.arg.toNat (s.bytes (t.mailSlot 0) n ++ List.replicate (256 - n) 0) with
    | (s1, .none) =>
      let s2 := (s1.modTask id (fun t => { t with mail := rest, mailRd := (t.mailRd + 1) % 31 })).mailHead id
      let s3 := (s2.modThread id (fun t => t.landLink o.num (BitVec.ofNat 64 n))).dropOp id o.num
      if (s3.task id).phase == .resident then s3.acquire (s3.task id).ctx else s3
    | (s1, .held _) => s1.modOp id o.num (fun o => { o with held := true })
    | (s1, .ended) => s1.dropOp id o.num
    | (s1, .wait) => s1
/-- Whether an operation has to wait before it leaves: an `lamo` that has left acquires ahead of everything later, and
an `lamo` or `lsend` is a release, behind every store in the lay-by log (R93, R94, R371, R372; log entries 72 and 73). -/
def Task.linkWaits (t : Task) (o : LinkOp) : Bool :=
  t.links.any (fun x => x.left && x.kind == .amo) || ((o.kind == .amo || o.kind == .send) && t.laidPlain)
/-- The first queued link instruction of a head leaves (R136). DEDUCED, log entry 48. -/
def State.linkLeave (s : State) (id : Nat) : State :=
  let t := s.task id
  match t.firstOp false with
  | none => s
  | some o =>
    let me := s.linkSender id o
    if !s.isHead id || o.held || t.linkWaits o then s
    else match o.kind with
      | .put => s.sendLocal id o (fun bs => .put o.pkg me o.remote bs)
      | .send => s.sendLocal id o (fun bs => .mail o.pkg me (o.remote.setWidth 32) bs)
      | .get => s.sendOp id o (.get o.pkg me o.remote o.len)
      | .amo => s.sendOp id o (.amo o.pkg me o.remote o.aop o.dbl o.local' o.arg)
      | .notify => (s.notify t.queue.toNat 2 0 (s.gang t.gang).tag 0 o.arg).dropOp id o.num
      | .recv => s.recvMail id o
      | .coll => s
def execLinkOpLeaves (task : W32) (s : State) : Out := .next (s.linkLeave task.toNat)

/-! ## LINK_REPLY -/

/-- The task and operation of a number, once it has left. -/
def State.findOp (s : State) (num : Nat) : Option (Nat × LinkOp) :=
  s.tasks.foldl (fun r p => match r with
    | some x => some x
    | none => (p.2.links.find? (fun o => o.num == num && o.left && o.kind != .coll)).map (fun o => (p.1, o))) none
/-- What another package reports of a granule that a run of this one needs: past correction, or failing its check (R335). -/
def State.farBad (s : State) (i addr : Nat) (hard : Bool) : State :=
  let a := s.atOf i
  if hard then s.atBroken i 0 a.row (s.seqDesc a.desc).owner else s.atEnd i 0x14 addr a.row
/-- The answer to an attention command's request for a page; the descriptor is read again, with its check (R335, R340). -/
def State.pageReply (s0 : State) (i page : Nat) (pkg : BitVec 10) (r : Reply) : State :=
  match s0.descGet i (s0.atOf i).row with
  | (s, false) => s.dropAt i
  | (s, true) =>
    let a := s.atOf i
    let addr := match a.op with | .app => (s.seqDesc a.desc).length | _ => 64 * page
    let entry := fun (ge : Option Nat) (k : Nat → State → State) =>
      match s.globalOk i a.row addr (s.seqDesc a.desc).owner ge with
      | (s1, some pa, _) => k pa s1
      | (s1, none, .park v) => s1.park i a.row v
      | (s1, none, _) => s1.dropAt i
    match r with
    | .page ge bs => entry (ge.map BitVec.toNat) (fun pa s1 => s1.modAt i (fun a => { a with
        far := a.far ++ [{ page := page, pkg := pkg, pa := pa, bytes := bs }], wait := .ready }))
    | .pageBad none hard => (s.farBad i addr hard).dropAt i
    | .pageBad (some g) hard => entry (some g.toNat) (fun _ s1 => (s1.farBad i addr hard).dropAt i)
    | _ => (s.atEnd i 0x38 addr a.row).dropAt i
/-- A write of a page of another package has been performed, or has failed: on a granule that it could not read (R335), or
on the link. -/
def State.pageWritten (s : State) (num : Nat) (r : Reply) : State :=
  match s.atRun.findIdx? (·.acks.contains num) with
  | some i => match r with
    | .done => s.modAt i (fun a => { a with acks := a.acks.erase num })
    | .pageBad _ hard => (s.farBad i 0 hard).dropAt i
    | _ => (s.atEnd i 0x38 0 (s.atOf i).row).dropAt i
  | none => s
/-- A remote operation completes back at its sender. -/
def State.linkAnswer (s : State) (num : Nat) (r : Reply) : State :=
  match s.findOp num with
  | some (id, o) =>
    let t := s.task id
    (match r with
    | .done => s.linkDone id o
    | .bytes bs => (match s.localWrite id o o.local'.toNat bs with
      | (s1, .none) => s1.linkDone id o
      | (s1, .ended) => s1.dropOp id o.num
      -- a full lay-by log holds the write: the answer is taken again
      | (s1, _) => { s1 with linkIn := s1.linkIn ++ [.linkReply num r] })
    | .old v =>
      let n := if o.dbl then 8 else 4
      let w := match aopOfCode o.aop.toNat with
        | some a => aopResult a n (v.toNat % 2 ^ (8 * n))
        | none => 0
      let s1 := s.modThread id (fun t => t.landLink num w)
      (if t.phase == .resident then s1.acquire t.ctx else s1).linkDone id o
    | .failed va => s.linkFail id o va.toNat
    | .dead => (s.modThread id (fun t => { t with bounces := t.bounces + 1 })).dropOp id o.num
    | .page _ _ | .pageBad _ _ => s)
  | none =>
    match (s.atRun.zipIdx).find? (fun p => match p.1.wait with | .remote _ op _ _ => op == num | _ => false) with
    | some (a, i) => (match a.wait with
      | .remote page _ pkg _ => s.pageReply i page pkg r
      | _ => s)
    | none => s.pageWritten num r
def execLinkReply (op : Nat) (r : Reply) (s : State) : Out := .next (s.linkAnswer op r)

/-! ## At the destination (R369 to R371) -/

/-- Translate a remote access in the sender's context with the PTE checks; Accessed and Dirty are set. -/
def State.farAcc (s : State) (x : Sender) (k : AccK) (va : Nat) : State × Acc :=
  if !(s.ctxEntry x.tenant.toNat).ok || va ≥ 2 ^ 48 then (s, .prot)
  else match s.walk x.tenant.toNat va with
    | .fault => (s, .pageFault)
    | .prot => (s, .prot)
    | .leaf p lv a =>
      let p2 := markPte (k == .store && pteBit p 2) p
      (s.markWord 0 a p p2, s.checkLeaf x.owner false k p2 (leafSize lv p) va)
/-- Answer a sender. -/
def State.answer (s : State) (x : Sender) (r : Reply) : State := s.emit (.answer x.who.pkg x.op r)
/-- Write the pieces of a remote write, up to one that fails. DEDUCED, log entry 46. -/
def State.farWrite (s : State) (x : Sender) : List (Nat × List Byte) → State × Bool
  | [] => (s, true)
  | (va, bs) :: ps =>
    match s.farAcc x .store va with
    | (s1, .ok pa _ _ _) => match s1.writeGranule pa bs with
      | (s2, true) => ((s2.strike pa bs.length).remoteVisible [pa / 64]).farWrite x ps
      | (s2, false) => (s2, false)
    | (s1, _) => (s1, false)
def execRemoteWrite (x : Sender) (va : Word) (bs : List Byte) (s : State) : Out :=
  match s.farWrite x (pieces va.toNat bs) with
  | (s1, true) => .next (s1.answer x .done)
  | (s1, false) => .next (s1.answer x (.failed va))
/-- Read the pieces of a remote read; `none` where one fails or reads as poison. -/
def State.farRead (s : State) (x : Sender) : List (Nat × Nat) → State × Option (List Byte)
  | [] => (s, some [])
  | (va, n) :: ps =>
    match s.farAcc x .load va with
    | (s1, .ok pa poison _ tag) =>
      if !poison && s1.hardMem pa then (s1.memErrorAlone pa tag x.tenant, none)
      else if poison || !s1.checkOk (pa / 64) then (s1, none)
      else match s1.farRead x ps with
        | (s2, some bs) => (s2, some (s1.bytes pa n ++ bs))
        | r => r
    | (s1, _) => (s1, none)
def execRemoteRead (x : Sender) (va : Word) (len : Nat) (s : State) : Out :=
  match s.farRead x (vaPieces va.toNat len) with
  | (s1, some bs) => .next (s1.answer x (.bytes bs))
  | (s1, none) => .next (s1.answer x (.failed va))
/-- A remote atomic: one access, with a visibility event. DEDUCED, log entry 46. -/
def State.farAtomic (s : State) (x : Sender) (va : Nat) (o : Aop) (n b cmp : Nat) : State × Option Nat :=
  if va % n != 0 then (s, none)
  else match s.farAcc x .store va with
    | (s1, .ok pa poison _ tag) =>
      if !poison && s1.hardMem pa then (s1.memErrorAlone pa tag x.tenant, none)
      else if poison || !s1.checkOk (pa / 64) then (s1, none)
      else
        let old := leVal (s1.bytes pa n)
        match s1.writeGranule pa (leList n (aopNew o n old b cmp)) with
        | (s2, true) => ((s2.strike pa n).remoteVisible [pa / 64], some old)
        | (s2, false) => (s2, none)
    | (s1, _) => (s1, none)
def execRemoteAtomic (x : Sender) (va : Word) (aop : BitVec 4) (dbl : Bool) (operand compare : Word) (s : State) : Out :=
  let n := if dbl then 8 else 4
  match aopOfCode aop.toNat with
  | none => .next (s.answer x (.failed va))
  | some o => match s.farAtomic x va.toNat o n (operand.toNat % 2 ^ (8 * n)) (compare.toNat % 2 ^ (8 * n)) with
    | (s1, some old) => .next (s1.answer x (.old (BitVec.ofNat 64 old)))
    | (s1, none) => .next (s1.answer x (.failed va))

/-! ## Mailboxes (R165) -/

/-- Whether a task has a mailbox. -/
def State.mailLive (s : State) (task : Nat) : Bool := (s.task task).gang != 0 && (s.task task).phase != .done
/-- Deliver a message, or return it with 0x39. DEDUCED, log entry 45. -/
def State.deliver (s : State) (x : Sender) (task : Nat) (bs : List Byte) : State :=
  if !s.mailLive task then s.answer x .dead
  else
    let t := s.task task
    let s1 := ((s.updateFor task (t.mailSlot t.mail.length) bs).modTask task (fun t => { t with mail := t.mail ++ [bs.length] })).mailHead task
    (s1.modThread task (fun t => if t.idle.isSome then { t with woken := true } else t)).answer x .done
/-- A message for a full mailbox waits, and so does one behind a message of its own package that waits: messages of one
source perform in order (R365). -/
def execMailboxDelivery (x : Sender) (task : W32) (bs : List Byte) (s : State) : Out :=
  let n := task.toNat
  let behind := s.mailWait.any (fun p => p.1.who.pkg == x.who.pkg)
  .next (if behind || (s.mailLive n && (s.task n).mail.length ≥ 31) then { s with mailWait := s.mailWait ++ [(x, task, bs)] }
    else s.deliver x n bs)
/-- Whether a waiting message can go: its mailbox has room or is gone, and no earlier one of its package waits. -/
def State.mailReady (s : State) (p : Sender × W32 × List Byte) : Bool :=
  (!s.mailLive p.2.1.toNat || (s.task p.2.1.toNat).mail.length < 31) &&
    s.mailWait.find? (fun q => q.1.who.pkg == p.1.who.pkg) == some p
/-- The oldest waiting message that can go is delivered. -/
def State.mailStep (s : State) : State :=
  match s.mailWait.find? s.mailReady with
  | some p => ({ s with mailWait := s.mailWait.erase p }).deliver p.1 p.2.1.toNat p.2.2
  | none => s

/-! ## COLLECTIVE_PACKET (R376, R379) -/

/-- A pod barrier of this package: the parties that wait fail with 0x38. -/
def State.barFail (s : State) (key : Nat) : State :=
  let b := mget s.bars key
  b.arrived.foldl (fun s id => s.engEnd id seqCmd 0x38 (key % 16) (s.thr (s.task id).ctx).pc.toNat) s
def execCollectivePacket (m : CollMsg) (s : State) : Out :=
  match m with
  | .part p => .next ((s.partArrives p).collCheck p.tag p.seqNo)
  | .ended tag k p => .next ((s.collArrive tag k (fun x => { x with ended := x.ended ++ [p] })).collCheck tag k)
  | .arrive id p =>
    .next { s with bars := mmod s.bars (barKey .pod 0 id.toNat) (fun b => { b with pods := b.pods ++ [p] }) }
  | .barEnded id p =>
    .next (State.barFail { s with bars := mmod s.bars (barKey .pod 0 id.toNat) (fun b => { b with lost := b.lost ++ [p] }) }
      (barKey .pod 0 id.toNat))

/-! ## LINK_PATH_FAILURE (R363, R373) -/

/-- The operations in flight to other packages: task, operation, package. -/
def State.inFlight (s : State) : List (Nat × LinkOp) :=
  s.tasks.flatMap (fun p => (p.2.links.filter (fun o => o.left && o.kind != .coll && o.pkg != s.pkgId)).map (fun o => (p.1, o)))
/-- Everything under way to packages that no path reaches ends with 0x38 (R340, R373). -/
def State.cutOff (s : State) : State :=
  let gone := fun (p : BitVec 10) => !s.reaches p
  let s1 := (s.inFlight.filter (fun p => gone p.2.pkg)).foldl (fun s p => s.linkFail p.1 p.2 p.2.remote.toNat) s
  let s2 := (s.colls.filter (fun x => x.mine.any (fun m => m.2.2.2.any gone))).foldl (fun s x => s.collFail x.tag x.seqNo) s1
  (s2.atRun.zipIdx.reverse.filter (fun p => (match p.1.wait with | .remote _ _ q _ => gone q | _ => false) ||
      (!p.1.acks.isEmpty && p.1.far.any (fun x => gone x.pkg)))).foldl (fun s p =>
    (s.atEnd p.2 0x38 0 p.1.row).dropAt p.2) s2
/-- A path fails. Firmware reroutes it where it can; which packages, idle ones too, are reached by it alone is free.
DEDUCED, log entry 47. -/
def State.pathFails (s : State) (port : BitVec 5) : State :=
  let s1 : State := { s with badPorts := if s.badPorts.contains port then s.badPorts else s.badPorts ++ [port], free := s.free + 1025 }
  let lost := if Config.happens s.cycle s.free then [] else ((List.range 1024).map (BitVec.ofNat 10)).filter (fun p =>
    p != s.pkgId && Config.happens s.cycle (s.free + 1 + p.toNat))
  State.cutOff { s1 with unreach := (s1.unreach ++ lost).eraseDups }
def execLinkPathFailure (port : BitVec 5) (s : State) : Out := .next (s.pathFails port)

/-! ## REMOTE_PAGE_REQUEST (R340) -/

/-- Write bytes of a page for another package, at the address that its translation found. A part of a granule that fails its
check or is past correction is not written, and reported (R72, R73, R335). -/
def State.farPut (s : State) (x : Sender) : List (Nat × List Byte) → State × Reply
  | [] => (s, .done)
  | (pa, bs) :: ps =>
    if !inAttention pa then (s, .failed 0)
    else if bs.length < 64 && s.hardMem pa then (s.memErrorAlone (pa / 64 * 64) x.owner.toNat x.tenant, .pageBad none true)
    else match s.writeGranule pa bs with
      | (s1, true) => s1.farPut x ps
      | (s1, false) => (s1, .pageBad none false)
/-- Serve another package's attention command for a block that this package holds. A read answers with the global entry
and the page; a granule that fails its check, or an error past correction, which ends the context of the owner, is
reported in its place (R335). A write goes where the sender's one translation of the page found it (R340).
DEDUCED, log entry 24. -/
def execRemotePageRequest (x : Sender) (q : PageReq) (s : State) : Out :=
  match q.put with
  | some (pa, bs) => let r := s.farPut x (pieces pa bs); .next (r.1.answer x r.2)
  | none =>
    if q.block.toNat ≥ s.regs.atgSize.toNat then .next (s.answer x (.page none []))
    else
      let a := s.regs.atgBase.toNat + 8 * q.block.toNat
      let ge := s.word a
      let page := ge / 4096 % 2 ^ 40 * 4096
      let w : Word := BitVec.ofNat 64 ge
      if s.hardMem a then .next ((s.memErrorAlone a x.owner.toNat x.tenant).answer x (.pageBad none true))
      else if !s.checkOk (a / 64) then .next (s.answer x (.pageBad none false))
      else if ge % 2 = 0 || !inAttention page then .next (s.answer x (.page (some w) []))
      else match (granulesOf page q.len).find? (fun g => s.hardMem (64 * g)) with
        | some g => .next ((s.memErrorAlone (64 * g) (ge / 2 ^ 52 % 256) x.tenant).answer x (.pageBad (some w) true))
        | none =>
          if (granulesOf page q.len).all s.checkOk then .next (s.answer x (.page (some w) (s.bytes page q.len)))
          else .next (s.answer x (.pageBad (some w) false))

end Sys2Proof.Machine
end

