-- ==== Sys2Proof/Machine/EvCommit.lean ====
section
/-!
DEFINITION. The events BARRIER_RELEASE, COMMIT, FAULT_RECORD_WRITE, FBFLUSH, INVALIDATE_PAGE and
INVALIDATE_CONTEXT (R14, R76, R80, R98, R128, R157 to R161, R256 to R260, R379).
-/

namespace Sys2Proof.Machine

/-! ## BARRIER_RELEASE (R14, R94, R128, R379) -/

/-- Tasks of a gang that are placed and uncommitted in an instance: the parties of an episode.
DEDUCED, log entry 50. -/
def State.parties (s : State) (g : Nat) (sc : Scope) (inst : Nat) : List Nat :=
  (s.tasks.filter (fun p => p.2.inOrder && p.2.gang == g && instOf sc p.2.ctx == inst)).map (·.1)
/-- Gang whose tasks have arrived at an identifier. -/
def State.barGang (s : State) (b : Bar) : Nat := match b.arrived with
  | id :: _ => (s.task id).gang
  | [] => 0
/-- Whether every party of this package has arrived. DEDUCED, log entry 50. -/
def State.barFull (s : State) (sc : Scope) (inst : Nat) (b : Bar) : Bool :=
  !b.arrived.isEmpty && (s.parties (s.barGang b) sc inst).all b.arrived.contains
/-- Other members of the group of a pod barrier. -/
def State.podOthers (s : State) (id : Nat) : List (BitVec 10) :=
  match s.group (mget s.regs.podBar id).toNat with
  | some (_, ms) => ms.filter (· != s.pkgId)
  | none => []
/-- Release an episode: every party goes on. -/
def State.barOpen (s : State) (key : Nat) (others : List (BitVec 10)) : State :=
  let b := mget s.bars key
  let s1 : State := { s with bars := mset s.bars key { b with arrived := [], sent := false, pods := others.foldl List.erase b.pods } }
  b.arrived.foldl (fun s id => s.modThread id (fun t => { t with barArrived := false, barReleased := true })) s1
/-- The episode at an identifier releases once every party has arrived; a pod episode first tells the other
members, and releases once each of them has told this package. -/
def State.barrierStep (s : State) (sc : Scope) (inst id : Nat) : State :=
  let key := barKey sc inst id
  let b := mget s.bars key
  if !s.barFull sc inst b then s
  else if sc != .pod then s.barOpen key []
  else
    let others := s.podOthers id
    let s1 := if b.sent then s
      else (others.foldl (fun s p => s.emit (.coll p (.arrive (BitVec.ofNat 4 id) s.pkgId)))
        { s with bars := mset s.bars key { b with sent := true } })
    if others.all b.pods.contains then s1.barOpen key others else s1
def execBarrierRelease (sc : Scope) (inst : BitVec 5) (id : BitVec 4) (s : State) : Out :=
  .next (s.barrierStep sc inst.toNat id.toNat)

/-! ## COMMIT (R76, R80, R97, R98, R161) -/

/-- Attention commands of a task that have started and not left. -/
def State.atQueue (s : State) (id : Nat) : List AtQueued :=
  let t := s.task id
  if t.phase == .spilled then (mget s.saves id).atq else mget s.atq t.ctx.toNat
/-- Commands of a task whose windows have not ended. -/
def State.anyLive (s : State) (id : Nat) : Bool :=
  let t := s.task id
  if t.phase == .spilled then (mget s.saves id).runs.any (fun p => p.2.live)
  else s.runs.any (fun p => p.1 / 256 == t.ctx.toNat && p.2.live)
/-- Whether a task is ready to commit (R76). -/
def State.ready (s : State) (id : Nat) : Bool :=
  let t := s.task id
  t.tended && !s.anyLive id && t.lays.all (fun l => l.ext || l.intent.isSome) && (s.atQueue id).isEmpty &&
    t.links.all (·.left)
/-- Apply intents in record order, up to n. -/
def State.applyAll (s : State) (id : Nat) : Nat → State
  | 0 => s
  | n + 1 => match s.applyFirst id with
    | (s1, true) => if s1.doomed (s1.task id).gang then s1 else s1.applyAll id n
    | (s1, false) => s1
/-- Tasks of a gang that have not committed. -/
def State.members (s : State) (g : Nat) : List Nat :=
  (s.tasks.filter (fun p => p.2.gang == g && p.2.phase != .done)).map (·.1)
/-- The last task of a gang has committed: the launch is done, or the next iteration of a batch is due. -/
def State.gangDone (s : State) (g : Nat) : State :=
  let x := s.gang g
  match x.batch with
  | some b =>
    if b.iter + 1 < b.count then
      (s.dropMaps g false).setGang g { (s.dropMaps g false).gang g with phase := .between }
    else (s.releaseGang g).notify x.queue.toNat 1 x.discarded x.tag 0 0
  | none => (s.releaseGang g).notify x.queue.toNat 1 x.discarded x.tag 0 0
/-- A commit is complete: the task leaves its partition and the order. -/
def State.commitDone (s : State) (id : Nat) : State :=
  let t := s.task id
  let s1 := (s.removeTask id).setGang t.gang { s.gang t.gang with discarded := (s.gang t.gang).discarded + t.mail.length }
  if (s1.members t.gang).isEmpty then s1.gangDone t.gang else s1
/-- The head of an instance, where there is one. -/
def State.headOf (s : State) (sc : Scope) (inst : Nat) : Option Nat :=
  (s.tasks.find? (fun p => p.2.scope == sc && instOf sc p.2.ctx == inst && s.isHead p.1)).map (·.1)
/-- A ready head applies its intents; with none left in its log, its commit is complete. -/
def State.commitStep (s : State) (id : Nat) : State :=
  if !s.ready id || s.doomed (s.task id).gang then s
  else
    let s1 := s.applyAll id (s.task id).intents.length
    let t := s1.task id
    if s1.doomed t.gang || !t.intents.isEmpty || t.lays.any (·.deferred) then s1 else s1.commitDone id
def execCommit (sc : Scope) (inst : BitVec 5) (s : State) : Out :=
  .next (match s.headOf sc inst.toNat with
    | some id => s.commitStep id
    | none => s)

/-! ## FAULT_RECORD_WRITE (R158) -/

/-- The four words of a record. -/
def FaultRec.words (r : FaultRec) : List Nat :=
  [r.code.toNat + 2 ^ 8 * r.held.toNat + 2 ^ 9 * r.laid.toNat + 2 ^ 10 * r.ended.toNat + 2 ^ 11 * r.nested.toNat +
      2 ^ 16 * r.gen.toNat + 2 ^ 32 * r.task.toNat,
   r.addr.toNat,
   r.tenant.toNat + 2 ^ 16 * (r.ctx.toNat / 2) + 2 ^ 20 * (r.ctx.toNat % 2) + 2 ^ 21 * r.cmd.toNat + 2 ^ 30 * r.elem.toNat,
   r.pos.toNat]
/-- The oldest queued record is written where the buffer has room. -/
def State.writeRecord (s : State) : State :=
  match s.faultQ with
  | [] => s
  | r :: _ =>
    if s.fb.full then s
    else
      let s1 := s.update (s.fb.base.toNat + 32 * (s.fb.prod.toNat % s.fb.size)) (r.words.flatMap (leList 8))
      let s2 : State := { s1 with faultQ := s1.faultQ.drop 1, fb := FaultBuf.settle { s1.fb with prod := s1.fb.prod + 1 } }
      { s2 with fb := { s2.fb with stat := s2.fb.stat || (!s2.faultQ.isEmpty && s2.fb.full) } }
def execFaultRecordWrite (s : State) : Out := .next s.writeRecord

/-! ## FBFLUSH (R145, R159, R256, R260) -/

/-- Translate with the PTE as it stands (R159), setting Accessed and Dirty (R254). -/
def State.walkAcc (s : State) (t : Task) (k : AccK) (va : Nat) : State × Acc :=
  match s.walk t.tenant.toNat va with
  | .fault => (s, .pageFault)
  | .prot => (s, .prot)
  | .leaf p lv a =>
    let p2 := markPte (k == .store && pteBit p 2) p
    (s.markWord 0 a p p2, s.checkLeaf t.owner false k p2 (leafSize lv p) va)
/-- Bytes of a lay-by entry as runs from an offset. -/
def layRuns (m : SMap (Option Byte)) : List (Nat × List Byte) := holdRuns m
/-- An entry stays in its place of the log under the new generation (R260). -/
def State.keepLay (s : State) (id : Nat) (l : Lay) : State :=
  let e := { l with gen := s.fb.gen }
  (s.modTask id (fun t => { t with lays := t.lays ++ [e] })).mirrorLay id e
/-- Replay a plain or external store: a head and an external effect write memory, any other task its hold. -/
def State.replayStore (s : State) (id : Nat) (l : Lay) : State :=
  let t := s.task id
  let rs := layRuns l.bytes
  let at0 := l.va + ((rs.head?).map (·.1)).getD 0
  match s.walkAcc t .store at0 with
  | (s1, .pageFault) => (s1.keepLay id l).engRecord id l.cmd 0x09 at0 0 l.pos false true false
  | (s1, .prot) => s1.engEnd id l.cmd 0x0A at0 l.pos
  | (s1, .owner) => s1.engEnd id l.cmd 0x31 at0 l.pos
  | (s1, .ok pa _ _ _) =>
    let g := pa / 64
    if l.ext || s1.isHead id then
      let (s2, ok) := rs.foldl (fun (p : State × Bool) r =>
        let (s', b) := p.1.writeGranule (64 * g + r.1) r.2
        (s', p.2 && b)) (s1, true)
      if ok then s2.visible id [g] [] else s2.engEnd id l.cmd 0x14 l.va l.pos
    else if t.hold.any (fun p => p.1 / 64 == g) || t.slots < holdSize then
      s1.setTask id { s1.task id with hold := rs.foldl (fun h r => holdPut h (64 * g + r.1) r.2) (s1.task id).hold }
    else s1.keepLay id l
/-- Replay a laid-by intent, behind any that stay in its 64 KiB unit (R98, R325). -/
def State.replayIntent (s : State) (id : Nat) (l : Lay) (i : Intent) : State :=
  match i.kind with
  | .inc va sc =>
    if s.extAcc (s.task id) .store va = .pageFault then (s.keepLay id l).engRecord id i.cmd 0x09 va 0 0 false true false
    else s.incWord id i.cmd va sc
  | _ =>
    let tv := s.target id i
    if (s.task id).lays.any (fun m => m.deferred && m.target / 65536 == tv / 65536) then
      s.keepLay id { l with va := tv, target := tv }
    else match s.applyIntent id i with
      | (s1, .done) => s1
      | (s1, .ended) => s1
      | (s1, .lay va code) =>
        (s1.keepLay id { l with va := va, target := tv }).engRecord id i.cmd code va 0 i.pos false true false
def State.replayLay (s : State) (id : Nat) (l : Lay) : State :=
  if l.gen == s.fb.gen || s.doomed (s.task id).gang then s.modTask id (fun t => { t with lays := t.lays ++ [l] })
  else match l.intent with
    | none => s.replayStore id l
    | some i => s.replayIntent id l i
/-- Replay a task's log in order. -/
def State.replayTask (s : State) (id : Nat) : State :=
  let ls := (s.task id).lays
  ls.foldl (fun s l => s.replayLay id l) (s.modTask id (fun t => { t with lays := [] }))
/-- Completion words whose command has no entry left in the log are incremented (R19). -/
def State.settleWords (s : State) (id : Nat) : State :=
  let t := s.task id
  let waits := fun (w : CwWait) => t.lays.any (fun l => (l.deferred || (l.ext && l.intent.isNone)) && l.cmd == w.cmd)
  let s1 := s.modTask id (fun t => { t with cws := t.cws.filter waits })
  ((t.cws.filter (fun w => !waits w)).foldl (fun s w => s.incWord id w.cmd w.va w.scope) s1).tidy id
/-- A command whose bounds count from now on. -/
def CmdRun.renew (now : Nat) (x : CmdRun) : CmdRun := { x with startReal := now, first := x.done }
/-- A run held by a page fault tries again; its bounds count from now on (R232). -/
def CmdRun.unhold (now : Nat) (x : CmdRun) : CmdRun :=
  if x.st == .held && !x.full then { x.renew now with st := .running } else x
def Thread.unhold (t : Thread) : Thread := match t.held with
  | .fault _ => { t with held := .no, waitSince := none }
  | _ => t
def mapVals {α : Type} [Inhabited α] [DecidableEq α] (f : α → α) (m : SMap α) : SMap α :=
  (mkeys m).foldl (fun m k => mmod m k f) m
/-- Every held access is free to be translated anew. -/
def State.unholdAll (s : State) : State :=
  { s with
    runs := mapVals (CmdRun.unhold s.cycle) s.runs
    threads := mapVals Thread.unhold s.threads
    saves := mapVals (fun x => { x with runs := mapVals (CmdRun.unhold s.cycle) x.runs, thr := x.thr.unhold
                                        atq := x.atq.map (fun q => { q with held := false }) }) s.saves
    atq := mapVals (fun l => l.map (fun q => { q with held := false })) s.atq
    atRun := s.atRun.map (fun a => match a.wait with | .held _ => { a with wait := .ready } | _ => a)
    tasks := mapVals (fun t => { t with links := t.links.map (fun o => { o with held := false }) }) s.tasks
    colls := s.colls.map (fun x => { x with held := false }) }
/-- Extents that fault take the PTE as it stands (R256). -/
def State.repatchFaulting (s : State) : State :=
  (mkeys s.tasks).foldl (fun s id => (s.task id).streams.foldl (fun s st =>
    (List.range (if st.hi ≤ st.lo then 0 else (st.va + st.hi - 1) / 65536 - (st.va + st.lo) / 65536 + 1)).foldl (fun s n =>
      let u := (st.va + st.lo) / 65536 + n
      if mget (s.task id).extents u = 0 then s.patchUnit id u ((s.task id).listsWrite u) else s) s) s) s
/-- A flush: a new generation, held accesses anew, replay of older entries in log order per task, and launches
held at step 3 go on. -/
def State.fbflushStep (s : State) : State :=
  let s1 : State := { s with fb := { s.fb with gen := s.fb.gen + 1 }, recorded := [], faultQ := [] }
  let s2 := s1.unholdAll.repatchFaulting
  let s3 := (mkeys s2.tasks).foldl (fun s id => (s.replayTask id).settleWords id) s2
  let s4 := s3.colls.foldl (fun s x => s.collCheck x.tag x.seqNo) s3
  ((s4.tasks.filter (fun p => p.2.step3.isSome)).map (·.2.gang)).eraseDups.foldl (fun s g => s.soon (.gangPlacement g)) s4
def execFbflush (s : State) : Out := .next s.fbflushStep

/-! ## INVALIDATE_PAGE and INVALIDATE_CONTEXT (R257) -/

def State.inval (s : State) (page : Option Nat) : State :=
  let s1 := s.invalidate s.regs.invCtx page (List.range 16) [0, 1]
  { s1 with regs := { s1.regs with invDone := s1.regs.invDone + 1 } }
def execInvalidatePage (s : State) : Out := .next (s.inval (some (s.regs.invVa.toNat / 65536 * 65536)))
def execInvalidateContext (s : State) : Out := .next (s.inval none)

end Sys2Proof.Machine
end

