-- ==== Sys2Proof/Machine/LoadCheck.lean ====
section
/-!
DEFINITION. What the loader checks of a task image, apart from its placement: header and demands (R141, R142),
islands, elements and entries (R175, R196 to R198, R203), M lines, ports and matrix units (R18, R231, R273), the
race check (R91), graphs, stores and blocks (R31, R290, R311), windows (R17, R240).
-/

namespace Sys2Proof.Machine

/-! ## Header and demands (R141, R142) -/

/-- An image header: timestamp, commit scope, demands as written, sections. -/
structure Header where
  ts : Word
  scope : Scope
  entries : Nat
  bank : Nat
  acc : Nat
  loom : Nat
  sections : List (Nat × Nat)
  deriving DecidableEq, Repr, Inhabited

/-- The header of 256 bytes; none where it refuses the launch. -/
def readHeader (h : List Byte) : Option Header :=
  let z (o n : Nat) := ((h.drop o).take n).all (· == 0)
  let sc := bytesAt h 16 1
  if bytesAt h 0 4 != 0x474D494B || bytesAt h 4 2 != 1 || bytesAt h 6 2 != 256 || sc = 0 || sc > 4 || !z 17 7 ||
      !z 26 2 || !z 34 2 || !z 40 24 then none
  else some { ts := BitVec.ofNat 64 (bytesAt h 8 8), scope := scopeOfNum sc, entries := bytesAt h 24 2, bank := bytesAt h 28 4
              acc := bytesAt h 32 2, loom := bytesAt h 36 4
              sections := (List.range 12).map (fun n => (bytesAt h (64 + 16 * n) 8, bytesAt h (72 + 16 * n) 8)) }
/-- The island of a descriptor (R197). -/
def islandOfWord (w : Nat) : IslandDesc :=
  { top := bitsOf w 3 0, left := bitsOf w 8 4, bottom := bitsOf w 12 9, right := bitsOf w 17 13, selRow := bitsOf w 21 18
    selCol := bitsOf w 26 22, hasB := bitsOf w 27 27 == 1, period := bitsOf w 39 28 + 1, count := bitsOf w 63 40 }
/-- The capture direction of a code of an element's configuration word. -/
def cdirOf : Nat → Option Dir
  | 1 => some .n
  | 2 => some .e
  | 3 => some .s
  | 4 => some .w
  | _ => none
/-- An element of a configuration word, without constants and entries (R198). -/
def elemOfWord (w : Nat) : ElemCfg :=
  { bad := bitsOf w 2 0 > 4 || bitsOf w 5 4 == 3 || w / 64 != 0
    cdir := cdirOf (bitsOf w 2 0), repl := bitsOf w 3 3 == 1, blk := 8 * 2 ^ bitsOf w 5 4 }
/-- A part of the Elements section: configuration word, K0 to K15, entries of schedule A and of B (R35, R46). -/
def elemOfBytes (bs : List Byte) (a b : Nat) : ElemCfg :=
  let entry := fun n => BitVec.ofNat 64 (bytesAt bs (264 + 8 * n) 8)
  { elemOfWord (bytesAt bs 0 8) with
    consts := (List.range 16).foldl (fun m n => mset m n (BitVec.ofNat 128 (bytesAt bs (8 + 16 * n) 16))) []
    entA := (List.range a).map entry, entB := (List.range b).map (fun n => entry (a + n)) }
/-- The fields of a camera image, by the numbers of R134 (R309). -/
def camOfBytes (bs : List Byte) : SMap W32 :=
  (List.range 35).foldl (fun m n => mset m n (BitVec.ofNat 32 (
    if n < 28 then bytesAt bs (4 * n) 4
    else if n = 28 then bytesAt bs 112 2
    else if n = 29 then bytesAt bs 114 2
    else if n = 30 then bytesAt bs 116 1 % 32
    else if n < 34 then bytesAt bs (120 + 4 * (n - 31)) 4
    else bytesAt bs 132 1))) []
/-- The contents of an image, from the bytes of its twelve sections in the order of R46; a section that is absent
has no contents. R42 and R46 name the table of children and give no widths; an entry is read as two words of 64 bits, the
child's offset and its size. DESIGN CHOICE, log entry 10. -/
def imageOf (secs : List (List Byte)) : Image :=
  let l := Config.readImage secs
  let sec (n : Nat) : List Byte := secs.getD n []
  let has {α : Type} (n : Nat) (xs : List α) : List α := if (sec n).isEmpty then [] else xs
  let cut (n at' len : Nat) : List Byte := ((sec n).drop at').take len
  { isls := (List.range ((sec 1).length / 8)).map (fun k => islandOfWord (bytesAt (sec 1) (8 * k) 8))
    elems := (has 2 l.elems).foldl (fun m x => mset m x.1 (elemOfBytes ((sec 2).drop x.2.1) x.2.2.1 x.2.2.2)) []
    cmds := (List.range ((sec 3).length / 64)).map (fun k =>
      { words := (List.range 8).map (fun j => BitVec.ofNat 64 (bytesAt (sec 3) (64 * k + 8 * j) 8)), refs := l.refs.getD k [] })
    streams := has 4 l.streams
    datas := (has 5 l.datas).map (fun d => { d.decl with bytes := cut 5 d.at' d.len })
    graphs := (has 6 l.graphs).map (fun g => cut 6 g.1 g.2)
    cams := (has 7 l.cams).map (fun a => camOfBytes (cut 7 a 256))
    stores := has 8 l.stores
    code := (has 9 (List.range l.codeLen)).map (fun k => BitVec.ofNat 32 (bytesAt (sec 9) (l.codeAt + 4 * k) 4))
    entry := l.entry
    symbols := sec 10
    children := (has 11 (List.range l.children)).map (fun k => (bytesAt (sec 11) (16 * k) 8, bytesAt (sec 11) (16 * k + 8) 8)) }
def roundUp (g n : Nat) : Nat := (n + g - 1) / g * g
/-- The demands taken: none where one is above its maximum (R142). -/
def Header.demands (h : Header) : Option (Nat × Nat × Nat × Nat) :=
  if h.entries > 1024 || h.bank > 65536 || h.acc > 256 || h.loom > 524288 then none
  else some (roundUp 64 h.entries, roundUp 4096 h.bank, roundUp 16 h.acc, roundUp 4096 h.loom)

/-! ## Failures -/

/-- A failure of a check: code, the indices it names, and an address or a cycle (R147). -/
structure Fail where
  code : BitVec 8
  a : Nat := 0
  b : Nat := 0
  w : Nat := 0
  deriving DecidableEq, Repr, Inhabited
/-- A failure with a code where a check does not hold. -/
def failIf (bad : Bool) (f : Fail) : List Fail := if bad then [f] else []

/-! ## Islands and elements (R142, R175, R196 to R198, R203) -/

/-- Rectangles that share an element. -/
def overlaps (x y : IslandDesc) : Bool := x.top ≤ y.bottom && y.top ≤ x.bottom && x.left ≤ y.right && y.left ≤ x.right
def islandFails (im : Image) : List Fail :=
  failIf (im.isls.length > 64) { code := 0x28 } ++ im.isls.zipIdx.flatMap (fun p =>
    let x := p.1
    failIf (x.bottom < x.top || x.right < x.left || x.bottom > 15 || x.right > 31 || x.period = 0 || x.period > 4096 ||
        (x.hasB && !islHas x (x.selRow * 32 + x.selCol))) { code := 0x28, a := p.2 } ++
    failIf (!x.hasB && (x.selRow != 0 || x.selCol != 0)) { code := 0x01, a := p.2 } ++
    im.isls.zipIdx.flatMap (fun q => failIf (p.2 < q.2 && overlaps x q.1) { code := 0x28, a := p.2, b := q.2 }))
/-- The instruction of an entry word. -/
def entryOf (w : Word) : Option Instr := match decodeEntry w.toNat with
  | .ok i => some i
  | .error _ => none
def stampOf (w : Word) : Nat := w.toNat / 2 ^ 52
/-- Whether an entry has a C operand. -/
def namesC (i : Instr) : Bool := (entryOpnds 32 i).any (fun o => o.1.line == .c)
def isRep : Instr → Bool | .entryRep _ => true | _ => false
/-- Latency of the flag that an entry writes (R181, R190, R210, R215). -/
def flagLat : Instr → Option Nat
  | .entryCmpeq _ | .entryCmpne _ | .entryCmplt _ | .entryCmple _ | .entryCmpgt _ | .entryCmpge _ | .entryCmpun _
  | .entryBitt _ => some 2
  | .entryCcmp _ | .entryCond _ => some 1
  | _ => none
/-- The limits of `blk.pack` that its element's block length sets (R184). -/
def packFits (blk : Nat) : Instr → Bool
  | .entryBlkPack f =>
    let n := if f.ty == .e2m1 then 32 else 16
    let k := max n blk / ((f.src.map Ty.lanes).getD 1)
    decide (f.a.tap.toNat + k ≤ 16) && (f.x.toNat / 16 == 0 || (n == 16 && blk == 32))
  | _ => true
def rising : List Nat → Bool
  | a :: b :: r => a < b && rising (b :: r)
  | _ => true
/-- The checks of one element's entries under one schedule. -/
def schedFails (d : IslandDesc) (e : Nat) (cfg : ElemCfg) (ws : List Word) : List Fail :=
  ws.flatMap (fun w => match entryOf w with
    | none => [{ code := 0x01, a := e, w := stampOf w }]
    | some i => failIf (!packFits cfg.blk i) { code := 0x01, a := e, w := stampOf w } ++
        failIf ((namesC i || isRep i) && !cfg.repl) { code := 0x28, a := e, w := stampOf w } ++
        failIf (stampOf w ≥ d.period) { code := 0x28, a := e, w := stampOf w } ++
        failIf (d.hasB && e = d.selRow * 32 + d.selCol && (flagLat i).any (fun l => decide (d.period ≤ stampOf w + l)))
          { code := 0x28, a := e, w := stampOf w }) ++
    failIf (!rising (ws.map stampOf)) { code := 0x28, a := e }
def elemFails (im : Image) (entries : Nat) : List Fail :=
  im.elems.flatMap (fun p =>
    let d := im.isls.getD (islandIx im.isls p.1) {}
    let n := p.2.entA.length + p.2.entB.length
    failIf (p.2.bad || !(p.2.blk == 8 || p.2.blk == 16 || p.2.blk == 32)) { code := 0x01, a := p.1 } ++
    failIf (n > entries || (n != 0 && !inIsland im.isls p.1)) { code := 0x28, a := p.1 } ++
    schedFails d p.1 p.2 p.2.entA ++ schedFails d p.1 p.2 p.2.entB) ++
  failIf (entries = 0 && !im.isls.isEmpty) { code := 0x28 }

/-- Whether an image needs a resource of which its demand is 0 (R142). -/
def demandFails (im : Image) (entries bank acc : Nat) : Bool :=
  let cmd := fun (p : Instr → Bool) => im.cmds.any (fun r => (readRec r).any p)
  (entries == 0 && (!im.isls.isEmpty || im.elems.any (fun p => !(p.2.entA.isEmpty && p.2.entB.isEmpty)))) ||
  (bank == 0 && (im.datas.any (fun d => match d.place with | .bank _ _ => true | _ => false) ||
    cmd (fun i => match i with | .sInPlane _ | .mxStep _ => true | _ => false))) ||
  (acc == 0 && cmd (fun i => match i with | .mxStep _ | .mxEpi _ | .mxZero _ | .mxDrain _ => true | _ => false))

/-! ## Captures and takes at fixed island cycles (R18, R231, R273) -/

/-- A run of island cycles in which a command captures on, or takes from, an element. -/
structure Span where
  elem : Nat
  first : Nat
  len : Nat
  deriving DecidableEq, Repr, Inhabited
def Span.meets (x y : Span) : Bool :=
  x.len != 0 && y.len != 0 && x.elem == y.elem && x.first < y.first + y.len && y.first < x.first + x.len
/-- Start offset of a command. -/
def startOf (i : Instr) : Nat := (hdrOf i).map (·.start.toNat) |>.getD 0
/-- Beats per token of a camera command on a store with a feature code. -/
def btOf (fcode : Nat) : Nat := 4 * 2 ^ fcode + 1
/-- M-line captures of a command (R18); `bt` gives the beats of a store handle. -/
def captures (bt : Nat → Nat) (i : Instr) : List Span :=
  let at' := fun (w port : Nat) (edge : Bool) n => [({ elem := portElem port edge, first := startOf i + w, len := n } : Span)]
  match i with
  | .sIn r => at' r.window.toNat r.port.toNat r.edge (StreamRec.beats r false)
  | .sGath r => at' r.window.toNat r.port.toNat r.edge (StreamRec.dataBeats r)
  | .whFilt r => at' r.window.toNat r.port.toNat r.edge (nestN [r.l1, r.l2, r.l3])
  | .camGath r | .camGathDepth r => at' r.window.toNat r.port.toNat r.edge (CamRec.iters r * bt r.handle.toNat)
  | .camProj r => at' r.window.toNat r.port.toNat r.edge (CamRec.iters r)
  | .gRun r => (List.range 4).map (fun e =>
      { elem := westElem r.port.toNat e, first := startOf i + r.window.toNat, len := 16 * r.vectors.toNat })
  | .mxDrain r => (List.range 32).map (fun x =>
      { elem := southElem x, first := startOf i + 8, len := (1 + r.wide.toNat) * r.l1.count.toNat })
  | _ => []
/-- Takes of a command from result registers. The spacing of a `g.run`'s vectors depends on its graph, so only
its first take is sure. -/
def takes (bt : Nat → Nat) (i : Instr) : List Span :=
  let at' := fun (port : Nat) (edge : Bool) n => ({ elem := portElem port edge, first := startOf i, len := n } : Span)
  let index := fun (r : StreamRec) (edge : Bool) =>
    if r.esize = 4 then (List.range (StreamRec.indexBeats r)).map (fun n =>
      ({ elem := portElem r.port.toNat edge, first := startOf i + 4 * n, len := 1 } : Span))
    else [at' r.port.toNat edge (StreamRec.indexBeats r)]
  match i with
  | .sOut r => [at' r.port.toNat r.edge (StreamRec.beats r false)]
  | .sGath r => index r r.edge
  | .sScat r => at' r.port.toNat r.edge (StreamRec.dataBeats r) :: index r (!r.edge)
  | .camGathDepth r => [at' r.port.toNat (!r.edge) ((CamRec.iters r + 3) / 4)]
  | .camScat r => [at' r.port.toNat r.edge (CamRec.iters r * bt r.handle.toNat)]
  | .camProj r => [at' r.port.toNat r.edge (CamRec.iters r)]
  | .gRun r => (List.range 4).map (fun e =>
      { elem := westElem r.port.toNat e, first := startOf i, len := min 1 r.vectors.toNat })
  | _ => []
def isBankRead : Instr → Bool | .entryLdb _ | .entryLdbx _ => true | _ => false
/-- Stamps of an element's bank reads under a schedule. -/
def bankStamps (ws : List Word) : List Nat := (ws.filter (fun w => (entryOf w).any isBankRead)).map stampOf
/-- Whether some run of an island's schedules has a bank read of an element captured within a span (R18): in
interval j, after k switches, the schedule is A for an even k and B for an odd one. -/
def bankMeets (d : IslandDesc) (cfg : ElemCfg) (x : Span) : Bool :=
  (List.range (min d.count ((x.first + x.len) / max 1 d.period + 1))).any (fun j =>
    (List.range (if d.hasB then j + 1 else 1)).any (fun k =>
      (bankStamps (if k % 2 = 0 then cfg.entA else cfg.entB)).any (fun st =>
        let t := j * d.period + 3 * k + st + 3
        decide (x.first ≤ t) && decide (t < x.first + x.len))))
/-- Commands of an image with their indices. -/
def imageCmds (im : Image) : List (Nat × Instr) :=
  im.cmds.zipIdx.filterMap (fun p => (readRec p.1).map (fun i => (p.2, i)))
def islOf (i : Instr) : Nat := (hdrOf i).map (·.island.toNat) |>.getD 64
/-- Beats of the store that an image binds to a handle. -/
def handleBt (im : Image) (h : Nat) : Nat := btOf (((im.stores.find? (·.handle == h)).map (·.fcode)).getD 0)
/-- M-line conflicts (R18): two commands of one island, or a command and a bank read. -/
def mLineFails (im : Image) : List Fail :=
  let cs := (imageCmds im).map (fun p => (p.1, p.2, captures (handleBt im) p.2))
  cs.flatMap (fun p =>
    cs.flatMap (fun q => failIf (p.1 < q.1 && islOf p.2.1 == islOf q.2.1 &&
      p.2.2.any (fun x => q.2.2.any (x.meets ·))) { code := 0x28, a := p.1, b := q.1 }) ++
    failIf (p.2.2.any (fun x => x.len != 0 && bankMeets (im.isls.getD (islOf p.2.1) {}) (mget im.elems x.elem) x))
      { code := 0x28, a := p.1, b := p.1 })
/-- Last island cycle in which a command holds a context of its port, from its start (R231). The end of a
`wh.red` is not known before the run, so only its start counts. -/
def ctxEnd (bt : Nat → Nat) (i : Instr) : Nat :=
  let n := match i with
    | .sIn r => StreamRec.beats r false
    | .sGath r => StreamRec.dataBeats r
    | .whFilt r => nestN [r.l1, r.l2, r.l3]
    | .camGath r | .camGathDepth r => CamRec.iters r * bt r.handle.toNat
    | .camProj r => CamRec.iters r
    | _ => 1
  startOf i + (windowOf i).getD 0 + (n - 1)
/-- More than 16 commands of one port, all of one island, hold contexts in one cycle; or two commands of one
island take from one register in one cycle (R231). DEDUCED, log entry 54. -/
def portFails (im : Image) : List Fail :=
  let bt := handleBt im
  let cs := imageCmds im
  (List.range 8).flatMap (fun p =>
    let mine := cs.filter (fun c => portOf c.2 == some p)
    let one := mine.all (fun c => mine.all (fun d => islOf c.2 == islOf d.2))
    mine.flatMap (fun c => failIf (one && (mine.filter (fun d =>
      startOf d.2 ≤ startOf c.2 && startOf c.2 ≤ ctxEnd bt d.2)).length > 16) { code := 0x28, a := c.1 })) ++
  cs.flatMap (fun c => cs.flatMap (fun d => failIf (c.1 < d.1 && islOf c.2 == islOf d.2 &&
    (takes bt c.2).any (fun x => (takes bt d.2).any (x.meets ·))) { code := 0x28, a := c.1, b := d.1 }))
/-- The bank beats, from a first one on, that a plane-mode command writes in each south element, and the island cycles
of its window. DEDUCED, log entry 54. -/
def planeSpan : Instr → Option (Nat × Nat × Nat × Nat)
  | .sInPlane r => some (r.bank.toNat / 16, StreamRec.bpr r * nestN (StreamRec.levels r false), r.hdr.start.toNat,
      r.hdr.start.toNat + r.window.toNat)
  | _ => none
/-- Two plane-mode commands whose bank ranges, which wrap at 4,096 beats, overlap while their windows do (R245). -/
def planeFails (im : Image) : List Fail :=
  let cs := (imageCmds im).filterMap (fun p => (planeSpan p.2).map (fun x => (p.1, x)))
  let meets := fun (a n b m : Nat) => n != 0 && m != 0 && (decide ((b + 4096 - a) % 4096 < n) || decide ((a + 4096 - b) % 4096 < m))
  cs.flatMap (fun p => cs.flatMap (fun q =>
    let (a, n, f, l) := p.2
    let (b, m, g, k) := q.2
    failIf (p.1 < q.1 && meets a n b m && f ≤ k && g ≤ l) { code := 0x28, a := p.1, b := q.1 }))
/-- Columns of the tile in force at a cycle, as the offsets of an island's `mx.wload` and `mx.swap` give it. -/
def tileAt (cs : List (Nat × Instr)) (t : Nat) : Nat :=
  let last := fun (p : Instr → Bool) (t : Nat) => (cs.filter (fun c => p c.2 && startOf c.2 < t)).foldl
    (fun (m : Option Instr) c => match m with
      | none => some c.2
      | some x => if startOf x ≤ startOf c.2 then some c.2 else some x) none
  match last (fun i => match i with | .mxSwap _ => true | _ => false) (t + 1) with
  | none => 0
  | some sw => match last isLoad (startOf sw) with
    | some (.mxWload r) => 16 * (r.nb.toNat + 1)
    | _ => 0
/-- Matrix commands that find their unit busy, or whose cells another unit still touches, where the commands
concerned are bound to one island (R273); the cells of a step depend on the loads and swaps too. -/
def mxFails (im : Image) : List Fail :=
  let cs := (imageCmds im).filter (fun p => (mxUnit p.2).isSome)
  let tiles := cs.filter (fun c => match c.2 with | .mxWload _ | .mxSwap _ => true | _ => false)
  let step := fun (i : Instr) => match i with | .mxStep _ => true | _ => false
  cs.flatMap (fun c => cs.flatMap (fun d =>
    let t := startOf d.2
    let before := startOf c.2 ≤ t && t < startOf c.2 + mxJoin c.2 && (startOf c.2 < t || c.1 < d.1)
    let (rows, lo, n) := mxCells (tileAt cs t) d.2
    let (rs, l2, n2) := mxCells (tileAt cs (startOf c.2)) c.2
    let cells := mxUnit c.2 != some .load && lo < l2 + n2 && l2 < lo + n &&
      rs.any (fun p => t - startOf c.2 < p.2 && rows.any (fun q => q.1 == p.1))
    let sure := !(step c.2 || step d.2) || tiles.all (fun x => islOf x.2 == islOf c.2)
    failIf (islOf c.2 == islOf d.2 && c.1 != d.1 && before && (mxUnit c.2 == mxUnit d.2 || (sure && cells)))
      { code := 0x28, a := c.1, b := d.1 }))

/-! ## Records, blocks, graphs, stores (R31, R32, R142, R290, R311, R386) -/

/-- The checks of one record after its streams have their addresses. -/
def cmdFails (im : Image) (strs : List Strm) (acc bank : Nat) (safe : Bool) : List Fail :=
  failIf (im.cmds.length > 256) { code := 0x28 } ++ im.cmds.zipIdx.flatMap (fun p => match decodeCmd (p.1.words.map BitVec.toNat) with
    | .error _ => [{ code := 0x01, a := p.2 }]
    | .ok i =>
      failIf (!recOk im.isls strs acc p.1 i) { code := 0x28, a := p.2 } ++
      failIf (bank = 0 && (match i with | .sInPlane _ | .mxStep _ => true | _ => false)) { code := 0x28, a := p.2 } ++
      failIf (safe && (match i with | .attentionQueueJoin _ _ | .atApp _ | .atSel _ | .atAtt _ | .atTrunc _ => true | _ => false))
        { code := 0x28, a := p.2 })
def dataFails (im : Image) (bank : Nat) : List Fail :=
  im.datas.zipIdx.flatMap (fun p => match p.1.place with
    | .bank e a => failIf (!inIsland im.isls e || a % 16 != 0 || a + p.1.bytes.length > bank) { code := 0x28, a := p.2 }
    | .device (some va) => failIf (va % 65536 != 0 || va ≥ 2 ^ 48 || va % max 1 p.1.align != 0) { code := 0x28, a := p.2, w := va }
    | _ => [])
def streamFails (im : Image) : List Fail :=
  im.streams.zipIdx.flatMap (fun p =>
    let d := im.datas.getD p.1.data {}
    failIf (p.1.data ≥ im.datas.length || p.1.hi > d.bytes.length || p.1.hi < p.1.lo || p.1.bw > 48 ||
      (match d.place with | .bank _ _ => true | _ => false)) { code := 0x28, a := p.2 })
/-- Whether an instruction names an object that its image has: an island, a graph, a camera block or a child image
(05_sequencer_isa.md, "Task control"). DEDUCED, log entry 39. -/
def namesObject (im : Image) : Instr → Bool
  | .tgo i | .twait i => decide (i.toNat < im.isls.length)
  | .gload _ g => decide (g.toNat < im.graphs.length)
  | .camld _ b => decide (b.toNat < im.cams.length)
  | .tspawn _ _ x => decide (x.toNat < im.children.length)
  | _ => true
/-- Failures of the sequencer sections of an image. DEDUCED, log entry 39. -/
def seqFails (im : Image) : List Fail :=
  failIf im.code.isEmpty { code := 0x28 } ++ im.code.zipIdx.flatMap (fun p => match decodeSeq p.1.toNat with
    | .ok i => failIf (!namesObject im i) { code := 0x28, w := 4 * p.2 }
    | .error _ => [])
/-- Whether an entry of a graph image is illegal (R289, R290). -/
def graphEntryBad (e : Nat) : Bool :=
  let k := bitsOf e 63 62
  let w := bitsOf e 9 5
  k == 3 || bitsOf e 4 0 != 0 || (k == 0 && w == 0) || (k == 1 && bitsOf e 41 5 != 0) ||
    (k == 2 && (bitsOf e 41 10 != 0 || !(w == 3 || w == 7 || w == 15)))
def graphBad (bs : List Byte) : Bool :=
  let n := bytesAt bs 10 2 + bytesAt bs 12 2 + bytesAt bs 16 4
  bytesAt bs 8 1 / 2 != 0 || bytesAt bs 9 1 != 0 || bytesAt bs 14 2 != 0 || !((bs.drop 24).take 40).all (· == 0) ||
    (List.range (min n ((bs.length - 64) / 8))).any (fun i => graphEntryBad (bytesAt bs (64 + 8 * i) 8))
def graphFails (im : Image) : List Fail := im.graphs.zipIdx.flatMap (fun p => failIf (graphBad p.1) { code := 0x01, a := p.2 })
def pow2 (lim n : Nat) : Bool := (List.range (lim + 1)).any (fun k => n == 2 ^ k)
def storeFails (im : Image) : List Fail :=
  im.stores.zipIdx.flatMap (fun p =>
    let x := p.1
    let positive := x.icell.toNat < 0x7F800000 && x.icell.toNat != 0
    failIf (!positive || (x.low.zip x.high).any (fun q => q.2 < q.1) || !pow2 20 x.table || x.pool = 0 || x.pool > 0xFFFFFF ||
      x.fcode > 2 || x.bw > 48 || x.va.any (fun a => a % 65536 != 0 || a ≥ 2 ^ 48)) { code := 0x28, a := p.2 })

/-! ## Nodes and races (R32, R91, R311) -/

/-- A memory node: its index (stores after streams), physical chunks, accesses, and the indices of its commands. -/
structure MNode where
  ix : Nat
  chunks : List (Nat × Nat)
  reads : Bool
  writes : Bool
  cmds : List Nat
  deriving DecidableEq, Repr, Inhabited
def chunksMeet (x y : List (Nat × Nat)) : Bool := x.any (fun a => y.any (fun b => a.1 < b.1 + b.2 && b.1 < a.1 + a.2))
def MNode.clash (x y : MNode) : Bool := (x.writes || y.writes) && chunksMeet x.chunks y.chunks
/-- End of a command for the test of order: never for a deferred or external one. -/
def endOf (bt : Nat → Nat) (i : Instr) : Option Nat :=
  match i with
  | .whRed _ | .attentionQueueJoin _ _ | .atApp _ | .atSel _ | .atAtt _ | .atTrunc _ | .lCollReduce _ | .lCollAllgather _
  | .lCollBroadcast _ => none
  | i => if (mxUnit i).isSome then some (startOf i + mxJoin i) else some (ctxEnd bt i)
/-- Every command of x ends before any of y starts. -/
def allBefore (bt : Nat → Nat) (cs : List (Nat × Instr)) (x y : MNode) : Bool :=
  let of' := fun (n : MNode) => cs.filter (fun c => n.cmds.contains c.1)
  (of' x).all (fun c => (of' y).all (fun d => islOf c.2 == islOf d.2 &&
    (endOf bt c.2).any (fun e => decide (e < startOf d.2))))
/-- Pairs of nodes of one task that conflict. -/
def raceWithin (im : Image) (ns : List MNode) : List (Nat × Nat) :=
  let bt := handleBt im
  let cs := imageCmds im
  ns.flatMap (fun x => ns.filterMap (fun y =>
    if x.ix < y.ix && x.clash y && !(allBefore bt cs x y || allBefore bt cs y x) then some (x.ix, y.ix) else none))
/-- Pairs of nodes of two tasks that conflict. -/
def raceAcross (xs ys : List MNode) : List (Nat × Nat) :=
  xs.flatMap (fun x => ys.filterMap (fun y => if x.clash y then some (x.ix, y.ix) else none))

/-! ## Windows (R17, R20, R32, R240, R321) -/

/-- The least window that never misses, for a path bound, a rate and a number of beats. -/
def leastWindow (bound g n : Nat) (read : Bool) : Nat :=
  bound + (64 * (n - 1) + g - 1) / g - (if read then n - 1 else 0)
/-- Whether the window of a command is flagged: `path` gives the bound of an address word's path, `rate` its
bandwidth. -/
def windowShort (bt : Nat → Nat) (path : Nat → Option Nat) (rate : Nat → Nat) (paced : Nat → Bool) (i : Instr) : Bool :=
  let short := fun (extra n : Nat) (read : Bool) (win : Nat) => match path 6 with
    | some b => rate 6 = 0 || win < leastWindow (b + extra) (rate 6) n read
    | none => true
  match i with
  | .sIn r => short 0 (StreamRec.beats r false) true r.window.toNat
  | .sInPlane r => (match path 6 with
    | some b => rate 6 = 0 ||
        r.window.toNat < b + (64 * (nestN (StreamRec.levels r false) * (StreamRec.rowBytes r / 16)) + rate 6 - 1) / rate 6 + 4
    | none => true)
  | .sOut r => short 0 (StreamRec.beats r false) false r.window.toNat
  | .sGath r => short 32 (StreamRec.dataBeats r) true r.window.toNat
  | .sScat r => short 32 (StreamRec.dataBeats r) false r.window.toNat
  | .sCopy r => match path 6, path 5 with
    | some a, some b => let g := min (rate 6) (rate 5)
      g = 0 || r.window.toNat < leastWindow (a + b) g (StreamRec.beats r true) false
    | _, _ => true
  | .whFilt r => short 0 (nestN [r.l1, r.l2, r.l3]) true r.window.toNat
  | .camGath r => !paced r.handle.toNat || r.window.toNat < 1280 + 8 * (r.steps1.toNat + 1)
  | .camGathDepth r => !paced r.handle.toNat || r.window.toNat < 1280 + 24
  | .camScat r => r.window.toNat < CamRec.iters r * bt r.handle.toNat + 32
  | .camProj r => r.window.toNat < 24
  | _ => false

end Sys2Proof.Machine
end

