-- ==== Sys2Proof/Machine/Loader.lean ====
section
/-!
DEFINITION. The configuration loader (R143 to R147, R263, R311, R312, R391): reading launches, finding contexts and
frames, mapping, translating, checking and writing the standby planes. The event GANG_PLACEMENT drives it (EvLoad).
-/

namespace Sys2Proof.Machine

/-! ## Outcomes -/

/-- The outcome of a part of the loader's work. -/
inductive Load (α : Type) where
  | ok (v : α)
  /-- Something is lacking that other launches hold (R85, R391). -/
  | wait
  /-- Refused with a code and notes of two words (R147). -/
  | refuse (code : BitVec 8) (notes : List (Word × Word))
  /-- An uncorrectable error in memory that the loader reads: physical address, owner tag. -/
  | broken (pa tag : Nat)
  deriving Repr
def Load.bind {α β : Type} (x : Load α) (f : α → Load β) : Load β :=
  match x with
  | .ok v => f v
  | .wait => .wait
  | .refuse c n => .refuse c n
  | .broken p t => .broken p t
/-- Work through a list, up to the first that does not succeed. -/
def Load.fold {α β : Type} (f : α → β → Load α) : List β → α → Load α
  | [], a => .ok a
  | b :: bs, a => (f a b).bind (Load.fold f bs)
/-- A note of the load report (R147). -/
def noteOf (code task a b w : Nat) : Word × Word :=
  (BitVec.ofNat 64 (code + 256 * task + 2 ^ 16 * (a % 2 ^ 16) + 2 ^ 32 * (b % 2 ^ 16)), BitVec.ofNat 64 w)
def Load.no {α : Type} (task a b w : Nat) : Load α := .refuse 0x28 [noteOf 0x28 task a b w]
/-- Refuse where failures were found, with the code of the first: R143 orders those of one step no further (DESIGN CHOICE, log
entry 87). -/
def Load.unless (task : Nat) (fs : List Fail) : Load Unit :=
  match fs with
  | [] => .ok ()
  | f :: _ => .refuse f.code (fs.map (fun x => noteOf x.code.toNat task x.a x.b x.w))

/-! ## Reading a launch (R139 to R142) -/

/-- Pieces of a range by 64 KiB unit. -/
def unitPieces (va n : Nat) : List (Nat × Nat) :=
  if n = 0 then []
  else (List.range ((va + n - 1) / 65536 - va / 65536 + 1)).map (fun i =>
    let lo := max va ((va / 65536 + i) * 65536)
    (lo, min (va + n) ((va / 65536 + i + 1) * 65536) - lo))
/-- Whether a granule of a range has an uncorrectable error. -/
def State.hardRange (s : State) (pa n : Nat) : Bool :=
  s.errs.any (fun e => e.hard && (match e.line with
    | .mem g => decide (pa / 64 ≤ g.toNat) && decide (g.toNat ≤ (pa + n - 1) / 64)
    | _ => false))
/-- Translate an address of the loader with the PTE as it stands, setting Accessed and, for a write, Dirty. -/
def State.ldAcc (s : State) (tenant : BitVec 16) (sup : Bool) (k : AccK) (va : Nat) : State × Acc :=
  if va ≥ 2 ^ 48 then (s, .prot)
  else match s.walk tenant.toNat va with
    | .fault => (s, .pageFault)
    | .prot => (s, .prot)
    | .leaf p lv a =>
      let p2 := markPte (k == .store && pteBit p 2) p
      (s.markWord 0 a p p2,
        s.checkLeaf (s.ctxEntry tenant.toNat).owner sup k p2 (leafSize lv p) va)
/-- Read bytes of a launch in its tenant context; a page fault or a failed check refuses it (R140).
DEDUCED, log entry 55. -/
def State.ldRead (s : State) (tenant : BitVec 16) (task va n : Nat) : Load (State × List Byte) :=
  Load.fold (fun (p : State × List Byte) q =>
    match p.1.ldAcc tenant false .load q.1 with
    | (s1, .ok pa poison _ tag) =>
      if poison then .ok (s1, p.2 ++ List.replicate q.2 0)
      else if s1.hardRange pa q.2 then .broken pa tag
      else .ok (s1, p.2 ++ s1.bytes pa q.2)
    | _ => Load.no task 0 0 q.1) (unitPieces va n) (s, [])

/-- Header and demands of an image into a task. -/
def Task.withHeader (t : Task) (h : Header) (im : Image) : Option Task :=
  h.demands.map (fun d => { t with ts := h.ts, scope := h.scope, image := im, entries := d.1, bank := d.2.1, acc := d.2.2.1
                                   loom := d.2.2.2 })
/-- The sections of an image, by a reader of bytes at an offset; the last one, of its children, comes apart. -/
def State.ldSections (s : State) (tenant : BitVec 16) (task va : Nat) (h : Header) : Load (State × List (List Byte)) :=
  Load.fold (fun (p : State × List (List Byte)) (q : Nat × Nat) =>
    (p.1.ldRead tenant task (va + q.1) q.2).bind (fun r => .ok (r.1, p.2 ++ [r.2]))) h.sections (s, [])

/-- A task under load, with the region that its entry prefers and the bytes of its Children section. -/
structure Cand where
  id : Nat
  pref : Option Nat := none
  pin : Bool := false
  kids : List Byte := []
  deriving DecidableEq, Repr, Inhabited

/-- Read the gang-table entry and the image of one task (step 1 of R143). Reserved bits of word 3 that are not zero, or an
image address off its alignment, refuse the launch with 0x28. DESIGN CHOICE, log entry 88. -/
def State.readTask (s : State) (g id : Nat) : Load (State × Cand) :=
  let x := s.gang g
  let i := (s.task id).index
  (s.ldRead x.tenant i (x.table + 32 * i) 32).bind (fun r =>
    let img := bytesAt r.2 0 8
    let w3 := bytesAt r.2 24 8
    if w3 / 32 != 0 || img % 64 != 0 then Load.no i 0 0 img
    else (r.1.ldRead x.tenant i img 256).bind (fun hd => match readHeader hd.2 with
      | none => Load.no i 0 0 img
      | some h => (hd.1.ldSections x.tenant i img h).bind (fun sec =>
        let im := imageOf sec.2
        match (sec.1.task id).withHeader h im with
        | none => Load.no i 0 0 img
        | some t =>
          let pin := w3 / 16 % 2 == 1
          let st := sec.1.start
          if im.code.isEmpty || (pin && (st.retired.getLsbD (w3 % 16) || (st.kind == .safe && w3 % 16 ≥ 8))) then Load.no i 0 0 img
          else .ok (sec.1.setTask id { t with args := x.args ++ [BitVec.ofNat 64 (bytesAt r.2 8 8), BitVec.ofNat 64 (bytesAt r.2 16 8)] },
            { id := id, pref := some (w3 % 16), pin := pin, kids := sec.2.getD 11 [] }))))
/-- Regions on which anything is placed. -/
def State.usableRegions (s : State) : List Nat :=
  (List.range 16).filter (fun r => !s.start.retired.getLsbD r && (s.start.kind != .safe || r < 8))
/-- Read a gang's table and images. A table that is misaligned (DESIGN CHOICE, log entry 88), or a gang that needs more contexts than remain,
refuses the launch (R383). -/
def State.readGang (s : State) (g : Nat) (ids : List Nat) : Load (State × List Cand) :=
  if (s.gang g).table % 64 != 0 then Load.no 0 0 0 (s.gang g).table
  else if ids.length > 2 * s.usableRegions.length then Load.no 0 0 0 0
  else Load.fold (fun (p : State × List Cand) id => (p.1.readTask g id).bind (fun r => .ok (r.1, p.2 ++ [r.2]))) ids (s, [])

/-! ## Contexts, barrier identifiers, reservations (step 2 of R143) -/

/-- Whether a task's grants fit beside those of the other partition of its region, be they its task's or those of the task
that waits for its swap. DEDUCED, log entry 8. -/
def State.grantsBeside (s : State) (t : Task) (c : Ctx) : Bool :=
  let c2 := ctxOf (regionOf c) (c.toNat % 2 == 0)
  let fits := fun (x : Task → Nat) (n : Nat) => decide (x t + max (x (s.task (s.taskAt c2))) (x (s.task (s.bookedAt c2))) ≤ n)
  fits (·.bank) 65536 && fits (·.acc) 256 && fits (·.loom) 524288
/-- Whether a new task may be placed on a context's region beside its other task. -/
def State.grantFits (s : State) (t : Task) (c : Ctx) : Bool :=
  s.usableRegions.contains (regionOf c) && !s.start.measuring.contains (regionOf c) && s.grantsBeside t c
/-- Whether a context can take a task's saved context in, of a retired region too, which finishes its tasks (R383): its
partition is free and the grants fit. -/
def State.canTake (s : State) (t : Task) (c : Ctx) : Bool := (mget s.owner c.toNat).isNone && s.grantsBeside t c
/-- Whether the standby plane of a context can take a task: no other waits for its swap, and the grants fit. The active
plane may still run a task (R146), if the loader chooses so. DESIGN CHOICE, log entry 11. -/
def State.canBook (s : State) (t : Task) (c : Ctx) : Bool :=
  (mget s.booked c.toNat).isNone && s.grantFits t c && ((mget s.owner c.toNat).isNone || Config.happens s.cycle (2 ^ 21 + c.toNat))
/-- Give the standby plane of a context to a task. DESIGN CHOICE, log entry 53. -/
def State.giveCtx (s : State) (id : Nat) (c : Ctx) : State :=
  { (s.modTask id (fun t => { t with ctx := c, tag := BitVec.ofNat 4 (c.toNat % 2 + 1) })) with
    booked := mset s.booked c.toNat (some id) }
/-- Contexts for a task: those of its preferred region first, the others from a free choice on; free partitions before
those that run a task. DESIGN CHOICE, log entry 11. -/
def State.ctxChoices (s : State) (x : Cand) : List Ctx :=
  let all := (List.range 32).map (BitVec.ofNat 5)
  let mine := all.filter (fun c => x.pref == some (regionOf c))
  let k := Config.pick (s.free + x.id) % 32
  let cs := (if x.pin then mine else mine ++ (all.drop k ++ all.take k)).filter (s.canBook (s.task x.id))
  let free := fun (c : Ctx) => (mget s.owner c.toNat).isNone
  cs.filter free ++ cs.filter (fun c => !free c)
/-- Contexts for every task. -/
def assignCtx : List Cand → State → Option State
  | [], s => some s
  | x :: xs, s => (s.ctxChoices x).findSome? (fun c => assignCtx xs (s.giveCtx x.id c))

/-- Barrier identifiers that an image's code names (R128). -/
def barsOf (im : Image) : List (Scope × Nat) :=
  im.code.filterMap (fun w => match decodeSeq w.toNat with
    | .ok (.bar sc id) => some (sc, id.toNat)
    | _ => none)
/-- Allocate the identifiers of a task to its gang. -/
def State.giveBars (s : State) (g id : Nat) : Load State :=
  let t := s.task id
  Load.fold (fun s (b : Scope × Nat) =>
    let key := barKey b.1 (instOf b.1 t.ctx) b.2
    let x := mget s.bars key
    -- the ends of other packages were of an earlier gang's episodes
    if x.gang == some g then .ok s
    else if x.gang.isNone then .ok { s with bars := mset s.bars key { x with gang := some g, lost := [] } } else .wait) (barsOf t.image) s

/-- Reserved bandwidth of a channel over every task that has a context or waits in its save area. -/
def State.reserved (s : State) (ch : Nat) : Nat :=
  ((s.tasks.filter (fun p => p.2.inOrder || (p.2.phase == .waiting && s.bookedAt p.2.ctx == p.1))).map (fun p =>
    ((s.reserves p.2).filter (·.1 == ch)).map (·.2) |>.sum)).sum

/-! ## Frames (R391) -/

/-- Frames that launches hold, those of mailboxes, and those of `va=` mappings and tables that still stand. -/
def State.framesHeld (s : State) (but : Nat) : List Nat :=
  (s.tasks.filter (fun p => p.2.mailPa != 0)).map (fun p => p.2.mailPa / 65536) ++
  (s.gangs.filter (·.1 != but)).flatMap (·.2.frames) ++
  (s.kept.filter (fun k => k.2.1 ≥ 2 ^ 48 || (match s.walk k.1.toNat k.2.1 with
    | .leaf p _ _ => pteFrame p == k.2.2
    | _ => false))).map (·.2.2)

/-- A placement in progress: the frames in use, the `va=` blocks that this load has placed or finds placed, notes. -/
structure Ld where
  s : State
  g : Nat
  used : List Nat
  shared : List (Nat × Nat × Nat × Nat) := []
  notes : List (Word × Word) := []
  deriving DecidableEq, Repr, Inhabited

/-- First frame and number of frames of the device-memory pool, within a frame range. -/
def State.devicePool (s : State) (lo hi : Nat) : Nat × Nat :=
  let a := s.regs.lpBase.toNat / 65536
  let top := min hi (if s.start.kind == .safe then 2 ^ 22 else 2 ^ 23)
  let lo' := max lo a
  (lo', min (a + s.regs.lpSize.toNat / 65536) top - lo')
/-- The pool of a die's basin. -/
def State.basinPool (s : State) (die : Nat) : Nat × Nat :=
  let base := 0x20000000000 + die * 0x8000000
  let lo := (base + s.regs.brStart.toNat + 65535) / 65536
  (lo, min (lo + s.regs.bpSize.toNat / 65536) ((base + 0x8000000) / 65536) - lo)
/-- A start among n places `step` apart from lo for m adjacent frames that are free and in one stack. -/
def pickRun (used : List Nat) (lo n step m seed : Nat) : Option Nat :=
  ((List.range (min n ((used.length + 16) * (m + 1)))).map (fun k => lo + step * ((seed + k) % n))).find? (fun a =>
    (a + m - 1) / 2 ^ 20 == a / 2 ^ 20 && used.all (fun f => f < a || a + m ≤ f))
/-- Take m adjacent frames of a pool. -/
def Ld.take (l : Ld) (pool : Nat × Nat) (m : Nat) : Load (Ld × Nat) :=
  if pool.2 < m then .wait
  else match pickRun l.used pool.1 (pool.2 - m + 1) 1 m (Config.pick l.s.free) with
    | some a => .ok ({ l with used := (List.range m).map (· + a) ++ l.used, s := { l.s with free := l.s.free + 1 } }, a)
    | none => .wait
/-- Take a frame of a channel of a stack from the device-memory pool. DEDUCED, log entry 32. -/
def Ld.takeNear (l : Ld) (stack chan : Nat) : Option (Ld × Nat) :=
  let (lo, n) := l.s.devicePool (stack * 2 ^ 20) ((stack + 1) * 2 ^ 20)
  let first := lo + (chan + 32 - lo % 32) % 32
  if first ≥ lo + n then none
  else (pickRun l.used first ((lo + n - 1 - first) / 32 + 1) 32 1 (Config.pick l.s.free)).map (fun a =>
    ({ l with used := a :: l.used, s := { l.s with free := l.s.free + 1 } }, a))
/-- A frame returns with the launch, or is kept for a mapping. -/
def Ld.own (l : Ld) (f : Nat) : Ld :=
  { l with s := l.s.setGang l.g { l.s.gang l.g with frames := f :: (l.s.gang l.g).frames } }
def Ld.keep (l : Ld) (tenant : BitVec 16) (va f : Nat) : Ld :=
  { l with s := { l.s with kept := (tenant, va, f) :: l.s.kept } }

/-! ## Mapping (R250 to R252, R263, R311) -/

/-- Walk to the L3 entry of a unit, adding the tables that are missing, and put a leaf there; a unit that is
mapped refuses the launch. -/
def Ld.mapFrom (l : Ld) (tenant : BitVec 16) (task unit leaf : Nat) : Nat → Nat → Load Ld
  | 0, t =>
    let a := t + 8 * (unit % 32)
    if pteBit (l.s.word a) 0 then Load.no task 0 0 (unit * 65536) else .ok { l with s := l.s.updateWord a leaf }
  | n + 1, t =>
    if !(l.s.place t == .device || l.s.place t == .basin) then Load.no task 0 0 (unit * 65536)
    else
      let a := t + 8 * walkIndex (2 - n) (unit * 65536)
      let e := l.s.word a
      if pteBit e 0 then
        (if pteBit e 1 then Load.no task 0 0 (unit * 65536)
         else Ld.mapFrom l tenant task unit leaf n (e / 256 % 2 ^ 44 * 256))
      else (l.take (l.s.devicePool 0 (2 ^ 23)) 1).bind (fun r =>
        let l1 := r.1.keep tenant (2 ^ 48 + r.2) r.2
        let s1 := (l1.s.fillZero r.2 65536).updateWord a (r.2 * 65536 + 1)
        Ld.mapFrom { l1 with s := s1 } tenant task unit leaf n (r.2 * 65536))
/-- DESIGN CHOICE, log entry 31. DEDUCED, log entry 55. -/
def Ld.map (l : Ld) (tenant : BitVec 16) (task unit leaf : Nat) : Load Ld :=
  Ld.mapFrom l tenant task unit leaf 3 (l.s.ctxEntry tenant.toNat).root
/-- Flags of a leaf: data and code pages are Live, Tenant-visible and movable, stores are pinned. -/
inductive LeafKind where
  | data | code | store
  deriving DecidableEq, Repr, Inhabited
def leafOf (k : LeafKind) (owner : BitVec 8) (frame : Nat) : Nat :=
  (match k with
    | .data => 0x417
    | .code => 0x41B
    | .store => 0x447) + frame * 65536 + owner.toNat * 2 ^ 52
/-- Virtual units that the loader uses in a context. -/
def State.windowUsed (s : State) (tenant : BitVec 16) : List Nat :=
  (s.gangs.filter (·.2.tenant == tenant)).flatMap (·.2.maps)
/-- The end of the part of the loader window that blocks use; private stacks lie above it. -/
def blockTop : Nat := 0xFFFF00000000
/-- A free address of the loader window for m units, at an alignment. -/
def Ld.address (l : Ld) (tenant : BitVec 16) (m align : Nat) : Ld × Nat :=
  let used := l.s.windowUsed tenant
  let al := max 1 (align / 65536)
  let n := (blockTop / 65536 - m) / al - loaderWindow / 65536 / al
  let u := ((List.range (min n ((used.length + 1) * (m + 1)))).map (fun k =>
    loaderWindow / 65536 + al * ((Config.pick l.s.free + k) % n))).find? (fun a => used.all (fun f => f < a || a + m ≤ f))
  ({ l with s := { l.s with free := l.s.free + 1 } }, u.getD (loaderWindow / 65536) * 65536)
/-- Note a unit that a store of its own address has mapped. -/
def Ld.freshen (l : Ld) (unit : Nat) : Ld :=
  { l with s := l.s.setGang l.g { l.s.gang l.g with fresh := unit :: (l.s.gang l.g).fresh } }
/-- Note a unit of the loader window as this launch's. -/
def Ld.mapped (l : Ld) (unit : Nat) : Ld :=
  { l with s := l.s.setGang l.g { l.s.gang l.g with maps := unit :: (l.s.gang l.g).maps } }
/-- Zero a frame and write its contents. -/
def Ld.fill (l : Ld) (frame : Nat) (bs : List Byte) : Ld :=
  { l with s := (l.s.fillZero frame 65536).update (frame * 65536) bs }

/-! ## Blocks (R31, R144, R232, R263, R391) -/

/-- The port that a stream is bound to: that of the first command that names it. DEDUCED, log entry 32. -/
def streamPort (im : Image) (ix : Nat) : Option Nat :=
  im.cmds.findSome? (fun r => if r.refs.any (·.stream == ix) then (readRec r).bind portOf else none)
/-- The port of the first stream of a block that has one. -/
def blockPort (im : Image) (di : Nat) : Option Nat :=
  im.streams.zipIdx.findSome? (fun st => if st.1.data != di then none else streamPort im st.2)
/-- The near channels of a port of a region, the nearest first, with their stack (R232). -/
def nearOf (region port : Nat) : List (Nat × Nat) :=
  [0, 1].map (fun j => (4 * (region / 8) + region % 8 / 2, 16 * (region % 2) + 2 * port + j))
/-- Bandwidth that the streams of a block reserve. -/
def blockBw (im : Image) (di : Nat) : Nat := ((im.streams.filter (·.data == di)).map (·.bw)).sum
/-- A frame for a device-memory page of a block: in the first near channel of its port, else in the second, else
anywhere in the pool. -/
def Ld.takeFor (l : Ld) (t : Task) (di : Nat) : Load (Ld × Nat) :=
  match (blockPort t.image di).bind (fun p => (nearOf (regionOf t.ctx) p).findSome? (fun q =>
      if l.s.reserved (32 * q.1 + q.2) + blockBw t.image di ≤ 48 then l.takeNear q.1 q.2 else none)) with
  | some x => .ok x
  | none => l.take (l.s.devicePool 0 (2 ^ 23)) 1
/-- Map the pages of a block, each with its part of the contents. -/
def Ld.pages (l : Ld) (t : Task) (k : LeafKind) (window : Bool) (va : Nat) (bs : List Byte) (frame : Ld → Load (Ld × Nat)) :
    Load Ld :=
  let owner := (l.s.ctxEntry t.tenant.toNat).owner
  Load.fold (fun l n => (frame l).bind (fun r =>
    let u := va / 65536 + n
    let l1 := if window then (r.1.own r.2).mapped u else r.1.keep t.tenant (u * 65536) r.2
    (l1.fill r.2 ((bs.drop (65536 * n)).take 65536)).map t.tenant t.index u (leafOf k owner r.2)))
    (List.range ((bs.length + 65535) / 65536)) l
/-- A placement note (R147). -/
def Ld.note (l : Ld) (t : Task) (ix va : Nat) : Ld := { l with notes := l.notes ++ [noteOf 0 t.index ix 0 va] }
/-- A block in the loader window. -/
def Ld.windowBlock (l : Ld) (t : Task) (di align : Nat) (bs : List Byte) (frame : Ld → Load (Ld × Nat)) : Load (Ld × Nat) :=
  let (l1, va) := l.address t.tenant ((bs.length + 65535) / 65536) align
  (l1.pages t .data true va bs frame).bind (fun l2 => .ok (l2.note t di va, va))
/-- The frame of a unit that this launch mapped before with `va=`. DEDUCED, log entry 52. -/
def State.ownFrame (s : State) (g : Nat) (tenant : BitVec 16) (u : Nat) : Option Nat :=
  if (s.gang g).own.contains u then match s.walk tenant.toNat (u * 65536) with
    | .leaf p 3 _ => some (pteFrame p)
    | _ => none
  else none
/-- Remember a `va=` block and the units that it maps. -/
def Ld.share (l : Ld) (b : Nat × Nat × Nat × Nat) (us : List Nat) : Ld :=
  let x := l.s.gang l.g
  { l with shared := b :: l.shared
           s := l.s.setGang l.g { x with blocks := b :: x.blocks.filter (·.1 != b.1), own := us ++ x.own, fresh := us ++ x.fresh } }
/-- Place a data block; its virtual address. An earlier iteration of the gang leaves its `va=` blocks mapped: one that
is declared again as it was takes its contents anew. DEDUCED, log entry 52. -/
def Ld.block (l : Ld) (t : Task) (di : Nat) (d : DataDecl) : Load (Ld × Nat) :=
  match d.place with
  | .bank _ _ => .ok (l, 0)
  | .basin => l.windowBlock t di d.align d.bytes (fun l => l.take (l.s.basinPool (dieOf t.ctx)) 1)
  | .device none => l.windowBlock t di d.align d.bytes (fun l => l.takeFor t di)
  | .device (some va) =>
    let b := (va, d.name, d.align, d.bytes.length)
    match l.shared.find? (·.1 == va) with
    | some e => if e == b then .ok (l, va) else Load.no t.index di 0 va
    | none =>
      if va % 65536 != 0 || va % max 1 d.align != 0 || va + d.bytes.length > 2 ^ 48 then Load.no t.index di 0 va
      else
        let us := (List.range ((d.bytes.length + 65535) / 65536)).map (· + va / 65536)
        if (l.s.gang l.g).blocks.contains b && us.all (fun u => (l.s.ownFrame l.g t.tenant u).isSome) then
          .ok (us.foldl (fun l u => l.fill ((l.s.ownFrame l.g t.tenant u).getD 0)
            ((d.bytes.drop (u * 65536 - va)).take 65536)) (l.share b []), va)
        else (l.pages t .data false va d.bytes (fun l => l.takeFor t di)).bind (fun l2 => .ok (l2.share b us, va))

/-! ## Stores (R311, R312) -/

/-- The bytes of a descriptor whose store begins at a physical address. -/
def storeHead (x : StoreDecl) (pa : Nat) : List Byte :=
  let (tab, free, pool, _) := storeLayout x
  let w (n : Nat) : Nat := (x.origin.getD n 0).toNat
  let bound (n : Nat) : Nat :=
    (BitVec.ofInt 21 (x.low.getD n 0)).toNat + 2 ^ 21 * (BitVec.ofInt 21 (x.high.getD n 0)).toNat
  let tlog := ((List.range 21).find? (fun k => 2 ^ k == x.table)).getD 0
  ([w 0 + 2 ^ 32 * w 1, w 2 + 2 ^ 32 * x.icell.toNat, bound 0, bound 1, bound 2,
    x.fcode + 2 ^ 8 * tlog + 2 ^ 16 * x.pool, pa + tab, pa + pool, pa + free, x.pool] ++ List.replicate 6 0).flatMap (leList 8) ++
  (List.replicate (32 * 2 ^ x.fcode) (leList 2 x.fill.toNat)).flatten
/-- The entries of a free stack that is full. -/
def storeFree (n : Nat) : List Byte := (List.range n).flatMap (fun e => leList 4 (n - 1 - e))
/-- Two declarations of one store. -/
def StoreDecl.same (x y : StoreDecl) : Bool := { x with handle := 0, name := 0 } == { y with handle := 0, name := 0 }
/-- The physical address of a store whose mapping still stands. -/
def State.storeStands (s : State) (tenant : BitVec 16) (va desc : Nat) : Bool :=
  match s.walk tenant.toNat va with
  | .leaf p _ _ => pteFrame p * 65536 == desc
  | _ => false
/-- Build a store at a virtual address: its run of frames in one stack of the task's die, mapped and written. -/
def Ld.build (l : Ld) (t : Task) (d : StoreDecl) (va : Nat) : Load Ld :=
  let m := storeSpan d / 65536
  let die := dieOf t.ctx
  (l.take (l.s.devicePool (die * 2 ^ 22) ((die + 1) * 2 ^ 22)) m).bind (fun r =>
    let owner := (r.1.s.ctxEntry t.tenant.toNat).owner
    (Load.fold (fun (l : Ld) n =>
      let u := va / 65536 + n
      let l1 := if d.va.isNone then (l.own (r.2 + n)).mapped u else (l.keep t.tenant (u * 65536) (r.2 + n)).freshen u
      l1.map t.tenant t.index u (leafOf .store owner (r.2 + n))) (List.range m) r.1).bind (fun l2 =>
      let pa := r.2 * 65536
      let s1 := ((l2.s.fillZero r.2 (65536 * m)).update pa (storeHead d pa)).update (pa + (storeLayout d).2.1) (storeFree d.pool)
      .ok { l2 with s := { s1 with stores := (t.tenant, va, pa, d) :: s1.stores.filter (fun p => !(p.1 == t.tenant && p.2.1 == va)) } }))
/-- Place, share or attach a store. The first declaration of the gang builds it, and every other one, of a child or of
a later iteration too, must match it. -/
def Ld.store (l : Ld) (t : Task) (ix : Nat) (d : StoreDecl) : Load Ld :=
  match (l.s.gang l.g).decls.find? (fun p => p.2.name == d.name || (d.va.isSome && p.2.va == d.va)) with
  | some (_, e) => if e.name == d.name && StoreDecl.same e d then .ok l else Load.no t.index ix 0 0
  | none =>
    let add := fun (l : Ld) (va : Nat) => { l with s := l.s.setGang l.g { l.s.gang l.g with decls := (va, d) :: (l.s.gang l.g).decls } }
    match d.va with
    | some va =>
      (match l.s.stores.find? (fun p => p.1 == t.tenant && p.2.1 == va) with
      | some (_, _, desc, e) =>
        if l.s.storeStands t.tenant va desc then
          (if StoreDecl.same e d then .ok (add l va) else Load.no t.index ix 0 va)
        else (l.build t d va).bind (fun l => .ok (add l va))
      | none => (l.build t d va).bind (fun l => .ok (add l va)))
    | none => match l.s.findStore t d with
      | some (va, _) => .ok (add l va)
      | none =>
        let (l1, va) := l.address t.tenant (storeSpan d / 65536) 65536
        (l1.build t d va).bind (fun l2 => .ok ((add l2 va).note t ix va))

/-! ## The rest of a task: graphs, children, code, stack -/

/-- Bytes in adjacent frames of the basin of the task's die, which no tenant page maps (R42, R287).
DESIGN CHOICE, log entry 31. -/
def Ld.hidden (l : Ld) (t : Task) (bs : List Byte) : Load (Ld × Nat) :=
  let m := (bs.length + 65535) / 65536
  if m = 0 then .ok (l, 0)
  else (l.take (l.s.basinPool (dieOf t.ctx)) m).bind (fun r =>
    let l1 := (List.range m).foldl (fun l n => l.own (r.2 + n)) r.1
    .ok ({ l1 with s := (l1.s.fillZero r.2 (65536 * m)).update (r.2 * 65536) bs }, r.2 * 65536))
/-- Physical base of a die's basin. -/
def basinBase (die : Nat) : Nat := 0x20000000000 + die * 0x8000000
/-- A private stack: an unused slot of the reserved part of the basin, at an unused address above the blocks with
its unmapped page below; a gang waits for a slot. DESIGN CHOICE, log entry 21. -/
def Ld.stack (l : Ld) (id : Nat) : Load Ld :=
  let t := l.s.task id
  let size := Config.stackBytes
  let others := l.s.tasks.filter (fun p => p.1 != id && p.2.stackLen != 0 && p.2.phase != .done)
  let at' := fun k => basinBase (dieOf t.ctx) + Config.stackStart + k * size
  let slot := ((List.range 33).find? (fun k => decide (k < Config.stackCount) && others.all (·.2.stackPa != at' k))).map at'
  let n := 65536 / (size / 65536 + 1)
  let place := ((List.range (others.length + 1)).map (fun k =>
    blockTop + 65536 + (Config.pick l.s.free + k) % n * (size + 65536))).find? (fun a =>
    others.all (fun p => p.2.tenant != t.tenant || p.2.stackVa != a))
  match slot, place with
  | some pa, some va => .ok { l with s := { (l.s.setTask id { t with
      stackVa := va, stackPa := pa, stackLen := size }) with free := l.s.free + 1 } }
  | _, _ => .wait
/-- The memory nodes of a task, and after them its data blocks (the operands that name one). -/
def strmsOf (im : Image) (vas : List Nat) : List Strm :=
  let dev := fun (d : DataDecl) => match d.place with | .device _ => true | _ => false
  -- a bank block has no address
  let len := fun (d : DataDecl) (n : Nat) => match d.place with | .bank _ _ => 0 | _ => n
  im.streams.map (fun x =>
    let d := im.datas.getD x.data {}
    { va := vas.getD x.data 0, lo := x.lo, hi := len d x.hi, reads := x.reads, writes := x.writes, bw := x.bw, device := dev d }) ++
  (im.datas.zip vas).map (fun p => { va := p.2, lo := 0, hi := len p.1 p.1.bytes.length, device := dev p.1 })
/-- Place everything of one task. -/
def Ld.task (l : Ld) (x : Cand) : Load Ld :=
  let t := l.s.task x.id
  let im := t.image
  (Load.unless t.index (storeFails im)).bind (fun _ => (Load.fold (fun (p : Ld × List Nat) (q : DataDecl × Nat) =>
    (p.1.block t q.2 q.1).bind (fun r => .ok (r.1, p.2 ++ [r.2]))) im.datas.zipIdx (l, [])).bind (fun b =>
  (Load.fold (fun (l : Ld) (q : StoreDecl × Nat) => l.store t q.2 q.1) im.stores.zipIdx b.1).bind (fun l2 =>
  (Load.fold (fun (p : Ld × List Nat) bs => (p.1.hidden t bs).bind (fun r => .ok (r.1, p.2 ++ [r.2]))) im.graphs (l2, [])).bind (fun gr =>
  (gr.1.hidden t x.kids).bind (fun kd =>
  let code := im.code.flatMap (fun w => leList 4 w.toNat)
  let (l5, cva) := kd.1.address t.tenant ((code.length + 65535) / 65536) 65536
  (l5.pages t .code true cva code (fun l => l.take (l.s.devicePool 0 (2 ^ 23)) 1)).bind (fun l6 =>
  Ld.stack { l6 with s := l6.s.setTask x.id { l6.s.task x.id with
    graphs := gr.2, kidsPa := (if x.kids.isEmpty then t.kidsPa else kd.2), entryPc := BitVec.ofNat 64 (cva + im.entry), streams := strmsOf im b.2 } } x.id))))))

/-- The blocks of some tasks of a gang that have their contexts; a child finds the `va=` blocks of its gang placed. -/
def State.findFrames (s : State) (g : Nat) (xs : List Cand) (others : List Nat) : Load Ld :=
  let x := s.gang g
  Load.fold (fun (l : Ld) x => l.task x) xs
    { s := s, g := g, used := others ++ x.frames
      shared := if xs.any (fun c => (s.task c.id).parent.isSome) then x.blocks else [] }
/-- Step 2: contexts, identifiers, blocks and reservations for some tasks of a gang. -/
def State.findRoom (s : State) (g : Nat) (xs : List Cand) (others : List Nat) : Load Ld :=
  match assignCtx xs s with
  | none => .wait
  | some s1 =>
    (Load.fold (fun s (x : Cand) => s.giveBars g x.id) xs { s1 with free := s1.free + s1.nextTask }).bind (fun s2 =>
    (s2.findFrames g xs others).bind (fun l =>
    if xs.any (fun x => (l.s.reserves (l.s.task x.id)).any (fun r => decide (48 < l.s.reserved r.1))) then .wait else .ok l))
/-- The machine with nothing on it but some tasks. -/
def State.emptied (s : State) (xs : List Cand) : State :=
  { s with owner := [], booked := [], bars := [], tasks := s.tasks.filter (fun p => xs.any (·.id == p.1)), start := { s.start with measuring := [] } }
/-- Whether a gang would find its contexts and its frames on an otherwise empty machine (R383, R386, R391). -/
def State.couldFit (s : State) (g : Nat) (xs : List Cand) : Bool :=
  let e := s.emptied xs
  match assignCtx xs e with
  | none => false
  | some s1 => match s1.findFrames g xs ((e.tasks.filter (fun p => p.2.mailPa != 0)).map (fun p => p.2.mailPa / 65536)) with
    | .wait => false
    | _ => true
/-- Step 2 with the machine as it is; a gang that would not fit even on an empty one is refused. -/
def State.room (s : State) (g : Nat) (xs : List Cand) : Load Ld :=
  match s.findRoom g xs (s.framesHeld g) with
  | .wait => if s.couldFit g xs then .wait else Load.no 0 0 0 0
  | r => r

/-! ## Translation and extents (step 3 of R143, R145, R256) -/

/-- What a translation of step 3 meets. -/
inductive Step3 where
  | done (s : State)
  /-- A page fault: task, index of the record or 0x1FE, address. -/
  | fault (id cmd va : Nat)
  | refuse (note : Word × Word)
/-- Patch the extents of one task, stream by stream. -/
def State.extend (s : State) (id : Nat) : Step3 :=
  let t := s.task id
  let us := t.streams.zipIdx.flatMap (fun p => (unitsOf p.1.va p.1.lo p.1.hi).map (fun u => (p.2, p.1, u)))
  us.foldl (fun (r : Step3) q => match r with
    | .done s =>
      (match s.ldAcc t.tenant false (if q.2.1.writes then .store else .load) (q.2.2 * 65536) with
      | (s1, .ok _ _ _ _) => .done (s1.modTask id (fun t => { t with extents := mset t.extents q.2.2 (s1.extentOf t.tenant q.2.2) }))
      | (_, .pageFault) =>
        .fault id (((t.image.cmds.zipIdx.find? (fun c => c.1.refs.any (·.stream == q.1))).map (·.2)).getD 0x1FE)
          (max (q.2.2 * 65536) (q.2.1.va + q.2.1.lo))
      | _ => .refuse (noteOf 0x28 t.index q.1 0 (q.2.2 * 65536)))
    | r => r) (.done (s.setTask id { t with extents := [], step3 := none }))
/-- Patch the extents of the tasks under load. -/
def State.extendAll (s : State) (ids : List Nat) : Step3 :=
  ids.foldl (fun r id => match r with | .done s => s.extend id | r => r) (.done s)

/-! ## Migration (step 4 of R143, R10, R144) -/

/-- The bytes and checks of a frame move to another; what tasks hold for it moves too. -/
def State.moveFrame (s : State) (old new : Nat) : State :=
  let gran := fun (sig : BitVec 4096) => (List.range 1024).foldl (fun g n =>
    if sigHas sig (1024 * old + n) then sigAdd g (1024 * new + n) else g) sig
  { s with
    mem := msplice (new * 65536) 65536 (mslice (old * 65536) 65536 s.mem) s.mem
    checks := msplice (new * 1024) 1024 (mslice (old * 1024) 1024 s.checks) s.checks
    tasks := s.tasks.map (fun p => (p.1, { p.2 with
      hold := msplice (new * 65536) 65536 (mslice (old * 65536) 65536 p.2.hold) (mcut (old * 65536) 65536 p.2.hold)
      sig := gran p.2.sig })) }
/-- A unit of a tenant moves to a new frame: its entry, its bytes, its translations and the extents that name it. -/
def Ld.moveUnit (l : Ld) (tenant : BitVec 16) (u p a new : Nat) : Ld :=
  let old := pteFrame p
  let x := l.s.gang l.g
  let s1 := ((l.s.moveFrame old new).updateWord a (p - old * 65536 + new * 65536)).invalidate tenant (some (u * 65536)) (List.range 16) [0, 1]
  if x.frames.contains old then { l with s := s1.setGang l.g { x with frames := new :: x.frames.erase old } }
  else ({ l with s := s1 } : Ld).keep tenant (u * 65536) new
/-- Move a 64 KiB movable page of a stream to the first near channel of its port that has a frame and the
bandwidth; a page that is near, or for which there is none, stays. DEDUCED, log entry 32. -/
def Ld.migrateUnit (l : Ld) (id : Nat) (st : Strm) (port u : Nat) : Ld :=
  let t := l.s.task id
  match l.s.walk t.tenant.toNat (u * 65536) with
  | .leaf p lv a =>
    let pa := pteFrame p * 65536
    if leafSize lv p != 65536 || p / 64 % 4 != 0 || l.s.place pa != .device || nearChannel (regionOf t.ctx) port pa then l
    else
      let mine := (unitsOf st.va st.lo st.hi).flatMap (fun v => match l.s.walk t.tenant.toNat (v * 65536) with
        | .leaf q n _ => channelsOf (pteFrame q) (leafSize n q)
        | _ => [])
      match (nearOf (regionOf t.ctx) port).findSome? (fun q =>
          let ch := 32 * q.1 + q.2
          if l.s.reserved ch + (if mine.contains ch then 0 else st.bw) ≤ 48 then l.takeNear q.1 q.2 else none) with
      | some (l1, new) => l1.moveUnit t.tenant u p a new
      | none => l
  | _ => l
/-- Stack of a port of a region (R232). -/
def stackOf (region : Nat) : Nat := 4 * (region / 8) + region % 8 / 2
/-- A stream with a port, as migration works on it: task, number in its image, stream, port and 64 KiB units. -/
structure Bound where
  id : Nat
  ix : Nat
  st : Strm
  port : Nat
  units : List Nat
  deriving DecidableEq, Repr, Inhabited
/-- The streams of a task's image that have a port, in image order. -/
def State.boundOf (s : State) (id : Nat) : List Bound :=
  let t := s.task id
  (List.range t.image.streams.length).filterMap (fun n =>
    let st := t.streams.getD n {}
    if st.device then (streamPort t.image n).map (fun port =>
      { id := id, ix := n, st := st, port := port, units := unitsOf st.va st.lo st.hi }) else none)
/-- Whether migration may move the page of a unit: a movable one of 64 KiB in device memory. -/
def State.movable (s : State) (tenant : BitVec 16) (u : Nat) : Bool :=
  match s.walk tenant.toNat (u * 65536) with
  | .leaf p lv _ => leafSize lv p == 65536 && p / 64 % 4 == 0 && s.place (pteFrame p * 65536) == .device
  | _ => false
/-- Whether a stream loses its bound to an earlier one: both read a page that migration places, and their ports are of
different stacks (R144). -/
def State.loses (s : State) (b : Bound) (earlier : List Bound) : Bool :=
  let t := s.task b.id
  b.st.reads && earlier.any (fun e => (s.task e.id).tenant == t.tenant && e.st.reads &&
    stackOf (regionOf (s.task e.id).ctx) != stackOf (regionOf t.ctx) &&
    b.units.any (fun u => e.units.contains u && s.movable t.tenant u))
/-- Step 4: the pages of the streams under load, in image order; a page goes with the first stream that names it, and
one that a stream of a placed task names stays. -/
def Ld.migrate (l : Ld) (ids : List Nat) : Ld :=
  let placed := (l.s.tasks.filter (fun p => p.2.inOrder && !ids.contains p.1)).flatMap (fun p => l.s.boundOf p.1)
  ((ids.flatMap l.s.boundOf).foldl (fun (x : Ld × List Bound) b =>
    let tenant := (l.s.task b.id).tenant
    let us := b.units.filter (fun u => !x.2.any (fun e => (l.s.task e.id).tenant == tenant && e.units.contains u))
    let l1 := us.foldl (fun l u => l.migrateUnit b.id b.st b.port u) x.1
    ({ l1 with s := l1.s.modTask b.id (fun t => { t with
        streams := t.streams.modify b.ix (fun st => { st with void := x.1.s.loses b x.2 }) }) }, x.2 ++ [b])) (l, placed)).1

/-- The pages of indirect streams, pinned in the second-level TLB of the die, up to its 16,384 pins (R243, R253). -/
def State.pinPages (s0 : State) (id : Nat) : State :=
  let t := s0.task id
  let d := dieOf t.ctx
  let wants := fun (t : Task) => (t.image.cmds.flatMap (fun r =>
    if (readRec r).any indirect then (refOf t.streams r 6).toList else [])).flatMap (fun st => unitsOf st.1.va st.1.lo st.1.hi)
  -- pins that no placed task wants any more are given up
  let s : State := { s0 with pins := mmod s0.pins d (fun l => l.filter (fun e => s0.tasks.any (fun p =>
    (p.2.inOrder || p.1 == id) && dieOf p.2.ctx == d && p.2.tenant == e.tenant &&
      (wants p.2).any (fun u => e.base ≤ u * 65536 && u * 65536 < e.base + e.size)))) }
  (wants t).foldl (fun s u => match s.walk t.tenant.toNat (u * 65536) with
    | .leaf p lv _ =>
      let size := leafSize lv p
      let e : TlbEnt := { tenant := t.tenant, base := u * 65536 / size * size, size := size, pte := BitVec.ofNat 64 p }
      let l := mget s.pins d
      if l.contains e || l.length ≥ 16384 || (tlbMates e l).length ≥ tlbWays then s
      else { s with pins := mset s.pins d (l ++ [e]), tlb2 := mmod s.tlb2 d (fun m => tlbRoom s.free l e (tlbSans e m)) }
    | _ => s) s

/-! ## Checks of a placed task (steps 5 and 6 of R143) -/

/-- Physical chunks of a virtual range by the extents. -/
def Task.chunks (t : Task) (va lo hi : Nat) : List (Nat × Nat) :=
  (unitPieces (va + lo) (hi - lo)).map (fun p => (pteFrame (mget t.extents (p.1 / 65536)).toNat * 65536 + p.1 % 65536, p.2))
def camHandle : Instr → Option (Nat × Bool)
  | .camGath r | .camGathDepth r => some (r.handle.toNat, false)
  | .camScat r => some (r.handle.toNat, true)
  | _ => none
/-- How an attention command accesses what an address word names: it reads its handle word and rows, `at.att` its
lists too, and it writes the lists of `at.sel` and outputs; none for what its declaration says (R347). -/
def attRole (i : Instr) (word : Nat) : Option (Bool × Bool) :=
  match i with
  | .atApp _ | .atTrunc _ => if word = 6 then none else some (true, false)
  | .atSel _ => if word = 6 then none else some (word != 4, word == 4)
  | .atAtt _ => if word = 6 then none else some (word != 5, word == 5)
  | _ => none
/-- The memory nodes of a task (R91, R311). -/
def State.nodesOf (s : State) (t : Task) : List MNode :=
  let cs := imageCmds t.image
  let n := t.image.streams.length
  (t.streams.take n).zipIdx.map (fun p =>
    let mine := t.image.cmds.zipIdx.filter (fun c => c.1.refs.any (·.stream == p.2))
    let roles := mine.flatMap (fun c => (c.1.refs.filter (·.stream == p.2)).map (fun f => (readRec c.1).bind (attRole · f.word)))
    let plain := roles.isEmpty || roles.contains none
    { ix := p.2, chunks := t.chunks p.1.va p.1.lo p.1.hi
      reads := (plain && p.1.reads) || roles.any (·.any (·.1)), writes := (plain && p.1.writes) || roles.any (·.any (·.2))
      cmds := mine.map (·.2) }) ++
  t.image.stores.zipIdx.map (fun p =>
    let mine := cs.filter (fun c => (camHandle c.2).any (fun h => h.1 == p.1.handle))
    { ix := n + p.2, chunks := (match s.findStore t p.1 with | some (_, pa) => [(pa, storeSpan p.1)] | none => [])
      reads := mine.any (fun c => (camHandle c.2).any (fun h => !h.2))
      writes := mine.any (fun c => (camHandle c.2).any (·.2)), cmds := mine.map (·.1) })
/-- Conflicts of a task with itself and with the tasks of its timestamp and instance that are in commit order, come before
it in the load, or are loaded and wait for their swap. -/
def State.racesOf (s : State) (id : Nat) (before : List Nat) : List (Nat × Nat) :=
  let t := s.task id
  let mine := s.nodesOf t
  raceWithin t.image mine ++
  let loaded := fun (p : Nat × Task) => p.2.phase == .waiting && s.bookedAt p.2.ctx == p.1 && (mget s.standby p.2.ctx.toNat).isSome
  (s.tasks.filter (fun p => (p.2.inOrder || before.contains p.1 || loaded p) && p.1 != id && p.2.ts == t.ts && t.sameInst p.2)).flatMap
    (fun p => raceAcross mine (s.nodesOf p.2))
/-- The bound of an address word's path where its stream has one (R20, R144, R232, R253). -/
def State.pathOf (s : State) (t : Task) (r : CmdRec) (i : Instr) (word : Nat) : Option Nat :=
  match refOf t.streams r word with
  | none => none
  | some (st, _) =>
    let us := unitsOf st.va st.lo st.hi
    let bound := fun (u : Nat) =>
      let p := (mget t.extents u).toNat
      let pa := pteFrame p * 65536
      if s.place pa == .basin then (if (pa - 0x20000000000) / 0x8000000 == dieOf t.ctx then 96 else 224)
      else if sizeOfCode (p / 2 ^ 60 % 8) == 65536 && (portOf i).any (fun k => nearChannel (regionOf t.ctx) k pa) then 1280
      else 2048
    let indirect := match i with | .sGath _ | .sScat _ => true | _ => false
    if st.void || (indirect && word == 6 && !s.pinned t st) then none else some ((us.map bound).foldl max 0)
def rateOf (t : Task) (r : CmdRec) (word : Nat) : Nat :=
  match refOf t.streams r word with
  | some (st, _) => if st.device then st.bw else 64
  | none => 0
/-- Commands whose windows are flagged (R17). -/
def State.shortWindows (s : State) (t : Task) : List Nat :=
  let im := t.image
  (im.cmds.zipIdx.filter (fun p => (readRec p.1).any (fun i =>
    windowShort (handleBt im) (s.pathOf t p.1 i) (rateOf t p.1)
      (fun h => ((im.stores.find? (·.handle == h)).map (·.bw)).getD 0 != 0) i))).map (·.2)
/-- What the checks of an image find wrong once it is placed: those of step 5 give 0x28, and what writing the standby plane
finds, step 6, gives 0x01 or 0x30 (R143, R146). -/
def State.failsOf (s : State) (id : Nat) : List Fail :=
  let t := s.task id
  let im := t.image
  islandFails im ++ cmdFails im t.streams t.acc t.bank (s.start.kind == .safe) ++ dataFails im t.bank ++ streamFails im ++
    seqFails im ++ graphFails im ++ mLineFails im ++ portFails im ++ planeFails im ++ mxFails im ++ elemFails im t.entries ++
    (s.errs.flatMap (fun e => if !e.hard then [] else match e.line with
      | .entry r p el ix => failIf (ctxOf r.toNat p == t.ctx) { code := 0x30, a := el.toNat, b := ix.toNat }
      | _ => []))
/-- A record with the address words patched to what its streams translate to. -/
def State.patchAll (s : State) (id : Nat) (r : CmdRec) : CmdRec :=
  match readRec r with
  | none => r
  | some i => r.refs.foldl (fun r f => (s.patchBase id r i f.word).1) r
/-- The standby plane of a task. -/
def State.planeOf (s : State) (id : Nat) : Plane :=
  let im := (s.task id).image
  { isls := im.isls, elems := im.elems, cmds := im.cmds.map (s.patchAll id) }
/-- Step 5 for one task, after those that come before it in the load. A permissive overlap sets the race flag
of the region of the task that is checked (DESIGN CHOICE, log entry 75). -/
def Ld.check (l : Ld) (id : Nat) (before : List Nat) : Load Ld :=
  let s0 := l.s.pinPages id
  let t := s0.task id
  let x := s0.gang l.g
  let races := s0.racesOf id before
  let raceFails : List Fail := if x.permissive then [] else races.map (fun p => { code := 0x28, a := p.1, b := p.2 })
  (Load.unless t.index (raceFails ++ (s0.failsOf id).filter (·.code == 0x28))).bind (fun _ =>
    let notes := (if x.permissive then races.map (fun p => noteOf 0x28 t.index p.1 p.2 0) else []) ++
      (s0.shortWindows t).map (fun k => noteOf 0x11 t.index k k 0)
    let raced := x.permissive && !races.isEmpty
    let s1 := s0.setGang l.g { x with raced := x.raced || raced }
    .ok { l with notes := l.notes ++ notes
                 s := { s1 with raceFlag := if raced then mset s1.raceFlag (regionOf t.ctx) true else s1.raceFlag } })
/-- Step 6 for one task: its standby plane is written. -/
def Ld.writePlane (l : Ld) (id : Nat) : Load Ld :=
  let t := l.s.task id
  (Load.unless t.index (l.s.failsOf id)).bind (fun _ =>
    .ok { l with s := { l.s with standby := mset l.s.standby t.ctx.toNat (some (l.s.planeOf id)) } })
/-- Steps 5 and 6 for the tasks under load, one step after the other. -/
def Ld.checkAll (l : Ld) (ids : List Nat) : Load Ld :=
  (Load.fold (fun (p : Ld × List Nat) id => (p.1.check id p.2).bind (fun l => .ok (l, p.2 ++ [id]))) ids (l, [])).bind
    (fun p => Load.fold Ld.writePlane ids p.1)

end Sys2Proof.Machine
end

