-- ==== Sys2Proof/Machine/EvLoad.lean ====
section
/-!
DEFINITION. The events GANG_PLACEMENT, PLANE_SWAP and BATCH_ITERATION, with the load report, refusals and berth
records (R85, R127, R140, R143 to R148, R163, R164, R391).
-/

namespace Sys2Proof.Machine

/-! ## Load report (R147) -/

def words (ws : List Nat) : List Byte := ws.flatMap (leList 8)
/-- Bytes of a report. -/
def reportBytes (result : Nat) (raced : Bool) (tag : W32) (notes : List (Word × Word)) (ts : List Task) : List Byte :=
  let grant := (List.range 32).flatMap (fun i => match ts.find? (fun t => t.index == i && t.parent.isNone) with
    | some t => [t.entries + 2 ^ 16 * t.acc + 2 ^ 32 * t.bank, t.loom]
    | none => [0, 0])
  words ([result + 2 ^ 8 * raced.toNat + 2 ^ 9 * (decide (192 < notes.length)).toNat + 2 ^ 16 * min notes.length 65535 +
    2 ^ 32 * tag.toNat] ++ List.replicate 7 0 ++ grant ++ List.replicate 56 0 ++
    (notes.take 192).flatMap (fun n => [n.1.toNat, n.2.toNat]))
/-- Write part of the report of a gang, where its queue has a report area. -/
def State.reportPut (s : State) (g off : Nat) (bs : List Byte) : State :=
  let x := s.gang g
  let area := (s.queue x.queue.toNat).report.toNat
  if area = 0 || s.place area != .device then s else s.update (area + 4096 * (x.tag.toNat % 64) + off) bs
/-- Write the report of a gang. -/
def State.report (s : State) (g : Nat) (result : Nat) (notes : List (Word × Word)) : State :=
  let x := s.gang g
  s.reportPut g 0 (reportBytes result x.raced x.tag notes ((s.tasks.filter (fun p => p.2.gang == g)).map (·.2)))
/-- What the load of a child adds to its launch's report: the race flag and the notes (R91, R147). -/
def State.reportChild (s : State) (g : Nat) : State :=
  let x := s.gang g
  let bs := reportBytes 0 x.raced x.tag x.notes []
  (s.reportPut g 0 (bs.take 8)).reportPut g 1024 (bs.drop 1024)

/-! ## Refusals (R127, R140, R143, R145) -/

/-- Undo the mappings that what is under load made with `va=`: of blocks, and of stores. -/
def State.dropFresh (s : State) (g : Nat) : State :=
  let x := s.gang g
  let s1 := x.fresh.foldl (fun s u => s.unmapUnit x.tenant u) s
  let mine := fun (va : Nat) => x.fresh.contains (va / 65536)
  { (s1.setGang g { x with fresh := [], own := x.own.filter (fun u => !x.fresh.contains u)
                           blocks := x.blocks.filter (fun b => !mine b.1), decls := x.decls.filter (fun d => !mine d.1) }) with
    kept := s1.kept.filter (fun k => !(k.1 == x.tenant && mine k.2.1))
    stores := s1.stores.filter (fun p => !(p.1 == x.tenant && mine p.2.1)) }
/-- What is under load has been placed: its mappings stay. -/
def State.keepFresh (s : State) (g : Nat) : State := s.setGang g { s.gang g with fresh := [] }
/-- Refuse a gang: report, release of what it holds, one notify record of type 5. -/
def State.refuseGang (s : State) (g : Nat) (code : BitVec 8) (notes : List (Word × Word)) : State :=
  let x := s.gang g
  let ts := s.tasks.filter (fun p => p.2.gang == g)
  let lost := (ts.map (fun p => p.2.mail.length)).sum
  let s1 := s.report g code.toNat (x.notes ++ notes)
  ((((ts.map (·.1)).foldl State.removeTask s1).dropFresh g).releaseGang g).notify x.queue.toNat 5 (x.discarded + lost) x.tag code 0
/-- Refuse a child: a record that names its parent, and its end alone. -/
def State.refuseChild (s : State) (id : Nat) : State :=
  let t := s.task id
  let p := t.parent.getD (0, 0)
  let s1 := s.record { code := 0x28, gen := 0, task := BitVec.ofNat 32 p.1, addr := BitVec.ofNat 64 t.childIx, tenant := t.tenant
                       ctx := (s.task p.1).ctx, cmd := BitVec.ofNat 9 seqCmd, pos := p.2 }
  let s2 := s1.dropFresh t.gang
  let s3 := (s2.setGang t.gang { s2.gang t.gang with discarded := (s2.gang t.gang).discarded + t.mail.length }).removeTask id
  if (s3.members t.gang).isEmpty then s3.gangDone t.gang else s3
/-- Refuse what is under load. -/
def State.refuse (s : State) (g : Nat) (ids : List Nat) (code : BitVec 8) (notes : List (Word × Word)) : State :=
  match ids with
  | id :: _ => if (s.task id).parent.isSome then s.refuseChild id else s.refuseGang g code notes
  | [] => s.refuseGang g code notes

/-! ## GANG_PLACEMENT (R143, R145) -/

/-- Steps 3 to 6 for what step 2 has found room for; the swaps follow. -/
def Ld.finish (l : Ld) (ids : List Nat) : State :=
  let x := l.s.gang l.g
  let s := l.s.setGang l.g { x with notes := x.notes ++ l.notes }
  match s.extendAll ids with
  | .fault id cmd va => (s.modTask id (fun t => { t with step3 := some va })).engRecord id cmd 0x08 va 0 0 true false false
  | .refuse n => s.refuse l.g ids 0x28 [n]
  | .done s1 =>
    match (Ld.migrate { l with s := s1, notes := [], used := s1.framesHeld 0 } ids).checkAll ids with
    | .ok l2 =>
      let y := l2.s.gang l.g
      let s2 := l2.s.setGang l.g { y with notes := y.notes ++ l2.notes }
      { s2 with agenda := (ids.filter (fun id => (mget s2.owner (s2.task id).ctx.toNat).isNone)).map (fun id =>
          Act.ev (.planeSwap (s2.task id).ctx)) ++ s2.agenda }
    | .refuse c n => s1.refuse l.g ids c n
    | _ => s1.refuse l.g ids 0x28 []
/-- The task of the least number in gang-table order. -/
def firstIndex (ts : List (Nat × Task)) : Option (Nat × Task) :=
  ts.foldl (fun b p => match b with
    | none => some p
    | some q => if p.2.index < q.2.index then some p else b) none
/-- What a placement of a gang loads: its waiting tasks in gang-table order, or its first waiting child, one that is held at
step 3 before the others. -/
def State.underLoad (s : State) (g : Nat) : List Nat :=
  let x := s.gang g
  let mine := s.tasks.filter (fun p => p.2.gang == g && p.2.phase == .waiting)
  let kids := mine.filter (fun p => p.2.parent.isSome)
  let held := kids.filter (fun p => p.2.step3.isSome)
  match x.phase with
  | .waiting => (List.range x.size).flatMap (fun i => (mine.filter (fun p => p.2.parent.isNone && p.2.index == i)).map (·.1))
  | .placed => ((firstIndex (if held.isEmpty then kids else held)).map (·.1)).toList
  | .between => []
/-- The loader works on a gang. What waits holds nothing; what step 3 holds goes on there, and is refused once its
queue is disabled. -/
def State.loadGang (s : State) (g : Nat) : State :=
  let x := s.gang g
  let ids := s.underLoad g
  if x.size = 0 || ids.isEmpty || ids.all (fun id => (mget s.standby (s.task id).ctx.toNat).isSome && s.bookedAt (s.task id).ctx == id) then s
  else if ids.any (fun id => (s.task id).step3.isSome) then
    (if (s.queue x.queue.toNat).enable then Ld.finish { s := s, g := g, used := [] } ids else s.refuse g ids 0x28 [])
  else
    let found := if ids.all (fun id => (s.task id).parent.isSome) then s.room g (ids.map (fun id => { id := id }))
      else (s.readGang g ids).bind (fun r => r.1.room g r.2)
    match found with
    | .ok l => l.finish ids
    | .wait => s
    | .refuse c n => s.refuse g ids c n
    | .broken pa tag => (s.refuse g ids 0x30 [noteOf 0x30 0 0 0 pa]).memErrorAlone pa tag x.tenant
def execGangPlacement (g : Nat) (s : State) : Out := .next (s.loadGang g)

/-! ## PLANE_SWAP (R146, R148, R313) -/

/-- The leaves below a table: PTE and size. -/
def State.leavesFrom (s : State) : Nat → Nat → List (Nat × Nat)
  | 0, _ => []
  | n + 1, t => (s.tableEntries t (if n = 0 then 32 else 512)).flatMap (fun e =>
      if pteBit e.2 1 then [(e.2, leafSize (3 - n) e.2)] else s.leavesFrom n (e.2 / 256 % 2 ^ 44 * 256))
/-- Frames of a save area (R154). -/
def saveFrames : Nat := 688
/-- Whether some frame of a run is in use: placed by the loader, in another save area, or visible to a tenant. -/
def State.runUsed (s : State) (c : Ctx) (f : Nat) : Bool :=
  let meets := fun (a n : Nat) => decide (a < f + saveFrames) && decide (f < a + n)
  (s.framesHeld 0).any (meets · 1) ||
  s.berths.any (fun p => p.1 != c.toNat && ((p.2.save != 0 && meets (p.2.save.toNat / 65536) saveFrames) ||
    (p.2.area != 0 && meets (p.2.area.toNat / 65536) saveFrames))) ||
  s.saves.any (fun p => p.2.area != 0 && meets (p.2.area.toNat / 65536) saveFrames) ||
  (List.range s.regs.ctxCount.toNat).any (fun n => (s.ctxEntry n).ok &&
    (s.leavesFrom 4 (s.ctxEntry n).root).any (fun l => pteBit l.1 4 && meets (pteFrame l.1) (l.2 / 65536)))
/-- First frames of the runs that the hypervisor has mapped for save areas of a task's context: pages of device memory with
the context's owner tag, which no tenant sees and nothing else uses (R154). DESIGN CHOICE, log entry 60. -/
def State.saveRuns (s : State) (c : Ctx) (id : Nat) : List Nat :=
  let t := s.task id
  let own := (s.pagesFrom 4 (s.ctxEntry t.tenant.toNat).root 0).filter (fun q => t.owner != 0 && pteOwner q.2.2 == t.owner.toNat &&
    !pteBit q.2.2 4 && s.place (pteFrame q.2.2 * 65536) == .device)
  let fs := own.flatMap (fun q => (List.range (q.2.1 / 65536)).map (pteFrame q.2.2 * 65536 / q.2.1 * q.2.1 / 65536 + ·))
  fs.filter (fun f => f != 0 && (List.range saveFrames).all (fun n => fs.contains (f + n)) && !s.runUsed c f)
/-- First frame of the save area of a context: a free choice among them, or 0 where there is none. -/
def State.saveArea (s : State) (c : Ctx) (id seed : Nat) : Nat :=
  let rs := s.saveRuns c id
  rs.getD (seed % rs.length) 0
/-- Firmware writes a berth record; what the spec leaves to it is free (R148). DESIGN CHOICE, log entry 60. -/
def State.berthWrite (s : State) (c : Ctx) (id : Nat) (valid : Bool) : State :=
  let t := s.task id
  let q := s.queue t.queue.toNat
  let old := mget s.berths c.toNat
  let k := s.free
  { s with
    free := k + 3
    berths := mset s.berths c.toNat
      { task := BitVec.ofNat 32 id, queue := t.queue, tenant := t.tenant, cls := q.cls
        preempt := !q.holdOn || Config.pick k % 2 == 1, valid := valid
        slice := BitVec.ofNat 16 (Config.pick (k + 1) % 65535 + 1)
        save := BitVec.ofNat 64 (s.saveArea c id (Config.pick (k + 2)) * 65536)
        seqNo := old.seqNo + 2, acted := old.acted, area := old.area, wrote := s.cycle } }
/-- The record that brings a spilled context back names the save area that it lies in. -/
def State.berthBack (s : State) (c : Ctx) (id : Nat) : State :=
  let s1 := s.berthWrite c id true
  { s1 with berths := mmod s1.berths c.toNat (fun b => { b with save := (mget s.saves id).area }) }
/-- The store handles of a task. -/
def State.bindStores (s : State) (c : Ctx) (t : Task) : State :=
  t.image.stores.foldl (fun s d => match s.findStore t d with
    | some (_, pa) => { s with sst := mset s.sst (c.toNat * 4 + d.handle % 4) (BitVec.ofNat 64 (pa + 2 ^ 63)) }
    | none => s) { s with sst := mcut (c.toNat * 4) 4 s.sst }
/-- The last step of a load: report and berth records. -/
def State.loaded (s : State) (g id : Nat) : State :=
  let x := s.gang g
  if (s.task id).parent.isSome then ((s.keepFresh g).reportChild g).berthWrite (s.task id).ctx id true
  else if s.tasks.any (fun p => p.2.gang == g && p.2.phase == .waiting && p.2.parent.isNone) then s
  else
    let s1 := ((s.setGang g { x with phase := .placed }).keepFresh g).report g 0 x.notes
    (s1.tasks.filter (fun p => p.2.gang == g && p.2.phase == .placed)).foldl (fun s p => s.berthWrite p.2.ctx p.1 true) s1
/-- The standby plane of a partition becomes active, once no task runs, is frozen or uncommitted there, and its region is not
being measured (R383). -/
def State.swapPlane (s : State) (c : Ctx) : State :=
  let id := s.bookedAt c
  let t := s.task id
  match mget s.standby c.toNat with
  | none => s
  | some p =>
    if t.gang = 0 || t.phase != .waiting || (mget s.owner c.toNat).isSome || s.start.measuring.contains (regionOf c) then s
    else
      let s1 : State := { s with active := mset s.active c.toNat p, standby := mset s.standby c.toNat none
                                 owner := mset s.owner c.toNat (some id), booked := mset s.booked c.toNat none }
      ((s1.bindStores c t).setTask id { t with phase := .placed }).loaded t.gang id
def execPlaneSwap (c : Ctx) (s : State) : Out := .next (s.swapPlane c)
/-- Give up what step 2 found for a task that has not started. -/
def State.unplaceTask (s : State) (id : Nat) : State :=
  let t := s.task id
  let n := t.ctx.toNat
  let s1 := if t.phase == .placed then { (s.clearPartition t.ctx) with owner := mset s.owner n none }
    else if s.bookedAt t.ctx = id then { s with booked := mset s.booked n none, standby := mset s.standby n none } else s
  s1.setTask id { t with phase := .waiting, step3 := none, extents := [], streams := [] }
/-- A launch or a child that a retired region would have taken is loaded anew, on another region (R383). A launch gives up all
that step 2 found for it; what a child had mapped stays until its launch ends (log entry 55). -/
def State.unplace (s : State) (g : Nat) (ids : List Nat) : State :=
  let x := s.gang g
  if x.phase != .waiting then ids.foldl State.unplaceTask (s.dropFresh g)
  else
    let first := x.batch.all (·.iter == 0)
    let all := (s.tasks.filter (fun p => p.2.gang == g && p.2.parent.isNone)).map (·.1)
    let s1 := ((all.foldl State.unplaceTask s).dropFresh g).dropMaps g first
    let y := s1.gang g
    { (s1.setGang g { y with notes := [], raced := false, decls := if first then [] else y.decls }) with
      bars := (s1.bars.filter (fun p => p.2.gang == some g)).foldl (fun m p => mset m p.1 p.2.released) s1.bars }
/-- Everything that waits for a region that has been retired is loaded anew. -/
def State.leaveRegion (s : State) (r : Nat) : State :=
  let on := fun (p : Nat × Task) => regionOf p.2.ctx == r && s.bookedAt p.2.ctx == p.1 && p.2.phase == .waiting
  ((s.tasks.filter on).map (·.2.gang)).eraseDups.foldl (fun s' g =>
    s'.unplace g ((s.tasks.filter (fun p => on p && p.2.gang == g)).map (·.1))) s

/-! ## Identifiers (R75, R165) -/

/-- An identifier that no task holds; never 0 or all ones. DESIGN CHOICE, log entry 27. -/
def State.freshTask (s : State) : Nat :=
  (((List.range (s.tasks.length + 1)).map (fun k => (s.nextTask - 1 + k) % (2 ^ 32 - 2) + 1)).find? (fun n =>
    (s.task n).gang = 0)).getD 1
/-- A frame of the device-memory pool for a mailbox. -/
def State.mailFrame (s : State) : Option Nat :=
  let p := s.devicePool 0 (2 ^ 23)
  if p.2 = 0 then none else pickRun (s.framesHeld 0) p.1 p.2 1 1 (Config.pick s.free)
/-- A task of a gang, with its mailbox, empty (R165); none where the pool has no frame for it. DESIGN CHOICE, log
entries 27 and 45. -/
def State.newTask (s : State) (t : Task) : Option (State × Nat) :=
  s.mailFrame.map (fun f =>
    let id := s.freshTask
    let s1 := (({ s with nextTask := id + 1, free := s.free + 1 }).fillZero f 65536).setTask id { t with mailPa := f * 65536 }
    (s1.mailHead id, id))
/-- The tasks of a gang in gang-table order. -/
def State.newTasks (s : State) (g : Nat) : Option State :=
  let x := s.gang g
  (List.range x.size).foldl (fun s i => s.bind (fun s =>
    (s.newTask { gang := g, index := i, queue := x.queue, tenant := x.tenant, owner := (s.ctxEntry x.tenant.toNat).owner }).map
      (·.1))) (some s)

/-! ## BATCH_ITERATION (R163, R164) -/

/-- The snapshot of a batch table: an entry caught in an update keeps its copy of the previous iteration. -/
def snapshotOf (table prev : List Byte) : List Byte :=
  (List.range 64).flatMap (fun e =>
    let x := (table.drop (64 * e)).take 64
    if bytesAt x 0 4 % 2 = 1 then (prev.drop (64 * e)).take 64
    else x.take 4 ++ List.replicate 4 0 ++ (x.drop 8).take 56)
/-- Write bytes of a launch in its tenant context. -/
def State.ldWrite (s : State) (tenant : BitVec 16) (va : Nat) (bs : List Byte) : Load State :=
  match s.ldAcc tenant false .store va with
  | (s1, .ok pa _ _ _) => .ok (s1.write pa bs).1
  | _ => Load.no 0 0 0 va
/-- Take the snapshot of iteration n. A batch table that cannot be read or a snapshot that cannot be written refuses the launch
with 0x28. DESIGN CHOICE, log entry 88. -/
def State.takeSnapshot (s : State) (tenant : BitVec 16) (table n : Nat) : Load State :=
  (s.ldRead tenant 0 table 4096).bind (fun t =>
    (if n = 0 then .ok (t.1, List.replicate 4096 0) else t.1.ldRead tenant 0 (table + 4096 * (1 + (n + 1) % 2)) 4096).bind (fun p =>
      p.1.ldWrite tenant (table + 4096 * (1 + n % 2)) (snapshotOf t.2 p.2)))
/-- The next iteration of a batch is ready for its placement: new identifiers but for the first, the snapshot, and
arguments 4 and 5. -/
def State.nextIteration (s : State) (g : Nat) : State :=
  let x := s.gang g
  match x.batch with
  | none => s
  | some b =>
    if x.phase != .between then s
    else
      let first := !(s.members g).isEmpty
      let n := if first then b.iter else b.iter + 1
      let s1 := s.setGang g { x with phase := .waiting, batch := some { b with iter := n }, notes := [], raced := false
                                     args := x.args.take 4 ++ [BitVec.ofNat 64 (b.table + 4096 * (1 + n % 2)), BitVec.ofNat 64 n] }
      match if first then some s1 else s1.newTasks g with
      | none => s
      | some s2 => match s2.takeSnapshot x.tenant b.table n with
        | .ok s3 => s3
        | .refuse c ns => s2.refuseGang g c ns
        | .broken pa tag => (s2.refuseGang g 0x30 [noteOf 0x30 0 0 0 pa]).memErrorAlone pa tag x.tenant
        | .wait => s2
def execBatchIteration (g : Nat) (s : State) : Out := .next (s.nextIteration g)

end Sys2Proof.Machine
end

