-- ==== Sys2Proof/Machine/EvSeq.lean ====
section
/-!
DEFINITION. The events PENDING_WRITE_LANDS, GLOAD_COMPLETE, TSPAWN_REPLY and WAIT_TIMEOUT (R109, R122, R127, R296).
-/

namespace Sys2Proof.Machine

/-- The first write in flight of a thread that a test picks lands with a value. -/
def Thread.land (t : Thread) (p : Pend) (v : Word) (poison : Bool) : Thread :=
  { t.put p.d v poison with pend := t.pend.erase p }
/-- A value that was read lands in its register (R109). -/
def execPendingWriteLands (c : Ctx) (d : Reg) (s : State) : Out :=
  match (s.thr c).pend.find? (fun p => p.d == d && p.kind == .value) with
  | some p => .next (s.modThr c (fun t => t.land p p.v p.poison))
  | none => .next s
/-- The oldest `gload` in flight is decided, and its register lands (R296). -/
def execGloadComplete (c : Ctx) (s : State) : Out :=
  match (s.thr c).pend.find? (fun p => match p.kind with | .gload _ _ _ => true | _ => false) with
  | some p => (match p.kind with
    | .gload g _ pc =>
      let (s1, v) := s.gloadDecide c g pc
      .next (s1.modThr c (fun t => t.land p v false))
    | _ => .next s)
  | none => .next s

/-! ## TSPAWN_REPLY (R127) -/

/-- The child that the lockkeeper makes for a request: its header read and its demands rounded. An index without a child
image is refused as a child (DEDUCED, log entry 39). -/
def State.childOf (s : State) (id : Nat) (child : Nat) : Option Task :=
  let t := s.task id
  match t.image.children[child]? with
  | none => none
  | some (off, _) =>
    let base := t.kidsPa + off
    match readHeader (s.bytes base 256) with
    | none => none
    | some h =>
      let im := imageOf (h.sections.map (fun q => s.bytes (base + q.1) q.2))
      (({ gang := t.gang, queue := t.queue, tenant := t.tenant, owner := t.owner
          kidsPa := base + (h.sections.getD 11 (0, 0)).1 } : Task).withHeader h im).filter (fun k =>
        !demandFails im k.entries k.bank k.acc)
/-- The reply to a request: the identifier of the child, or 0, or all ones; none while the pool has no frame for its
mailbox. R127 orders its refusals no further than that: 32 tasks are tested first (DESIGN CHOICE, log entry 87). -/
def State.spawn (s : State) (id : Nat) (ts : Word) (child : Nat) (args : List Word) (pc : Word) : Option (State × Word) :=
  let t := s.task id
  let mine := s.tasks.filter (fun p => p.2.gang == t.gang && p.2.phase != .done)
  if mine.length ≥ 32 then some (s, 0)
  else if ts.toNat < t.ts.toNat then some (s, BitVec.allOnes 64)
  else match s.childOf id child with
    | none =>
      some (s.record { code := 0x28, gen := 0, task := BitVec.ofNat 32 id, addr := BitVec.ofNat 64 child, tenant := t.tenant
                       ctx := t.ctx, cmd := BitVec.ofNat 9 seqCmd, pos := pc }, BitVec.allOnes 64)
    | some k =>
      let n := (mine.map (·.2.index)).foldl max 0 + 1
      (s.newTask { k with ts := ts, args := args, parent := some (id, pc), childIx := child, index := n }).map (fun p =>
        (p.1, BitVec.ofNat 64 p.2))
def execTspawnReply (c : Ctx) (s : State) : Out :=
  match (s.thr c).pend.find? (fun p => match p.kind with | .spawn _ _ _ _ => true | _ => false) with
  | some p => (match p.kind with
    | .spawn ts child args pc =>
      (match s.spawn (s.taskAt c) ts child args pc with
      | some (s1, v) => .next (s1.modThr c (fun t => t.land p v false))
      | none => .next s)
    | _ => .next s)
  | none => .next s

/-! ## WAIT_TIMEOUT (R122) -/

/-- Cycles after which a `wait` ends by itself. -/
def waitLimit : Nat := 65536
def execWaitTimeout (c : Ctx) (s : State) : Out :=
  .next (s.modThr c (fun t => if t.idle.any (fun n => decide (n + waitLimit ≤ s.cycle)) then { t with woken := true } else t))

end Sys2Proof.Machine
end

