-- ==== Sys2Proof/Machine/EvHost.lean ====
section
/-!
DEFINITION. The host: REGISTER_WRITE, HOST_READ, HOST_WRITE, and the messages LAUNCH, BATCH_LAUNCH and
ATTENTION_RESUME with their admission (R137 to R140, R160, R163, R355, R366, R367, R384, R392).
-/

namespace Sys2Proof.Machine

/-- Answer a host access. -/
def State.reply (s : State) (ok : Bool) (bs : List Byte) : State := { s with out := s.out ++ [.reply ok bs] }
/-- Whether a range is one that a host access may name: 1 to 4,096 bytes within a 4 KiB page (R366). -/
def hostRange (pa n : Nat) : Bool := 1 ≤ n && n ≤ 4096 && pa / 4096 == (pa + n - 1) / 4096

/-! ## REGISTER_WRITE (R160) -/

/-- Write a register by its address; an error reply where no writable register lies there, or before Ready. -/
def State.hostReg (s : State) (pa : Nat) (bs : List Byte) : State :=
  if !s.start.ready then s.reply false []
  else match s.regPut pa bs with
    | some s1 => s1.reply true []
    | none => s.reply false []
def execRegisterWrite (addr : BitVec 52) (v : Word) (s : State) : Out :=
  .next (if s.place addr.toNat == .registers && addr.toNat % 8 == 0 then s.hostReg addr.toNat (leList 8 v.toNat)
    else s.reply false [])

/-! ## Owners of frames (R381) -/

/-- The leaves of the contexts whose pages hold a physical address, each with its context. -/
def State.leavesAt (s : State) (pa : Nat) : List (Nat × Nat) :=
  (List.range s.regs.ctxCount.toNat).flatMap (fun c =>
    let x := s.ctxEntry c
    if !x.ok then []
    else ((s.leavesFrom 4 x.root).filter (fun l => pteFrame l.1 * 65536 ≤ pa && pa < pteFrame l.1 * 65536 + l.2)).map (fun l => (l.1, c)))
/-- The first of them. DEDUCED, log entry 64. -/
def State.leafAt (s : State) (pa : Nat) : Option (Nat × Nat) := (s.leavesAt pa).head?
/-- Owner of a physical address in attention memory: that of the global entry whose page is the nearest at or below it,
within the greatest slot (R335, R339). DEDUCED, log entry 24. -/
def State.pageOwner (s : State) (pa : Nat) : Nat :=
  let es := (s.tableEntries s.regs.atgBase.toNat s.regs.atgSize.toNat).map (·.2)
  let hit := es.filter (fun e => decide (e / 4096 % 2 ^ 40 * 4096 ≤ pa) && decide (pa < e / 4096 % 2 ^ 40 * 4096 + 69632))
  (hit.foldl (fun (b : Nat × Nat) e => if b.1 ≤ e / 4096 % 2 ^ 40 then (e / 4096 % 2 ^ 40, e / 2 ^ 52 % 256) else b) (0, 0)).2
/-- A tenant context that carries an owner tag. -/
def State.ctxOfOwner (s : State) (tag : Nat) : Nat :=
  ((List.range s.regs.ctxCount.toNat).find? (fun c => (s.ctxEntry c).owner.toNat == tag)).getD 0
/-- Owner tag and context of a physical address; a private stack is its task's. -/
def State.ownerAt (s : State) (pa : Nat) : Nat × Nat :=
  if s.place pa == .attention then (s.pageOwner pa, s.ctxOfOwner (s.pageOwner pa))
  else match s.tasks.find? (fun p => p.2.gang != 0 && p.2.stackPa ≤ pa && pa < p.2.stackPa + p.2.stackLen) with
  | some p => (p.2.owner.toNat, p.2.tenant.toNat)
  | none => match s.leafAt pa with
    | some (p, c) => (pteOwner p, c)
    | none => (0, 0)

/-! ## HOST_READ and HOST_WRITE (R366, R384) -/

/-- Whether a register may be read before the start is ready. -/
def earlyReg (pa : Nat) : Bool := regBase + 0x500 ≤ pa && pa < regBase + 0x528
/-- A read by the host. DEDUCED, log entry 64. -/
def State.hostRead (s : State) (pa n : Nat) : State :=
  if !hostRange pa n || (!s.start.ready && !earlyReg pa) then s.reply false []
  else match s.place pa with
    | .registers => (match s.regBytes pa n with
      | some bs => s.reply true bs
      | none => s.reply false [])
    | .reserved => s.reply false []
    | _ =>
      if (s.leafAt pa).any (fun l => !pteBit l.1 10) then s.reply false (List.replicate n 0)
      else match (granulesOf pa n).find? (fun g => s.hardMem (64 * g)) with
        | some g =>
          let (tag, c) := s.ownerAt (64 * g)
          (s.memErrorAlone (64 * g) tag (BitVec.ofNat 16 c)).reply false (List.replicate n 0)
        | none => s.reply ((granulesOf pa n).all s.checkOk) (s.bytes pa n)
def execHostRead (addr : BitVec 52) (len : Nat) (s : State) : Out := .next (s.hostRead addr.toNat len)
/-- Addresses of the words of a range that were entries of dead pages and have Live set in another state (R255). -/
def State.raisedIn (s t : State) (pa n : Nat) : List Nat :=
  ((List.range ((pa % 8 + n + 7) / 8)).map (fun k => pa / 8 * 8 + 8 * k)).filter (fun a =>
    pteBit (s.word a) 0 && pteBit (s.word a) 1 && !pteBit (s.word a) 10 && pteBit (t.word a) 10)
/-- A write by the host. Entries of dead pages in which it sets Live are known until an invalidation covers them (R255). -/
def State.hostWrite (s : State) (pa : Nat) (bs : List Byte) : State :=
  if !hostRange pa bs.length || !s.start.ready then s.reply false []
  else match s.place pa with
    | .registers => s.hostReg pa bs
    | .reserved => s.reply false []
    | _ =>
      let (s1, bad) := s.write pa bs
      ({ s1 with raised := (s1.raised ++ s.raisedIn s1 pa bs.length).eraseDups } : State).reply bad.isEmpty []
def execHostWrite (addr : BitVec 52) (bs : List Byte) (s : State) : Out := .next (s.hostWrite addr.toNat bs)

/-! ## Arrival of a message (R137, R367) -/

/-- Slots of an admission buffer. -/
def bufferSize : Nat := 64
/-- A message reaches a queue: it enters the admission buffer or is refused at link level. An endpoint with a refused
message is refused until it sends that one again. -/
def State.arrive (s : State) (q : BitVec 8) (ep : Word) (msg : List Word) : State :=
  let x := s.queue q.toNat
  let owes := x.resend.find? (·.1 == ep)
  if !s.start.ready || !x.enable || x.msgs.length ≥ bufferSize || owes.any (·.2 != msg) then
    { (s.setQueue q.toNat { x with refused := x.refused + 1
                                   resend := if owes.isSome then x.resend else x.resend ++ [(ep, msg)] }) with
      out := s.out ++ [.refusal q ep] }
  else s.setQueue q.toNat { x with msgs := x.msgs ++ [(ep, msg)], resend := x.resend.filter (·.1 != ep) }
def execLaunch (q : BitVec 8) (ep : Word) (msg : List Word) (s : State) : Out := .next (s.arrive q ep msg)
def execBatchLaunch (q : BitVec 8) (ep : Word) (msg : List Word) (s : State) : Out := .next (s.arrive q ep msg)
def execAttentionResume (q : BitVec 8) (ep : Word) (msg : List Word) (s : State) : Out := .next (s.arrive q ep msg)

/-! ## Admission (R138 to R140, R163, R355, R392) -/

/-- A record of the lockkeeper with task 0. DESIGN CHOICE, log entry 49. -/
def State.lockRecord (s : State) (code : BitVec 8) (addr : Word) (tenant : BitVec 16) : State :=
  s.record { code := code, gen := 0, addr := addr, tenant := tenant, cmd := 0x1FF }
/-- Whether a message has an illegal kind or a reserved field that is not zero. -/
def badMessage (m : List Word) : Bool :=
  let w (n : Nat) := (m.getD n 0).toNat
  match w 0 % 256 with
  | 1 => w 0 / 2 ^ 14 % 4 != 0
  | 2 => w 0 / 2 ^ 14 % 4 != 0 || (List.range 6).any (fun i => w (2 + i) != 0)
  | 3 => w 0 / 2 ^ 14 % 4 != 0 || w 7 / 2 ^ 24 != 0
  | _ => true
/-- The descriptor that a resume names fails its check, or is past correction: the gang of its parked command ends with
0x14, or the context of that gang; with no command parked there is a record of 0x14 alone (R335). DEDUCED, log entry 24. -/
def State.resumeBad (s : State) (desc : Nat) (h : Word) (tenant : BitVec 16) : State :=
  let hard := (granulesOf desc 256).any (fun g => s.hardMem (64 * g))
  match s.atRun.findIdx? (fun a => a.desc == desc && a.wait == .parked) with
  | some i =>
    let a := s.atOf i
    if hard then s.memError (s.task a.task).ctx desc (s.task a.task).owner.toNat a.cmd 0 (BitVec.ofNat 64 a.row)
    else s.atEnd i 0x14 desc a.row
  | none => if hard then s.memErrorAlone desc 0 tenant else s.lockRecord 0x14 h tenant
/-- A resume (R355). -/
def State.resume (s : State) (h : Word) (tenant : BitVec 16) : State :=
  let desc := atBase + h.toNat % 2 ^ 30 * 256
  let w0 := s.word desc
  if h.toNat / 2 ^ 40 != 0 || h.toNat / 2 ^ 30 % 1024 != s.pkgId.toNat then s.lockRecord 0x22 h tenant
  else if (granulesOf desc 256).any (fun g => s.hardMem (64 * g) || !s.checkOk g) then s.resumeBad desc h tenant
  else if !(s.ctxEntry tenant.toNat).ok || s.word (desc + 16) % 2 ^ 16 != tenant.toNat then s.lockRecord 0x31 h tenant
  else if !pteBit w0 3 then s
  else
    let s1 := (s.updateWord desc (w0 - 8)).updateWord (desc + 24) 0
    { s1 with atRun := s1.atRun.map (fun a => if a.desc == desc && a.wait == .parked then { a with wait := .ready } else a) }
/-- A launch or batch launch makes its gang, with the identifiers and mailboxes of its tasks; none while the pool lacks
frames for the mailboxes. A pool that could never hold them refuses the launch (R391). A batch table that is not
aligned to 4 KiB refuses it too (DESIGN CHOICE, log entry 74). -/
def State.makeGang (s : State) (q : BitVec 8) (m : List Word) : Option State :=
  let w (n : Nat) := (m.getD n 0).toNat
  let g := s.nextGang
  let batch := w 0 % 256 == 3
  let tenant : BitVec 16 := BitVec.ofNat 16 (w 0 / 2 ^ 16)
  let count := w 7 % 2 ^ 24
  let x : Gang := { queue := q, tag := BitVec.ofNat 32 (w 0 / 2 ^ 32), permissive := w 0 / 256 % 2 == 1, tenant := tenant
                    size := w 0 / 2 ^ 9 % 32 + 1, table := w 1, args := (m.drop 2).take 6
                    batch := if batch then some { table := w 6, count := count, iter := 0 } else none
                    phase := if batch then .between else .waiting }
  let s1 := ({ s with nextGang := g + 1 }).setGang g x
  if !(s.ctxEntry tenant.toNat).ok || (batch && w 6 % 4096 != 0) then some (s1.refuseGang g 0x28 [])
  else if batch && count == 0 then some ((s1.releaseGang g).notify q.toNat 1 0 x.tag 0 0)
  else if (s.devicePool 0 (2 ^ 23)).2 < x.size then some (s1.refuseGang g 0x28 [])
  else s1.newTasks g
/-- The lockkeeper takes the oldest message of a queue, unless its gang must wait for mailboxes. -/
def State.takeMsg (s : State) (q : BitVec 8) : State :=
  let x := s.queue q.toNat
  match x.msgs with
  | [] => s
  | (_, m) :: rest =>
    let s1 := s.setQueue q.toNat { x with msgs := rest }
    let w0 := m.getD 0 0
    let tenant : BitVec 16 := BitVec.ofNat 16 (w0.toNat / 2 ^ 16)
    if badMessage m then (s1.lockRecord 0x01 0 tenant).notify q.toNat 5 0 (BitVec.ofNat 32 (w0.toNat / 2 ^ 32)) 0x01 0
    else if w0.toNat % 256 = 2 then s1.resume (m.getD 1 0) tenant
    else (s1.makeGang q m).getD s

end Sys2Proof.Machine
end

