-- ==== Sys2Proof/Machine/EvDispatch.lean ====
section
/-!
DEFINITION. Dispatch and pre-emption: SPILL, RESTORE, FREEZE, DRAIN_END, SLICE_END, STALL_TIMEOUT and
COALESCE_WINDOW_CLOSE (R109, R148 to R155, R162, R224, R227, R283, R298).
-/

namespace Sys2Proof.Machine

def State.disp (s : State) (r : Nat) : Disp := mget s.disps r
def State.setDisp (s : State) (r : Nat) (x : Disp) : State := { s with disps := mset s.disps r x }
def State.berth (s : State) (c : Ctx) : Berth := mget s.berths c.toNat
/-- A record or word is stable and has not been acted on (R149). -/
def stable (seq acted : W32) : Bool := !seq.getLsbD 0 && seq != acted
def State.actBerth (s : State) (c : Ctx) : State :=
  { s with berths := mmod s.berths c.toNat (fun b => { b with acted := b.seqNo, area := b.save }) }
/-- The context that a region serves in this real cycle. -/
def State.served (s : State) (r : Nat) : Option Ctx :=
  let d := s.disp r
  if s.cycle ≤ d.drain then none else d.live.map (ctxOf r)
/-- The context that issues in a region in this real cycle; a task frozen at a breakpoint does not (R156). -/
def State.issuing (s : State) (r : Nat) : Option Ctx := (s.served r).filter (fun c => (s.thr c).held != .debug)

/-! ## SPILL (R155) -/

/-- The earliest link operation that a register waits for and that has not left. DEDUCED, log entry 56. -/
def State.unleft (s : State) (c : Ctx) : Option LinkOp :=
  (s.task (s.taskAt c)).links.find? (fun o => !o.left && (s.thr c).pend.any (fun p => p.kind == .link o.num))
/-- Withdraw the link operations from that one on; the saved pc points at it (R109). DEDUCED, log entry 56. -/
def State.withdraw (s : State) (c : Ctx) : State :=
  match s.unleft c with
  | none => s
  | some o =>
    let gone := fun (x : LinkOp) => !x.left && x.kind != .coll && o.num ≤ x.num
    let nums := ((s.task (s.taskAt c)).links.filter gone).map (·.num)
    (s.modTask (s.taskAt c) (fun t => { t with links := t.links.filter (fun x => !gone x) })).modThr c (fun t =>
      { t with pc := o.pc, pend := t.pend.filter (fun p => match p.kind with | .link n => !nums.contains n | _ => true) })
/-- Whether a port transfer of a command is in flight (R155): a beat that it reads into a latch with room, or one that it
has taken and not delivered. A held command has none. -/
def State.moving (s : State) (c : Ctx) (k : Nat) : Bool :=
  let x := s.run c k
  let reads := fun (i : Instr) (total : Nat) => decide (x.done < total) &&
    (latchElem i).all (fun e => decide (s.latched c e < latchSize))
  let taken := (mget x.taken x.done).isSome
  x.st == .running && (match x.ins with
    | some (.sIn r) => reads (.sIn r) (StreamRec.beats r false)
    | some (.sInPlane _) => !x.part.isEmpty
    | some (.sGath r) => reads (.sGath r) (StreamRec.dataBeats r) && (StreamRec.beatIx r x.done).all (fun j => (x.index j).isSome)
    | some (.whFilt r) => reads (.whFilt r) (nestN [r.l1, r.l2, r.l3])
    | some (.camGath r) => reads (.camGath r) (CamRec.iters r)
    | some (.camGathDepth r) => (mget x.idx (x.f / 4)).isSome && reads (.camGathDepth r) (CamRec.iters r)
    | some (.camProj r) => (mget x.idx x.done).isSome && reads (.camProj r) (CamRec.iters r)
    | some (.camScat r) => let n := (s.storeOf c r).beats
      decide (x.done < CamRec.iters r) && (List.range n).all (fun j => (mget x.taken (x.done * n + j)).isSome)
    | some (.sOut _) | some (.sCopy _) => taken
    | some (.sScat r) => taken && (StreamRec.beatIx r x.done).all (fun j => (x.index j).isSome)
    | _ => false)
/-- Whether a context may be spilled: it is frozen and drained, its port transfers, bank writes and reads have landed, what
it sent over the link for a register has come back, and its lock-link entries are available. -/
def State.canSpill (s : State) (c : Ctx) : Bool :=
  let id := s.taskAt c
  let d := s.disp (regionOf c)
  (s.task id).phase == .resident && d.drain == 0 && d.live != some (c.toNat % 2 == 1) &&
    (s.thr c).pend.all (fun p => match p.kind with
      | .link n => (s.task id).links.any (fun o => o.num == n && !o.left)
      | _ => false) &&
    s.planeQ.all (·.c != c) && s.bankQ.all (·.c != c) && (List.range (s.tableLen c)).all (fun k => !s.moving c k) &&
    (s.links.filter (fun p => p.1 / 2048 == c.toNat)).all (fun p => p.2.all (·.avail))
/-- What a save area holds of a context. -/
def State.saveOf (s : State) (c : Ctx) : Save :=
  let n := c.toNat
  { area := (s.berth c).area, at' := s.cycle, thr := s.thr c, plane := s.plane c
    elems := mslice (n * 512) 512 s.elems
    bank := mslice (n * 2097152) 2097152 s.bank
    bankMeta := mslice (n * 524288) 524288 s.bankMeta
    isls := mslice (n * 64) 64 s.isls
    links := mslice (n * 2048) 2048 s.links
    cmdTab := mslice (n * 256) 256 s.cmdTab
    runs := mslice (n * 256) 256 s.runs
    acc := mslice (n * 262144) 262144 s.acc
    tileA := mget s.tileA n, tileS := mget s.tileS n
    slots := mslice (n * 16) 16 s.slots
    cams := mslice (n * 8) 8 s.cams
    sst := mslice (n * 4) 4 s.sst
    atq := mget s.atq n }
/-! ## The save area in memory (R154) -/

/-- Offset and size of the sections that follow the header. -/
def saveSections : List (Nat × Nat) :=
  [(0x1000, 0x400), (0x1400, 0x400), (0x1800, 0x800), (0x2000, 0x1000), (0x3000, 0x1000), (0x4000, 0x4000), (0x8000, 0x1000),
   (0x9000, 0x40000), (0x49000, 0xB7000), (0x100000, 0x180000), (0x280000, 0x400000), (0x680000, 0x100000),
   (0x780000, 0x100000), (0x880000, 0x80000), (0x900000, 0x200000), (0xB00000, 0x2000000)]
/-- The header: magic, version, total size, and the sections (R154). DESIGN CHOICE, log entry 13. -/
def saveHeader : List Byte :=
  leList 4 0x5641534B ++ leList 4 1 ++ words (saveSize :: saveSections.flatMap (fun p => [p.1, p.2]))
/-- The system registers 0x000 to 0x008 and 0x100 to 0x108. -/
def State.saveSys (s : State) (c : Ctx) : List Byte :=
  words ((List.range 9).map (fun n => (s.sysRead c n).toNat) ++ List.replicate 55 0 ++
    (List.range 9).map (fun n => (s.sysRead c (0x100 + n)).toNat) ++ List.replicate 55 0)
/-- The sequencer registers: g0 to g31, `pc`, mode, pending mask, poison mask, 8 bytes each in that order.
DEDUCED, log entry 13. -/
def State.saveSeq (s : State) (c : Ctx) : List Byte :=
  let t := s.thr c
  words ((List.range 32).map (fun r => (t.get (BitVec.ofNat 5 r)).toNat) ++ [t.pc.toNat, t.sup.toNat,
    ((List.range 32).map (fun r => if t.pending (BitVec.ofNat 5 r) then 2 ^ r else 0)).sum, t.poison.toNat])
/-- The islands, 32 bytes each. DESIGN CHOICE, log entry 13. -/
def State.saveIsl (s : State) (c : Ctx) (i : Nat) : List Byte :=
  let x := s.isl c i
  let d := (s.plane c).isls.getD i {}
  fitBytes 32 (Config.saveIsland x.ctr x.left x.schedB (d.hasB && (s.elem c (d.selRow * 32 + d.selCol)).flag) x.running x.finished)
def State.saveIsls (s : State) (c : Ctx) : List Byte := (List.range 64).flatMap (s.saveIsl c)
/-- A camera register (R309). -/
def camImage (x : Cam) : List Byte :=
  let w := fun n => (mget x.f n).toNat
  (List.range 28).flatMap (fun n => leList 4 (w n)) ++ leList 2 (w 28) ++ leList 2 (w 29) ++ leList 4 (w 30 % 32) ++
    (List.range 3).flatMap (fun n => leList 4 (w (31 + n))) ++ [BitVec.ofNat 8 (w 34), 0] ++ leList 2 x.version.toNat ++
    List.replicate 120 0
/-- A loom slot (R298). -/
def slotImage (x : Slot) : List Byte :=
  words ([x.image, x.first % 128 + 2 ^ 8 * x.bays + 2 ^ 16 * x.resident.toNat + 2 ^ 17 * x.sticky.toNat + 2 ^ 18 * x.graph.strict.toNat] ++
    List.replicate 6 0)
/-- The loop levels of a command that its stream-state entry counts, innermost first (R239, R262). -/
def loopsOf : Instr → List Lvl
  | .sIn r | .sInPlane r | .sOut r => StreamRec.levels r false
  | .sCopy r => StreamRec.levels r true
  | .sGath r | .sScat r => [r.l1]
  | .whRed r => [r.bags, r.inds]
  | .whFilt r => [r.l1, r.l2, r.l3]
  | .mxEpi r => [r.l1]
  | .mxZero r => [r.l1]
  | .mxDrain r => [r.l1]
  | .mxStep r => [r.l1, r.l2]
  | .gRun r => [{ count := r.vectors }]
  | .camGath r | .camGathDepth r | .camScat r | .camProj r => [r.l1, r.l2, r.l3, r.l4, r.l5]
  | _ => []
/-- The next flat iteration of a command whose levels count iterations; an indirect command counts index beats, a read beat
in progress the iterations it has read. -/
def nextFlat (i : Instr) (x : CmdRun) : Nat :=
  match i with
  | .sIn r | .sCopy r => x.f + x.part.length / StreamRec.bytes r
  | .sGath r => (x.f + x.part.length / StreamRec.bytes r) / 4
  | .sScat _ => x.f / 4
  | .gRun _ | .mxEpi _ | .mxZero _ => x.done
  | .mxStep r => x.f / MxStepRec.bpr r
  | .mxDrain r => x.f / (1 + r.wide.toNat)
  | _ => x.f
/-- The next iteration of a command, level 1 first: `wh.red` counts bags at level 1 and indices at level 2. -/
def nextIters (i : Instr) (x : CmdRun) : List Nat :=
  match i with
  | .whRed r => if x.f < r.inds.count.toNat then [x.done, x.f] else [x.done + 1, 0]
  | _ => ((loopsOf i).foldl (fun (p : List Nat × Nat) l =>
      (p.1 ++ [p.2 % max 1 l.count.toNat], p.2 / max 1 l.count.toNat)) ([], nextFlat i x)).1
/-- The stream-state entry of a command (R262, R283, R358). -/
def State.saveCmd (s : State) (c : Ctx) (k : Nat) : List Byte :=
  let x := s.run c k
  let queued := (mget s.atq c.toNat).any (fun q => q.cmd == k)
  let st := if queued then 1 else match x.st with
    | .notStarted => 0
    | .running => 1
    | .held => 2
    | .ended => 3
  let it := (x.ins.map (fun i => nextIters i x)).getD []
  let tile := fun (t : Option Tile) => t.any (fun t => t.whole && t.cmd == k)
  words ((List.range 5).map (fun n => it.getD n 0 % 2 ^ 24) ++
    [min 65535 (if x.live then s.since c k else 0) + 2 ^ 16 * st, x.heldAt, (tile (mget s.tileA c.toNat)).toNat + 2 * (tile (mget s.tileS c.toNat)).toNat])
/-- A capture in 24 bytes (R226). -/
def capImage (x : Cap) : List Byte :=
  leList 16 x.data.toNat ++ leList 5 x.side.toNat ++ [BitVec.ofNat 8 x.pend.toNat, 0, 0]
/-- A control capture in 8 bytes (R226). -/
def ccapImage (x : CCap) : List Byte := leList 8 (x.tok.toNat + 2 ^ 32 * x.poison.toNat + 2 ^ 33 * x.pend.toNat)
/-- The delay-line record of an element (R226, R227). -/
def State.saveElem (s : State) (c : Ctx) (e : Nat) : List Byte :=
  let x := s.elem c e
  let line := fun (l : List Cap) => (List.range 16).flatMap (fun n => capImage (l.getD n {}))
  leList 16 x.res.data.toNat ++ leList 5 x.res.side.toNat ++ List.replicate 11 0 ++
  leList 8 (x.cres.tok.toNat + 2 ^ 32 * x.cres.poison.toNat) ++ leList 8 (x.q.toNat + 2 ^ 32 * x.qPoison.toNat) ++
  leList 8 (x.flag.toNat + 2 * x.flagPoison.toNat) ++ leList 8 x.rand.toNat ++
  [x.ln, x.le, x.ls, x.lw, x.ll, x.lm].flatMap line ++ (List.range 16).flatMap (fun n => ccapImage (x.lc.getD n {})) ++
  (List.range 16).flatMap (fun n => leList 16 (mget (s.cfg c e).consts n).toNat) ++
  (List.range 4).flatMap (fun d => fitBytes 64 ((mget s.links (4 * eKey c e + d)).flatMap (fun l => ccapImage l.cc))) ++ List.replicate 64 0
/-- The beats in the latches of a port's two elements, 16 bytes each in their order. DEDUCED, log entry 13. -/
def State.saveLatch (s : State) (c : Ctx) (port : Nat) : List Byte :=
  [false, true].flatMap (fun edge => fitBytes 32768 ((List.range (s.tableLen c)).flatMap (fun k =>
    if ((s.run c k).ins.bind latchElem) == some (portElem port edge) then
      (s.run c k).latch.flatMap (fun p => leList 16 ((p.2.map (fun (x : Cap) => x.data)).getD 0).toNat)
    else [])))
/-- The granules that the hold of a task keeps, up to its 32,768 slots. -/
def Task.holdGranules (t : Task) : List Nat := ((t.hold.map (fun p => p.1 / 64)).eraseDups).take holdSize
/-- Metadata of a bank line in bits 8:0, with its parity, and owned in bit 15. -/
def BankMeta.word (m : BankMeta) (owned : Bool) : Nat :=
  let v := m.owner.toNat + 16 * m.guard.toNat + 32 * m.span.toNat
  v + 256 * (((List.range 8).map (fun i => v / 2 ^ i % 2)).sum % 2) + 32768 * owned.toNat
def State.ownsLine (s : State) (c : Ctx) (e line : Nat) : Bool :=
  (mget s.bankMeta (eKey c e * 1024 + line)).owner == (s.task (s.taskAt c)).tag && (s.task (s.taskAt c)).tag != 0
/-- The words that R154 places, by offset: the owned bank lines and the granted accumulator columns come last. -/
def State.saveWords (s : State) (c : Ctx) : List (Nat × List Byte) :=
  let t := s.task (s.taskAt c)
  [(0, saveHeader), (0x1000, s.saveSeq c), (0x1400, s.saveSys c), (0x1800, s.saveIsls c),
   (0x2000, (List.range 8).flatMap (fun n => camImage (mget s.cams (c.toNat * 8 + n))) ++
      words ((List.range 4).map (fun k => (mget s.sst (c.toNat * 4 + k)).toNat))),
   (0x3000, (List.range 16).flatMap (fun n => slotImage (mget s.slots (c.toNat * 16 + n)))),
   (0x4000, (List.range 256).flatMap (s.saveCmd c)),
   (0x8000, fitBytes 24 (Config.saveLay ((t.lays.map (·.slot)).headD 0) ((t.lays.map (·.slot)).getLastD 0) s.fb.gen.toNat)),
   (0x9000, t.holdGranules.flatMap (fun g => fitBytes 8 (Config.saveHold g (((t.hold.filter (fun p => p.1 / 64 == g)).map (fun p => 2 ^ (p.1 % 64))).sum)))),
   (abortMark, List.replicate 64 0),
   (0x900000, t.holdGranules.flatMap (fun g => (List.range 64).map (fun n => (mget t.hold (64 * g + n)).getD 0)))] ++
  (List.range 512).map (fun e => (0x100000 + 3072 * e, s.saveElem c e)) ++
  (List.range 8).map (fun p => (0x880000 + 65536 * p, s.saveLatch c p)) ++
  (List.range 512).map (fun e => (0x280000 + 8192 * e, words ((((s.cfg c e).entA ++ (s.cfg c e).entB).take 1024).map BitVec.toNat))) ++
  (List.range 512).map (fun e => (0x680000 + 2048 * e, (List.range 1024).flatMap (fun l =>
    leList 2 ((mget s.bankMeta (eKey c e * 1024 + l)).word (s.ownsLine c e l))))) ++
  (List.range (min 256 (s.task (s.taskAt c)).acc)).map (fun col => (0x780000 + 4096 * col, (List.range 1024).flatMap (fun row =>
    leList 4 (s.accAt c row col).toNat))) ++
  (List.range 512).flatMap (fun e => ((List.range 1024).filter (s.ownsLine c e)).map (fun l =>
    (0xB00000 + 65536 * e + 64 * l, (List.range 4).flatMap (fun i => leList 16 (mget s.bank (beatKey c e (64 * l + 16 * i))).toNat))))
/-- Parts of which the task may leave words unwritten (R155): offset and size. What `saveWords` does not place in them is
free. -/
def saveOpen : List (Nat × Nat) := [(0x1100, 0x300), (0x1800, 0x47800), (0x100000, 0x180000), (0x880000, 0x280000)]
/-- Memory with the save area of a context at a physical address. -/
def State.saveMem (s : State) (c : Ctx) (pa : Nat) : SMap Byte :=
  (s.saveWords c).foldl (fun m p => putBytes m (pa + p.1) p.2)
    (saveOpen.foldl (fun m p => msplice (pa + p.1) p.2 (freeSlice (s.free + p.1) p.2) m) s.mem)
/-- Granules of a save area that are written. -/
def State.saveGranules (s : State) (c : Ctx) (pa : Nat) : List Nat :=
  (saveOpen ++ (s.saveWords c).map (fun p => (p.1, p.2.length))).flatMap (fun p => granulesOf (pa + p.1) p.2)
/-- The checks that go with a memory, made anew for some granules. -/
def remakeAll (m : SMap Byte) (gs : List Nat) (k : SMap (BitVec 16)) : SMap (BitVec 16) :=
  gs.foldl (fun k g => mset k g (crc16 (byteList (mget m) (64 * g) 64))) k
/-- Write the save area of a context, with its checks (R154; log entry 13). -/
def State.writeSave (s : State) (c : Ctx) (pa : Nat) : State :=
  if s.areaOk pa then
    { s with mem := s.saveMem c pa, checks := remakeAll (s.saveMem c pa) (s.saveGranules c pa) s.checks
             free := s.free + saveSize }
  else s

/-- A berth record whose valid bit fell spills the context of its partition. -/
def State.spill (s : State) (c : Ctx) : State :=
  let b := s.berth c
  if !stable b.seqNo b.acted || b.valid then s
  else if (s.task (s.taskAt c)).phase != .resident then s.actBerth c
  else if !s.canSpill c then s
  else
    let id := s.taskAt c
    let s0 := s.withdraw c
    let s1 := (s0.writeSave c b.area.toNat).actBerth c
    let s2 := s1.modTask id (fun t => { t with phase := .spilled })
    let s3 : State := { s2 with saves := mset s2.saves id (s0.saveOf c), owner := mset s2.owner c.toNat none }
    s3.clearPartition c
def execSpill (c : Ctx) (s : State) : Out := .next (s.spill c)

/-! ## RESTORE (R149, R155) -/

/-- A weight tile is reloaded from the memory its command names; a running load begins again with its first byte (R283). -/
def State.reloadTile (s : State) (c : Ctx) (t : Option Tile) : State × Option Tile :=
  match t with
  | none => (s, none)
  | some x =>
    if !x.whole then (s.putRun c x.cmd (fun y => { y with f := 0, part := [] }), some x)
    else
    let va := s.vaOf c x.cmd 6 0
    match s.engRead (s.taskAt c) x.cmd 0 false false va (tileBytes x.fmt.toNat x.blk.toNat x.kb x.nb) with
    | (s1, bs, .none) => (s1, some { x with bytes := bs.map (·.1) })
    | (s1, _, _) => (s1, some x)
/-- A run goes on after a restore: its bounds do not count the time in the save area. -/
def CmdRun.shift (n : Nat) (x : CmdRun) : CmdRun := if x.live then { x with startReal := x.startReal + n } else x
/-- A resident slot is reloaded from the image that its record names, into the same bays and with its sticky flag
(R155, R298). -/
def State.reloadSlot (s : State) (x : Slot) : Slot :=
  if !x.resident then x
  else match readGraph (s.graphBytes x.image).1 with
    | some g => { x with graph := g }
    | none => x
/-- Put a saved context back into its partition. -/
def State.putBack (s : State) (c : Ctx) (x : Save) : State :=
  let n := c.toNat
  { s with
    threads := mset s.threads n x.thr
    active := mset s.active n x.plane
    elems := msplice (n * 512) 512 x.elems s.elems
    bank := msplice (n * 2097152) 2097152 x.bank s.bank
    bankMeta := msplice (n * 524288) 524288 x.bankMeta s.bankMeta
    isls := msplice (n * 64) 64 x.isls s.isls
    links := msplice (n * 2048) 2048 x.links s.links
    cmdTab := msplice (n * 256) 256 x.cmdTab s.cmdTab
    runs := msplice (n * 256) 256 (mapVals (CmdRun.shift (s.cycle - x.at')) x.runs) s.runs
    acc := msplice (n * 262144) 262144 x.acc s.acc
    slots := msplice (n * 16) 16 (mapVals s.reloadSlot x.slots) s.slots
    cams := msplice (n * 8) 8 x.cams s.cams
    sst := msplice (n * 4) 4 x.sst s.sst
    atq := mset s.atq n x.atq }
/-! ### What a restore reads of the save area (R149, R154, R155, R226, R227, R298) -/

def mapKeys {α : Type} [Inhabited α] [DecidableEq α] (f : Nat → α → α) (m : SMap α) : SMap α :=
  (mkeys m).foldl (fun m k => mmod m k (f k)) m
/-- n bytes as a number. -/
def State.num (s : State) (pa n : Nat) : Nat := leVal (s.bytes pa n)
/-- Whether the save area of a task marks it as aborted (R155). -/
def State.abortMarked (s : State) (id : Nat) : Bool :=
  let a := (mget s.saves id).area.toNat
  if s.areaOk a then s.byte (a + abortMark) != 0 else (s.task id).marked
/-- The thread of a save area: registers, pc, mode, poison, and the system registers that hold state of their own. -/
def State.areaThread (s : State) (c : Ctx) (pa : Nat) (t : Thread) : Thread :=
  let w := fun (o : Nat) => BitVec.ofNat 64 (s.word (pa + o))
  { t with g := (List.range 31).foldl (fun m r => mset m (r + 1) (w (0x1008 + 8 * r))) []
           pc := w 0x1100 &&& ~~~(3 : Word), sup := (w 0x1108).getLsbD 0, poison := (w 0x1118).setWidth 32
           cyc := w 0x1400, bounces := w 0x1430, prevSup := (w 0x1600).getLsbD 1, nested := (w 0x1600).getLsbD 2
           epc := w 0x1608, ecause := (w 0x1610).setWidth 8, earg := w 0x1618
           evec := if w 0x1620 = s.sysRead c 0x104 then t.evec else some (w 0x1620 &&& ~~~(3 : Word)), escr := w 0x1628 }
/-- An island whose bytes are those that the spill wrote stays as it was; R154 does not place the fields of another. -/
def State.areaIsl (s : State) (c : Ctx) (pa i : Nat) : Isl :=
  let bs := s.bytes (pa + 0x1800 + 32 * i) 32
  let x := s.isl c i
  if bs = s.saveIsl c i then x
  else
    let (ctr, left, schedB, started, finished) := Config.readIsland bs
    { x with ctr := ctr, left := left, schedB := schedB, running := started, finished := finished }
/-- A camera register (R309). -/
def State.areaCam (s : State) (pa n : Nat) : Cam :=
  let v := fun (o k : Nat) => BitVec.ofNat 32 (s.num (pa + 0x2000 + 256 * n + o) k)
  { f := ((List.range 28).map (fun k => (k, v (4 * k) 4)) ++ [(28, v 112 2), (29, v 114 2), (30, v 116 1 &&& 31), (31, v 120 4),
      (32, v 124 4), (33, v 128 4), (34, v 132 1)]).foldl (fun (m : SMap (BitVec 32)) (p : Nat × BitVec 32) => mset m p.1 p.2) []
    version := (v 134 2).setWidth 16 }
/-- A loom slot from its record, reloaded from the image that the record names. -/
def State.areaSlot (s : State) (c : Ctx) (pa k : Nat) : Slot :=
  let w := s.word (pa + 0x3008 + 64 * k)
  let x := s.slot c k
  if !pteBit w 16 then { x with resident := false, sticky := false }
  else s.reloadSlot { x with image := s.word (pa + 0x3000 + 64 * k), first := w % 128, bays := w / 2 ^ 8 % 256, resident := true
                             sticky := pteBit w 17 }
/-- The flat iteration of an iteration vector (R239). -/
def flatIter : List Lvl → List Nat → Nat
  | l :: ls, n :: ns => n + l.count.toNat * flatIter ls ns
  | _, _ => 0
/-- A run that goes on at another iteration than it was saved at. -/
def CmdRun.goTo (x : CmdRun) (i : Instr) (its : List Nat) : CmdRun :=
  let n := flatIter (loopsOf i) its
  match i with
  | .sIn r | .sOut r | .sCopy r => { x with f := n, done := n / StreamRec.perBeat r, part := [] }
  | .sGath r | .sScat r => { x with f := 4 * n, done := if r.esize = 4 then 4 * n else n, part := [] }
  | .whRed _ => { x with f := its.getD 1 0, done := its.getD 0 0, part := [] }
  | .gRun _ | .mxEpi _ | .mxZero _ => { x with f := 0, done := n, part := [] }
  | .mxStep r => { x with f := n * MxStepRec.bpr r }
  | .mxDrain r => { x with f := n * (1 + r.wide.toNat) }
  | _ => { x with f := n, done := n, part := [] }
/-- A command from its stream-state entry (R262): one whose bytes are those that the spill wrote goes on as it was. -/
def State.areaCmd (s : State) (c : Ctx) (pa k : Nat) (x : CmdRun) : CmdRun :=
  let a := pa + 0x4000 + 64 * k
  if s.bytes a 64 = s.saveCmd c k then x
  else
    let w := s.word (a + 40)
    let its := (List.range 5).map (fun n => s.word (a + 8 * n) % 2 ^ 24)
    match x.ins, w / 2 ^ 16 % 16 with
    | none, _ | _, 0 => { x with st := .notStarted }
    | some _, 3 => { x with st := .ended }
    | some i, n => { x.goTo i its with st := if n = 2 then .held else .running, heldAt := s.word (a + 48)
                                       startCtr := (s.islOfCmd c i).ctr - w % 2 ^ 16 }
/-- A capture of 24 bytes, and a control capture (R226). -/
def State.areaCap (s : State) (a : Nat) : Cap :=
  { data := BitVec.ofNat 128 (s.num a 16), side := BitVec.ofNat 36 (s.num (a + 16) 5), pend := (s.byte (a + 21)).getLsbD 0 }
def State.areaCCap (s : State) (a : Nat) : CCap :=
  let w := s.word a
  { tok := BitVec.ofNat 32 w, poison := pteBit w 32, pend := pteBit w 33 }
/-- Address of the delay-line record of an element, and line k of it (N, E, S, W, L, M). -/
def areaElemAt (pa e : Nat) : Nat := pa + 0x100000 + 3072 * e
def State.areaLine (s : State) (a k : Nat) : List Cap := (List.range 16).map (fun n => s.areaCap (a + 0x40 + 384 * k + 24 * n))
/-- An element from its delay-line record (R226). -/
def State.areaElem (s : State) (pa e : Nat) (x : Elem) : Elem :=
  let a := areaElemAt pa e
  let r := s.areaCap a
  let cr := s.areaCCap (a + 0x20)
  let q := s.areaCCap (a + 0x28)
  let fl := s.byte (a + 0x30)
  { x with res := { r with pend := x.res.pend }, cres := { cr with pend := x.cres.pend }, q := q.tok, qPoison := q.poison
           flag := fl.getLsbD 0, flagPoison := fl.getLsbD 1, rand := BitVec.ofNat 64 (s.word (a + 0x38))
           ln := s.areaLine a 0, le := s.areaLine a 1, ls := s.areaLine a 2, lw := s.areaLine a 3, ll := s.areaLine a 4
           lm := s.areaLine a 5, lc := (List.range 16).map (fun n => s.areaCCap (a + 0x940 + 8 * n)) }
/-- Constants and entries of an element. -/
def State.areaCfg (s : State) (pa e : Nat) (x : ElemCfg) : ElemCfg :=
  let ents := fun (lo n : Nat) => (List.range n).map (fun k => BitVec.ofNat 64 (s.word (pa + 0x280000 + 8192 * e + 8 * (lo + k))))
  { x with consts := (List.range 16).foldl (fun m n => mset m n (BitVec.ofNat 128 (s.num (areaElemAt pa e + 0x9C0 + 16 * n) 16))) []
           entA := ents 0 x.entA.length, entB := ents x.entA.length x.entB.length }
/-- The entries of a lock link: control parts from the consumer's record, data from the producer's L line at the age
(producer counter - entry number) (R227). -/
def State.areaLink (s : State) (c : Ctx) (pa key : Nat) (l : List LinkEnt) : List LinkEnt :=
  let e := key / 4 % 512
  let d := dirs.getD (key % 4) .n
  let j := islandIx (s.plane c).isls e
  match neighbour e d with
  | none => l
  | some e2 =>
    let ctr := (s.isl c (islandIx (s.plane c).isls e2)).ctr
    l.zipIdx.map (fun p => { p.1 with
      cc := s.areaCCap (areaElemAt pa e + 0xAC0 + 64 * (key % 4) + 8 * p.2)
      cap := (s.areaLine (areaElemAt pa e2) 4).getD (ctr - (p.1.n - (s.isl c j).start) - 1) p.1.cap })
/-- Metadata of a bank line; an owned one takes the tag that its task has now (R155, R224). -/
def State.areaMeta (s : State) (pa tag key : Nat) (m : BankMeta) : BankMeta :=
  let w := s.num (pa + 0x680000 + 2 * (key % 524288)) 2
  { m with owner := if pteBit w 15 then BitVec.ofNat 4 tag else BitVec.ofNat 4 w, guard := pteBit w 4, span := BitVec.ofNat 3 (w / 32) }
/-- The beats of a port latch in their order, as far as the save area holds them: a is the latch's region there, n0 the
beats of it that come before. -/
def State.latchOf (s : State) (a n0 : Nat) (m : SMap (Option Cap)) : SMap (Option Cap) :=
  (m.zip (List.range m.length)).foldl (fun m q =>
    let n := 16 * (n0 + q.2)
    if n + 16 ≤ 32768 then
      mmod m q.1.1 (fun v => v.map (fun (z : Cap) => { z with data := BitVec.ofNat 128 (s.num (a + n) 16) }))
    else m) m
def State.areaLatch (s : State) (c : Ctx) (pa elem : Nat) : State :=
  let a := pa + 0x880000 + 65536 * (elem / 64) + (if elem = portElem (elem / 64) true then 32768 else 0)
  ((List.range (s.tableLen c)).foldl (fun (p : State × Nat) k =>
    let x := p.1.run c k
    if (x.ins.bind latchElem) == some elem then
      (p.1.putRun c k (fun y => { y with latch := s.latchOf a p.2 y.latch }), p.2 + x.latch.length)
    else p) (s, 0)).1
/-- A context takes what its save area says, in device memory. R154 places what a restore reads; the hold and the lay-by log
stay with their task, which may commit while it is spilled. DESIGN CHOICE, log entry 13. -/
def State.readSave (s : State) (c : Ctx) (pa : Nat) : State :=
  if !s.areaOk pa then s
  else
    let n := c.toNat
    let id := s.taskAt c
    let s1 := s.modThr c (s.areaThread c pa)
    let s2 := (List.range 64).foldl (fun t i => t.setIsl c i (s.areaIsl c pa i)) s1
    let s3 : State := { s2 with
      cams := msplice (n * 8) 8 (((List.range 8).map (fun k => (k, s.areaCam pa k))).filter (·.2 != default)) s2.cams
      sst := msplice (n * 4) 4 (((List.range 4).map (fun k => (k, BitVec.ofNat 64 (s.word (pa + 0x2800 + 8 * k))))).filter (·.2 != default)) s2.sst
      slots := msplice (n * 16) 16 (((List.range 16).map (fun k => (k, s.areaSlot c pa k))).filter (·.2 != default)) s2.slots
      active := mmod s2.active n (fun p => { p with elems := mapKeys (s.areaCfg pa) p.elems }) }
    let s4 := (List.range (s.tableLen c)).foldl (fun t k => t.putRun c k (s3.areaCmd c pa k)) s3
    let s5 := (List.range 512).foldl (fun t e => t.setElem c e (s.areaElem pa e (s.elem c e))) s4
    let tag := (s.task id).tag
    let own := fun (e l : Nat) => tag != 0 && pteBit (s.num (pa + 0x680000 + 2048 * e + 2 * l) 2) 15
    let s6 : State := { s5 with
      links := mapKeys (fun k l => if k / 2048 = n then s3.areaLink c pa k l else l) s5.links
      bankMeta := mapKeys (fun k m => if k / 524288 = n then s.areaMeta pa tag.toNat k m else m) s5.bankMeta
      acc := (List.range (min 256 (s.task id).acc)).foldl (fun m col => (List.range 1024).foldl (fun m row =>
        mset m (accKey c row col) (BitVec.ofNat 32 (s.num (pa + 0x780000 + 4096 * col + 4 * row) 4))) m) s5.acc
      bank := (List.range 512).foldl (fun m e => ((List.range 1024).filter (own e)).foldl (fun m l => (List.range 4).foldl (fun m i =>
        mset m (beatKey c e (64 * l + 16 * i)) (BitVec.ofNat 128 (s.num (pa + 0xB00000 + 65536 * e + 64 * l + 16 * i) 16))) m) m) s5.bank }
    ((List.range 8).flatMap (fun p => [portElem p false, portElem p true])).foldl (fun t e => t.areaLatch c pa e) s6
/-- Restore a spilled task into its partition from the save area that it was spilled to; one marked there as aborted restarts
(R84, R155). -/
def State.unspill (s : State) (c : Ctx) (id : Nat) : State :=
  let x := mget s.saves id
  let s1 := (s.putBack c x).setTask id { s.task id with phase := .resident }
  let s2 := ({ s1 with saves := mset s1.saves id {}, owner := mset s1.owner c.toNat (some id) } : State).acquire c
  if s.abortMarked id then (s2.startPartition id).wipeStack id
  else
    let s3 := s2.readSave c x.area.toNat
    let (s4, a) := s3.reloadTile c x.tileA
    let (s5, b) := s4.reloadTile c x.tileS
    { s5 with tileA := mset s5.tileA c.toNat a, tileS := mset s5.tileS c.toNat b }
/-- A berth record whose valid bit rose restores the context from the save area that it names, or starts a placed task. -/
def State.restore (s : State) (c : Ctx) : State :=
  let b := s.berth c
  let id := b.task.toNat
  let t := s.task id
  if !stable b.seqNo b.acted || !b.valid then s
  else if t.gang = 0 || t.ctx != c then s.actBerth c
  else if t.phase == .placed then ((s.actBerth c).setTask id { t with phase := .resident }).startPartition id
  else if t.phase == .spilled && (mget s.saves id).area == b.save then (if s.canTake t c then (s.actBerth c).unspill c id else s)
  else s.actBerth c
def execRestore (c : Ctx) (s : State) : Out := .next (s.restore c)

/-! ## FREEZE and DRAIN_END (R152, R153) -/

/-- Real cycles of a drain. -/
def drainCycles : Nat := 24
/-- Whether hardware still spills or restores the partition that a dispatch word names. -/
def State.berthBusy (s : State) (r : Nat) : Bool :=
  let d := s.disp r
  let b := s.berth (ctxOf r d.part)
  !d.none' && d.live != some d.part && stable b.seqNo b.acted
/-- A dispatch word is acted on: from the next real cycle on the drain runs. A word that names a partition still
spilling or restoring takes effect when that finishes (R149). -/
def State.freeze (s : State) (r : Nat) : State :=
  let d := s.disp r
  if !stable d.seqNo d.acted || s.berthBusy r then s
  else
    let s1 := s.setDisp r { d with acted := d.seqNo, live := if d.none' then none else some d.part, drain := s.cycle + drainCycles }
    -- the stall of a thread that issues again is counted from its first issue on (R150)
    if d.none' then s1 else s1.modThr (ctxOf r d.part) (fun t => { t with waitSince := t.waitSince.map (fun _ => s.cycle + drainCycles) })
def execFreeze (r : BitVec 4) (s : State) : Out := .next (s.freeze r.toNat)
/-- The drain is over: the incoming partition issues from the next real cycle on. -/
def State.drainOver (s : State) (r : Nat) : State :=
  let d := s.disp r
  if d.drain = 0 || s.cycle < d.drain then s else s.setDisp r { d with drain := 0 }
def execDrainEnd (r : BitVec 4) (s : State) : Out := .next (s.drainOver r.toNat)

/-! ## The scheduler (R150) -/

/-- The instruction at a context's pc. -/
def State.instrAt (s : State) (c : Ctx) : Option Instr :=
  match s.walk (s.task (s.taskAt c)).tenant.toNat (s.thr c).pc.toNat with
  | .leaf p lv _ => (match decodeSeq (leVal (s.bytes (pteFrame p * 65536 + (s.thr c).pc.toNat % leafSize lv p) 4)) with
    | .ok i => some i
    | .error _ => none)
  | _ => none
/-- Whether a stall at an instruction counts although an island advances: a `cwait`, a `wait`, or a wait for the head
group, at which a `bar` or an atomic stands before it is in its head group. -/
def State.waitsAlways (s : State) (c : Ctx) (i : Option Instr) : Bool :=
  match i with
  | some (.cwait _ _ _ _) | some .wait => true
  | some (.bar _ _) | some (.aswp _ _ _ _ _ _) | some (.aadd _ _ _ _ _ _)
  | some (.aand _ _ _ _ _ _) | some (.aor _ _ _ _ _ _) | some (.axor _ _ _ _ _ _) | some (.amin _ _ _ _ _ _)
  | some (.amax _ _ _ _ _ _) | some (.aminn _ _ _ _ _ _) | some (.amaxn _ _ _ _ _ _) | some (.acas _ _ _ _ _ _) => !s.inHeadGroup (s.taskAt c)
  | _ => false
/-- A stall of more than 10 µs that lets a task be frozen before the end of its slice (R150). -/
def State.longStall (s : State) (c : Ctx) : Bool :=
  let t := s.thr c
  match t.waitSince with
  | none => false
  | some n => s.served (regionOf c) == some c && decide (n + 10 * perUs < s.cycle) && (t.held != .no || s.waitsAlways c (s.instrAt c) ||
      (s.isls.filter (fun p => p.1 / 64 == c.toNat)).all (fun p => decide (p.2.moved < n)))
/-- Whether the task of a context is ready to be served. -/
def State.servable (s : State) (c : Ctx) : Bool :=
  (s.task (s.taskAt c)).phase == .resident && (s.thr c).held == .no && !(s.thr c).stopped && !s.longStall c &&
    !stable (s.berth c).seqNo (s.berth c).acted
/-- Subtract the time that the issuing task has used from its queue's deficit. -/
def State.charge (s : State) (r : Nat) : State :=
  let d := s.disp r
  if d.sliceEnd = 0 then s
  else match d.live with
    | none => s
    | some p =>
      let q := (s.berth (ctxOf r p)).queue.toNat
      s.setQueue q { s.queue q with deficit := (s.queue q).deficit - (s.cycle - d.sliceStart) }
/-- Queues of a class with ready work, on whatever region. -/
def State.readyQueues (s : State) (cls : Nat) : List Nat :=
  ((((List.range 32).map (BitVec.ofNat 5)).filter (fun c => s.servable c && (s.berth c).cls.toNat == cls)).map (fun c =>
    (s.berth c).queue.toNat)).eraseDups
/-- Serve the most urgent class present, its queues by deficit round-robin; a change writes the dispatch word. A round
adds to every queue with ready work. -/
def State.redispatch (s0 : State) (r : Nat) : State :=
  let s := s0.charge r
  let d := s.disp r
  let cands := [!d.part, d.part].filter (fun p => s.servable (ctxOf r p))
  let best := (cands.map (fun p => (s.berth (ctxOf r p)).cls.toNat)).foldl min 4
  let ready := cands.filter (fun p => (s.berth (ctxOf r p)).cls.toNat == best)
  let owed := fun (s : State) (p : Bool) => (s.queue (s.berth (ctxOf r p)).queue.toNat).deficit
  let s1 := if ready.any (fun p => owed s p != 0) then s
    else (s.readyQueues best).foldl (fun s q =>
      s.setQueue q { s.queue q with deficit := (s.queue q).deficit + (s.queue q).weight.toNat * s.regs.quantum.toNat * perUs }) s
  match ready.find? (fun p => owed s1 p != 0) with
  | none => s1.setDisp r { d with sliceEnd := 0 }
  | some p =>
    let slice := min (owed s1 p) (perUs * min s.regs.quantum.toNat (s.berth (ctxOf r p)).slice.toNat)
    if d.live == some p then s1.setDisp r { d with sliceStart := s.cycle, sliceEnd := s.cycle + slice }
    else s1.setDisp r { d with part := p, none' := false, seqNo := d.seqNo + 2, sliceStart := s.cycle + drainCycles
                               sliceEnd := s.cycle + drainCycles + slice }
/-- Whether the dispatch of a region is due before its slice ends: nothing is served while something could be, or a
class-0 task is ready beside a pre-emptible one of class 1 to 3. -/
def State.dispatchDue (s : State) (r : Nat) : Bool :=
  let d := s.disp r
  let other := fun (p : Bool) => ctxOf r (!p)
  d.drain == 0 && !stable d.seqNo d.acted && (match d.live with
    | none => s.servable (ctxOf r false) || s.servable (ctxOf r true)
    | some p =>
      let b := s.berth (ctxOf r p)
      let idle := d.sliceEnd == 0 || (s.task (s.taskAt (ctxOf r p))).phase != .resident || ((s.thr (ctxOf r p)).stopped && b.preempt)
      (idle && (s.servable (other p) || (d.sliceEnd == 0 && s.servable (ctxOf r p)))) ||
        (b.preempt && b.cls != 0 && s.servable (other p) && (s.berth (other p)).cls == 0))
def State.sliceDue (s : State) (r : Nat) : Bool :=
  let d := s.disp r
  d.sliceEnd != 0 && d.sliceEnd ≤ s.cycle && d.drain == 0 && !stable d.seqNo d.acted
def execSliceEnd (r : BitVec 4) (s : State) : Out := .next (if s.sliceDue r.toNat then s.redispatch r.toNat else s)
/-- A stalled task gives way. -/
def State.stallDue (s : State) (c : Ctx) : Bool :=
  let d := s.disp (regionOf c)
  s.longStall c && !stable d.seqNo d.acted && s.servable (c ^^^ 1)
def execStallTimeout (c : Ctx) (s : State) : Out := .next (if s.stallDue c then s.redispatch (regionOf c) else s)

/-! ## COALESCE_WINDOW_CLOSE (R162) -/

def State.windowDue (s : State) (q : Nat) : Bool :=
  (s.queue q).window.any (fun w => decide (w.1 + (s.queue q).coalesce.toNat * perUs ≤ s.cycle))
def execCoalesceWindowClose (q : BitVec 8) (s : State) : Out := .next (if s.windowDue q.toNat then s.closeWindow q.toNat else s)

end Sys2Proof.Machine
end

