-- ==== Sys2Proof/Machine/EvStart.lean ====
section
/-!
DEFINITION. Starts, ageing, scrubbing and refresh: STARTCTL_CLEAR, MAINTENANCE_RESET, WARM_RESET, COLD_START,
RESET_LINE, START_TIMEOUT, AGEING_CHECK, SCRUB_LINE and REFRESH (R74, R261, R380 to R388).
-/

namespace Sys2Proof.Machine

/-! ## Starts (R384 to R388) -/

/-- Number of the last step of a start, and the stage of a start that has failed. -/
def lastStep : Nat := 8
def failedStage : Nat := 99
/-- Repairs are pending: rows marked since the last repair, or found at the start. -/
def Start.pending (t : Start) : Bool := t.repair || !t.badRows.isEmpty || Config.repairsPending t.starts
/-- A start of a kind begins: every context is lost, and the arrays hold nothing. What the persistent store and the
fuses keep stays, and messages of the outside stay on their links. Rows of HBM that await repair stay in error (R382).
DESIGN CHOICE, log entry 59. -/
def State.beginStart (s : State) (kind : StartKind) : State :=
  let t := s.start
  { State.reset with
    errs := s.errs.filter (fun e => e.hard && (match e.line with | .mem g => t.badRows.contains (g.toNat / 1024) | _ => false))
    cycle := s.cycle, free := s.free, hostIn := s.hostIn, linkIn := s.linkIn, out := s.out, pkgId := s.pkgId
    start := { kind := if t.failed == 3 then .safe else kind, failed := t.failed, retired := t.retired, repair := t.repair
               starts := t.starts + 1, began := s.cycle, saved := t.saved, ctl1 := t.ctl1, checks := t.checks
               badRows := t.badRows } }
/-- The kind of a start that the reset line or STARTCTL 3 asks for (R385). -/
def Start.warmOrCold (t : Start) : StartKind := if t.saved && !t.ctl1 then .warm else .cold
/-- A failed start (R386). DESIGN CHOICE, log entry 59. -/
def State.failStart (s : State) : State :=
  { s with start := { s.start with stage := failedStage, failed := if s.start.failed == 3 then 3 else s.start.failed + 1 } }
/-- The regions that an ageing sweep finds exhausted are retired (R383). -/
def Start.sweep (t : Start) : Start :=
  (List.range 16).foldl (fun t r =>
    { t with checks := mset t.checks r (mget t.checks r + 1), aged := mset t.aged r t.began
             retired := if Config.marginGone r (mget t.checks r) then t.retired ||| (1#16 <<< r) else t.retired }) t
/-- Ready: a full start clears the count, and the training is saved. -/
def Start.finish (t : Start) : Start :=
  { t with ready := true, stage := lastStep, saved := true, ctl1 := false, failed := if t.kind == .safe then t.failed else 0
           repair := t.kind != .maintenance && t.pending, badRows := if t.kind == .maintenance then [] else t.badRows }
/-- A report for a nonce of the host, signed with the identity key of this start (R387). The spec says what a report holds,
and not how the host asks for one or how its items are encoded. DESIGN CHOICE, log entry 84. -/
def State.report' (s : State) (nonce : Word) : Report :=
  let t := s.start
  let body := leList 8 nonce.toNat ++ leList 2 s.pkgId.toNat ++ leList 1 t.kind.code ++ leList 2 t.retired.toNat ++
    t.measured.flatMap (fun m => leList 64 m.toNat)
  { nonce := nonce, pkg := s.pkgId, kind := BitVec.ofNat 2 t.kind.code, retired := t.retired, measures := t.measured
    signature := Config.sign (t.identity.getD []) body }
def State.attest (s : State) (nonce : Word) : State :=
  if s.start.ready then { s with out := s.out ++ [.attest (s.report' nonce)], free := s.free + 1 } else s
/-- The next step of a start: 1 fuses, 2 firmware, 3 BIST, 4 HBM training, 5 repair, 6 ageing, 7 identity, 8 clearing
of the arrays. A warm start skips 3 and 5, and any other one 5 where no repairs are pending; a warm one whose digest fails
goes on as a cold start, whose training is another outcome. -/
def State.startStep (s : State) : State :=
  let t := s.start
  if t.ready || t.stage ≥ lastStep then s
  else
    let n := t.stage + 1
    let passes := Config.startStepPasses t.starts (if t.fell && n = 4 then lastStep + 1 else n)
    let skipped := (t.kind == .warm && n == 3) || (n == 5 && t.kind != .maintenance && (t.kind == .warm || !t.pending))
    if n = 4 && t.kind == .warm && !passes then { s with start := { t with kind := .cold, stage := 2, fell := true } }
    else if !skipped && !passes then s.failStart
    else match n with
      | 2 => { s with start := { t with stage := 2, measured := Config.measures t.starts } }
      | 5 => { s with start := { t with stage := 5, kind := if t.kind == .cold && t.pending then .maintenance else t.kind } }
      | 6 => { s with start := { Start.sweep t with stage := 6 } }
      | 7 => { s with start := { t with stage := 7, identity := some Config.identityKey } }
      | 8 => { s with start := Start.finish t, errs := if t.kind == .maintenance then [] else s.errs }
      | n => { s with start := { t with stage := n } }
def execColdStart (s : State) : Out := .next (s.beginStart .cold)
def execResetLine (s : State) : Out := .next (s.beginStart (Start.warmOrCold s.start))
def execWarmReset (s : State) : Out := .next (s.beginStart (Start.warmOrCold s.start))
def execMaintenanceReset (s : State) : Out := .next (s.beginStart .maintenance)
def execStartctlClear (s : State) : Out := .next { s with start := { s.start with failed := 0, ctl1 := true } }
/-- Cycles of 60 s. -/
def startLimit : Nat := 240000000000
def execStartTimeout (s : State) : Out :=
  .next (if !s.start.ready && s.start.stage < lastStep && s.start.began + startLimit ≤ s.cycle then s.failStart else s)

/-! ## AGEING_CHECK (R383) -/

/-- Cycles of 1,000 hours. -/
def ageingPeriod : Nat := 14400000000000000
/-- Whether a region is to be measured again: 1,000 hours after its last measurement, one region at a time. -/
def State.ageingDue (s : State) (r : Nat) : Bool :=
  let t := s.start
  t.measuring.isEmpty && !t.retired.getLsbD r && decide (mget t.aged r + ageingPeriod ≤ s.cycle)
/-- A region is kept from placement, and measured once it holds no resident task; what waits for one that is retired goes
elsewhere. -/
def State.ageing (s : State) (r : Nat) : State :=
  let t := s.start
  if t.measuring.contains r then
    if (s.taskAt (ctxOf r false) != 0) || (s.taskAt (ctxOf r true) != 0) then s
    else
      let gone := Config.marginGone r (mget t.checks r)
      let s1 : State := { s with start := { t with
        measuring := t.measuring.erase r, checks := mset t.checks r (mget t.checks r + 1), aged := mset t.aged r s.cycle
        retired := if gone then t.retired ||| (1#16 <<< r) else t.retired } }
      if gone then s1.leaveRegion r else s1
  else if s.ageingDue r then { s with start := { t with measuring := [r], since := s.cycle } }
  else s
/-- Cycles within which a region that is measured is empty: 2 ms; firmware clears it in time for the spills. -/
def measureLimit : Nat := 2000 * perUs
def clearLimit : Nat := 1900 * perUs
def execAgeingCheck (r : BitVec 4) (s : State) : Out := .next (s.ageing r.toNat)

/-! ## SCRUB_LINE (R74, R299, R380 to R382) -/

/-- Region of a line of an on-die array other than the basin. -/
def lineRegion : ArrayLine → Option Nat
  | .bank r _ _ _ | .entry r _ _ _ | .acc r _ _ _ | .loom r _ _ _ => some r.toNat
  | .mem _ => none
/-- A corrected error is counted: by region, by the die of a basin, or in HBMCE (R74, R299, R380, R382). -/
def State.corrected (s : State) (l : ArrayLine) : State :=
  match lineRegion l, l with
  | some r, _ => { s with bankCE := mset s.bankCE r (mget s.bankCE r + 1) }
  | none, .mem g =>
    let pa := 64 * g.toNat
    (match s.place pa with
    | .device | .attention => { s with start := { s.start with hbmCE := s.start.hbmCE + 1 } }
    | .basin => { s with basinCE := mmod s.basinCE ((pa - 0x20000000000) / 0x8000000) (· + 1) }
    | _ => s)
  | none, _ => s
/-- Whether the scrubber reads a line: of the loom it reads the nodes of resident graphs (R299). -/
def State.scrubs (s : State) (l : ArrayLine) : Bool :=
  match l with
  | .loom r p sl n =>
    let x := s.slot (ctxOf r.toNat p) sl.toNat
    x.resident && decide (n.toNat < x.graph.nodes.length)
  | _ => true
/-- The address that the record of a line gives: its byte offset in the array of its element, partition or slot, which R9
places nowhere in the physical map; the physical address in memory. DESIGN CHOICE, log entry 49. -/
def lineAddr : ArrayLine → Nat
  | .bank _ _ _ ln => 64 * ln.toNat
  | .entry _ _ _ ix => 8 * ix.toNat
  | .acc _ _ row col => 4 * (256 * row.toNat + col.toNat)
  | .loom r p sl n => nodeAddr (.loom r p sl n)
  | .mem g => 64 * g.toNat
/-- An uncorrectable error in a line of a partition: the context of its task ends where the line has an owner. -/
def State.lineLost (s : State) (c : Ctx) (elem : Nat) (l : ArrayLine) (owned : Bool) : State :=
  let t := s.task (s.taskAt c)
  let tag := if owned then t.owner.toNat else 0
  (s.recordAt c 0x30 (BitVec.ofNat 64 (lineAddr l)) 0 elem 0 false false (tag != 0) false).doomOwner tag
/-- The scrubber reads a line. DEDUCED, log entry 58. -/
def State.scrub (s : State) (l : ArrayLine) : State :=
  match s.errs.find? (·.line == l) with
  | none => s
  | some e =>
    let s1 : State := { s with errs := s.errs.erase e }
    if !s.scrubs l then s
    else if !e.hard then s1.corrected l
    else match l with
      | .bank r p el ln =>
        let c := ctxOf r.toNat p
        s1.lineLost c el.toNat l ((mget s.bankMeta (eKey c el.toNat * 1024 + ln.toNat)).owner != 0)
      | .entry r p el _ => s1.lineLost (ctxOf r.toNat p) el.toNat l true
      | .acc r p _ _ => s1.lineLost (ctxOf r.toNat p) 0 l true
      | .loom r p sl _ =>
        let s2 := s1.lineLost (ctxOf r.toNat p) 0 l true
        { s2 with slots := mset s2.slots (slotKey (ctxOf r.toNat p) sl.toNat) {} }
      | .mem g =>
        let pa := 64 * g.toNat
        let (tag, c) := s.ownerAt pa
        -- the frame stays in error, until the next pass
        { s with errs := s.errs.map (fun x => if x == e then { x with at' := s.cycle } else x) }.memErrorAlone pa tag (BitVec.ofNat 16 c)
def execScrubLine (l : ArrayLine) (s : State) : Out := .next (s.scrub l)

/-! ## REFRESH (R261) -/

/-- Whether a frame belongs to dead pages alone (R255, R382). -/
def State.deadFrame (s : State) (f : Nat) : Bool :=
  let ls := s.leavesAt (65536 * f)
  !ls.isEmpty && ls.all (fun l => !pteBit l.1 10)
/-- Rows of a bank that its refresh passes over: every frame with bytes in them belongs to a dead page (R382). -/
def State.elide (s : State) (k bank : Nat) : List Nat :=
  ((Config.rowsOf k bank).zipIdx.filter (fun r => !r.1.isEmpty && r.1.all s.deadFrame)).map (·.2)
/-- The next bank of a pseudo-channel is refreshed, but for its elided rows. DESIGN CHOICE, log entry 62. -/
def execRefresh (stack : BitVec 4) (chan : BitVec 5) (pseudo : Bool) (s : State) : Out :=
  let k := (stack.toNat * 32 + chan.toNat) * 2 + pseudo.toNat
  let bank := mget s.refreshPtr k
  .next { s with refreshPtr := mset s.refreshPtr k ((bank + 1) % 16)
                 elided := mset s.elided (16 * k + bank) (s.elide k bank) }

end Sys2Proof.Machine
end

