-- ==== Sys2Proof/Machine/Dispatch.lean ====
section
/-! DEFINITION. The meaning of every step: one arm per constructor of Instr. -/

namespace Sys2Proof.Machine

def exec (i : Instr) (s : State) : Host.Outcome State Fault Refusal :=
  match i with
  | .add d a b => Sys2Proof.Machine.execAdd d a b s
  | .sub d a b => Sys2Proof.Machine.execSub d a b s
  | .and d a b => Sys2Proof.Machine.execAnd d a b s
  | .or d a b => Sys2Proof.Machine.execOr d a b s
  | .xor d a b => Sys2Proof.Machine.execXor d a b s
  | .shl d a b => Sys2Proof.Machine.execShl d a b s
  | .shr d a b => Sys2Proof.Machine.execShr d a b s
  | .sra d a b => Sys2Proof.Machine.execSra d a b s
  | .slt d a b => Sys2Proof.Machine.execSlt d a b s
  | .sltn d a b => Sys2Proof.Machine.execSltn d a b s
  | .min d a b => Sys2Proof.Machine.execMin d a b s
  | .max d a b => Sys2Proof.Machine.execMax d a b s
  | .minn d a b => Sys2Proof.Machine.execMinn d a b s
  | .maxn d a b => Sys2Proof.Machine.execMaxn d a b s
  | .mul d a b => Sys2Proof.Machine.execMul d a b s
  | .mulh d a b => Sys2Proof.Machine.execMulh d a b s
  | .mulhn d a b => Sys2Proof.Machine.execMulhn d a b s
  | .div d a b => Sys2Proof.Machine.execDiv d a b s
  | .divn d a b => Sys2Proof.Machine.execDivn d a b s
  | .rem d a b => Sys2Proof.Machine.execRem d a b s
  | .remn d a b => Sys2Proof.Machine.execRemn d a b s
  | .addx d a b k => Sys2Proof.Machine.execAddx d a b k s
  | .addi d a imm => Sys2Proof.Machine.execAddi d a imm s
  | .slti d a imm => Sys2Proof.Machine.execSlti d a imm s
  | .sltni d a imm => Sys2Proof.Machine.execSltni d a imm s
  | .andi d a imm => Sys2Proof.Machine.execAndi d a imm s
  | .ori d a imm => Sys2Proof.Machine.execOri d a imm s
  | .xori d a imm => Sys2Proof.Machine.execXori d a imm s
  | .shli d a imm => Sys2Proof.Machine.execShli d a imm s
  | .shri d a imm => Sys2Proof.Machine.execShri d a imm s
  | .srai d a imm => Sys2Proof.Machine.execSrai d a imm s
  | .lui d imm => Sys2Proof.Machine.execLui d imm s
  | .lb d a off => Sys2Proof.Machine.execLb d a off s
  | .lbn d a off => Sys2Proof.Machine.execLbn d a off s
  | .lh d a off => Sys2Proof.Machine.execLh d a off s
  | .lhn d a off => Sys2Proof.Machine.execLhn d a off s
  | .lw d a off => Sys2Proof.Machine.execLw d a off s
  | .lwn d a off => Sys2Proof.Machine.execLwn d a off s
  | .ld d a off => Sys2Proof.Machine.execLd d a off s
  | .sb src a off => Sys2Proof.Machine.execSb src a off s
  | .sh src a off => Sys2Proof.Machine.execSh src a off s
  | .sw src a off => Sys2Proof.Machine.execSw src a off s
  | .sd src a off => Sys2Proof.Machine.execSd src a off s
  | .aswp d a b ord scope dbl => Sys2Proof.Machine.execAswp d a b ord scope dbl s
  | .aadd d a b ord scope dbl => Sys2Proof.Machine.execAadd d a b ord scope dbl s
  | .aand d a b ord scope dbl => Sys2Proof.Machine.execAand d a b ord scope dbl s
  | .aor d a b ord scope dbl => Sys2Proof.Machine.execAor d a b ord scope dbl s
  | .axor d a b ord scope dbl => Sys2Proof.Machine.execAxor d a b ord scope dbl s
  | .amin d a b ord scope dbl => Sys2Proof.Machine.execAmin d a b ord scope dbl s
  | .amax d a b ord scope dbl => Sys2Proof.Machine.execAmax d a b ord scope dbl s
  | .aminn d a b ord scope dbl => Sys2Proof.Machine.execAminn d a b ord scope dbl s
  | .amaxn d a b ord scope dbl => Sys2Proof.Machine.execAmaxn d a b ord scope dbl s
  | .acas d a b ord scope dbl => Sys2Proof.Machine.execAcas d a b ord scope dbl s
  | .fence kind scope => Sys2Proof.Machine.execFence kind scope s
  | .beq a b off => Sys2Proof.Machine.execBeq a b off s
  | .bne a b off => Sys2Proof.Machine.execBne a b off s
  | .blt a b off => Sys2Proof.Machine.execBlt a b off s
  | .bge a b off => Sys2Proof.Machine.execBge a b off s
  | .bltn a b off => Sys2Proof.Machine.execBltn a b off s
  | .bgen a b off => Sys2Proof.Machine.execBgen a b off s
  | .jal d off => Sys2Proof.Machine.execJal d off s
  | .jlr d a off => Sys2Proof.Machine.execJlr d a off s
  | .mfs d sys => Sys2Proof.Machine.execMfs d sys s
  | .mts a sys => Sys2Proof.Machine.execMts a sys s
  | .eret => Sys2Proof.Machine.execEret s
  | .wait => Sys2Proof.Machine.execWait s
  | .tlbinv a => Sys2Proof.Machine.execTlbinv a s
  | .trap imm => Sys2Proof.Machine.execTrap imm s
  | .brk imm => Sys2Proof.Machine.execBrk imm s
  | .tgo ix => Sys2Proof.Machine.execTgo ix s
  | .twait ix => Sys2Proof.Machine.execTwait ix s
  | .tend => Sys2Proof.Machine.execTend s
  | .tspawn d a image => Sys2Proof.Machine.execTspawn d a image s
  | .bar scope id => Sys2Proof.Machine.execBar scope id s
  | .cwait d a b scope => Sys2Proof.Machine.execCwait d a b scope s
  | .cmdw a b field => Sys2Proof.Machine.execCmdw a b field s
  | .gload d graph => Sys2Proof.Machine.execGload d graph s
  | .gfree a => Sys2Proof.Machine.execGfree a s
  | .gstat d a => Sys2Proof.Machine.execGstat d a s
  | .camw cam a field => Sys2Proof.Machine.execCamw cam a field s
  | .camld cam block => Sys2Proof.Machine.execCamld cam block s
  | .lput a => Sys2Proof.Machine.execLput a s
  | .lget a => Sys2Proof.Machine.execLget a s
  | .lamo d a => Sys2Proof.Machine.execLamo d a s
  | .lsend a => Sys2Proof.Machine.execLsend a s
  | .lnotify a => Sys2Proof.Machine.execLnotify a s
  | .mrecv d a => Sys2Proof.Machine.execMrecv d a s
  | .entryAdd f => Sys2Proof.Machine.execEntryAdd f s
  | .entrySub f => Sys2Proof.Machine.execEntrySub f s
  | .entryMul f => Sys2Proof.Machine.execEntryMul f s
  | .entryFma f => Sys2Proof.Machine.execEntryFma f s
  | .entryFms f => Sys2Proof.Machine.execEntryFms f s
  | .entryFnma f => Sys2Proof.Machine.execEntryFnma f s
  | .entryMin f => Sys2Proof.Machine.execEntryMin f s
  | .entryMax f => Sys2Proof.Machine.execEntryMax f s
  | .entryAbs f => Sys2Proof.Machine.execEntryAbs f s
  | .entryNeg f => Sys2Proof.Machine.execEntryNeg f s
  | .entryClamp f => Sys2Proof.Machine.execEntryClamp f s
  | .entryDiv f => Sys2Proof.Machine.execEntryDiv f s
  | .entrySqrt f => Sys2Proof.Machine.execEntrySqrt f s
  | .entryExp2 f => Sys2Proof.Machine.execEntryExp2 f s
  | .entryLg2 f => Sys2Proof.Machine.execEntryLg2 f s
  | .entryRint f => Sys2Proof.Machine.execEntryRint f s
  | .entryShl f => Sys2Proof.Machine.execEntryShl f s
  | .entryShr f => Sys2Proof.Machine.execEntryShr f s
  | .entrySra f => Sys2Proof.Machine.execEntrySra f s
  | .entryAnd f => Sys2Proof.Machine.execEntryAnd f s
  | .entryOr f => Sys2Proof.Machine.execEntryOr f s
  | .entryXor f => Sys2Proof.Machine.execEntryXor f s
  | .entryAndn f => Sys2Proof.Machine.execEntryAndn f s
  | .entryNot f => Sys2Proof.Machine.execEntryNot f s
  | .entryMulh f => Sys2Proof.Machine.execEntryMulh f s
  | .entryClz f => Sys2Proof.Machine.execEntryClz f s
  | .entryPopc f => Sys2Proof.Machine.execEntryPopc f s
  | .entryCmpeq f => Sys2Proof.Machine.execEntryCmpeq f s
  | .entryCmpne f => Sys2Proof.Machine.execEntryCmpne f s
  | .entryCmplt f => Sys2Proof.Machine.execEntryCmplt f s
  | .entryCmple f => Sys2Proof.Machine.execEntryCmple f s
  | .entryCmpgt f => Sys2Proof.Machine.execEntryCmpgt f s
  | .entryCmpge f => Sys2Proof.Machine.execEntryCmpge f s
  | .entryCmpun f => Sys2Proof.Machine.execEntryCmpun f s
  | .entrySel f => Sys2Proof.Machine.execEntrySel f s
  | .entryCvt f => Sys2Proof.Machine.execEntryCvt f s
  | .entryBlkPack f => Sys2Proof.Machine.execEntryBlkPack f s
  | .entryBlkUnpk f => Sys2Proof.Machine.execEntryBlkUnpk f s
  | .entryShuf f => Sys2Proof.Machine.execEntryShuf f s
  | .entryBcast f => Sys2Proof.Machine.execEntryBcast f s
  | .entryRot f => Sys2Proof.Machine.execEntryRot f s
  | .entryHsum f => Sys2Proof.Machine.execEntryHsum f s
  | .entryHmax f => Sys2Proof.Machine.execEntryHmax f s
  | .entryHmin f => Sys2Proof.Machine.execEntryHmin f s
  | .entryScan f => Sys2Proof.Machine.execEntryScan f s
  | .entryMov f => Sys2Proof.Machine.execEntryMov f s
  | .entryRep f => Sys2Proof.Machine.execEntryRep f s
  | .entryLdb f => Sys2Proof.Machine.execEntryLdb f s
  | .entryLdbx f => Sys2Proof.Machine.execEntryLdbx f s
  | .entryStb f => Sys2Proof.Machine.execEntryStb f s
  | .entryStbx f => Sys2Proof.Machine.execEntryStbx f s
  | .entryCadd f => Sys2Proof.Machine.execEntryCadd f s
  | .entryCsub f => Sys2Proof.Machine.execEntryCsub f s
  | .entryCand f => Sys2Proof.Machine.execEntryCand f s
  | .entryCor f => Sys2Proof.Machine.execEntryCor f s
  | .entryCshl f => Sys2Proof.Machine.execEntryCshl f s
  | .entryCmov f => Sys2Proof.Machine.execEntryCmov f s
  | .entryCcmp f => Sys2Proof.Machine.execEntryCcmp f s
  | .entryRngDraw f => Sys2Proof.Machine.execEntryRngDraw f s
  | .entryRngSeed f => Sys2Proof.Machine.execEntryRngSeed f s
  | .entryRsv f => Sys2Proof.Machine.execEntryRsv f s
  | .entryRsvm f => Sys2Proof.Machine.execEntryRsvm f s
  | .entryBitt f => Sys2Proof.Machine.execEntryBitt f s
  | .entryLut16 f => Sys2Proof.Machine.execEntryLut16 f s
  | .entryCond f => Sys2Proof.Machine.execEntryCond f s
  | .entryChk f => Sys2Proof.Machine.execEntryChk f s
  | .sIn r => Sys2Proof.Machine.execSIn r s
  | .sInPlane r => Sys2Proof.Machine.execSInPlane r s
  | .sOut r => Sys2Proof.Machine.execSOut r s
  | .sGath r => Sys2Proof.Machine.execSGath r s
  | .sScat r => Sys2Proof.Machine.execSScat r s
  | .sCopy r => Sys2Proof.Machine.execSCopy r s
  | .whRed r => Sys2Proof.Machine.execWhRed r s
  | .whFilt r => Sys2Proof.Machine.execWhFilt r s
  | .mxWload r => Sys2Proof.Machine.execMxWload r s
  | .mxSwap h => Sys2Proof.Machine.execMxSwap h s
  | .mxStep r => Sys2Proof.Machine.execMxStep r s
  | .mxEpi r => Sys2Proof.Machine.execMxEpi r s
  | .mxZero r => Sys2Proof.Machine.execMxZero r s
  | .mxDrain r => Sys2Proof.Machine.execMxDrain r s
  | .gRun r => Sys2Proof.Machine.execGRun r s
  | .camGath r => Sys2Proof.Machine.execCamGath r s
  | .camGathDepth r => Sys2Proof.Machine.execCamGathDepth r s
  | .camScat r => Sys2Proof.Machine.execCamScat r s
  | .camProj r => Sys2Proof.Machine.execCamProj r s
  | .attentionQueueJoin op r => Sys2Proof.Machine.execAttentionQueueJoin op r s
  | .atApp r => Sys2Proof.Machine.execAtApp r s
  | .atSel r => Sys2Proof.Machine.execAtSel r s
  | .atAtt r => Sys2Proof.Machine.execAtAtt r s
  | .atTrunc r => Sys2Proof.Machine.execAtTrunc r s
  | .lCollReduce r => Sys2Proof.Machine.execLCollReduce r s
  | .lCollAllgather r => Sys2Proof.Machine.execLCollAllgather r s
  | .lCollBroadcast r => Sys2Proof.Machine.execLCollBroadcast r s
  | .windowEnd c k => Sys2Proof.Machine.execWindowEnd c k s
  | .streamReadArrives c k => Sys2Proof.Machine.execStreamReadArrives c k s
  | .intervalSample c ix => Sys2Proof.Machine.execIntervalSample c ix s
  | .islandFinish c ix => Sys2Proof.Machine.execIslandFinish c ix s
  | .lockEntryAvailable c e dir => Sys2Proof.Machine.execLockEntryAvailable c e dir s
  | .pendingWriteLands c d => Sys2Proof.Machine.execPendingWriteLands c d s
  | .gloadComplete c => Sys2Proof.Machine.execGloadComplete c s
  | .tspawnReply c => Sys2Proof.Machine.execTspawnReply c s
  | .linkOpLeaves task => Sys2Proof.Machine.execLinkOpLeaves task s
  | .linkReply op r => Sys2Proof.Machine.execLinkReply op r s
  | .remoteWrite s1 va bs => Sys2Proof.Machine.execRemoteWrite s1 va bs s
  | .remoteRead s1 va len => Sys2Proof.Machine.execRemoteRead s1 va len s
  | .remoteAtomic s1 va aop dbl operand compare => Sys2Proof.Machine.execRemoteAtomic s1 va aop dbl operand compare s
  | .mailboxDelivery s1 task bs => Sys2Proof.Machine.execMailboxDelivery s1 task bs s
  | .barrierRelease scope inst id => Sys2Proof.Machine.execBarrierRelease scope inst id s
  | .commit scope inst => Sys2Proof.Machine.execCommit scope inst s
  | .faultRecordWrite => Sys2Proof.Machine.execFaultRecordWrite s
  | .fbflush => Sys2Proof.Machine.execFbflush s
  | .invalidatePage => Sys2Proof.Machine.execInvalidatePage s
  | .invalidateContext => Sys2Proof.Machine.execInvalidateContext s
  | .startctlClear => Sys2Proof.Machine.execStartctlClear s
  | .maintenanceReset => Sys2Proof.Machine.execMaintenanceReset s
  | .warmReset => Sys2Proof.Machine.execWarmReset s
  | .registerWrite addr v => Sys2Proof.Machine.execRegisterWrite addr v s
  | .hostRead addr len => Sys2Proof.Machine.execHostRead addr len s
  | .hostWrite addr bs => Sys2Proof.Machine.execHostWrite addr bs s
  | .launch q ep msg => Sys2Proof.Machine.execLaunch q ep msg s
  | .batchLaunch q ep msg => Sys2Proof.Machine.execBatchLaunch q ep msg s
  | .attentionResume q ep msg => Sys2Proof.Machine.execAttentionResume q ep msg s
  | .gangPlacement g => Sys2Proof.Machine.execGangPlacement g s
  | .planeSwap c => Sys2Proof.Machine.execPlaneSwap c s
  | .batchIteration g => Sys2Proof.Machine.execBatchIteration g s
  | .spill c => Sys2Proof.Machine.execSpill c s
  | .restore c => Sys2Proof.Machine.execRestore c s
  | .freeze r => Sys2Proof.Machine.execFreeze r s
  | .drainEnd r => Sys2Proof.Machine.execDrainEnd r s
  | .sliceEnd r => Sys2Proof.Machine.execSliceEnd r s
  | .stallTimeout c => Sys2Proof.Machine.execStallTimeout c s
  | .coalesceWindowClose q => Sys2Proof.Machine.execCoalesceWindowClose q s
  | .waitTimeout c => Sys2Proof.Machine.execWaitTimeout c s
  | .coldStart => Sys2Proof.Machine.execColdStart s
  | .resetLine => Sys2Proof.Machine.execResetLine s
  | .startTimeout => Sys2Proof.Machine.execStartTimeout s
  | .ageingCheck r => Sys2Proof.Machine.execAgeingCheck r s
  | .scrubLine l => Sys2Proof.Machine.execScrubLine l s
  | .refresh stack chan pseudo => Sys2Proof.Machine.execRefresh stack chan pseudo s
  | .islandCycle c ix => Sys2Proof.Machine.execIslandCycle c ix s
  | .writeBeatAccepted c k => Sys2Proof.Machine.execWriteBeatAccepted c k s
  | .collectivePacket m => Sys2Proof.Machine.execCollectivePacket m s
  | .linkPathFailure port => Sys2Proof.Machine.execLinkPathFailure port s
  | .remotePageRequest s1 block => Sys2Proof.Machine.execRemotePageRequest s1 block s

end Sys2Proof.Machine
end

