-- ==== Sys2Proof/Machine/Schedule.lean ====
section
/-!
DEFINITION. Who moves next: the acts of a real cycle and their order (R3, R45, R108, R152, R206), what firmware does of
its own (R148 to R150), and how an act performs. Where the spec states no time, `Config.happens` decides.
-/

namespace Sys2Proof.Machine

/-! ## The thread of a context (R99, R104, R108, R111, R116) -/

/-- Whether a thread has an instruction to issue in this real cycle. -/
def State.runnable (s : State) (c : Ctx) : Bool :=
  let t := s.thr c
  let k := s.task (s.taskAt c)
  k.phase == .resident && t.held == .no && !t.stopped && t.nextIssue ≤ s.cycle && !s.doomed k.gang
/-- The outcome of a fetch. -/
inductive Fetch where
  | word (w : Nat)
  /-- The fetch has stalled, held or trapped the thread. -/
  | stop
  deriving DecidableEq, Repr, Inhabited
/-- The word at a physical address as it stood at a context's last acquire, under the task's held bytes. -/
def State.codeWord (s : State) (c : Ctx) (pa : Nat) : Nat :=
  leVal (byteList (mget (mget s.codeSeen c.toNat)) pa 4)
/-- Fetch the instruction word at the pc of the acting thread: the word as it stands, or, where it has been stored to
since the last acquire, the old one (R108). A word that reads as poison traps with 0x13. DEDUCED, log entry 57. -/
def State.fetch (s : State) : State × Fetch :=
  let c := s.cur
  let pc := (s.thr c).pc
  match s.seqTranslate .fetch pc.toNat with
  | (s1, .pageFault) => (s1.holdThread 0x08 pc, .stop)
  | (s1, .prot) => (s1.trap c 0x0A pc, .stop)
  | (s1, .owner) => (s1.seqEnd 0x31 pc, .stop)
  | (s1, .ok pa _ dead tag) =>
    if dead then ((s1.seqRecord 0x0B pc false false).trap c 0x13 pc, .stop)
    else if s1.hardMem pa then
      (let s2 := s1.memError c pa tag seqCmd 0 pc
       (if tag = 0 then s2.trap c 0x13 pc else s2, .stop))
    else
      let now := leVal (s1.taskBytes (s1.taskAt c) pa 4)
      let old := s1.codeWord c pa
      if old == now || Config.pick s1.free % 2 == 0 then ((if old == now then s1 else { s1 with free := s1.free + 1 }), .word now)
      else ({ s1 with free := s1.free + 1 }, .word old)
/-- Execute the word that a thread has fetched; an illegal one traps with 0x01 (R105, R111).
DESIGN CHOICE, log entry 9. -/
def State.execWord (s : State) (w : Nat) : Out :=
  match decodeSeq w with
  | .ok i => exec i s
  | .error _ => .next (s.trap s.cur 0x01 (s.thr s.cur).pc)
/-- The issue slot of a context's thread. A stalled or idling instruction is fetched anew in each of its cycles (DESIGN CHOICE,
log entry 89). The Karuc handler is one operation (log entry 14). The cycle counts before the
instruction issues, so that an `mfs` of `cycle` counts its own (DESIGN CHOICE, log entry 79). -/
def State.threadAct (s : State) (c : Ctx) : Out :=
  let s1 := ({ s with cur := c } : State).modThr c (fun t => if (s.task (s.taskAt c)).phase == .resident then { t with cyc := t.cyc + 1 } else t)
  if !s1.runnable c then .next s1
  else if (s1.thr c).sup && (s1.thr c).pc == (Config.handlerEntry &&& ~~~(3 : Word)) then .next (s1.karuc c)
  else match s1.fetch with
    | (s2, .stop) => .next s2
    | (s2, .word w) => s2.execWord w

/-! ## Entries and commands -/

/-- The entry of an element that is due at its island's counter issues, in the real cycle of a fault of its gang too
(R221). -/
def State.entryAct (s : State) (c : Ctx) (e : ElemIx) : Out :=
  let s1 : State := { s with cur := c, curElem := e }
  match (s1.dueEntry c e.toNat).bind entryOf with
  | some i => exec i s1
  | none => .next s1
/-- What starting a command's record means: an attention command joins its queue, a collective its own. -/
def State.startRec (s : State) (i : Instr) : Out :=
  match i with
  | .atApp r => exec (.attentionQueueJoin .app r) s
  | .atSel r => exec (.attentionQueueJoin .sel r) s
  | .atAtt r => exec (.attentionQueueJoin .att r) s
  | .atTrunc r => exec (.attentionQueueJoin .trunc r) s
  | i => match collRec i with
    | some r => .next (s.collStart s.cur s.curCmd.toNat i r)
    | none => exec i s
/-- An accumulator cell past correction that a matrix command touches (R380). -/
def State.accLost (s : State) (c : Ctx) (i : Instr) : Option ErrLine :=
  let (rows, lo, n) := mxCells (match mget s.tileA c.toNat with | some t => 16 * (t.nb + 1) | none => 0) i
  s.errs.find? (fun x => x.hard && (match x.line with
    | .acc r p row col => ctxOf r.toNat p == c && rows.any (fun q => q.1 == row.toNat) && decide (lo ≤ col.toNat) && decide (col.toNat < lo + n)
    | _ => false))
def State.cmdAct (s : State) (c : Ctx) (k : BitVec 8) : Out :=
  let s1 : State := { s with cur := c, curCmd := k }
  match s1.cmdAt c k.toNat with
  | some i => (match s1.accLost c i with
    | some e => s1.lineLost c 0 e.line true
    | none => s1).startRec i
  | none => .next s1
/-- The oldest attention command of a context's queue leaves. -/
def State.attAct (s : State) (c : Ctx) : Out :=
  let s1 : State := { s with cur := c }
  match mget s1.atq c.toNat with
  | [] => .next s1
  | q :: _ => match q.op with
    | .app => exec (.atApp q.rec') s1
    | .sel => exec (.atSel q.rec') s1
    | .att => exec (.atAtt q.rec') s1
    | .trunc => exec (.atTrunc q.rec') s1
/-- The first queued collective of a resident task leaves. DEDUCED, log entry 61. -/
def State.collAct (s : State) (id : Nat) : Out :=
  let s1 : State := { s with cur := (s.task id).ctx }
  match ((s1.task id).firstOp true).bind (·.ins) with
  | some i => if s1.taskAt s1.cur = id then exec i s1 else .next s1
  | none => .next s1
/-- An island takes up its cycle; a due entry whose word is past correction ends the context. -/
def State.islAct (s : State) (c : Ctx) (i : Nat) : State :=
  let s1 := s.islandTake c i entryOf
  let lost := fun (e : Nat) => (s.errs.find? (fun x => x.hard && (match x.line with
    | .entry r p el ix => ctxOf r.toNat p == c && el.toNat == e &&
        (((s.cfg c e).entA ++ (s.cfg c e).entB)[ix.toNat]?).any (fun w => (s.dueEntry c e).any (· == w))
    | _ => false))).map (fun x => (e, x.line))
  match (islElems ((s.plane c).isls.getD i {})).findSome? lost with
  | some (e, l) => if (s1.isl c i).issued then s1.lineLost c e l true else s1
  | none => s1

/-! ## The end of a real cycle -/

/-- Contexts that issue in this real cycle. -/
def State.issuers (s : State) : List Ctx := (List.range 16).filterMap s.issuing
/-- Running islands of a context, by index. -/
def State.running (s : State) (c : Ctx) : List Nat :=
  (s.isls.filter (fun p => p.1 / 64 == c.toNat && p.2.running)).map (fun p => p.1 % 64)
/-- What ends an island cycle: window ends, captures, the interval sample, the finish. -/
def State.islandEvents (s : State) (c : Ctx) (i : Nat) : List Instr :=
  (if (s.isl c i).issued then (s.windowsDue c i).map (fun k => Instr.windowEnd c (BitVec.ofNat 8 k)) else []) ++
    [.islandCycle c (BitVec.ofNat 6 i), .intervalSample c (BitVec.ofNat 6 i), .islandFinish c (BitVec.ofNat 6 i)]
/-- Dispatch events that are due. -/
def State.dispatchEvents (s : State) : List Instr :=
  (List.range 16).flatMap (fun r =>
    (if s.sliceDue r then [Instr.sliceEnd (BitVec.ofNat 4 r)] else []) ++
    ([false, true].filter (fun p => s.stallDue (ctxOf r p))).map (fun p => Instr.stallTimeout (ctxOf r p)) ++
    (if stable (s.disp r).seqNo (s.disp r).acted then [.freeze (BitVec.ofNat 4 r)] else []) ++
    (if (s.disp r).drain != 0 && (s.disp r).drain ≤ s.cycle then [.drainEnd (BitVec.ofNat 4 r)] else []))
/-- The end of a real cycle: checks are decided, links deliver, islands end their cycle, dispatch acts, and gangs
that faults end are ended last. DESIGN CHOICE, log entry 3. -/
def State.lastAct (s : State) : State :=
  let s1 := ((List.range 32).map (BitVec.ofNat 5)).foldl (fun s c => s.decideChks c) s
  let s2 := (List.range 16).foldl (fun s r => if s.dispatchDue r then s.redispatch r else s) s1
  { s2 with agenda := ((s2.linksDue.map (fun l => Instr.lockEntryAvailable l.1 l.2.1 l.2.2)) ++
      s2.issuers.flatMap (fun c => (s2.running c).flatMap (s2.islandEvents c)) ++ s2.dispatchEvents).map Act.ev ++
      Act.banks :: Act.reap :: s2.agenda }

/-! ## What comes about by itself -/

/-- What may come about in a real cycle: an act, whether a stated bound makes it due now, and the message that it
takes away from the outside. -/
structure Chance where
  act : Act
  must : Bool := false
  host : Bool := false
  link : Option Nat := none
  deriving DecidableEq, Repr, Inhabited
def may (i : Instr) : Chance := { act := .ev i }
/-- Whether an earlier message of a list is of the same class, source and destination, so that it goes first (R365).
DEDUCED, log entry 63. -/
def flowOf : Instr → Option (Nat × Nat)
  | .remoteWrite s _ _ | .remoteRead s _ _ | .remoteAtomic s _ _ _ _ _ => some (0, s.who.pkg.toNat)
  | .mailboxDelivery s _ _ => some (1, s.who.pkg.toNat)
  | .remotePageRequest s _ => some (2, s.who.pkg.toNat)
  | .collectivePacket (.part p) => some (3, (p.members.getD p.rank 0).toNat)
  | .collectivePacket (.ended _ _ p) | .collectivePacket (.arrive _ p) | .collectivePacket (.barEnded _ p) => some (3, p.toNat)
  | .linkPathFailure _ => some (4, 0)
  | _ => none
/-- Whether no earlier message of the list is of the same flow (R369). DEDUCED, log entry 63. -/
def firstOfFlow (l : List Instr) (n : Nat) : Bool :=
  match l[n]? with
  | none => false
  | some i => (flowOf i).isNone || (l.take n).all (fun j => flowOf j != flowOf i)
/-- Whether each `gload` of a context in flight is due, oldest first (R296). -/
def State.gloadsDue (s : State) (c : Ctx) : List Bool :=
  (s.thr c).pend.filterMap (fun p => match p.kind with
    | .gload g n _ => some (decide (n + 104 + (s.graphSize ((s.task (s.taskAt c)).graphs.getD g 0) + 255) / 256 ≤ s.cycle))
    | _ => none)
/-- Microseconds after the write of a record in which hardware spills, or restores, a context; the two and the dispatch
word stay within the 48 of R153. -/
def berthBound : Nat := 22
/-- Whether a context has to be spilled soon: what its spill waits for comes about now, but for the replies of other packages
(R153). DESIGN CHOICE, log entry 60. -/
def State.pressed (s : State) (c : Ctx) : Bool :=
  let b := s.berth c
  stable b.seqNo b.acted && !b.valid && (s.task (s.taskAt c)).phase == .resident && decide (b.wrote + (berthBound - 2) * perUs ≤ s.cycle)
/-- Writes of registers in flight and waits of a context. The event of a `gload` lands the oldest, so that one that is due
makes those before it land too. -/
def State.threadChances (s : State) (c : Ctx) : List Chance :=
  let t := s.thr c
  let press := s.pressed c
  let due := s.gloadsDue c
  t.pend.filterMap (fun p => match p.kind with
    | .value => some { act := .ev (.pendingWriteLands c p.d)
                       must := press || (p.due.bind (fun n => match p.dev with
                         | some pa => s.within (s.taskAt c) pa 2048 n
                         | none => some n)).any (fun n => decide (n ≤ s.cycle)) }
    | .spawn _ _ _ _ => some { act := .ev (.tspawnReply c), must := press }
    | .gload _ _ _ | .link _ => none) ++
  (List.range due.length).map (fun n => { act := .ev (.gloadComplete c), must := press || (due.drop n).any id }) ++
  (if t.idle.any (fun n => decide (n + waitLimit ≤ s.cycle)) && !t.woken then [{ act := .ev (.waitTimeout c), must := true }]
   else [])
/-- Transfers of the running commands of a context. -/
def State.streamChances (s : State) : List Chance :=
  (s.runs.filter (fun p => p.2.tries)).flatMap (fun p =>
    let c : Ctx := BitVec.ofNat 5 (p.1 / 256)
    let k : BitVec 8 := BitVec.ofNat 8 p.1
    let due := (s.nextBound c k.toNat).any (fun n => decide (n ≤ s.cycle)) || (s.pressed c && s.moving c k.toNat)
    if due || s.spares c k.toNat then
      [{ act := .ev (.streamReadArrives c k), must := due }, { act := .ev (.writeBeatAccepted c k), must := due }]
    else [])
/-- Attention commands, collectives and link operations. -/
def State.linkChances (s : State) : List Chance :=
  (s.atq.filter (fun p => !p.2.isEmpty)).map (fun p => { act := .att (BitVec.ofNat 5 p.1) }) ++
  s.atRun.zipIdx.map (fun p => { act := .attGo p.2 }) ++
  s.tasks.flatMap (fun p =>
    (if (p.2.firstOp true).isSome then [{ act := .coll p.1 }] else []) ++
    (if (p.2.firstOp false).isSome then [may (.linkOpLeaves (BitVec.ofNat 32 p.1))] else [])) ++
  (if s.mailWait.any s.mailReady then [{ act := .mail }] else [])
/-- Worst-case release of a barrier after its last arrival (R14). -/
def barBound : Scope → Option Nat
  | .core => some 16 | .quad => some 48 | .die => some 96 | .package => some 256 | _ => none
/-- Barriers and commits. -/
def State.orderChances (s : State) : List Chance :=
  s.bars.filterMap (fun p =>
    let sc := scopeOfNum (p.1 / 512)
    let inst := p.1 / 16 % 32
    if s.barFull sc inst p.2 then
      some { act := .ev (.barrierRelease sc (BitVec.ofNat 5 inst) (BitVec.ofNat 4 p.1))
             must := (barBound sc).any (fun b => decide (p.2.last + b ≤ s.cycle)) }
    else none) ++
  (s.tasks.filter (fun p => s.isHead p.1 && s.ready p.1)).map (fun p =>
    may (.commit p.2.scope (BitVec.ofNat 5 (instOf p.2.scope p.2.ctx))))
/-- The lockkeeper and the loader. -/
def State.loadChances (s : State) : List Chance :=
  (s.queues.filter (fun p => !p.2.msgs.isEmpty)).map (fun p => { act := .takeMsg (BitVec.ofNat 8 p.1) }) ++
  s.gangs.filterMap (fun p =>
    if p.2.phase == .between then some (may (.batchIteration p.1))
    else if (s.underLoad p.1).any (fun id => (s.task id).step3.isNone && s.bookedAt (s.task id).ctx != id) then
      some (may (.gangPlacement p.1))
    else none) ++
  (s.standby.filter (fun p => p.2.isSome && (mget s.owner p.1).isNone && !s.start.measuring.contains (p.1 / 2))).map (fun p =>
    { act := .ev (.planeSwap (BitVec.ofNat 5 p.1)), must := true })
/-- Cycles of a pass of the scrubber over the on-die arrays, 100 ms, and over HBM, 24 hours (R380). A line is read again
before the end of the pass after the one that read it. -/
def State.scrubPass (s : State) (l : ArrayLine) : Nat :=
  match l with
  | .mem g => if s.place (64 * g.toNat) == .basin then 400000000 else 345600000000000
  | _ => 400000000
/-- Whether the fetches of a context may still see words that have been stored to (R108). -/
def State.stale (s : State) (c : Ctx) : Bool :=
  (s.task (s.taskAt c)).phase == .resident && mget s.codeSeen c.toNat != s.seenMem (s.taskAt c)
/-- The fetches of a context take up one word of memory as it stands, so that they may see each of the stores to it
(R108, R390). DESIGN CHOICE, log entry 57. -/
def State.refill (s : State) (c : Ctx) : State :=
  let old := mget s.codeSeen c.toNat
  let now := s.seenMem (s.taskAt c)
  match (mkeys old ++ mkeys now).filter (fun a => mget old a != mget now a) with
  | [] => s
  | a :: as =>
    let w := ((a :: as).getD (Config.pick s.free % (a :: as).length) a) / 4 * 4
    { s with codeSeen := mset s.codeSeen c.toNat (putBytes old w (byteList (mget now) w 4)), free := s.free + 1 }
/-- Berths that hardware acts on, breakpoints, fault records, interrupt windows, ageing, scrubbing and refresh.
DESIGN CHOICE, log entry 62. -/
def State.restChances (s : State) : List Chance :=
  (s.berths.filter (fun p => stable p.2.seqNo p.2.acted)).map (fun p =>
    { act := .ev (if p.2.valid then .restore (BitVec.ofNat 5 p.1) else .spill (BitVec.ofNat 5 p.1))
      must := p.2.wrote + berthBound * perUs ≤ s.cycle }) ++
  (s.threads.filter (fun p => p.2.held == .debug)).map (fun p => { act := .unfreeze (BitVec.ofNat 5 p.1) }) ++
  (((List.range 32).map (BitVec.ofNat 5)).filter s.stale).map (fun c => { act := .refill c }) ++
  [{ act := .attest (Config.freeWord s.free) }] ++
  (if s.faultQ.isEmpty || s.fb.full then [] else [may .faultRecordWrite]) ++
  (s.queues.filter (fun p => s.windowDue p.1)).map (fun p => { act := .ev (.coalesceWindowClose (BitVec.ofNat 8 p.1)), must := true }) ++
  (List.range 16).map (fun r => { act := .ev (.ageingCheck (BitVec.ofNat 4 r))
                                  must := s.ageingDue r ||
                                    (s.start.measuring.contains r && decide (s.start.since + measureLimit ≤ s.cycle)) }) ++
  (s.errs.filter (fun e => s.scrubs e.line)).map (fun e =>
    { act := .ev (.scrubLine e.line), must := e.at' + 2 * s.scrubPass e.line ≤ s.cycle }) ++
  (if s.cycle % 975 = 0 then (List.range 768).map (fun n =>
    { act := .ev (.refresh (BitVec.ofNat 4 (n / 64)) (BitVec.ofNat 5 (n / 2)) (n % 2 == 1)), must := true }) else [])
/-- Everything that may come about. Before the start is ready, only its steps and the host's accesses do.
DESIGN CHOICE, log entry 4. -/
def State.chances (s : State) : List Chance :=
  (match s.hostIn with
    | [] => []
    | i :: _ => [{ act := .ev i, host := true }]) ++
  (if !s.start.ready then
    [{ act := .startStep }, { act := .ev .startTimeout, must := s.start.began + startLimit ≤ s.cycle }]
  else
    ((List.range s.linkIn.length).filter (firstOfFlow s.linkIn)).map (fun n =>
      { act := .ev (s.linkIn.getD n .tend), link := some n }) ++
    ((List.range 32).map (BitVec.ofNat 5)).flatMap s.threadChances ++ s.streamChances ++ s.linkChances ++ s.orderChances ++
      s.loadChances ++ s.restChances)
/-- The chances that come about, in the order of their list. -/
def State.taken (s : State) : List Chance :=
  (s.chances.zipIdx.filter (fun p => p.1.must || Config.happens s.cycle p.2)).map (·.1)
/-- Whether firmware empties a region that it measures (R383). -/
def State.clearing (s : State) (r : Nat) : Bool := s.start.measuring.contains r && decide (s.start.since + clearLimit ≤ s.cycle)
/-- Firmware takes a context out of its partition, one that issues too: it writes the dispatch word and the berth record. -/
def State.takeOut (s : State) (c : Ctx) : State :=
  let d := s.disp (regionOf c)
  let s1 := if d.live == some (c.toNat % 2 == 1) && !stable d.seqNo d.acted then
      s.setDisp (regionOf c) { d with none' := true, seqNo := d.seqNo + 2, sliceEnd := 0 } else s
  s1.berthWrite c (s.taskAt c) false
/-- Firmware's own choices: it may take a frozen context out of its partition where its record names a save area, name one in
the record of a context without, or bring a spilled context back (R149), and it empties a region in time for its measuring
(R383). DESIGN CHOICE, log entry 60. -/
def State.firmware (s : State) : State :=
  let quiet := fun (s : State) (c : Ctx) => !stable (s.berth c).seqNo (s.berth c).acted
  ((List.range 32).map (BitVec.ofNat 5)).foldl (fun (s : State) (c : Ctx) =>
    let k := s.free
    let s1 : State := { s with free := k + 1 }
    let id := s.taskAt c
    let here := (s.task id).phase == .resident
    let area := (s.berth c).area != 0
    if !quiet s c then s1
    else if here && area && s.clearing (regionOf c) then s1.takeOut c
    else if !Config.happens s.cycle (2 ^ 20 + c.toNat) then s1
    else if here && !area then (if (s.saveRuns c id).isEmpty then s1 else s1.berthWrite c id true)
    else if here && s.served (regionOf c) != some c then s1.berthWrite c id false
    else if s.taskAt c = 0 && s.bookedAt c = 0 && !s.start.measuring.contains (regionOf c) then
      (match s.tasks.find? (fun p => p.2.phase == .spilled && p.2.ctx == c) with
      | some p => s1.berthBack c p.1
      | none => s1)
    else s1) s
/-- An upset of a memory cell. -/
def State.upset (s : State) : State :=
  if s.start.ready && Config.happens s.cycle (2 ^ 20 + 32) then
    { s with errs := s.errs ++ [{ line := (Config.upset s.free).1, hard := (Config.upset s.free).2, at' := s.cycle }], free := s.free + 1 }
  else s
/-- A real cycle begins: what comes about of itself, then the islands and the threads that issue, then its end.
DESIGN CHOICE, log entry 3. -/
def State.advance (s0 : State) : State :=
  let s := (if s0.start.ready then ({ s0 with cycle := s0.cycle + 1 } : State).firmware else { s0 with cycle := s0.cycle + 1 }).upset
  let now := s.taken
  let links := now.filterMap (·.link)
  { s with
    hostIn := if now.any (·.host) then s.hostIn.tail else s.hostIn
    linkIn := (s.linkIn.zipIdx.filter (fun p => !links.contains p.2)).map (·.1)
    agenda := now.map (·.act) ++
      s.issuers.flatMap (fun c => (s.running c).map (fun i => Act.isl c (BitVec.ofNat 6 i))) ++
      s.issuers.map Act.thread ++ [.last] }

/-! ## Where the next step takes an instruction from (log entry 5) -/

/-- Context 0 holds a resident task whose thread can issue in user mode, and nothing keeps it from that.
DESIGN CHOICE, log entry 5. -/
def State.lone (s : State) : State :=
  let t := s.task 1
  let k := s.thr 0
  { s with
    start := { s.start with ready := true }
    tasks := mset s.tasks 1 { t with gang := 1, phase := .resident, ctx := 0, hold := [] }
    gangs := mset s.gangs 1 { s.gang 1 with size := max 1 (s.gang 1).size }
    owner := mset s.owner 0 (some 1)
    threads := mset s.threads 0 { k with sup := false, stopped := false, held := .no, nextIssue := 0, pc := k.pc &&& 0xFFFFFFFFFFFC#64 }
    errs := [], dying := [] }
/-- A word at the pc of context 0, whose page maps to the first frame of device memory for fetches. -/
def State.placeSeq (s : State) (w : Nat) : State :=
  let s1 := s.lone
  let pc := (s1.thr 0).pc.toNat
  let e : TlbEnt := { tenant := (s1.task 1).tenant, base := pc / 65536 * 65536, size := 65536, pte := 0x41B }
  { s1 with tlb1 := mset s1.tlb1 0 (e :: mget s1.tlb1 0)
            mem := putBytes s1.mem (pc % 65536) (leList 4 w)
            codeSeen := mset s1.codeSeen 0 (putBytes s1.mem (pc % 65536) (leList 4 w))
            agenda := [.thread 0] }
/-- An entry of element 0, whose island runs at the entry's stamp. -/
def State.placeEntry (s : State) (w : Nat) : State :=
  let s1 := s.lone
  let p := mget s1.active 0
  let cfg : ElemCfg := { mget p.elems 0 with entA := [BitVec.ofNat 64 w], entB := [] }
  let x : Isl := { running := true, ctr := w / 2 ^ 52 % 4096, abs := w / 2 ^ 52 % 4096, left := 1 }
  { s1 with active := mset s1.active 0 { p with isls := [{ period := 4096, count := 1 }], elems := mset p.elems 0 cfg }
            isls := mset s1.isls 0 x
            agenda := [.entry 0 0] }
/-- A record of the command table; one that leaves later stands at the front of its queue. -/
def State.placeRec (s : State) (ws : List Nat) : State :=
  let s1 := s.lone
  let r : CmdRec := { words := ws.map (BitVec.ofNat 64) }
  let s2 : State := { s1 with cmdTab := mset s1.cmdTab 0 r, agenda := [.cmd 0 0] }
  let queue := fun (op : AtOp) (x : AtRec) =>
    { s2 with atq := mset s2.atq 0 [({ cmd := 0, op := op, rec' := x, startReal := 0 } : AtQueued)], agenda := [.att 0] }
  match readRec r with
  | some (.atApp x) => queue .app x
  | some (.atSel x) => queue .sel x
  | some (.atAtt x) => queue .att x
  | some (.atTrunc x) => queue .trunc x
  | some i => if (collRec i).isSome then
      { s2.setTask 1 { s2.task 1 with links := [{ num := 0, kind := .coll, ins := some i }] } with agenda := [.coll 1] }
    else s2
  | none => s2
/-- An instruction of the opcode table where the next step takes it. -/
def State.placeNext (s : State) (nbits w : Nat) : State :=
  match nbits with
  | 32 => s.placeSeq w
  | 64 => s.placeEntry w
  | 512 => s.placeRec (words64 8 w)
  | _ => s

/-! ## Acts -/

/-- How an act performs. -/
def State.perform (s : State) (a : Act) : Out :=
  match a with
  | .thread c => s.threadAct c
  | .entry c e => s.entryAct c e
  | .cmd c k => s.cmdAct c k
  | .att c => s.attAct c
  | .attGo i => .next (s.attGo i)
  | .coll id => s.collAct id
  | .mail => .next s.mailStep
  | .unfreeze c => .next (s.unfreeze c)
  | .refill c => .next (s.refill c)
  | .isl c i => .next (s.islAct c i.toNat)
  | .last => .next s.lastAct
  | .banks => .next s.bankTurn
  | .reap => .next s.reap
  | .takeMsg q => .next (s.takeMsg q)
  | .startStep => .next s.startStep
  | .attest n => .next (s.attest n)
  | .ev i => exec i s
/-- The thread that an act is of. -/
def Act.actor : Act → Option Ctx
  | .thread c => some c
  | _ => none
/-- After each act every head drains its hold (R79), and the loads in flight look at memory again (R96, R390). -/
def settleOut (actor : Option Ctx) : Out → Out
  | .next s => .next (s.settle.lookAgain actor)
  | r => r

end Sys2Proof.Machine
end

