-- ==== Sys2Proof/Machine/Step.lean ====
section
/-!
DEFINITION. One step of the machine: the next act of the agenda, or the begin of a real cycle; and the state in which
the next step runs a given instruction.
-/

namespace Sys2Proof.Machine

/-- One step. -/
def step (s : State) : Host.Outcome State Fault Refusal :=
  match s.agenda with
  | [] => .next s.advance
  | a :: rest => settleOut a.actor (({ s with agenda := rest } : State).perform a)

/-- The state s with an instruction of the opcode table where the next step takes it (log entry 5): a sequencer word
at the pc of a resident thread in user mode, an entry in the store of an element whose island runs at its stamp, or a
record in the command table. -/
def State.withFetchWord (s : State) (nbits w : Nat) : State := s.placeNext nbits w

end Sys2Proof.Machine
end

