-- ==== Sys2Proof/Certificates/Slice0/Obligations.lean ====
section
/-!
DEFINITION. The statements about the machine, one definition each, and the vocabulary they share: what the spec's
tables say an instruction computes, and what leaves everything else alone.
-/

namespace Sys2Proof.Claims

open Sys2Proof.Machine

/-! ## What a thread is after an instruction -/

/-- The thread `u` after it has gone on to the next word, its registers and its writes in flight apart. -/
def advanced (u : Thread) : Thread :=
  { u with pc := u.pc + 4, waitSince := none, idle := none, woken := false, barArrived := false, barReleased := false }

/-- `w` is `u` after an instruction that wrote `v`, with poison `p`, to register `d` and went on to the next word. g0
keeps its value. No other register, no system register and no write in flight changes. -/
structure Wrote (u w : Thread) (d : Reg) (v : Word) (p : Bool) : Prop where
  value : ∀ r, w.get r = if r = d ∧ d ≠ 0 then v else u.get r
  poison : ∀ r, w.poisoned r = if r = d ∧ d ≠ 0 then p else u.poisoned r
  ready : ∀ r, r ≠ d → mget w.ready r.toNat = mget u.ready r.toNat
  rest : { w with g := u.g, poison := u.poison, ready := u.ready } = advanced u

/-- The acting thread has none of the registers of an instruction in flight, and no result of fixed latency that it
reads is still to come (R108, R109). -/
def Free (s : State) (srcs dsts : List Reg) : Prop := (s.thr s.cur).busy s.cycle srcs dsts = false

/-- `t` differs from `s` at most in the acting thread. -/
def OnlyThread (s t : State) : Prop := t = s.setThr s.cur (t.thr s.cur)

/-! ## Integer group and immediates (R112 to R114) -/

/-- Destination, sources and result of an integer or immediate instruction, from the tables of R112 to R114. -/
def intSpec (g : Reg → Word) : Instr → Option (Reg × List Reg × Word)
  | .add d a b => some (d, [a, b], BitVec.ofNat 64 ((g a).toNat + (g b).toNat))
  | .sub d a b => some (d, [a, b], BitVec.ofInt 64 ((g a).toInt - (g b).toInt))
  | .and d a b => some (d, [a, b], BitVec.ofNat 64 (Nat.land (g a).toNat (g b).toNat))
  | .or d a b => some (d, [a, b], BitVec.ofNat 64 (Nat.lor (g a).toNat (g b).toNat))
  | .xor d a b => some (d, [a, b], BitVec.ofNat 64 (Nat.xor (g a).toNat (g b).toNat))
  | .shl d a b => some (d, [a, b], BitVec.ofNat 64 ((g a).toNat * 2 ^ ((g b).toNat % 64)))
  | .shr d a b => some (d, [a, b], BitVec.ofNat 64 ((g a).toNat / 2 ^ ((g b).toNat % 64)))
  | .sra d a b => some (d, [a, b], BitVec.ofInt 64 ((g a).toInt / 2 ^ ((g b).toNat % 64)))
  | .slt d a b => some (d, [a, b], if (g a).toInt < (g b).toInt then 1 else 0)
  | .sltn d a b => some (d, [a, b], if (g a).toNat < (g b).toNat then 1 else 0)
  | .min d a b => some (d, [a, b], BitVec.ofInt 64 (min (g a).toInt (g b).toInt))
  | .max d a b => some (d, [a, b], BitVec.ofInt 64 (max (g a).toInt (g b).toInt))
  | .minn d a b => some (d, [a, b], BitVec.ofNat 64 (min (g a).toNat (g b).toNat))
  | .maxn d a b => some (d, [a, b], BitVec.ofNat 64 (max (g a).toNat (g b).toNat))
  | .mul d a b => some (d, [a, b], BitVec.ofNat 64 ((g a).toNat * (g b).toNat))
  | .mulh d a b => some (d, [a, b], BitVec.ofInt 64 ((g a).toInt * (g b).toInt / 2 ^ 64))
  | .mulhn d a b => some (d, [a, b], BitVec.ofNat 64 ((g a).toNat * (g b).toNat / 2 ^ 64))
  | .div d a b => some (d, [a, b], if (g b).toNat = 0
      then (if (g a).toInt < 0 then BitVec.allOnes 64 else BitVec.ofNat 64 (2 ^ 63 - 1))
      else BitVec.ofInt 64 ((g a).toInt.tdiv (g b).toInt))
  | .divn d a b => some (d, [a, b], if (g b).toNat = 0 then BitVec.allOnes 64 else BitVec.ofNat 64 ((g a).toNat / (g b).toNat))
  | .rem d a b => some (d, [a, b], if (g b).toNat = 0 then g a
      else BitVec.ofInt 64 ((g a).toInt - (g b).toInt * (g a).toInt.tdiv (g b).toInt))
  | .remn d a b => some (d, [a, b], if (g b).toNat = 0 then g a
      else BitVec.ofNat 64 ((g a).toNat - (g b).toNat * ((g a).toNat / (g b).toNat)))
  | .addx d a b k => some (d, [a, b], BitVec.ofNat 64 ((g a).toNat + (g b).toNat * 2 ^ k.toNat))
  | .addi d a i => some (d, [a], BitVec.ofInt 64 ((g a).toInt + i.toInt))
  | .slti d a i => some (d, [a], if (g a).toInt < i.toInt then 1 else 0)
  | .sltni d a i => some (d, [a], if (g a).toNat < (BitVec.ofInt 64 i.toInt).toNat then 1 else 0)
  | .andi d a i => some (d, [a], BitVec.ofNat 64 (Nat.land (g a).toNat i.toNat))
  | .ori d a i => some (d, [a], BitVec.ofNat 64 (Nat.lor (g a).toNat i.toNat))
  | .xori d a i => some (d, [a], BitVec.ofNat 64 (Nat.xor (g a).toNat i.toNat))
  | .shli d a i => some (d, [a], BitVec.ofNat 64 ((g a).toNat * 2 ^ i.toNat))
  | .shri d a i => some (d, [a], BitVec.ofNat 64 ((g a).toNat / 2 ^ i.toNat))
  | .srai d a i => some (d, [a], BitVec.ofInt 64 ((g a).toInt / 2 ^ i.toNat))
  | .lui d i => some (d, [], BitVec.ofInt 64 (BitVec.ofNat 32 (i.toNat * 65536)).toInt)
  | _ => none

/-- Cycles from issue to a result that a dependant can use (R108). -/
def intLatency : Instr → Nat
  | .mul .. | .mulh .. | .mulhn .. => 4
  | .div .. | .divn .. | .rem .. | .remn .. => 20
  | _ => 1

end Sys2Proof.Claims

open Sys2Proof Sys2Proof.Machine Sys2Proof.Claims

/-- R110, R112 to R114: every integer and immediate instruction whose registers are free puts the table's result into
its destination, poisoned if a source is, goes on to the next word and changes nothing else. -/
def Sys2Proof.Claims.IntegerResults : Prop :=
  ∀ (i : Instr) (s : State) (d : Reg) (srcs : List Reg) (v : Word),
    intSpec (s.thr s.cur).get i = some (d, srcs, v) → Free s srcs [d] →
    ∃ t, exec i s = .next t ∧ OnlyThread s t ∧
      Wrote (s.thr s.cur) (t.thr s.cur) d v (srcs.any (s.thr s.cur).poisoned)

/-- R108: a dependant of an integer result stalls in every cycle from the issue on until the latency of R108 has
passed, and for that result no longer. -/
def Sys2Proof.Claims.IntegerLatency : Prop :=
  ∀ (i : Instr) (s t : State) (d : Reg) (srcs : List Reg) (v : Word) (n : Nat),
    intSpec (s.thr s.cur).get i = some (d, srcs, v) → Free s srcs [d] → d ≠ 0 → exec i s = .next t →
    (s.cycle < n → ((t.thr s.cur).busy n [d] [] = true ↔ n < s.cycle + intLatency i))

namespace Sys2Proof.Claims

/-- None of these registers is poisoned. -/
def Clean (s : State) (srcs : List Reg) : Prop := ∀ r ∈ srcs, (s.thr s.cur).poisoned r = false
/-- `r` is the poisoned register with the lowest number among these. -/
def LowestPoisoned (u : Thread) (srcs : List Reg) (r : Reg) : Prop :=
  r ∈ srcs ∧ u.poisoned r = true ∧ ∀ q ∈ srcs, u.poisoned q = true → r.toNat ≤ q.toNat
/-- The state in which the acting thread is `u` and everything else is as in `s`. -/
def withThread (s : State) (u : Thread) : State := s.setThr s.cur u
/-- The thread `u` held where it is: it issues the same instruction again. -/
def waiting (u : Thread) (now : Nat) : Thread := { u with waitSince := some (u.waitSince.getD now) }
/-- The thread `u` after a transfer to `target`, whose next issue is at the real cycle `next`. -/
def jumped (u : Thread) (target : Word) (next : Nat) : Thread :=
  { u with pc := target, waitSince := none, idle := none, woken := false, nextIssue := next }
/-- `w` is `u` after a jump of real cycle `now` that wrote `v`, unpoisoned, to its link register `d` and goes to `target`
with the next issue at `next`. A dependant of the link register waits for nothing, g0 keeps its value, and no other
register, poison bit or latency changes. -/
structure Linked (now : Nat) (u w : Thread) (d : Reg) (v target : Word) (next : Nat) : Prop where
  value : ∀ r, w.get r = if r = d ∧ d ≠ 0 then v else u.get r
  poison : ∀ r, w.poisoned r = if r = d ∧ d ≠ 0 then false else u.poisoned r
  ready : ∀ r, r ≠ d → mget w.ready r.toNat = mget u.ready r.toNat
  free : ∀ n, now < n → w.busy n [d] [] = false
  rest : { w with g := u.g, poison := u.poison, ready := u.ready } = jumped u target next
/-- An address of a load, store or jump: base and sign-extended offset. -/
def based (base : Word) (off : BitVec 16) : Word := BitVec.ofInt 64 (base.toNat + off.toInt)
/-- Operands of a branch and whether its condition holds, from R120. -/
def branchSpec (g : Reg → Word) : Instr → Option (Reg × Reg × BitVec 16 × Bool)
  | .beq a b off => some (a, b, off, decide ((g a).toNat = (g b).toNat))
  | .bne a b off => some (a, b, off, decide ((g a).toNat ≠ (g b).toNat))
  | .blt a b off => some (a, b, off, decide ((g a).toInt < (g b).toInt))
  | .bge a b off => some (a, b, off, decide ((g b).toInt ≤ (g a).toInt))
  | .bltn a b off => some (a, b, off, decide ((g a).toNat < (g b).toNat))
  | .bgen a b off => some (a, b, off, decide ((g b).toNat ≤ (g a).toNat))
  | _ => none
/-- Destination, base and offset of a jump (`jal` has no base). -/
def linkReg : Instr → Option Reg
  | .jal d _ | .jlr d _ _ => some d
  | _ => none

/-- Registers that an instruction reads, with poison trapping (R110), and the destination that it writes. The first
part is `none` for instructions that read no register in that way. -/
def needs : Instr → Option (List Reg × List Reg)
  | .beq a b _ | .bne a b _ | .blt a b _ | .bge a b _ | .bltn a b _ | .bgen a b _ => some ([a, b], [])
  | .jal d _ => some ([], [d])
  | .jlr d a _ => some ([a], [d])
  | .lb d a _ | .lbn d a _ | .lh d a _ | .lhn d a _ | .lw d a _ | .lwn d a _ | .ld d a _ => some ([a], [d])
  | .sb r a _ | .sh r a _ | .sw r a _ | .sd r a _ => some ([a, r], [])
  | .aswp d a b _ _ _ | .aadd d a b _ _ _ | .aand d a b _ _ _ | .aor d a b _ _ _ | .axor d a b _ _ _
  | .amin d a b _ _ _ | .amax d a b _ _ _ | .aminn d a b _ _ _ | .amaxn d a b _ _ _ => some ([a, b], [d])
  | .acas d a b _ _ _ => some ([a, b, d], [d])
  | .tspawn d a _ => some ([a, 8, 9, 10, 11, 12, 13, 14, 15], [d])
  | .cwait d a b _ => some ([a, b], [d])
  | .cmdw a b _ => some ([a, b], [])
  | .gload d _ => some ([], [d])
  | .gfree a => some ([a], [])
  | .gstat d a => some ([a], [d])
  | .camw _ a _ => some ([a], [])
  | .lput a | .lget a | .lsend a | .lnotify a => some ([a], [])
  | .lamo d a | .mrecv d a => some ([a], [d])
  | _ => none

end Sys2Proof.Claims

/-- R120: a branch whose registers are free and unpoisoned goes to its own address + 4 x sext(off16) when its
condition holds, with the next issue two cycles later (R108), and to the next word otherwise. Nothing else changes. A
poisoned operand raises 0x13 with the number of the lowest one (R110). -/
def Obligations.BranchOutcomes : Prop :=
  ∀ (i : Instr) (s : State) (a b : Reg) (off : BitVec 16) (taken : Bool),
    branchSpec (s.thr s.cur).get i = some (a, b, off, taken) → Free s [a, b] [] →
    (Clean s [a, b] → exec i s = .next (withThread s (if taken
      then jumped (s.thr s.cur) (BitVec.ofInt 64 ((s.thr s.cur).pc.toNat + 4 * off.toInt)) (s.cycle + 2)
      else advanced (s.thr s.cur)))) ∧
    (∀ r, LowestPoisoned (s.thr s.cur) [a, b] r → exec i s = .next (s.trap s.cur 0x13 (BitVec.ofNat 64 r.toNat)))

/-- R121: `jal` and `jlr` write the next address, unpoisoned, to d, where d is not g0, and go to their target, with
the next issue two or three cycles later (R108); a `jlr` reads its base before the write. A `jlr` to a target that is
not a multiple of 4 traps with 0x02 and the target and writes nothing. No other register, poison bit or other state
changes. -/
def Obligations.JumpOutcomes : Prop :=
  (∀ (s : State) (d : Reg) (off : BitVec 21), Free s [] [d] →
    ∃ t, exec (.jal d off) s = .next t ∧ OnlyThread s t ∧
      Linked s.cycle (s.thr s.cur) (t.thr s.cur) d ((s.thr s.cur).pc + 4)
        (BitVec.ofInt 64 ((s.thr s.cur).pc.toNat + 4 * off.toInt)) (s.cycle + 2)) ∧
  (∀ (s : State) (d a : Reg) (off : BitVec 16), Free s [a] [d] → Clean s [a] →
    (based ((s.thr s.cur).get a) off).toNat % 4 = 0 →
    ∃ t, exec (.jlr d a off) s = .next t ∧ OnlyThread s t ∧
      Linked s.cycle (s.thr s.cur) (t.thr s.cur) d ((s.thr s.cur).pc + 4)
        (based ((s.thr s.cur).get a) off) (s.cycle + 3)) ∧
  (∀ (s : State) (d a : Reg) (off : BitVec 16), Free s [a] [d] → Clean s [a] →
    (based ((s.thr s.cur).get a) off).toNat % 4 ≠ 0 →
    exec (.jlr d a off) s = .next (s.trap s.cur 0x02 (based ((s.thr s.cur).get a) off)))

namespace Sys2Proof.Claims

/-- The numbers of the system registers, and of those that may be written (R102). -/
def sysNumbers : List Nat :=
  [0x000, 0x001, 0x002, 0x003, 0x004, 0x005, 0x006, 0x007, 0x008, 0x100, 0x101, 0x102, 0x103, 0x104, 0x105, 0x106, 0x107, 0x108]
def sysWrites : List Nat := [0x006, 0x100, 0x101, 0x102, 0x103, 0x104, 0x105]
/-- Whether the acting thread may name a system register. -/
def Allowed (s : State) (n : Nat) : Prop := n < 0x100 ∨ (s.thr s.cur).sup = true
/-- Registers that `mfs`, `mts` or `tlbinv` reads, with poison trapping, and writes, where the acting thread may execute it
(R101, R122). -/
def systemNeeds (s : State) (i : Instr) (srcs dsts : List Reg) : Prop :=
  (∃ d n, i = .mfs d n ∧ n.toNat ∈ sysNumbers ∧ Allowed s n.toNat ∧ srcs = [] ∧ dsts = [d]) ∨
  (∃ a n, i = .mts a n ∧ n.toNat ∈ sysWrites ∧ Allowed s n.toNat ∧ srcs = [a] ∧ dsts = []) ∨
  (∃ a, i = .tlbinv a ∧ (s.thr s.cur).sup = true ∧ srcs = [a] ∧ dsts = [])

end Sys2Proof.Claims

/-- R109: an instruction that reads or writes a pending register stalls: its thread issues it again, and nothing else
changes but the mark of when the wait began. The instructions are the integer group and immediates, branches, jumps,
loads, stores, atomics, those of task control, engine control and the link group that name a register, and `mfs`,
`mts` and `tlbinv` where they may be executed. That a `tspawn` reads g8 to g15 is DEDUCED, log entry 17. -/
def Obligations.PendingRegistersStall : Prop :=
  ∀ (i : Instr) (s : State) (srcs dsts : List Reg),
    (needs i = some (srcs, dsts) ∨ systemNeeds s i srcs dsts ∨
      ∃ d v, intSpec (s.thr s.cur).get i = some (d, srcs, v) ∧ dsts = [d]) →
    (∃ r, r ∈ srcs ++ dsts ∧ (s.thr s.cur).pending r = true) →
    exec i s = .next (withThread s (waiting (s.thr s.cur) s.cycle))

/-- R110: a branch, a `jlr`, a load, a store, an atomic, a `tspawn`, `cwait`, `cmdw`, `gfree`, `gstat`, `camw`, `mts`,
`tlbinv` or link instruction that reads a poisoned register traps with 0x13 and the number of the lowest one. That a
`tspawn` reads g8 to g15 is DEDUCED, log entry 17. -/
def Obligations.PoisonedSourceTraps : Prop :=
  ∀ (i : Instr) (s : State) (srcs dsts : List Reg) (r : Reg),
    (needs i = some (srcs, dsts) ∨ systemNeeds s i srcs dsts) → Free s srcs dsts → LowestPoisoned (s.thr s.cur) srcs r →
    exec i s = .next (s.trap s.cur 0x13 (BitVec.ofNat 64 r.toNat))

/-- R111, R123: in user mode `trap` and `brk` save the pc, the code 0x05 or 0x04 and the immediate, remember the mode,
and go to the handler in supervisor mode; nothing else changes. The handler's entry is what `evec` holds. -/
def Sys2Proof.Claims.SoftwareTrapEntry : Prop :=
  ∀ (s : State) (imm : BitVec 16), (s.thr s.cur).sup = false →
    exec (.trap imm) s = .next (withThread s { s.thr s.cur with
      epc := (s.thr s.cur).pc, ecause := 0x05, earg := BitVec.ofNat 64 imm.toNat, prevSup := false, sup := true
      pc := s.sysRead s.cur 0x104, waitSince := none, idle := none, woken := false }) ∧
    exec (.brk imm) s = .next (withThread s { s.thr s.cur with
      epc := (s.thr s.cur).pc, ecause := 0x04, earg := BitVec.ofNat 64 imm.toNat, prevSup := false, sup := true
      pc := s.sysRead s.cur 0x104, waitSince := none, idle := none, woken := false })

/-- R111, R123: a trap in supervisor mode stops the task's run, and its code is recorded with nested set. The record
names the task, its context and the pc, and says that the gang ends. -/
def Sys2Proof.Claims.SupervisorTrapStops : Prop :=
  ∀ (s : State) (imm : BitVec 16) (i : Instr) (code : BitVec 8), (s.thr s.cur).sup = true →
    (i = .trap imm ∧ code = 0x05) ∨ (i = .brk imm ∧ code = 0x04) →
    ∃ t r, exec i s = .next t ∧
      t.thr s.cur = { s.thr s.cur with nested := true, stopped := true } ∧
      t.faultQ = s.faultQ ++ [r] ∧ r.code = code ∧ r.nested = true ∧ r.ended = true ∧
      r.addr = BitVec.ofNat 64 imm.toNat ∧ r.pos = (s.thr s.cur).pc ∧ r.ctx = s.cur ∧
      r.task = BitVec.ofNat 32 (s.taskAt s.cur) ∧ t.mem = s.mem ∧ t.tasks = s.tasks

/-- R122: in supervisor mode `eret` takes the mode from status bit 1 and the pc from `epc`, whose low two bits no pc
has; nothing else changes. -/
def Sys2Proof.Claims.TrapReturn : Prop :=
  ∀ s : State, (s.thr s.cur).sup = true →
    exec .eret s = .next (withThread s { s.thr s.cur with
      sup := (s.thr s.cur).prevSup, pc := (s.thr s.cur).epc - BitVec.ofNat 64 ((s.thr s.cur).epc.toNat % 4)
      waitSince := none })

/-- R101, R122: in user mode `eret`, `tlbinv`, and every `mfs` or `mts` that names a number from 0x100 to 0xFFF trap
with 0x03, whether the number is assigned or not. -/
def Sys2Proof.Claims.PrivilegeTraps : Prop :=
  ∀ s : State, (s.thr s.cur).sup = false →
    (∃ arg, exec .eret s = .next (s.trap s.cur 0x03 arg)) ∧
    (∀ a, ∃ arg, exec (.tlbinv a) s = .next (s.trap s.cur 0x03 arg)) ∧
    (∀ (d : Reg) (n : BitVec 12), 0x100 ≤ n.toNat → ∃ arg, exec (.mfs d n) s = .next (s.trap s.cur 0x03 arg)) ∧
    (∀ (a : Reg) (n : BitVec 12), 0x100 ≤ n.toNat → ∃ arg, exec (.mts a n) s = .next (s.trap s.cur 0x03 arg))

namespace Sys2Proof.Claims

/-- The value `v` is what system register `n` reads as (R102). -/
def SysReads (s : State) (v : Word) (n : Nat) : Prop :=
  let u := s.thr s.cur
  let t := s.task (s.taskAt s.cur)
  (n = 0x000 → v = u.cyc) ∧ (n = 0x001 → v = t.ts) ∧
  (n = 0x002 → v.toNat = s.taskAt s.cur % 2 ^ 32) ∧
  (n = 0x003 → v.toNat % 16 = s.cur.toNat / 2 ∧ v.toNat / 2 ^ 4 % 2 = s.cur.toNat % 2 ∧
    v.toNat / 2 ^ 5 % 2 ^ 10 = s.pkgId.toNat ∧ v.toNat / 2 ^ 15 = scopeNum t.scope) ∧
  (n = 0x004 → v.getLsbD 0 = s.isHead (s.taskAt s.cur) ∧ v.getLsbD 1 = s.inHeadGroup (s.taskAt s.cur) ∧ v.toNat < 4) ∧
  (n = 0x005 → ∀ i < 64, v.getLsbD i = (s.isl s.cur i).running) ∧
  (n = 0x006 → v = u.bounces) ∧ (n = 0x007 → v = BitVec.ofNat 64 t.mail.length) ∧
  (n = 0x008 → v.toNat < 2 ^ 32 ∧ ∀ r : Reg, v.getLsbD r.toNat = u.poisoned r) ∧
  (n = 0x100 → v.getLsbD 0 = u.sup ∧ v.getLsbD 1 = u.prevSup ∧ v.getLsbD 2 = u.nested ∧ v.toNat < 8) ∧
  (n = 0x101 → v = u.epc) ∧ (n = 0x102 → v.toNat = u.ecause.toNat) ∧ (n = 0x103 → v = u.earg) ∧
  (n = 0x104 → ∀ e, u.evec = some e → v = e) ∧ (n = 0x105 → v = u.escr) ∧ (n = 0x106 → v.toNat = t.tenant.toNat) ∧
  (n = 0x107 → v = BitVec.ofNat 64 (s.ctxEntry t.tenant.toNat).root) ∧
  (n = 0x108 → v.toNat = (s.ctxEntry t.tenant.toNat).owner.toNat)
/-- The thread `w` is `u` with `v` written to system register `n` (R102); a write of status leaves the mode (R101; DEDUCED, log
entry 85). -/
def SysWritten (u w : Thread) (v : Word) (n : Nat) : Prop :=
  (n = 0x006 → w = { u with bounces := v }) ∧
  (n = 0x100 → w = { u with prevSup := v.getLsbD 1, nested := v.getLsbD 2 }) ∧
  (n = 0x101 → w = { u with epc := v }) ∧ (n = 0x102 → w = { u with ecause := BitVec.ofNat 8 v.toNat }) ∧
  (n = 0x103 → w = { u with earg := v }) ∧
  (n = 0x104 → w = { u with evec := some (v - BitVec.ofNat 64 (v.toNat % 4)) }) ∧ (n = 0x105 → w = { u with escr := v })

end Sys2Proof.Claims

/-- R102, R122: an `mfs` of an assigned register in a mode that may read it puts the register's value into d and
changes nothing else. -/
def Sys2Proof.Claims.SystemRegisterReads : Prop :=
  ∀ (s : State) (d : Reg) (n : BitVec 12), n.toNat ∈ sysNumbers → Allowed s n.toNat → Free s [] [d] →
    ∃ t v, exec (.mfs d n) s = .next t ∧ SysReads s v n.toNat ∧ OnlyThread s t ∧
      Wrote (s.thr s.cur) (t.thr s.cur) d v false

/-- R102, R122: an `mts` to a writable register in a mode that may write it writes that register from g[a], goes on to
the next word and changes nothing else. -/
def Sys2Proof.Claims.SystemRegisterWrites : Prop :=
  ∀ (s : State) (a : Reg) (n : BitVec 12), n.toNat ∈ sysWrites → Allowed s n.toNat → Free s [a] [] → Clean s [a] →
    ∃ w, exec (.mts a n) s = .next (withThread s w) ∧
      SysWritten (advanced (s.thr s.cur)) w ((s.thr s.cur).get a) n.toNat

/-- R122: in a mode that may name the number, an `mfs` of an unassigned number and an `mts` to an unassigned or
read-only one trap with 0x01. -/
def Sys2Proof.Claims.UnassignedSystemRegisters : Prop :=
  (∀ (s : State) (d : Reg) (n : BitVec 12), n.toNat ∉ sysNumbers → Allowed s n.toNat →
    ∃ arg, exec (.mfs d n) s = .next (s.trap s.cur 0x01 arg)) ∧
  (∀ (s : State) (a : Reg) (n : BitVec 12), n.toNat ∉ sysWrites → Allowed s n.toNat →
    ∃ arg, exec (.mts a n) s = .next (s.trap s.cur 0x01 arg))

/-- R122: a `wait` goes on to the next word once one of its events has come, and idles until then, from the first
cycle in which it issues. The events that set `woken` of a thread that idles are a message in the mailbox, an island's
finish and the timeout. -/
def Sys2Proof.Claims.WaitEnds : Prop :=
  ∀ s : State,
    ((s.thr s.cur).woken = true → exec .wait s = .next (withThread s (advanced (s.thr s.cur)))) ∧
    ((s.thr s.cur).woken = false → exec .wait s = .next (withThread s
      { waiting (s.thr s.cur) s.cycle with idle := some ((s.thr s.cur).idle.getD s.cycle) }))

namespace Sys2Proof.Claims

/-- A translation that `tlbinv` names: of the acting task's context, at any page size. -/
def Named (s : State) (a : Reg) (e : TlbEnt) : Prop :=
  e.tenant = (s.task (s.taskAt s.cur)).tenant ∧
    (a = 0 ∨ (e.base ≤ ((s.thr s.cur).get a).toNat ∧ ((s.thr s.cur).get a).toNat < e.base + e.size))

end Sys2Proof.Claims

/-- R122: in supervisor mode `tlbinv` removes from the region's first-level TLB and the die's second-level TLB exactly
the translations that it names, leaves the TLBs of other regions and dies as they are, and goes on to the next word.
No other thread changes. -/
def Sys2Proof.Claims.TlbInvalidation : Prop :=
  ∀ (s : State) (a : Reg), (s.thr s.cur).sup = true → Free s [a] [] → Clean s [a] →
    ∃ t, exec (.tlbinv a) s = .next t ∧ t.thr s.cur = advanced (s.thr s.cur) ∧ (∀ c, c ≠ s.cur → t.thr c = s.thr c) ∧
      (∀ e, e ∈ mget t.tlb1 (s.cur.toNat / 2) ↔ e ∈ mget s.tlb1 (s.cur.toNat / 2) ∧ ¬ Named s a e) ∧
      (∀ e, e ∈ mget t.tlb2 (s.cur.toNat / 16) ↔ e ∈ mget s.tlb2 (s.cur.toNat / 16) ∧ ¬ Named s a e) ∧
      (∀ r, r ≠ s.cur.toNat / 2 → mget t.tlb1 r = mget s.tlb1 r) ∧
      (∀ n, n ≠ s.cur.toNat / 16 → mget t.tlb2 n = mget s.tlb2 n)

namespace Sys2Proof.Claims

/-! ## Memory accesses of the sequencer (R115 to R119) -/

/-- Value of n little-endian bytes, sign-extended or zero-extended (R1, R115). -/
def signed (n v : Nat) : Word := BitVec.ofInt 64 (if v < 2 ^ (8 * n - 1) then v else v - 2 ^ (8 * n))
def unsigned (v : Nat) : Word := BitVec.ofNat 64 v
/-- Destination, base, offset, width and value of a load, from R115. -/
def loadSpec : Instr → Option (Reg × Reg × BitVec 16 × Nat × (Nat → Word))
  | .lb d a off => some (d, a, off, 1, signed 1)
  | .lbn d a off => some (d, a, off, 1, unsigned)
  | .lh d a off => some (d, a, off, 2, signed 2)
  | .lhn d a off => some (d, a, off, 2, unsigned)
  | .lw d a off => some (d, a, off, 4, signed 4)
  | .lwn d a off => some (d, a, off, 4, unsigned)
  | .ld d a off => some (d, a, off, 8, unsigned)
  | _ => none
/-- Data register, base, offset and width of a store. -/
def storeSpec : Instr → Option (Reg × Reg × BitVec 16 × Nat)
  | .sb r a off => some (r, a, off, 1)
  | .sh r a off => some (r, a, off, 2)
  | .sw r a off => some (r, a, off, 4)
  | .sd r a off => some (r, a, off, 8)
  | _ => none
/-- Destination, base, operand register, double and aop code of an atomic (R117). -/
def atomSpec : Instr → Option (Reg × Reg × Reg × Bool × Nat)
  | .aswp d a b _ _ w => some (d, a, b, w, 0)
  | .aadd d a b _ _ w => some (d, a, b, w, 1)
  | .aand d a b _ _ w => some (d, a, b, w, 2)
  | .aor d a b _ _ w => some (d, a, b, w, 3)
  | .axor d a b _ _ w => some (d, a, b, w, 4)
  | .amin d a b _ _ w => some (d, a, b, w, 5)
  | .amax d a b _ _ w => some (d, a, b, w, 6)
  | .aminn d a b _ _ w => some (d, a, b, w, 7)
  | .amaxn d a b _ _ w => some (d, a, b, w, 8)
  | .acas d a b _ _ w => some (d, a, b, w, 9)
  | _ => none
/-- New value of a word of w bits: the table of R117. -/
def atomNew (w code : Nat) (old b d : BitVec w) : BitVec w :=
  match code with
  | 0 => b | 1 => old + b | 2 => old &&& b | 3 => old ||| b | 4 => old ^^^ b
  | 5 => if old.toInt ≤ b.toInt then old else b
  | 6 => if b.toInt ≤ old.toInt then old else b
  | 7 => if old.toNat ≤ b.toNat then old else b
  | 8 => if b.toNat ≤ old.toNat then old else b
  | _ => if old = d then b else old
/-- The order of an atomic (R117). -/
def atomOrd : Instr → AtomOrd
  | .aswp _ _ _ o _ _ | .aadd _ _ _ o _ _ | .aand _ _ _ o _ _ | .aor _ _ _ o _ _ | .axor _ _ _ o _ _
  | .amin _ _ _ o _ _ | .amax _ _ _ o _ _ | .aminn _ _ _ o _ _ | .amaxn _ _ _ o _ _ | .acas _ _ _ o _ _ => o
  | _ => .plain
/-- The acting thread has no `lamo` or `mrecv` in flight, which later accesses wait for (R371, R372). -/
def Unawaited (s : State) : Prop := (s.thr s.cur).acquiring = false
/-- The acting thread's task, and whether an address lies in its private stack (R12). -/
def me (s : State) : Nat := s.taskAt s.cur
def onStack (s : State) (va : Nat) : Prop := (s.task (me s)).inStack va = true
/-- Whether the frame at a physical address is memory that can be read: no register, no uncorrectable error. -/
def Sound (s : State) (pa : Nat) : Prop := s.place pa ≠ .registers ∧ s.hardMem pa = false
/-- The bytes that a task reads at a physical address: its own held stores over memory (R78); the private stack holds
no held stores. -/
def seen (s : State) (va pa n : Nat) : Nat :=
  if (s.task (me s)).inStack va then leVal (s.bytes pa n) else leVal (s.taskBytes (me s) pa n)
/-- The thread `u` with its loads in flight taking no later value: what comes next is ordered behind them (R389; log entry 7). -/
def settled (u : Thread) : Thread := { u with pend := u.pend.map (fun p => { p with again := none }) }
/-- The thread `u` after an instruction that has put the write `q` in flight (R109); g0 is never pending. -/
def inFlight (u : Thread) (q : Pend) : Thread :=
  { advanced u with pend := if q.d = 0 then u.pend else u.pend ++ [q] }
/-- The write `q` brings a value that was read, with its poison, to d. -/
def Brings (q : Pend) (d : Reg) (poison : Bool) : Prop := q.d = d ∧ q.kind = .value ∧ q.poison = poison
/-- Bytes that the abort of a task may write: its private stack, whose bytes are free afterwards, and, of one that is spilled,
the mark in its save area (R83, R84, R155). -/
def AbortWrites (s : State) (v x : Nat) : Prop :=
  ((s.task v).stackPa ≤ x ∧ x < (s.task v).stackPa + (s.task v).stackLen) ∨
  ((s.task v).phase = .spilled ∧ (mget s.saves v).area.toNat + 0x49000 ≤ x ∧ x < (mget s.saves v).area.toNat + 0x49040)
/-- A byte that the abort of some task may write which a visibility event of the acting task at a granule aborts. -/
def Wiped (s : State) (pa x : Nat) : Prop := ∃ v ∈ s.victims (me s) [pa / 64] [], AbortWrites s v x
/-- A visibility event of the acting task at a granule does not abort the task of its own context. -/
def Apart (s : State) (pa : Nat) : Prop := ∀ v ∈ s.victims (me s) [pa / 64] [], (s.task v).ctx ≠ s.cur
/-- Memory of `t` is that of `s` with the n bytes of v from `pa` on, bytes that aborts write apart. -/
def Stored (s t : State) (pa n v : Nat) : Prop :=
  ∀ x, ¬ Wiped s pa x → t.byte x = if pa ≤ x ∧ x < pa + n then BitVec.ofNat 8 (v / 256 ^ (x - pa)) else s.byte x

/-- Width of the access of a load, store, atomic, `cwait` or link descriptor, with its address (R115, R117, R129, R135). -/
def accessOf (g : Reg → Word) : Instr → Option (Word × Nat)
  | .lb _ a off | .lbn _ a off | .sb _ a off => some (based (g a) off, 1)
  | .lh _ a off | .lhn _ a off | .sh _ a off => some (based (g a) off, 2)
  | .lw _ a off | .lwn _ a off | .sw _ a off => some (based (g a) off, 4)
  | .ld _ a off | .sd _ a off => some (based (g a) off, 8)
  | .aswp _ a _ _ _ w | .aadd _ a _ _ _ w | .aand _ a _ _ _ w | .aor _ a _ _ _ w | .axor _ a _ _ _ w
  | .amin _ a _ _ _ w | .amax _ a _ _ _ w | .aminn _ a _ _ _ w | .amaxn _ a _ _ _ w | .acas _ a _ _ _ w =>
    some (g a, if w then 8 else 4)
  | .cwait _ a _ _ => some (g a, 8)
  | .lput a | .lget a | .lamo _ a | .lsend a => some (g a, 32)
  | _ => none

end Sys2Proof.Claims

/-- R115, R117, R129, R135: a load, store, atomic, `cwait` or link instruction whose address is not a multiple of its
width traps with 0x02 and the address. -/
def Sys2Proof.Claims.MisalignedAccessTraps : Prop :=
  ∀ (i : Instr) (s : State) (srcs dsts : List Reg) (ea : Word) (n : Nat),
    needs i = some (srcs, dsts) → accessOf (s.thr s.cur).get i = some (ea, n) → Free s srcs dsts → Clean s srcs →
    ea.toNat % n ≠ 0 → exec i s = .next (s.trap s.cur 0x02 ea)

/-- R116, R250 to R254: a translation of the acting thread changes at most memory and its checks, the TLBs, the dead
pages noted and the free counter, and, where the entry of its walk fails its check, the fault records and the gangs
that end (R73; DEDUCED, log entry 51); a translation that a TLB or a pin holds, for a load or a fetch, changes
nothing. -/
def Sys2Proof.Claims.TranslationFrame : Prop :=
  (∀ (s : State) (k : AccK) (va : Nat),
    let t := (s.seqTranslate k va).1
    t = { s with mem := t.mem, checks := t.checks, tlb1 := t.tlb1, tlb2 := t.tlb2, dead := t.dead, free := t.free
                 faultQ := t.faultQ, recorded := t.recorded, fb := t.fb, dying := t.dying } ∧
    ((∀ p lv a, s.walk (s.task (me s)).tenant.toNat va = .leaf p lv a → s.checkOk (a / 64) = true) →
      t.faultQ = s.faultQ ∧ t.recorded = s.recorded ∧ t.fb = s.fb ∧ t.dying = s.dying)) ∧
  (∀ (s : State) (k : AccK) (va : Nat), k ≠ .store →
    (s.tlbLookup s.cur (s.task (me s)).tenant va).isSome = true → (s.seqTranslate k va).1 = s)

/-- R254: a translation changes at most the eight bytes of the page-table entry that its walk ends at, and sets at
most the bits Accessed and Dirty there; where the check of the entry's granule fails, it changes no byte (R72, R73).
-/
def Sys2Proof.Claims.WalkMarksItsEntry : Prop :=
  ∀ (s : State) (k : AccK) (va x : Nat),
    let t := (s.seqTranslate k va).1
    t.byte x = s.byte x ∨
      ∃ p lv a, s.walk (s.task (me s)).tenant.toNat va = .leaf p lv a ∧ a ≤ x ∧ x < a + 8 ∧ s.checkOk (a / 64) = true ∧
        (t.word a = Nat.lor p 0x100 ∨ t.word a = Nat.lor p 0x300)

/-- R78, R109, R110, R115: a load whose registers are free, that translates, meets no laid-by byte and is aligned puts
the extended value that its task sees into flight to its destination, poisoned where the page is, and goes on to the
next word. Memory is as the translation left it; of tasks only the reader's signature and its count of bytes moved
(R21) change. That a load takes its value when it issues, and a later one where nothing orders the store before it, is
the model's reading (log entry 7). -/
def Obligations.LoadResults : Prop :=
  ∀ (i : Instr) (s s1 : State) (d a : Reg) (off : BitVec 16) (n : Nat) (ext : Nat → Word) (pa tag : Nat) (p : Bool),
    loadSpec i = some (d, a, off, n, ext) → Free s [a] [d] → Clean s [a] →
    (based ((s.thr s.cur).get a) off).toNat % n = 0 →
    Unawaited s → (s.task (me s)).laidByte (based ((s.thr s.cur).get a) off).toNat n = false →
    s.seqTranslate .load (based ((s.thr s.cur).get a) off).toNat = (s1, .ok pa p false tag) → Sound s1 pa →
    ∃ t q, exec i s = .next t ∧ Brings q d p ∧ t.thr s.cur = inFlight (s.thr s.cur) q ∧
      (p = false → q.v = ext (seen s1 (based ((s.thr s.cur).get a) off).toNat pa n)) ∧
      t = { s1 with threads := t.threads, tasks := t.tasks } ∧ (∀ c, c ≠ s.cur → t.thr c = s.thr c) ∧
      (∀ id, t.task id = { s.task id with sig := (t.task id).sig, traffic := (t.task id).traffic }) ∧
      (∀ id, id ≠ me s → t.task id = s.task id)

/-- R85, R116: a load that page-faults holds the thread at its instruction, with a fault record of code 0x08 and its
address unless this generation has one; its registers and memory do not change. -/
def Sys2Proof.Claims.FaultingLoadHolds : Prop :=
  ∀ (i : Instr) (s s1 : State) (d a : Reg) (off : BitVec 16) (n : Nat) (ext : Nat → Word),
    loadSpec i = some (d, a, off, n, ext) → Free s [a] [d] → Clean s [a] →
    (based ((s.thr s.cur).get a) off).toNat % n = 0 →
    Unawaited s → (s.task (me s)).laidByte (based ((s.thr s.cur).get a) off).toNat n = false →
    s.seqTranslate .load (based ((s.thr s.cur).get a) off).toNat = (s1, .pageFault) →
    ∃ t, exec i s = .next t ∧ t.mem = s1.mem ∧
      t.thr s.cur = { waiting (s.thr s.cur) s.cycle with held := .fault (based ((s.thr s.cur).get a) off) } ∧
      (t.faultQ = s.faultQ ∨ ∃ r, t.faultQ = s.faultQ ++ [r] ∧ r.code = 0x08 ∧ r.held = true ∧
        r.addr = based ((s.thr s.cur).get a) off)

/-- R79, R115: a store of a head, or to the private stack, that translates to memory whose check holds writes the low
bytes of its data register there and goes on to the next word. Every other byte keeps its value, but for the private
stacks, and the marks in the save areas, of the tasks that it aborts (R83, R84, R155). -/
def Sys2Proof.Claims.StoreWritesMemory : Prop :=
  ∀ (i : Instr) (s s1 : State) (r a : Reg) (off : BitVec 16) (n pa tag : Nat) (p dead : Bool),
    storeSpec i = some (r, a, off, n) → Free s [a, r] [] → Clean s [a, r] →
    (based ((s.thr s.cur).get a) off).toNat % n = 0 →
    Unawaited s → s.seqTranslate .store (based ((s.thr s.cur).get a) off).toNat = (s1, .ok pa p dead tag) → Sound s1 pa →
    s1.checkOk (pa / 64) = true → Apart s1 pa →
    (onStack s (based ((s.thr s.cur).get a) off).toNat ∨ (s.isHead (me s) = true ∧
      (s.task (me s)).laidGranule (based ((s.thr s.cur).get a) off).toNat = false)) →
    ∃ t, exec i s = .next t ∧ t.thr s.cur = advanced (s.thr s.cur) ∧
      Stored s1 t pa n ((s.thr s.cur).get r).toNat

/-- R77, R115: a store outside the private stack of a task that is not head, with room in its hold and no laid-by
store to the granule, enters the hold: its own reads find the bytes, no byte of memory and no other task changes. What
it had let out of the hold of these bytes is no longer written again (log entry 71). -/
def Sys2Proof.Claims.StoreEntersHold : Prop :=
  ∀ (i : Instr) (s s1 : State) (r a : Reg) (off : BitVec 16) (n pa tag : Nat) (p dead : Bool),
    storeSpec i = some (r, a, off, n) → Free s [a, r] [] → Clean s [a, r] →
    (based ((s.thr s.cur).get a) off).toNat % n = 0 →
    Unawaited s → s.seqTranslate .store (based ((s.thr s.cur).get a) off).toNat = (s1, .ok pa p dead tag) → Sound s1 pa →
    ¬ onStack s (based ((s.thr s.cur).get a) off).toNat → s.isHead (me s) = false →
    (s.task (me s)).laidGranule (based ((s.thr s.cur).get a) off).toNat = false → (s.task (me s)).slots < 32768 →
    ∃ t, exec i s = .next t ∧ t.thr s.cur = advanced (s.thr s.cur) ∧ t.mem = s1.mem ∧
      (∀ x, mget (t.task (me s)).hold x = if pa ≤ x ∧ x < pa + n
        then some (BitVec.ofNat 8 (((s.thr s.cur).get r).toNat / 256 ^ (x - pa))) else mget (s.task (me s)).hold x) ∧
      (∀ x, (mget (t.task (me s)).out x = if pa ≤ x ∧ x < pa + n then none else mget (s.task (me s)).out x) ∧
        (mget (t.task (me s)).redo x = if pa ≤ x ∧ x < pa + n then none else mget (s.task (me s)).redo x)) ∧
      t.task (me s) = { s.task (me s) with hold := (t.task (me s)).hold, out := (t.task (me s)).out, redo := (t.task (me s)).redo
                                           traffic := (t.task (me s)).traffic } ∧ (∀ id, id ≠ me s → t.task id = s.task id) ∧
      t = { s1 with threads := t.threads, tasks := t.tasks }

/-- R98, R116, R258: a store that page-faults, with room in the lay-by log of its partition, is laid by with its
granule's address and its bytes, and the thread goes on to the next word; of memory only the entry's 128 bytes in the
basin change. -/
def Sys2Proof.Claims.FaultingStoreLaidBy : Prop :=
  ∀ (i : Instr) (s s1 : State) (r a : Reg) (off : BitVec 16) (n : Nat),
    storeSpec i = some (r, a, off, n) → Free s [a, r] [] → Clean s [a, r] →
    (based ((s.thr s.cur).get a) off).toNat % n = 0 →
    Unawaited s → s.seqTranslate .store (based ((s.thr s.cur).get a) off).toNat = (s1, .pageFault) →
    (s.laysOf (s.task (me s)).ctx).length < 2048 →
    ∃ t l, exec i s = .next t ∧ t.thr s.cur = advanced (s.thr s.cur) ∧
      (∀ x, x < layAddr (s.task (me s)).ctx l.slot ∨ layAddr (s.task (me s)).ctx l.slot + 128 ≤ x → t.byte x = s1.byte x) ∧
      t.bytes (layAddr (s.task (me s)).ctx l.slot) 128 = l.words (me s) ∧
      (t.task (me s)).lays.getLast? = some l ∧
      l.va = (based ((s.thr s.cur).get a) off).toNat - (based ((s.thr s.cur).get a) off).toNat % 64 ∧
      (∀ j < n, mget l.bytes ((based ((s.thr s.cur).get a) off).toNat % 64 + j) =
        some (BitVec.ofNat 8 (((s.thr s.cur).get r).toNat / 256 ^ j)))

/-- R93, R94, R117, R118: an atomic in the head group, or to the private stack, that translates to sound memory whose
check holds writes the table's new value there, puts the extended old value into flight to its destination and goes on
to the next word. Outside the private stack the held stores that its release, or a fence before it, orders ahead of it
have been performed first, and so has a held store of its own word. Every other byte keeps its value, but for the
private stacks, and the marks in the save areas, of the tasks that it aborts. -/
def Sys2Proof.Claims.AtomicResults : Prop :=
  ∀ (i : Instr) (s s1 : State) (d a b : Reg) (dbl : Bool) (code pa tag : Nat),
    let w := if dbl then 64 else 32
    let va := ((s.thr s.cur).get a).toNat
    atomSpec i = some (d, a, b, dbl, code) → Free s (if code = 9 then [a, b, d] else [a, b]) [d] →
    Clean s (if code = 9 then [a, b, d] else [a, b]) → va % (w / 8) = 0 →
    Unawaited s → (onStack s va ∨ (s.inHeadGroup (me s) = true ∧ (s.task (me s)).laidByte va (w / 8) = false ∧
      (s.task (me s)).laidPlain = false)) →
    s.seqTranslate .store va = (s1, .ok pa false false tag) → Sound s1 pa →
    let first := (s.task (me s)).inStack va = false ∧ s1.behindHold s.cur (atomOrd i) pa (w / 8) = true
    let s2 := if first then s1.releaseHold (me s) else s1
    s2.thr s.cur = s.thr s.cur → s2.checkOk (pa / 64) = true → Apart s2 pa →
    let old := BitVec.ofNat w (leVal (s2.bytes pa (w / 8)))
    let new := atomNew w code old (BitVec.ofNat w ((s.thr s.cur).get b).toNat) (BitVec.ofNat w ((s.thr s.cur).get d).toNat)
    ∃ t q, exec i s = .next t ∧ Brings q d false ∧
      q.v = (if code = 7 ∨ code = 8 then BitVec.ofNat 64 old.toNat else BitVec.ofInt 64 old.toInt) ∧
      t.thr s.cur = inFlight (if atomOrd i = .rel ∨ atomOrd i = .ar then settled (s.thr s.cur) else s.thr s.cur) q ∧
      Stored s2 t pa (w / 8) new.toNat ∧ (first → (s2.task (me s)).hold = [])

/-- R118: outside the private stack an atomic waits until its task is in the head group: until then its thread issues
it again and nothing changes. -/
def Sys2Proof.Claims.AtomicsWaitForTheHeadGroup : Prop :=
  ∀ (i : Instr) (s : State) (d a b : Reg) (dbl : Bool) (code : Nat),
    atomSpec i = some (d, a, b, dbl, code) → Free s (if code = 9 then [a, b, d] else [a, b]) [d] →
    Clean s (if code = 9 then [a, b, d] else [a, b]) → ((s.thr s.cur).get a).toNat % (if dbl then 8 else 4) = 0 →
    ¬ onStack s ((s.thr s.cur).get a).toNat → s.inHeadGroup (me s) = false →
    exec i s = .next (withThread s (waiting (s.thr s.cur) s.cycle))

namespace Sys2Proof.Claims

/-- A write in flight that a fence which acquires waits for: a load, an atomic, a `cwait` or a link result. -/
def Awaited (p : Pend) : Prop := p.kind = .value ∨ ∃ n, p.kind = .link n

end Sys2Proof.Claims

/-- R93, R119: a fence goes on to the next word unless it acquires while a load, an atomic, a `cwait` or a link result
of its thread is in flight, or releases while a store of its task lies in the lay-by log; then it stalls. One that
acquires lets the fetches of its context see memory as its task does (R108); one that releases marks the thread where
stores are held, so that what it orders behind them comes after them, and its loads in flight take no later value. It
changes nothing else. -/
def Sys2Proof.Claims.FenceWaitsForLoads : Prop :=
  (∀ (k : FenceKind) (sc : Scope) (s : State),
    ((k = .rel ∨ ∀ p ∈ (s.thr s.cur).pend, ¬ Awaited p) → (k = .acq ∨ (s.task (me s)).laidPlain = false) →
      exec (.fence k sc) s = .next (withThread (if k ≠ .rel ∧ sc ≠ .lane then s.acquire s.cur else s)
        { advanced (if k = .acq then s.thr s.cur else settled (s.thr s.cur)) with
          fenced := (s.thr s.cur).fenced || (k != .acq && (s.task (me s)).hold != []) })) ∧
    (((k ≠ .rel ∧ ∃ p ∈ (s.thr s.cur).pend, Awaited p) ∨ (k ≠ .acq ∧ (s.task (me s)).laidPlain = true)) →
      exec (.fence k sc) s = .next (withThread s (waiting (s.thr s.cur) s.cycle)))) ∧
  (∀ s : State, s.acquire s.cur = { s with codeSeen := (s.acquire s.cur).codeSeen } ∧
    (∀ c : Ctx, c ≠ s.cur → mget (s.acquire s.cur).codeSeen c.toNat = mget s.codeSeen c.toNat) ∧
    (mwf (s.task (me s)).hold = true →
      ∀ x, mget (mget (s.acquire s.cur).codeSeen s.cur.toNat) x = s.taskByte (s.task (me s)) x))

namespace Sys2Proof.Claims

/-! ## Islands, tasks and barriers (R124 to R128) -/

/-- The island `x` of descriptor `g` just started: counter 0, the full interval count, schedule A (R124, R199, R200).
A run of count 0 has two cycles. -/
def started (x : Isl) (g : IslandDesc) : Isl :=
  { x with running := true, finished := false, ctr := 0, start := x.abs, base := 0, left := g.count, schedB := false
           past := decide (g.count = 0), zero := if g.count = 0 then 2 else 0, issued := false, stall := false }
/-- No island of the acting context runs. -/
def Quiet (s : State) : Prop := ∀ i < 64, (s.isl s.cur i).running = false
/-- No element of the acting context has a failed `chk` to come or holds poison. -/
def Unstained (s : State) : Prop := ∀ p ∈ s.elemsOf s.cur, p.2.chks = [] ∧ p.2.poisoned = false
/-- The request of a `tspawn` with the values of g8 to g15. -/
def spawnOf (u : Thread) (d a : Reg) (child : Nat) : Pend :=
  { d := d, kind := .spawn (u.get a) child [u.get 8, u.get 9, u.get 10, u.get 11, u.get 12, u.get 13, u.get 14, u.get 15] u.pc }
/-- The first write in flight of a thread that waits for a `tspawn`, or for a `gload`. -/
def spawning (u : Thread) : Option Pend := u.pend.find? (fun p => match p.kind with | .spawn _ _ _ _ => true | _ => false)
def loading (u : Thread) : Option Pend := u.pend.find? (fun p => match p.kind with | .gload _ _ _ => true | _ => false)
/-- The thread `w` is `u` after the write `p` in flight has landed with value v: its register holds v, no other register
changes, and `p` is no longer in flight (R109). -/
def Landed (u w : Thread) (p : Pend) (v : Word) (poison : Bool) : Prop :=
  (∀ r, w.get r = if r = p.d ∧ p.d ≠ 0 then v else u.get r) ∧
  (∀ r, w.poisoned r = if r = p.d ∧ p.d ≠ 0 then poison else u.poisoned r) ∧
  { w with g := u.g, poison := u.poison } = { u with pend := u.pend.erase p }

end Sys2Proof.Claims

/-- R124, R204: a `tgo` of an island whose lock group has no running island starts every island of the group anew,
with none of its commands started and its links without entries but for captures of earlier runs that still wait for
theirs (R205, R207; DEDUCED, log entry 43), and goes on to the next word; islands outside the group, tasks and memory
do not change. While an island of the group runs, or an `lamo` or `mrecv` is in flight (R94, R95; DEDUCED, log entry
72), `tgo` stalls. -/
def Sys2Proof.Claims.IslandStart : Prop :=
  ∀ (s : State) (i : BitVec 6),
    let isls := (s.plane s.cur).isls
    let g := lockGroup isls i.toNat
    i.toNat < isls.length → isls.length ≤ 64 →
    (Unawaited s → (∀ j ∈ g, (s.isl s.cur j).running = false) →
      ∃ t, exec (.tgo i) s = .next t ∧ t.thr s.cur = advanced (settled (s.thr s.cur)) ∧
        (∀ j < 64, t.isl s.cur j = if j ∈ g then started (s.isl s.cur j) (isls.getD j {}) else s.isl s.cur j) ∧
        (∀ j ∈ g, ∀ p ∈ s.cmdsOf s.cur j, t.run s.cur p.1 = {}) ∧
        (∀ e < 512, ∀ d < 4, islandIx isls e ∈ g →
          mget t.links (4 * (s.cur.toNat * 512 + e) + d) = (mget s.links (4 * (s.cur.toNat * 512 + e) + d)).filter (fun x =>
            decide (x.n < (s.isl s.cur (islandIx isls e)).abs))) ∧
        t = { s with threads := t.threads, isls := t.isls, runs := t.runs, links := t.links }) ∧
    ((¬ Unawaited s ∨ ∃ j ∈ g, (s.isl s.cur j).running = true) →
      exec (.tgo i) s = .next (withThread s (waiting (s.thr s.cur) s.cycle)))

/-- R204: the lock group of an island holds it, and holds every island that shares an edge with one it holds. -/
def Sys2Proof.Claims.LockGroupClosed : Prop :=
  ∀ (ds : List IslandDesc) (i j k : Nat), i < ds.length →
    i ∈ lockGroup ds i ∧
    (j ∈ lockGroup ds i → k < ds.length → adjoin (ds.getD j {}) (ds.getD k {}) = true → k ∈ lockGroup ds i)

/-- R125: a `twait` goes on to the next word when its island does not run, and stalls while it runs. An island that
the image has not does not run (DEDUCED, log entry 39). -/
def Sys2Proof.Claims.IslandWait : Prop :=
  ∀ (s : State) (i : BitVec 6),
    ((s.isl s.cur i.toNat).running = false → exec (.twait i) s = .next (withThread s (advanced (s.thr s.cur)))) ∧
    ((s.isl s.cur i.toNat).running = true → exec (.twait i) s = .next (withThread s (waiting (s.thr s.cur) s.cycle)))

/-- R126: a `tend` with no island running, no write in flight and no poison stops its thread and marks its task ended;
no register, no memory and no other task changes. With an island running or a write in flight it stalls. With a
register poisoned it traps with 0x13 and the number of the lowest one. -/
def Obligations.TaskEnd : Prop :=
  ∀ s : State,
    (Quiet s → Unstained s → (s.thr s.cur).pend = [] → (∀ r, (s.thr s.cur).poisoned r = false) →
      (s.task (me s)).guardHit = none → (s.task (me s)).gang ≠ 0 →
      ∃ t, exec .tend s = .next t ∧ t.thr s.cur = { s.thr s.cur with stopped := true, waitSince := none } ∧
        t.task (me s) = { s.task (me s) with tended := true } ∧ (∀ id, id ≠ me s → t.task id = s.task id) ∧
        t = { s with threads := t.threads, tasks := t.tasks }) ∧
    (((∃ i < 64, (s.isl s.cur i).running = true) ∨ (s.thr s.cur).pend ≠ []) →
      exec .tend s = .next (withThread s (waiting (s.thr s.cur) s.cycle))) ∧
    (∀ r, Quiet s → Unstained s → (s.thr s.cur).pend = [] → (s.thr s.cur).poisoned r = true →
      (∀ q : Reg, (s.thr s.cur).poisoned q = true → r.toNat ≤ q.toNat) →
      exec .tend s = .next (s.trap s.cur 0x13 (BitVec.ofNat 64 r.toNat)))

/-- R127: a `tspawn` of a head puts its request in flight, with the timestamp, the child's index, the values of g8 to
g15 (DEDUCED, log entry 17) and the pc, and goes on to the next word. Before the task is head, or while an `lamo` or
`mrecv` is in flight or a store laid by (DEDUCED, log entries 72 and 73), it stalls. -/
def Sys2Proof.Claims.SpawnRequest : Prop :=
  ∀ (s : State) (d a : Reg) (image : BitVec 16),
    Free s (a :: [8, 9, 10, 11, 12, 13, 14, 15]) [d] → Clean s (a :: [8, 9, 10, 11, 12, 13, 14, 15]) →
    (s.isHead (me s) = true → Unawaited s → (s.task (me s)).laidPlain = false →
      exec (.tspawn d a image) s = .next (withThread s { advanced (s.thr s.cur) with
        pend := (settled (s.thr s.cur)).pend ++ [spawnOf (s.thr s.cur) d a image.toNat] })) ∧
    (s.isHead (me s) = false ∨ ¬ Unawaited s ∨ (s.task (me s)).laidPlain = true → exec (.tspawn d a image) s = .next (withThread s (waiting (s.thr s.cur) s.cycle)))

/-- R127, R165: the reply to the oldest request of a thread lands in its register. In a gang of fewer than 32 live
tasks, for a timestamp not below the parent's and a child whose header and demands the loader takes, a child exists
with that timestamp, those arguments and an empty mailbox in a frame of the pool, and the register holds its
identifier, which is neither 0 nor all ones. No other task and no byte outside the mailbox's frame changes. That a
task which has ended does not count toward the 32 is DEDUCED, log entry 55, and that a mailbox is a frame of the pool,
log entry 45. -/
def Sys2Proof.Claims.SpawnReply : Prop :=
  ∀ (s : State) (c : Ctx) (p : Pend) (ts : Word) (child : Nat) (args : List Word) (pc : Word) (k : Task) (f : Nat),
    spawning (s.thr c) = some p → p.kind = .spawn ts child args pc →
    (s.tasks.filter (fun q => q.2.gang == (s.task (s.taskAt c)).gang && q.2.phase != .done)).length < 32 →
    (s.task (s.taskAt c)).ts.toNat ≤ ts.toNat → s.childOf (s.taskAt c) child = some k → s.mailFrame = some f →
    ∃ t new, exec (.tspawnReply c) s = .next t ∧ 0 < new ∧ new < 2 ^ 32 - 1 ∧
      Landed (s.thr c) (t.thr c) p (BitVec.ofNat 64 new) false ∧
      (t.task new).ts = ts ∧ (t.task new).args = args ∧ (t.task new).phase = k.phase ∧ (t.task new).scope = k.scope ∧
      (t.task new).mailPa = f * 65536 ∧ (t.task new).mail = [] ∧ (∀ id, id ≠ new → t.task id = s.task id) ∧
      (∀ x, x < f * 65536 ∨ (f + 1) * 65536 ≤ x → t.byte x = s.byte x)

/-- R127, R142: a request in a gang that has 32 live tasks is answered with 0, and one with a timestamp below the
parent's, or for a child that the loader refuses, with all ones, in the last case with a record of 0x28; no child is
made. That the 32 are tested first is the model's choice (DESIGN CHOICE, log entry 87), and which tasks count DEDUCED,
log entry 55. -/
def Sys2Proof.Claims.SpawnRefused : Prop :=
  ∀ (s : State) (c : Ctx) (p : Pend) (ts : Word) (child : Nat) (args : List Word) (pc : Word),
    spawning (s.thr c) = some p → p.kind = .spawn ts child args pc →
    let mine := s.tasks.filter (fun q => q.2.gang == (s.task (s.taskAt c)).gang && q.2.phase != .done)
    (32 ≤ mine.length → ∃ t, exec (.tspawnReply c) s = .next t ∧ t.tasks = s.tasks ∧
      Landed (s.thr c) (t.thr c) p 0 false) ∧
    (mine.length < 32 → ts.toNat < (s.task (s.taskAt c)).ts.toNat →
      ∃ t, exec (.tspawnReply c) s = .next t ∧ t.tasks = s.tasks ∧ Landed (s.thr c) (t.thr c) p (BitVec.allOnes 64) false) ∧
    (mine.length < 32 → (s.task (s.taskAt c)).ts.toNat ≤ ts.toNat → s.childOf (s.taskAt c) child = none →
      ∃ t r, exec (.tspawnReply c) s = .next t ∧ t.tasks = s.tasks ∧ Landed (s.thr c) (t.thr c) p (BitVec.allOnes 64) false ∧
        t.faultQ = s.faultQ ++ [r] ∧ r.code = 0x28 ∧ r.task = BitVec.ofNat 32 (s.taskAt c) ∧ r.ended = false)

/-- R94, R128, R379: a `bar` of a task in the head group performs its held stores, arrives at its identifier and
stalls; it goes on to the next word once the episode has released, which is an acquire, and arrives only once before
that. Before its task is in the head group, or while a `lamo` or `mrecv` is in flight or a store laid by (DEDUCED, log
entries 72 and 73), it neither arrives nor goes on; with its arrival its loads in flight take no later value. A pod
barrier without a group that holds this package, or with a lost member, ends the gang with 0x38. -/
def Sys2Proof.Claims.BarrierArrival : Prop :=
  ∀ (s : State) (sc : Scope) (b : BitVec 4), (s.task (me s)).guardHit = none →
    let key := (32 * scopeNum sc + instOf sc s.cur) * 16 + b.toNat
    let may := (s.thr s.cur).barReleased = false ∧ (s.thr s.cur).barArrived = false ∧ Unawaited s ∧
      s.inHeadGroup (me s) = true ∧ (s.task (me s)).laidPlain = false
    let s0 := s.releaseHold (me s)
    ((s.thr s.cur).barReleased = true →
      exec (.bar sc b) s = .next (withThread (s.acquire s.cur) (advanced (s.thr s.cur)))) ∧
    (may → (sc = .pod → s.podOk b.toNat = true ∧ (mget s.bars key).lost = []) →
      ∃ t, exec (.bar sc b) s = .next t ∧
        t.thr s.cur = { waiting (settled (s0.thr s.cur)) s0.cycle with barArrived := true } ∧
        (mget t.bars key).arrived = (mget s0.bars key).arrived ++ [me s] ∧
        (∀ n, n ≠ key → mget t.bars n = mget s0.bars n) ∧ t = { s0 with threads := t.threads, bars := t.bars } ∧
        (t.task (me s)).hold = [] ∧ ((s.task (me s)).hold = [] → s0 = s)) ∧
    (may → sc = .pod → (s.podOk b.toNat = false ∨ (mget s.bars key).lost ≠ []) →
      exec (.bar sc b) s = .next (s.seqEnd 0x38 (BitVec.ofNat 64 b.toNat))) ∧
    ((s.thr s.cur).barReleased = false → ((s.thr s.cur).barArrived = true ∨ ¬ Unawaited s ∨ s.inHeadGroup (me s) = false ∨
        (s.task (me s)).laidPlain = true) →
      exec (.bar sc b) s = .next (withThread s (waiting (s.thr s.cur) s.cycle)))

/-- R14, R128: an episode below pod scope at which every party has arrived releases: the identifier is empty again,
and the thread of each resident party may go on. While a party is missing, nothing changes. -/
def Sys2Proof.Claims.BarrierRelease : Prop :=
  ∀ (s : State) (sc : Scope) (inst : BitVec 5) (b : BitVec 4),
    let key := (32 * scopeNum sc + inst.toNat) * 16 + b.toNat
    (sc ≠ .pod → s.barFull sc inst.toNat (mget s.bars key) = true →
      ∃ t, exec (.barrierRelease sc inst b) s = .next t ∧ (mget t.bars key).arrived = [] ∧
        (∀ n, n ≠ key → mget t.bars n = mget s.bars n) ∧
        (∀ id ∈ (mget s.bars key).arrived, (s.task id).phase = .resident →
          (t.thr (s.task id).ctx).barReleased = true ∧ (t.thr (s.task id).ctx).pc = (s.thr (s.task id).ctx).pc) ∧
        t = { s with threads := t.threads, bars := t.bars, saves := t.saves }) ∧
    (s.barFull sc inst.toNat (mget s.bars key) = false → exec (.barrierRelease sc inst b) s = .next s)

/-! ## Waiting for a word and patching a command (R129, R130) -/

/-- R129: a `cwait` whose read of an aligned word may perform puts the value read in flight to its destination and
goes on to the next word when it is at least g[b], unsigned; below that it stalls. -/
def Sys2Proof.Claims.CompletionWait : Prop :=
  ∀ (s s1 : State) (d a b : Reg) (sc : Scope) (pa tag : Nat),
    Free s [a, b] [d] → Clean s [a, b] → ((s.thr s.cur).get a).toNat % 8 = 0 →
    Unawaited s → (s.task (me s)).laidByte ((s.thr s.cur).get a).toNat 8 = false →
    s.seqTranslate .load ((s.thr s.cur).get a).toNat = (s1, .ok pa false false tag) → Sound s1 pa →
    let v := seen s1 ((s.thr s.cur).get a).toNat pa 8
    ∃ t, exec (.cwait d a b sc) s = .next t ∧ t.mem = s1.mem ∧
      (((s.thr s.cur).get b).toNat ≤ v → ∃ q, Brings q d false ∧ q.v = BitVec.ofNat 64 v ∧
        t.thr s.cur = inFlight (s.thr s.cur) q) ∧
      (v < ((s.thr s.cur).get b).toNat → t.thr s.cur = waiting (s.thr s.cur) s.cycle)

namespace Sys2Proof.Claims

/-- Word, lowest bit and width of a record field that a `cmdw` patches (R130, R233, R235). -/
def fieldAt (f : Nat) : Nat × Nat × Nat :=
  if f = 0 then (0, 0, 32) else if f ≤ 5 then (f, 0, 24) else if f ≤ 10 then (f - 5, 24, 40) else (7, 0, 16)
/-- The record `r'` is `r` with field f set to v, and no other bit changed. -/
def Patched (r r' : CmdRec) (f : Nat) (v : Word) : Prop :=
  r'.refs = r.refs ∧ r'.words.length = r.words.length ∧
  ∀ j b : Nat, (r'.words.getD j 0).getLsbD b =
    if j = (fieldAt f).1 ∧ (fieldAt f).2.1 ≤ b ∧ b < (fieldAt f).2.1 + (fieldAt f).2.2 then v.getLsbD (b - (fieldAt f).2.1)
    else (r.words.getD j 0).getLsbD b
/-- Whether a value is in the range of R130 of one of fields 0 to 11. -/
def InRange (f : Nat) (v : Word) : Prop :=
  (f = 0 → v.toNat < 2 ^ 32) ∧ (1 ≤ f ∧ f ≤ 5 → v.toNat ≤ 0xFFFFFF) ∧
  (6 ≤ f ∧ f ≤ 10 → -(2 ^ 39) ≤ v.toInt ∧ v.toInt < 2 ^ 39) ∧ (f = 11 → 1 ≤ v.toNat ∧ v.toNat ≤ 65535)

end Sys2Proof.Claims

/-- R130: a `cmdw` of fields 0 to 11 to a command in the table, whose island does not run, which has the field, with a
value in range and a patched record that passes the loader's checks, writes that field of the record and nothing else,
and goes on to the next word. -/
def Sys2Proof.Claims.CommandPatch : Prop :=
  ∀ (s : State) (a b : Reg) (field : BitVec 5) (i j : Instr),
    let k := ((s.thr s.cur).get b).toNat
    let v := (s.thr s.cur).get a
    Free s [a, b] [] → Clean s [a, b] → field.toNat ≤ 11 → k < s.tableLen s.cur → (s.cmdRec s.cur k).words.length = 8 →
    s.cmdAt s.cur k = some i → (∀ h, hdrOf i = some h → (s.isl s.cur h.island.toNat).running = false) →
    cmdwField i field.toNat = true → InRange field.toNat v →
    readRec (patchRec (s.cmdRec s.cur k) i field.toNat v) = some j →
    recOk (s.plane s.cur).isls (s.task (me s)).streams (s.task (me s)).acc
      (patchRec (s.cmdRec s.cur k) i field.toNat v) j = true →
    ∃ t, exec (.cmdw a b field) s = .next t ∧ t.thr s.cur = advanced (s.thr s.cur) ∧
      Patched (s.cmdRec s.cur k) (t.cmdRec s.cur k) field.toNat v ∧
      t = { s with threads := t.threads, cmdTab := t.cmdTab }

namespace Sys2Proof.Claims

/-- The record `r'` is `r` with the offset of the stream that its address word w names set to v, the address word naming
the address a, and nothing else changed. -/
def Moved (r r' : CmdRec) (w v a : Nat) : Prop :=
  r'.refs = r.refs.map (fun f => if f.word = w then { f with off := v } else f) ∧ r'.words.length = r.words.length ∧
  ∀ j b : Nat, (r'.words.getD j 0).getLsbD b = if j = w ∧ b < 52 then a.testBit b else (r.words.getD j 0).getLsbD b

end Sys2Proof.Claims

/-- R130, R236, R238: a `cmdw` of field 12 to a command that has it, whose island does not run, with an offset that
passes the loader's checks, translates the record's address anew through its stream: it moves the offset and the
address word, which holds the virtual address in an `s.gath` and `s.scat`, and nothing else, and goes on to the next
word; on a page fault it holds with a record of code 0x08 and leaves every record of the table unchanged. -/
def Sys2Proof.Claims.CommandMove : Prop :=
  ∀ (s : State) (a b : Reg) (i : Instr) (x : CmdRef),
    let k := ((s.thr s.cur).get b).toNat
    let v := (s.thr s.cur).get a
    let va := ((s.task (me s)).streams.getD x.stream {}).va + v.toNat
    Free s [a, b] [] → Clean s [a, b] → k < s.tableLen s.cur → (s.cmdRec s.cur k).words.length = 8 →
    s.cmdAt s.cur k = some i → (∀ h, hdrOf i = some h → (s.isl s.cur h.island.toNat).running = false) →
    cmdwField i 12 = true → v.toNat < 2 ^ 48 → (s.cmdRec s.cur k).refs.find? (fun f => f.word == offsetWord i) = some x →
    recOk (s.plane s.cur).isls (s.task (me s)).streams (s.task (me s)).acc (patchRec (s.cmdRec s.cur k) i 12 v) i = true →
    (∀ pa p dead tag, s.extAcc (s.task (me s)) .load va = .ok pa p dead tag →
      ∃ t, exec (.cmdw a b 12) s = .next t ∧ t.thr s.cur = advanced (s.thr s.cur) ∧
        Moved (s.cmdRec s.cur k) (t.cmdRec s.cur k) (offsetWord i) v.toNat
          (match i with | .sGath _ | .sScat _ => va | _ => pa) ∧
        t = { s with threads := t.threads, cmdTab := t.cmdTab }) ∧
    (s.extAcc (s.task (me s)) .load va = .pageFault →
      ∃ t, exec (.cmdw a b 12) s = .next t ∧ t.cmdTab = s.cmdTab ∧ t.mem = s.mem ∧
        t.thr s.cur = { waiting (s.thr s.cur) s.cycle with held := .fault (BitVec.ofNat 64 va) } ∧
        (t.faultQ = s.faultQ ∨ ∃ r, t.faultQ = s.faultQ ++ [r] ∧ r.code = 0x08 ∧ r.held = true ∧ r.addr = BitVec.ofNat 64 va))

/-- R130, R235, R238: a `cmdw` with a command index at or beyond the table's length, with an unassigned field or one
that the command has not, with a value outside the field's range, the stream's for field 12, or with one whose record
would not pass the loader's checks traps with 0x0A and leaves every record unchanged. -/
def Sys2Proof.Claims.CommandPatchRefused : Prop :=
  ∀ (s : State) (a b : Reg) (field : BitVec 5),
    let k := ((s.thr s.cur).get b).toNat
    let v := (s.thr s.cur).get a
    Free s [a, b] [] → Clean s [a, b] →
    (s.tableLen s.cur ≤ k ∨ ∃ i, s.cmdAt s.cur k = some i ∧
      (∀ h, hdrOf i = some h → (s.isl s.cur h.island.toNat).running = false) ∧
      (12 < field.toNat ∨ cmdwField i field.toNat = false ∨ (field.toNat ≤ 11 ∧ ¬ InRange field.toNat v) ∨
        (field = 12 ∧ ∃ st, refOf (s.task (me s)).streams (s.cmdRec s.cur k) (offsetWord i) = some st ∧
          (v.toNat < st.1.lo ∨ st.1.hi ≤ v.toNat)) ∨
        ∃ j, readRec (patchRec (s.cmdRec s.cur k) i field.toNat v) = some j ∧
          recOk (s.plane s.cur).isls (s.task (me s)).streams (s.task (me s)).acc
            (patchRec (s.cmdRec s.cur k) i field.toNat v) j = false)) →
    ∃ arg, exec (.cmdw a b field) s = .next (s.trap s.cur 0x0A arg)

/-! ## Engine controls (R131 to R134) -/

/-- R131, R296: a `gload` puts its request in flight and goes on to the next word. When the loading ends, its register
holds what the loom decides, which is below 16, and the write is no longer in flight: the number of a slot that was
free, which now holds the graph in bays that were free, where its image is sound and there is room. A failure gives 0,
and its record names the `gload`. When the loading ends, beyond its stated bound, is free (log entry 4). -/
def Obligations.GraphLoad : Prop :=
  (∀ (s : State) (d : Reg) (graph : BitVec 16), Free s [] [d] →
    exec (.gload d graph) s = .next (withThread s { advanced (s.thr s.cur) with
      pend := (s.thr s.cur).pend ++ [{ d := d, kind := .gload graph.toNat s.cycle (s.thr s.cur).pc }] })) ∧
  (∀ (s : State) (c : Ctx) (p : Pend) (g n : Nat) (pc : Word), loading (s.thr c) = some p → p.kind = .gload g n pc →
    ∃ t v, exec (.gloadComplete c) s = .next t ∧ v.toNat < 16 ∧ Landed (s.thr c) (t.thr c) p v false ∧ t.mem = s.mem ∧
      (t.faultQ = s.faultQ ∨ ∃ r, t.faultQ = s.faultQ ++ [r] ∧ v = 0 ∧ (r.code = 0x14 ∨ r.code = 0x18 ∨ r.code = 0x1A) ∧ r.ended = false ∧
        r.addr = BitVec.ofNat 64 g ∧ r.pos = pc)) ∧
  (∀ (s : State) (c : Ctx) (p : Pend) (g n : Nat) (pc : Word) (gr : Graph), loading (s.thr c) = some p → p.kind = .gload g n pc →
    let tk := s.task (s.taskAt c)
    let im := s.graphBytes (tk.graphs.getD g 0)
    g < tk.graphs.length → im.2 = true → readGraph im.1 = some gr → gr.farRead = false → gr.depth ≤ 64 →
    (∃ k < 16, (s.slot c k).resident = false) →
    (gr.bays = 0 ∨ ∃ b, b + gr.bays ≤ tk.bays ∧ s.runFree c b gr.bays = true) →
    ∃ t k b, exec (.gloadComplete c) s = .next t ∧ k < 16 ∧ (s.slot c k).resident = false ∧
      (gr.bays = 0 ∨ (b + gr.bays ≤ tk.bays ∧ s.runFree c b gr.bays = true)) ∧
      Landed (s.thr c) (t.thr c) p (BitVec.ofNat 64 k) false ∧
      t.slot c k = { resident := true, sticky := false, image := tk.graphs.getD g 0, first := b, bays := gr.bays, graph := gr } ∧
      (∀ m < 16, m ≠ k → t.slot c m = s.slot c m))

/-- R132, R133: a `gfree` of a slot below 16 that no running command names empties it and no other slot, and goes on
to the next word; of a slot number above 15 it has no effect. A `gstat` puts the status word into its destination: 0
for an empty slot or a number above 15, else resident, sticky, strict, levels, nodes, inputs and outputs in their
places. -/
def Sys2Proof.Claims.LoomControls : Prop :=
  (∀ (s : State) (a : Reg), Free s [a] [] → Clean s [a] →
    let n := ((s.thr s.cur).get a).toNat
    (15 < n → exec (.gfree a) s = .next (withThread s (advanced (s.thr s.cur)))) ∧
    (n ≤ 15 → s.runningCmd s.cur (fun i => match i with | .gRun r => r.slot.toNat == n | _ => false) = false →
      ∃ t, exec (.gfree a) s = .next t ∧ t.thr s.cur = advanced (s.thr s.cur) ∧ t.slot s.cur n = {} ∧
        (∀ m < 16, m ≠ n → t.slot s.cur m = s.slot s.cur m) ∧ t = { s with threads := t.threads, slots := t.slots })) ∧
  (∀ (s : State) (d a : Reg), Free s [a] [d] → Clean s [a] →
    let n := ((s.thr s.cur).get a).toNat
    let x := s.slot s.cur n
    ∃ t v, exec (.gstat d a) s = .next t ∧ OnlyThread s t ∧ Wrote (s.thr s.cur) (t.thr s.cur) d v false ∧
      ((15 < n ∨ x.resident = false) → v = 0) ∧
      (n ≤ 15 → x.resident = true → x.graph.depth < 256 → x.graph.nodes.length < 2 ^ 20 → x.graph.taps.length < 512 →
        x.graph.outs.length < 512 →
        v.getLsbD 0 = true ∧ v.getLsbD 1 = x.sticky ∧ v.getLsbD 2 = x.graph.strict ∧ v.toNat / 2 ^ 3 % 2 ^ 5 = 0 ∧
        v.toNat / 2 ^ 8 % 2 ^ 8 = x.graph.depth ∧ v.toNat / 2 ^ 16 % 2 ^ 20 = x.graph.nodes.length ∧
        v.toNat / 2 ^ 36 % 2 ^ 9 = x.graph.taps.length ∧ v.toNat / 2 ^ 45 = x.graph.outs.length))

namespace Sys2Proof.Claims

/-- Bits of a camera field (R134). -/
def camWidth (f : Nat) : Nat := if f ≤ 27 then 32 else if f ≤ 29 then 16 else if f = 30 then 5 else if f ≤ 33 then 32 else 8
/-- No running island of the acting context has a camera command that names a camera register. -/
def CamIdle (s : State) (n : Nat) : Prop := s.runningCmd s.cur (camNames n) = false

end Sys2Proof.Claims

/-- R134: while no running command names its register, a `camw` writes one field of a camera register from the low
bits of g[a], a `camld` writes every field from its block; each adds 1 to the register's version and goes on to the
next word. No other field, register or state changes. -/
def Sys2Proof.Claims.CameraControls : Prop :=
  (∀ (s : State) (n : BitVec 3) (a : Reg) (field : BitVec 6), field.toNat ≤ 34 → Free s [a] [] → Clean s [a] →
    CamIdle s n.toNat →
    ∃ t, exec (.camw n a field) s = .next t ∧ t.thr s.cur = advanced (s.thr s.cur) ∧
      (t.cam s.cur n.toNat).version = (s.cam s.cur n.toNat).version + 1 ∧
      (∀ f, mget (t.cam s.cur n.toNat).f f = if f = field.toNat
        then BitVec.ofNat 32 (((s.thr s.cur).get a).toNat % 2 ^ camWidth f) else mget (s.cam s.cur n.toNat).f f) ∧
      (∀ m < 8, m ≠ n.toNat → t.cam s.cur m = s.cam s.cur m) ∧ t = { s with threads := t.threads, cams := t.cams }) ∧
  (∀ (s : State) (n : BitVec 3) (block : BitVec 16), CamIdle s n.toNat →
    ∃ t, exec (.camld n block) s = .next t ∧ t.thr s.cur = advanced (s.thr s.cur) ∧
      (t.cam s.cur n.toNat).version = (s.cam s.cur n.toNat).version + 1 ∧
      (∀ f ≤ 34, mget (t.cam s.cur n.toNat).f f =
        BitVec.ofNat 32 ((mget ((s.task (me s)).image.cams.getD block.toNat []) f).toNat % 2 ^ camWidth f)) ∧
      (∀ m < 8, m ≠ n.toNat → t.cam s.cur m = s.cam s.cur m) ∧ t = { s with threads := t.threads, cams := t.cams })

/-! ## Link instructions and what lands (R109, R122, R135, R136) -/

namespace Sys2Proof.Claims

/-- Kind, address register and destination of a link instruction with a descriptor. -/
def linkSpec : Instr → Option (LinkKind × Reg × Option Reg)
  | .lput a => some (.put, a, none)
  | .lget a => some (.get, a, none)
  | .lamo d a => some (.amo, a, some d)
  | .lsend a => some (.send, a, none)
  | _ => none
/-- The thread `u` after a link instruction of a number whose result goes to d. -/
def linked (u : Thread) (d : Option Reg) (num : Nat) : Thread :=
  { advanced u with pend := (settled u).pend ++ (match d with | some d => [{ d := d, kind := .link num }] | none => []) }
/-- The operation `o` is what a descriptor of four words says (R135). -/
def FromDescriptor (o : LinkOp) (w : Nat → Nat) : Prop :=
  o.pkg.toNat = w 0 % 2 ^ 10 ∧ o.scope = w 0 / 2 ^ 10 % 2 ^ 3 ∧ o.aop.toNat = w 0 / 2 ^ 16 % 2 ^ 4 ∧
  (o.dbl = true ↔ w 0 / 2 ^ 20 % 2 = 1) ∧ o.len = w 0 / 2 ^ 24 % 2 ^ 24 ∧ o.remote.toNat = w 1 ∧ o.local'.toNat = w 2 ∧
  o.cw.toNat = w 3

end Sys2Proof.Claims

/-- R110, R135, R136: an `lput`, `lget`, `lamo` or `lsend` whose descriptor may be read and keeps its limits queues
one operation with the descriptor's fields and its pc behind those of its task, with its destination waiting for it,
and goes on to the next word; no memory and no other task changes. An `lamo` that compares with a poisoned register
traps with 0x13 and queues nothing. -/
def Sys2Proof.Claims.LinkDescriptorQueued : Prop :=
  ∀ (i : Instr) (s s1 : State) (k : LinkKind) (a : Reg) (d : Option Reg) (pa tag : Nat),
    let va := ((s.thr s.cur).get a).toNat
    let w := fun n => seen s1 va pa 32 / 2 ^ (64 * n) % 2 ^ 64
    linkSpec i = some (k, a, d) → Free s [a] d.toList → Clean s [a] → va % 32 = 0 →
    Unawaited s → (s.task (me s)).laidByte va 32 = false → s.seqTranslate .load va = (s1, .ok pa false false tag) → Sound s1 pa →
    w 3 % 8 = 0 → linkOk k (w 0) (w 1) (w 3) = true →
    (w 0 / 2 ^ 16 % 16 = 9 → ∀ r ∈ d, (s.thr s.cur).poisoned r = true →
      ∃ s2 : State, exec i s = .next (s2.trap s.cur 0x13 (BitVec.ofNat 64 r.toNat)) ∧ s2.thr s.cur = s.thr s.cur ∧ s2.mem = s1.mem ∧
        (s2.task (me s)).links = (s.task (me s)).links) ∧
    ((w 0 / 2 ^ 16 % 16 = 9 → ∀ r ∈ d, (s.thr s.cur).poisoned r = false) → (s.task (me s)).gang ≠ 0 → ∃ t o, exec i s = .next t ∧ t.thr s.cur = linked (s.thr s.cur) d s.nextOp ∧ t.mem = s1.mem ∧
      (t.task (me s)).links = (s.task (me s)).links ++ [o] ∧ o.num = s.nextOp ∧ o.kind = k ∧ o.left = false ∧
      o.pc = (s.thr s.cur).pc ∧ FromDescriptor o w ∧ t.nextOp = s.nextOp + 1 ∧ (∀ id, id ≠ me s → t.task id = s.task id))

/-- R136: an `lnotify` queues its value and an `mrecv` its buffer's address, with the destination waiting for the
length, and each goes on to the next word; nothing else changes. -/
def Sys2Proof.Claims.LinkValueQueued : Prop :=
  ∀ (s : State) (d a : Reg), Clean s [a] → (s.task (me s)).gang ≠ 0 →
    (Free s [a] [] → ∃ t o, exec (.lnotify a) s = .next t ∧ t.thr s.cur = linked (s.thr s.cur) none s.nextOp ∧
      t.task (me s) = { s.task (me s) with links := (s.task (me s)).links ++ [o] } ∧ o.kind = .notify ∧
      o.arg = (s.thr s.cur).get a ∧ t = { s with threads := t.threads, tasks := t.tasks, nextOp := s.nextOp + 1 }) ∧
    (Free s [a] [d] → ∃ t o, exec (.mrecv d a) s = .next t ∧ t.thr s.cur = linked (s.thr s.cur) (some d) s.nextOp ∧
      t.task (me s) = { s.task (me s) with links := (s.task (me s)).links ++ [o] } ∧ o.kind = .recv ∧
      o.arg = (s.thr s.cur).get a ∧ t = { s with threads := t.threads, tasks := t.tasks, nextOp := s.nextOp + 1 })

/-- R109, R390: when a value that was read lands, its register holds it with its poison bit and the write is no longer
in flight; nothing else changes. While it is in flight, a load may take after each act what its task then sees in
memory, and nothing but these values changes (R96; DEDUCED, log entry 7). -/
def Sys2Proof.Claims.PendingWriteLands : Prop :=
  ∀ (s : State) (c : Ctx) (p : Pend), p ∈ (s.thr c).pend → p.kind = .value →
    (∀ q ∈ (s.thr c).pend, q.d = p.d → q = p) →
    ∃ t, exec (.pendingWriteLands c p.d) s = .next t ∧ t = s.setThr c (t.thr c) ∧ Landed (s.thr c) (t.thr c) p p.v p.poison
/-- R96, R390: when the loads in flight look at memory again, a write in flight keeps its place, but that its value
may become what its task sees now at its bytes; nothing else changes but the free counter (DEDUCED, log entry 7). -/
def Sys2Proof.Claims.LoadsLookAgain : Prop :=
  ∀ (s : State) (actor : Option Ctx) (c : Ctx),
    let t := s.lookAgain actor
    let fixed := fun (p q : Pend) => q = { p with v := q.v, again := q.again } ∧
      (q.v = p.v ∨ ∃ g, p.again = some g ∧ q.v = extN g.signed g.n (leVal (s.taskBytes (s.taskAt c) g.pa g.n)))
    t = { s with threads := t.threads, free := t.free } ∧ t.thr c = { s.thr c with pend := (t.thr c).pend } ∧
      (t.thr c).pend.length = (s.thr c).pend.length ∧ ∀ x ∈ (s.thr c).pend.zip (t.thr c).pend, fixed x.1 x.2

/-- R122: 65,536 cycles after a `wait` began to idle, its thread is woken; before that, nothing changes. -/
def Sys2Proof.Claims.WaitTimeout : Prop :=
  ∀ (s : State) (c : Ctx) (n : Nat), (s.thr c).idle = some n →
    exec (.waitTimeout c) s = .next (s.setThr c
      { s.thr c with woken := if n + 65536 ≤ s.cycle then true else (s.thr c).woken })

/-! ## Timed entries (R166 to R195, R209 to R220) -/

namespace Sys2Proof.Claims

/-- The acting element. -/
def elemOf (s : State) : Elem := s.elem s.cur s.ei
/-- `t` differs from `s` at most in the acting element. -/
def OnlyElem (s t : State) : Prop := t = s.setElem s.cur s.ei (elemOf t)
/-- The element `y` is `x` with a result issued in island cycle n with a latency: the value is certain from the capture
at the end of cycle n + lat, and each earlier one carries the poison of the old value too (R170, R171). -/
def Issued (x y : Elem) (n lat : Nat) (data : W128) (side : Side) : Prop :=
  y.res = { data := data, side := side } ∧ y.resU = max x.resU (n + lat) ∧
  y.resP = (if n < x.resU then x.resP else 0) ||| poisonOf x.res.side ∧
  { y with res := x.res, resU := x.resU, resP := x.resP } = x
/-- What an entry makes of its result register: with write-enable clear it writes none (R170). -/
def Result (we : Bool) (x y : Elem) (n lat : Nat) (data : W128) (side : Side) : Prop :=
  if we then Issued x y n lat data side else y = x
/-- Every lane i of a beat, at a width w, is `g i`. -/
def Lanes (w n : Nat) (data : W128) (g : Nat → Nat) : Prop := ∀ i < n, laneOf w data i = g i % 2 ^ w
/-- Draws of an op under `rs`: one for four lanes (R54). -/
def drawsOf (f : EntryF) (x : Elem) : List Word × Word :=
  if f.rnd = .rs then drawN ((f.ty.lanes + 3) / 4) x.rand else ([], x.rand)
/-- The element after the draws of an op. -/
def drawn (f : EntryF) (x : Elem) : Elem := { x with rand := (drawsOf f x).2 }
/-- Lane i of an operand. -/
def lane (f : EntryF) (o : Cap) (i : Nat) : Nat := laneOf f.ty.width o.data i
/-- A lane of an integer type as a number, and a number as such a lane, wrapped or clamped (R49, R179). -/
def asInt (t : Ty) (v : Nat) : Int := if isSigned t then (BitVec.ofNat t.width v).toInt else v
def lowest (t : Ty) : Int := if isSigned t then -(2 ^ (t.width - 1)) else 0
def highest (t : Ty) : Int := if isSigned t then 2 ^ (t.width - 1) - 1 else 2 ^ t.width - 1
def toLane (t : Ty) (sat : Bool) (v : Int) : Nat :=
  ((if sat then max (lowest t) (min (highest t) v) else v) % 2 ^ t.width).toNat

/-- Latencies for float and integer types, number of operands, and the value, of the ops that both kinds of type have
(R176, R177, R179). -/
def arithSpec : Instr → Option (EntryF × Nat × Nat × Nat × (Val → Val → Val → Val) × (Int → Int → Int → Int))
  | .entryAdd f => some (f, 3, 2, 2, fun a b _ => a.add b, fun a b _ => a + b)
  | .entrySub f => some (f, 3, 2, 2, fun a b _ => a.sub b, fun a b _ => a - b)
  | .entryMul f => some (f, 3, 4, 2, fun a b _ => a.mul b, fun a b _ => a * b)
  | .entryFma f => some (f, 4, 4, 3, fun a b c => (a.mul b).add c, fun a b c => a * b + c)
  | .entryFms f => some (f, 4, 4, 3, fun a b c => (a.mul b).sub c, fun a b c => a * b - c)
  | .entryFnma f => some (f, 4, 4, 3, fun a b c => c.sub (a.mul b), fun a b c => c - a * b)
  | .entryMin f => some (f, 2, 2, 2, fun a b _ => a.min b, fun a b _ => min a b)
  | .entryMax f => some (f, 2, 2, 2, fun a b _ => a.max b, fun a b _ => max a b)
  | .entryAbs f => some (f, 2, 2, 1, fun a _ _ => a.abs, fun a _ _ => a.natAbs)
  | .entryNeg f => some (f, 2, 2, 1, fun a _ _ => a.neg, fun a _ _ => -a)
  | .entryClamp f => some (f, 2, 2, 3, fun a b c => (a.max b).min c, fun a b c => min (max a b) c)
  | _ => none
/-- Whether a float result of an arithmetic op saturates: the fused ops overflow as under `ieee` (R67), the others in the
entry's overflow mode. -/
def saturates : Instr → EntryF → Bool
  | .entryFma _, _ | .entryFms _, _ | .entryFnma _, _ => false
  | _, f => f.sat
/-- Latency, operands and lanes of the ops of one kind of type; `r` is a lane's draw (R70, R177, R179). -/
def laneSpec : Instr → Option (EntryF × Nat × Nat × (Nat → Nat → Nat → Nat))
  | .entryDiv f => some (f, 16, 2, fun r a b => roundTo f.ty f.rnd (f.sat && !(decodeFloat f.ty b).isZero) r
      ((decodeFloat f.ty a).div (decodeFloat f.ty b)))
  | .entrySqrt f => some (f, 16, 1, fun r a _ => roundTo f.ty f.rnd false r (decodeFloat f.ty a).sqrt)
  | .entryExp2 f => some (f, 12, 1, fun r a _ => roundTo f.ty f.rnd false r (decodeFloat f.ty a).exp2)
  | .entryLg2 f => some (f, 12, 1, fun r a _ => roundTo f.ty f.rnd false r (decodeFloat f.ty a).lg2)
  | .entryRint f => some (f, 3, 1, fun r a _ => roundTo f.ty .rz false 0 (match decodeFloat f.ty a with
      | .fin n m e x => .fin n (roundToInt f.rnd r n m e x).natAbs 0 false
      | v => v))
  | .entryShl f => some (f, 1, 2, fun _ a b => if b < f.ty.width then a * 2 ^ b else 0)
  | .entryShr f => some (f, 1, 2, fun _ a b => if b < f.ty.width then a / 2 ^ b else 0)
  | .entrySra f => some (f, 1, 2, fun _ a b => ((BitVec.ofNat f.ty.width a).toInt / 2 ^ min b f.ty.width % 2 ^ f.ty.width).toNat)
  | .entryMulh f => some (f, 4, 2, fun _ a b => toLane f.ty false (asInt f.ty a * asInt f.ty b / 2 ^ f.ty.width))
  | .entryClz f => some (f, 2, 1, fun _ a _ =>
      ((List.range f.ty.width).takeWhile (fun k => !a.testBit (f.ty.width - 1 - k))).length)
  | .entryPopc f => some (f, 2, 1, fun _ a _ => ((List.range f.ty.width).filter (fun k => a.testBit k)).length)
  | _ => none
/-- Operands and data of the bitwise ops and `mov` (R179, R188). -/
def bitSpec : Instr → Option (EntryF × Nat × (W128 → W128 → W128))
  | .entryAnd f => some (f, 2, fun a b => a &&& b)
  | .entryOr f => some (f, 2, fun a b => a ||| b)
  | .entryXor f => some (f, 2, fun a b => a ^^^ b)
  | .entryAndn f => some (f, 2, fun a b => a &&& ~~~b)
  | .entryNot f => some (f, 1, fun a _ => ~~~a)
  | _ => none
/-- Relation of a compare (R181). -/
def cmpSpec : Instr → Option (EntryF × Rel)
  | .entryCmpeq f => some (f, .eq) | .entryCmpne f => some (f, .ne) | .entryCmplt f => some (f, .lt)
  | .entryCmple f => some (f, .le) | .entryCmpgt f => some (f, .gt) | .entryCmpge f => some (f, .ge)
  | .entryCmpun f => some (f, .un)
  | _ => none
/-- The element `y` is `x` with mask, flag and their poison issued together (R181). -/
def Masked (x y : Elem) (n lat : Nat) (m : W32) (p : Bool) : Prop :=
  y.q = m ∧ y.qPoison = p ∧ y.qU = max x.qU (n + lat) ∧ y.flag = decide (m ≠ 0) ∧ y.flagPoison = p ∧
  y.flagU = max x.flagU (n + lat) ∧
  { y with q := x.q, qPoison := x.qPoison, qU := x.qU, qP := x.qP, flag := x.flag, flagPoison := x.flagPoison
           flagU := x.flagU, flagP := x.flagP } = x

end Sys2Proof.Claims

/-- R67, R170, R176, R177, R179, R218: the arithmetic ops put into each lane the exact value of the operands' lanes,
rounded once for a float type and wrapped or clamped for an integer type, with their latency, zero scale bytes and the
poison of the quarters read. With write-enable clear they write no result. No other element and no other state
changes. That `fma`, `fms` and `fnma` overflow as under `ieee` whatever the entry's overflow mode is the model's
reading (log entry 81). -/
def Obligations.LaneArithmetic : Prop :=
  ∀ (i : Instr) (s : State) (f : EntryF) (lf li n : Nat) (vf : Val → Val → Val → Val) (vi : Int → Int → Int → Int),
    arithSpec i = some (f, lf, li, n, vf, vi) →
    ∃ t data, exec i s = .next t ∧ OnlyElem s t ∧
      Result f.we (drawn f (elemOf s)) (elemOf t) s.now (if isFloat f.ty then lf else li) data
        (mkSide (quarterPoison f.ty.width ([s.opA f, s.opB f, s.opC f].take n)) 0) ∧
      Lanes f.ty.width f.ty.lanes data (fun j =>
        if isFloat f.ty
        then roundTo f.ty f.rnd (saturates i f) (rs16 (drawsOf f (elemOf s)).1 j) (vf (decodeFloat f.ty (lane f (s.opA f) j))
          (decodeFloat f.ty (lane f (s.opB f) j)) (decodeFloat f.ty (lane f (s.opC f) j)))
        else toLane f.ty f.sat (vi (asInt f.ty (lane f (s.opA f) j)) (asInt f.ty (lane f (s.opB f) j))
          (asInt f.ty (lane f (s.opC f) j))))

/-- R170, R176, R177, R179, R218: `div`, `sqrt`, `exp2`, `lg2`, `rint`, the shifts, `mulh`, `clz` and `popc` put into
each lane what their table says of the operands' lanes, with their latency; no other element and no other state
changes. `exp2` and `lg2` go through a 320-bit approximation before their one rounding, and their `ieee` overflow
under `ov` 1 is the model's reading (log entries 6, 23 and 81). -/
def Obligations.LaneFunctions : Prop :=
  ∀ (i : Instr) (s : State) (f : EntryF) (lat n : Nat) (g : Nat → Nat → Nat → Nat),
    laneSpec i = some (f, lat, n, g) →
    ∃ t data, exec i s = .next t ∧ OnlyElem s t ∧
      Result f.we (drawn f (elemOf s)) (elemOf t) s.now lat data
        (mkSide (quarterPoison f.ty.width ([s.opA f, s.opB f].take n)) 0) ∧
      Lanes f.ty.width f.ty.lanes data (fun j =>
        g (rs16 (drawsOf f (elemOf s)).1 j) (lane f (s.opA f) j) (lane f (s.opB f) j))

/-- R179, R188, R189: the bitwise ops act on all 128 data bits; `mov` copies its operand's data and whole sideband;
`rep` puts the token of its C operand into every 32-bit lane, or into bits 31:0 for `bits`. Each lands with latency 1,
and no other element and no other state changes. -/
def Sys2Proof.Claims.BitwiseAndMoves : Prop :=
  (∀ (i : Instr) (s : State) (f : EntryF) (n : Nat) (g : W128 → W128 → W128), bitSpec i = some (f, n, g) →
    ∃ t, exec i s = .next t ∧ OnlyElem s t ∧
      Result f.we (elemOf s) (elemOf t) s.now 1 (g (s.opA f).data (s.opB f).data)
        (mkSide (quarterPoison 32 ([s.opA f, s.opB f].take n)) 0)) ∧
  (∀ (s : State) (f : EntryF), ∃ t, exec (.entryMov f) s = .next t ∧ OnlyElem s t ∧
      Result f.we (elemOf s) (elemOf t) s.now 1 (s.opA f).data (s.opA f).side) ∧
  (∀ (s : State) (f : EntryF), ∃ t data, exec (.entryRep f) s = .next t ∧ OnlyElem s t ∧
      Result f.we (elemOf s) (elemOf t) s.now 1 data
        (mkSide (if (s.opC f).pq 0 then (if f.ty = .bits then 1 else 15) else 0) 0) ∧
      (∀ k < 4, laneOf 32 data k = if f.ty = .bits ∧ k ≠ 0 then 0 else laneOf 32 (s.opC f).data 0))

/-- R181: a compare puts the relation of each lane pair into the mask, clears the mask above its lanes, sets the flag
to the OR of the mask, gives both the OR of the operands' poison bits and, with write-enable, fills the lanes that
hold with ones; all with latency 2. No other element and no other state changes. -/
def Sys2Proof.Claims.CompareResults : Prop :=
  ∀ (i : Instr) (s : State) (f : EntryF) (r : Rel), cmpSpec i = some (f, r) →
    ∃ t m x data, exec i s = .next t ∧ OnlyElem s t ∧
      (∀ k < 32, m.getLsbD k = (decide (k < f.ty.lanes) && relLane f.ty r (lane f (s.opA f) k) (lane f (s.opB f) k))) ∧
      Masked (elemOf s) x s.now 2 m ((s.opA f).anyP || (s.opB f).anyP) ∧
      Result f.we x (elemOf t) s.now 2 data (mkSide (quarterPoison f.ty.width [s.opA f, s.opB f]) 0) ∧
      Lanes f.ty.width f.ty.lanes data (fun k => if m.getLsbD k then 2 ^ f.ty.width - 1 else 0)

namespace Sys2Proof.Claims

/-- The mask bit of each lane of a `sel`, and whether the mask is poisoned (R182). -/
def selMask (s : State) (f : EntryF) (i : Nat) : Bool :=
  if f.x.getLsbD 0 then lane f (s.opC f) i != 0 else (elemOf s).q.getLsbD i
def selPoison (s : State) (f : EntryF) : Bool := if f.x.getLsbD 0 then (s.opC f).anyP else (elemOf s).qPoison
/-- Lanes that lie, in whole or in part, in quarter q. -/
def inQuarter (f : EntryF) (q i : Nat) : Prop := i < f.ty.lanes ∧ q * 32 < f.ty.width * (i + 1) ∧ f.ty.width * i < 32 * (q + 1)

end Sys2Proof.Claims

/-- R182, R219, R220: a `sel` whose mask is certain and unpoisoned takes each lane from A or from B; poison and scale
bytes of a quarter are A's where every lane of it chose A, B's where every lane chose B, and else the OR of both and
zero. A poisoned mask raises 0x13 and gives no result. -/
def Sys2Proof.Claims.SelectResults : Prop :=
  ∀ (s : State) (f : EntryF), (f.x.getLsbD 0 = true ∨ (elemOf s).qU ≤ s.now - 1) →
    (selPoison s f = false →
      ∃ t data side, exec (.entrySel f) s = .next t ∧
        { t with free := s.free } = s.setElem s.cur s.ei (elemOf t) ∧
        Result f.we (elemOf s) (elemOf t) s.now 1 data side ∧
        Lanes f.ty.width f.ty.lanes data (fun i => if selMask s f i then lane f (s.opA f) i else lane f (s.opB f) i) ∧
        (∀ q < 4,
          ((∀ i, inQuarter f q i → selMask s f i = true) →
            (poisonOf side).getLsbD q = (s.opA f).pq q ∧ scaleByte side q = scaleByte (s.opA f).side q) ∧
          ((∃ i, inQuarter f q i) → (∀ i, inQuarter f q i → selMask s f i = false) →
            (poisonOf side).getLsbD q = (s.opB f).pq q ∧ scaleByte side q = scaleByte (s.opB f).side q) ∧
          ((∃ i, inQuarter f q i ∧ selMask s f i = true) → (∃ i, inQuarter f q i ∧ selMask s f i = false) →
            (poisonOf side).getLsbD q = ((s.opA f).pq q || (s.opB f).pq q) ∧ scaleByte side q = 0))) ∧
    (selPoison s f = true →
      ∃ t r, exec (.entrySel f) s = .next t ∧ t.faultQ = s.faultQ ++ [r] ∧ r.code = 0x13 ∧ r.elem.toNat = s.ei % 512 ∧
        t.elems = s.elems)

namespace Sys2Proof.Claims

/-- Source lane of a destination lane of `cvt`; none for one that is merged or zeroed (R183). -/
def cvtFrom (ls ld part i : Nat) : Option Nat :=
  if ls = ld then some i else if ld < ls then some (part * ld + i) else if i / ls = part then some (i % ls) else none
/-- The value of a lane of any type, and its conversion to one: R56 for floats, R57 to integers. -/
def convert (src dst : Ty) (f : EntryF) (r v : Nat) : Nat :=
  let x := if isFloat src then decodeFloat src v else .fin (decide (asInt src v < 0)) (asInt src v).natAbs 0 false
  if isFloat dst then roundTo dst f.rnd (f.sat && !exactPair src dst) r x
  else ((toIntTy dst f.rnd r x) % 2 ^ dst.width).toNat
/-- Source lane of a lane move, and whether the lane of B that names it is read (R186). -/
def moveSpec (s : State) : Instr → Option (EntryF × (Nat → Nat) × Bool)
  | .entryShuf f => some (f, fun i => lane f (s.opB f) i % f.ty.lanes, true)
  | .entryBcast f => some (f, fun _ => f.x.toNat % 32 % f.ty.lanes, false)
  | .entryRot f => some (f, fun i => (i + f.x.toNat % 32) % f.ty.lanes, false)
  | _ => none

end Sys2Proof.Claims

/-- R54, R56, R57, R183, R218: a `cvt` converts the lanes that its part names, takes the others from B or as zero,
draws for every destination lane under `rs`, and has latency 2; a quarter of the result is poisoned by the lanes read
into it, and keeps B's scale byte only where all its lanes are B's; no other element and no other state changes. That
an infinity saturates under `sat` where the pair is not exact is the model's choice (log entry 80). -/
def Obligations.ConversionResults : Prop :=
  ∀ (s : State) (f : EntryF) (src : Ty), Ty.ofCode? (f.x.toNat % 16) = some src →
    ∃ t data side, exec (.entryCvt f) s = .next t ∧ OnlyElem s t ∧
      Result f.we (drawn f (elemOf s)) (elemOf t) s.now 2 data side ∧
      Lanes f.ty.width f.ty.lanes data (fun i =>
        match cvtFrom src.lanes f.ty.lanes (f.x.toNat / 16 % 16) i with
        | some j => convert src f.ty f (rs16 (drawsOf f (elemOf s)).1 i) (laneOf src.width (s.opA f).data j)
        | none => if f.x.getLsbD 8 then lane f (s.opB f) i else 0) ∧
      (∀ q < 4, ((poisonOf side).getLsbD q = true ↔ ∃ i < f.ty.lanes, q ∈ quartersOf f.ty.width i ∧
          match cvtFrom src.lanes f.ty.lanes (f.x.toNat / 16 % 16) i with
          | some j => (s.opA f).laneP src.width j = true
          | none => f.x.getLsbD 8 = true ∧ (s.opB f).laneP f.ty.width i = true) ∧
        scaleByte side q = if f.x.getLsbD 8 = true ∧ ∀ i < f.ty.lanes, q ∈ quartersOf f.ty.width i →
          cvtFrom src.lanes f.ty.lanes (f.x.toNat / 16 % 16) i = none then scaleByte (s.opB f).side q else 0)

namespace Sys2Proof.Claims

/-- Source value k of a `blk.pack` that reads n beats of type `src`: beat 0 is the oldest capture (R184). -/
def packed (s : State) (o : Opnd) (src : Ty) (n k : Nat) : Val :=
  decodeFloat src (laneOf src.width (s.opndOlder s.cur s.ei o (n - 1 - k / src.lanes)).data (k % src.lanes))
/-- Code of an element of a block with a scale code (R55, R60). -/
def elemCode (t : Ty) (code : Nat) (x : Val) : Nat :=
  if x.isNan = true then roundTo t .rn true 0 .nan
  else if code = 0 then withSign t x.signBit 0
  else roundTo t .rn true 0 (x.div (decodeScale code))

end Sys2Proof.Claims

/-- R184, R185: a `blk.pack` completes with latency 4 and a `blk.unpk` with latency 2: each changes the result of the
acting element, the draws of an `rs` `blk.unpk`, and nothing else. Poison of any beat that a `blk.pack` reads poisons
its whole result, whose lanes are the codes of the source values over the scales of their blocks, and whose scale
bytes are the codes of those scales. A lane of a `blk.unpk` is the rounded exact product of its element's value and
its block's scale. -/
def Sys2Proof.Claims.BlockPacking : Prop :=
  (∀ (s : State) (f : EntryF) (src : Ty), Ty.ofCode? (f.x.toNat % 16) = some src →
    let read := (List.range (max f.ty.lanes (s.cfg s.cur s.ei).blk / src.lanes)).map (s.opndOlder s.cur s.ei f.a)
    ∃ t data side, exec (.entryBlkPack f) s = .next t ∧ OnlyElem s t ∧
      Result f.we (elemOf s) (elemOf t) s.now 4 data side ∧ poisonOf side = if read.any Cap.anyP then 15 else 0) ∧
  (∀ (s : State) (f : EntryF) (src : Ty), Ty.ofCode? (f.x.toNat % 16) = some src → src ∈ [Ty.f32, .bf16, .f16] →
    f.ty ∈ [Ty.e2m1, .e4m3, .e5m2] → (s.cfg s.cur s.ei).blk ∈ [8, 16, 32] →
    let n := (s.cfg s.cur s.ei).blk
    let x := packed s f.a src (max f.ty.lanes n / src.lanes)
    let code := fun b => blockCode f.ty ((List.range n).map (fun i => x (b * n + i)))
    let first := if f.ty.lanes < n then f.x.toNat / 16 % 2 * f.ty.lanes else 0
    ∃ t data side, exec (.entryBlkPack f) s = .next t ∧ Result f.we (elemOf s) (elemOf t) s.now 4 data side ∧
      Lanes f.ty.width f.ty.lanes data (fun i => elemCode f.ty (code ((first + i) / n)) (x (first + i))) ∧
      (∀ b < 4, scaleByte side b = if b * n < max f.ty.lanes n then code b else 0)) ∧
  (∀ (s : State) (f : EntryF) (e : Ty), Ty.ofCode? (f.x.toNat % 16) = some e →
    let n := s.lineBlk s.cur s.ei f.a
    let part := f.x.toNat / 16 % 8
    let scale := fun j => if f.x.getLsbD 7 then scaleByte (s.opndOlder s.cur s.ei f.a 1).side 0
      else if e.lanes < n then scaleByte (s.opA f).side 0 else scaleByte (s.opA f).side (j / n)
    ∃ t data side, exec (.entryBlkUnpk f) s = .next t ∧ OnlyElem s t ∧
      Result f.we (drawn f (elemOf s)) (elemOf t) s.now 2 data side ∧ scalesOf side = 0 ∧
      Lanes f.ty.width f.ty.lanes data (fun i =>
        roundTo f.ty f.rnd f.sat (rs16 (drawsOf f (elemOf s)).1 i)
          ((decodeFloat e (laneOf e.width (s.opA f).data (part * f.ty.lanes + i))).mul (decodeScale (scale (part * f.ty.lanes + i))))))

/-- R60, R184: the scale code of a block without NaN is 0 when its elements are zeros, and else the least code from 1
whose product with the largest element value is at least every magnitude, or 255 where there is none. -/
def Sys2Proof.Claims.BlockScaleIsLeast : Prop :=
  ∀ (t : Ty) (xs : List Val), (∀ x ∈ xs, x.isNan = false) →
    let m := xs.foldl (fun m x => Val.max m x.abs) (Val.fin false 0 0 false)
    (m.isZero = true → blockCode t xs = 0) ∧
    (m.isZero = false → 1 ≤ blockCode t xs ∧ blockCode t xs ≤ 255 ∧
      (∀ c, 1 ≤ c → c < blockCode t xs → m.le ((qmax t).mul (decodeScale c)) = false) ∧
      (blockCode t xs < 255 → m.le ((qmax t).mul (decodeScale (blockCode t xs))) = true))

namespace Sys2Proof.Claims

/-- The pairwise tree of R68: level k + 1 combines elements 2i and 2i + 1 of level k. -/
def pairwise (g : Val → Val → Val) (leaf : Nat → Val) : Nat → Nat → Val
  | 0, i => leaf i
  | k + 1, i => g (pairwise g leaf k (2 * i)) (pairwise g leaf k (2 * i + 1))
/-- A rounding of a level of `hsum`: to FP32 in the entry's modes. -/
def level (f : EntryF) (v : Val) : Val := decodeFloat .f32 (BitVec.ofNat 32 (roundTo .f32 f.rnd f.sat 0 v)).toNat
/-- A lane as it enters the tree: under `sat` an infinity enters as the largest value of FP32 (R187). -/
def leafOf (f : EntryF) (v : Nat) : Val :=
  match decodeFloat f.ty v with
  | .inf n => if f.sat then decodeFloat .f32 (withSign .f32 n (maxCode .f32)) else .inf n
  | x => x
/-- Sum of n numbers. -/
def total (g : Nat → Int) : Nat → Int
  | 0 => 0
  | n + 1 => total g n + g n
/-- Inclusive scan: lane i from lane i - 1 and x_i. -/
def scanned (f : EntryF) (a : Cap) : Nat → Nat
  | 0 => if isFloat f.ty then roundTo f.ty f.rnd f.sat 0 (decodeFloat f.ty (lane f a 0)) else lane f a 0
  | i + 1 => if isFloat f.ty
      then roundTo f.ty f.rnd f.sat 0 ((decodeFloat f.ty (scanned f a i)).add (decodeFloat f.ty (lane f a (i + 1))))
      else toLane f.ty f.sat (asInt f.ty (scanned f a i) + asInt f.ty (lane f a (i + 1)))

end Sys2Proof.Claims

/-- R186: a lane move copies into each lane the lane of A that it names, with latency 1 and zero scale bytes; no other
element and no other state changes. -/
def Sys2Proof.Claims.LaneMoves : Prop :=
  ∀ (i : Instr) (s : State) (f : EntryF) (g : Nat → Nat) (useB : Bool), moveSpec s i = some (f, g, useB) →
    ∃ t data p, exec i s = .next t ∧ OnlyElem s t ∧ Result f.we (elemOf s) (elemOf t) s.now 1 data (mkSide p 0) ∧
      Lanes f.ty.width f.ty.lanes data (fun j => lane f (s.opA f) (g j))

/-- R68, R176, R187, R218: `hsum` puts the pairwise FP32 sum of the lanes of a float type of set F or F8, or the exact
sum of the lanes of an integer type of set I, wrapped or clamped to 32 bits, into bits 31:0 with zeros above, poisoned
where a quarter of A is; the latency is that of R176. -/
def Sys2Proof.Claims.HorizontalSums : Prop :=
  ∀ (s : State) (f : EntryF), (f.ty.isF || f.ty.isF8 || f.ty.isI) = true →
    ∃ t data, exec (.entryHsum f) s = .next t ∧ OnlyElem s t ∧
      Result f.we (elemOf s) (elemOf t) s.now
        (if f.ty.isI then 3 else if f.ty = .f32 then 6 else if f.ty.width = 16 then 9 else 12) data
        (mkSide (if (s.opA f).anyP then 1 else 0) 0) ∧
      data.toNat = if isFloat f.ty
        then roundTo .f32 .rn false 0 (pairwise (fun x y => level f (x.add y)) (fun i => leafOf f (lane f (s.opA f) i))
          (Nat.log2 f.ty.lanes) 0)
        else toLane (if isSigned f.ty then .i32 else .n32) f.sat (total (fun i => asInt f.ty (lane f (s.opA f) i)) f.ty.lanes)

/-- R68, R176, R187, R218: `scan` puts into each lane the inclusive sum, rounded in a float type and wrapped or
clamped in an integer type, lane by lane from lane 0, poisoned where a lane up to it is; the latency is that of R176.
-/
def Sys2Proof.Claims.Scans : Prop :=
  ∀ (s : State) (f : EntryF), (f.ty.isF || f.ty.isI) = true →
    ∃ t data p, exec (.entryScan f) s = .next t ∧ OnlyElem s t ∧
      Result f.we (elemOf s) (elemOf t) s.now (if f.ty.isI then 4 else if f.ty = .f32 then 8 else 12) data (mkSide p 0) ∧
      Lanes f.ty.width f.ty.lanes data (scanned f (s.opA f)) ∧
      ∀ q < 4, p.getLsbD q = true ↔ ∃ i, inQuarter f q i ∧ ∃ j ≤ i, (s.opA f).laneP f.ty.width j = true

namespace Sys2Proof.Claims

/-- The greatest or least of the float lanes 0 to n, two at a time (R68). -/
def extremeLane (f : EntryF) (hi : Bool) (a : Cap) : Nat → Val
  | 0 => decodeFloat f.ty (lane f a 0)
  | i + 1 => if hi then (extremeLane f hi a i).max (decodeFloat f.ty (lane f a (i + 1)))
      else (extremeLane f hi a i).min (decodeFloat f.ty (lane f a (i + 1)))
/-- `m` is the greater and `n` the lesser of two values: NaN where one of them is, else one of them each, `m` below and `n`
above neither, with −0 below +0 (R68). -/
def Extremes (x y m n : Val) : Prop :=
  ((x.isNan = true ∨ y.isNan = true) → m = .nan ∧ n = .nan) ∧
  (x.isNan = false → y.isNan = false →
    (m = x ∨ m = y) ∧ m.lt x = false ∧ m.lt y = false ∧ (n = x ∨ n = y) ∧ x.lt n = false ∧ y.lt n = false ∧
    (x.eq y = true → m.signBit = (x.signBit && y.signBit) ∧ n.signBit = (x.signBit || y.signBit)))

end Sys2Proof.Claims

/-- R68, R187, R218: `hmax` and `hmin` put the greatest or least lane into lane 0 with zeros above, poisoned where a
quarter of A is, with latency 3. For an integer type of set I it is a value that some lane has and that no lane
exceeds, or is below. For a float type of set F or F8 it is the extreme value of the lanes, which no rounding changes:
NaN where a lane is, and −0 below +0. -/
def Sys2Proof.Claims.HorizontalExtremes : Prop :=
  (∀ x y : Val, Extremes x y (x.max y) (x.min y)) ∧
  ∀ (s : State) (f : EntryF) (hi : Bool), (f.ty.isF || f.ty.isF8 || f.ty.isI) = true →
    ∃ t data, exec (if hi then .entryHmax f else .entryHmin f) s = .next t ∧ OnlyElem s t ∧
      Result f.we (elemOf s) (elemOf t) s.now 3 data (mkSide (if (s.opA f).anyP then 1 else 0) 0) ∧
      data.toNat < 2 ^ f.ty.width ∧
      (isFloat f.ty = true → data.toNat = roundTo f.ty .rz false 0 (extremeLane f hi (s.opA f) (f.ty.lanes - 1))) ∧
      (f.ty.isI = true → (∃ i < f.ty.lanes, data.toNat = lane f (s.opA f) i) ∧
        ∀ i < f.ty.lanes, if hi then asInt f.ty (lane f (s.opA f) i) ≤ asInt f.ty data.toNat
          else asInt f.ty data.toNat ≤ asInt f.ty (lane f (s.opA f) i))

namespace Sys2Proof.Claims

/-- A 32-bit control-plane operand (R190). -/
def word32 (o : Cap) : W32 := BitVec.ofNat 32 (laneOf 32 o.data 0)
/-- Operands and token of a control-plane op (R190). -/
def ctlSpec : Instr → Option (EntryF × Nat × (W32 → W32 → W32))
  | .entryCadd f => some (f, 2, fun a b => a + b)
  | .entryCsub f => some (f, 2, fun a b => a - b)
  | .entryCand f => some (f, 2, fun a b => a &&& b)
  | .entryCor f => some (f, 2, fun a b => a ||| b)
  | .entryCshl f => some (f, 2, fun a b =>
      if 0 ≤ b.toInt then a <<< b.toInt.toNat
      else if f.ty = .i32 then a.sshiftRight (-b.toInt).toNat else a >>> (-b.toInt).toNat)
  | .entryCmov f => some (f, 1, fun a _ => a)
  | _ => none
/-- The element `y` is `x` with a token issued in island cycle n with latency 1. -/
def Token (we : Bool) (x y : Elem) (n : Nat) (v : W32) (p : Bool) : Prop :=
  if we then y.cres = { tok := v, poison := p } ∧ y.cresU = max x.cresU (n + 1) ∧
    { y with cres := x.cres, cresU := x.cresU, cresP := x.cresP } = x
  else y = x
/-- The relation of a `ccmp` or `chk` code on two 32-bit words, signed for i32 (R190). -/
def holds32 (signed : Bool) (cc : Nat) (a b : W32) : Bool :=
  let (x, y) := if signed then (a.toInt, b.toInt) else ((a.toNat : Int), (b.toNat : Int))
  match cc with
  | 0 => x = y | 1 => x ≠ y | 2 => x < y | 3 => x ≤ y | 4 => y < x | _ => y ≤ x

end Sys2Proof.Claims

/-- R190: the control-plane ops write their token, poisoned where an operand is, with latency 1; `ccmp` writes the
flag as well, and its token is the flag. No other element and no other state changes. -/
def Sys2Proof.Claims.ControlPlane : Prop :=
  (∀ (i : Instr) (s : State) (f : EntryF) (n : Nat) (g : W32 → W32 → W32), ctlSpec i = some (f, n, g) →
    ∃ t, exec i s = .next t ∧ OnlyElem s t ∧
      Token f.we (elemOf s) (elemOf t) s.now (g (word32 (s.opA f)) (word32 (s.opB f)))
        ((s.opA f).pq 0 || (decide (n = 2) && (s.opB f).pq 0))) ∧
  (∀ (s : State) (f : EntryF), (f.ty = .i32 ∨ f.ty = .n32) →
    let v := holds32 (decide (f.ty = .i32)) (f.x.toNat % 8) (word32 (s.opA f)) (word32 (s.opB f))
    let p := (s.opA f).pq 0 || (s.opB f).pq 0
    ∃ t x, exec (.entryCcmp f) s = .next t ∧ OnlyElem s t ∧ x.flag = v ∧ x.flagPoison = p ∧
      x.flagU = max (elemOf s).flagU (s.now + 1) ∧
      { x with flag := (elemOf s).flag, flagPoison := (elemOf s).flagPoison, flagU := (elemOf s).flagU
               flagP := (elemOf s).flagP } = elemOf s ∧
      Token f.we x (elemOf t) s.now (if v then 1 else 0) p)

namespace Sys2Proof.Claims

/-- Bank address of a read or a store: from X, or from X and an index, in whole beats (R191). -/
def bankAddr (s : State) : Instr → Option Nat
  | .entryLdb f | .entryStb f => some (f.x.toNat / 16 * 16)
  | .entryLdbx f => some ((f.x.toNat + (s.opA f).data.toNat % 65536) % 65536 / 16 * 16)
  | .entryStbx f => some ((f.x.toNat + (s.opB f).data.toNat % 65536) % 65536 / 16 * 16)
  | _ => none
def bankReads : Instr → Bool | .entryLdb _ | .entryLdbx _ => true | _ => false
/-- Operand that a bank store writes. -/
def stored (s : State) : Instr → Cap
  | .entryStb f | .entryStbx f => s.opA f
  | _ => {}

end Sys2Proof.Claims

/-- R191, R192, R195: a bank read of a line that the partition owns, that is no guard and has no error is issued, to
perform in the next cycle; nothing else changes but the count of a corrected error. As it performs it puts the beat in
flight, with zero sideband, for the M capture at the end of the third cycle after its issue, and changes nothing else.
-/
def Sys2Proof.Claims.BankReads : Prop :=
  (∀ (i : Instr) (s : State) (a : Nat), bankReads i = true → bankAddr s i = some a → s.bankChk s.cur s.ei a = .ok →
    ∃ t, exec i s = .next t ∧ t.bankQ = s.bankQ ++ [{ c := s.cur, e := s.ei, a := a, at' := s.now + 3 }] ∧
      t = { s with bankQ := t.bankQ, bankCE := t.bankCE }) ∧
  (∀ (s : State) (o : BankOp), o.store = none → o.poison = false →
    let x := s.elem o.c o.e
    let y := (s.bankDo o).elem o.c o.e
    (∀ n, mget y.bankRd n = if n = o.at' then some { data := mget s.bank (beatKey o.c o.e o.a) } else mget x.bankRd n) ∧
      { y with bankRd := x.bankRd } = x ∧ s.bankDo o = s.setElem o.c o.e y)

/-- R191, R193, R194, R195: a bank store of an unpoisoned beat to a line that the partition owns, that is no guard and
has no error is issued, to perform in the next cycle, and nothing else changes. As it performs it writes A's data bits
there and changes nothing else; the plane writes of a cycle perform ahead of the accesses that entries issued in it
(R277). -/
def Sys2Proof.Claims.BankStores : Prop :=
  (∀ (i : Instr) (s : State) (a : Nat), bankReads i = false → bankAddr s i = some a → (stored s i).anyP = false →
    s.bankChk s.cur s.ei a = .ok →
    exec i s = .next { s with bankQ := s.bankQ ++ [{ c := s.cur, e := s.ei, a := a, store := some (stored s i).data }] }) ∧
  (∀ (s : State) (o : BankOp) (v : W128), o.store = some v →
    s.bankDo o = { s with bank := (s.bankDo o).bank } ∧
      ∀ k, mget (s.bankDo o).bank k = if k = beatKey o.c o.e o.a then v else mget s.bank k) ∧
  (∀ (s : State) (w : PlaneWr) (o : BankOp) (v : W128), o.store = some v → s.planeQ = [w] → s.bankQ = [o] →
    ∀ k, mget s.bankTurn.bank k = if k = beatKey o.c o.e o.a then v
      else if k = beatKey w.c w.e w.a then w.v else mget s.bank k)

/-- R193, R195, R220, R223: a bank access to a line not owned raises 0x31 and is not performed; a poisoned store
raises 0x13 and writes nothing; an access to a guard line writes nothing and is held as the task's pending guard
access, unless one is pending already. -/
def Sys2Proof.Claims.BankFaults : Prop :=
  ∀ (i : Instr) (s : State) (a : Nat), bankAddr s i = some a →
    (bankReads i = false → (stored s i).anyP = true →
      ∃ t r, exec i s = .next t ∧ t.bank = s.bank ∧ t.faultQ = s.faultQ ++ [r] ∧ r.code = 0x13) ∧
    ((bankReads i = true ∨ (stored s i).anyP = false) → s.bankChk s.cur s.ei a = .notOwned →
      ∃ t r, exec i s = .next t ∧ t.bank = s.bank ∧ t.elems = s.elems ∧ t.faultQ = s.faultQ ++ [r] ∧ r.code = 0x31) ∧
    ((bankReads i = true ∨ (stored s i).anyP = false) → s.bankChk s.cur s.ei a = .guard → (s.task (me s)).gang ≠ 0 →
      ∃ t, exec i s = .next t ∧ t.bank = s.bank ∧ t.faultQ = s.faultQ ∧
        ((s.task (me s)).guardHit = none → ∃ g, (t.task (me s)).guardHit = some g ∧ g.elem = s.ei ∧ g.addr = a) ∧
        (∀ g, (s.task (me s)).guardHit = some g → (t.task (me s)).guardHit = some g))

namespace Sys2Proof.Claims

/-- n draws from a random stream, as R209 states one. -/
def draw (v : Word) : Word :=
  let v := v ^^^ (v <<< 13)
  let v := v ^^^ (v >>> 7)
  v ^^^ (v <<< 17)
def drawAt (v : Word) : Nat → Word
  | 0 => v
  | n + 1 => draw (drawAt v n)
/-- The reservoir after i lanes: weight and index (R213). -/
def reserve (f : EntryF) (a : Cap) (seed : Word) (w0 : Val) (i0 : Nat) : Nat → Val × Nat
  | 0 => (w0, i0)
  | i + 1 =>
    let (big, ix) := reserve f a seed w0 i0 i
    let w := normW (decodeFloat f.ty (lane f a i))
    let sum := addW big w
    (sum, if wins (uniform (drawAt seed (i + 1))) w sum then f.x.toNat + i else ix)

end Sys2Proof.Claims

/-- R209, R212: a draw of `rng` takes two values of the stream into the two halves of its result, or four into the
lanes of an f32 result as multiples of 2^-24, with latency 2; a seed sets the stream, and the result, from A, or to
the default where A is zero, with latency 1. The stream moves on whatever write-enable is. -/
def Sys2Proof.Claims.RandomDraws : Prop :=
  (∀ (s : State) (f : EntryF), f.ty ≠ .f32 → ∃ t data, exec (.entryRngDraw f) s = .next t ∧ OnlyElem s t ∧
    Result f.we { elemOf s with rand := drawAt (elemOf s).rand 2 } (elemOf t) s.now 2 data 0 ∧
    data.toNat = (drawAt (elemOf s).rand 1).toNat + 2 ^ 64 * (drawAt (elemOf s).rand 2).toNat) ∧
  (∀ (s : State) (f : EntryF), f.ty = .f32 → ∃ t data, exec (.entryRngDraw f) s = .next t ∧ OnlyElem s t ∧
    Result f.we { elemOf s with rand := drawAt (elemOf s).rand 4 } (elemOf t) s.now 2 data 0 ∧
    ∀ k < 4, laneOf 32 data k = roundTo .f32 .rz false 0
      (.fin false ((drawAt (elemOf s).rand (k + 1)).toNat / 2 ^ 40) (-24) false) % 2 ^ 32) ∧
  (∀ (s : State) (f : EntryF), (s.opA f).anyP = false →
    let v : Word := if (s.opA f).data.toNat % 2 ^ 64 = 0 then 0x9E3779B97F4A7C15 ^^^ BitVec.ofNat 64 s.ei
      else BitVec.ofNat 64 (s.opA f).data.toNat
    ∃ t, exec (.entryRngSeed f) s = .next t ∧ OnlyElem s t ∧
      Result f.we { elemOf s with rand := v } (elemOf t) s.now 1 (BitVec.ofNat 128 v.toNat) 0)

/-- R213, R214: `rsv` adds its lanes' weights to the state one after another, each lane drawing once and replacing the
index when it wins; `rsvm` keeps A's index unless B wins. Both put weight and index into bits 63:0 with zeros above.
-/
def Sys2Proof.Claims.Reservoirs : Prop :=
  (∀ (s : State) (f : EntryF), f.ty.isF = true →
    let w0 := normW (decodeFloat .f32 (word32 (s.opB f)).toNat)
    let r := reserve f (s.opA f) (elemOf s).rand w0 (laneOf 32 (s.opB f).data 1) f.ty.lanes
    ∃ t data side, exec (.entryRsv f) s = .next t ∧ OnlyElem s t ∧
      Result f.we { elemOf s with rand := drawAt (elemOf s).rand f.ty.lanes } (elemOf t) s.now (if f.ty = .f32 then 6 else 10)
        data side ∧
      laneOf 32 data 0 = roundTo .f32 .rn false 0 r.1 % 2 ^ 32 ∧ laneOf 32 data 1 = r.2 % 2 ^ 32 ∧ data.toNat < 2 ^ 64) ∧
  (∀ (s : State) (f : EntryF),
    let wa := normW (decodeFloat .f32 (word32 (s.opA f)).toNat)
    let wb := normW (decodeFloat .f32 (word32 (s.opB f)).toNat)
    ∃ t data side, exec (.entryRsvm f) s = .next t ∧ OnlyElem s t ∧
      Result f.we { elemOf s with rand := drawAt (elemOf s).rand 1 } (elemOf t) s.now 4 data side ∧
      laneOf 32 data 0 = roundTo .f32 .rn false 0 (addW wa wb) % 2 ^ 32 ∧
      laneOf 32 data 1 = (if wins (uniform (drawAt (elemOf s).rand 1)) wb (addW wa wb) then laneOf 32 (s.opB f).data 1
        else laneOf 32 (s.opA f).data 1) ∧ data.toNat < 2 ^ 64)

/-- R215, R216: `bitt` puts into the mask the bits of A that the lanes of B, or the lane numbers, name from its base
on, and sets the flag to their OR; `lut16` copies into each lane the entry that the low four bits of A's lane name.
Both have latency 2, and no other element and no other state changes. -/
def Obligations.BitAndTableLookups : Prop :=
  (∀ (s : State) (f : EntryF),
    let pos := fun i => f.x.toNat % 128 + (if f.x.getLsbD 7 then i else lane f (s.opB f) i)
    ∃ t m x data side, exec (.entryBitt f) s = .next t ∧ OnlyElem s t ∧
      (∀ k < 32, m.getLsbD k = (decide (k < f.ty.lanes) && decide (pos k < 128) && (s.opA f).data.getLsbD (pos k))) ∧
      Masked (elemOf s) x s.now 2 m ((s.opA f).anyP || (!f.x.getLsbD 7 && (s.opB f).anyP)) ∧
      Result f.we x (elemOf t) s.now 2 data side ∧
      Lanes f.ty.width f.ty.lanes data (fun k => if m.getLsbD k then 2 ^ f.ty.width - 1 else 0)) ∧
  (∀ (s : State) (f : EntryF), f.ty.width ≤ 16 →
    ∃ t data p, exec (.entryLut16 f) s = .next t ∧ OnlyElem s t ∧ Result f.we (elemOf s) (elemOf t) s.now 2 data (mkSide p 0) ∧
      Lanes f.ty.width f.ty.lanes data (fun i =>
        let k := lane f (s.opA f) i % 16
        if f.ty.width = 16 ∧ 8 ≤ k then laneOf 16 (s.opC f).data (k - 8) else laneOf f.ty.width (s.opB f).data k))

/-- R210, R211: `cond` sets the flag when its operand, lane 0 of it, or the token of a C operand, is not zero, with
latency 1, and changes nothing else. A `chk` whose relation holds in every lane of unpoisoned operands changes
nothing; one that fails is noted with 0x05 and its identifier, or with 0x13 where an operand is poisoned, to be
decided two cycles later. -/
def Sys2Proof.Claims.ConditionsAndChecks : Prop :=
  (∀ (s : State) (f : EntryF), ∃ t, exec (.entryCond f) s = .next t ∧ OnlyElem s t ∧
    (elemOf t).flag = (if f.ty = .bits then decide ((s.opA f).data ≠ 0) else decide (laneOf (condWidth f) (s.opA f).data 0 ≠ 0)) ∧
    (elemOf t).flagPoison = (if f.ty = .bits then (s.opA f).anyP else (s.opA f).pq 0) ∧
    (elemOf t).flagU = max (elemOf s).flagU (s.now + 1) ∧
    { elemOf t with flag := (elemOf s).flag, flagPoison := (elemOf s).flagPoison, flagU := (elemOf s).flagU
                    flagP := (elemOf s).flagP } = elemOf s) ∧
  (∀ (s : State) (f : EntryF),
    let ok := ∀ i < f.ty.lanes, relLane f.ty (relOfCode (f.x.toNat % 8)) (lane f (s.opA f) i) (lane f (s.opB f) i) = true
    let p := (s.opA f).anyP || (s.opB f).anyP
    let note := fun (code : BitVec 8) (id : BitVec 12) => s.setElem s.cur s.ei { elemOf s with
      chks := (elemOf s).chks ++ [{ at' := s.cycle + 2, code := code, id := id, pos := (s.islOf s.cur s.ei).ctr }] }
    (p = false → ok → exec (.entryChk f) s = .next s) ∧
    (p = false → ¬ ok → exec (.entryChk f) s = .next (note 0x05 (BitVec.ofNat 12 (f.x.toNat / 16)))) ∧
    (p = true → exec (.entryChk f) s = .next (note 0x13 0)))

/-! ## Commands of the engines (R222, R230 to R234, R273 to R275, R278, R301, R310, R313) -/

namespace Sys2Proof.Claims

/-- The run of the acting command that has just started. -/
def begun (s : State) (i : Instr) : CmdRun :=
  { st := .running, ins := some i, startReal := s.cycle, startCtr := (s.islOfCmd s.cur i).ctr }
/-- In `t` the run of the acting command is `x`, and every other run is as in `s`. -/
def Began (s t : State) (x : CmdRun) : Prop :=
  t.run s.cur s.curCmd.toNat = x ∧ ∀ n, n ≠ kKey s.cur s.curCmd.toNat → mget t.runs n = mget s.runs n
/-- The acting command is turned away with 0x10: a record that names it, the end of its gang, and nothing started. -/
def TurnedAway (s t : State) (i : Instr) : Prop :=
  ∃ r, t.faultQ = s.faultQ ++ [r] ∧ r.code = 0x10 ∧ r.ended = true ∧ r.ctx = s.cur ∧ r.cmd.toNat = s.curCmd.toNat ∧
    r.pos = BitVec.ofNat 64 (s.islOfCmd s.cur i).ctr ∧ t.runs = s.runs ∧ t.mem = s.mem ∧ t.tasks = s.tasks
/-- The commands of a port that start in one way; a `wh.red` of no bags is another. -/
def portCmd : Instr → Bool
  | .sIn _ | .sInPlane _ | .sOut _ | .sGath _ | .sScat _ | .sCopy _ | .whFilt _ => true
  | .whRed r => r.bags.count.toNat != 0
  | _ => false

/-- R231: a stream or wharf command whose port has a free context of its 16 starts; with none free it is turned away. A
`wh.red` of no bags ends in its start cycle, and the increment of its word enters its task's hold (R19, R80). -/
def PortCommandsStart : Prop :=
  (∀ (i : Instr) (s : State), portCmd i = true →
    ((∀ p, portOf i = some p → s.portUse s.cur p < 16) →
      ∃ t, exec i s = .next t ∧ Began s t (begun s i) ∧ t = { s with runs := t.runs }) ∧
    ((∃ p, portOf i = some p ∧ 16 ≤ s.portUse s.cur p) → ∃ t, exec i s = .next t ∧ TurnedAway s t i)) ∧
  (∀ (r : WhRedRec) (s : State), r.bags.count.toNat = 0 → s.portUse s.cur r.port.toNat < 16 → (s.task (me s)).gang ≠ 0 →
    let va := s.vaOf s.cur s.curCmd.toNat 5 r.cw
    ∃ t, exec (.whRed r) s = .next t ∧ Began s t { begun s (.whRed r) with st := .ended } ∧
      (t.task (me s)).intents = (s.task (me s)).intents ++ (if va = 0 then []
        else [{ cmd := s.curCmd.toNat, pos := 0, slots := 0, kind := .inc va r.scope }]) ∧
      t = { s with runs := t.runs, tasks := t.tasks })

/-- The load that fills a shadow joins at the end of this island cycle: all its beats have been read, nine cycles since the
last of them are over, and it has come to its join, or to the end of what a hold of it has delayed (R274). -/
def JoinsNow (s : State) (t : Tile) : Prop :=
  let x := s.run s.cur t.cmd
  x.tries = true ∧ ∃ r, x.ins = some (.mxWload r) ∧
    (tileBytes r.wfmt.toNat r.blk.toNat r.kb.toNat r.nb.toNat + 255) / 256 ≤ x.f ∧ x.done + 9 ≤ s.cycle ∧
    (mxJoin (.mxWload r) ≤ s.since s.cur t.cmd ∨ x.slip = true)
/-- What a matrix command needs beside a free unit (R271, R273, R275, R278). -/
def MatrixFit (s : State) : Instr → Prop
  | .mxSwap _ => ∃ t, mget s.tileS s.cur.toNat = some t ∧ (t.whole = true ∨ s.loadHeld s.cur = true ∨ JoinsNow s t)
  | .mxStep r => ∃ t, mget s.tileA s.cur.toNat = some t ∧ t.whole = true ∧ fmtPair r.afmt.toNat t.fmt.toNat = true ∧
      r.acccol.toNat + 16 * (t.nb + 1) ≤ (s.task (me s)).acc
  | _ => True
/-- No running command occupies the unit of a matrix command or touches its accumulator cells. -/
def UnitFree (s : State) (i : Instr) : Prop :=
  (∀ u, mxUnit i = some u → s.mxBusy s.cur u = false) ∧ s.mxOverlap s.cur i = false

/-- R273 to R275, R278: a matrix command (`mx.wload`, `mx.swap`, `mx.step`, `mx.epi`, `mx.zero`, `mx.drain`) starts when its unit is free, its accumulator cells meet those of no running
command of another unit, and its tile is there; else it is turned away. An `mx.wload` leaves the shadow empty until it has
loaded. -/
def MatrixCommandsStart : Prop :=
  ∀ (i : Instr) (s : State), (mxUnit i).isSome = true →
    (UnitFree s i → MatrixFit s i →
      ∃ t, exec i s = .next t ∧ Began s t (begun s i) ∧ t = { s with runs := t.runs, tileS := t.tileS } ∧
        (∀ c, c ≠ s.cur.toNat → mget t.tileS c = mget s.tileS c) ∧
        (∀ r, i = .mxWload r → ∃ x, mget t.tileS s.cur.toNat = some x ∧ x.whole = false ∧ x.bytes = [] ∧
          x.cmd = s.curCmd.toNat ∧ x.fmt = r.wfmt ∧ x.kb = r.kb.toNat ∧ x.nb = r.nb.toNat) ∧
        ((∀ r, i ≠ .mxWload r) → mget t.tileS s.cur.toNat = mget s.tileS s.cur.toNat)) ∧
    ((¬ UnitFree s i ∨ ¬ MatrixFit s i) → ∃ t, exec i s = .next t ∧ TurnedAway s t i)

/-- R301: a `g.run` of a resident slot starts when no other running `g.run` uses its slot or its port and its task has
bays; else it is turned away. -/
def LoomCommandStarts : Prop :=
  ∀ (r : GRunRec) (s : State),
    let free := ∀ k q, k < s.tableLen s.cur → (s.run s.cur k).live = true → (s.run s.cur k).ins = some (.gRun q) →
      (q.slot ≠ r.slot ∧ q.port ≠ r.port) ∨ GRunRec.join q (s.slot s.cur q.slot.toNat).graph ≤ s.since s.cur k
    let fits := (s.slot s.cur r.slot.toNat).resident = true ∧ 4096 ≤ (s.task (me s)).loom
    (free → fits → ∃ t, exec (.gRun r) s = .next t ∧ Began s t (begun s (.gRun r)) ∧ t = { s with runs := t.runs }) ∧
    ((¬ free ∨ ¬ fits) → ∃ t, exec (.gRun r) s = .next t ∧ TurnedAway s t (.gRun r))

/-- A camera command's record, and whether it names a store. -/
def camSpec : Instr → Option (CamRec × Bool)
  | .camGath r | .camGathDepth r | .camScat r => some (r, true)
  | .camProj r => some (r, false)
  | _ => none
/-- Whether the register of a camera command, and its store handle, allow its start (R310, R313). -/
def CamFit (s : State) (r : CamRec) (store : Bool) : Prop :=
  let f := (s.cam s.cur r.cam.toNat).f
  ((mget f 30).toNat = 8 ∨ (mget f 30).toNat = 14 ∨ (mget f 30).toNat = 16) ∧
  (mget f 30).toNat ≤ (mget f 28).toNat ∧ (mget f 30).toNat ≤ (mget f 29).toNat ∧
  (store = true → (s.handle s.cur r.handle.toNat).getLsbD 63 = true)

/-- R309, R310, R313: a camera command whose register has a token size of 8, 14 or 16 and at least one token each way, and
whose store handle is bound, starts with a copy of every field and of the version; else it is turned away. -/
def CameraCommandsStart : Prop :=
  ∀ (i : Instr) (s : State) (r : CamRec) (store : Bool), camSpec i = some (r, store) → s.portUse s.cur r.port.toNat < 16 →
    (CamFit s r store → ∃ t x, exec i s = .next t ∧ Began s t { begun s i with snap := x } ∧ t = { s with runs := t.runs } ∧
      (∀ f, f ≠ 35 → mget x f = mget (s.cam s.cur r.cam.toNat).f f) ∧
      (mget x 35).toNat = (s.cam s.cur r.cam.toNat).version.toNat) ∧
    (¬ CamFit s r store → ∃ t, exec i s = .next t ∧ TurnedAway s t i)

end Sys2Proof.Claims

/-- Every command of the stream, wharf, matrix, loom and camera engines starts when its engine has room for it, its
run remembering its record and its start, and nothing else changes; where the engine has none it is turned away with
0x10. -/
def Obligations.CommandStarts : Prop :=
  PortCommandsStart ∧ MatrixCommandsStart ∧ LoomCommandStarts ∧ CameraCommandsStart

namespace Sys2Proof.Claims

/-! ## Attention commands (R334 to R354) -/

/-- R348: an attention command joins its partition's queue of 64 with its addresses as its streams place them, and has
ended for its island. It stands behind those of earlier cycles, and among those of its own cycle by command index. Where
the queue is full, the command that finds no place in it is turned away: 0x10, and the end of its gang. -/
def AttentionQueueJoins : Prop :=
  ∀ (op : AtOp) (r : AtRec) (s : State),
    let i := Instr.attentionQueueJoin op r
    let q := mget s.atq s.cur.toNat
    let at' := fun (w : Nat) (v : BitVec 52) => s.vaOf s.cur s.curCmd.toNat w v % 2 ^ 52
    ∃ t x before behind, exec i s = .next t ∧ q = before ++ behind ∧ x.cmd = s.curCmd.toNat ∧ x.op = op ∧
      x.startReal = s.cycle ∧ x.held = false ∧ x.rec'.rows = r.rows ∧ x.rec'.handle.toNat = at' 2 r.handle ∧
      x.rec'.rowBase.toNat = at' 3 r.rowBase ∧ x.rec'.out.toNat = at' 5 r.out ∧ x.rec'.cw.toNat = at' 6 r.cw ∧
      (∀ y ∈ before, ¬ (y.startReal = s.cycle ∧ x.cmd < y.cmd)) ∧
      (∀ y ∈ behind.head?, y.startReal = s.cycle ∧ x.cmd < y.cmd) ∧
      (∀ c, c ≠ s.cur.toNat → mget t.atq c = mget s.atq c) ∧ Began s t { begun s i with st := .ended } ∧ t.mem = s.mem ∧
      t.tasks = s.tasks ∧
      (q.length < 64 → mget t.atq s.cur.toNat = before ++ x :: behind ∧ t = { s with atq := t.atq, runs := t.runs }) ∧
      (q.length = 64 → ∃ z f, before ++ x :: behind = mget t.atq s.cur.toNat ++ [z] ∧ t.faultQ = s.faultQ ++ [f] ∧
        f.code = 0x10 ∧ f.ended = true ∧ f.ctx = s.cur ∧ f.cmd = BitVec.ofNat 9 z.cmd)

/-- The row of the opcode table of an attention command. -/
def atInstr : AtOp → AtRec → Instr
  | .app, r => .atApp r
  | .sel, r => .atSel r
  | .att, r => .atAtt r
  | .trunc, r => .atTrunc r
/-- The first queued command `q` of the acting context may leave (R347, R348): its task is head, the read of its handle
word leaves `s1` and gives `h`, the handle names this package, and the descriptor there is sound, legal and of the
task's context; its rows fit their streams, no other command of the sequence goes first, and an append fits (R350). -/
structure MayLeave (s s1 : State) (q : AtQueued) (rest : List AtQueued) (h : Nat) : Prop where
  first : mget s.atq s.cur.toNat = q :: rest
  head : s.isHead (me s) = true
  free : q.held = false
  handle : ∃ bs, s.rowGet (me s) q.cmd 0 q.rec'.handle.toNat 8 = (s1, bs, .ok) ∧ leVal bs = h
  here : h < 2 ^ 40 ∧ h / 2 ^ 30 = s1.pkgId.toNat
  sound : ∀ g ∈ granulesOf (0x10000000000 + h % 2 ^ 30 * 256) 256,
    s1.checkOk g = true ∧ s1.hardMem (64 * g) = false
  legal : (s1.seqDesc (0x10000000000 + h % 2 ^ 30 * 256)).ok = true ∧
    inAttention (s1.seqDesc (0x10000000000 + h % 2 ^ 30 * 256)).table = true
  mine : (s1.seqDesc (0x10000000000 + h % 2 ^ 30 * 256)).context = (s1.task (me s)).tenant.toNat
  fits : extentsOk q.op q.rec' q.lims (s1.seqDesc (0x10000000000 + h % 2 ^ 30 * 256)).d = true
  alone : ∀ a ∈ s1.atRun, a.desc ≠ 0x10000000000 + h % 2 ^ 30 * 256
  room : q.op = .app → (s1.seqDesc (0x10000000000 + h % 2 ^ 30 * 256)).length + q.rec'.rows.count.toNat ≤ 2 ^ 24 - 1
/-- The state after the command has left: out of the queue, and the last of the commands at work. -/
def gone (s s1 : State) (q : AtQueued) (rest : List AtQueued) (h : Nat) : State :=
  { s1 with atq := mset s1.atq s.cur.toNat rest
            atRun := s1.atRun ++ [{ task := me s, cmd := q.cmd, op := q.op, rec' := q.rec', desc := 0x10000000000 + h % 2 ^ 30 * 256 }] }
/-- The state after n rows from row f on of the i-th command at work, where none of them stops. -/
def rowsFrom (s : State) (i f : Nat) : Nat → Option State
  | 0 => some s
  | n + 1 => match s.atRow i f with
    | (s1, .ok) => rowsFrom (s1.modAt i (fun a => { a with row := f + 1 })) i (f + 1) n
    | _ => none

/-- R19, R342, R348, R357: an attention command that may leave performs its rows in order, one row for a truncation; with no
write of its own laid by, and none at another package unanswered, it then is gone and its completion word has been
incremented. -/
def AttentionCommandsPerform : Prop :=
  ∀ (s s1 u : State) (q : AtQueued) (rest : List AtQueued) (h : Nat) (r : AtRec), MayLeave s s1 q rest h →
    rowsFrom (gone s s1 q rest h) s1.atRun.length 0 (if q.op = .trunc then 1 else q.rec'.rows.count.toNat) = some u →
    (u.atOf s1.atRun.length).acks = [] → (∀ l ∈ (u.task (me s)).lays, ¬ (l.ext = true ∧ l.intent = none ∧ l.cmd = q.cmd)) →
    exec (atInstr q.op r) s = .next ((u.incWord (me s) q.cmd q.rec'.cw.toNat q.rec'.scope).dropAt s1.atRun.length)
/-- R348, R354: a command that is not the first of its queue by its kind, or whose task is not head, stays. -/
def AttentionCommandsWait : Prop :=
  ∀ (s : State) (op : AtOp) (r : AtRec),
    (s.isHead (me s) = false ∨ ∀ q rest, mget s.atq s.cur.toNat = q :: rest → q.op ≠ op) →
    exec (atInstr op r) s = .next s

/-- The page `p` of a run's sequence is at `pa` on this package, and its bytes lie apart from the descriptor. -/
def PageAt (s : State) (i p pa : Nat) : Prop :=
  let a := s.atOf i
  let x := s.seqDesc a.desc
  a.far.find? (·.page == p) = none ∧ a.pages.find? (·.1 == p) = some (p, pa) ∧
  (a.desc + 32 ≤ pa ∨ pa + SeqDesc.pageBytes x ≤ a.desc)

/-- Every granule of a range holds under its check and can be read. -/
def SoundRange (s : State) (pa n : Nat) : Prop := ∀ g ∈ granulesOf pa n, s.checkOk g = true ∧ s.hardMem (64 * g) = false
/-- R350: row f of an append whose page is there and sound adds one token: the descriptor's Length and the page's Count grow by
one, and in a BF16 sequence the key's channels, sanitised (R349), stand in the row of the page. -/
def AppendRow : Prop :=
  ∀ (s s1 : State) (i f pa : Nat) (kv : List Byte),
    let a := s.atOf i
    let x := s.seqDesc a.desc
    let row := x.length % 64
    PageAt s i (x.length / 64) pa → x.length + 1 < 2 ^ 24 →
    s.rowGet a.task a.cmd f (a.rec'.rowBase.toNat + f * a.rec'.rows.stride.toNat) (4 * x.d) = (s1, kv, .ok) →
    (row ≠ 0 → (s1.pageGet i f (x.length / 64) 0 (64 + 4 * x.d)).2.isSome = true) →
    (row = 0 → x.e4m3 = true → scaleOk (a.rec'.w4.setWidth 32) = true ∧ scaleOk ((a.rec'.w4 >>> 32).setWidth 32) = true) →
    SoundRange s1 pa (SeqDesc.pageBytes x) → SoundRange s1 a.desc 32 →
    ∃ t, s.appRow i f = (t, .ok) ∧ (t.seqDesc a.desc).length = x.length + 1 ∧ leVal (t.bytes pa 2) = row + 1 ∧
      (x.e4m3 = false → ∀ c < x.d,
        leVal (t.bytes (pa + 64 + 4 * x.d + 2 * (row * x.d + c)) 2) = (sanitise (half kv (2 * c))).1)
/-- R351: a truncation to m tokens, none of whose pages is missing, sets Length to m; beyond Length it ends its gang, once
its page has been translated. -/
def TruncateRow : Prop :=
  ∀ (s : State) (i m : Nat),
    let a := s.atOf i
    let x := s.seqDesc a.desc
    let cut := if m % 64 = 0 then [] else [m / 64]
    let past := (List.range (ceil64 x.length - ceil64 m)).map (· + ceil64 m)
    (m ≤ x.length → (∀ p ∈ cut ++ past, ∃ pa, PageAt s i p pa ∧ SoundRange s pa (SeqDesc.pageBytes x)) → SoundRange s a.desc 32 →
      (∀ p ∈ cut, (s.pageGet i 0 p 0 (64 + 4 * x.d + m % 64 * x.d * x.e)).2.isSome = true) →
      ∃ t, s.truncAll i m = (t, .ok) ∧ (t.seqDesc a.desc).length = m) ∧
    (x.length < m → (∀ p ∈ cut, ∃ pa, PageAt s i p pa) → (s.truncAll i m).2 = .ended)

end Sys2Proof.Claims

/-- The attention commands: how one joins its queue, leaves it, performs its rows and completes, and what an append
and a truncation do to a sequence. That the rows of a command are performed in one step is the model's choice (log
entry 41). -/
def Obligations.AttentionCommands : Prop :=
  AttentionQueueJoins ∧ AttentionCommandsPerform ∧ AttentionCommandsWait ∧ AppendRow ∧ TruncateRow

namespace Sys2Proof.Claims

/-! ## Collectives (R374 to R377) -/

/-- A group's members name this package once, are distinct and can be reached. -/
def GoodGroup (s : State) (ms : List (BitVec 10)) : Prop :=
  s.pkgId ∈ ms ∧ ms.Nodup ∧ ∀ p ∈ ms, s.reaches p = true
/-- R374 to R376: the first queued `l.coll` of a head, whose group and source can be read without poison, leaves: it is
the next collective of its tag, and its part goes to every other member. -/
def CollectiveLeaves : Prop :=
  ∀ (s s1 s2 s3 : State) (i : Instr) (r : LCollRec) (o : LinkOp) (hd es src : List (Byte × Bool)) (tag : W32)
    (ms : List (BitVec 10)),
    let n := mget s3.collCount tag.toNat
    let part : CollPart := { tag := tag, seqNo := n, rank := ms.idxOf s3.pkgId, members := ms, op := r.op, ty := r.ty
                             pair := r.pair, root := r.root, n := r.n.toNat, data := collElems r.ty (src.map (·.1)) }
    collRec i = some r → (s.task (me s)).firstOp true = some o → o.ins = some i → s.isHead (me s) = true → o.held = false →
    s.engRead (me s) (linkCmd o) 0 false false o.remote.toNat 64 = (s1, hd, .none) →
    s1.engRead (me s) (linkCmd o) 0 false false (o.remote.toNat + 64) (2 * groupSize (hd.map (·.1))) = (s2, es, .none) →
    s2.engRead (me s) (linkCmd o) 0 false false o.local'.toNat (o.len * collBytes r.ty) = (s3, src, .none) →
    (∀ b ∈ hd ++ es ++ src, b.2 = false) → readGroup (hd.map (·.1)) (es.map (·.1)) = some (tag, ms) →
    GoodGroup s3 ms → 2 ≤ ms.length → (r.op = .broadcast → r.root.toNat < ms.length) →
    (∀ x ∈ s3.colls, x.is tag n = false) → (s3.task (me s)).gang ≠ 0 →
    ∃ t, exec i s = .next t ∧ mget t.collCount tag.toNat = n + 1 ∧ t.mem = s3.mem ∧
      t.out = s3.out ++ (ms.filter (· != s3.pkgId)).map (fun p => .coll p (.part part)) ∧
      (t.task (me s)).links = (s3.task (me s)).links.map (fun x => if x.num = o.num then { x with left := true } else x)
/-- The collective of a packet, with the packet's part or end noted. -/
def noted (s : State) : CollMsg → State
  | .part p => s.partArrives p
  | .ended tag k p => s.collArrive tag k (fun x => { x with ended := x.ended ++ [p] })
  | _ => s
/-- R376, R377: with the part of the last member, all of which agree, a collective writes its result to its destination
and completes; with the word that a member's gang has ended, or a part that does not agree, it fails with 0x38, and every
member that it knows of is told. The sender of a part for a collective that has ended here is told that it ends. -/
def CollectiveEnds : Prop :=
  (∀ (s : State) (p : CollPart), (∀ x ∈ s.colls, x.is p.tag p.seqNo = false) → p.seqNo < mget s.collCount p.tag.toNat →
    exec (.collectivePacket (.part p)) s = .next (s.emit (.coll (partSource p) (.ended p.tag p.seqNo s.pkgId)))) ∧
  ∀ (s : State) (m : CollMsg) (tag : W32) (k id num : Nat) (x : Coll) (r : LCollRec) (ms : List (BitVec 10)) (o : LinkOp),
    (noted s m).colls.find? (·.is tag k) = some x → x.mine = some (id, num, r, ms) →
    ((noted s m).task id).links.find? (·.num == num) = some o →
    ((∃ p, m = .part p ∧ p.tag = tag ∧ p.seqNo = k) → x.ended = [] → x.held = false →
      (∀ q ∈ x.parts, partAgrees r ms q = true) → (∀ rk < ms.length, ∃ q ∈ x.parts, q.rank = rk) →
      ∀ s1, (noted s m).engWrite id (linkCmd o) 0 false true o.arg.toNat (collBytesOf r.ty (collResult r
          ((List.range ms.length).filterMap (fun rk => (x.parts.find? (·.rank == rk)).map (·.data))))) = (s1, .none) →
      exec (.collectivePacket m) s = .next
        (({ s1 with colls := s1.colls.filter (fun y => !y.is tag k) } : State).linkDone id o)) ∧
    (((∃ p, m = .ended tag k p) ∨ (∃ p, m = .part p ∧ p.tag = tag ∧ p.seqNo = k ∧ partAgrees r ms p = false)) →
      exec (.collectivePacket m) s = .next ((({ noted s m with
        colls := (noted s m).colls.filter (fun y => !y.is tag k) } : State).toMembers
          ((ms ++ x.parts.flatMap (fun p => partSource p :: p.members)).eraseDups) (.ended tag k s.pkgId)).linkFail id o
            o.remote.toNat))
/-- R377: the sum of integer elements is the same in either order: their sum modulo 2^32. -/
def CollectiveSums : Prop :=
  ∀ (r : LCollRec) (vs : List W32), r.op = .sum → (r.ty = .i32 ∨ r.ty = .n32) → vs.length ≤ 1024 → collElem r vs = vs.sum
/-- R379: a packet that says that another package has arrived at a pod barrier is noted at the barrier. -/
def PodArrival : Prop :=
  ∀ (s : State) (id : BitVec 4) (p : BitVec 10), ∃ t, exec (.collectivePacket (.arrive id p)) s = .next t ∧
    (mget t.bars (32 * 5 * 16 + id.toNat)).pods = (mget s.bars (32 * 5 * 16 + id.toNat)).pods ++ [p] ∧
    t = { s with bars := t.bars }

end Sys2Proof.Claims

/-- The collectives: leaving, the parts of the other members, the result, and failure. The behaviour over lost paths
and the separate queue of collectives are the model's choices (log entries 47 and 48). -/
def Obligations.Collectives : Prop := CollectiveLeaves ∧ CollectiveEnds ∧ CollectiveSums ∧ PodArrival

namespace Sys2Proof.Claims

/-! ## Link operations (R89, R109, R135, R136, R165, R340, R363 to R373) -/

/-- The message of a link instruction that sends, with the local bytes it has read. -/
def messageOf (s : State) (id : Nat) (o : LinkOp) (bs : List Byte) : Option OutMsg :=
  match o.kind with
  | .put => some (.put o.pkg (s.linkSender id o) o.remote bs)
  | .get => some (.get o.pkg (s.linkSender id o) o.remote o.len)
  | .amo => some (.amo o.pkg (s.linkSender id o) o.remote o.aop o.dbl o.local' o.arg)
  | .send => some (.mail o.pkg (s.linkSender id o) (o.remote.setWidth 32) bs)
  | _ => none
/-- R89, R135, R136: the first queued link instruction of a head leaves. One that sends reads its local bytes where it has
some, unpoisoned, and sends its message to a package that can be reached; an `lnotify` writes a notify record; an
`mrecv` of an empty mailbox gives 0, and one of another takes the oldest message, with zeros to 256 bytes, and gives its
length. Before its task is head, behind an `lamo` that has left, or as a release behind a store laid by, it stays. -/
def LinkOperationsLeave : Prop :=
  ∀ (s : State) (task : W32) (o : LinkOp), (s.task task.toNat).firstOp false = some o →
    let goes := s.isHead task.toNat = true ∧ o.held = false ∧ (s.task task.toNat).linkWaits o = false
    (∀ (m : OutMsg) (s1 : State) (bs : List (Byte × Bool)), goes →
      (if o.kind = .put ∨ o.kind = .send then s.localRead task.toNat o o.local'.toNat o.len else (s, [], .none)) = (s1, bs, .none) →
      (∀ b ∈ bs, b.2 = false) → messageOf s task.toNat o (bs.map (·.1)) = some m → s1.reaches o.pkg = true →
      exec (.linkOpLeaves task) s = .next ((s1.modOp task.toNat o.num (fun x => { x with left := true })).emit m)) ∧
    (goes → o.kind = .notify →
      ∃ t, exec (.linkOpLeaves task) s = .next t ∧ t.mem = s.mem ∧
        (t.queue (s.task task.toNat).queue.toNat).count = (s.queue (s.task task.toNat).queue.toNat).count + 1 ∧
        ∀ x ∈ (t.task task.toNat).links, x.num ≠ o.num) ∧
    (goes → o.kind = .recv → (s.task task.toNat).mail = [] →
      (s.task task.toNat).phase = .resident →
      ∃ t, exec (.linkOpLeaves task) s = .next t ∧ t.mem = s.mem ∧
        t.thr (s.task task.toNat).ctx = (s.thr (s.task task.toNat).ctx).landLink o.num 0 ∧
        ∀ x ∈ (t.task task.toNat).links, x.num ≠ o.num) ∧
    (∀ (s1 : State) (n : Nat) (rest : List Nat), goes → o.kind = .recv → (s.task task.toNat).mail = n :: rest →
      s.localWrite task.toNat o o.arg.toNat (s.bytes (Task.mailSlot (s.task task.toNat) 0) n ++ List.replicate (256 - n) 0) =
        (s1, .none) → (s1.task task.toNat).phase = .resident → (s1.task task.toNat).gang ≠ 0 →
      ∃ t, exec (.linkOpLeaves task) s = .next t ∧ (t.task task.toNat).mail = rest ∧
        t.thr (s1.task task.toNat).ctx = (s1.thr (s1.task task.toNat).ctx).landLink o.num (BitVec.ofNat 64 n) ∧
        ∀ x ∈ (t.task task.toNat).links, x.num ≠ o.num) ∧
    ((s.isHead task.toNat = false ∨ (s.task task.toNat).linkWaits o = true) → exec (.linkOpLeaves task) s = .next s)
/-- R19, R94, R109, R117, R165, R371, R373: what the answer to a link operation that has left does: it completes; an atomic's
old value lands, extended, with an acquire; the bytes of an `lget` are written; a failure ends its gang with 0x38; a message that came
back counts as bounced. -/
def LinkOperationsComplete : Prop :=
  ∀ (s : State) (num id : Nat) (o : LinkOp), s.findOp num = some (id, o) →
    exec (.linkReply num .done) s = .next (s.linkDone id o) ∧
    (∀ v : Word,
      let s1 := s.modThread id (fun t => t.landLink num
        (if o.aop = 7 ∨ o.aop = 8 then BitVec.ofNat 64 (v.toNat % 2 ^ (if o.dbl then 64 else 32))
          else if 9 < o.aop.toNat then 0 else if o.dbl then v else (v.setWidth 32).signExtend 64))
      exec (.linkReply num (.old v)) s =
        .next ((if (s.task id).phase = .resident then s1.acquire (s.task id).ctx else s1).linkDone id o)) ∧
    (∀ (bs : List Byte) (s1 : State), s.localWrite id o o.local'.toNat bs = (s1, .none) →
      exec (.linkReply num (.bytes bs)) s = .next (s1.linkDone id o)) ∧
    (∀ va : Word, exec (.linkReply num (.failed va)) s = .next (s.linkFail id o va.toNat)) ∧
    exec (.linkReply num .dead) s =
      .next ((s.modThread id (fun t => { t with bounces := t.bounces + 1 })).dropOp id o.num)

end Sys2Proof.Claims

/-- Link operations as they leave a head and as they complete. -/
def Sys2Proof.Claims.LinkOperations : Prop := LinkOperationsLeave ∧ LinkOperationsComplete

namespace Sys2Proof.Claims

/-- `t` answers the sender of a remote operation after `s`, and changes nothing else. -/
def Answered (s t : State) (x : Sender) (r : Reply) : Prop := t = s.emit (.answer x.who.pkg x.op r)
/-- R369, R370: a remote write of one granule that its context may make stores its bytes, comes behind what tasks have let out
there (log entry 71), is a visibility event at its granule and is answered; one that may not, or whose old check fails, stores nothing and is answered as failed. -/
def RemoteWrites : Prop :=
  ∀ (s s1 : State) (x : Sender) (va : Word) (bs : List Byte) (a : Acc), bs ≠ [] → va.toNat % 64 + bs.length ≤ 64 →
    s.farAcc x .store va.toNat = (s1, a) →
    (∀ pa p d tag, a = .ok pa p d tag → (bs.length = 64 ∨ s1.checkOk (pa / 64) = true) →
      ∃ s2 t : State, exec (.remoteWrite x va bs) s = .next t ∧ Answered ((s2.strike pa bs.length).remoteVisible [pa / 64]) t x .done ∧
        (∀ y, s2.byte y = if pa ≤ y ∧ y < pa + bs.length then bs.getD (y - pa) 0 else s1.byte y) ∧
        s2.checkOk (pa / 64) = true ∧ s2 = { s1 with mem := s2.mem, checks := s2.checks }) ∧
    ((∀ pa p d tag, a = .ok pa p d tag → bs.length ≠ 64 ∧ s1.checkOk (pa / 64) = false) →
      ∃ t, exec (.remoteWrite x va bs) s = .next t ∧ Answered s1 t x (.failed va))
/-- R371: a remote read of one granule that may be made, is sound and holds no poison answers its bytes; else it fails. -/
def RemoteReads : Prop :=
  ∀ (s s1 : State) (x : Sender) (va : Word) (n : Nat) (a : Acc), 0 < n → va.toNat % 64 + n ≤ 64 →
    s.farAcc x .load va.toNat = (s1, a) →
    (∀ pa d tag, a = .ok pa false d tag → s1.hardMem pa = false → s1.checkOk (pa / 64) = true →
      ∃ t, exec (.remoteRead x va n) s = .next t ∧ Answered s1 t x (.bytes (s1.bytes pa n))) ∧
    ((∀ pa p d tag, a = .ok pa p d tag → s1.hardMem pa = false ∧ (p = true ∨ s1.checkOk (pa / 64) = false)) →
      ∃ t, exec (.remoteRead x va n) s = .next t ∧ Answered s1 t x (.failed va))
/-- R117, R371: a remote atomic that is aligned and may be made puts the table's new value into memory, is a visibility
event and answers the old value; a misaligned one, or one of an unassigned code, fails and changes nothing. -/
def RemoteAtomics : Prop :=
  ∀ (s : State) (x : Sender) (va : Word) (code : BitVec 4) (dbl : Bool) (b d : Word),
    let w := if dbl then 64 else 32
    (∀ s1 pa dead tag, code.toNat ≤ 9 → va.toNat % (w / 8) = 0 → s.farAcc x .store va.toNat = (s1, .ok pa false dead tag) →
      s1.hardMem pa = false → s1.checkOk (pa / 64) = true → pa % 64 + w / 8 ≤ 64 →
      let old := BitVec.ofNat w (leVal (s1.bytes pa (w / 8)))
      ∃ s2 t : State, exec (.remoteAtomic x va code dbl b d) s = .next t ∧
        Answered ((s2.strike pa (w / 8)).remoteVisible [pa / 64]) t x (.old (BitVec.ofNat 64 old.toNat)) ∧
        s2 = { s1 with mem := s2.mem, checks := s2.checks } ∧
        (∀ y, s2.byte y = if pa ≤ y ∧ y < pa + w / 8 then BitVec.ofNat 8 ((atomNew w code.toNat old (BitVec.ofNat w b.toNat)
          (BitVec.ofNat w d.toNat)).toNat / 256 ^ (y - pa)) else s1.byte y)) ∧
    ((9 < code.toNat ∨ va.toNat % (w / 8) ≠ 0) →
      ∃ t, exec (.remoteAtomic x va code dbl b d) s = .next t ∧ Answered s t x (.failed va))
/-- R165, R365: a message to a task with a mailbox and fewer than 31 messages enters the mailbox's next slot behind the
others and is answered, and a waiting thread there is woken; one to a full mailbox waits, and so does one behind a
message of its own package that waits; one to no task comes back. -/
def MailDelivery : Prop :=
  ∀ (s : State) (x : Sender) (task : W32) (bs : List Byte),
    let id := task.toNat
    let box := (s.task id).mailPa
    let slot := box + 256 + 256 * (((s.task id).mailRd + (s.task id).mail.length) % 31)
    let behind := ∃ p ∈ s.mailWait, p.1.who.pkg = x.who.pkg
    (s.mailLive id = true → (s.task id).mail.length < 31 → ¬ behind → bs.length ≤ 256 →
      ∃ t, exec (.mailboxDelivery x task bs) s = .next t ∧ (t.task id).mail = (s.task id).mail ++ [bs.length] ∧
        (∀ c ≠ id, t.task c = s.task c) ∧ ((∀ g ∈ granulesOf slot bs.length, s.checkOk g = true) → t.bytes slot bs.length = bs) ∧
        (∀ y, y < box ∨ box + 8192 ≤ y → t.byte y = s.byte y) ∧
        ((s.task id).phase = .resident → (s.thr (s.task id).ctx).idle ≠ none → (t.thr (s.task id).ctx).woken = true)) ∧
    (behind ∨ (s.mailLive id = true ∧ 31 ≤ (s.task id).mail.length) →
      exec (.mailboxDelivery x task bs) s = .next { s with mailWait := s.mailWait ++ [(x, task, bs)] }) ∧
    (s.mailLive id = false → ¬ behind → ∃ t, exec (.mailboxDelivery x task bs) s = .next t ∧ Answered s t x .dead)
/-- R335, R340: another package's request for a block beyond the table is answered with no entry, one for a valid block
whose entry and page are sound with its entry and the bytes asked for, and one whose entry or page fails its check with
that; the machine does not change otherwise. A write to one granule of attention memory, at the address that the sender's one
translation found, stores its bytes and is answered; one to a part of a granule that fails its check stores nothing and is
answered with that (DEDUCED, log entry 24). -/
def PageRequests : Prop :=
  ∀ (s : State) (x : Sender) (block : BitVec 52) (n pa : Nat) (bs : List Byte),
    let a := s.regs.atgBase.toNat + 8 * block.toNat
    let page := s.word a / 2 ^ 12 % 2 ^ 40 * 4096
    let entry : Word := BitVec.ofNat 64 (s.word a)
    let read := Instr.remotePageRequest x { block := block, len := n }
    let there := block.toNat < s.regs.atgSize.toNat ∧ s.hardMem a = false
    let good := there ∧ s.checkOk (a / 64) = true ∧ s.word a % 2 = 1 ∧ inAttention page = true
    (s.regs.atgSize.toNat ≤ block.toNat → ∃ t, exec read s = .next t ∧ Answered s t x (.page none [])) ∧
    (there → s.checkOk (a / 64) = false → ∃ t, exec read s = .next t ∧ Answered s t x (.pageBad none false)) ∧
    (good → (∀ g ∈ granulesOf page n, s.hardMem (64 * g) = false) →
      ((∀ g ∈ granulesOf page n, s.checkOk g = true) →
        ∃ t, exec read s = .next t ∧ Answered s t x (.page (some entry) (s.bytes page n))) ∧
      ((∃ g ∈ granulesOf page n, s.checkOk g = false) →
        ∃ t, exec read s = .next t ∧ Answered s t x (.pageBad (some entry) false))) ∧
    (inAttention pa = true → bs ≠ [] → pa % 64 + bs.length ≤ 64 → s.hardMem pa = false →
      (64 ≤ bs.length ∨ s.checkOk (pa / 64) = true →
        ∃ s2 t : State, exec (.remotePageRequest x { block := block, put := some (pa, bs) }) s = .next t ∧
          Answered s2 t x .done ∧ s2 = { s with mem := s2.mem, checks := s2.checks } ∧ s2.checkOk (pa / 64) = true ∧
          ∀ y, s2.byte y = if pa ≤ y ∧ y < pa + bs.length then bs.getD (y - pa) 0 else s.byte y) ∧
      (bs.length < 64 → s.checkOk (pa / 64) = false →
        ∃ t, exec (.remotePageRequest x { block := block, put := some (pa, bs) }) s = .next t ∧
          Answered s t x (.pageBad none false)))
/-- R363: a path that fails is out of use from then on; memory and the paths lost before stay as they are. -/
def PathFailure : Prop :=
  ∀ (s : State) (port : BitVec 5), ∃ t, exec (.linkPathFailure port) s = .next t ∧ t.mem = s.mem ∧
    ∀ q, q ∈ t.badPorts ↔ q = port ∨ q ∈ s.badPorts

end Sys2Proof.Claims

/-- Operations of other packages at this one: writes, reads, atomics, messages and page requests, and a failing path.
-/
def Sys2Proof.Claims.RemoteOperations : Prop :=
  RemoteWrites ∧ RemoteReads ∧ RemoteAtomics ∧ MailDelivery ∧ PageRequests ∧ PathFailure

namespace Sys2Proof.Claims

/-- R275: at the end of the start cycle of an `mx.swap` whose shadow holds a whole tile, which no held load has completed in
this same cycle, the buffers change places. -/
def SwapExchanges : Prop :=
  ∀ (s : State) (c : Ctx) (k : Nat) (h : CmdHdr) (x : Tile), (s.run c k).live = true → (s.run c k).ins = some (.mxSwap h) →
    s.since c k = 0 → (s.run c k).done = 0 → mget s.tileS c.toNat = some x → x.whole = true →
    ((s.run c x.cmd).slip = false ∨ (s.run c x.cmd).startReal ≠ s.cycle) →
    let t := s.mxAdvance c k
    mget t.tileA c.toNat = some x ∧ mget t.tileS c.toNat = mget s.tileA c.toNat ∧
    (∀ d, d ≠ c.toNat → mget t.tileA d = mget s.tileA d ∧ mget t.tileS d = mget s.tileS d) ∧ t.acc = s.acc ∧ t.mem = s.mem
/-- R274: from the end of the 96th cycle after its start on a load reads the next 256 bytes of its image, or what remains of
it, in each cycle; once it has read all, and no sooner than its join, its bytes fill the shadow and it ends. -/
def LoadFillsShadow : Prop :=
  ∀ (s : State) (c : Ctx) (k : Nat) (r : MxWloadRec) (d : Nat),
    let x := s.run c k
    let size := tileBytes r.wfmt.toNat r.blk.toNat r.kb.toNat r.nb.toNat
    let beats := (size + 255) / 256
    x.tries = true →
    (x.f < beats → d < 96 + x.f → x.slip = false → s.mxLoad c k r d = s) ∧
    (∀ (s1 : State) (bs : List (Byte × Bool)) (n : Nat), x.f < beats → 96 + x.f ≤ d → x.part.length = 256 * x.f →
      s.engRun (s.taskAt c) k false false (beatPieces (min 256 (size - 256 * x.f)) [(0, s.vaOf c k 6 r.base + 256 * x.f)]) =
        (s1, bs, n, .none) → (∀ p ∈ bs, p.2 = false) → s1.run c k = x →
      let y := (s.mxLoad c k r d).run c k
      y.part = x.part ++ bs ∧ y.f = x.f + 1 ∧ y.done = s.cycle ∧ y.st = .running ∧ (s.mxLoad c k r d).tileS = s1.tileS) ∧
    (x.f = beats → 104 + beats ≤ d → x.done + 9 ≤ s.cycle →
      let t := s.mxLoad c k r d
      mget t.tileS c.toNat = some { fmt := r.wfmt, blk := r.blk, kb := r.kb.toNat, nb := r.nb.toNat, bytes := x.part.map (·.1),
                                    cmd := k, whole := true } ∧
      (t.run c k).st = .ended ∧ t.tileA = s.tileA ∧ t.acc = s.acc)
/-- R282: by the end of the d-th cycle after its start an `mx.zero` has set the cells of its first 16 d rows to +0, and it
sets no other cell. -/
def ZeroClears : Prop :=
  ∀ (s : State) (c : Ctx) (k : Nat) (r : MxZeroRec), (s.run c k).live = true → (s.run c k).ins = some (.mxZero r) →
    r.acccol.toNat + r.cols1.toNat < 256 → r.l1.count.toNat ≤ 1024 →
    let t := s.mxAdvance c k
    let due := fun (row : Nat) => ∃ f, f < r.l1.count.toNat ∧ f < 16 * s.since c k ∧ (s.run c k).done ≤ f ∧
      row = (r.accrow.toNat + f) % 1024
    (∀ row col, row < 1024 → col < 256 →
      (due row → r.acccol.toNat ≤ col → col ≤ r.acccol.toNat + r.cols1.toNat → t.accAt c row col = 0) ∧
      ((¬ due row ∨ col < r.acccol.toNat ∨ r.acccol.toNat + r.cols1.toNat < col) → t.accAt c row col = s.accAt c row col)) ∧
    t.mem = s.mem ∧ t.elems = s.elems
/-- R281: at the end of cycle 8 + beat after its start an `mx.drain` puts four cells of its row into the M capture of every
south element, with a clear sideband. -/
def DrainSends : Prop :=
  ∀ (s : State) (c : Ctx) (k : Nat) (r : MxDrainRec), (s.run c k).live = true → (s.run c k).ins = some (.mxDrain r) →
    let b := 1 + r.wide.toNat
    let m := s.since c k - 8
    8 ≤ s.since c k → m / b < r.l1.count.toNat → (s.run c k).f = m →
    ∀ col < 32, ∃ x, ((s.mxAdvance c k).elem c (southElem col)).mNext = some (x, 32) ∧ x.side = 0 ∧
      ∀ i < 4, laneOf 32 x.data i =
        (s.accAt c ((r.accrow.toNat + m / b) % 1024) (r.acccol.toNat + 128 * (m % b) + 4 * col + i)).toNat
/-- Sums of groups of 16 products, each rounded once, added one after another to a cell (R66, R276). -/
def groupSums (t : Tile) (acts : Nat → Val) (n : Nat) (old : W32) : Nat → W32
  | 0 => old
  | g + 1 => fAdd (groupSums t acts n old g)
      (rn32 (sumVals ((List.range 16).map (fun j => (acts (16 * g + j)).mul (t.weight (16 * g + j) n)))))
/-- R66, R276: an iteration of an `mx.step` adds to the cell of each column of its row the rounded exact sums of 16 products,
group by group; no other cell changes. -/
def StepAccumulates : Prop :=
  ∀ (s : State) (c : Ctx) (r : MxStepRec) (f : Nat) (beats : List (List W128)) (x : Tile),
    mget s.tileA c.toNat = some x → r.afmt ≠ 2 → r.acccol.toNat + 16 * (x.nb + 1) ≤ 256 →
    let t := s.stepSums c r f beats
    let acts := fun k => actVal r.afmt.toNat (planeCode r.afmt.toNat 0 (beats.map (fun m => m.getD (k / 16) 0)) (k % 16))
    ∀ row col, row < 1024 → col < 256 → t.accAt c row col =
      if row = MxStepRec.row r f ∧ r.acccol.toNat ≤ col ∧ col < r.acccol.toNat + 16 * (x.nb + 1)
      then groupSums x acts (col - r.acccol.toNat) (s.accAt c row col) (4 * (x.kb + 1))
      else s.accAt c row col
/-- R279: a row of an `mx.epi` is its cells times the scale, rounded, with relu where the record says so, converted to the
output format, in column order. -/
def EpilogueConverts : Prop :=
  ∀ (s : State) (c : Ctx) (r : MxEpiRec) (f j : Nat), j ≤ r.cols1.toNat →
    let size := ofmtBytes r.ofmt.toNat
    let v := f32 (fMul (s.accAt c ((r.accrow.toNat + f) % 1024) (r.acccol.toNat + j)) r.scale)
    let y := if r.relu = true ∧ v.isNan = false ∧ v.le (.fin false 0 0 false) = true then .fin false 0 0 false else v
    let ty : Ty := if r.ofmt = 0 then .f32 else if r.ofmt = 1 then .bf16 else if r.ofmt = 2 then .f16
      else if r.ofmt = 3 then .e4m3 else .e5m2
    let mode : Rnd := if r.rnd = 0 then .rn else if r.rnd = 1 then .rz else .ru
    (s.epiRow c r f).length = size * (r.cols1.toNat + 1) ∧
    leVal (((s.epiRow c r f).drop (size * j)).take size) =
      roundTo ty mode (r.sat && decide (r.ofmt ≠ 0)) 0 (f32 (rn32 y)) % 2 ^ (8 * size)

end Sys2Proof.Claims

/-- What the running matrix commands do to buffers, accumulator cells and lines: loads, swaps, steps, epilogue rows,
drains and zeroing (`mx.wload`, `mx.swap`, `mx.step`, `mx.epi`, `mx.drain`, `mx.zero`). When a load's beats are read
after a hold, and the time of a step's sums within it, are the model's readings (log entry 38). -/
def Obligations.MatrixEffects : Prop :=
  LoadFillsShadow ∧ SwapExchanges ∧ StepAccumulates ∧ EpilogueConverts ∧ DrainSends ∧ ZeroClears

namespace Sys2Proof.Claims

/-! ## Islands and windows (R16, R17, R43 to R45, R167 to R170, R199 to R207, R240) -/

/-- The data line of an element that looks in a direction. -/
def lineTo : Dir → Elem → List Cap
  | .n, x => x.ln
  | .e, x => x.le
  | .s, x => x.ls
  | .w, x => x.lw
/-- None of an island's commands is running or held. -/
def NoCommand (s : State) (c : Ctx) (i : Nat) : Prop := ∀ p ∈ s.cmdsOf c i, (s.run c p.1).live = false
/-- R44, R45, R167 to R170: at the end of a cycle that a running island has taken up and in which nothing stalls it, its
counter goes on by one, and every line of its elements shifts: age 1 of L is the element's own result, age 1 of a
neighbour line that of the neighbour in the island, and age 1 of M the bank read that is due, or what an engine aimed at
it; each result register read is one whose landing window has ended. Elements of other islands, the banks and memory do
not change. A stalled island's cycle does not end. -/
def IslandCycles : Prop :=
  ∀ (s : State) (c : Ctx) (i : BitVec 6),
    let x := s.isl c i.toNat
    let d := (s.plane c).isls.getD i.toNat {}
    (x.running = true → x.issued = true → x.stall = false → x.zero = 0 → NoCommand s c i.toNat →
      ∃ t, exec (.islandCycle c i) s = .next t ∧
        t.isl c i.toNat = { x with ctr := x.ctr + 1, abs := x.abs + 1, issued := false, moved := s.cycle } ∧
        (∀ e < 512, islHas d e = true →
          ((s.elem c e).resU ≤ x.abs → (t.elem c e).ll = ((s.elem c e).res :: (s.elem c e).ll).take 16) ∧
          (∀ dir n, neighbour e dir = some n → islandIx (s.plane c).isls n = i.toNat → (s.elem c n).resU ≤ x.abs →
            lineTo dir (t.elem c e) = ((s.elem c n).res :: lineTo dir (s.elem c e)).take 16) ∧
          (∀ v, mget (s.elem c e).bankRd x.abs = some v → (t.elem c e).lm = (v :: (s.elem c e).lm).take 16) ∧
          (∀ v b, mget (s.elem c e).bankRd x.abs = none → (s.elem c e).mNext = some (v, b) →
            (t.elem c e).lm = (v :: (s.elem c e).lm).take 16)) ∧
        (∀ e < 512, islHas d e = false → t.elem c e = s.elem c e) ∧ t.bank = s.bank ∧ t.mem = s.mem) ∧
    ((x.running = false ∨ x.issued = false ∨ x.stall = true) → exec (.islandCycle c i) s = .next s)
/-- Whether the present interval of an island ends now. -/
def IntervalDue (s : State) (c : Ctx) (i : Nat) : Prop :=
  let x := s.isl c i
  x.running = true ∧ x.past = false ∧ x.issued = false ∧ x.zero = 0 ∧ x.ctr = x.base + ((s.plane c).isls.getD i {}).period
/-- R43, R200, R202, R203: at the end of its last interval an island is over; at the end of an earlier one the flag of its
selector, or false with one schedule alone, chooses the next schedule, which begins at once where it stays the same
and three cycles later where it changes. A poisoned flag ends the gang with 0x13. Within an interval nothing changes. -/
def IntervalEnds : Prop :=
  ∀ (s : State) (c : Ctx) (i : BitVec 6),
    let x := s.isl c i.toNat
    let d := (s.plane c).isls.getD i.toNat {}
    let sel := s.elem c (d.selRow * 32 + d.selCol)
    let next := fun (v : Bool) => { x with left := x.left - 1, schedB := v, base := if v = x.schedB then x.ctr else x.ctr + 3 }
    (IntervalDue s c i.toNat → x.left ≤ 1 →
      exec (.intervalSample c i) s = .next (s.setIsl c i.toNat { x with left := 0, past := true })) ∧
    (IntervalDue s c i.toNat → 1 < x.left → d.hasB = false →
      ∃ t, exec (.intervalSample c i) s = .next t ∧ { t with free := s.free } = s.setIsl c i.toNat (next false)) ∧
    (IntervalDue s c i.toNat → 1 < x.left → d.hasB = true → sel.flagU ≤ x.abs - 1 → sel.flagPoison = false →
      ∃ t, exec (.intervalSample c i) s = .next t ∧ { t with free := s.free } = s.setIsl c i.toNat (next sel.flag)) ∧
    (IntervalDue s c i.toNat → 1 < x.left → d.hasB = true → sel.flagU ≤ x.abs - 1 → sel.flagPoison = true →
      ∃ t r, exec (.intervalSample c i) s = .next t ∧ t.isls = s.isls ∧ t.faultQ = s.faultQ ++ [r] ∧ r.code = 0x13) ∧
    (¬ IntervalDue s c i.toNat → exec (.intervalSample c i) s = .next s)
/-- R43, R122, R207: an island that is over, with none of its commands live, finishes, and a waiting thread of its
partition is woken; before that nothing changes. Other islands, the banks and memory do not change. -/
def IslandFinishes : Prop :=
  ∀ (s : State) (c : Ctx) (i : BitVec 6),
    let x := s.isl c i.toNat
    let done := x.running = true ∧ x.issued = false ∧ x.past = true ∧ x.zero = 0 ∧ NoCommand s c i.toNat
    (done → ∃ t, exec (.islandFinish c i) s = .next t ∧
      t.isl c i.toNat = { x with running := false, finished := true } ∧ (∀ j < 64, j ≠ i.toNat → t.isl c j = s.isl c j) ∧
      ((s.thr c).idle ≠ none → t.thr c = { s.thr c with woken := true }) ∧
      t = { s with isls := t.isls, elems := t.elems, threads := t.threads }) ∧
    (¬ done → exec (.islandFinish c i) s = .next s)
/-- R205 to R207: an entry of a lock link whose time has come is available, fills the captures that wait for its number, and
leaves the link once its number has been captured; captures that wait for nothing, or for another entry, and the lines of
other directions stay as they are. -/
def LockEntries : Prop :=
  ∀ (s : State) (c : Ctx) (e : ElemIx) (d : Dir),
    let abs := (s.islOf c e.toNat).abs
    let now := fun (y : LinkEnt) => { y with avail := y.avail || decide (y.at' ≤ s.cycle) }
    ∃ t, exec (.lockEntryAvailable c e d) s = .next t ∧ t = { s with elems := t.elems, links := t.links } ∧
      (∀ y, y ∈ t.link c e.toNat d ↔ ∃ z ∈ s.link c e.toNat d, y = now z ∧ ¬ (y.avail = true ∧ y.n < abs)) ∧
      (∀ (p : Nat) (v : Cap), (lineTo d (s.elem c e.toNat))[p]? = some v →
        (v.pend = false → (lineTo d (t.elem c e.toNat))[p]? = some v) ∧
        (∀ y, v.pend = true → p < abs → ((s.link c e.toNat d).map now).find? (fun z => z.avail && z.n == abs - 1 - p) = some y →
          (lineTo d (t.elem c e.toNat))[p]? = some y.cap) ∧
        ((∀ z ∈ s.link c e.toNat d, (now z).avail = true → z.n ≠ abs - 1 - p) → (lineTo d (t.elem c e.toNat))[p]? = some v)) ∧
      (∀ d', d' ≠ d → lineTo d' (t.elem c e.toNat) = lineTo d' (s.elem c e.toNat)) ∧
      (∀ k, k ≠ e.toNat → k < 512 → t.elem c k = s.elem c k)
/-- Where the beats of a reading command are captured: element, block length, number of beats. -/
def captureSpec (s : State) (c : Ctx) : Instr → Option (Nat × Nat × Nat)
  | .sIn r => some (portElem r.port.toNat r.edge, if r.esize = 5 then 8 * 2 ^ r.blk.toNat else 32, StreamRec.beats r false)
  | .sGath r => some (portElem r.port.toNat r.edge, 32, StreamRec.dataBeats r)
  | .whFilt r => some (portElem r.port.toNat r.edge, 32, nestN [r.l1, r.l2, r.l3])
  | .camGath r | .camGathDepth r => some (portElem r.port.toNat r.edge, 32, CamRec.iters r * (s.storeOf c r).beats)
  | .camProj r => some (portElem r.port.toNat r.edge, 32, CamRec.iters r)
  | _ => none
/-- Whether a hold excuses what is missing (log entry 42): the command is held; or it has been, and the access that was held
has not landed since, or the bound that counts anew from the hold has not passed. -/
def Excused (s : State) (c : Ctx) (k : Nat) : Prop :=
  let x := s.run c k
  x.st = .held ∨ (x.slip = true ∧ (x.done ≤ x.first ∨ ∃ n, s.nextBound c k = some n ∧ s.cycle < n))
/-- A beat is missing at its window: its island stalls where a hold excuses it; else it is late, 0x11. -/
def Missed (s t : State) (c : Ctx) (k : Nat) (i : Instr) : Prop :=
  (Excused s c k → ∀ h, hdrOf i = some h → (t.isl c h.island.toNat).stall = true ∧ t = { s with isls := t.isls }) ∧
  (¬ Excused s c k → ∃ r, t.faultQ = s.faultQ ++ [r] ∧ r.code = 0x11 ∧
    r.pos = BitVec.ofNat 64 (s.islOfCmd c i).ctr ∧ t.runs = s.runs)
/-- R16, R17, R45, R206: from its window on, a reading command has the beat that is due captured on M of its element, once,
where its latch keeps it no longer, and ends with its last one; a writing command ends once everything is accepted; what is missing stalls the island behind a
hold and raises 0x11 otherwise. Before its window nothing changes. -/
def WindowEnds : Prop :=
  ∀ (s : State) (c : Ctx) (k : BitVec 8) (i : Instr) (w : Nat),
    let x := s.run c k.toNat
    let d := s.since c k.toNat - w
    x.ins = some i → x.live = true → windowOf i = some w →
    (s.since c k.toNat < w → exec (.windowEnd c k) s = .next s) ∧
    (w ≤ s.since c k.toNat → ∀ e blk n, captureSpec s c i = some (e, blk, n) →
      (n ≤ d → ∃ t, exec (.windowEnd c k) s = .next t ∧ t.run c k.toNat = { x with st := .ended }) ∧
      (d < n → d < x.captured → exec (.windowEnd c k) s = .next s) ∧
      (∀ v, d < n → x.captured ≤ d → mget x.latch d = some v → ∃ t, exec (.windowEnd c k) s = .next t ∧
        (t.elem c e).mNext = some (v, blk) ∧ (t.run c k.toNat).st = (if d + 1 = n then .ended else x.st) ∧
        (t.run c k.toNat).captured = d + 1 ∧
        (∀ j, mget (t.run c k.toNat).latch j = if j ≤ d then none else mget x.latch j) ∧
        t = { s with elems := t.elems, runs := t.runs }) ∧
      (d < n → x.captured ≤ d → mget x.latch d = none → ∃ t, exec (.windowEnd c k) s = .next t ∧ Missed s t c k.toNat i)) ∧
    (w ≤ s.since c k.toNat → ((∃ r, i = .sOut r ∨ i = .sScat r ∨ i = .sCopy r ∨ i = .sInPlane r) ∨ ∃ r, i = .camScat r) →
      (writeTotal i ≤ x.done → ∃ t, exec (.windowEnd c k) s = .next t ∧ t.run c k.toNat = { x with st := .ended } ∧
        t = { s with runs := t.runs }) ∧
      (x.done < writeTotal i → ∃ t, exec (.windowEnd c k) s = .next t ∧ Missed s t c k.toNat i))
/-- R231, R240, R241, R246: the next beat of an `s.in` that has room in the latch arrives there once it is read, and the
command goes on to the next; a page fault holds it. A beat of one 16-byte element in a sound granule of a unit whose extent
does not fault, of which nothing has been read before a hold, holds the bytes that its task sees there. -/
def StreamBeatsArrive : Prop :=
  ∀ (s s1 : State) (c : Ctx) (k : BitVec 8) (r : StreamRec) (v : Cap),
    let x := s.run c k.toNat
    let b := x.done
    x.ins = some (.sIn r) → x.tries = true → s.latched c (portElem r.port.toNat r.edge) < 2048 → b < StreamRec.beats r false →
    (s.sBeat c k.toNat r false b = (s1, v, .none) → ∃ t, exec (.streamReadArrives c k) s = .next t ∧
      (t.run c k.toNat).done = b + 1 ∧ (t.run c k.toNat).st = .running ∧
      (t.run c k.toNat).f = (b + 1) * StreamRec.perBeat r ∧ (t.run c k.toNat).part = [] ∧
      (∀ j, mget (t.run c k.toNat).latch j = if j = b then some v else mget x.latch j) ∧ t = { s1 with runs := t.runs }) ∧
    (∀ va, s.sBeat c k.toNat r false b = (s1, v, .held va) → exec (.streamReadArrives c k) s = .next s1 ∧
      (s1.run c k.toNat).st = .held ∧ (s1.run c k.toNat).heldVa = BitVec.ofNat 64 va ∧ (s1.run c k.toNat).latch = x.latch ∧
      (s1.run c k.toNat).done = b) ∧
    (∀ pa tag, r.esize = 4 → s.sBeat c k.toNat r false b = (s1, v, .none) →
      let id := s.taskAt c
      let va := addOff (s.sBase c k.toNat r) (nestOff (StreamRec.levels r false) b)
      va % 16 = 0 → x.part = [] → pteBit (mget (s.task id).extents (va / 65536)).toNat 0 = true →
      (s.task id).laidByte va 16 = false → s.extAcc (s.task id) .load va = .ok pa false false tag →
      s.hardMem pa = false → s.checkOk (pa / 64) = true → v.data.toNat = leVal (s.taskBytes id pa 16) ∧ v.side = 0)
/-- A byte that the abort of some task may write which a visibility event of a task at a granule aborts. -/
def WipedBy (s : State) (id pa x : Nat) : Prop := ∃ v ∈ s.victims id [pa / 64] [], AbortWrites s v x
/-- R72, R79, R240, R242: a beat of one 16-byte element that an `s.out` of a head has taken, and whose page allows it, is
written to its address when it is accepted, and the command goes on to its next beat; every other byte of memory keeps
its value, but for what aborts write. A beat not yet taken is not accepted. -/
def StreamBeatsWritten : Prop :=
  ∀ (s : State) (c : Ctx) (k : BitVec 8) (r : StreamRec),
    let x := s.run c k.toNat
    let b := x.done
    let id := s.taskAt c
    let va := addOff (s.sBase c k.toNat r) (nestOff (StreamRec.levels r false) b)
    x.ins = some (.sOut r) → x.tries = true →
    (mget x.taken b = none → exec (.writeBeatAccepted c k) s = .next s) ∧
    (∀ v pa p dead tag, mget x.taken b = some v → r.esize = 4 → b < StreamRec.beats r false → x.f ≤ b → va % 16 = 0 →
      s.isHead id = true → pteBit (mget (s.task id).extents (va / 65536)).toNat 0 = true →
      (s.task id).laidGranule va = false → s.extAcc (s.task id) .store va = .ok pa p dead tag →
      s.hardMem pa = false → s.checkOk (pa / 64) = true → (∀ q ∈ s.victims id [pa / 64] [], (s.task q).ctx ≠ c) →
      ∃ t, exec (.writeBeatAccepted c k) s = .next t ∧ (t.run c k.toNat).done = b + 1 ∧ (t.run c k.toNat).st = .running ∧
        mget (t.run c k.toNat).taken b = none ∧
        ∀ y, ¬ WipedBy s id pa y → t.byte y = if pa ≤ y ∧ y < pa + 16 then BitVec.ofNat 8 (v.data.toNat / 256 ^ (y - pa)) else s.byte y)

end Sys2Proof.Claims

/-- What ends an island cycle: cycles, intervals, finishes and lock links. That landing windows run on over an
island's runs is the model's reading (log entry 44). -/
def Obligations.IslandEvents : Prop := IslandCycles ∧ IntervalEnds ∧ IslandFinishes ∧ LockEntries
/-- What the engines' commands do in their windows and between: captures, ends, and the beats of streams. How long a
hold excuses a missing beat, and that bytes read before a hold are kept, are the model's readings (log entries 35 and
42). -/
def Obligations.WindowsAndBeats : Prop := WindowEnds ∧ StreamBeatsArrive ∧ StreamBeatsWritten

/-! ## Commit, fault buffer, registers and host (R76, R80, R156 to R161, R257, R366) -/

/-- R76, R80, R85, R157, R161: a ready head with no intent and no laid-by intent left commits: it leaves the order and
its partition, and no other task and no memory changes while its gang has other tasks. The last task of a gang that is
no batch ends the gang: it is gone, and its queue has one more record, of type 1. A task that is not ready, or an
instance without a head, does not change. When a ready head commits is free (log entry 4). -/
def Obligations.Commit : Prop :=
  (∀ (s : State) (sc : Scope) (inst : BitVec 5) (id : Nat), s.headOf sc inst.toNat = some id → s.ready id = true →
    s.doomed (s.task id).gang = false → (s.task id).intents = [] → (∀ l ∈ (s.task id).lays, l.deferred = false) →
    ∃ t, exec (.commit sc inst) s = .next t ∧ (t.task id).inOrder = false ∧
      (s.taskAt (s.task id).ctx = id → t.taskAt (s.task id).ctx = 0) ∧ (∀ n, n ≠ id → t.task n = s.task n) ∧
      ((∃ n, n ≠ id ∧ (s.task n).gang = (s.task id).gang ∧ (s.task n).phase ≠ .done) → t.mem = s.mem ∧ t.queues = s.queues) ∧
      ((∀ p ∈ s.tasks, p.2.gang = (s.task id).gang → p.1 ≠ id → p.2.phase = .done) → (s.gang (s.task id).gang).batch = none →
        let q := (s.gang (s.task id).gang).queue.toNat
        t.gang (s.task id).gang = {} ∧ (t.queue q).count = (s.queue q).count + 1 ∧
        ((s.queue q).notify ≠ 0 → ∃ ws, OutMsg.notify ((s.queue q).notify + BitVec.ofNat 64 (32 * ((s.queue q).count % 256))) ws ∈ t.out ∧
          (ws.getD 0 0).toNat % 256 = 1))) ∧
  (∀ (s : State) (sc : Scope) (inst : BitVec 5),
    (s.headOf sc inst.toNat = none ∨ ∃ id, s.headOf sc inst.toNat = some id ∧ s.ready id = false) →
    exec (.commit sc inst) s = .next s)

namespace Sys2Proof.Claims

/-- R158: where the buffer has room, the oldest record goes to the place that the producer count names, and the count goes
on; every other byte of memory keeps its value. Where a part of a granule fails its check, its bytes stay too, and a record
of 0x14 comes behind the others. A full buffer, or no record, changes nothing. -/
def FaultRecordsWritten : Prop :=
  ∀ s : State,
    (∀ r rest, s.faultQ = r :: rest → s.fb.full = false →
      let a := s.fb.base.toNat + 32 * (s.fb.prod.toNat % s.fb.size)
      ∃ t, exec .faultRecordWrite s = .next t ∧ t.fb.prod = s.fb.prod + 1 ∧
        (∀ y, (y < a ∨ a + 32 ≤ y) → t.byte y = s.byte y) ∧
        (a % 64 + 32 ≤ 64 → s.checkOk (a / 64) = false → (∀ y, t.byte y = s.byte y) ∧
          ∃ f, t.faultQ = rest ++ [f] ∧ f.code = 0x14 ∧ f.addr = BitVec.ofNat 64 (64 * (a / 64))) ∧
        ((∀ g ∈ granulesOf a 32, s.checkOk g = true) → t.faultQ = rest ∧
        t.word a % 2 ^ 8 = r.code.toNat ∧ t.word a / 2 ^ 8 % 2 = r.held.toNat ∧ t.word a / 2 ^ 9 % 2 = r.laid.toNat ∧
        t.word a / 2 ^ 10 % 2 = r.ended.toNat ∧ t.word a / 2 ^ 11 % 2 = r.nested.toNat ∧
        t.word a / 2 ^ 16 % 2 ^ 16 = r.gen.toNat ∧ t.word a / 2 ^ 32 = r.task.toNat ∧ t.word (a + 8) = r.addr.toNat ∧
        t.word (a + 16) % 2 ^ 16 = r.tenant.toNat ∧ t.word (a + 16) / 2 ^ 16 % 2 ^ 4 = r.ctx.toNat / 2 ∧
        t.word (a + 16) / 2 ^ 20 % 2 = r.ctx.toNat % 2 ∧ t.word (a + 16) / 2 ^ 21 % 2 ^ 9 = r.cmd.toNat ∧
        t.word (a + 16) / 2 ^ 30 = r.elem.toNat ∧ t.word (a + 24) = r.pos.toNat)) ∧
    ((s.faultQ = [] ∨ s.fb.full = true) → exec .faultRecordWrite s = .next s)
/-- R159: a flush begins a new generation with no record made; every thread and command that a page fault held tries
again. With no lay-by entry, no waiting word, no launch held at step 3, and no extent that faults, memory does not change. -/
def FlushReleases : Prop :=
  ∀ s : State, (∀ id, (s.task id).lays = [] ∧ (s.task id).cws = [] ∧ (s.task id).step3 = none) → s.colls = [] →
    ∃ t, exec .fbflush s = .next t ∧ t.fb.gen = s.fb.gen + 1 ∧ t.recorded = [] ∧ t.faultQ = [] ∧
      ((∀ id u, (s.task id).lists u = true → mget (s.task id).extents u ≠ 0) → t.mem = s.mem) ∧
      (∀ c : Ctx, ∀ va, (t.thr c).held ≠ .fault va) ∧ (∀ c : Ctx, (s.thr c).held = .debug → (t.thr c).held = .debug) ∧
      (∀ (c : Ctx) (k : BitVec 8), (t.run c k.toNat).st = if (s.run c k.toNat).st = .held ∧ (s.run c k.toNat).full = false
        then .running else (s.run c k.toNat).st)

end Sys2Proof.Claims

/-- The fault buffer: how its records are written, and what a flush releases. The values of fields that a kind of
record does not use, and the form of hardware updates of memory, are the model's choices (log entries 49 and 51). That
a flush drops every queued record is the model's reading (log entry 47). -/
def Obligations.FaultBuffer : Prop := FaultRecordsWritten ∧ FlushReleases

namespace Sys2Proof.Claims

/-- A fault buffer whose FBSTAT bit stays set only while no space is free (R158). -/
def fbKept (f : FaultBuf) : FaultBuf :=
  { f with stat := f.stat && (f.base == 0 || decide (f.size ≤ (f.prod - f.cons).toNat)) }
/-- A queue whose first register (R160) takes a value. -/
def queueWord (q : Queue) (v : Word) : Queue :=
  { q with weight := if v.toNat % 256 = 0 then 1 else BitVec.ofNat 8 v.toNat, cls := BitVec.ofNat 2 (v.toNat / 256)
           enable := v.getLsbD 10, debugged := v.getLsbD 11, holdOn := v.getLsbD 12
           coalesce := BitVec.ofNat 16 (v.toNat / 65536) }
/-- The registers of the package after a write of R160's, R339's, R379's and R391's: a value out of a register's range, or not
aligned as it states, is ignored. -/
def regsAfter (r : PkgRegs) (off : Nat) (v : Word) : PkgRegs :=
  if off = 0x018 then (if 10 ≤ v.toNat % 1024 ∧ v.toNat % 1024 ≤ 1000 then { r with quantum := BitVec.ofNat 10 v.toNat } else r)
  else if off = 0x138 then (if v.toNat % 4096 = 0 then { r with ctxBase := BitVec.ofNat 52 v.toNat } else r)
  else if off = 0x140 then (if v.toNat % 131072 ≤ 65536 then { r with ctxCount := BitVec.ofNat 17 v.toNat } else r)
  else if off = 0x200 then { r with invCtx := BitVec.ofNat 16 v.toNat }
  else if off = 0x208 then { r with invVa := BitVec.ofNat 48 v.toNat }
  else if off = 0x300 then (if v.toNat % 4096 = 0 then { r with atgBase := BitVec.ofNat 52 v.toNat } else r)
  else if off = 0x308 then { r with atgSize := BitVec.ofNat 32 v.toNat }
  else if off = 0x608 then (if v.toNat % 65536 = 0 then { r with lpSize := BitVec.ofNat 52 v.toNat } else r)
  else if off = 0x610 then (if v.toNat % 65536 = 0 then { r with bpSize := BitVec.ofNat 27 v.toNat } else r)
  else r
/-- The fault buffer after a write of FBBASE, FBSIZE or FBCONS (R158, R160). -/
def fbAfter (f : FaultBuf) (off : Nat) (v : Word) : FaultBuf :=
  if off = 0x100 then (if v.toNat % 4096 = 0 then fbKept { f with base := v } else f)
  else if off = 0x108 then (if ∃ i < 9, v.toNat % 131072 = 256 * 2 ^ i then fbKept { f with size := v.toNat % 131072 } else f)
  else if off = 0x118 then fbKept { f with cons := v }
  else f
/-- What a write of a register of `regOffsets` does: offset, value, and the state after. -/
def RegWritten (s t : State) (off : Nat) (v : Word) : Prop :=
  t.regs = regsAfter s.regs off v ∧ t.fb = fbAfter s.fb off v ∧
  (off = 0x120 → t.agenda = .ev .fbflush :: s.agenda) ∧
  (off = 0x210 → t.agenda = (if v.toNat % 4 = 1 then [.ev .invalidatePage]
    else if v.toNat % 4 = 2 then [.ev .invalidateContext] else []) ++ s.agenda) ∧
  (off = 0x510 → t.agenda = (if v.toNat % 4 = 1 then [.ev .startctlClear] else if v.toNat % 4 = 2 then [.ev .maintenanceReset]
    else if v.toNat % 4 = 3 then [.ev .warmReset] else []) ++ s.agenda) ∧
  (∀ q < 256, (off = 0x10000 + 64 * q → t.queue q = queueWord (s.queue q) v ∧ ∃ acts, t.agenda = acts ++ s.agenda ∧ acts.Nodup ∧
      ∀ e, e ∈ acts ↔ v.getLsbD 10 = false ∧ ∃ p ∈ s.tasks, p.2.queue.toNat = q ∧ p.2.step3.isSome = true ∧
        e = .ev (.gangPlacement p.2.gang)) ∧
    (off = 0x10000 + 64 * q + 0x08 → t.queue q = { s.queue q with endpoint := v }) ∧
    (off = 0x10000 + 64 * q + 0x10 → t.queue q = { s.queue q with notify := v }) ∧
    (off = 0x10000 + 64 * q + 0x18 → t.queue q = { s.queue q with report := v }) ∧
    (off ∉ [0x10000 + 64 * q, 0x10000 + 64 * q + 0x08, 0x10000 + 64 * q + 0x10, 0x10000 + 64 * q + 0x18] → t.queue q = s.queue q))
/-- Offsets of those registers. -/
def regOffsets : List Nat :=
  [0x018, 0x100, 0x108, 0x118, 0x120, 0x138, 0x140, 0x200, 0x208, 0x210, 0x300, 0x308, 0x510, 0x608, 0x610] ++
    (List.range 256).flatMap (fun q => [0x10000 + 64 * q, 0x10000 + 64 * q + 0x08, 0x10000 + 64 * q + 0x10, 0x10000 + 64 * q + 0x18])
/-- R159, R160, R257, R388: when the machine is ready, a write of one of these registers takes the value, or makes its
event the next act, and is answered (disabling a queue makes the loader act next on its launches that wait for room); before that every write is answered with an error and changes nothing else. -/
def RegisterWrites : Prop :=
  ∀ (s : State) (off : Nat) (v : Word), off ∈ regOffsets →
    (s.start.ready = true → ∃ t, exec (.registerWrite (BitVec.ofNat 52 (0x30000000000 + off)) v) s = .next t ∧
      RegWritten s t off v ∧ t.out = s.out ++ [.reply true []] ∧ t.mem = s.mem ∧ t.threads = s.threads ∧ t.tasks = s.tasks) ∧
    (s.start.ready = false → exec (.registerWrite (BitVec.ofNat 52 (0x30000000000 + off)) v) s =
      .next { s with out := s.out ++ [.reply false []] })
/-- R366: a host read of a register answers its eight bytes, and one of memory within 4 KiB, of a page that is not dead and
without an uncorrectable error, its bytes, with an error where a check fails; nothing else changes. -/
def HostReads : Prop :=
  (∀ (s : State) (off : Nat) (v : Word), s.start.ready = true → off % 8 = 0 → off < 0x100000000 → s.regRead off = some v →
    exec (.hostRead (BitVec.ofNat 52 (0x30000000000 + off)) 8) s = .next { s with out := s.out ++ [.reply true (leList 8 v.toNat)] }) ∧
  (∀ (s : State) (a : BitVec 52) (n : Nat), s.start.ready = true → 1 ≤ n → a.toNat % 4096 + n ≤ 4096 →
    (s.place a.toNat = .device ∨ s.place a.toNat = .attention ∨ s.place a.toNat = .basin) →
    (∀ l, s.leafAt a.toNat = some l → pteBit l.1 10 = true) → (∀ g ∈ granulesOf a.toNat n, s.hardMem (64 * g) = false) →
    exec (.hostRead a n) s = .next { s with
      out := s.out ++ [.reply ((granulesOf a.toNat n).all s.checkOk) (s.bytes a.toNat n)] })
/-- R72, R255, R366: a host write of memory within 4 KiB whose granules have sound checks stores its bytes, makes the checks anew
and is answered; every other byte keeps its value, and no task is aborted. An entry of a dead page in which it sets Live is
known from then on. -/
def HostWrites : Prop :=
  ∀ (s : State) (a : BitVec 52) (bs : List Byte), s.start.ready = true → 1 ≤ bs.length → a.toNat % 4096 + bs.length ≤ 4096 →
    (s.place a.toNat = .device ∨ s.place a.toNat = .attention ∨ s.place a.toNat = .basin) →
    (∀ g ∈ granulesOf a.toNat bs.length, s.checkOk g = true) →
    ∃ t, exec (.hostWrite a bs) s = .next t ∧ t.out = s.out ++ [.reply true []] ∧
      (∀ y, t.byte y = if a.toNat ≤ y ∧ y < a.toNat + bs.length then bs.getD (y - a.toNat) 0 else s.byte y) ∧
      (∀ g ∈ granulesOf a.toNat bs.length, t.checkOk g = true) ∧
      (∀ e, e ∈ t.raised ↔ e ∈ s.raised ∨ (e % 8 = 0 ∧ a.toNat < e + 8 ∧ e < a.toNat + bs.length ∧ pteBit (s.word e) 0 = true ∧
        pteBit (s.word e) 1 = true ∧ pteBit (s.word e) 10 = false ∧ pteBit (t.word e) 10 = true)) ∧
      t = { s with mem := t.mem, checks := t.checks, out := t.out, raised := t.raised }
/-- The translations that the invalidation registers name: of one page, at every size, or of the whole context. -/
def InvNamed (s : State) (page : Bool) (e : TlbEnt) : Prop :=
  e.tenant = s.regs.invCtx ∧ (page = true → e.base ≤ s.regs.invVa.toNat / 65536 * 65536 ∧
    s.regs.invVa.toNat / 65536 * 65536 < e.base + e.size)
/-- R257: an invalidation removes from every TLB the translations that it names and no other, and counts itself. -/
def Invalidations : Prop :=
  ∀ (s : State) (page : Bool), ∃ t, exec (if page then .invalidatePage else .invalidateContext) s = .next t ∧
    (∀ r < 16, ∀ e, e ∈ mget t.tlb1 r ↔ e ∈ mget s.tlb1 r ∧ ¬ InvNamed s page e) ∧
    (∀ d < 2, ∀ e, e ∈ mget t.tlb2 d ↔ e ∈ mget s.tlb2 d ∧ ¬ InvNamed s page e) ∧
    t.regs = { s.regs with invDone := s.regs.invDone + 1 } ∧ t.threads = s.threads ∧ t.out = s.out

end Sys2Proof.Claims

/-- The package registers, the host's accesses to registers and memory, and invalidations. Error replies of unlisted
offsets, and reads of dead pages, are the model's choices (log entries 16 and 64). -/
def Obligations.RegistersAndHost : Prop := RegisterWrites ∧ HostReads ∧ HostWrites ∧ Invalidations

namespace Sys2Proof.Claims

/-- The rows of the opcode table that are the arrival of a message. -/
def arrivalOf (n : Fin 3) (q : BitVec 8) (ep : Word) (m : List Word) : Instr :=
  match n with
  | 0 => .launch q ep m
  | 1 => .batchLaunch q ep m
  | 2 => .attentionResume q ep m

end Sys2Proof.Claims

/-- R137, R367: a message to an enabled queue with fewer than 64 messages, from an endpoint that owes it no other one,
enters the admission buffer behind the others, and the endpoint owes nothing any more. Any other message is refused at
link level: the count of refusals goes on, the endpoint is told, and it owes that message, or the one that it owed
before. No other queue and nothing else changes. -/
def Obligations.LaunchMessages : Prop :=
  ∀ (n : Fin 3) (s : State) (q : BitVec 8) (ep : Word) (m : List Word),
    let x := s.queue q.toNat
    let owed := x.resend.find? (fun p => p.1 == ep)
    let taken := s.start.ready = true ∧ x.enable = true ∧ x.msgs.length < 64 ∧ (∀ p, owed = some p → p.2 = m)
    ∃ t, exec (arrivalOf n q ep m) s = .next t ∧ (∀ k, k ≠ q.toNat → t.queue k = s.queue k) ∧
      t = { s with queues := t.queues, out := t.out } ∧
      (taken → t.queue q.toNat = { x with msgs := x.msgs ++ [(ep, m)], resend := x.resend.filter (fun p => p.1 != ep) } ∧
        t.out = s.out) ∧
      (¬ taken → t.queue q.toNat = { x with refused := x.refused + 1, resend := x.resend ++ if owed = none then [(ep, m)] else [] } ∧
        t.out = s.out ++ [.refusal q ep])

namespace Sys2Proof.Claims

/-- What the loader finds for a gang (steps 1 and 2 of R143): room for the first child that waits, or for its tasks. -/
def roomFor (s : State) (g : Nat) (ids : List Nat) : Load Ld :=
  if ids.all (fun id => (s.task id).parent.isSome) then s.room g (ids.map (fun id => { id := id }))
  else (s.readGang g ids).bind (fun r => r.1.room g r.2)
/-- R10, R85, R143 to R146: with nothing under load, with its standby planes written already, or with something lacking that
other launches hold, a placement changes nothing; a launch that fails a check of step 1 or 2 is refused; one that passes
every step, its pages migrated, has its standby planes written, and those of free partitions swap next; one whose step 3 faults is held there with a fault record of code 0x08. -/
def Placement : Prop :=
  ∀ (s : State) (g : Nat),
    let ids := s.underLoad g
    ((s.gang g).size = 0 ∨ ids = [] → exec (.gangPlacement g) s = .next s) ∧
    ((∀ id ∈ ids, (mget s.standby (s.task id).ctx.toNat).isSome = true ∧ s.bookedAt (s.task id).ctx = id) →
      exec (.gangPlacement g) s = .next s) ∧
    ((s.gang g).size ≠ 0 → ids ≠ [] → (∀ id ∈ ids, (s.task id).step3 = none) →
      (∃ id ∈ ids, mget s.standby (s.task id).ctx.toNat = none ∨ s.bookedAt (s.task id).ctx ≠ id) →
      (roomFor s g ids = .wait → exec (.gangPlacement g) s = .next s) ∧
      (∀ c n, roomFor s g ids = .refuse c n → exec (.gangPlacement g) s = .next (s.refuse g ids c n)) ∧
      (∀ (l l2 : Ld) (s1 : State), roomFor s g ids = .ok l →
        (l.s.setGang l.g { l.s.gang l.g with notes := (l.s.gang l.g).notes ++ l.notes }).extendAll ids = .done s1 →
        (({ l with s := s1, notes := [], used := s1.framesHeld 0 } : Ld).migrate ids).checkAll ids = .ok l2 →
        ∃ t, exec (.gangPlacement g) s = .next t ∧
          t.agenda = (ids.filter (fun id => mget l2.s.owner (l2.s.task id).ctx.toNat = none)).map (fun id =>
            .ev (.planeSwap (l2.s.task id).ctx)) ++ l2.s.agenda ∧ t.standby = l2.s.standby ∧ t.mem = l2.s.mem) ∧
      (∀ (l : Ld) (id cmd va : Nat) (s1 : State), roomFor s g ids = .ok l →
        (l.s.setGang l.g { l.s.gang l.g with notes := (l.s.gang l.g).notes ++ l.notes }).extendAll ids = .fault id cmd va →
        s1 = l.s.setGang l.g { l.s.gang l.g with notes := (l.s.gang l.g).notes ++ l.notes } →
        ∃ t, exec (.gangPlacement g) s = .next t ∧ ((s1.task id).gang ≠ 0 → (t.task id).step3 = some va) ∧ t.mem = s1.mem ∧
          (t.faultQ = s1.faultQ ∨ ∃ r, t.faultQ = s1.faultQ ++ [r] ∧ r.code = 0x08 ∧ r.held = true)))
/-- R146: the plane that the loader has written for a task becomes the active one of its partition, and the task is placed
there; its gang is placed with the last of its tasks. Where there is none, no such task waits, another task is still there, or
the region is being measured (R383), nothing changes. -/
def PlaneSwaps : Prop :=
  ∀ (s : State) (c : Ctx),
    let n := s.bookedAt c
    (∀ p, mget s.standby c.toNat = some p → (s.task n).gang ≠ 0 → (s.task n).phase = .waiting → mget s.owner c.toNat = none →
      s.start.measuring.contains (regionOf c) = false →
      ∃ t, exec (.planeSwap c) s = .next t ∧ t.plane c = p ∧ mget t.standby c.toNat = none ∧ t.taskAt c = n ∧
        t.bookedAt c = 0 ∧ t.task n = { s.task n with phase := .placed } ∧ (∀ id, id ≠ n → t.task id = s.task id) ∧
        (∀ d : Ctx, d ≠ c → t.plane d = s.plane d) ∧ t.threads = s.threads ∧
        ((s.task n).parent = none → (∀ p ∈ s.tasks, p.1 ≠ n → p.2.gang = (s.task n).gang → p.2.phase = .waiting → p.2.parent ≠ none) →
          (t.gang (s.task n).gang).phase = .placed)) ∧
    ((mget s.standby c.toNat = none ∨ (s.task n).phase ≠ .waiting ∨ mget s.owner c.toNat ≠ none ∨
        s.start.measuring.contains (regionOf c) = true) →
      exec (.planeSwap c) s = .next s)
/-- R163, R164: between two iterations of a batch, with its table readable and the snapshot's page writable, its gang waits
for its placement, with new tasks but for the first iteration, and with the address of the snapshot and the number of the iteration as arguments 4 and 5. An entry of a
snapshot is the entry of the table, or that of the previous snapshot where an update had caught it. In any other phase, or
while the mailboxes of its tasks find no frames, nothing changes. -/
def BatchIterations : Prop :=
  (∀ (s : State) (g : Nat) (b : Batch), (s.gang g).batch = some b →
    let n := if s.members g = [] then b.iter + 1 else b.iter
    let s1 := s.setGang g { s.gang g with
      phase := .waiting, batch := some { b with iter := n }, notes := [], raced := false
      args := (s.gang g).args.take 4 ++ [BitVec.ofNat 64 (b.table + 4096 * (1 + n % 2)), BitVec.ofNat 64 n] }
    let begun := if s.members g = [] then s1.newTasks g else some s1
    ((s.gang g).phase = .between → ∀ s2 s3, begun = some s2 → s2.takeSnapshot (s.gang g).tenant b.table n = .ok s3 →
      exec (.batchIteration g) s = .next s3 ∧ s3.gang g = s1.gang g) ∧
    ((s.gang g).phase = .between → begun = none → exec (.batchIteration g) s = .next s) ∧
    ((s.gang g).phase ≠ .between → exec (.batchIteration g) s = .next s)) ∧
  (∀ (table prev : List Byte) (e : Nat), table.length = 4096 → prev.length = 4096 → e < 64 →
    let x := (table.drop (64 * e)).take 64
    ((snapshotOf table prev).drop (64 * e)).take 64 =
      if leVal (x.take 4) % 2 = 1 then (prev.drop (64 * e)).take 64
      else x.take 4 ++ List.replicate 4 0 ++ x.drop 8)

end Sys2Proof.Claims

/-- Loading: placements, plane swaps and the iterations of a batch. Placements of no stated choice are free, and what
a waiting launch does and which pages migrate are the model's readings (log entries 11, 32, 55 and 74). The tasks and
identifiers of later iterations, and waiting while the mailboxes find no frames, are the model's choices (log entries
27 and 45). -/
def Obligations.Loading : Prop := Placement ∧ PlaneSwaps ∧ BatchIterations

/-- R84, R149, R154, R155: a stable berth record whose valid bit fell spills a frozen and drained context to the save
area of the old record: it holds its thread, elements, commands and accumulator, its partition is free and empty, and
its task is spilled. One whose valid bit rose starts a placed task from its entry, and gives a spilled one whose save
area it names its thread and elements back as the bytes of the area say, or restarts it where they mark it as aborted;
without an area in memory the model keeps a copy. Of memory, only the 0x2B00000 bytes from the save area's address on
may change; in device memory g0 to g31 stand at 0x1000 there, the system registers at 0x1400 and the result register
of element e at 0x100000 + 3072 e. A record that is not stable changes nothing. What a restore reads of the save area,
and the layout that the spec leaves open there, are the model's choices (log entry 13). -/
def Obligations.SpillAndRestore : Prop :=
  ∀ (s : State) (c : Ctx),
    let b := s.berth c
    let id := s.taskAt c
    let k := b.task.toNat
    let a := (mget s.saves k).area.toNat
    (stable b.seqNo b.acted = true → b.valid = false → (s.task id).gang ≠ 0 → (s.task id).phase = .resident →
      s.canSpill c = true → s.unleft c = none →
      ∃ t, exec (.spill c) s = .next t ∧ (mget t.saves id).thr = s.thr c ∧
        (∀ e < 512, mget (mget t.saves id).elems e = s.elem c e) ∧
        (∀ row col, row < 1024 → col < 256 → mget (mget t.saves id).acc (row * 256 + col) = s.accAt c row col) ∧
        (∀ j < 256, mget (mget t.saves id).runs j = s.run c j) ∧ (mget t.saves id).area = b.area ∧
        t.thr c = {} ∧ (∀ e < 512, t.elem c e = {}) ∧ t.taskAt c = 0 ∧ t.task id = { s.task id with phase := .spilled } ∧
        (t.berth c).acted = b.seqNo ∧
        (∀ y, y < b.area.toNat ∨ b.area.toNat + 0x2B00000 ≤ y → t.byte y = s.byte y) ∧
        (s.areaOk b.area.toNat = true → t.byte (b.area.toNat + 0x49000) = 0 ∧
          (∀ r < 32, t.word (b.area.toNat + 0x1000 + 8 * r) = ((s.thr c).get (BitVec.ofNat 5 r)).toNat) ∧
          (∀ n < 9, t.word (b.area.toNat + 0x1400 + 8 * n) = (s.sysRead c n).toNat ∧
            t.word (b.area.toNat + 0x1600 + 8 * n) = (s.sysRead c (0x100 + n)).toNat) ∧
          (∀ e < 512, t.word (b.area.toNat + 0x100000 + 3072 * e) = (s.elem c e).res.data.toNat % 2 ^ 64))) ∧
    (stable b.seqNo b.acted = true → b.valid = true → (s.task k).gang ≠ 0 → (s.task k).ctx = c →
      ((s.task k).phase = .placed → ∃ t, exec (.restore c) s = .next t ∧ t.thr c = (s.task k).thread ∧
        (t.task k).phase = .resident ∧ (t.berth c).acted = b.seqNo) ∧
      ((s.task k).phase = .spilled → (mget s.saves k).area = b.save → s.canTake (s.task k) c = true →
        ∃ t, exec (.restore c) s = .next t ∧ (t.task k).phase = .resident ∧ t.taskAt c = k ∧
          (s.areaOk a = false →
            ((s.task k).marked = false → t.thr c = (mget s.saves k).thr ∧ ∀ e < 512, t.elem c e = mget (mget s.saves k).elems e) ∧
            ((s.task k).marked = true → t.thr c = (s.task k).thread)) ∧
          (s.areaOk a = true →
            (s.byte (a + 0x49000) ≠ 0 → t.thr c = (s.task k).thread) ∧
            (s.byte (a + 0x49000) = 0 →
              (∀ r < 32, r ≠ 0 → ((t.thr c).get (BitVec.ofNat 5 r)).toNat = s.word (a + 0x1000 + 8 * r)) ∧
              (t.thr c).pc = BitVec.ofNat 64 (s.word (a + 0x1100) / 4 * 4) ∧ (t.thr c).sup = (s.word (a + 0x1108)).testBit 0 ∧
              (t.thr c).poison.toNat = s.word (a + 0x1118) % 2 ^ 32 ∧ (t.thr c).cyc.toNat = s.word (a + 0x1400) ∧
              (t.thr c).epc.toNat = s.word (a + 0x1608) ∧ (t.thr c).pend = (mget s.saves k).thr.pend ∧
              ∀ e < 512, (t.elem c e).res.data.toNat % 2 ^ 64 = s.word (a + 0x100000 + 3072 * e) ∧
                (t.elem c e).rand.toNat = s.word (a + 0x100000 + 3072 * e + 0x38)))) ∧
      ((s.task k).phase = .spilled → (mget s.saves k).area ≠ b.save → exec (.restore c) s = .next (s.actBerth c))) ∧
    (stable b.seqNo b.acted = false → exec (.spill c) s = .next s ∧ exec (.restore c) s = .next s)

namespace Sys2Proof.Claims

/-- R149, R152, R153: a stable dispatch word is acted on, unless the partition that it names is still spilled or restored:
that partition is live, and the drain runs for the 24 cycles that follow; at its end the incoming partition issues. A stall
of its thread counts from there on (R150). -/
def Freezing : Prop :=
  ∀ (s : State) (r : BitVec 4),
    let d := s.disp r.toNat
    let b := s.berth (ctxOf r.toNat d.part)
    let busy := d.none' = false ∧ d.live ≠ some d.part ∧ stable b.seqNo b.acted = true
    let s1 := s.setDisp r.toNat { d with
      acted := d.seqNo, live := if d.none' then none else some d.part, drain := s.cycle + 24 }
    let c := ctxOf r.toNat d.part
    (stable d.seqNo d.acted = true → ¬ busy → exec (.freeze r) s = .next (if d.none' then s1 else s1.setThr c
      { s.thr c with waitSince := (s.thr c).waitSince.map (fun _ => s.cycle + 24) })) ∧
    (stable d.seqNo d.acted = false ∨ busy → exec (.freeze r) s = .next s) ∧
    (d.drain ≠ 0 → d.drain ≤ s.cycle → exec (.drainEnd r) s = .next (s.setDisp r.toNat { d with drain := 0 })) ∧
    (s.cycle < d.drain → exec (.drainEnd r) s = .next s ∧ s.issuing r.toNat = none)
/-- R150: when a slice ends, or the task that issues has stalled for more than 10 µs beside one that can be served, the
region is dispatched anew; before that nothing changes. -/
def Redispatching : Prop :=
  (∀ (s : State) (r : BitVec 4),
    (s.sliceDue r.toNat = true → exec (.sliceEnd r) s = .next (s.redispatch r.toNat)) ∧
    (s.sliceDue r.toNat = false → exec (.sliceEnd r) s = .next s)) ∧
  (∀ (s : State) (c : Ctx),
    (s.stallDue c = true → exec (.stallTimeout c) s = .next (s.redispatch (regionOf c))) ∧
    (s.stallDue c = false → exec (.stallTimeout c) s = .next s))
/-- R148, R150: a dispatch serves the other partition, with a new sequence value and a slice that begins after the drain, where it can be served, its queue has time
left, it does not issue, and the present one cannot be served or has a less urgent class. -/
def MostUrgentServed : Prop :=
  ∀ (s : State) (r : Nat), r < 16 →
    let d := s.disp r
    let other := ctxOf r (!d.part)
    let mine := ctxOf r d.part
    s.servable other = true → (s.servable mine = false ∨ (s.berth other).cls.toNat < (s.berth mine).cls.toNat) →
    ((s.charge r).queue (s.berth other).queue.toNat).deficit ≠ 0 → d.live ≠ some (!d.part) →
    let t := s.redispatch r
    (t.disp r).part = (!d.part) ∧ (t.disp r).none' = false ∧ (t.disp r).seqNo = d.seqNo + 2 ∧
    (t.disp r).sliceEnd = s.cycle + 24 + min ((s.charge r).queue (s.berth other).queue.toNat).deficit
      (4000 * min s.regs.quantum.toNat (s.berth other).slice.toNat) ∧ (∀ k < 16, k ≠ r → t.disp k = s.disp k)
/-- R162: a window whose time is over closes with one interrupt that names its records and the last sequence value; before
that nothing changes. -/
def WindowCloses : Prop :=
  ∀ (s : State) (q : BitVec 8) (a n : Nat),
    let x := s.queue q.toNat
    x.window = some (a, n) →
    (a + x.coalesce.toNat * 4000 ≤ s.cycle →
      ∃ t, exec (.coalesceWindowClose q) s = .next t ∧ t.queue q.toNat = { x with window := none } ∧
        t.out = s.out ++ (if x.endpoint = 0 then [] else [.irq x.endpoint n x.count]) ∧ t = { s with queues := t.queues, out := t.out }) ∧
    (s.cycle < a + x.coalesce.toNat * 4000 → exec (.coalesceWindowClose q) s = .next s)

end Sys2Proof.Claims

/-- Dispatch: freezing and draining, slices and stalls, and the interrupt window of a queue. Redispatch after any long
stall, the deficit and the choice of the other partition, and a slice that begins after the drain, are the model's
choices (log entry 60). -/
def Obligations.DispatchEvents : Prop := Freezing ∧ Redispatching ∧ MostUrgentServed ∧ WindowCloses

namespace Sys2Proof.Claims

/-- The kind of a start that is asked for: cold, of the reset line or STARTCTL 3, of maintenance (R385). -/
def startSpec (s : State) : Instr → Option StartKind
  | .coldStart => some .cold
  | .resetLine | .warmReset => some (if s.start.saved = true ∧ s.start.ctl1 = false then .warm else .cold)
  | .maintenanceReset => some .maintenance
  | _ => none
/-- R384 to R388: a start loses every context, translation and register of the package and is not ready; it is a safe start
after three that failed. The persistent store's count, retired regions and training, and the time, stay. -/
def Starts : Prop :=
  ∀ (i : Instr) (s : State) (k : StartKind), startSpec s i = some k →
    ∃ t, exec i s = .next t ∧ t.start.kind = (if s.start.failed = 3 then .safe else k) ∧ t.start.ready = false ∧
      t.start.stage = 0 ∧ t.start.starts = s.start.starts + 1 ∧ t.start.failed = s.start.failed ∧
      t.start.retired = s.start.retired ∧ t.start.saved = s.start.saved ∧ t.cycle = s.cycle ∧ t.tasks = [] ∧ t.gangs = [] ∧
      t.threads = [] ∧ t.elems = [] ∧ t.bank = [] ∧ t.acc = [] ∧ t.tlb1 = [] ∧ t.tlb2 = [] ∧ t.queues = [] ∧ t.regs = {} ∧ t.fb = {}
/-- R385, R386: STARTCTL 1 clears the count of failed starts; a start that is not ready after 60 s has failed and counts,
up to three; before that nothing changes. -/
def StartCounts : Prop :=
  ∀ s : State,
    exec .startctlClear s = .next { s with start := { s.start with failed := 0, ctl1 := true } } ∧
    (s.start.ready = false → s.start.stage < 8 → s.start.began + 240000000000 ≤ s.cycle →
      ∃ t, exec .startTimeout s = .next t ∧ t.start.failed = (if s.start.failed = 3 then 3 else s.start.failed + 1) ∧
        8 < t.start.stage ∧ t = { s with start := t.start }) ∧
    ((s.start.ready = true ∨ s.cycle < s.start.began + 240000000000) → exec .startTimeout s = .next s)
/-- R383: an ageing check begins on a region 1,000 hours after its last, while no other is measured, and ends once no task is
there: it counts, and retires the region where its margin is gone. -/
def AgeingChecks : Prop :=
  ∀ (s : State) (r : BitVec 4),
    let due := mget s.start.aged r.toNat + 14400000000000000 ≤ s.cycle
    (s.start.measuring = [] → s.start.retired.getLsbD r.toNat = false → due →
      exec (.ageingCheck r) s = .next { s with start := { s.start with measuring := [r.toNat], since := s.cycle } }) ∧
    (s.start.measuring = [] → (s.start.retired.getLsbD r.toNat = true ∨ ¬ due) → exec (.ageingCheck r) s = .next s) ∧
    (s.start.measuring = [r.toNat] → s.taskAt (ctxOf r.toNat false) = 0 → s.taskAt (ctxOf r.toNat true) = 0 →
      ∃ t, exec (.ageingCheck r) s = .next t ∧ t.start.measuring = [] ∧
        (∀ k, mget t.start.checks k = if k = r.toNat then mget s.start.checks k + 1 else mget s.start.checks k) ∧
        (∀ k, t.start.retired.getLsbD k = (s.start.retired.getLsbD k ||
          (decide (k = r.toNat) && Config.marginGone k (mget s.start.checks k)))) ∧
        (∀ k, mget t.start.aged k = if k = r.toNat then s.cycle else mget s.start.aged k) ∧
        (Config.marginGone r.toNat (mget s.start.checks r.toNat) = false → t = { s with start := t.start }))
/-- Whether a memory line lies in HBM. -/
def inHbm (s : State) (g : Nat) : Prop := s.place (64 * g) = .device ∨ s.place (64 * g) = .attention
/-- R74, R299, R380, R382: the scrubber corrects and counts a single-bit error, by region, by the die of a basin or in HBMCE,
records an uncorrectable one of an array with 0x30, and takes either off the list; an uncorrectable one of memory stays.
A line without an error, and a node that no resident slot holds, does not change. -/
def Scrubbing : Prop :=
  ∀ (s : State) (l : ArrayLine),
    let read := ∀ r p sl n, l = .loom r p sl n → (s.slot (ctxOf r.toNat p) sl.toNat).resident = true ∧
      n.toNat < (s.slot (ctxOf r.toNat p) sl.toNat).graph.nodes.length
    ((∀ e ∈ s.errs, e.line ≠ l) ∨ ¬ read → exec (.scrubLine l) s = .next s) ∧
    (∀ e, read → s.errs.find? (fun x => x.line == l) = some e → e.hard = false →
      ∃ t, exec (.scrubLine l) s = .next t ∧ t.errs = s.errs.erase e ∧ t.bank = s.bank ∧ t.mem = s.mem ∧
        (∀ r, lineRegion l = some r → mget t.bankCE r = mget s.bankCE r + 1) ∧
        (∀ g, l = .mem g → inHbm s g.toNat → t.start.hbmCE = s.start.hbmCE + 1) ∧
        (∀ g, l = .mem g → s.place (64 * g.toNat) = .basin →
          let die := (64 * g.toNat - 0x20000000000) / 0x8000000
          mget t.basinCE die = mget s.basinCE die + 1)) ∧
    (∀ e, read → s.errs.find? (fun x => x.line == l) = some e → e.hard = true → (∀ g, l ≠ .mem g) →
      ∃ t r, exec (.scrubLine l) s = .next t ∧ t.errs = s.errs.erase e ∧ t.faultQ = s.faultQ ++ [r] ∧ r.code = 0x30) ∧
    (∀ e g, l = .mem g → s.errs.find? (fun x => x.line == l) = some e → e.hard = true →
      ∃ t r, exec (.scrubLine l) s = .next t ∧ t.errs = s.errs.map (fun x => if x = e then { x with at' := s.cycle } else x) ∧
        t.faultQ = s.faultQ ++ [r] ∧ r.code = 0x30 ∧ r.addr = BitVec.ofNat 64 (64 * g.toNat) ∧ (inHbm s g.toNat → t.start.hbmUE = s.start.hbmUE + 1))
/-- R261, R382: a refresh takes the next of the 16 banks of its pseudo-channel and of no other, and passes over the rows of
that bank whose every frame belongs to a dead page. -/
def Refreshing : Prop :=
  ∀ (s : State) (st : BitVec 4) (ch : BitVec 5) (p : Bool),
    let k := 64 * st.toNat + 2 * ch.toNat + p.toNat
    let b := mget s.refreshPtr k
    ∃ t, exec (.refresh st ch p) s = .next t ∧ t = { s with refreshPtr := t.refreshPtr, elided := t.elided } ∧
      (∀ j, mget t.refreshPtr j = if j = k then (b + 1) % 16 else mget s.refreshPtr j) ∧
      (∀ n, n ∈ mget t.elided (16 * k + b) ↔
        ∃ fs, (Config.rowsOf k b)[n]? = some fs ∧ fs ≠ [] ∧ ∀ f ∈ fs, s.deadFrame f = true) ∧
      ∀ j, j ≠ 16 * k + b → mget t.elided j = mget s.elided j

end Sys2Proof.Claims

/-- Starts and upkeep: the kinds of start, failed starts, ageing, scrubbing and refresh. Which state a start clears,
the refresh times and rows, what the scrubber's passes bound, and the outcomes of physical checks are the model's
choices or free (log entries 58, 59, 62 and 68). -/
def Obligations.StartsAndUpkeep : Prop := Starts ∧ StartCounts ∧ AgeingChecks ∧ Scrubbing ∧ Refreshing

/-! ## Reset, steps, encodings and invariants -/

namespace Sys2Proof.Claims

/-- R79: whether every head's hold is empty. -/
def HeadsHoldNothing (s : State) : Prop := ∀ id, s.isHead id = true → (s.task id).hold = []
/-- R160: registers of the package and their reset values, PKGID apart. -/
def resetRegs : List (Nat × Word) :=
  [(0x008, 0x2B00000), (0x010, 1), (0x018, 50), (0x100, 0), (0x108, 256), (0x110, 0), (0x118, 0), (0x128, 0), (0x130, 0),
   (0x138, 0), (0x140, 0)]
/-- R160: registers of a queue's block and their reset values: weight 1 and class 3 in the first. -/
def resetQueue : List (Nat × Word) := [(0x00, 0x301), (0x08, 0), (0x10, 0), (0x18, 0), (0x20, 0)]

end Sys2Proof.Claims

/-- R160: what the registers of the package read as at reset; and there memory has its canonical form and every head's
hold is empty. That memory lists nothing and reads 0 is the model's choice (log entry 2). -/
def Obligations.StateAtReset : Prop :=
  (∀ p ∈ resetRegs, State.reset.regRead p.1 = some p.2) ∧ State.reset.regRead 0 = some (Config.pkgId.setWidth 64) ∧
  (∀ q < 256, ∀ p ∈ resetQueue, State.reset.regRead (0x10000 + 64 * q + p.1) = some p.2) ∧
  Memory.wf State.reset.mem = true ∧ HeadsHoldNothing State.reset

namespace Sys2Proof.Claims

/-- The state in which a thread's word is fetched: the act is off the agenda, the context acts, and its cycle counts. -/
def issueState (s : State) (c : Ctx) (rest : List Act) : State :=
  ({ s with agenda := rest, cur := c } : State).setThr c { s.thr c with cyc := (s.thr c).cyc + 1 }
/-- The start of a command's record is its row's instruction, but for the attention commands and collectives, which queue. -/
def startsItself : Instr → Bool
  | .atApp _ | .atSel _ | .atAtt _ | .atTrunc _ | .lCollReduce _ | .lCollAllgather _ | .lCollBroadcast _ => false
  | _ => true
/-- The row of an attention command that has joined its queue. -/
def queuedAs (q : AtQueued) : Instr :=
  match q.op with
  | .app => .atApp q.rec'
  | .sel => .atSel q.rec'
  | .att => .atAtt q.rec'
  | .trunc => .atTrunc q.rec'

end Sys2Proof.Claims

/-- A step runs the decoded instruction, every head then drains its hold, and the loads in flight look at memory
again: the word whose four bytes lie where the pc of a runnable thread translates to, or trap 0x01 where they are no
instruction, and, where those bytes have been written since the last acquire of the context, that word or the one
before (R108); the entry due at an island's counter; a command whose record starts; the oldest attention command of a
queue; an event of the table. With nothing left in a real cycle the next one begins. The order of agents within a real
cycle, the handler as one operation, the choice between an old and a new word, and that a cycle counts before its
instruction issues are the model's choices (log entries 3, 14, 57 and 79). That the argument of trap 0x01 is the pc is
the model's choice (log entry 9). -/
def Obligations.StepRunsDecoded : Prop :=
  (∀ (s s2 : State) (c : Ctx) (rest : List Act) (pa tag : Nat) (p : Bool), s.agenda = .thread c :: rest →
    let s1 := issueState s c rest
    let bs := s2.taskBytes (s2.taskAt c) pa 4
    s1.runnable c = true → ¬ ((s.thr c).sup = true ∧ (s.thr c).pc = Config.handlerEntry &&& ~~~(3 : Word)) →
    s1.seqTranslate .fetch (s.thr c).pc.toNat = (s2, .ok pa p false tag) → s2.hardMem pa = false →
    let old := s2.codeWord c pa
    (old = leVal bs →
      (∀ i, decodeSeqBytes bs = .ok i → step s = settleOut (some c) (exec i s2)) ∧
      (∀ e, decodeSeqBytes bs = .error e → step s = settleOut (some c) (.next (s2.trap c 0x01 (s.thr c).pc)))) ∧
    (old ≠ leVal bs → ∃ w, (w = old ∨ w = leVal bs) ∧
      let s3 : State := { s2 with free := s2.free + 1 }
      (∀ i, decodeSeq w = .ok i → step s = settleOut (some c) (exec i s3)) ∧
      (∀ e, decodeSeq w = .error e → step s = settleOut (some c) (.next (s3.trap c 0x01 (s.thr c).pc))))) ∧
  (∀ (s : State) (c : Ctx) (e : ElemIx) (rest : List Act) (w : Word) (i : Instr), s.agenda = .entry c e :: rest →
    let s1 : State := { s with agenda := rest, cur := c, curElem := e }
    s.dueEntry c e.toNat = some w → decodeEntry w.toNat = .ok i →
    step s = settleOut none (exec i s1)) ∧
  (∀ (s : State) (c : Ctx) (k : BitVec 8) (rest : List Act) (i : Instr), s.agenda = .cmd c k :: rest →
    let s1 : State := { s with agenda := rest, cur := c, curCmd := k }
    decodeCmd ((s.cmdRec c k.toNat).words.map (·.toNat)) = .ok i →
    startsItself i = true → s.accLost c i = none →
    step s = settleOut none (exec i s1)) ∧
  (∀ (s : State) (c : Ctx) (rest : List Act) (q : AtQueued) (qs : List AtQueued), s.agenda = .att c :: rest →
    mget s.atq c.toNat = q :: qs → step s = settleOut none (exec (queuedAs q) { s with agenda := rest, cur := c })) ∧
  (∀ (s : State) (rest : List Act) (i : Instr), s.agenda = .ev i :: rest → step s = settleOut none (exec i { s with agenda := rest })) ∧
  (∀ s : State, s.agenda = [] → step s = .next s.advance)

/-- Words and records that the spec writes out decode to the instructions that they stand for (R136, R172; the rest
from the encoding tables of R104 to R136, R174 and R233 to R374). -/
def Obligations.DecodeWords : Prop :=
  decodeSeq 0x09100000 = .ok (.addi 8 16 0) ∧ decodeSeq 0x98200006 = .ok (.jal 1 6) ∧
  decodeSeq 0x81000004 = .ok (.beq 8 0 4) ∧ decodeSeq 0x9C010000 = .ok (.jlr 0 1 0) ∧
  decodeSeq 0xA4000007 = .ok (.trap 7) ∧ decodeSeq 0xC0000000 = .ok (.tgo 0) ∧
  decodeSeq 0xE2000000 = .ok (.gload 16 0) ∧ decodeSeq 0xE8880000 = .ok (.gstat 4 8) ∧
  decodeSeq 0xF0000000 = .ok (.camld 0 0) ∧ decodeSeq 0 = .error .unassignedOp ∧
  decodeEntry 0x061081438F010000 = .ok (.entryFma
    { stamp := 0x61, a := { line := .m }, b := { line := .k }, c := { line := .k, tap := 1 }, ty := .f32, sat := false
      rnd := .rn, we := true, x := 0 }) ∧
  decodeEntry 0x0629000000D00000 = .ok (.entryLdb
    { stamp := 0x62, a := {}, b := {}, c := {}, ty := .bits, sat := false, rnd := .rn, we := false, x := 0 }) ∧
  decodeEntry 0x064BA7C000700000 = .ok (.entryCond
    { stamp := 0x64, a := { line := .k, tap := 3 }, b := {}, c := {}, ty := .n32, sat := false, rnd := .rn, we := false
      x := 0 }) ∧
  decodeCmd [0x8000000080, 1, 1, 1, 1, 1, 0, 3] = .ok (.mxWload
    { hdr := { start := 0x80, island := 0 }, base := 0, wfmt := 3, blk := 0, kb := 0, nb := 0 })

/-- The words of an instruction decode to it: for every well-formed instruction, with each operand at every value that
the encoding admits, its sequencer word of 32 bits, its entry of 64 bits, or its record of eight 64-bit words. -/
def Obligations.EncodeRoundTrip : Prop :=
  ∀ i : Instr, i.wf = true →
    (∀ w, encodeSeq? i = some w → w < 2 ^ 32 ∧ decodeSeq w = .ok i) ∧
    (∀ w, encodeEntry? i = some w → w < 2 ^ 64 ∧ decodeEntry w = .ok i) ∧
    (∀ ws, encodeCmd? i = some ws → ws.length = 8 ∧ (∀ w ∈ ws, w < 2 ^ 64) ∧ decodeCmd ws = .ok i)

/-- R79: no step leaves a head with anything in its hold: its held stores have drained to memory. -/
def Obligations.HeadsDrain : Prop :=
  ∀ s t : State, HeadsHoldNothing s → step s = .next t → HeadsHoldNothing t

namespace Sys2Proof.Claims

/-- The loads, stores, atomics and fences of the sequencer. -/
def accesses : Instr → Bool
  | .lb .. | .lbn .. | .lh .. | .lhn .. | .lw .. | .lwn .. | .ld .. | .sb .. | .sh .. | .sw .. | .sd .. | .aswp .. | .aadd ..
  | .aand .. | .aor .. | .axor .. | .amin .. | .amax .. | .aminn .. | .amaxn .. | .acas .. | .fence .. => true
  | _ => false

end Sys2Proof.Claims

/-- Memory stays in its canonical form through every load, store, atomic and fence, with the marks that their walks
leave and the aborts that they cause, and through the drains that end a step. -/
def Obligations.MemoryCanonical : Prop :=
  (∀ (i : Instr) (s t : State), accesses i = true → Memory.wf s.mem = true → exec i s = .next t → Memory.wf t.mem = true) ∧
  (∀ s : State, Memory.wf s.mem = true → Memory.wf s.settle.mem = true)

namespace Sys2Proof.Claims

/-! ## The loom (R291 to R295, R299, R301) -/

/-- Clocks of a vector's inputs and of its outputs, and cycles from vector to vector (R301). -/
def loomIn (r : GRunRec) (g : Graph) : Nat := if r.i16 then (g.taps.length + 31) / 32 else (g.taps.length + 63) / 64
def loomOut (g : Graph) : Nat := (g.outs.length + 15) / 16
def loomPace (r : GRunRec) (g : Graph) : Nat := max (loomIn r g) (loomOut g)
/-- Cycles from the start of a `g.run` to its join (R301). -/
def loomJoin (r : GRunRec) (g : Graph) : Nat :=
  if r.vectors.toNat = 0 then 1 else r.window.toNat + loomPace r g * (r.vectors.toNat - 1) + loomOut g
/-- R293, R301, R302: in its window a `g.run` has output beat u of vector v captured on M of the four elements of its port; it
ends at its join. A result that is not yet ready raises 0x11, and an overflow of a vector of a strict graph 0x19. -/
def LoomWindow : Prop :=
  ∀ (s : State) (c : Ctx) (k : BitVec 8) (r : GRunRec),
    let x := s.run c k.toNat
    let g := (s.slot c r.slot.toNat).graph
    let d := s.since c k.toNat
    let w := r.window.toNat
    let v := (d - w) / loomPace r g
    let u := (d - w) % loomPace r g
    x.ins = some (.gRun r) → x.live = true → 0 < loomPace r g →
    (d < (if r.vectors = 0 then 1 else w) → exec (.windowEnd c k) s = .next s) ∧
    (loomJoin r g ≤ d → ∃ t, exec (.windowEnd c k) s = .next t ∧ t.run c k.toNat = { x with st := .ended } ∧
      t = { s with runs := t.runs }) ∧
    (w ≤ d → d < loomJoin r g → loomOut g ≤ u → exec (.windowEnd c k) s = .next s) ∧
    (w ≤ d → d < loomJoin r g → r.vectors ≠ 0 → u < loomOut g → d < loomPace r g * v + loomIn r g + g.depth + 3 →
      ∃ t q, exec (.windowEnd c k) s = .next t ∧ t.faultQ = s.faultQ ++ [q] ∧ q.code = 0x11 ∧ t.runs = s.runs ∧ t.elems = s.elems) ∧
    (w ≤ d → d < loomJoin r g → r.vectors ≠ 0 → u < loomOut g → loomPace r g * v + loomIn r g + g.depth + 3 ≤ d →
      (g.strict = true → mget x.snap v ≠ 0 → ∃ t q, exec (.windowEnd c k) s = .next t ∧ t.faultQ = s.faultQ ++ [q] ∧
        q.code = 0x19 ∧ t.runs = s.runs ∧ t.elems = s.elems) ∧
      (g.strict = false ∨ mget x.snap v = 0 → ∃ t, exec (.windowEnd c k) s = .next t ∧
        (∀ e < 4, (t.elem c (westElem r.port.toNat e)).mNext =
          some ((mget x.latch (4 * (v * loomOut g + u) + e)).getD {}, 32)) ∧
        (∀ n < 512, (∀ e < 4, n ≠ westElem r.port.toNat e) → t.elem c n = s.elem c n) ∧
        t = { s with elems := t.elems, runs := t.runs }))
/-- A value clamped to a width, and whether it has to be (R292). -/
def clampTo (w : Nat) (v : Int) : Int := max (-(2 ^ (w - 1))) (min (2 ^ (w - 1) - 1) v)
def Exceeds (w : Nat) (v : Int) : Prop := v < -(2 ^ (w - 1)) ∨ 2 ^ (w - 1) - 1 < v
/-- The value of an operand, with its poison (R289). -/
def srcVal (tap node : Nat → Int × Bool) : Src → Int × Bool
  | .tap k => tap k
  | .node n => node n
/-- The sum of an add node (R292). -/
def addSum (tap node : Nat → Int × Bool) (n : Node) : Int :=
  (if n.na then -1 else 1) * (srcVal tap node n.a).1 * 2 ^ n.sa + (if n.nb then -1 else 1) * (srcVal tap node n.b).1 * 2 ^ n.sb
/-- The graph names inputs and earlier nodes alone, as `gload` checks (R296). -/
def GraphSound (g : Graph) : Prop :=
  (∀ n (h : n < g.nodes.length), srcOk g.taps.length n g.nodes[n].a = true ∧ srcOk g.taps.length n g.nodes[n].b = true) ∧
  (∀ y ∈ g.outs, srcOk g.taps.length g.nodes.length y = true)
/-- An output scaled in three roundings (R295). -/
def loomScale (y : Int) (sx sw : W32) : W32 :=
  let rn := fun (v : Val) => BitVec.ofNat 32 (roundTo .f32 .rn false 0 v)
  let val := fun (x : W32) => decodeFloat .f32 x.toNat
  rn ((val (rn ((val (rn (ofInt y))).mul (val sx)))).mul (val sw))
/-- What vector v of a `g.run` makes of the beats `got` that were taken for it: `x` and `y` are the command before and after, `ov`
says that a check of the vector overflowed (R292 to R295, R301). -/
def VectorDone (r : GRunRec) (g : Graph) (got : Nat → Cap) (v : Nat) (x y : CmdRun) (ov : Prop) : Prop :=
  let input := fun (i : Nat) =>
    let n := if r.i16 then 8 else 16
    let b := got (4 * (v * loomIn r g + i / (4 * n)) + i / n % 4)
    ((BitVec.ofNat (128 / n) (laneOf (128 / n) b.data (i % n))).toInt, b.laneP (128 / n) (i % n))
  let scale := got (4 * (v * loomIn r g))
  let sx := if r.side then scalesOf scale.side else r.sx
  let sxP := r.side && scale.pq 0
  ∃ (tap node : Nat → Int × Bool),
    (∀ i (h : i < g.taps.length), (tap i).2 = (input i).2 ∧ ((input i).2 = false → (tap i).1 = clampTo g.taps[i] (input i).1)) ∧
    (∀ n (h : n < g.nodes.length), (node n).2 = ((srcVal tap node g.nodes[n].a).2 || (srcVal tap node g.nodes[n].b).2) ∧
      ((node n).2 = false → (node n).1 = clampTo g.nodes[n].w (addSum tap node g.nodes[n]))) ∧
    (ov ↔ (∃ i, ∃ h : i < g.taps.length, (input i).2 = false ∧ Exceeds g.taps[i] (input i).1) ∨
      ∃ n, ∃ h : n < g.nodes.length, (node n).2 = false ∧ Exceeds g.nodes[n].w (addSum tap node g.nodes[n])) ∧
    (∀ u < loomOut g, ∀ e < 4, ∃ b, mget y.latch (4 * (v * loomOut g + u) + e) = some b ∧ scalesOf b.side = 0 ∧ ∀ q < 4,
      let j := 16 * u + 4 * e + q
      (g.outs.length ≤ j → laneOf 32 b.data q = 0 ∧ b.pq q = false) ∧
      (∀ o, g.outs[j]? = some o → b.pq q = ((srcVal tap node o).2 || sxP) ∧
        (b.pq q = false → laneOf 32 b.data q = (loomScale (srcVal tap node o).1 sx (g.scales.getD j 0)).toNat))) ∧
    (∀ j, (j < 4 * (v * loomOut g) ∨ 4 * ((v + 1) * loomOut g) ≤ j) → mget y.latch j = mget x.latch j) ∧
    (ov → mget y.snap v = 1) ∧ (¬ ov → mget y.snap v = mget x.snap v) ∧ y.done = v + 1
/-- R291 to R295, R299, R301: a `g.run` takes the results of its port's four elements at each input clock of a vector; with the last of
them the vector is evaluated: its taps and nodes are checked, its results wait in the latch, and an overflow sets the sticky
flag of the slot. An uncorrectable node word of the graph raises 0x30 and frees the slot. At any other time it takes nothing. -/
def LoomVector : Prop :=
  ∀ (s : State) (c : Ctx) (k : Nat) (r : GRunRec),
    let x := s.run c k
    let sl := s.slot c r.slot.toNat
    let g := sl.graph
    let d := s.since c k
    let ci := loomIn r g
    let v := d / loomPace r g
    let n := d % loomPace r g
    let res := fun (e : Nat) => (s.elem c (westElem r.port.toNat e)).res
    let t := s.takeCmd c k
    let y := t.run c k
    x.ins = some (.gRun r) → x.live = true → 0 < loomPace r g → GraphSound g →
    (∀ e < 4, (s.elem c (westElem r.port.toNat e)).resU ≤ (s.islOf c (westElem r.port.toNat e)).abs) →
    (r.vectors.toNat ≤ v ∨ ci ≤ n → t = s) ∧
    (v < r.vectors.toNat → n + 1 < ci → t = { s with runs := t.runs, free := t.free } ∧ y = { x with taken := y.taken } ∧
      ∀ j, mget y.taken j = if 4 * (v * ci + n) ≤ j ∧ j < 4 * (v * ci + n) + 4 then some (res (j % 4)) else mget x.taken j) ∧
    (v < r.vectors.toNat → n + 1 = ci → ∃ ov,
      VectorDone r g (fun j => if 4 * (v * ci + n) ≤ j then res (j % 4) else (mget x.taken j).getD {}) v x y ov ∧
      ((∀ e ∈ s.errs, e.hard = true → nodeLine c r.slot.toNat g.nodes.length e = false) →
        t = { s with slots := t.slots, runs := t.runs, free := t.free } ∧
        (ov → t.slot c r.slot.toNat = { sl with sticky := true }) ∧ (¬ ov → t.slots = s.slots)) ∧
      (∀ e ∈ s.errs, e.hard = true → nodeLine c r.slot.toNat g.nodes.length e = true →
        ∃ q, t.faultQ = s.faultQ ++ [q] ∧ q.code = 0x30 ∧ (t.slot c r.slot.toNat).resident = false))

end Sys2Proof.Claims

/-- What a running `g.run` takes, evaluates and delivers (an island's cycle applies `takeCmd` to each of its
commands). The values of poisoned taps and nodes are free (log entry 22), and the address of an uncorrectable node
word is its offset (log entry 49). -/
def Obligations.LoomResults : Prop := LoomWindow ∧ LoomVector

namespace Sys2Proof.Claims

/-! ## What streams and wharf nodes move (R239, R242 to R249, R253) -/

/-- An engine of a context reads n bytes of one granule at a virtual address without a stop, at a physical address pa: through
the extents, or (`virt`) by a translation that the TLBs hold (R241, R243, R256). -/
def EngSees (s : State) (c : Ctx) (virt : Bool) (va n pa : Nat) : Prop :=
  let t := s.task (s.taskAt c)
  va % 64 + n ≤ 64 ∧ t.laidByte va n = false ∧ s.hardMem pa = false ∧ s.checkOk (pa / 64) = true ∧
  ∃ tag, if virt = true then s.translate t.ctx t.tenant t.owner false .load va = (s, .ok pa false false tag)
    else pteBit (mget t.extents (va / 65536)).toNat 0 = true ∧ s.extAcc t .load va = .ok pa false false tag
/-- A head's engine writes n bytes of one granule there without a stop, and no task has read of the granule. -/
def EngWrites (s : State) (c : Ctx) (virt : Bool) (va n pa : Nat) : Prop :=
  let t := s.task (s.taskAt c)
  va % 64 + n ≤ 64 ∧ t.laidGranule va = false ∧ s.hardMem pa = false ∧ s.checkOk (pa / 64) = true ∧
  s.victims (s.taskAt c) [pa / 64] [] = [] ∧
  ∃ p dead tag, if virt = true then s.translate t.ctx t.tenant t.owner false .store va = (s, .ok pa p dead tag)
    else pteBit (mget t.extents (va / 65536)).toNat 0 = true ∧ s.extAcc t .store va = .ok pa p dead tag
/-- What the task of a context sees at a physical address: n bytes as a number. -/
def engSeen (s : State) (c : Ctx) (pa n : Nat) : Nat := leVal (s.taskBytes (s.taskAt c) pa n)
/-- Bytes of an element, and elements of a beat (R236, R239). -/
def elemBytes (r : StreamRec) : Nat := 2 ^ r.esize.toNat
def perBeat (r : StreamRec) : Nat := if r.esize.toNat < 4 then 16 / elemBytes r else 1
/-- Element f of a nest lies in beat b (R239). -/
def InBeat (r : StreamRec) (n b f : Nat) : Prop := b * perBeat r ≤ f ∧ f < n ∧ f < (b + 1) * perBeat r
/-- Byte i of lane k of a beat, as a store writes it: esize 5 has the data, the scale bytes and zeros (R236, R242). -/
def laneByte (r : StreamRec) (v : Cap) (k i : Nat) : Byte :=
  if r.esize = 5 then (if i < 16 then BitVec.ofNat 8 (v.data.toNat / 256 ^ i)
    else if i < 20 then BitVec.ofNat 8 ((scalesOf v.side).toNat / 256 ^ (i - 16)) else 0)
  else BitVec.ofNat 8 (v.data.toNat / 256 ^ (k * elemBytes r + i))
/-- Memory after the stores of a beat, lane after lane: lane f stores n bytes at `at' f`, its byte i being `b f i`. -/
def LanesStored (s t : State) (mine : Nat → Prop) (n : Nat) (at' : Nat → Nat) (b : Nat → Nat → Byte) : Prop :=
  (∀ f i, mine f → i < n → (∀ g, mine g → f < g → ¬ (at' g ≤ at' f + i ∧ at' f + i < at' g + n)) → t.byte (at' f + i) = b f i) ∧
  (∀ y, (∀ f, mine f → ¬ (at' f ≤ y ∧ y < at' f + n)) → t.byte y = s.byte y)
/-- The address that an index of an indirect stream names lies in the stream's range with its element (R243). -/
def IndexAt (s : State) (c : Ctx) (k : Nat) (r : StreamRec) (ix : Nat) (va : Nat) : Prop :=
  (va : Int) = s.sBase c k r + ix * r.l1.stride.toInt ∧ (s.sRange c k 6).1 ≤ va ∧ va + elemBytes r ≤ (s.sRange c k 6).2
/-- R239, R242: beat b of an `s.in` has in lane k what the task sees at the address of element b·e + k, and zero beyond the nest; a
scaled beat has its stored scale bytes. -/
def StreamInBeats : Prop :=
  ∀ (s : State) (c : Ctx) (k : BitVec 8) (r : StreamRec) (pa : Nat → Nat),
    let x := s.run c k.toNat
    let b := x.done
    let n := nestN (StreamRec.levels r false)
    x.ins = some (.sIn r) → x.tries = true → s.latched c (portElem r.port.toNat r.edge) < 2048 → b * perBeat r < n → x.part = [] →
    r.esize.toNat ≤ 5 →
    (∀ f, InBeat r n b f →
      EngSees s c false (addOff (s.sBase c k.toNat r) (nestOff (StreamRec.levels r false) f)) (elemBytes r) (pa f)) →
    ∃ t v, exec (.streamReadArrives c k) s = .next t ∧ (t.run c k.toNat).done = b + 1 ∧ mget (t.run c k.toNat).latch b = some v ∧
      poisonOf v.side = 0 ∧
      (r.esize ≠ 5 → scalesOf v.side = 0 ∧ ∀ j < perBeat r, laneOf (8 * elemBytes r) v.data j =
        if b * perBeat r + j < n then engSeen s c (pa (b * perBeat r + j)) (elemBytes r) else 0) ∧
      (r.esize = 5 → v.data.toNat = engSeen s c (pa b) 16 ∧ (scalesOf v.side).toNat = engSeen s c (pa b + 16) 4)
/-- R239, R242, R244: the lanes of a beat that an `s.out` of a head has taken are stored at the addresses of their elements, in
order; a beat of an `s.copy` is what its task sees at the source. -/
def StreamOutBeats : Prop :=
  (∀ (s : State) (c : Ctx) (k : BitVec 8) (r : StreamRec) (v : Cap) (pa : Nat → Nat),
    let x := s.run c k.toNat
    let b := x.done
    let n := nestN (StreamRec.levels r false)
    x.ins = some (.sOut r) → x.tries = true → mget x.taken b = some v → x.f ≤ b * perBeat r → s.isHead (s.taskAt c) = true →
    r.esize.toNat ≤ 5 →
    (∀ f, InBeat r n b f →
      EngWrites s c false (addOff (s.sBase c k.toNat r) (nestOff (StreamRec.levels r false) f)) (elemBytes r) (pa f)) →
    ∃ t, exec (.writeBeatAccepted c k) s = .next t ∧ (t.run c k.toNat).done = b + 1 ∧ (t.run c k.toNat).st = .running ∧
      LanesStored s t (InBeat r n b) (elemBytes r) pa (fun f => laneByte r v (f - b * perBeat r))) ∧
  (∀ (s : State) (c : Ctx) (k : BitVec 8) (r : StreamRec) (src dst : Nat → Nat),
    let x := s.run c k.toNat
    let b := x.done
    let n := nestN (StreamRec.levels r true)
    x.ins = some (.sCopy r) → x.tries = true → b * perBeat r < n → x.part = [] → mget x.taken b = none → x.f ≤ b * perBeat r →
    s.isHead (s.taskAt c) = true → r.esize.toNat ≤ 5 →
    (∀ f, InBeat r n b f →
      EngSees s c false (addOff (s.sBase c k.toNat r) (nestOff (StreamRec.levels r true) f)) (elemBytes r) (src f) ∧
      EngWrites s c false (addOff (s.sDst c k.toNat r) (nestOff (StreamRec.levels r true) f)) (elemBytes r) (dst f)) →
    ∃ t, exec (.writeBeatAccepted c k) s = .next t ∧ (t.run c k.toNat).done = b + 1 ∧ (t.run c k.toNat).st = .running ∧
      LanesStored s t (InBeat r n b) (elemBytes r) dst (fun f i => if r.esize = 5 ∧ 20 ≤ i then 0
        else BitVec.ofNat 8 (engSeen s c (src f) (elemBytes r) / 256 ^ i)))
/-- R243: lane k of a result beat of an `s.gath` is what the task sees at base + index x s1; a poisoned index lane gives a poisoned
zero. The data lanes of an `s.scat` of a head are stored there. An address outside the range ends the gang with 0x0A. -/
def IndirectBeats : Prop :=
  (∀ (s : State) (c : Ctx) (k : BitVec 8) (r : StreamRec) (ix va pa : Nat → Nat) (p : Nat → Bool),
    let x := s.run c k.toNat
    let b := x.done
    let m := perBeat r
    x.ins = some (.sGath r) → x.tries = true → s.latched c (portElem r.port.toNat r.edge) < 2048 → r.esize = 2 ∨ r.esize = 4 →
    b < StreamRec.dataBeats r → x.part = [] →
    (∀ q < m, x.index (m * b + q) = some (ix q, p q) ∧
      (p q = false → IndexAt s c k.toNat r (ix q) (va q) ∧ EngSees s c true (va q) (elemBytes r) (pa q))) →
    ∃ t v, exec (.streamReadArrives c k) s = .next t ∧ (t.run c k.toNat).done = b + 1 ∧ mget (t.run c k.toNat).latch b = some v ∧
      scalesOf v.side = 0 ∧ (∀ q < m, laneOf (8 * elemBytes r) v.data q = if p q = true then 0 else engSeen s c (pa q) (elemBytes r)) ∧
      (∀ q < 4, v.pq q = p (if r.esize = 4 then 0 else q))) ∧
  (∀ (s : State) (c : Ctx) (k : BitVec 8) (r : StreamRec) (ix : Nat),
    let x := s.run c k.toNat
    x.ins = some (.sGath r) → x.tries = true → s.latched c (portElem r.port.toNat r.edge) < 2048 → r.esize = 2 ∨ r.esize = 4 →
    x.done < StreamRec.dataBeats r → x.part = [] → x.index (perBeat r * x.done) = some (ix, false) →
    (∀ q < perBeat r, (x.index (perBeat r * x.done + q)).isSome = true) → (∀ va, ¬ IndexAt s c k.toNat r ix va) →
    ∃ t q, exec (.streamReadArrives c k) s = .next t ∧ t.faultQ = s.faultQ ++ [q] ∧ q.code = 0x0A ∧ q.ended = true ∧
      t.mem = s.mem ∧ t.run c k.toNat = x) ∧
  (∀ (s : State) (c : Ctx) (k : BitVec 8) (r : StreamRec) (v : Cap) (ix va pa : Nat → Nat),
    let x := s.run c k.toNat
    let b := x.done
    let m := perBeat r
    x.ins = some (.sScat r) → x.tries = true → mget x.taken b = some v → x.f ≤ m * b → s.isHead (s.taskAt c) = true →
    r.esize = 2 ∨ r.esize = 4 →
    (∀ q < m, (∃ p, x.index (m * b + q) = some (ix q, p)) ∧ IndexAt s c k.toNat r (ix q) (va q) ∧
      EngWrites s c true (va q) (elemBytes r) (pa q)) →
    ∃ t, exec (.writeBeatAccepted c k) s = .next t ∧ (t.run c k.toNat).done = b + 1 ∧ (t.run c k.toNat).st = .running ∧
      LanesStored s t (fun q => q < m) (elemBytes r) pa (fun q => laneByte r v q))
/-- Bit b of beat m of a row in south element col, from the row's bytes: bit 16 j + i is bit p0 + j of the encoding of K-element
16 col + i, and of the second row of a pair of E2M1 rows for j of 4 and more (R62). -/
def planeBit (pfmt : BitVec 2) (row : Nat → Byte) (col m b : Nat) : Bool :=
  let j := b / 16
  let e := 16 * col + b % 16
  if pfmt = 1 then (row (2 * e + m)).getLsbD j
  else if pfmt = 0 then (row e).getLsbD j
  else (row (256 * (j / 4) + e / 2)).getLsbD (4 * (e % 2) + j % 4)
/-- The physical bank address of a logical one under a span code (R64). -/
def spanned (code a : Nat) : Nat :=
  let sp := 16 * 2 ^ code
  a ^^^ (16 * (a / sp % (sp / 16)))
/-- R62, R64, R245: a plane-mode `s.in` whose lines it may write puts the row of its next iteration, transposed, on its way into the
banks of the south row, with the span code of the record. -/
def PlaneRows : Prop :=
  ∀ (s : State) (c : Ctx) (k : BitVec 8) (r : StreamRec) (pa : Nat → Nat),
    let x := s.run c k.toNat
    let f := x.done
    let ls := StreamRec.levels r false
    let len := if r.pfmt = 1 then 1024 else 512
    let per := if r.pfmt = 1 then 2 else 1
    let phys := fun (m : Nat) => spanned r.span.toNat ((r.bank.toNat + 16 * per * f + 16 * m) % 65536)
    x.ins = some (.sInPlane r) → x.tries = true → r.pfmt ≠ 3 → f < nestN ls → x.part = [] →
    (∀ i < len, EngSees s c false (addOff (s.sBase c k.toNat r) (nestOff ls f) + i) 1 (pa i)) →
    (∀ col < 32, ∀ m < per, s.bankChk c (southElem col) (phys m) = .ok) →
    ∃ (t : State) (beat : Nat → Nat → W128), exec (.streamReadArrives c k) s = .next t ∧ (t.run c k.toNat).done = f + 1 ∧ t.mem = s.mem ∧
      t.planeQ = s.planeQ ++ (List.range 32).flatMap (fun col => (List.range per).map (fun m =>
        { c := c, e := southElem col, a := phys m, span := r.span, pfmt := r.pfmt, v := beat col m })) ∧
      ∀ col < 32, ∀ m < per, ∀ b < 128,
        (beat col m).getLsbD b = planeBit r.pfmt (fun i => BitVec.ofNat 8 (engSeen s c (pa i) 1)) col m b

end Sys2Proof.Claims

/-- What the beats of streams hold, and where they are stored (R239, R242 to R245). -/
def Obligations.StreamContents : Prop := StreamInBeats ∧ StreamOutBeats ∧ IndirectBeats ∧ PlaneRows

namespace Sys2Proof.Claims

/-- R249: a slot of a `wh.filt` holds the lanes of its source beat between the bounds, zero in the others, and the mask of the lanes
that it holds; of a beat of a poisoned page every lane is selected and poisoned. -/
def FilterSlots : Prop :=
  ∀ (s : State) (c : Ctx) (k : BitVec 8) (r : WhFiltRec) (pa : Nat),
    let x := s.run c k.toNat
    let b := x.done
    let va := addOff (s.vaOf c k.toNat 6 r.base) (nestOff [r.l1, r.l2, r.l3] b)
    let w := r.ty.width
    x.ins = some (.whFilt r) → x.tries = true → s.latched c (portElem r.port.toNat r.edge) < 2048 → b < nestN [r.l1, r.l2, r.l3] →
    va % 16 = 0 →
    (EngSees s c false va 16 pa →
      let lane := fun i => engSeen s c pa 16 / 2 ^ (w * i) % 2 ^ w
      let sel := fun i => relLane r.ty .le (r.lo.toNat % 2 ^ w) (lane i) && relLane r.ty .le (lane i) (r.hi.toNat % 2 ^ w)
      ∃ t v, exec (.streamReadArrives c k) s = .next t ∧ (t.run c k.toNat).done = b + 1 ∧ mget (t.run c k.toNat).latch b = some v ∧
        poisonOf v.side = 0 ∧ Lanes w r.ty.lanes v.data (fun i => if sel i then lane i else 0) ∧
        ∀ i < 32, (scalesOf v.side).getLsbD i = (decide (i < r.ty.lanes) && sel i)) ∧
    (∀ tag, pteBit (mget (s.task (s.taskAt c)).extents (va / 65536)).toNat 0 = true → (s.task (s.taskAt c)).laidByte va 16 = false →
      s.extAcc (s.task (s.taskAt c)) .load va = .ok pa true false tag →
      ∃ t v, exec (.streamReadArrives c k) s = .next t ∧ (t.run c k.toNat).done = b + 1 ∧ mget (t.run c k.toNat).latch b = some v ∧
        v.data = 0 ∧ poisonOf v.side = 15 ∧ ∀ i < 32, (scalesOf v.side).getLsbD i = decide (i < r.ty.lanes))
/-- Lanes of a row of a `wh.red`, and one of its lanes widened to 32 bits (R247, R248). -/
def rowLanes (r : WhRedRec) : Nat := r.row.toNat / redBytes r.ty
def rowLane (s : State) (c : Ctx) (r : WhRedRec) (pa : Nat → Nat) (l : Nat) : W32 :=
  let n := redBytes r.ty
  let v := leVal ((List.range n).map (fun i => BitVec.ofNat 8 (engSeen s c (pa (n * l + i)) 1)))
  BitVec.ofNat 32 (if r.ty = .bf16 then v * 65536 else v)
/-- R248: each step of a `wh.red` reads the next index of its bag and adds the row that it names to the bag's lanes; a row outside the
range ends the gang with 0x0A. -/
def ReducerRows : Prop :=
  ∀ (s : State) (c : Ctx) (k : BitVec 8) (r : WhRedRec) (pi : Nat) (pa : Nat → Nat),
    let x := s.run c k.toNat
    let pos := x.done * r.inds.count.toNat + x.f
    let row : Int := s.vaOf c k.toNat 6 r.table + engSeen s c pi 4 * r.inds.stride.toInt
    let range := s.sRange c k.toNat 6
    x.ins = some (.whRed r) → x.tries = true → x.done < r.bags.count.toNat → x.f < r.inds.count.toNat → x.part = [] →
    EngSees s c false (s.vaOf c k.toNat 3 r.idx + 4 * pos) 4 pi →
    ((range.1 : Int) ≤ row → row + r.row.toNat ≤ range.2 → (∀ i < r.row.toNat, EngSees s c false (row.toNat + i) 1 (pa i)) →
      r.row.toNat % redBytes r.ty = 0 → (0 < x.f → x.acc.length = rowLanes r) →
      ∃ t, exec (.streamReadArrives c k) s = .next t ∧ (t.run c k.toNat).f = x.f + 1 ∧ (t.run c k.toNat).done = x.done ∧
        (t.run c k.toNat).acc.length = rowLanes r ∧ (∀ l < rowLanes r, (t.run c k.toNat).acc.getD l 0 =
          if x.f = 0 then rowLane s c r pa l
          else if r.ty = .i32 then x.acc.getD l 0 + rowLane s c r pa l
          else BitVec.ofNat 32 (roundTo .f32 .rn false 0
            ((decodeFloat .f32 (x.acc.getD l 0).toNat).add (decodeFloat .f32 (rowLane s c r pa l).toNat)))) ∧
        (x.f = 0 ∨ (∀ q ∈ x.accPoison, q = false) → ∀ q ∈ (t.run c k.toNat).accPoison, q = false) ∧ t.mem = s.mem) ∧
    (row < range.1 ∨ (range.2 : Int) < row + r.row.toNat → ∃ t q, exec (.streamReadArrives c k) s = .next t ∧
      t.faultQ = s.faultQ ++ [q] ∧ q.code = 0x0A ∧ q.ended = true ∧ t.mem = s.mem)
/-- R77, R80, R248, R265: after the last index of a bag a `wh.red` records its lanes as one intent for the bag's destination, zeros
for a bag without indices, and goes on to the next bag; after the last bag the increment of its completion word follows and
the command ends. -/
def ReducerBags : Prop :=
  ∀ (s : State) (c : Ctx) (k : BitVec 8) (r : WhRedRec),
    let x := s.run c k.toNat
    let b := x.done
    let id := s.taskAt c
    let m := r.inds.count.toNat
    let need := (4 * rowLanes r + 63) / 64
    let cw := s.vaOf c k.toNat 5 r.cw
    x.ins = some (.whRed r) → x.tries = true → b < r.bags.count.toNat → m ≤ x.f → (s.task id).slots + need ≤ 32768 →
    ∃ t i rest, exec (.streamReadArrives c k) s = .next t ∧ (t.task id).intents = (s.task id).intents ++ i :: rest ∧
      i.cmd = k.toNat ∧ i.pos = b ∧ i.slots = need ∧
      i.kind = .red (addOff (s.vaOf c k.toNat 4 r.dst) (b * r.bags.stride.toInt))
        (if m = 0 then List.replicate (rowLanes r) 0 else x.acc) (m != 0 && x.accPoison.contains true) r.merge r.ty ∧
      (t.run c k.toNat).done = b + 1 ∧ (t.run c k.toNat).f = 0 ∧ t.mem = s.mem ∧
      (b + 1 < r.bags.count.toNat → rest = [] ∧ (t.run c k.toNat).st = .running) ∧
      (b + 1 = r.bags.count.toNat → (t.run c k.toNat).st = .ended ∧ (cw = 0 → rest = []) ∧
        (cw ≠ 0 → ∃ w, rest = [w] ∧ w.kind = .inc cw r.scope ∧ w.slots = 0))

end Sys2Proof.Claims

/-- What the wharf nodes read and make of it: slots of a filter, rows and bags of a reducer. -/
def Obligations.WharfResults : Prop := FilterSlots ∧ ReducerRows ∧ ReducerBags

namespace Sys2Proof.Claims

/-! ## What the camera engine finds (R312 to R326) -/

/-- Row i of the 3 x 4 matrix of a camera register from field `base`, applied to a point (R317). -/
def matrixRow (f : SMap W32) (base i : Nat) (a b c : W32) : W32 :=
  let m := fun j => mget f (base + 4 * i + j)
  fAdd (fAdd (fAdd (fMul (m 0) a) (fMul (m 1) b)) (fMul (m 2) c)) (m 3)
/-- Tokens of a camera's image across and down, and its patch (R309, R310). -/
def patch (f : SMap W32) : Nat := (mget f 30).toNat
def across (f : SMap W32) : Nat := (mget f 28).toNat / patch f
def down (f : SMap W32) : Nat := (mget f 29).toNat / patch f
/-- Coordinate a of the ray point of token t at a depth (R317). -/
def rayAt (f : SMap W32) (t : Nat) (d : W32) (a : Nat) : W32 :=
  let mid := fun (n : Nat) => rn32 (.fin false ((2 * n + 1) * patch f) (-1) false)
  let xn := fMul (fSub (mid (t % across f)) (mget f 26)) (mget f 24)
  let yn := fMul (fSub (mid (t / across f)) (mget f 27)) (mget f 25)
  matrixRow f 12 a (fMul xn d) (fMul yn d) d
/-- A value lies in the unit interval that begins at an integer. -/
def Floors (v : Val) (n : Int) : Prop := (ofInt n).le v = true ∧ v.lt (ofInt (n + 1)) = true
/-- The cell q of a store holds a point (R317). -/
def CellAt (x : Store) (w : Nat → W32) (q : Int × Int × Int) : Prop :=
  ∀ a, ∀ n, (a, n) ∈ [(0, q.1), (1, q.2.1), (2, q.2.2)] → Floors (f32 (fMul (fSub (w a) (x.origin.getD a 0)) x.icell)) n ∧
    -(2 ^ 20) ≤ n ∧ n ≤ 2 ^ 20 - 1 ∧ x.low.getD a 0 ≤ n ∧ n ≤ x.high.getD a 0
/-- Slot n of a store's table is taken, by a brick (R315). -/
def SlotTaken (s : State) (x : Store) (n : Nat) : Prop := s.word (x.table + 16 * n) / 2 ^ 63 = 1
def SlotHolds (s : State) (x : Store) (n : Nat) (b : Int × Int × Int) : Prop :=
  SlotTaken s x n ∧ ((s.word (x.table + 16 * n) % 2 ^ 21 : Nat) : Int) = b.1 % 2 ^ 21 ∧
  ((s.word (x.table + 16 * n) / 2 ^ 21 % 2 ^ 21 : Nat) : Int) = b.2.1 % 2 ^ 21 ∧
  ((s.word (x.table + 16 * n) / 2 ^ 42 % 2 ^ 21 : Nat) : Int) = b.2.2 % 2 ^ 21
/-- Slot of probe i for a brick, and the brick that a lookup finds (R315). -/
def probeSlot (x : Store) (b : Int × Int × Int) (i : Nat) : Nat :=
  let key := (b.2.2 % 2 ^ 21).toNat * 2 ^ 42 + (b.2.1 % 2 ^ 21).toNat * 2 ^ 21 + (b.1 % 2 ^ 21).toNat
  ((if x.tlog = 0 then 0 else key * 0x9E3779B97F4A7C15 % 2 ^ 64 / 2 ^ (64 - x.tlog)) + i) % 2 ^ x.tlog
def BrickFound (s : State) (x : Store) (b : Int × Int × Int) (n : Nat) : Prop :=
  ∃ i < 16, SlotHolds s x (probeSlot x b i) b ∧ n = s.word (x.table + 16 * probeSlot x b i + 8) % 2 ^ 24 ∧
    ∀ j < i, SlotTaken s x (probeSlot x b j) ∧ ¬ SlotHolds s x (probeSlot x b j) b
/-- A point lies in a cell of a present brick that is occupied with enough confidence: the cell's address (R314, R320). -/
def HitAt (s : State) (x : Store) (w : Nat → W32) (least a : Nat) : Prop :=
  ∃ q n, CellAt x w q ∧ BrickFound s x (q.1 / 8, q.2.1 / 8, q.2.2 / 8) n ∧
    a = x.pool + n * 512 * (8 + 2 * x.nf) + (8 + 2 * x.nf) * ((q.1 % 8).toNat + 8 * (q.2.1 % 8).toNat + 64 * (q.2.2 % 8).toNat) ∧
    (s.byte a).getLsbD 0 = true ∧ least ≤ (s.byte (a + 1)).toNat
/-- Every page of a store, up to a physical address that lies behind its table and its bricks, is mapped for an engine of a
context, and reads soundly. -/
def StoreSeen (s : State) (c : Ctx) (x : Store) (top : Nat) : Prop :=
  let t := s.task (s.taskAt c)
  x.desc ≤ x.table ∧ x.table + 16 * 2 ^ x.tlog ≤ top ∧ x.desc ≤ x.pool ∧ x.pool % 64 = 0 ∧ x.desc % 64 = x.va % 64 ∧
  (∀ n < 2 ^ x.tlog, SlotTaken s x n →
    x.pool + (s.word (x.table + 16 * n + 8) % 2 ^ 24 + 1) * 512 * (8 + 2 * x.nf) ≤ top) ∧
  ∀ a, x.desc ≤ a → a < top → pteBit (mget t.extents ((x.va + (a - x.desc)) / 65536)).toNat 0 = true ∧
    (∃ tag, s.extAccM t true .load (x.va + (a - x.desc)) = .ok a false false tag) ∧ s.hardMem a = false ∧ s.checkOk (a / 64) = true
/-- The beats of token f of a gather: features, depth, flags, confidence, view and stamp of its cell, version, and poison
(R320). -/
def Delivered (x : Store) (y : CmdRun) (f : Nat) (feat : Nat → Byte) (d : W32) (flags conf view stamp : Nat) (p : BitVec 4) : Prop :=
  let n := 2 * x.nf / 16
  ∀ j ≤ n, ∃ b, mget y.latch (f * (n + 1) + j) = some b ∧ scalesOf b.side = 0 ∧ poisonOf b.side = p ∧
    (j < n → ∀ i < 16, BitVec.ofNat 8 (b.data.toNat / 256 ^ i) = feat (16 * j + i)) ∧
    (j = n → laneOf 32 b.data 0 = d.toNat ∧ laneOf 32 b.data 1 = flags + 256 * conf + 65536 * view ∧
      laneOf 32 b.data 2 = stamp ∧ laneOf 32 b.data 3 = (mget y.snap 35).toNat)
/-- The token beats when the samples `d 0` to `d (n - 1)` of token t are cast: those of the first hit, or the store's fill
(R318, R320). -/
def Marched (s : State) (x : Store) (y : CmdRun) (f t least n : Nat) (d : Nat → W32) : Prop :=
  let w := fun k => rayAt y.snap t (d k)
  (∀ k a, k < n → HitAt s x (w k) least a → (∀ j < k, ∀ a', ¬ HitAt s x (w j) least a') →
    Delivered x y f (fun i => s.byte (a + 8 + i)) (d k) 1 (s.byte (a + 1)).toNat (s.byte (a + 5)).toNat
      ((s.byte (a + 2)).toNat + 256 * (s.byte (a + 3)).toNat + 65536 * (s.byte (a + 4)).toNat) 0) ∧
  ((∀ k < n, ∀ a, ¬ HitAt s x (w k) least a) →
    ((∃ k < n, ∃ q, CellAt x (w k) q) → Delivered x y f (fun i => s.byte (x.desc + 128 + i)) 0x7F800000#32 2 0 0 0 0) ∧
    ((∀ k < n, ∀ q, ¬ CellAt x (w k) q) → Delivered x y f (fun i => s.byte (x.desc + 128 + i)) 0x7F800000#32 4 0 0 0 0))
/-- R317 to R322: the beats of the next token of a `cam.gath` over a store that reads soundly, in MARCH mode by the samples from near
to far, and in DEPTH mode by the three samples around the depth of its lane. An invalid token has the fill, and one with a
poisoned depth lane has it poisoned. -/
def CameraGathers : Prop :=
  ∀ (s : State) (c : Ctx) (k : BitVec 8) (r : CamRec) (top : Nat),
    let y := s.run c k.toNat
    let f := y.done
    let x := s.storeOf c r
    let tok : Int := (r.tok.toNat : Int) + nestOff [r.l1, r.l2, r.l3, r.l4, r.l5] f
    let valid := 0 ≤ tok ∧ tok < across y.snap * down y.snap
    let fill := fun i => s.byte (x.desc + 128 + i)
    let done := fun (t : State) => exec (.streamReadArrives c k) s = .next t ∧ (t.run c k.toNat).done = f + 1 ∧ t.mem = s.mem ∧
      (t.run c k.toNat).snap = y.snap
    y.tries = true → s.latched c (portElem r.port.toNat r.edge) < 2048 → f < nestN [r.l1, r.l2, r.l3, r.l4, r.l5] → StoreSeen s c x top →
    (y.ins = some (.camGath r) →
      (¬ valid → ∃ t, done t ∧ Delivered x (t.run c k.toNat) f fill 0x7F800000#32 12 0 0 0 0) ∧
      (∀ n, valid → let d := fun j => fAdd (mget y.snap 31) (fMul (rn32 (ofInt (j : Nat))) (mget y.snap 33))
        let near := fun j => (f32 (d j)).le (f32 (mget y.snap 32))
        n ≤ r.steps1.toNat + 1 → (∀ j < n, near j = true) → (n = r.steps1.toNat + 1 ∨ near n = false) →
        ∃ t, done t ∧ Marched s x (t.run c k.toNat) f tok.toNat r.thr.toNat n d)) ∧
    (∀ v, y.ins = some (.camGathDepth r) → mget y.idx (f / 4) = some v →
      let d : W32 := BitVec.ofNat 32 (laneOf 32 v.data (f % 4))
      let e := fDiv (rn32 (ofInt 1)) x.icell
      (¬ valid → v.pq (f % 4) = false → ∃ t, done t ∧ Delivered x (t.run c k.toNat) f fill 0x7F800000#32 12 0 0 0 0) ∧
      (valid → v.pq (f % 4) = true → ∃ t, done t ∧ Delivered x (t.run c k.toNat) f fill 0x7F800000#32 4 0 0 0 15) ∧
      (valid → v.pq (f % 4) = false → ∃ t, done t ∧ Marched s x (t.run c k.toNat) f tok.toNat r.thr.toNat 3
        (fun j => if j = 0 then fSub d e else if j = 1 then d else fAdd d e)))
/-- R77, R323: when the beats of the next token of a `cam.scat` have been taken and there is room, a valid token whose point at its
depth lies in a cell of the store leaves one intent in the hold, for that cell, with the features, confidence, stamp, view
and merge; any other leaves none. Memory does not change. -/
def CameraScatters : Prop :=
  ∀ (s : State) (c : Ctx) (k : BitVec 8) (r : CamRec) (b : Nat → Cap),
    let y := s.run c k.toNat
    let f := y.done
    let id := s.taskAt c
    let x := s.storeOf c r
    let n := 2 * x.nf / 16
    let tok : Int := (r.tok.toNat : Int) + nestOff [r.l1, r.l2, r.l3, r.l4, r.l5] f
    let d : W32 := BitVec.ofNat 32 (laneOf 32 (b n).data 0)
    let w := rayAt y.snap tok.toNat d
    let valid := 0 ≤ tok ∧ tok < across y.snap * down y.snap ∧ (f32 d).isNan = false
    let need := (16 + 2 * x.nf + 63) / 64
    y.ins = some (.camScat r) → y.tries = true → f < nestN [r.l1, r.l2, r.l3, r.l4, r.l5] →
    (∀ j ≤ n, mget y.taken (f * (n + 1) + j) = some (b j)) → (s.task id).slots + need ≤ 32768 →
    (∀ q, valid → CellAt x w q → ∃ t i feats, exec (.writeBeatAccepted c k) s = .next t ∧ (t.run c k.toNat).done = f + 1 ∧
      t.mem = s.mem ∧ (t.task id).intents = (s.task id).intents ++ [i] ∧ i.cmd = k.toNat ∧ i.pos = f ∧ i.slots = need ∧
      i.kind = .scat x.desc q.1 q.2.1 q.2.2 feats (BitVec.ofNat 8 (laneOf 8 (b n).data 4)) (BitVec.ofNat 24 (s.task id).ts.toNat)
        (BitVec.ofNat 8 (mget y.snap 34).toNat) r.merge ∧
      feats.length = 8 * n ∧ ∀ j < n, ∀ q < 8, (feats.getD (8 * j + q) 0).toNat = laneOf 16 (b j).data q) ∧
    (¬ valid ∨ (∀ q, ¬ CellAt x w q) → ∃ t, exec (.writeBeatAccepted c k) s = .next t ∧ (t.run c k.toNat).done = f + 1 ∧
      t.mem = s.mem ∧ t.tasks = s.tasks)
/-- R317, R326: the result of a point of a `cam.proj` is its image position, its depth and the token that holds it, or all ones where
none does. -/
def CameraProjects : Prop :=
  ∀ (s : State) (c : Ctx) (k : BitVec 8) (r : CamRec) (v : Cap),
    let y := s.run c k.toNat
    let g := y.snap
    let l := fun i => BitVec.ofNat 32 (laneOf 32 v.data i)
    let xc := matrixRow g 0 0 (l 0) (l 1) (l 2)
    let yc := matrixRow g 0 1 (l 0) (l 1) (l 2)
    let zc := matrixRow g 0 2 (l 0) (l 1) (l 2)
    let u := fAdd (fDiv (fDiv xc zc) (mget g 24)) (mget g 26)
    let w := fAdd (fDiv (fDiv yc zc) (mget g 25)) (mget g 27)
    let zero := Val.fin false 0 0 false
    let inside := zero.lt (f32 zc) = true ∧ zero.le (f32 u) = true ∧ (f32 u).lt (ofInt (across g * patch g : Nat)) = true ∧
      zero.le (f32 w) = true ∧ (f32 w).lt (ofInt (down g * patch g : Nat)) = true
    y.ins = some (.camProj r) → y.tries = true → s.latched c (portElem r.port.toNat r.edge) < 2048 →
    y.done < nestN [r.l1, r.l2, r.l3, r.l4, r.l5] → mget y.idx y.done = some v →
    ∃ t b, exec (.streamReadArrives c k) s = .next t ∧ (t.run c k.toNat).done = y.done + 1 ∧
      mget (t.run c k.toNat).latch y.done = some b ∧ scalesOf b.side = 0 ∧
      (∀ q < 4, b.pq q = (v.pq 0 || v.pq 1 || v.pq 2)) ∧
      laneOf 32 b.data 0 = u.toNat ∧ laneOf 32 b.data 1 = w.toNat ∧ laneOf 32 b.data 2 = zc.toNat ∧
      (¬ inside → laneOf 32 b.data 3 = 0xFFFFFFFF) ∧
      (inside → ∃ tu tv : Nat, (ofInt (tu * patch g : Nat)).le (f32 u) = true ∧ (f32 u).lt (ofInt ((tu + 1) * patch g : Nat)) = true ∧
        (ofInt (tv * patch g : Nat)).le (f32 w) = true ∧ (f32 w).lt (ofInt ((tv + 1) * patch g : Nat)) = true ∧
        laneOf 32 b.data 3 = (tu + across g * tv) % 2 ^ 32) ∧ t = { s with runs := t.runs }

end Sys2Proof.Claims

/-- What the camera engine delivers and records (R317 to R326). That the samples of a token are cast in one step is
the model's choice (log entry 41). -/
def Obligations.CameraResults : Prop := CameraGathers ∧ CameraScatters ∧ CameraProjects

namespace Sys2Proof.Claims

/-! ## What attention rows leave (R334, R343 to R345, R349, R352, R353) -/

/-- The engine of context c sees n bytes at a virtual address, byte k of them at `pa k`. -/
def BytesSeen (s : State) (c : Ctx) (va n : Nat) (pa : Nat → Nat) : Prop := ∀ k < n, EngSees s c false (va + k) 1 (pa k)
/-- n of them from an offset as a number. -/
def seenAt (s : State) (c : Ctx) (pa : Nat → Nat) (o n : Nat) : Nat :=
  leVal ((List.range n).map (fun k => BitVec.ofNat 8 (engSeen s c (pa (o + k)) 1)))
/-- It may write n granules from a virtual address on, granule g of them at `pa g`, each at a place of its own. -/
def GranulesWritten (s : State) (c : Ctx) (va n : Nat) (pa : Nat → Nat) : Prop :=
  va % 64 = 0 ∧ (∀ g < n, EngWrites s c false (va + 64 * g) 64 (pa g)) ∧ ∀ g < n, ∀ h < g, pa g ≠ pa h
/-- n bytes from an offset of these granules as a number. -/
def wroteAt (t : State) (pa : Nat → Nat) (o n : Nat) : Nat :=
  leVal ((List.range n).map (fun k => t.byte (pa ((o + k) / 64) + (o + k) % 64)))
/-- Every other byte of memory is as before. -/
def ElseKept (s t : State) (pa : Nat → Nat) (n : Nat) : Prop := ∀ y, (∀ g < n, ¬ (pa g ≤ y ∧ y < pa g + 64)) → t.byte y = s.byte y
/-- vend of a query row with its header at `h` (R343). -/
def vendOf (h : Nat → Nat → Nat) (len : Nat) (causal : Bool) : Nat :=
  let v := min len (h 4 4)
  if causal then min v (h 0 4 + 1) else v
/-- Channel c of a row of BF16 values at an offset, sanitised (R349). -/
def cleanAt (h : Nat → Nat → Nat) (o c : Nat) : Val := decodeFloat .bf16 (sanitise (h (o + 2 * c) 2)).1
/-- A round of FP32 upward, with infinities. -/
def up32 (v : Val) : Val := decodeFloat .f32 (roundTo .f32 .ru false 0 v)
/-- The bound of a page (R352): over the channels in order, then times the scale. -/
def pageBound (d : Nat) (q lo hi : Nat → Val) (scale : W32) : Val :=
  up32 (((List.range d).foldl (fun acc c => up32 (acc.add ((up32 ((q c).mul (lo c))).max (up32 ((q c).mul (hi c))))))
    (decodeFloat .f32 0)).mul (decodeFloat .f32 scale.toNat))
/-- R343, R344, R349, R352: a row of an `at.sel` whose pages are there and sound writes its list: the forced pages, and of the others
whose bound reaches the threshold those with the greatest bounds, ties to the lower page, up to the limit, in ascending
order with their reasons and bounds. Nothing else in memory changes. -/
def SelectRow : Prop :=
  ∀ (s : State) (c : Ctx) (i f : Nat) (qa page out : Nat → Nat),
    let a := s.atOf i
    let r := a.rec'
    let x := s.seqDesc a.desc
    let h := seenAt s c qa
    let np := (vendOf h x.length r.causal + 63) / 64
    let scale : W32 := BitVec.ofNat 32 (h 8 4)
    let thr := decodeFloat .f32 (h 12 4)
    let code := fun p o => decodeFloat .bf16 (leVal (s.bytes (page p + 64 + o) 2))
    let ub := fun p => pageBound x.d (cleanAt h 64) (fun k => code p (2 * k)) (fun k => code p (2 * x.d + 2 * k)) scale
    let sink := fun p => decide (p < r.sinks.toNat)
    let late := fun p => decide (np ≤ p + r.recent.toNat)
    let passes := fun p => !sink p && !late p && thr.le (ub p)
    let ahead := fun p o => passes o && ((ub p).lt (ub o) || ((ub o).eq (ub p) && decide (o < p)))
    let count := fun (g : Nat → Bool) => ((List.range np).filter g).length
    let keeps := fun p => sink p || late p ||
      (passes p && decide (count (ahead p) < r.limit1.toNat + 1 - count (fun p => sink p || late p)))
    let kept := (List.range np).filter keeps
    s.taskAt c = a.task → BytesSeen s c (r.rowBase.toNat + f * r.rows.stride.toNat) (64 + 2 * x.d) qa → scaleOk scale = true →
    r.sinks.toNat + r.recent.toNat ≤ r.limit1.toNat + 1 → (∀ p < np, PageAt s i p (page p) ∧ SoundRange s (page p + 64) (4 * x.d)) →
    GranulesWritten s c (r.w4.toNat + 2112 * f) 33 out →
    ∃ t, s.selRow i f = (t, .ok) ∧ wroteAt t out 0 2 = kept.length ∧ wroteAt t out 2 2 = 0 ∧ wroteAt t out 4 4 = np ∧
      wroteAt t out 8 4 = count passes ∧ wroteAt t out 12 52 = 0 ∧
      (∀ k p, kept[k]? = some p → wroteAt t out (64 + 8 * k) 4 = p + 2 ^ 24 * ((if sink p then 1 else 0) + (if late p then 2 else 0) +
          if sink p || late p then 0 else 4) ∧
        decodeFloat .f32 (wroteAt t out (68 + 8 * k) 4) = ub p) ∧
      (∀ k < 256, kept.length ≤ k → wroteAt t out (64 + 8 * k) 8 = 0) ∧ ElseKept s t out 33
/-- A rounding of FP32 that saturates, and the base-2 exponential (R353). -/
def satRn (v : Val) : Val := decodeFloat .f32 (roundTo .f32 .rn true 0 v)
def exp2Rn (v : Val) : Val := decodeFloat .f32 (roundTo .f32 .rn false 0 v.exp2)
/-- One key of a row: maximum, sum and outputs before and after (R353). -/
def softStep (d : Nat) (q : Nat → Val) (scale : W32) (y : Val × Val × (Nat → Val)) (kv : (Nat → Val) × (Nat → Val)) :
    Val × Val × (Nat → Val) :=
  let dot := dotBy satRn ((List.range d).map q) ((List.range d).map kv.1)
  let sc := satRn (dot.mul (decodeFloat .f32 scale.toNat))
  let g := if y.1.lt sc then
      let e := if y.1 = .inf true then Val.fin false 0 0 false else exp2Rn (satRn (y.1.sub sc))
      (sc, satRn (y.2.1.mul e), fun c => satRn ((y.2.2 c).mul e))
    else y
  let p := exp2Rn (satRn (sc.sub g.1))
  (g.1, satRn (g.2.1.add p), fun c => satRn ((g.2.2 c).add (satRn (p.mul (kv.2 c)))))
/-- The value of a stored element at a place of a page (R334). -/
def storedAt (s : State) (e4m3 : Bool) (scale : Nat) (at' : Nat) : Val :=
  if e4m3 then (decodeFloat .e4m3 (s.byte at').toNat).mul (decodeFloat .f32 scale) else decodeFloat .bf16 (leVal (s.bytes at' 2))
/-- R343 to R345, R349, R353: a row of an `at.att` whose list is legal and whose pages are there and sound attends over the unmasked
keys of its pages in order, and writes its output record; a list with too many entries, or out of order, ends the gang with 0x22.
Nothing else in memory changes. -/
def AttendRow : Prop :=
  ∀ (s : State) (c : Ctx) (i f : Nat) (la qa page out : Nat → Nat),
    let a := s.atOf i
    let r := a.rec'
    let x := s.seqDesc a.desc
    let h := seenAt s c qa
    let n := seenAt s c la 0 2
    let ps := (List.range n).map (fun k => seenAt s c la (64 + 8 * k) 3)
    let vend := vendOf h x.length r.causal
    let scale : W32 := BitVec.ofNat 32 (h 8 4)
    let keyAt := fun p row k => page p + 64 + 4 * x.d + (row * x.d + k) * x.e
    let word := fun p o => leVal (s.bytes (page p + o) 4)
    let rows := fun p => min (leVal (s.bytes (page p) 2)) (vend - 64 * p)
    let keys := ps.flatMap (fun p => (List.range (rows p)).map (fun row =>
      ((fun k => storedAt s x.e4m3 (word p 4) (keyAt p row k)),
       (fun k => storedAt s x.e4m3 (word p 8) (keyAt p row k + 64 * x.d * x.e)))))
    let y := keys.foldl (softStep x.d (cleanAt h 64) scale) (.inf true, .fin false 0 0 false, fun _ => .fin false 0 0 false)
    let zero := keys.length = 0
    s.taskAt c = a.task → BytesSeen s c (r.w4.toNat + 2112 * f) 2112 la →
    (¬ (n ≤ 256 ∧ ps.Pairwise (· < ·) ∧ ∀ p ∈ ps, p < (x.length + 63) / 64) → ∃ t q, s.attRow i f = (t, .ended) ∧
      t.faultQ = s.faultQ ++ [q] ∧ q.code = 0x22 ∧ t.mem = s.mem) ∧
    (n ≤ 256 → ps.Pairwise (· < ·) → (∀ p ∈ ps, p < (x.length + 63) / 64) →
      BytesSeen s c (r.rowBase.toNat + f * r.rows.stride.toNat) (64 + 2 * x.d) qa → scaleOk scale = true →
      (∀ p ∈ ps, PageAt s i p (page p) ∧ SoundRange s (page p) (SeqDesc.pageBytes x) ∧ leVal (s.bytes (page p) 2) ≤ 64) →
      GranulesWritten s c (r.out.toNat + (64 + 4 * x.d) * f) (1 + x.d / 16) out →
      ∃ t, s.attRow i f = (t, .ok) ∧
        wroteAt t out 0 4 = (if zero then 0xFF800000
          else roundTo .f32 .rn true 0 (y.1.add (decodeFloat .f32 (roundTo .f32 .rn false 0 y.2.1.lg2)))) ∧
        wroteAt t out 4 4 = (if zero then 1 else 0) ∧ wroteAt t out 8 4 = (ps.filter (fun p => decide (64 * p < vend))).length ∧
        wroteAt t out 12 4 = keys.length ∧ wroteAt t out 16 48 = 0 ∧
        (∀ k < x.d, wroteAt t out (64 + 4 * k) 4 = if zero then 0 else roundTo .f32 .rn true 0 ((y.2.2 k).div y.2.1)) ∧
        ElseKept s t out (1 + x.d / 16))

end Sys2Proof.Claims

/-- What the rows of `at.sel` and `at.att` write (R352, R353). Log entry 67 (DEDUCED, read from the wording): the lg2
of the Lse is rounded to FP32 before the sum. -/
def Obligations.AttentionRows : Prop := SelectRow ∧ AttendRow

/-! ## Statements in several parts -/

/-- Integer results and their latency (R108, R110, R112 to R114). -/
def Obligations.IntegerResults : Prop := Claims.IntegerResults ∧ Claims.IntegerLatency
/-- Taking a software trap in either mode, and returning from one (R111, R122, R123). Where `evec` has not been
written, its value is the handler's entry, a free constant (log entry 66). -/
def Obligations.TrapEntryAndReturn : Prop := Claims.SoftwareTrapEntry ∧ Claims.SupervisorTrapStops ∧ Claims.TrapReturn
/-- Which system instructions trap, and in which mode (R101, R122). The argument of the trap is the model's reading
where the spec states none (log entry 9). -/
def Obligations.SystemRegisterTraps : Prop := Claims.PrivilegeTraps ∧ Claims.UnassignedSystemRegisters
/-- What reads and writes of the system registers do (R102, R122). -/
def Obligations.SystemRegisterAccess : Prop := Claims.SystemRegisterReads ∧ Claims.SystemRegisterWrites
/-- Waits and writes in flight (R96, R109, R122, R390). When a value lands is free (log entry 4). That a load lands
with what was read at issue, or with what its task sees later where nothing orders the store before it, is the model's
reading (log entry 7). -/
def Obligations.WaitsAndLandings : Prop := Claims.WaitEnds ∧ Claims.WaitTimeout ∧ Claims.PendingWriteLands ∧ Claims.LoadsLookAgain
/-- What a translation may change, and what an invalidation removes (R122, R254). What a TLB keeps and replaces is
free (log entry 12). -/
def Obligations.Translation : Prop := Claims.TlbInvalidation ∧ Claims.TranslationFrame ∧ Claims.WalkMarksItsEntry
/-- Misaligned accesses of the sequencer, and its page faults (R85, R98, R115, R116). That a store whose page faults
is laid by at byte level is the model's reading (log entry 30). -/
def Obligations.AccessFaults : Prop := Claims.MisalignedAccessTraps ∧ Claims.FaultingLoadHolds ∧ Claims.FaultingStoreLaidBy
/-- Fences and the wait for a completion word (R93, R119, R129). That a release fence orders held stores by draining
them at the next access that it orders, and waits for the laid-by stores of a head, are the model's readings (log
entries 3, 71 and 73). -/
def Obligations.FencesAndCompletionWaits : Prop := Claims.FenceWaitsForLoads ∧ Claims.CompletionWait
/-- Compares, and the choice of lanes by them (R181, R182). -/
def Obligations.ComparesAndSelects : Prop := Claims.CompareResults ∧ Claims.SelectResults
/-- The control plane, conditions and checks (R190, R210, R211). That a `cond` of a C operand compares the whole token
is the model's reading (log entry 67). -/
def Obligations.ControlTokens : Prop := Claims.ControlPlane ∧ Claims.ConditionsAndChecks
/-- Where a store of the sequencer goes (R77, R79, R115). -/
def Obligations.StoreEffects : Prop := Claims.StoreWritesMemory ∧ Claims.StoreEntersHold
/-- Atomics of the sequencer (R117, R118). That a release drains the held stores of a member of a head group is the
model's choice (log entry 71). -/
def Obligations.Atomics : Prop := Claims.AtomicResults ∧ Claims.AtomicsWaitForTheHeadGroup
/-- Starting an island and waiting for it (R95, R124, R125). That a `tgo` keeps link entries for captures of earlier
runs, and the `twait` of an island that is not there, are the model's readings (log entries 43 and 39); what a `tgo`
waits for beyond its own list is log entry 72. -/
def Obligations.IslandControl : Prop := Claims.IslandStart ∧ Claims.IslandWait ∧ Claims.LockGroupClosed
/-- Child tasks (R127). Identifiers counted up are the model's choice (log entry 27), that g8 to g15 are read as
sources its reading (log entry 17), and the child index that the image has not its reading (log entry 39). That only
tasks that have not ended count toward the 32, the mailbox of one pool frame, and the order of the refusals are the
model's readings or choices (log entries 55, 45 and 87). -/
def Obligations.ChildTasks : Prop := Claims.SpawnRequest ∧ Claims.SpawnReply ∧ Claims.SpawnRefused
/-- Barriers (R14, R128). Parties exclude committed tasks, an arrival releases the held stores of its task, and
arrivals outlive an episode by the model's readings (log entries 50, 71 and 83). That a `bar` waits for an `lamo`, an
`mrecv` and a laid-by store is the model's reading (log entries 72 and 73). -/
def Obligations.Barriers : Prop := Claims.BarrierArrival ∧ Claims.BarrierRelease
/-- Patches of command records (R130). The trap argument, the fields of a hold's record, and that a running island
stalls a `cmdw` first are the model's readings (log entries 9, 34 and 87). -/
def Obligations.CommandPatches : Prop := Claims.CommandPatch ∧ Claims.CommandMove ∧ Claims.CommandPatchRefused
/-- Controls of loom slots and camera registers (R132 to R134). A camera block that the image has not stands for zeros
(log entry 39). -/
def Obligations.EngineControls : Prop := Claims.LoomControls ∧ Claims.CameraControls
/-- Link instructions as they issue (R135, R136). -/
def Obligations.LinkInstructions : Prop := Claims.LinkDescriptorQueued ∧ Claims.LinkValueQueued
/-- Bitwise ops and moves (R179, R186, R188, R189). -/
def Obligations.BitwiseAndMoves : Prop := Claims.BitwiseAndMoves ∧ Claims.LaneMoves
/-- Block packing and its scale (R60, R184, R185). That poison of a `blk.pack` operand poisons its whole beat is the
model's reading (log entry 28). -/
def Obligations.BlockScaling : Prop := Claims.BlockPacking ∧ Claims.BlockScaleIsLeast
/-- Sums, scans and extremes over lanes (R68, R187). -/
def Obligations.Reductions : Prop := Claims.HorizontalSums ∧ Claims.Scans ∧ Claims.HorizontalExtremes
/-- Bank accesses of elements (R191 to R195). -/
def Obligations.BankAccesses : Prop := Claims.BankReads ∧ Claims.BankStores ∧ Claims.BankFaults
/-- Random draws and reservoirs (R209, R212 to R214). -/
def Obligations.RandomStreams : Prop := Claims.RandomDraws ∧ Claims.Reservoirs
/-- Operations over the link, at their sender and at their target (R369 to R373). The failure code of a remote part of
a granule, unordered replies, the acquire of `lamo` and `mrecv`, and the layout of a mailbox header are the model's
readings or choices (log entries 45, 46, 63, 72). How a page of another package is written, that a link operation
waits behind a laid-by store, and what a lost path ends are the model's readings or choices (log entries 24, 73 and
47). -/
def Obligations.LinkTraffic : Prop := Claims.LinkOperations ∧ Claims.RemoteOperations
end

