-- ==== Sys2Proof/Laws/Maps.lean ====
section
/-!
SUPPORT. Laws of sparse maps: a read after a write, and the canonical form, which every operation keeps.
-/

namespace Sys2Proof.Laws

open Sys2Proof.Machine

variable {α : Type} [Inhabited α] [DecidableEq α]

omit [DecidableEq α] in
theorem mget_mdel_same (k : Nat) (m : SMap α) : mget (mdel k m) k = default := by
  induction m with
  | nil => rfl
  | cons p m ih =>
    obtain ⟨j, v⟩ := p
    by_cases h : j = k
    · simp [mdel, h] at *; exact ih
    · simp [mdel, h, mget] at *; exact ih

omit [DecidableEq α] in
theorem mget_mdel_ne {j k : Nat} (h : j ≠ k) (m : SMap α) : mget (mdel k m) j = mget m j := by
  induction m with
  | nil => rfl
  | cons p m ih =>
    obtain ⟨i, v⟩ := p
    by_cases hi : i = k
    · have : i ≠ j := fun e => h (e ▸ hi)
      simp [mdel, hi] at *; rw [ih, mget]; simp [Ne.symm h]
    · simp only [mdel, List.filter_cons] at *
      simp [hi, mget, ih]

omit [DecidableEq α] in
theorem mget_mput_ne {j k : Nat} (h : j ≠ k) (v : α) (m : SMap α) : mget (mput k v m) j = mget m j := by
  induction m with
  | nil => simp [mput, mget, Ne.symm h]
  | cons p m ih =>
    obtain ⟨i, w⟩ := p
    simp only [mput]
    split
    · simp [mget, ih]
    · simp [mget, Ne.symm h]

omit [DecidableEq α] in
theorem mget_mput_same (k : Nat) (v : α) (m : SMap α) (hm : ∀ p ∈ m, p.1 ≠ k) : mget (mput k v m) k = v := by
  induction m with
  | nil => simp [mput, mget]
  | cons p m ih =>
    obtain ⟨i, w⟩ := p
    simp only [mput]
    split
    · have hi : i ≠ k := hm (i, w) (by simp)
      simp [mget, hi, ih (fun q hq => hm q (by simp [hq]))]
    · simp [mget]

omit [Inhabited α] [DecidableEq α] in
theorem mdel_no_key (k : Nat) (m : SMap α) : ∀ p ∈ mdel k m, p.1 ≠ k := by
  intro p hp
  simpa [mdel] using (List.mem_filter.mp hp).2

/-- A read after a write to the same key gives the value written. -/
@[simp] theorem mget_mset_same (m : SMap α) (k : Nat) (v : α) : mget (mset m k v) k = v := by
  unfold mset
  split
  · rename_i h; rw [mget_mdel_same, h]
  · exact mget_mput_same k v _ (mdel_no_key k m)

/-- A write leaves every other key alone. -/
theorem mget_mset_ne (m : SMap α) {j k : Nat} (h : j ≠ k) (v : α) : mget (mset m k v) j = mget m j := by
  unfold mset
  split
  · exact mget_mdel_ne h m
  · rw [mget_mput_ne h, mget_mdel_ne h]

/-- A read after a write. -/
theorem mget_mset (m : SMap α) (j k : Nat) (v : α) : mget (mset m k v) j = if j = k then v else mget m j := by
  split
  · rename_i h; subst h; exact mget_mset_same m j v
  · rename_i h; exact mget_mset_ne m h v

@[simp] theorem mget_mmod_same (m : SMap α) (k : Nat) (f : α → α) : mget (mmod m k f) k = f (mget m k) :=
  mget_mset_same m k _

theorem mget_mmod_ne (m : SMap α) {j k : Nat} (h : j ≠ k) (f : α → α) : mget (mmod m k f) j = mget m j :=
  mget_mset_ne m h _

omit [DecidableEq α] in
/-- A filter by keys keeps the entries of the keys that pass. -/
theorem mget_filter (f : Nat → Bool) (m : SMap α) (k : Nat) (h : f k = true) :
    mget (m.filter (fun p => f p.1)) k = mget m k := by
  induction m with
  | nil => rfl
  | cons p m ih =>
    obtain ⟨j, v⟩ := p
    by_cases hj : j = k
    · subst hj; rw [List.filter_cons_of_pos (by exact h)]; simp only [mget, if_true]
    · by_cases hf : f j = true
      · rw [List.filter_cons_of_pos (by exact hf)]; simp only [mget, if_neg hj, ih]
      · rw [List.filter_cons_of_neg (by exact hf)]; simp only [mget, if_neg hj, ih]
omit [DecidableEq α] in
/-- A key that no entry has reads as the default. -/
theorem mget_absent (m : SMap α) (k : Nat) (h : ∀ p ∈ m, p.1 ≠ k) : mget m k = default := by
  induction m with
  | nil => rfl
  | cons p m ih =>
    obtain ⟨j, v⟩ := p
    simp only [mget, if_neg (h (j, v) (List.mem_cons_self ..))]
    exact ih (fun q hq => h q (List.mem_cons_of_mem _ hq))
omit [DecidableEq α] in
/-- A cut removes its range alone. -/
theorem mget_mcut (lo n : Nat) (m : SMap α) (k : Nat) :
    mget (mcut lo n m) k = if lo ≤ k ∧ k < lo + n then default else mget m k := by
  unfold mcut
  split
  · exact mget_absent _ _ fun p hp e => by
      have := (List.mem_filter.mp hp).2
      simp only [Bool.not_eq_true', Bool.and_eq_false_iff, decide_eq_false_iff_not] at this
      omega
  · exact mget_filter (fun j => !(decide (lo ≤ j) && decide (j < lo + n))) m k (by
      simp only [Bool.not_eq_true', Bool.and_eq_false_iff, decide_eq_false_iff_not]; omega)

/-! ## The canonical form -/

/-- The canonical form, said with the keys that may come before. -/
theorem mwf_cons (j : Nat) (v : α) (m : SMap α) :
    mwf ((j, v) :: m) = true ↔ v ≠ default ∧ (∀ p ∈ m, j < p.1) ∧ mwf m = true := by
  induction m generalizing j v with
  | nil => simp [mwf]
  | cons p m ih =>
    obtain ⟨k, w⟩ := p
    have h := ih k w
    constructor
    · intro hw
      simp only [mwf, Bool.and_eq_true, decide_eq_true_eq, bne_iff_ne] at hw
      exact ⟨hw.1.2, List.forall_mem_cons.mpr ⟨hw.1.1, fun q hq => hw.1.1.trans ((h.mp hw.2).2.1 q hq)⟩, hw.2⟩
    · rintro ⟨hv, hk, hm⟩
      simp only [mwf, Bool.and_eq_true, decide_eq_true_eq, bne_iff_ne]
      exact ⟨⟨hk (k, w) (by simp), hv⟩, hm⟩

theorem mwf_filter (f : Nat × α → Bool) (m : SMap α) (h : mwf m = true) : mwf (m.filter f) = true := by
  induction m with
  | nil => simpa using h
  | cons p m ih =>
    obtain ⟨j, v⟩ := p
    obtain ⟨hv, hk, hm⟩ := (mwf_cons j v m).mp h
    by_cases hf : f (j, v) = true
    · rw [List.filter_cons_of_pos hf]
      exact (mwf_cons _ _ _).mpr ⟨hv, fun q hq => hk q (List.mem_filter.mp hq).1, ih hm⟩
    · rw [List.filter_cons_of_neg hf]
      exact ih hm

omit [Inhabited α] [DecidableEq α] in
/-- An insertion adds its own entry alone. -/
theorem mem_mput {k : Nat} {v : α} {q : Nat × α} : ∀ {m : SMap α}, q ∈ mput k v m → q = (k, v) ∨ q ∈ m
  | [], h => .inl (List.mem_singleton.mp h)
  | (i, u) :: m, h => by
    unfold mput at h
    split at h
    · exact (List.mem_cons.mp h).elim (fun e => .inr (e ▸ List.mem_cons_self ..))
        (fun h => (mem_mput h).imp_right (List.mem_cons_of_mem _))
    · exact List.mem_cons.mp h

theorem mwf_mput (k : Nat) (v : α) (m : SMap α) (hv : v ≠ default) (hk : ∀ p ∈ m, p.1 ≠ k) (h : mwf m = true) :
    mwf (mput k v m) = true := by
  induction m with
  | nil => simp [mput, mwf, hv]
  | cons p m ih =>
    obtain ⟨hw, hj, hm⟩ := (mwf_cons p.1 p.2 m).mp h
    obtain ⟨hp, hk⟩ := List.forall_mem_cons.mp hk
    unfold mput
    split
    · rename_i hlt
      exact (mwf_cons ..).mpr ⟨hw, fun q hq => (mem_mput hq).elim (fun e => e ▸ hlt) (hj q), ih hk hm⟩
    · have hlt : k < p.1 := by omega
      exact (mwf_cons ..).mpr ⟨hv, List.forall_mem_cons.mpr ⟨hlt, fun q hq => hlt.trans (hj q hq)⟩, h⟩

/-- A write keeps the canonical form. -/
theorem mwf_mset (m : SMap α) (k : Nat) (v : α) (h : mwf m = true) : mwf (mset m k v) = true := by
  unfold mset
  split
  · exact mwf_filter _ m h
  · rename_i hv; exact mwf_mput k v _ hv (mdel_no_key k m) (mwf_filter _ m h)

theorem mwf_mmod (m : SMap α) (k : Nat) (f : α → α) (h : mwf m = true) : mwf (mmod m k f) = true := mwf_mset m k _ h

theorem mwf_mcut (lo n : Nat) (m : SMap α) (h : mwf m = true) : mwf (mcut lo n m) = true := mwf_filter _ m h

end Sys2Proof.Laws
end

