-- ==== Sys2Proof/Laws/State.lean ====
section
/-!
SUPPORT. The small lemmas of the state: for each named update of one map, what every other field is after it, and what
the accessors read after it.
-/

namespace Sys2Proof.Machine

open Sys2Proof.Laws

variable (s : State)

/-! ## `setThr` -/

@[simp] theorem State.setThr_cycle (c : Ctx) (t : Thread) : (s.setThr c t).cycle = s.cycle := rfl
@[simp] theorem State.setThr_agenda (c : Ctx) (t : Thread) : (s.setThr c t).agenda = s.agenda := rfl
@[simp] theorem State.setThr_cur (c : Ctx) (t : Thread) : (s.setThr c t).cur = s.cur := rfl
@[simp] theorem State.setThr_curElem (c : Ctx) (t : Thread) : (s.setThr c t).curElem = s.curElem := rfl
@[simp] theorem State.setThr_curCmd (c : Ctx) (t : Thread) : (s.setThr c t).curCmd = s.curCmd := rfl
@[simp] theorem State.setThr_free (c : Ctx) (t : Thread) : (s.setThr c t).free = s.free := rfl
@[simp] theorem State.setThr_hostIn (c : Ctx) (t : Thread) : (s.setThr c t).hostIn = s.hostIn := rfl
@[simp] theorem State.setThr_linkIn (c : Ctx) (t : Thread) : (s.setThr c t).linkIn = s.linkIn := rfl
@[simp] theorem State.setThr_out (c : Ctx) (t : Thread) : (s.setThr c t).out = s.out := rfl
@[simp] theorem State.setThr_mem (c : Ctx) (t : Thread) : (s.setThr c t).mem = s.mem := rfl
@[simp] theorem State.setThr_checks (c : Ctx) (t : Thread) : (s.setThr c t).checks = s.checks := rfl
@[simp] theorem State.setThr_codeSeen (c : Ctx) (t : Thread) : (s.setThr c t).codeSeen = s.codeSeen := rfl
@[simp] theorem State.setThr_errs (c : Ctx) (t : Thread) : (s.setThr c t).errs = s.errs := rfl
@[simp] theorem State.setThr_bankCE (c : Ctx) (t : Thread) : (s.setThr c t).bankCE = s.bankCE := rfl
@[simp] theorem State.setThr_basinCE (c : Ctx) (t : Thread) : (s.setThr c t).basinCE = s.basinCE := rfl
@[simp] theorem State.setThr_tlb1 (c : Ctx) (t : Thread) : (s.setThr c t).tlb1 = s.tlb1 := rfl
@[simp] theorem State.setThr_tlb2 (c : Ctx) (t : Thread) : (s.setThr c t).tlb2 = s.tlb2 := rfl
@[simp] theorem State.setThr_pins (c : Ctx) (t : Thread) : (s.setThr c t).pins = s.pins := rfl
@[simp] theorem State.setThr_dead (c : Ctx) (t : Thread) : (s.setThr c t).dead = s.dead := rfl
@[simp] theorem State.setThr_raised (c : Ctx) (t : Thread) : (s.setThr c t).raised = s.raised := rfl
@[simp] theorem State.setThr_refreshPtr (c : Ctx) (t : Thread) : (s.setThr c t).refreshPtr = s.refreshPtr := rfl
@[simp] theorem State.setThr_elided (c : Ctx) (t : Thread) : (s.setThr c t).elided = s.elided := rfl
@[simp] theorem State.setThr_elems (c : Ctx) (t : Thread) : (s.setThr c t).elems = s.elems := rfl
@[simp] theorem State.setThr_bank (c : Ctx) (t : Thread) : (s.setThr c t).bank = s.bank := rfl
@[simp] theorem State.setThr_bankMeta (c : Ctx) (t : Thread) : (s.setThr c t).bankMeta = s.bankMeta := rfl
@[simp] theorem State.setThr_planeQ (c : Ctx) (t : Thread) : (s.setThr c t).planeQ = s.planeQ := rfl
@[simp] theorem State.setThr_bankQ (c : Ctx) (t : Thread) : (s.setThr c t).bankQ = s.bankQ := rfl
@[simp] theorem State.setThr_active (c : Ctx) (t : Thread) : (s.setThr c t).active = s.active := rfl
@[simp] theorem State.setThr_standby (c : Ctx) (t : Thread) : (s.setThr c t).standby = s.standby := rfl
@[simp] theorem State.setThr_isls (c : Ctx) (t : Thread) : (s.setThr c t).isls = s.isls := rfl
@[simp] theorem State.setThr_links (c : Ctx) (t : Thread) : (s.setThr c t).links = s.links := rfl
@[simp] theorem State.setThr_cmdTab (c : Ctx) (t : Thread) : (s.setThr c t).cmdTab = s.cmdTab := rfl
@[simp] theorem State.setThr_runs (c : Ctx) (t : Thread) : (s.setThr c t).runs = s.runs := rfl
@[simp] theorem State.setThr_acc (c : Ctx) (t : Thread) : (s.setThr c t).acc = s.acc := rfl
@[simp] theorem State.setThr_tileA (c : Ctx) (t : Thread) : (s.setThr c t).tileA = s.tileA := rfl
@[simp] theorem State.setThr_tileS (c : Ctx) (t : Thread) : (s.setThr c t).tileS = s.tileS := rfl
@[simp] theorem State.setThr_slots (c : Ctx) (t : Thread) : (s.setThr c t).slots = s.slots := rfl
@[simp] theorem State.setThr_cams (c : Ctx) (t : Thread) : (s.setThr c t).cams = s.cams := rfl
@[simp] theorem State.setThr_sst (c : Ctx) (t : Thread) : (s.setThr c t).sst = s.sst := rfl
@[simp] theorem State.setThr_atq (c : Ctx) (t : Thread) : (s.setThr c t).atq = s.atq := rfl
@[simp] theorem State.setThr_atRun (c : Ctx) (t : Thread) : (s.setThr c t).atRun = s.atRun := rfl
@[simp] theorem State.setThr_tasks (c : Ctx) (t : Thread) : (s.setThr c t).tasks = s.tasks := rfl
@[simp] theorem State.setThr_gangs (c : Ctx) (t : Thread) : (s.setThr c t).gangs = s.gangs := rfl
@[simp] theorem State.setThr_owner (c : Ctx) (t : Thread) : (s.setThr c t).owner = s.owner := rfl
@[simp] theorem State.setThr_booked (c : Ctx) (t : Thread) : (s.setThr c t).booked = s.booked := rfl
@[simp] theorem State.setThr_nextTask (c : Ctx) (t : Thread) : (s.setThr c t).nextTask = s.nextTask := rfl
@[simp] theorem State.setThr_nextGang (c : Ctx) (t : Thread) : (s.setThr c t).nextGang = s.nextGang := rfl
@[simp] theorem State.setThr_nextOp (c : Ctx) (t : Thread) : (s.setThr c t).nextOp = s.nextOp := rfl
@[simp] theorem State.setThr_nextLay (c : Ctx) (t : Thread) : (s.setThr c t).nextLay = s.nextLay := rfl
@[simp] theorem State.setThr_bars (c : Ctx) (t : Thread) : (s.setThr c t).bars = s.bars := rfl
@[simp] theorem State.setThr_berths (c : Ctx) (t : Thread) : (s.setThr c t).berths = s.berths := rfl
@[simp] theorem State.setThr_disps (c : Ctx) (t : Thread) : (s.setThr c t).disps = s.disps := rfl
@[simp] theorem State.setThr_saves (c : Ctx) (t : Thread) : (s.setThr c t).saves = s.saves := rfl
@[simp] theorem State.setThr_queues (c : Ctx) (t : Thread) : (s.setThr c t).queues = s.queues := rfl
@[simp] theorem State.setThr_fb (c : Ctx) (t : Thread) : (s.setThr c t).fb = s.fb := rfl
@[simp] theorem State.setThr_faultQ (c : Ctx) (t : Thread) : (s.setThr c t).faultQ = s.faultQ := rfl
@[simp] theorem State.setThr_recorded (c : Ctx) (t : Thread) : (s.setThr c t).recorded = s.recorded := rfl
@[simp] theorem State.setThr_regs (c : Ctx) (t : Thread) : (s.setThr c t).regs = s.regs := rfl
@[simp] theorem State.setThr_pkgId (c : Ctx) (t : Thread) : (s.setThr c t).pkgId = s.pkgId := rfl
@[simp] theorem State.setThr_raceFlag (c : Ctx) (t : Thread) : (s.setThr c t).raceFlag = s.raceFlag := rfl
@[simp] theorem State.setThr_kept (c : Ctx) (t : Thread) : (s.setThr c t).kept = s.kept := rfl
@[simp] theorem State.setThr_stores (c : Ctx) (t : Thread) : (s.setThr c t).stores = s.stores := rfl
@[simp] theorem State.setThr_badPorts (c : Ctx) (t : Thread) : (s.setThr c t).badPorts = s.badPorts := rfl
@[simp] theorem State.setThr_unreach (c : Ctx) (t : Thread) : (s.setThr c t).unreach = s.unreach := rfl
@[simp] theorem State.setThr_mailWait (c : Ctx) (t : Thread) : (s.setThr c t).mailWait = s.mailWait := rfl
@[simp] theorem State.setThr_colls (c : Ctx) (t : Thread) : (s.setThr c t).colls = s.colls := rfl
@[simp] theorem State.setThr_collCount (c : Ctx) (t : Thread) : (s.setThr c t).collCount = s.collCount := rfl
@[simp] theorem State.setThr_dying (c : Ctx) (t : Thread) : (s.setThr c t).dying = s.dying := rfl
@[simp] theorem State.setThr_start (c : Ctx) (t : Thread) : (s.setThr c t).start = s.start := rfl

/-! ## `setTask` -/

@[simp] theorem State.setTask_cycle (id : Nat) (t : Task) : (s.setTask id t).cycle = s.cycle := rfl
@[simp] theorem State.setTask_agenda (id : Nat) (t : Task) : (s.setTask id t).agenda = s.agenda := rfl
@[simp] theorem State.setTask_cur (id : Nat) (t : Task) : (s.setTask id t).cur = s.cur := rfl
@[simp] theorem State.setTask_curElem (id : Nat) (t : Task) : (s.setTask id t).curElem = s.curElem := rfl
@[simp] theorem State.setTask_curCmd (id : Nat) (t : Task) : (s.setTask id t).curCmd = s.curCmd := rfl
@[simp] theorem State.setTask_free (id : Nat) (t : Task) : (s.setTask id t).free = s.free := rfl
@[simp] theorem State.setTask_hostIn (id : Nat) (t : Task) : (s.setTask id t).hostIn = s.hostIn := rfl
@[simp] theorem State.setTask_linkIn (id : Nat) (t : Task) : (s.setTask id t).linkIn = s.linkIn := rfl
@[simp] theorem State.setTask_out (id : Nat) (t : Task) : (s.setTask id t).out = s.out := rfl
@[simp] theorem State.setTask_mem (id : Nat) (t : Task) : (s.setTask id t).mem = s.mem := rfl
@[simp] theorem State.setTask_checks (id : Nat) (t : Task) : (s.setTask id t).checks = s.checks := rfl
@[simp] theorem State.setTask_codeSeen (id : Nat) (t : Task) : (s.setTask id t).codeSeen = s.codeSeen := rfl
@[simp] theorem State.setTask_errs (id : Nat) (t : Task) : (s.setTask id t).errs = s.errs := rfl
@[simp] theorem State.setTask_bankCE (id : Nat) (t : Task) : (s.setTask id t).bankCE = s.bankCE := rfl
@[simp] theorem State.setTask_basinCE (id : Nat) (t : Task) : (s.setTask id t).basinCE = s.basinCE := rfl
@[simp] theorem State.setTask_tlb1 (id : Nat) (t : Task) : (s.setTask id t).tlb1 = s.tlb1 := rfl
@[simp] theorem State.setTask_tlb2 (id : Nat) (t : Task) : (s.setTask id t).tlb2 = s.tlb2 := rfl
@[simp] theorem State.setTask_pins (id : Nat) (t : Task) : (s.setTask id t).pins = s.pins := rfl
@[simp] theorem State.setTask_dead (id : Nat) (t : Task) : (s.setTask id t).dead = s.dead := rfl
@[simp] theorem State.setTask_raised (id : Nat) (t : Task) : (s.setTask id t).raised = s.raised := rfl
@[simp] theorem State.setTask_refreshPtr (id : Nat) (t : Task) : (s.setTask id t).refreshPtr = s.refreshPtr := rfl
@[simp] theorem State.setTask_elided (id : Nat) (t : Task) : (s.setTask id t).elided = s.elided := rfl
@[simp] theorem State.setTask_threads (id : Nat) (t : Task) : (s.setTask id t).threads = s.threads := rfl
@[simp] theorem State.setTask_elems (id : Nat) (t : Task) : (s.setTask id t).elems = s.elems := rfl
@[simp] theorem State.setTask_bank (id : Nat) (t : Task) : (s.setTask id t).bank = s.bank := rfl
@[simp] theorem State.setTask_bankMeta (id : Nat) (t : Task) : (s.setTask id t).bankMeta = s.bankMeta := rfl
@[simp] theorem State.setTask_planeQ (id : Nat) (t : Task) : (s.setTask id t).planeQ = s.planeQ := rfl
@[simp] theorem State.setTask_bankQ (id : Nat) (t : Task) : (s.setTask id t).bankQ = s.bankQ := rfl
@[simp] theorem State.setTask_active (id : Nat) (t : Task) : (s.setTask id t).active = s.active := rfl
@[simp] theorem State.setTask_standby (id : Nat) (t : Task) : (s.setTask id t).standby = s.standby := rfl
@[simp] theorem State.setTask_isls (id : Nat) (t : Task) : (s.setTask id t).isls = s.isls := rfl
@[simp] theorem State.setTask_links (id : Nat) (t : Task) : (s.setTask id t).links = s.links := rfl
@[simp] theorem State.setTask_cmdTab (id : Nat) (t : Task) : (s.setTask id t).cmdTab = s.cmdTab := rfl
@[simp] theorem State.setTask_runs (id : Nat) (t : Task) : (s.setTask id t).runs = s.runs := rfl
@[simp] theorem State.setTask_acc (id : Nat) (t : Task) : (s.setTask id t).acc = s.acc := rfl
@[simp] theorem State.setTask_tileA (id : Nat) (t : Task) : (s.setTask id t).tileA = s.tileA := rfl
@[simp] theorem State.setTask_tileS (id : Nat) (t : Task) : (s.setTask id t).tileS = s.tileS := rfl
@[simp] theorem State.setTask_slots (id : Nat) (t : Task) : (s.setTask id t).slots = s.slots := rfl
@[simp] theorem State.setTask_cams (id : Nat) (t : Task) : (s.setTask id t).cams = s.cams := rfl
@[simp] theorem State.setTask_sst (id : Nat) (t : Task) : (s.setTask id t).sst = s.sst := rfl
@[simp] theorem State.setTask_atq (id : Nat) (t : Task) : (s.setTask id t).atq = s.atq := rfl
@[simp] theorem State.setTask_atRun (id : Nat) (t : Task) : (s.setTask id t).atRun = s.atRun := rfl
@[simp] theorem State.setTask_gangs (id : Nat) (t : Task) : (s.setTask id t).gangs = s.gangs := rfl
@[simp] theorem State.setTask_owner (id : Nat) (t : Task) : (s.setTask id t).owner = s.owner := rfl
@[simp] theorem State.setTask_booked (id : Nat) (t : Task) : (s.setTask id t).booked = s.booked := rfl
@[simp] theorem State.setTask_nextTask (id : Nat) (t : Task) : (s.setTask id t).nextTask = s.nextTask := rfl
@[simp] theorem State.setTask_nextGang (id : Nat) (t : Task) : (s.setTask id t).nextGang = s.nextGang := rfl
@[simp] theorem State.setTask_nextOp (id : Nat) (t : Task) : (s.setTask id t).nextOp = s.nextOp := rfl
@[simp] theorem State.setTask_nextLay (id : Nat) (t : Task) : (s.setTask id t).nextLay = s.nextLay := rfl
@[simp] theorem State.setTask_bars (id : Nat) (t : Task) : (s.setTask id t).bars = s.bars := rfl
@[simp] theorem State.setTask_berths (id : Nat) (t : Task) : (s.setTask id t).berths = s.berths := rfl
@[simp] theorem State.setTask_disps (id : Nat) (t : Task) : (s.setTask id t).disps = s.disps := rfl
@[simp] theorem State.setTask_saves (id : Nat) (t : Task) : (s.setTask id t).saves = s.saves := rfl
@[simp] theorem State.setTask_queues (id : Nat) (t : Task) : (s.setTask id t).queues = s.queues := rfl
@[simp] theorem State.setTask_fb (id : Nat) (t : Task) : (s.setTask id t).fb = s.fb := rfl
@[simp] theorem State.setTask_faultQ (id : Nat) (t : Task) : (s.setTask id t).faultQ = s.faultQ := rfl
@[simp] theorem State.setTask_recorded (id : Nat) (t : Task) : (s.setTask id t).recorded = s.recorded := rfl
@[simp] theorem State.setTask_regs (id : Nat) (t : Task) : (s.setTask id t).regs = s.regs := rfl
@[simp] theorem State.setTask_pkgId (id : Nat) (t : Task) : (s.setTask id t).pkgId = s.pkgId := rfl
@[simp] theorem State.setTask_raceFlag (id : Nat) (t : Task) : (s.setTask id t).raceFlag = s.raceFlag := rfl
@[simp] theorem State.setTask_kept (id : Nat) (t : Task) : (s.setTask id t).kept = s.kept := rfl
@[simp] theorem State.setTask_stores (id : Nat) (t : Task) : (s.setTask id t).stores = s.stores := rfl
@[simp] theorem State.setTask_badPorts (id : Nat) (t : Task) : (s.setTask id t).badPorts = s.badPorts := rfl
@[simp] theorem State.setTask_unreach (id : Nat) (t : Task) : (s.setTask id t).unreach = s.unreach := rfl
@[simp] theorem State.setTask_mailWait (id : Nat) (t : Task) : (s.setTask id t).mailWait = s.mailWait := rfl
@[simp] theorem State.setTask_colls (id : Nat) (t : Task) : (s.setTask id t).colls = s.colls := rfl
@[simp] theorem State.setTask_collCount (id : Nat) (t : Task) : (s.setTask id t).collCount = s.collCount := rfl
@[simp] theorem State.setTask_dying (id : Nat) (t : Task) : (s.setTask id t).dying = s.dying := rfl
@[simp] theorem State.setTask_start (id : Nat) (t : Task) : (s.setTask id t).start = s.start := rfl

/-! ## `setElem` -/

@[simp] theorem State.setElem_cycle (c : Ctx) (e : Nat) (x : Elem) : (s.setElem c e x).cycle = s.cycle := rfl
@[simp] theorem State.setElem_agenda (c : Ctx) (e : Nat) (x : Elem) : (s.setElem c e x).agenda = s.agenda := rfl
@[simp] theorem State.setElem_cur (c : Ctx) (e : Nat) (x : Elem) : (s.setElem c e x).cur = s.cur := rfl
@[simp] theorem State.setElem_curElem (c : Ctx) (e : Nat) (x : Elem) : (s.setElem c e x).curElem = s.curElem := rfl
@[simp] theorem State.setElem_curCmd (c : Ctx) (e : Nat) (x : Elem) : (s.setElem c e x).curCmd = s.curCmd := rfl
@[simp] theorem State.setElem_free (c : Ctx) (e : Nat) (x : Elem) : (s.setElem c e x).free = s.free := rfl
@[simp] theorem State.setElem_hostIn (c : Ctx) (e : Nat) (x : Elem) : (s.setElem c e x).hostIn = s.hostIn := rfl
@[simp] theorem State.setElem_linkIn (c : Ctx) (e : Nat) (x : Elem) : (s.setElem c e x).linkIn = s.linkIn := rfl
@[simp] theorem State.setElem_out (c : Ctx) (e : Nat) (x : Elem) : (s.setElem c e x).out = s.out := rfl
@[simp] theorem State.setElem_mem (c : Ctx) (e : Nat) (x : Elem) : (s.setElem c e x).mem = s.mem := rfl
@[simp] theorem State.setElem_checks (c : Ctx) (e : Nat) (x : Elem) : (s.setElem c e x).checks = s.checks := rfl
@[simp] theorem State.setElem_codeSeen (c : Ctx) (e : Nat) (x : Elem) : (s.setElem c e x).codeSeen = s.codeSeen := rfl
@[simp] theorem State.setElem_errs (c : Ctx) (e : Nat) (x : Elem) : (s.setElem c e x).errs = s.errs := rfl
@[simp] theorem State.setElem_bankCE (c : Ctx) (e : Nat) (x : Elem) : (s.setElem c e x).bankCE = s.bankCE := rfl
@[simp] theorem State.setElem_basinCE (c : Ctx) (e : Nat) (x : Elem) : (s.setElem c e x).basinCE = s.basinCE := rfl
@[simp] theorem State.setElem_tlb1 (c : Ctx) (e : Nat) (x : Elem) : (s.setElem c e x).tlb1 = s.tlb1 := rfl
@[simp] theorem State.setElem_tlb2 (c : Ctx) (e : Nat) (x : Elem) : (s.setElem c e x).tlb2 = s.tlb2 := rfl
@[simp] theorem State.setElem_pins (c : Ctx) (e : Nat) (x : Elem) : (s.setElem c e x).pins = s.pins := rfl
@[simp] theorem State.setElem_dead (c : Ctx) (e : Nat) (x : Elem) : (s.setElem c e x).dead = s.dead := rfl
@[simp] theorem State.setElem_raised (c : Ctx) (e : Nat) (x : Elem) : (s.setElem c e x).raised = s.raised := rfl
@[simp] theorem State.setElem_refreshPtr (c : Ctx) (e : Nat) (x : Elem) : (s.setElem c e x).refreshPtr = s.refreshPtr := rfl
@[simp] theorem State.setElem_elided (c : Ctx) (e : Nat) (x : Elem) : (s.setElem c e x).elided = s.elided := rfl
@[simp] theorem State.setElem_threads (c : Ctx) (e : Nat) (x : Elem) : (s.setElem c e x).threads = s.threads := rfl
@[simp] theorem State.setElem_bank (c : Ctx) (e : Nat) (x : Elem) : (s.setElem c e x).bank = s.bank := rfl
@[simp] theorem State.setElem_bankMeta (c : Ctx) (e : Nat) (x : Elem) : (s.setElem c e x).bankMeta = s.bankMeta := rfl
@[simp] theorem State.setElem_planeQ (c : Ctx) (e : Nat) (x : Elem) : (s.setElem c e x).planeQ = s.planeQ := rfl
@[simp] theorem State.setElem_bankQ (c : Ctx) (e : Nat) (x : Elem) : (s.setElem c e x).bankQ = s.bankQ := rfl
@[simp] theorem State.setElem_active (c : Ctx) (e : Nat) (x : Elem) : (s.setElem c e x).active = s.active := rfl
@[simp] theorem State.setElem_standby (c : Ctx) (e : Nat) (x : Elem) : (s.setElem c e x).standby = s.standby := rfl
@[simp] theorem State.setElem_isls (c : Ctx) (e : Nat) (x : Elem) : (s.setElem c e x).isls = s.isls := rfl
@[simp] theorem State.setElem_links (c : Ctx) (e : Nat) (x : Elem) : (s.setElem c e x).links = s.links := rfl
@[simp] theorem State.setElem_cmdTab (c : Ctx) (e : Nat) (x : Elem) : (s.setElem c e x).cmdTab = s.cmdTab := rfl
@[simp] theorem State.setElem_runs (c : Ctx) (e : Nat) (x : Elem) : (s.setElem c e x).runs = s.runs := rfl
@[simp] theorem State.setElem_acc (c : Ctx) (e : Nat) (x : Elem) : (s.setElem c e x).acc = s.acc := rfl
@[simp] theorem State.setElem_tileA (c : Ctx) (e : Nat) (x : Elem) : (s.setElem c e x).tileA = s.tileA := rfl
@[simp] theorem State.setElem_tileS (c : Ctx) (e : Nat) (x : Elem) : (s.setElem c e x).tileS = s.tileS := rfl
@[simp] theorem State.setElem_slots (c : Ctx) (e : Nat) (x : Elem) : (s.setElem c e x).slots = s.slots := rfl
@[simp] theorem State.setElem_cams (c : Ctx) (e : Nat) (x : Elem) : (s.setElem c e x).cams = s.cams := rfl
@[simp] theorem State.setElem_sst (c : Ctx) (e : Nat) (x : Elem) : (s.setElem c e x).sst = s.sst := rfl
@[simp] theorem State.setElem_atq (c : Ctx) (e : Nat) (x : Elem) : (s.setElem c e x).atq = s.atq := rfl
@[simp] theorem State.setElem_atRun (c : Ctx) (e : Nat) (x : Elem) : (s.setElem c e x).atRun = s.atRun := rfl
@[simp] theorem State.setElem_tasks (c : Ctx) (e : Nat) (x : Elem) : (s.setElem c e x).tasks = s.tasks := rfl
@[simp] theorem State.setElem_gangs (c : Ctx) (e : Nat) (x : Elem) : (s.setElem c e x).gangs = s.gangs := rfl
@[simp] theorem State.setElem_owner (c : Ctx) (e : Nat) (x : Elem) : (s.setElem c e x).owner = s.owner := rfl
@[simp] theorem State.setElem_booked (c : Ctx) (e : Nat) (x : Elem) : (s.setElem c e x).booked = s.booked := rfl
@[simp] theorem State.setElem_nextTask (c : Ctx) (e : Nat) (x : Elem) : (s.setElem c e x).nextTask = s.nextTask := rfl
@[simp] theorem State.setElem_nextGang (c : Ctx) (e : Nat) (x : Elem) : (s.setElem c e x).nextGang = s.nextGang := rfl
@[simp] theorem State.setElem_nextOp (c : Ctx) (e : Nat) (x : Elem) : (s.setElem c e x).nextOp = s.nextOp := rfl
@[simp] theorem State.setElem_nextLay (c : Ctx) (e : Nat) (x : Elem) : (s.setElem c e x).nextLay = s.nextLay := rfl
@[simp] theorem State.setElem_bars (c : Ctx) (e : Nat) (x : Elem) : (s.setElem c e x).bars = s.bars := rfl
@[simp] theorem State.setElem_berths (c : Ctx) (e : Nat) (x : Elem) : (s.setElem c e x).berths = s.berths := rfl
@[simp] theorem State.setElem_disps (c : Ctx) (e : Nat) (x : Elem) : (s.setElem c e x).disps = s.disps := rfl
@[simp] theorem State.setElem_saves (c : Ctx) (e : Nat) (x : Elem) : (s.setElem c e x).saves = s.saves := rfl
@[simp] theorem State.setElem_queues (c : Ctx) (e : Nat) (x : Elem) : (s.setElem c e x).queues = s.queues := rfl
@[simp] theorem State.setElem_fb (c : Ctx) (e : Nat) (x : Elem) : (s.setElem c e x).fb = s.fb := rfl
@[simp] theorem State.setElem_faultQ (c : Ctx) (e : Nat) (x : Elem) : (s.setElem c e x).faultQ = s.faultQ := rfl
@[simp] theorem State.setElem_recorded (c : Ctx) (e : Nat) (x : Elem) : (s.setElem c e x).recorded = s.recorded := rfl
@[simp] theorem State.setElem_regs (c : Ctx) (e : Nat) (x : Elem) : (s.setElem c e x).regs = s.regs := rfl
@[simp] theorem State.setElem_pkgId (c : Ctx) (e : Nat) (x : Elem) : (s.setElem c e x).pkgId = s.pkgId := rfl
@[simp] theorem State.setElem_raceFlag (c : Ctx) (e : Nat) (x : Elem) : (s.setElem c e x).raceFlag = s.raceFlag := rfl
@[simp] theorem State.setElem_kept (c : Ctx) (e : Nat) (x : Elem) : (s.setElem c e x).kept = s.kept := rfl
@[simp] theorem State.setElem_stores (c : Ctx) (e : Nat) (x : Elem) : (s.setElem c e x).stores = s.stores := rfl
@[simp] theorem State.setElem_badPorts (c : Ctx) (e : Nat) (x : Elem) : (s.setElem c e x).badPorts = s.badPorts := rfl
@[simp] theorem State.setElem_unreach (c : Ctx) (e : Nat) (x : Elem) : (s.setElem c e x).unreach = s.unreach := rfl
@[simp] theorem State.setElem_mailWait (c : Ctx) (e : Nat) (x : Elem) : (s.setElem c e x).mailWait = s.mailWait := rfl
@[simp] theorem State.setElem_colls (c : Ctx) (e : Nat) (x : Elem) : (s.setElem c e x).colls = s.colls := rfl
@[simp] theorem State.setElem_collCount (c : Ctx) (e : Nat) (x : Elem) : (s.setElem c e x).collCount = s.collCount := rfl
@[simp] theorem State.setElem_dying (c : Ctx) (e : Nat) (x : Elem) : (s.setElem c e x).dying = s.dying := rfl
@[simp] theorem State.setElem_start (c : Ctx) (e : Nat) (x : Elem) : (s.setElem c e x).start = s.start := rfl

/-! ## `setIsl` -/

@[simp] theorem State.setIsl_cycle (c : Ctx) (i : Nat) (x : Isl) : (s.setIsl c i x).cycle = s.cycle := rfl
@[simp] theorem State.setIsl_agenda (c : Ctx) (i : Nat) (x : Isl) : (s.setIsl c i x).agenda = s.agenda := rfl
@[simp] theorem State.setIsl_cur (c : Ctx) (i : Nat) (x : Isl) : (s.setIsl c i x).cur = s.cur := rfl
@[simp] theorem State.setIsl_curElem (c : Ctx) (i : Nat) (x : Isl) : (s.setIsl c i x).curElem = s.curElem := rfl
@[simp] theorem State.setIsl_curCmd (c : Ctx) (i : Nat) (x : Isl) : (s.setIsl c i x).curCmd = s.curCmd := rfl
@[simp] theorem State.setIsl_free (c : Ctx) (i : Nat) (x : Isl) : (s.setIsl c i x).free = s.free := rfl
@[simp] theorem State.setIsl_hostIn (c : Ctx) (i : Nat) (x : Isl) : (s.setIsl c i x).hostIn = s.hostIn := rfl
@[simp] theorem State.setIsl_linkIn (c : Ctx) (i : Nat) (x : Isl) : (s.setIsl c i x).linkIn = s.linkIn := rfl
@[simp] theorem State.setIsl_out (c : Ctx) (i : Nat) (x : Isl) : (s.setIsl c i x).out = s.out := rfl
@[simp] theorem State.setIsl_mem (c : Ctx) (i : Nat) (x : Isl) : (s.setIsl c i x).mem = s.mem := rfl
@[simp] theorem State.setIsl_checks (c : Ctx) (i : Nat) (x : Isl) : (s.setIsl c i x).checks = s.checks := rfl
@[simp] theorem State.setIsl_codeSeen (c : Ctx) (i : Nat) (x : Isl) : (s.setIsl c i x).codeSeen = s.codeSeen := rfl
@[simp] theorem State.setIsl_errs (c : Ctx) (i : Nat) (x : Isl) : (s.setIsl c i x).errs = s.errs := rfl
@[simp] theorem State.setIsl_bankCE (c : Ctx) (i : Nat) (x : Isl) : (s.setIsl c i x).bankCE = s.bankCE := rfl
@[simp] theorem State.setIsl_basinCE (c : Ctx) (i : Nat) (x : Isl) : (s.setIsl c i x).basinCE = s.basinCE := rfl
@[simp] theorem State.setIsl_tlb1 (c : Ctx) (i : Nat) (x : Isl) : (s.setIsl c i x).tlb1 = s.tlb1 := rfl
@[simp] theorem State.setIsl_tlb2 (c : Ctx) (i : Nat) (x : Isl) : (s.setIsl c i x).tlb2 = s.tlb2 := rfl
@[simp] theorem State.setIsl_pins (c : Ctx) (i : Nat) (x : Isl) : (s.setIsl c i x).pins = s.pins := rfl
@[simp] theorem State.setIsl_dead (c : Ctx) (i : Nat) (x : Isl) : (s.setIsl c i x).dead = s.dead := rfl
@[simp] theorem State.setIsl_raised (c : Ctx) (i : Nat) (x : Isl) : (s.setIsl c i x).raised = s.raised := rfl
@[simp] theorem State.setIsl_refreshPtr (c : Ctx) (i : Nat) (x : Isl) : (s.setIsl c i x).refreshPtr = s.refreshPtr := rfl
@[simp] theorem State.setIsl_elided (c : Ctx) (i : Nat) (x : Isl) : (s.setIsl c i x).elided = s.elided := rfl
@[simp] theorem State.setIsl_threads (c : Ctx) (i : Nat) (x : Isl) : (s.setIsl c i x).threads = s.threads := rfl
@[simp] theorem State.setIsl_elems (c : Ctx) (i : Nat) (x : Isl) : (s.setIsl c i x).elems = s.elems := rfl
@[simp] theorem State.setIsl_bank (c : Ctx) (i : Nat) (x : Isl) : (s.setIsl c i x).bank = s.bank := rfl
@[simp] theorem State.setIsl_bankMeta (c : Ctx) (i : Nat) (x : Isl) : (s.setIsl c i x).bankMeta = s.bankMeta := rfl
@[simp] theorem State.setIsl_planeQ (c : Ctx) (i : Nat) (x : Isl) : (s.setIsl c i x).planeQ = s.planeQ := rfl
@[simp] theorem State.setIsl_bankQ (c : Ctx) (i : Nat) (x : Isl) : (s.setIsl c i x).bankQ = s.bankQ := rfl
@[simp] theorem State.setIsl_active (c : Ctx) (i : Nat) (x : Isl) : (s.setIsl c i x).active = s.active := rfl
@[simp] theorem State.setIsl_standby (c : Ctx) (i : Nat) (x : Isl) : (s.setIsl c i x).standby = s.standby := rfl
@[simp] theorem State.setIsl_links (c : Ctx) (i : Nat) (x : Isl) : (s.setIsl c i x).links = s.links := rfl
@[simp] theorem State.setIsl_cmdTab (c : Ctx) (i : Nat) (x : Isl) : (s.setIsl c i x).cmdTab = s.cmdTab := rfl
@[simp] theorem State.setIsl_runs (c : Ctx) (i : Nat) (x : Isl) : (s.setIsl c i x).runs = s.runs := rfl
@[simp] theorem State.setIsl_acc (c : Ctx) (i : Nat) (x : Isl) : (s.setIsl c i x).acc = s.acc := rfl
@[simp] theorem State.setIsl_tileA (c : Ctx) (i : Nat) (x : Isl) : (s.setIsl c i x).tileA = s.tileA := rfl
@[simp] theorem State.setIsl_tileS (c : Ctx) (i : Nat) (x : Isl) : (s.setIsl c i x).tileS = s.tileS := rfl
@[simp] theorem State.setIsl_slots (c : Ctx) (i : Nat) (x : Isl) : (s.setIsl c i x).slots = s.slots := rfl
@[simp] theorem State.setIsl_cams (c : Ctx) (i : Nat) (x : Isl) : (s.setIsl c i x).cams = s.cams := rfl
@[simp] theorem State.setIsl_sst (c : Ctx) (i : Nat) (x : Isl) : (s.setIsl c i x).sst = s.sst := rfl
@[simp] theorem State.setIsl_atq (c : Ctx) (i : Nat) (x : Isl) : (s.setIsl c i x).atq = s.atq := rfl
@[simp] theorem State.setIsl_atRun (c : Ctx) (i : Nat) (x : Isl) : (s.setIsl c i x).atRun = s.atRun := rfl
@[simp] theorem State.setIsl_tasks (c : Ctx) (i : Nat) (x : Isl) : (s.setIsl c i x).tasks = s.tasks := rfl
@[simp] theorem State.setIsl_gangs (c : Ctx) (i : Nat) (x : Isl) : (s.setIsl c i x).gangs = s.gangs := rfl
@[simp] theorem State.setIsl_owner (c : Ctx) (i : Nat) (x : Isl) : (s.setIsl c i x).owner = s.owner := rfl
@[simp] theorem State.setIsl_booked (c : Ctx) (i : Nat) (x : Isl) : (s.setIsl c i x).booked = s.booked := rfl
@[simp] theorem State.setIsl_nextTask (c : Ctx) (i : Nat) (x : Isl) : (s.setIsl c i x).nextTask = s.nextTask := rfl
@[simp] theorem State.setIsl_nextGang (c : Ctx) (i : Nat) (x : Isl) : (s.setIsl c i x).nextGang = s.nextGang := rfl
@[simp] theorem State.setIsl_nextOp (c : Ctx) (i : Nat) (x : Isl) : (s.setIsl c i x).nextOp = s.nextOp := rfl
@[simp] theorem State.setIsl_nextLay (c : Ctx) (i : Nat) (x : Isl) : (s.setIsl c i x).nextLay = s.nextLay := rfl
@[simp] theorem State.setIsl_bars (c : Ctx) (i : Nat) (x : Isl) : (s.setIsl c i x).bars = s.bars := rfl
@[simp] theorem State.setIsl_berths (c : Ctx) (i : Nat) (x : Isl) : (s.setIsl c i x).berths = s.berths := rfl
@[simp] theorem State.setIsl_disps (c : Ctx) (i : Nat) (x : Isl) : (s.setIsl c i x).disps = s.disps := rfl
@[simp] theorem State.setIsl_saves (c : Ctx) (i : Nat) (x : Isl) : (s.setIsl c i x).saves = s.saves := rfl
@[simp] theorem State.setIsl_queues (c : Ctx) (i : Nat) (x : Isl) : (s.setIsl c i x).queues = s.queues := rfl
@[simp] theorem State.setIsl_fb (c : Ctx) (i : Nat) (x : Isl) : (s.setIsl c i x).fb = s.fb := rfl
@[simp] theorem State.setIsl_faultQ (c : Ctx) (i : Nat) (x : Isl) : (s.setIsl c i x).faultQ = s.faultQ := rfl
@[simp] theorem State.setIsl_recorded (c : Ctx) (i : Nat) (x : Isl) : (s.setIsl c i x).recorded = s.recorded := rfl
@[simp] theorem State.setIsl_regs (c : Ctx) (i : Nat) (x : Isl) : (s.setIsl c i x).regs = s.regs := rfl
@[simp] theorem State.setIsl_pkgId (c : Ctx) (i : Nat) (x : Isl) : (s.setIsl c i x).pkgId = s.pkgId := rfl
@[simp] theorem State.setIsl_raceFlag (c : Ctx) (i : Nat) (x : Isl) : (s.setIsl c i x).raceFlag = s.raceFlag := rfl
@[simp] theorem State.setIsl_kept (c : Ctx) (i : Nat) (x : Isl) : (s.setIsl c i x).kept = s.kept := rfl
@[simp] theorem State.setIsl_stores (c : Ctx) (i : Nat) (x : Isl) : (s.setIsl c i x).stores = s.stores := rfl
@[simp] theorem State.setIsl_badPorts (c : Ctx) (i : Nat) (x : Isl) : (s.setIsl c i x).badPorts = s.badPorts := rfl
@[simp] theorem State.setIsl_unreach (c : Ctx) (i : Nat) (x : Isl) : (s.setIsl c i x).unreach = s.unreach := rfl
@[simp] theorem State.setIsl_mailWait (c : Ctx) (i : Nat) (x : Isl) : (s.setIsl c i x).mailWait = s.mailWait := rfl
@[simp] theorem State.setIsl_colls (c : Ctx) (i : Nat) (x : Isl) : (s.setIsl c i x).colls = s.colls := rfl
@[simp] theorem State.setIsl_collCount (c : Ctx) (i : Nat) (x : Isl) : (s.setIsl c i x).collCount = s.collCount := rfl
@[simp] theorem State.setIsl_dying (c : Ctx) (i : Nat) (x : Isl) : (s.setIsl c i x).dying = s.dying := rfl
@[simp] theorem State.setIsl_start (c : Ctx) (i : Nat) (x : Isl) : (s.setIsl c i x).start = s.start := rfl

/-! ## `setRun` -/

@[simp] theorem State.setRun_cycle (c : Ctx) (k : Nat) (x : CmdRun) : (s.setRun c k x).cycle = s.cycle := rfl
@[simp] theorem State.setRun_agenda (c : Ctx) (k : Nat) (x : CmdRun) : (s.setRun c k x).agenda = s.agenda := rfl
@[simp] theorem State.setRun_cur (c : Ctx) (k : Nat) (x : CmdRun) : (s.setRun c k x).cur = s.cur := rfl
@[simp] theorem State.setRun_curElem (c : Ctx) (k : Nat) (x : CmdRun) : (s.setRun c k x).curElem = s.curElem := rfl
@[simp] theorem State.setRun_curCmd (c : Ctx) (k : Nat) (x : CmdRun) : (s.setRun c k x).curCmd = s.curCmd := rfl
@[simp] theorem State.setRun_free (c : Ctx) (k : Nat) (x : CmdRun) : (s.setRun c k x).free = s.free := rfl
@[simp] theorem State.setRun_hostIn (c : Ctx) (k : Nat) (x : CmdRun) : (s.setRun c k x).hostIn = s.hostIn := rfl
@[simp] theorem State.setRun_linkIn (c : Ctx) (k : Nat) (x : CmdRun) : (s.setRun c k x).linkIn = s.linkIn := rfl
@[simp] theorem State.setRun_out (c : Ctx) (k : Nat) (x : CmdRun) : (s.setRun c k x).out = s.out := rfl
@[simp] theorem State.setRun_mem (c : Ctx) (k : Nat) (x : CmdRun) : (s.setRun c k x).mem = s.mem := rfl
@[simp] theorem State.setRun_checks (c : Ctx) (k : Nat) (x : CmdRun) : (s.setRun c k x).checks = s.checks := rfl
@[simp] theorem State.setRun_codeSeen (c : Ctx) (k : Nat) (x : CmdRun) : (s.setRun c k x).codeSeen = s.codeSeen := rfl
@[simp] theorem State.setRun_errs (c : Ctx) (k : Nat) (x : CmdRun) : (s.setRun c k x).errs = s.errs := rfl
@[simp] theorem State.setRun_bankCE (c : Ctx) (k : Nat) (x : CmdRun) : (s.setRun c k x).bankCE = s.bankCE := rfl
@[simp] theorem State.setRun_basinCE (c : Ctx) (k : Nat) (x : CmdRun) : (s.setRun c k x).basinCE = s.basinCE := rfl
@[simp] theorem State.setRun_tlb1 (c : Ctx) (k : Nat) (x : CmdRun) : (s.setRun c k x).tlb1 = s.tlb1 := rfl
@[simp] theorem State.setRun_tlb2 (c : Ctx) (k : Nat) (x : CmdRun) : (s.setRun c k x).tlb2 = s.tlb2 := rfl
@[simp] theorem State.setRun_pins (c : Ctx) (k : Nat) (x : CmdRun) : (s.setRun c k x).pins = s.pins := rfl
@[simp] theorem State.setRun_dead (c : Ctx) (k : Nat) (x : CmdRun) : (s.setRun c k x).dead = s.dead := rfl
@[simp] theorem State.setRun_raised (c : Ctx) (k : Nat) (x : CmdRun) : (s.setRun c k x).raised = s.raised := rfl
@[simp] theorem State.setRun_refreshPtr (c : Ctx) (k : Nat) (x : CmdRun) : (s.setRun c k x).refreshPtr = s.refreshPtr := rfl
@[simp] theorem State.setRun_elided (c : Ctx) (k : Nat) (x : CmdRun) : (s.setRun c k x).elided = s.elided := rfl
@[simp] theorem State.setRun_threads (c : Ctx) (k : Nat) (x : CmdRun) : (s.setRun c k x).threads = s.threads := rfl
@[simp] theorem State.setRun_elems (c : Ctx) (k : Nat) (x : CmdRun) : (s.setRun c k x).elems = s.elems := rfl
@[simp] theorem State.setRun_bank (c : Ctx) (k : Nat) (x : CmdRun) : (s.setRun c k x).bank = s.bank := rfl
@[simp] theorem State.setRun_bankMeta (c : Ctx) (k : Nat) (x : CmdRun) : (s.setRun c k x).bankMeta = s.bankMeta := rfl
@[simp] theorem State.setRun_planeQ (c : Ctx) (k : Nat) (x : CmdRun) : (s.setRun c k x).planeQ = s.planeQ := rfl
@[simp] theorem State.setRun_bankQ (c : Ctx) (k : Nat) (x : CmdRun) : (s.setRun c k x).bankQ = s.bankQ := rfl
@[simp] theorem State.setRun_active (c : Ctx) (k : Nat) (x : CmdRun) : (s.setRun c k x).active = s.active := rfl
@[simp] theorem State.setRun_standby (c : Ctx) (k : Nat) (x : CmdRun) : (s.setRun c k x).standby = s.standby := rfl
@[simp] theorem State.setRun_isls (c : Ctx) (k : Nat) (x : CmdRun) : (s.setRun c k x).isls = s.isls := rfl
@[simp] theorem State.setRun_links (c : Ctx) (k : Nat) (x : CmdRun) : (s.setRun c k x).links = s.links := rfl
@[simp] theorem State.setRun_cmdTab (c : Ctx) (k : Nat) (x : CmdRun) : (s.setRun c k x).cmdTab = s.cmdTab := rfl
@[simp] theorem State.setRun_acc (c : Ctx) (k : Nat) (x : CmdRun) : (s.setRun c k x).acc = s.acc := rfl
@[simp] theorem State.setRun_tileA (c : Ctx) (k : Nat) (x : CmdRun) : (s.setRun c k x).tileA = s.tileA := rfl
@[simp] theorem State.setRun_tileS (c : Ctx) (k : Nat) (x : CmdRun) : (s.setRun c k x).tileS = s.tileS := rfl
@[simp] theorem State.setRun_slots (c : Ctx) (k : Nat) (x : CmdRun) : (s.setRun c k x).slots = s.slots := rfl
@[simp] theorem State.setRun_cams (c : Ctx) (k : Nat) (x : CmdRun) : (s.setRun c k x).cams = s.cams := rfl
@[simp] theorem State.setRun_sst (c : Ctx) (k : Nat) (x : CmdRun) : (s.setRun c k x).sst = s.sst := rfl
@[simp] theorem State.setRun_atq (c : Ctx) (k : Nat) (x : CmdRun) : (s.setRun c k x).atq = s.atq := rfl
@[simp] theorem State.setRun_atRun (c : Ctx) (k : Nat) (x : CmdRun) : (s.setRun c k x).atRun = s.atRun := rfl
@[simp] theorem State.setRun_tasks (c : Ctx) (k : Nat) (x : CmdRun) : (s.setRun c k x).tasks = s.tasks := rfl
@[simp] theorem State.setRun_gangs (c : Ctx) (k : Nat) (x : CmdRun) : (s.setRun c k x).gangs = s.gangs := rfl
@[simp] theorem State.setRun_owner (c : Ctx) (k : Nat) (x : CmdRun) : (s.setRun c k x).owner = s.owner := rfl
@[simp] theorem State.setRun_booked (c : Ctx) (k : Nat) (x : CmdRun) : (s.setRun c k x).booked = s.booked := rfl
@[simp] theorem State.setRun_nextTask (c : Ctx) (k : Nat) (x : CmdRun) : (s.setRun c k x).nextTask = s.nextTask := rfl
@[simp] theorem State.setRun_nextGang (c : Ctx) (k : Nat) (x : CmdRun) : (s.setRun c k x).nextGang = s.nextGang := rfl
@[simp] theorem State.setRun_nextOp (c : Ctx) (k : Nat) (x : CmdRun) : (s.setRun c k x).nextOp = s.nextOp := rfl
@[simp] theorem State.setRun_nextLay (c : Ctx) (k : Nat) (x : CmdRun) : (s.setRun c k x).nextLay = s.nextLay := rfl
@[simp] theorem State.setRun_bars (c : Ctx) (k : Nat) (x : CmdRun) : (s.setRun c k x).bars = s.bars := rfl
@[simp] theorem State.setRun_berths (c : Ctx) (k : Nat) (x : CmdRun) : (s.setRun c k x).berths = s.berths := rfl
@[simp] theorem State.setRun_disps (c : Ctx) (k : Nat) (x : CmdRun) : (s.setRun c k x).disps = s.disps := rfl
@[simp] theorem State.setRun_saves (c : Ctx) (k : Nat) (x : CmdRun) : (s.setRun c k x).saves = s.saves := rfl
@[simp] theorem State.setRun_queues (c : Ctx) (k : Nat) (x : CmdRun) : (s.setRun c k x).queues = s.queues := rfl
@[simp] theorem State.setRun_fb (c : Ctx) (k : Nat) (x : CmdRun) : (s.setRun c k x).fb = s.fb := rfl
@[simp] theorem State.setRun_faultQ (c : Ctx) (k : Nat) (x : CmdRun) : (s.setRun c k x).faultQ = s.faultQ := rfl
@[simp] theorem State.setRun_recorded (c : Ctx) (k : Nat) (x : CmdRun) : (s.setRun c k x).recorded = s.recorded := rfl
@[simp] theorem State.setRun_regs (c : Ctx) (k : Nat) (x : CmdRun) : (s.setRun c k x).regs = s.regs := rfl
@[simp] theorem State.setRun_pkgId (c : Ctx) (k : Nat) (x : CmdRun) : (s.setRun c k x).pkgId = s.pkgId := rfl
@[simp] theorem State.setRun_raceFlag (c : Ctx) (k : Nat) (x : CmdRun) : (s.setRun c k x).raceFlag = s.raceFlag := rfl
@[simp] theorem State.setRun_kept (c : Ctx) (k : Nat) (x : CmdRun) : (s.setRun c k x).kept = s.kept := rfl
@[simp] theorem State.setRun_stores (c : Ctx) (k : Nat) (x : CmdRun) : (s.setRun c k x).stores = s.stores := rfl
@[simp] theorem State.setRun_badPorts (c : Ctx) (k : Nat) (x : CmdRun) : (s.setRun c k x).badPorts = s.badPorts := rfl
@[simp] theorem State.setRun_unreach (c : Ctx) (k : Nat) (x : CmdRun) : (s.setRun c k x).unreach = s.unreach := rfl
@[simp] theorem State.setRun_mailWait (c : Ctx) (k : Nat) (x : CmdRun) : (s.setRun c k x).mailWait = s.mailWait := rfl
@[simp] theorem State.setRun_colls (c : Ctx) (k : Nat) (x : CmdRun) : (s.setRun c k x).colls = s.colls := rfl
@[simp] theorem State.setRun_collCount (c : Ctx) (k : Nat) (x : CmdRun) : (s.setRun c k x).collCount = s.collCount := rfl
@[simp] theorem State.setRun_dying (c : Ctx) (k : Nat) (x : CmdRun) : (s.setRun c k x).dying = s.dying := rfl
@[simp] theorem State.setRun_start (c : Ctx) (k : Nat) (x : CmdRun) : (s.setRun c k x).start = s.start := rfl

/-! ## `setCmdRec` -/

@[simp] theorem State.setCmdRec_cycle (c : Ctx) (k : Nat) (x : CmdRec) : (s.setCmdRec c k x).cycle = s.cycle := rfl
@[simp] theorem State.setCmdRec_agenda (c : Ctx) (k : Nat) (x : CmdRec) : (s.setCmdRec c k x).agenda = s.agenda := rfl
@[simp] theorem State.setCmdRec_cur (c : Ctx) (k : Nat) (x : CmdRec) : (s.setCmdRec c k x).cur = s.cur := rfl
@[simp] theorem State.setCmdRec_curElem (c : Ctx) (k : Nat) (x : CmdRec) : (s.setCmdRec c k x).curElem = s.curElem := rfl
@[simp] theorem State.setCmdRec_curCmd (c : Ctx) (k : Nat) (x : CmdRec) : (s.setCmdRec c k x).curCmd = s.curCmd := rfl
@[simp] theorem State.setCmdRec_free (c : Ctx) (k : Nat) (x : CmdRec) : (s.setCmdRec c k x).free = s.free := rfl
@[simp] theorem State.setCmdRec_hostIn (c : Ctx) (k : Nat) (x : CmdRec) : (s.setCmdRec c k x).hostIn = s.hostIn := rfl
@[simp] theorem State.setCmdRec_linkIn (c : Ctx) (k : Nat) (x : CmdRec) : (s.setCmdRec c k x).linkIn = s.linkIn := rfl
@[simp] theorem State.setCmdRec_out (c : Ctx) (k : Nat) (x : CmdRec) : (s.setCmdRec c k x).out = s.out := rfl
@[simp] theorem State.setCmdRec_mem (c : Ctx) (k : Nat) (x : CmdRec) : (s.setCmdRec c k x).mem = s.mem := rfl
@[simp] theorem State.setCmdRec_checks (c : Ctx) (k : Nat) (x : CmdRec) : (s.setCmdRec c k x).checks = s.checks := rfl
@[simp] theorem State.setCmdRec_codeSeen (c : Ctx) (k : Nat) (x : CmdRec) : (s.setCmdRec c k x).codeSeen = s.codeSeen := rfl
@[simp] theorem State.setCmdRec_errs (c : Ctx) (k : Nat) (x : CmdRec) : (s.setCmdRec c k x).errs = s.errs := rfl
@[simp] theorem State.setCmdRec_bankCE (c : Ctx) (k : Nat) (x : CmdRec) : (s.setCmdRec c k x).bankCE = s.bankCE := rfl
@[simp] theorem State.setCmdRec_basinCE (c : Ctx) (k : Nat) (x : CmdRec) : (s.setCmdRec c k x).basinCE = s.basinCE := rfl
@[simp] theorem State.setCmdRec_tlb1 (c : Ctx) (k : Nat) (x : CmdRec) : (s.setCmdRec c k x).tlb1 = s.tlb1 := rfl
@[simp] theorem State.setCmdRec_tlb2 (c : Ctx) (k : Nat) (x : CmdRec) : (s.setCmdRec c k x).tlb2 = s.tlb2 := rfl
@[simp] theorem State.setCmdRec_pins (c : Ctx) (k : Nat) (x : CmdRec) : (s.setCmdRec c k x).pins = s.pins := rfl
@[simp] theorem State.setCmdRec_dead (c : Ctx) (k : Nat) (x : CmdRec) : (s.setCmdRec c k x).dead = s.dead := rfl
@[simp] theorem State.setCmdRec_raised (c : Ctx) (k : Nat) (x : CmdRec) : (s.setCmdRec c k x).raised = s.raised := rfl
@[simp] theorem State.setCmdRec_refreshPtr (c : Ctx) (k : Nat) (x : CmdRec) : (s.setCmdRec c k x).refreshPtr = s.refreshPtr := rfl
@[simp] theorem State.setCmdRec_elided (c : Ctx) (k : Nat) (x : CmdRec) : (s.setCmdRec c k x).elided = s.elided := rfl
@[simp] theorem State.setCmdRec_threads (c : Ctx) (k : Nat) (x : CmdRec) : (s.setCmdRec c k x).threads = s.threads := rfl
@[simp] theorem State.setCmdRec_elems (c : Ctx) (k : Nat) (x : CmdRec) : (s.setCmdRec c k x).elems = s.elems := rfl
@[simp] theorem State.setCmdRec_bank (c : Ctx) (k : Nat) (x : CmdRec) : (s.setCmdRec c k x).bank = s.bank := rfl
@[simp] theorem State.setCmdRec_bankMeta (c : Ctx) (k : Nat) (x : CmdRec) : (s.setCmdRec c k x).bankMeta = s.bankMeta := rfl
@[simp] theorem State.setCmdRec_planeQ (c : Ctx) (k : Nat) (x : CmdRec) : (s.setCmdRec c k x).planeQ = s.planeQ := rfl
@[simp] theorem State.setCmdRec_bankQ (c : Ctx) (k : Nat) (x : CmdRec) : (s.setCmdRec c k x).bankQ = s.bankQ := rfl
@[simp] theorem State.setCmdRec_active (c : Ctx) (k : Nat) (x : CmdRec) : (s.setCmdRec c k x).active = s.active := rfl
@[simp] theorem State.setCmdRec_standby (c : Ctx) (k : Nat) (x : CmdRec) : (s.setCmdRec c k x).standby = s.standby := rfl
@[simp] theorem State.setCmdRec_isls (c : Ctx) (k : Nat) (x : CmdRec) : (s.setCmdRec c k x).isls = s.isls := rfl
@[simp] theorem State.setCmdRec_links (c : Ctx) (k : Nat) (x : CmdRec) : (s.setCmdRec c k x).links = s.links := rfl
@[simp] theorem State.setCmdRec_runs (c : Ctx) (k : Nat) (x : CmdRec) : (s.setCmdRec c k x).runs = s.runs := rfl
@[simp] theorem State.setCmdRec_acc (c : Ctx) (k : Nat) (x : CmdRec) : (s.setCmdRec c k x).acc = s.acc := rfl
@[simp] theorem State.setCmdRec_tileA (c : Ctx) (k : Nat) (x : CmdRec) : (s.setCmdRec c k x).tileA = s.tileA := rfl
@[simp] theorem State.setCmdRec_tileS (c : Ctx) (k : Nat) (x : CmdRec) : (s.setCmdRec c k x).tileS = s.tileS := rfl
@[simp] theorem State.setCmdRec_slots (c : Ctx) (k : Nat) (x : CmdRec) : (s.setCmdRec c k x).slots = s.slots := rfl
@[simp] theorem State.setCmdRec_cams (c : Ctx) (k : Nat) (x : CmdRec) : (s.setCmdRec c k x).cams = s.cams := rfl
@[simp] theorem State.setCmdRec_sst (c : Ctx) (k : Nat) (x : CmdRec) : (s.setCmdRec c k x).sst = s.sst := rfl
@[simp] theorem State.setCmdRec_atq (c : Ctx) (k : Nat) (x : CmdRec) : (s.setCmdRec c k x).atq = s.atq := rfl
@[simp] theorem State.setCmdRec_atRun (c : Ctx) (k : Nat) (x : CmdRec) : (s.setCmdRec c k x).atRun = s.atRun := rfl
@[simp] theorem State.setCmdRec_tasks (c : Ctx) (k : Nat) (x : CmdRec) : (s.setCmdRec c k x).tasks = s.tasks := rfl
@[simp] theorem State.setCmdRec_gangs (c : Ctx) (k : Nat) (x : CmdRec) : (s.setCmdRec c k x).gangs = s.gangs := rfl
@[simp] theorem State.setCmdRec_owner (c : Ctx) (k : Nat) (x : CmdRec) : (s.setCmdRec c k x).owner = s.owner := rfl
@[simp] theorem State.setCmdRec_booked (c : Ctx) (k : Nat) (x : CmdRec) : (s.setCmdRec c k x).booked = s.booked := rfl
@[simp] theorem State.setCmdRec_nextTask (c : Ctx) (k : Nat) (x : CmdRec) : (s.setCmdRec c k x).nextTask = s.nextTask := rfl
@[simp] theorem State.setCmdRec_nextGang (c : Ctx) (k : Nat) (x : CmdRec) : (s.setCmdRec c k x).nextGang = s.nextGang := rfl
@[simp] theorem State.setCmdRec_nextOp (c : Ctx) (k : Nat) (x : CmdRec) : (s.setCmdRec c k x).nextOp = s.nextOp := rfl
@[simp] theorem State.setCmdRec_nextLay (c : Ctx) (k : Nat) (x : CmdRec) : (s.setCmdRec c k x).nextLay = s.nextLay := rfl
@[simp] theorem State.setCmdRec_bars (c : Ctx) (k : Nat) (x : CmdRec) : (s.setCmdRec c k x).bars = s.bars := rfl
@[simp] theorem State.setCmdRec_berths (c : Ctx) (k : Nat) (x : CmdRec) : (s.setCmdRec c k x).berths = s.berths := rfl
@[simp] theorem State.setCmdRec_disps (c : Ctx) (k : Nat) (x : CmdRec) : (s.setCmdRec c k x).disps = s.disps := rfl
@[simp] theorem State.setCmdRec_saves (c : Ctx) (k : Nat) (x : CmdRec) : (s.setCmdRec c k x).saves = s.saves := rfl
@[simp] theorem State.setCmdRec_queues (c : Ctx) (k : Nat) (x : CmdRec) : (s.setCmdRec c k x).queues = s.queues := rfl
@[simp] theorem State.setCmdRec_fb (c : Ctx) (k : Nat) (x : CmdRec) : (s.setCmdRec c k x).fb = s.fb := rfl
@[simp] theorem State.setCmdRec_faultQ (c : Ctx) (k : Nat) (x : CmdRec) : (s.setCmdRec c k x).faultQ = s.faultQ := rfl
@[simp] theorem State.setCmdRec_recorded (c : Ctx) (k : Nat) (x : CmdRec) : (s.setCmdRec c k x).recorded = s.recorded := rfl
@[simp] theorem State.setCmdRec_regs (c : Ctx) (k : Nat) (x : CmdRec) : (s.setCmdRec c k x).regs = s.regs := rfl
@[simp] theorem State.setCmdRec_pkgId (c : Ctx) (k : Nat) (x : CmdRec) : (s.setCmdRec c k x).pkgId = s.pkgId := rfl
@[simp] theorem State.setCmdRec_raceFlag (c : Ctx) (k : Nat) (x : CmdRec) : (s.setCmdRec c k x).raceFlag = s.raceFlag := rfl
@[simp] theorem State.setCmdRec_kept (c : Ctx) (k : Nat) (x : CmdRec) : (s.setCmdRec c k x).kept = s.kept := rfl
@[simp] theorem State.setCmdRec_stores (c : Ctx) (k : Nat) (x : CmdRec) : (s.setCmdRec c k x).stores = s.stores := rfl
@[simp] theorem State.setCmdRec_badPorts (c : Ctx) (k : Nat) (x : CmdRec) : (s.setCmdRec c k x).badPorts = s.badPorts := rfl
@[simp] theorem State.setCmdRec_unreach (c : Ctx) (k : Nat) (x : CmdRec) : (s.setCmdRec c k x).unreach = s.unreach := rfl
@[simp] theorem State.setCmdRec_mailWait (c : Ctx) (k : Nat) (x : CmdRec) : (s.setCmdRec c k x).mailWait = s.mailWait := rfl
@[simp] theorem State.setCmdRec_colls (c : Ctx) (k : Nat) (x : CmdRec) : (s.setCmdRec c k x).colls = s.colls := rfl
@[simp] theorem State.setCmdRec_collCount (c : Ctx) (k : Nat) (x : CmdRec) : (s.setCmdRec c k x).collCount = s.collCount := rfl
@[simp] theorem State.setCmdRec_dying (c : Ctx) (k : Nat) (x : CmdRec) : (s.setCmdRec c k x).dying = s.dying := rfl
@[simp] theorem State.setCmdRec_start (c : Ctx) (k : Nat) (x : CmdRec) : (s.setCmdRec c k x).start = s.start := rfl

/-! ## `setGang` -/

@[simp] theorem State.setGang_cycle (g : Nat) (x : Gang) : (s.setGang g x).cycle = s.cycle := rfl
@[simp] theorem State.setGang_agenda (g : Nat) (x : Gang) : (s.setGang g x).agenda = s.agenda := rfl
@[simp] theorem State.setGang_cur (g : Nat) (x : Gang) : (s.setGang g x).cur = s.cur := rfl
@[simp] theorem State.setGang_curElem (g : Nat) (x : Gang) : (s.setGang g x).curElem = s.curElem := rfl
@[simp] theorem State.setGang_curCmd (g : Nat) (x : Gang) : (s.setGang g x).curCmd = s.curCmd := rfl
@[simp] theorem State.setGang_free (g : Nat) (x : Gang) : (s.setGang g x).free = s.free := rfl
@[simp] theorem State.setGang_hostIn (g : Nat) (x : Gang) : (s.setGang g x).hostIn = s.hostIn := rfl
@[simp] theorem State.setGang_linkIn (g : Nat) (x : Gang) : (s.setGang g x).linkIn = s.linkIn := rfl
@[simp] theorem State.setGang_out (g : Nat) (x : Gang) : (s.setGang g x).out = s.out := rfl
@[simp] theorem State.setGang_mem (g : Nat) (x : Gang) : (s.setGang g x).mem = s.mem := rfl
@[simp] theorem State.setGang_checks (g : Nat) (x : Gang) : (s.setGang g x).checks = s.checks := rfl
@[simp] theorem State.setGang_codeSeen (g : Nat) (x : Gang) : (s.setGang g x).codeSeen = s.codeSeen := rfl
@[simp] theorem State.setGang_errs (g : Nat) (x : Gang) : (s.setGang g x).errs = s.errs := rfl
@[simp] theorem State.setGang_bankCE (g : Nat) (x : Gang) : (s.setGang g x).bankCE = s.bankCE := rfl
@[simp] theorem State.setGang_basinCE (g : Nat) (x : Gang) : (s.setGang g x).basinCE = s.basinCE := rfl
@[simp] theorem State.setGang_tlb1 (g : Nat) (x : Gang) : (s.setGang g x).tlb1 = s.tlb1 := rfl
@[simp] theorem State.setGang_tlb2 (g : Nat) (x : Gang) : (s.setGang g x).tlb2 = s.tlb2 := rfl
@[simp] theorem State.setGang_pins (g : Nat) (x : Gang) : (s.setGang g x).pins = s.pins := rfl
@[simp] theorem State.setGang_dead (g : Nat) (x : Gang) : (s.setGang g x).dead = s.dead := rfl
@[simp] theorem State.setGang_raised (g : Nat) (x : Gang) : (s.setGang g x).raised = s.raised := rfl
@[simp] theorem State.setGang_refreshPtr (g : Nat) (x : Gang) : (s.setGang g x).refreshPtr = s.refreshPtr := rfl
@[simp] theorem State.setGang_elided (g : Nat) (x : Gang) : (s.setGang g x).elided = s.elided := rfl
@[simp] theorem State.setGang_threads (g : Nat) (x : Gang) : (s.setGang g x).threads = s.threads := rfl
@[simp] theorem State.setGang_elems (g : Nat) (x : Gang) : (s.setGang g x).elems = s.elems := rfl
@[simp] theorem State.setGang_bank (g : Nat) (x : Gang) : (s.setGang g x).bank = s.bank := rfl
@[simp] theorem State.setGang_bankMeta (g : Nat) (x : Gang) : (s.setGang g x).bankMeta = s.bankMeta := rfl
@[simp] theorem State.setGang_planeQ (g : Nat) (x : Gang) : (s.setGang g x).planeQ = s.planeQ := rfl
@[simp] theorem State.setGang_bankQ (g : Nat) (x : Gang) : (s.setGang g x).bankQ = s.bankQ := rfl
@[simp] theorem State.setGang_active (g : Nat) (x : Gang) : (s.setGang g x).active = s.active := rfl
@[simp] theorem State.setGang_standby (g : Nat) (x : Gang) : (s.setGang g x).standby = s.standby := rfl
@[simp] theorem State.setGang_isls (g : Nat) (x : Gang) : (s.setGang g x).isls = s.isls := rfl
@[simp] theorem State.setGang_links (g : Nat) (x : Gang) : (s.setGang g x).links = s.links := rfl
@[simp] theorem State.setGang_cmdTab (g : Nat) (x : Gang) : (s.setGang g x).cmdTab = s.cmdTab := rfl
@[simp] theorem State.setGang_runs (g : Nat) (x : Gang) : (s.setGang g x).runs = s.runs := rfl
@[simp] theorem State.setGang_acc (g : Nat) (x : Gang) : (s.setGang g x).acc = s.acc := rfl
@[simp] theorem State.setGang_tileA (g : Nat) (x : Gang) : (s.setGang g x).tileA = s.tileA := rfl
@[simp] theorem State.setGang_tileS (g : Nat) (x : Gang) : (s.setGang g x).tileS = s.tileS := rfl
@[simp] theorem State.setGang_slots (g : Nat) (x : Gang) : (s.setGang g x).slots = s.slots := rfl
@[simp] theorem State.setGang_cams (g : Nat) (x : Gang) : (s.setGang g x).cams = s.cams := rfl
@[simp] theorem State.setGang_sst (g : Nat) (x : Gang) : (s.setGang g x).sst = s.sst := rfl
@[simp] theorem State.setGang_atq (g : Nat) (x : Gang) : (s.setGang g x).atq = s.atq := rfl
@[simp] theorem State.setGang_atRun (g : Nat) (x : Gang) : (s.setGang g x).atRun = s.atRun := rfl
@[simp] theorem State.setGang_tasks (g : Nat) (x : Gang) : (s.setGang g x).tasks = s.tasks := rfl
@[simp] theorem State.setGang_owner (g : Nat) (x : Gang) : (s.setGang g x).owner = s.owner := rfl
@[simp] theorem State.setGang_booked (g : Nat) (x : Gang) : (s.setGang g x).booked = s.booked := rfl
@[simp] theorem State.setGang_nextTask (g : Nat) (x : Gang) : (s.setGang g x).nextTask = s.nextTask := rfl
@[simp] theorem State.setGang_nextGang (g : Nat) (x : Gang) : (s.setGang g x).nextGang = s.nextGang := rfl
@[simp] theorem State.setGang_nextOp (g : Nat) (x : Gang) : (s.setGang g x).nextOp = s.nextOp := rfl
@[simp] theorem State.setGang_nextLay (g : Nat) (x : Gang) : (s.setGang g x).nextLay = s.nextLay := rfl
@[simp] theorem State.setGang_bars (g : Nat) (x : Gang) : (s.setGang g x).bars = s.bars := rfl
@[simp] theorem State.setGang_berths (g : Nat) (x : Gang) : (s.setGang g x).berths = s.berths := rfl
@[simp] theorem State.setGang_disps (g : Nat) (x : Gang) : (s.setGang g x).disps = s.disps := rfl
@[simp] theorem State.setGang_saves (g : Nat) (x : Gang) : (s.setGang g x).saves = s.saves := rfl
@[simp] theorem State.setGang_queues (g : Nat) (x : Gang) : (s.setGang g x).queues = s.queues := rfl
@[simp] theorem State.setGang_fb (g : Nat) (x : Gang) : (s.setGang g x).fb = s.fb := rfl
@[simp] theorem State.setGang_faultQ (g : Nat) (x : Gang) : (s.setGang g x).faultQ = s.faultQ := rfl
@[simp] theorem State.setGang_recorded (g : Nat) (x : Gang) : (s.setGang g x).recorded = s.recorded := rfl
@[simp] theorem State.setGang_regs (g : Nat) (x : Gang) : (s.setGang g x).regs = s.regs := rfl
@[simp] theorem State.setGang_pkgId (g : Nat) (x : Gang) : (s.setGang g x).pkgId = s.pkgId := rfl
@[simp] theorem State.setGang_raceFlag (g : Nat) (x : Gang) : (s.setGang g x).raceFlag = s.raceFlag := rfl
@[simp] theorem State.setGang_kept (g : Nat) (x : Gang) : (s.setGang g x).kept = s.kept := rfl
@[simp] theorem State.setGang_stores (g : Nat) (x : Gang) : (s.setGang g x).stores = s.stores := rfl
@[simp] theorem State.setGang_badPorts (g : Nat) (x : Gang) : (s.setGang g x).badPorts = s.badPorts := rfl
@[simp] theorem State.setGang_unreach (g : Nat) (x : Gang) : (s.setGang g x).unreach = s.unreach := rfl
@[simp] theorem State.setGang_mailWait (g : Nat) (x : Gang) : (s.setGang g x).mailWait = s.mailWait := rfl
@[simp] theorem State.setGang_colls (g : Nat) (x : Gang) : (s.setGang g x).colls = s.colls := rfl
@[simp] theorem State.setGang_collCount (g : Nat) (x : Gang) : (s.setGang g x).collCount = s.collCount := rfl
@[simp] theorem State.setGang_dying (g : Nat) (x : Gang) : (s.setGang g x).dying = s.dying := rfl
@[simp] theorem State.setGang_start (g : Nat) (x : Gang) : (s.setGang g x).start = s.start := rfl

/-! ## `setQueue` -/

@[simp] theorem State.setQueue_cycle (q : Nat) (x : Queue) : (s.setQueue q x).cycle = s.cycle := rfl
@[simp] theorem State.setQueue_agenda (q : Nat) (x : Queue) : (s.setQueue q x).agenda = s.agenda := rfl
@[simp] theorem State.setQueue_cur (q : Nat) (x : Queue) : (s.setQueue q x).cur = s.cur := rfl
@[simp] theorem State.setQueue_curElem (q : Nat) (x : Queue) : (s.setQueue q x).curElem = s.curElem := rfl
@[simp] theorem State.setQueue_curCmd (q : Nat) (x : Queue) : (s.setQueue q x).curCmd = s.curCmd := rfl
@[simp] theorem State.setQueue_free (q : Nat) (x : Queue) : (s.setQueue q x).free = s.free := rfl
@[simp] theorem State.setQueue_hostIn (q : Nat) (x : Queue) : (s.setQueue q x).hostIn = s.hostIn := rfl
@[simp] theorem State.setQueue_linkIn (q : Nat) (x : Queue) : (s.setQueue q x).linkIn = s.linkIn := rfl
@[simp] theorem State.setQueue_out (q : Nat) (x : Queue) : (s.setQueue q x).out = s.out := rfl
@[simp] theorem State.setQueue_mem (q : Nat) (x : Queue) : (s.setQueue q x).mem = s.mem := rfl
@[simp] theorem State.setQueue_checks (q : Nat) (x : Queue) : (s.setQueue q x).checks = s.checks := rfl
@[simp] theorem State.setQueue_codeSeen (q : Nat) (x : Queue) : (s.setQueue q x).codeSeen = s.codeSeen := rfl
@[simp] theorem State.setQueue_errs (q : Nat) (x : Queue) : (s.setQueue q x).errs = s.errs := rfl
@[simp] theorem State.setQueue_bankCE (q : Nat) (x : Queue) : (s.setQueue q x).bankCE = s.bankCE := rfl
@[simp] theorem State.setQueue_basinCE (q : Nat) (x : Queue) : (s.setQueue q x).basinCE = s.basinCE := rfl
@[simp] theorem State.setQueue_tlb1 (q : Nat) (x : Queue) : (s.setQueue q x).tlb1 = s.tlb1 := rfl
@[simp] theorem State.setQueue_tlb2 (q : Nat) (x : Queue) : (s.setQueue q x).tlb2 = s.tlb2 := rfl
@[simp] theorem State.setQueue_pins (q : Nat) (x : Queue) : (s.setQueue q x).pins = s.pins := rfl
@[simp] theorem State.setQueue_dead (q : Nat) (x : Queue) : (s.setQueue q x).dead = s.dead := rfl
@[simp] theorem State.setQueue_raised (q : Nat) (x : Queue) : (s.setQueue q x).raised = s.raised := rfl
@[simp] theorem State.setQueue_refreshPtr (q : Nat) (x : Queue) : (s.setQueue q x).refreshPtr = s.refreshPtr := rfl
@[simp] theorem State.setQueue_elided (q : Nat) (x : Queue) : (s.setQueue q x).elided = s.elided := rfl
@[simp] theorem State.setQueue_threads (q : Nat) (x : Queue) : (s.setQueue q x).threads = s.threads := rfl
@[simp] theorem State.setQueue_elems (q : Nat) (x : Queue) : (s.setQueue q x).elems = s.elems := rfl
@[simp] theorem State.setQueue_bank (q : Nat) (x : Queue) : (s.setQueue q x).bank = s.bank := rfl
@[simp] theorem State.setQueue_bankMeta (q : Nat) (x : Queue) : (s.setQueue q x).bankMeta = s.bankMeta := rfl
@[simp] theorem State.setQueue_planeQ (q : Nat) (x : Queue) : (s.setQueue q x).planeQ = s.planeQ := rfl
@[simp] theorem State.setQueue_bankQ (q : Nat) (x : Queue) : (s.setQueue q x).bankQ = s.bankQ := rfl
@[simp] theorem State.setQueue_active (q : Nat) (x : Queue) : (s.setQueue q x).active = s.active := rfl
@[simp] theorem State.setQueue_standby (q : Nat) (x : Queue) : (s.setQueue q x).standby = s.standby := rfl
@[simp] theorem State.setQueue_isls (q : Nat) (x : Queue) : (s.setQueue q x).isls = s.isls := rfl
@[simp] theorem State.setQueue_links (q : Nat) (x : Queue) : (s.setQueue q x).links = s.links := rfl
@[simp] theorem State.setQueue_cmdTab (q : Nat) (x : Queue) : (s.setQueue q x).cmdTab = s.cmdTab := rfl
@[simp] theorem State.setQueue_runs (q : Nat) (x : Queue) : (s.setQueue q x).runs = s.runs := rfl
@[simp] theorem State.setQueue_acc (q : Nat) (x : Queue) : (s.setQueue q x).acc = s.acc := rfl
@[simp] theorem State.setQueue_tileA (q : Nat) (x : Queue) : (s.setQueue q x).tileA = s.tileA := rfl
@[simp] theorem State.setQueue_tileS (q : Nat) (x : Queue) : (s.setQueue q x).tileS = s.tileS := rfl
@[simp] theorem State.setQueue_slots (q : Nat) (x : Queue) : (s.setQueue q x).slots = s.slots := rfl
@[simp] theorem State.setQueue_cams (q : Nat) (x : Queue) : (s.setQueue q x).cams = s.cams := rfl
@[simp] theorem State.setQueue_sst (q : Nat) (x : Queue) : (s.setQueue q x).sst = s.sst := rfl
@[simp] theorem State.setQueue_atq (q : Nat) (x : Queue) : (s.setQueue q x).atq = s.atq := rfl
@[simp] theorem State.setQueue_atRun (q : Nat) (x : Queue) : (s.setQueue q x).atRun = s.atRun := rfl
@[simp] theorem State.setQueue_tasks (q : Nat) (x : Queue) : (s.setQueue q x).tasks = s.tasks := rfl
@[simp] theorem State.setQueue_gangs (q : Nat) (x : Queue) : (s.setQueue q x).gangs = s.gangs := rfl
@[simp] theorem State.setQueue_owner (q : Nat) (x : Queue) : (s.setQueue q x).owner = s.owner := rfl
@[simp] theorem State.setQueue_booked (q : Nat) (x : Queue) : (s.setQueue q x).booked = s.booked := rfl
@[simp] theorem State.setQueue_nextTask (q : Nat) (x : Queue) : (s.setQueue q x).nextTask = s.nextTask := rfl
@[simp] theorem State.setQueue_nextGang (q : Nat) (x : Queue) : (s.setQueue q x).nextGang = s.nextGang := rfl
@[simp] theorem State.setQueue_nextOp (q : Nat) (x : Queue) : (s.setQueue q x).nextOp = s.nextOp := rfl
@[simp] theorem State.setQueue_nextLay (q : Nat) (x : Queue) : (s.setQueue q x).nextLay = s.nextLay := rfl
@[simp] theorem State.setQueue_bars (q : Nat) (x : Queue) : (s.setQueue q x).bars = s.bars := rfl
@[simp] theorem State.setQueue_berths (q : Nat) (x : Queue) : (s.setQueue q x).berths = s.berths := rfl
@[simp] theorem State.setQueue_disps (q : Nat) (x : Queue) : (s.setQueue q x).disps = s.disps := rfl
@[simp] theorem State.setQueue_saves (q : Nat) (x : Queue) : (s.setQueue q x).saves = s.saves := rfl
@[simp] theorem State.setQueue_fb (q : Nat) (x : Queue) : (s.setQueue q x).fb = s.fb := rfl
@[simp] theorem State.setQueue_faultQ (q : Nat) (x : Queue) : (s.setQueue q x).faultQ = s.faultQ := rfl
@[simp] theorem State.setQueue_recorded (q : Nat) (x : Queue) : (s.setQueue q x).recorded = s.recorded := rfl
@[simp] theorem State.setQueue_regs (q : Nat) (x : Queue) : (s.setQueue q x).regs = s.regs := rfl
@[simp] theorem State.setQueue_pkgId (q : Nat) (x : Queue) : (s.setQueue q x).pkgId = s.pkgId := rfl
@[simp] theorem State.setQueue_raceFlag (q : Nat) (x : Queue) : (s.setQueue q x).raceFlag = s.raceFlag := rfl
@[simp] theorem State.setQueue_kept (q : Nat) (x : Queue) : (s.setQueue q x).kept = s.kept := rfl
@[simp] theorem State.setQueue_stores (q : Nat) (x : Queue) : (s.setQueue q x).stores = s.stores := rfl
@[simp] theorem State.setQueue_badPorts (q : Nat) (x : Queue) : (s.setQueue q x).badPorts = s.badPorts := rfl
@[simp] theorem State.setQueue_unreach (q : Nat) (x : Queue) : (s.setQueue q x).unreach = s.unreach := rfl
@[simp] theorem State.setQueue_mailWait (q : Nat) (x : Queue) : (s.setQueue q x).mailWait = s.mailWait := rfl
@[simp] theorem State.setQueue_colls (q : Nat) (x : Queue) : (s.setQueue q x).colls = s.colls := rfl
@[simp] theorem State.setQueue_collCount (q : Nat) (x : Queue) : (s.setQueue q x).collCount = s.collCount := rfl
@[simp] theorem State.setQueue_dying (q : Nat) (x : Queue) : (s.setQueue q x).dying = s.dying := rfl
@[simp] theorem State.setQueue_start (q : Nat) (x : Queue) : (s.setQueue q x).start = s.start := rfl

/-! ## Accessors after updates -/

@[simp] theorem State.thr_setThr_same (c : Ctx) (t : Thread) : (s.setThr c t).thr c = t :=
  mget_mset_same s.threads c.toNat t
theorem State.thr_setThr_ne {c d : Ctx} (h : d ≠ c) (t : Thread) : (s.setThr c t).thr d = s.thr d :=
  mget_mset_ne s.threads (fun e => h (BitVec.eq_of_toNat_eq e)) t
@[simp] theorem State.thr_modThr_same (c : Ctx) (f : Thread → Thread) : (s.modThr c f).thr c = f (s.thr c) :=
  s.thr_setThr_same c _
theorem State.thr_modThr_ne {c d : Ctx} (h : d ≠ c) (f : Thread → Thread) : (s.modThr c f).thr d = s.thr d :=
  s.thr_setThr_ne h _
/-- A change of one thread is the setting of that thread to what it then is. -/
theorem State.modThr_eq (c : Ctx) (f : Thread → Thread) : s.modThr c f = s.setThr c ((s.modThr c f).thr c) := by
  rw [State.thr_modThr_same]; rfl
@[simp] theorem State.task_setTask_same (id : Nat) (t : Task) : (s.setTask id t).task id = t :=
  mget_mset_same s.tasks id t
theorem State.task_setTask_ne {id j : Nat} (h : j ≠ id) (t : Task) : (s.setTask id t).task j = s.task j :=
  mget_mset_ne s.tasks h t
theorem State.task_modTask_same (id : Nat) (f : Task → Task) (h : (s.task id).gang ≠ 0) :
    (s.modTask id f).task id = f (s.task id) := by
  simp [State.modTask, h]
theorem State.task_modTask_ne {id j : Nat} (h : j ≠ id) (f : Task → Task) : (s.modTask id f).task j = s.task j := by
  unfold State.modTask; split
  · rfl
  · exact s.task_setTask_ne h _
@[simp] theorem State.elem_setElem_same (c : Ctx) (e : Nat) (x : Elem) : (s.setElem c e x).elem c e = x :=
  mget_mset_same s.elems (eKey c e) x
theorem State.elem_setElem_ne {c d : Ctx} {e g : Nat} (h : eKey d g ≠ eKey c e) (x : Elem) :
    (s.setElem c e x).elem d g = s.elem d g := mget_mset_ne s.elems h x
@[simp] theorem State.isl_setIsl_same (c : Ctx) (i : Nat) (x : Isl) : (s.setIsl c i x).isl c i = x :=
  mget_mset_same s.isls (iKey c i) x
theorem State.isl_setIsl_ne {c d : Ctx} {i j : Nat} (h : iKey d j ≠ iKey c i) (x : Isl) :
    (s.setIsl c i x).isl d j = s.isl d j := mget_mset_ne s.isls h x
@[simp] theorem State.run_setRun_same (c : Ctx) (k : Nat) (x : CmdRun) : (s.setRun c k x).run c k = x :=
  mget_mset_same s.runs (kKey c k) x
theorem State.run_setRun_ne {c d : Ctx} {k j : Nat} (h : kKey d j ≠ kKey c k) (x : CmdRun) :
    (s.setRun c k x).run d j = s.run d j := mget_mset_ne s.runs h x
@[simp] theorem State.cmdRec_setCmdRec_same (c : Ctx) (k : Nat) (x : CmdRec) : (s.setCmdRec c k x).cmdRec c k = x :=
  mget_mset_same s.cmdTab (kKey c k) x
@[simp] theorem State.gang_setGang_same (g : Nat) (x : Gang) : (s.setGang g x).gang g = x := mget_mset_same s.gangs g x
@[simp] theorem State.queue_setQueue_same (q : Nat) (x : Queue) : (s.setQueue q x).queue q = x :=
  mget_mset_same s.queues q x

/-! ## General registers -/

@[simp] theorem Thread.get_zero (t : Thread) : t.get 0 = 0 := rfl
theorem reg_ne_zero {r : Reg} (h : r ≠ 0) : r.toNat ≠ 0 := fun e => h (BitVec.eq_of_toNat_eq (by simpa using e))
theorem reg_toNat_inj {r d : Reg} : r.toNat = d.toNat ↔ r = d := ⟨fun e => BitVec.eq_of_toNat_eq e, fun e => e ▸ rfl⟩
theorem Thread.get_put (t : Thread) (d r : Reg) (v : Word) (p : Bool) :
    (t.put d v p).get r = if r = d ∧ d ≠ 0 then v else t.get r := by
  by_cases hd : d = 0
  · subst hd; simp [Thread.put]
  · have h1 : t.put d v p = { t with
        g := mset t.g d.toNat v
        poison := if p then t.poison ||| (1#32 <<< d.toNat) else t.poison &&& ~~~(1#32 <<< d.toNat) } := if_neg hd
    rw [h1]
    by_cases hr : r = 0
    · rw [if_neg (fun (h : r = d ∧ d ≠ 0) => hd (h.1 ▸ hr))]; subst hr; rfl
    · show (if r = 0 then 0 else mget (mset t.g d.toNat v) r.toNat) = if r = d ∧ d ≠ 0 then v else
        (if r = 0 then 0 else mget t.g r.toNat)
      rw [if_neg hr, if_neg hr, mget_mset]
      by_cases h : r = d
      · rw [if_pos (reg_toNat_inj.2 h), if_pos ⟨h, hd⟩]
      · rw [if_neg (fun e => h (reg_toNat_inj.1 e)), if_neg (fun e => h e.1)]
theorem testBit_setBit (p : BitVec 32) (d r : Reg) (b : Bool) :
    (if b then p ||| (1#32 <<< d.toNat) else p &&& ~~~(1#32 <<< d.toNat)).getLsbD r.toNat =
      if r = d then b else p.getLsbD r.toNat := by
  have hr := r.isLt
  have hd := d.isLt
  have key : (1#32 <<< d.toNat).getLsbD r.toNat = decide (r = d) := by
    simp only [BitVec.getLsbD_shiftLeft, BitVec.getLsbD_one]
    by_cases h : r = d
    · subst h; simp; omega
    · have : r.toNat ≠ d.toNat := fun e => h (BitVec.eq_of_toNat_eq e)
      simp [h]; omega
  cases b
  · simp only [Bool.false_eq_true, if_false, BitVec.getLsbD_and, BitVec.getLsbD_not, key]
    by_cases h : r = d
    · simp [h]
    · have : r.toNat < 32 := by omega
      simp [h, this]
  · simp only [if_true, BitVec.getLsbD_or, key]
    by_cases h : r = d <;> simp [h]
theorem Thread.poisoned_put (t : Thread) (d r : Reg) (v : Word) (p : Bool) :
    (t.put d v p).poisoned r = if r = d ∧ d ≠ 0 then p else t.poisoned r := by
  by_cases hd : d = 0
  · subst hd; simp [Thread.put]
  · have h1 : t.put d v p = { t with
        g := mset t.g d.toNat v
        poison := if p then t.poison ||| (1#32 <<< d.toNat) else t.poison &&& ~~~(1#32 <<< d.toNat) } := if_neg hd
    rw [h1]
    show (if p then t.poison ||| (1#32 <<< d.toNat) else t.poison &&& ~~~(1#32 <<< d.toNat)).getLsbD r.toNat = _
    rw [testBit_setBit]
    by_cases h : r = d
    · rw [if_pos h, if_pos ⟨h, hd⟩]
    · rw [if_neg h, if_neg (fun e => h e.1)]; rfl

end Sys2Proof.Machine
end

