-- ==== Sys2Proof/Laws/Memory.lean ====
section
/-!
SUPPORT. Laws of memory: a byte after a write, and that every operation keeps the canonical form of memory and of the
checks (R9, R71 to R73).
-/

namespace Sys2Proof.Machine

open Sys2Proof.Laws

/-! ## A byte after a write -/

/-- Bytes from an address on: those written, and no other. -/
theorem mget_putBytes (m : SMap Byte) (a : Nat) (bs : List Byte) (x : Nat) :
    mget (putBytes m a bs) x = if a ≤ x ∧ x < a + bs.length then bs.getD (x - a) 0 else mget m x := by
  induction bs generalizing m a with
  | nil => rw [if_neg (by simp)]; rfl
  | cons b bs ih =>
    rw [putBytes, ih, mget_mset, List.length_cons]
    rcases Nat.lt_trichotomy x a with h | rfl | h
    · rw [if_neg (by omega), if_neg (by omega), if_neg (by omega)]
    · rw [if_neg (by omega), if_pos rfl, if_pos (by omega), Nat.sub_self, List.getD_cons_zero]
    · rw [show x - a = x - (a + 1) + 1 by omega, List.getD_cons_succ, if_neg (show x ≠ a by omega)]
      exact if_congr (by omega) rfl rfl

/-- A write leaves every other byte alone. -/
theorem mget_putBytes_out (m : SMap Byte) (a : Nat) (bs : List Byte) (x : Nat) (h : x < a ∨ a + bs.length ≤ x) :
    mget (putBytes m a bs) x = mget m x := by
  rw [mget_putBytes, if_neg (by omega)]
theorem length_leList (n v : Nat) : (leList n v).length = n := by
  induction n generalizing v with
  | zero => rfl
  | succ n ih => simp [leList, ih]
/-- The number that the bytes of a number stand for. -/
theorem leVal_leList (n v : Nat) : leVal (leList n v) = v % 256 ^ n := by
  induction n generalizing v with
  | zero => simp [leList, leVal, Nat.mod_one]
  | succ n ih =>
    show (BitVec.ofNat 8 v).toNat + 256 * leVal (leList n (v / 256)) = v % 256 ^ (n + 1)
    rw [ih, BitVec.toNat_ofNat, show (256 : Nat) ^ (n + 1) = 256 * 256 ^ n from Nat.mul_comm _ _, Nat.mod_mul]

/-! ## One granule -/

/-- All that a write inside one granule can do: nothing where the old check fails; else its bytes, and the check of
that granule alone is made anew. -/
theorem State.writeGranule_cases (s : State) (pa : Nat) (bs : List Byte) :
    (s.writeGranule pa bs = (s, false) ∧ bs.length < 64 ∧ s.checkOk (pa / 64) = false) ∨
    (∃ k, s.writeGranule pa bs = ({ s with mem := putBytes s.mem pa bs, checks := mset s.checks (pa / 64) k }, true) ∧
      k = crc16 (({ s with mem := putBytes s.mem pa bs } : State).granule (pa / 64)) ∧
      (64 ≤ bs.length ∨ s.checkOk (pa / 64) = true)) := by
  unfold State.writeGranule
  by_cases h : (decide (bs.length < 64) && !s.checkOk (pa / 64)) = true
  · left
    simp only [Bool.and_eq_true, decide_eq_true_eq, Bool.not_eq_true'] at h
    exact ⟨by simp [h], h.1, h.2⟩
  · right
    refine ⟨_, ?_, rfl, ?_⟩
    · simp only [h]; rfl
    · by_cases hl : bs.length < 64
      · right; simpa [hl] using h
      · left; omega
/-- The check of a granule made anew holds. -/
theorem State.checkOk_remake (s : State) (g : Nat) : (s.remake g).checkOk g = true := by
  have h : (s.remake g).granule g = s.granule g := rfl
  unfold State.checkOk; rw [h]
  show (mget (mset s.checks g _) g == _) = true
  rw [mget_mset_same]; simp

theorem byteList_congr {f g : Nat → Byte} (n a : Nat) (h : ∀ x, a ≤ x → x < a + n → f x = g x) : byteList f a n = byteList g a n := by
  induction n generalizing a with
  | zero => rfl
  | succ n ih => rw [byteList, byteList, h a (Nat.le_refl a) (by omega), ih (a + 1) (fun x h1 h2 => h x (by omega) (by omega))]
/-- The granules of a frame that is filled with zeros have checks that hold. -/
theorem State.checkOk_fillZero (s : State) (f g : Nat) (n : Nat) (lo : f * 1024 ≤ g) (hi : g < f * 1024 + n / 64) :
    (s.fillZero f n).checkOk g = true := by
  have hz : (s.fillZero f n).granule g = byteList (fun _ => 0) (64 * g) 64 := byteList_congr 64 (64 * g) fun x h1 h2 => by
    show mget (mcut (f * 65536) n s.mem) x = 0
    rw [mget_mcut, if_pos (by omega)]; rfl
  have hc : ∀ a b, byteList (fun _ => 0) a 64 = byteList (fun _ => 0) b 64 := fun a b => by simp only [byteList]
  unfold State.checkOk
  rw [hz, hc _ 0]
  show (mget (mcut (f * 1024) (n / 64) s.checks) g == _) = true
  rw [mget_mcut, if_pos ⟨lo, hi⟩]
  decide +kernel

/-! ## The canonical form -/

/-- The canonical form of memory and of the checks. -/
def State.memWf (s : State) : Prop := Memory.wf s.mem = true ∧ mwf s.checks = true

theorem wf_putBytes (m : SMap Byte) (a : Nat) (bs : List Byte) (h : Memory.wf m = true) :
    Memory.wf (putBytes m a bs) = true := by
  induction bs generalizing m a with
  | nil => exact h
  | cons b bs ih => exact ih _ _ (mwf_mset m a b h)
theorem memWf_reset : State.reset.memWf := ⟨rfl, rfl⟩
theorem State.memWf_remake (s : State) (g : Nat) (h : s.memWf) : (s.remake g).memWf := ⟨h.1, mwf_mset _ _ _ h.2⟩
theorem State.memWf_writeGranule (s : State) (pa : Nat) (bs : List Byte) (h : s.memWf) : (s.writeGranule pa bs).1.memWf := by
  rcases s.writeGranule_cases pa bs with ⟨e, -, -⟩ | ⟨k, e, -, -⟩
  · rw [e]; exact h
  · rw [e]; exact ⟨wf_putBytes _ _ _ h.1, mwf_mset _ _ _ h.2⟩
/-- Pieces written one after another keep the canonical form, whatever checks have failed. -/
theorem State.memWf_granules : (l : List (Nat × List Byte)) → (s : State) → (bad : List Nat) → s.memWf →
    (l.foldl (fun (p : State × List Nat) (q : Nat × List Byte) =>
      let (s2, ok) := p.1.writeGranule q.1 q.2
      (s2, if ok then p.2 else p.2 ++ [q.1 / 64])) (s, bad)).1.memWf
  | [], _, _, h => h
  | q :: l, s, _, h => State.memWf_granules l _ _ (s.memWf_writeGranule q.1 q.2 h)
theorem State.memWf_write (s : State) (pa : Nat) (bs : List Byte) (h : s.memWf) : (s.write pa bs).1.memWf :=
  State.memWf_granules (pieces pa bs) s [] h
/-- A failed check changes the fault records and the gangs that end alone. -/
theorem State.integrity_rest (s : State) (id g : Nat) :
    s.integrity id g = { s with faultQ := (s.integrity id g).faultQ, recorded := (s.integrity id g).recorded
                                fb := (s.integrity id g).fb, dying := (s.integrity id g).dying } := by
  have record : ∀ r : FaultRec, s.record r = { s with
      faultQ := (s.record r).faultQ, recorded := (s.record r).recorded, fb := (s.record r).fb } := fun r => by
    unfold State.record; dsimp only; split <;> rfl
  unfold State.integrity State.doom
  dsimp only
  split
  · rw [record]
  · rw [record]
theorem State.memWf_integrity (s : State) (id g : Nat) (h : s.memWf) : (s.integrity id g).memWf := by
  rw [s.integrity_rest id g]; exact h
/-- One piece of an update. -/
def State.updateOne (id : Nat) (s : State) (q : Nat × List Byte) : State :=
  match s.writeGranule q.1 q.2 with
  | (s1, true) => s1
  | (s1, false) => s1.integrity id (q.1 / 64)
theorem State.updateFor_eq (s : State) (id pa : Nat) (bs : List Byte) :
    s.updateFor id pa bs = (pieces pa bs).foldl (State.updateOne id) s := rfl
/-- All that one piece of an update can do: a failed check stores nothing and is reported; else its bytes, and the check of its
granule is made anew. -/
theorem State.updateOne_cases (s : State) (id : Nat) (q : Nat × List Byte) :
    (q.2.length < 64 ∧ s.checkOk (q.1 / 64) = false ∧ s.updateOne id q = s.integrity id (q.1 / 64)) ∨
    ((64 ≤ q.2.length ∨ s.checkOk (q.1 / 64) = true) ∧ s.updateOne id q = { s with
      mem := putBytes s.mem q.1 q.2
      checks := mset s.checks (q.1 / 64) (crc16 (({ s with mem := putBytes s.mem q.1 q.2 } : State).granule (q.1 / 64))) }) := by
  unfold State.updateOne
  rcases s.writeGranule_cases q.1 q.2 with ⟨e, hl, h⟩ | ⟨k, e, rfl, h⟩
  · rw [e]; exact .inl ⟨hl, h, rfl⟩
  · rw [e]; exact .inr ⟨h, rfl⟩
theorem State.memWf_updateOne (s : State) (id : Nat) (q : Nat × List Byte) (h : s.memWf) : (s.updateOne id q).memWf := by
  rcases s.updateOne_cases id q with ⟨-, -, e⟩ | ⟨-, e⟩
  · rw [e]; exact s.memWf_integrity _ _ h
  · rw [e]; exact ⟨wf_putBytes _ _ _ h.1, mwf_mset _ _ _ h.2⟩
theorem State.memWf_updates (id : Nat) : (l : List (Nat × List Byte)) → (s : State) → s.memWf →
    (l.foldl (State.updateOne id) s).memWf
  | [], _, h => h
  | q :: l, s, h => State.memWf_updates id l _ (s.memWf_updateOne id q h)
theorem State.memWf_updateFor (s : State) (id pa : Nat) (bs : List Byte) (h : s.memWf) : (s.updateFor id pa bs).memWf :=
  State.memWf_updates id (pieces pa bs) s h
theorem State.memWf_update (s : State) (pa : Nat) (bs : List Byte) (h : s.memWf) : (s.update pa bs).memWf :=
  s.memWf_updateFor 0 pa bs h
theorem State.memWf_updateWord (s : State) (pa v : Nat) (h : s.memWf) : (s.updateWord pa v).memWf := s.memWf_update pa _ h
theorem State.memWf_markWord (s : State) (id pa v w : Nat) (h : s.memWf) : (s.markWord id pa v w).memWf := by
  unfold State.markWord; split
  · exact h
  · exact s.memWf_updateFor id pa _ h
/-- An update of memory changes memory and its checks, and over a failed check the fault records and the gangs that end. -/
theorem State.updateFor_rest (s : State) (id pa : Nat) (bs : List Byte) :
    s.updateFor id pa bs = { s with
      mem := (s.updateFor id pa bs).mem, checks := (s.updateFor id pa bs).checks, faultQ := (s.updateFor id pa bs).faultQ
      recorded := (s.updateFor id pa bs).recorded, fb := (s.updateFor id pa bs).fb, dying := (s.updateFor id pa bs).dying } := by
  rw [State.updateFor_eq]
  generalize pieces pa bs = l
  induction l generalizing s with
  | nil => rfl
  | cons q l ih =>
    have one : s.updateOne id q = { s with
        mem := (s.updateOne id q).mem, checks := (s.updateOne id q).checks, faultQ := (s.updateOne id q).faultQ
        recorded := (s.updateOne id q).recorded, fb := (s.updateOne id q).fb, dying := (s.updateOne id q).dying } := by
      rcases s.updateOne_cases id q with ⟨-, -, e⟩ | ⟨-, e⟩
      · rw [e, s.integrity_rest id (q.1 / 64)]
      · rw [e]
    rw [List.foldl_cons, ih (s.updateOne id q), one]
/-- An update within one granule whose check holds, or of all of it, stores its bytes and makes the check anew. -/
theorem State.updateFor_one (s : State) (id pa : Nat) (bs : List Byte) (hp : pieces pa bs = [(pa, bs)])
    (hc : 64 ≤ bs.length ∨ s.checkOk (pa / 64) = true) :
    s.updateFor id pa bs = { s with
      mem := putBytes s.mem pa bs
      checks := mset s.checks (pa / 64) (crc16 (({ s with mem := putBytes s.mem pa bs } : State).granule (pa / 64))) } := by
  rw [State.updateFor_eq, hp]
  show s.updateOne id (pa, bs) = _
  rcases s.updateOne_cases id (pa, bs) with ⟨hl, h, -⟩ | ⟨-, e⟩
  · rcases hc with hc | hc
    · exact absurd hl (Nat.not_lt.mpr hc)
    · exact absurd hc (by rw [h]; decide)
  · exact e
theorem State.memWf_fillZero (s : State) (f n : Nat) (h : s.memWf) : (s.fillZero f n).memWf :=
  ⟨mwf_mcut _ _ _ h.1, mwf_mcut _ _ _ h.2⟩

/-- A canonical map behind another one. -/
theorem mwf_append {α : Type} [Inhabited α] [DecidableEq α] (a b : SMap α) (ha : mwf a = true) (hb : mwf b = true)
    (hab : ∀ p ∈ a, ∀ q ∈ b, p.1 < q.1) : mwf (a ++ b) = true := by
  induction a with
  | nil => exact hb
  | cons p a ih =>
    obtain ⟨hv, hk, hm⟩ := (mwf_cons p.1 p.2 a).mp ha
    obtain ⟨hp, hab⟩ := List.forall_mem_cons.mp hab
    exact (mwf_cons ..).mpr ⟨hv, List.forall_mem_append.mpr ⟨hk, hp⟩, ih hm hab⟩
theorem mwf_shift {α : Type} [Inhabited α] [DecidableEq α] (lo : Nat) (m : SMap α) (h : mwf m = true) :
    mwf (m.map (fun p => (p.1 + lo, p.2))) = true := by
  induction m with
  | nil => rfl
  | cons p m ih =>
    obtain ⟨j, v⟩ := p
    obtain ⟨hv, hk, hm⟩ := (mwf_cons j v m).mp h
    refine (mwf_cons _ _ _).mpr ⟨hv, fun q hq => ?_, ih hm⟩
    obtain ⟨r, hr, rfl⟩ := List.mem_map.mp hq
    have := hk r hr
    show j + lo < r.1 + lo
    omega
/-- A slice put in place of another keeps the canonical form. -/
theorem mwf_msplice {α : Type} [Inhabited α] [DecidableEq α] (lo n : Nat) (sl m : SMap α) (h : mwf m = true)
    (hs : mwf sl = true) (hb : ∀ p ∈ sl, p.1 < n) : mwf (msplice lo n sl m) = true := by
  unfold msplice
  have below : ∀ p ∈ m.filter (fun p => decide (p.1 < lo)), p.1 < lo := fun p hp => of_decide_eq_true (List.mem_filter.mp hp).2
  have above : ∀ p ∈ m.filter (fun p => decide (lo + n ≤ p.1)), lo + n ≤ p.1 :=
    fun p hp => of_decide_eq_true (List.mem_filter.mp hp).2
  have within : ∀ p ∈ sl.map (fun p => (p.1 + lo, p.2)), lo ≤ p.1 ∧ p.1 < lo + n :=
    List.forall_mem_map.mpr fun r hr => ⟨Nat.le_add_left .., by have := hb r hr; dsimp only; omega⟩
  refine mwf_append _ _ (mwf_append _ _ (mwf_filter _ m h) (mwf_shift lo sl hs)
    fun p hp q hq => (below p hp).trans_le (within q hq).1) (mwf_filter _ m h) fun p hp q hq => ?_
  refine lt_of_lt_of_le ?_ (above q hq)
  revert p
  exact List.forall_mem_append.mpr ⟨fun p hp => by have := below p hp; omega, fun p hp => (within p hp).2⟩
theorem bne_default_eq {α : Type} [Inhabited α] [DecidableEq α] :
    (fun p : Nat × α => p.2 != default) = fun p => decide (p.2 ≠ default) := by
  funext p; by_cases h : p.2 = default <;> simp [h]
/-- The entries of a table of numbers that do not hold the default are canonical. -/
theorem mwf_table {α : Type} [Inhabited α] [DecidableEq α] (n : Nat) (f : Nat → α) :
    mwf (((List.range n).map (fun i => (i, f i))).filter (fun p => decide (p.2 ≠ default))) = true ∧
      ∀ p ∈ ((List.range n).map (fun i => (i, f i))).filter (fun p => decide (p.2 ≠ default)), p.1 < n := by
  induction n with
  | zero => exact ⟨rfl, by simp⟩
  | succ n ih =>
    rw [List.range_succ, List.map_append, List.filter_append]
    refine ⟨mwf_append _ _ ih.1 ?_ ?_, ?_⟩
    · by_cases h : f n = default
      · simp [h, mwf]
      · simp [h, mwf]
    · intro p hp q hq
      have := ih.2 p hp
      obtain ⟨hq, -⟩ := List.mem_filter.mp hq
      simp only [List.map_cons, List.map_nil, List.mem_singleton] at hq
      subst hq; exact this
    · intro p hp
      rcases List.mem_append.mp hp with hp | hp
      · exact Nat.lt_succ_of_lt (ih.2 p hp)
      · obtain ⟨hq, -⟩ := List.mem_filter.mp hp
        simp only [List.map_cons, List.map_nil, List.mem_singleton] at hq
        subst hq; exact Nat.lt_succ_self n
theorem wf_freeSlice (free n : Nat) : mwf (freeSlice free n) = true ∧ ∀ p ∈ freeSlice free n, p.1 < n := by
  have h := mwf_table n (fun i => (Config.freeWord (free + i)).setWidth 8)
  rw [← bne_default_eq] at h
  exact h
theorem State.memWf_wipeStack (s : State) (id : Nat) (h : s.memWf) : (s.wipeStack id).memWf := by
  refine ⟨mwf_msplice _ _ _ _ h.1 (wf_freeSlice _ _).1 (wf_freeSlice _ _).2, ?_⟩
  have t := mwf_table ((s.task id).stackLen / 64) (fun i => crc16 (({ s with
      mem := msplice (s.task id).stackPa (s.task id).stackLen (freeSlice s.free (s.task id).stackLen) s.mem
      free := s.free + (s.task id).stackLen } : State).granule ((s.task id).stackPa / 64 + i)))
  rw [← bne_default_eq] at t
  exact mwf_msplice _ _ _ _ h.2 t.1 t.2

end Sys2Proof.Machine
end

