-- ==== Sys2Proof/Laws/Save.lean ====
section
/-!
SUPPORT. Laws of the save area (R154): writing it keeps the canonical form of memory, and leaves every byte outside it;
its system registers hold what `mfs` would read.
-/

namespace Sys2Proof.Machine

open Sys2Proof.Laws

theorem mget_append_left {α : Type} [Inhabited α] (a b : SMap α) (k : Nat) (h : ∀ p ∈ b, p.1 ≠ k) :
    mget (a ++ b) k = mget a k := by
  induction a with
  | nil => rw [List.nil_append, mget_absent b k h]; rfl
  | cons p a ih =>
    obtain ⟨j, v⟩ := p
    simp only [List.cons_append, mget, ih]
theorem mget_append_right {α : Type} [Inhabited α] (a b : SMap α) (k : Nat) (h : ∀ p ∈ a, p.1 ≠ k) :
    mget (a ++ b) k = mget b k := by
  induction a with
  | nil => rfl
  | cons p a ih =>
    obtain ⟨j, v⟩ := p
    simp only [List.cons_append, mget, if_neg (h (j, v) (List.mem_cons_self ..))]
    exact ih (fun q hq => h q (List.mem_cons_of_mem _ hq))
/-- A slice put in place changes no key outside it. -/
theorem mget_msplice_out {α : Type} [Inhabited α] (lo n : Nat) (sl m : SMap α) (k : Nat) (hb : ∀ p ∈ sl, p.1 < n)
    (h : k < lo ∨ lo + n ≤ k) : mget (msplice lo n sl m) k = mget m k := by
  unfold msplice
  have hs : ∀ p ∈ sl.map (fun p => (p.1 + lo, p.2)), p.1 ≠ k := by
    intro p hp
    obtain ⟨r, hr, rfl⟩ := List.mem_map.mp hp
    have := hb r hr
    show r.1 + lo ≠ k
    omega
  rcases h with h | h
  · rw [mget_append_left, mget_append_left _ _ _ hs]
    · exact mget_filter (fun j => decide (j < lo)) m k (by simpa using h)
    · intro p hp
      have := (List.mem_filter.mp hp).2
      simp only [decide_eq_true_eq] at this
      omega
  · rw [mget_append_right]
    · exact mget_filter (fun j => decide (lo + n ≤ j)) m k (by simpa using h)
    · refine List.forall_mem_append.mpr ⟨fun p hp => ?_, hs⟩
      have := of_decide_eq_true (List.mem_filter.mp hp).2
      omega

theorem wf_pieces (pa : Nat) (l : List (Nat × List Byte)) (m : SMap Byte) (h : mwf m = true) :
    mwf (l.foldl (fun m p => putBytes m (pa + p.1) p.2) m) = true := by
  induction l generalizing m with
  | nil => exact h
  | cons p l ih => exact ih _ (wf_putBytes m _ _ h)
theorem wf_splices (pa free : Nat) (l : List (Nat × Nat)) (m : SMap Byte) (h : mwf m = true) :
    mwf (l.foldl (fun m p => msplice (pa + p.1) p.2 (freeSlice (free + p.1) p.2) m) m) = true := by
  induction l generalizing m with
  | nil => exact h
  | cons p l ih => exact ih _ (mwf_msplice _ _ _ m h (wf_freeSlice _ _).1 (wf_freeSlice _ _).2)
theorem wf_saveMem (s : State) (c : Ctx) (pa : Nat) (h : mwf s.mem = true) : mwf (s.saveMem c pa) = true :=
  wf_pieces pa (s.saveWords c) _ (wf_splices pa s.free saveOpen s.mem h)
theorem wf_remakeAll (m : SMap Byte) (gs : List Nat) (k : SMap (BitVec 16)) (h : mwf k = true) :
    mwf (remakeAll m gs k) = true := by
  unfold remakeAll
  induction gs generalizing k with
  | nil => exact h
  | cons g gs ih => exact ih _ (mwf_mset k g _ h)
theorem State.memWf_writeSave (s : State) (c : Ctx) (pa : Nat) (h : s.memWf) : (s.writeSave c pa).memWf := by
  unfold State.writeSave
  split
  · unfold State.memWf
    dsimp only
    exact ⟨wf_saveMem s c pa h.1, wf_remakeAll _ _ _ h.2⟩
  · exact h

theorem mget_pieces_out (pa : Nat) (l : List (Nat × List Byte)) (m : SMap Byte) (x : Nat)
    (h : ∀ p ∈ l, x < pa + p.1 ∨ pa + p.1 + p.2.length ≤ x) :
    mget (l.foldl (fun m p => putBytes m (pa + p.1) p.2) m) x = mget m x := by
  induction l generalizing m with
  | nil => rfl
  | cons p l ih =>
    rw [List.foldl_cons, ih _ (fun q hq => h q (List.mem_cons_of_mem _ hq)),
      mget_putBytes_out _ _ _ _ (h p (List.mem_cons_self ..))]
theorem mget_splices_out (pa free : Nat) (l : List (Nat × Nat)) (m : SMap Byte) (x : Nat)
    (h : ∀ p ∈ l, x < pa + p.1 ∨ pa + p.1 + p.2 ≤ x) :
    mget (l.foldl (fun m p => msplice (pa + p.1) p.2 (freeSlice (free + p.1) p.2) m) m) x = mget m x := by
  induction l generalizing m with
  | nil => rfl
  | cons p l ih =>
    rw [List.foldl_cons, ih _ (fun q hq => h q (List.mem_cons_of_mem _ hq)),
      mget_msplice_out _ _ _ _ _ (wf_freeSlice _ _).2 (h p (List.mem_cons_self ..))]
theorem length_flatMap_le {α : Type} (n : Nat) (f : α → List Byte) (h : ∀ a, (f a).length = n) (l : List α) :
    (l.flatMap f).length = n * l.length := by
  induction l with
  | nil => simp
  | cons a l ih => rw [List.flatMap_cons, List.length_append, ih, h, List.length_cons]; ring
theorem length_words (ws : List Nat) : (words ws).length = 8 * ws.length :=
  length_flatMap_le 8 (leList 8) (length_leList 8) ws
theorem length_saveSys (s : State) (c : Ctx) : (s.saveSys c).length = 0x400 := by
  unfold State.saveSys
  rw [length_words]
  simp only [List.length_append, List.length_map, List.length_range, List.length_replicate]
theorem length_saveHeader : saveHeader.length = 272 := by
  unfold saveHeader
  rw [List.length_append, List.length_append, length_leList, length_leList, length_words]
  rfl

theorem length_fitBytes (n : Nat) (l : List Byte) : (fitBytes n l).length = n := by
  unfold fitBytes
  rw [List.length_take, List.length_append, List.length_replicate]
  omega
theorem length_saveSeq (s : State) (c : Ctx) : (s.saveSeq c).length = 0x120 := by
  unfold State.saveSeq
  rw [length_words]
  simp only [List.length_append, List.length_map, List.length_range, List.length_cons, List.length_nil]
theorem length_camImage (x : Cam) : (camImage x).length = 256 := by
  unfold camImage
  simp only [List.length_append, length_leList, length_flatMap_le 4 _ (fun n => length_leList 4 _), List.length_range,
    List.length_cons, List.length_nil, List.length_replicate]
theorem length_slotImage (x : Slot) : (slotImage x).length = 64 := by
  unfold slotImage
  rw [length_words]
  simp only [List.length_append, List.length_cons, List.length_nil, List.length_replicate]
theorem length_saveCmd (s : State) (c : Ctx) (k : Nat) : (s.saveCmd c k).length = 64 := by
  unfold State.saveCmd
  rw [length_words]
  simp only [List.length_append, List.length_map, List.length_range, List.length_cons, List.length_nil]
theorem length_capImage (x : Cap) : (capImage x).length = 24 := by
  unfold capImage
  simp only [List.length_append, length_leList, List.length_cons, List.length_nil]
theorem length_ccapImage (x : CCap) : (ccapImage x).length = 8 := length_leList 8 _
theorem length_saveElem (s : State) (c : Ctx) (e : Nat) : (s.saveElem c e).length = 3072 := by
  have line : ∀ l : List Cap, ((List.range 16).flatMap (fun n => capImage (l.getD n {}))).length = 384 := fun l => by
    rw [length_flatMap_le 24 _ (fun n => length_capImage _), List.length_range]
  unfold State.saveElem
  simp only [List.length_append, length_leList, List.length_replicate, length_flatMap_le 384 _ line,
    length_flatMap_le 8 _ (fun n => length_ccapImage _),
    length_flatMap_le 16 _ (fun n => length_leList 16 _), length_flatMap_le 64 _ (fun d => length_fitBytes 64 _),
    List.length_range, List.length_cons, List.length_nil]
theorem length_saveLatch (s : State) (c : Ctx) (port : Nat) : (s.saveLatch c port).length = 65536 := by
  unfold State.saveLatch
  rw [length_flatMap_le 32768 _ (fun e => length_fitBytes 32768 _)]
  rfl
theorem length_holdGranules (t : Task) : t.holdGranules.length ≤ 32768 := by
  unfold Task.holdGranules
  rw [List.length_take]
  exact Nat.min_le_left ..

/-- The pieces after the register sections. -/
def State.saveRest (s : State) (c : Ctx) : List (Nat × List Byte) := (s.saveWords c).drop 3
theorem saveWords_split (s : State) (c : Ctx) : s.saveWords c =
    (0, saveHeader) :: (0x1000, s.saveSeq c) :: (0x1400, s.saveSys c) :: s.saveRest c := by
  simp only [State.saveRest, State.saveWords, List.cons_append, List.nil_append, List.drop_succ_cons, List.drop_zero]
theorem abortMark_eq : abortMark = 0x49000 := by unfold abortMark; rfl
/-- A piece of at most `m` bytes fits into the save area where its room does. -/
theorem piece_bounds {at' m : Nat} {bs : List Byte} (hb : bs.length ≤ m) (lo : 0x1800 ≤ at') (hi : at' + m ≤ 0x2B00000) :
    0x1800 ≤ at' ∧ at' + bs.length ≤ 0x2B00000 := ⟨lo, by omega⟩
/-- Each later piece lies between offset 0x1800 and the end of the save area. -/
theorem saveRest_bounds (s : State) (c : Ctx) : ∀ p ∈ s.saveRest c, 0x1800 ≤ p.1 ∧ p.1 + p.2.length ≤ 0x2B00000 := by
  have hg := length_holdGranules (s.task (s.taskAt c))
  have many : ∀ {α : Type} (n k : Nat) (f : α → List Byte) (l : List α), (∀ a, (f a).length = n) → l.length ≤ k →
      (l.flatMap f).length ≤ n * k := fun n k f l h hl => (length_flatMap_le n f h l).trans_le (Nat.mul_le_mul_left n hl)
  have upto : ∀ n, (List.range n).length ≤ n := fun n => List.length_range.le
  simp only [State.saveRest, State.saveWords, List.cons_append, List.nil_append, List.drop_succ_cons, List.drop_zero,
    List.forall_mem_cons, List.forall_mem_append, List.forall_mem_map, List.forall_mem_flatMap, abortMark_eq]
  refine ⟨piece_bounds (many 32 _ (s.saveIsl c) _ (fun i => length_fitBytes 32 _) (upto _)) (by omega) (by omega), ?cams, ?_⟩
  case cams =>
    refine piece_bounds (m := 256 * 8 + 32) ?_ (by omega) (by omega)
    rw [List.length_append, length_words, List.length_map, List.length_range]
    exact Nat.add_le_add_right (many 256 8 _ _ (fun i => length_camImage _) (upto _)) _
  refine ⟨piece_bounds (many 64 _ _ _ (fun i => length_slotImage _) (upto _)) (by omega) (by omega),
    piece_bounds (many 64 _ _ _ (fun i => length_saveCmd s c i) (upto _)) (by omega) (by omega),
    piece_bounds (length_fitBytes 24 _).le (by omega) (by omega), ?_⟩
  refine ⟨piece_bounds (many 8 32768 _ _ (fun g => length_fitBytes 8 _) hg) (by omega) (by omega),
    piece_bounds List.length_replicate.le (by omega) (by omega),
    piece_bounds (many 64 32768 _ _ (fun g => by rw [List.length_map, List.length_range]) hg) (by omega) (by omega), ?_⟩
  refine ⟨⟨⟨⟨⟨fun e he => piece_bounds (length_saveElem s c e).le ?_ ?_,
      fun q hq => piece_bounds (length_saveLatch s c q).le ?_ ?_⟩,
      fun e he => piece_bounds (m := 8192) ?entries ?_ ?_⟩,
      fun e he => piece_bounds (many 2 1024 _ _ (fun i => length_leList 2 _) (upto _)) ?_ ?_⟩,
      fun k hk => piece_bounds (many 4 1024 _ _ (fun i => length_leList 4 _) (upto _)) ?_ ?_⟩,
      fun e he l hl => piece_bounds (many 16 4 _ _ (fun i => length_leList 16 _) (upto _)) ?_ ?_⟩
  case entries => rw [length_words, List.length_map, List.length_take]; omega
  all_goals simp only [List.mem_filter, List.mem_range] at *; omega
/-- Writing a save area changes no byte outside it. -/
theorem saveMem_out (s : State) (c : Ctx) (pa x : Nat) (h : x < pa ∨ pa + 0x2B00000 ≤ x) :
    mget (s.saveMem c pa) x = mget s.mem x := by
  unfold State.saveMem
  rw [mget_pieces_out, mget_splices_out]
  · intro p hp
    simp only [saveOpen, List.mem_cons, List.not_mem_nil, or_false] at hp
    rcases hp with rfl | rfl | rfl | rfl <;> dsimp only <;> omega
  · intro p hp
    rw [saveWords_split] at hp
    simp only [List.mem_cons] at hp
    rcases hp with rfl | rfl | rfl | hp
    · rw [length_saveHeader]; dsimp only; omega
    · rw [length_saveSeq]; dsimp only; omega
    · rw [length_saveSys]; dsimp only; omega
    · have := saveRest_bounds s c p hp; omega
/-- The section of the system registers. -/
theorem saveMem_sys (s : State) (c : Ctx) (pa x : Nat) (h : pa + 0x1400 ≤ x ∧ x < pa + 0x1800) :
    mget (s.saveMem c pa) x = (s.saveSys c).getD (x - (pa + 0x1400)) 0 := by
  unfold State.saveMem
  rw [saveWords_split, List.foldl_cons, List.foldl_cons, List.foldl_cons, mget_pieces_out, mget_putBytes, if_pos]
  · rw [length_saveSys]; dsimp only; omega
  · intro p hp
    have := saveRest_bounds s c p hp
    omega
/-- The section of the sequencer registers. -/
theorem saveMem_regs (s : State) (c : Ctx) (pa x : Nat) (h : pa + 0x1000 ≤ x ∧ x < pa + 0x1120) :
    mget (s.saveMem c pa) x = (s.saveSeq c).getD (x - (pa + 0x1000)) 0 := by
  unfold State.saveMem
  rw [saveWords_split, List.foldl_cons, List.foldl_cons, List.foldl_cons, mget_pieces_out, mget_putBytes_out, mget_putBytes, if_pos]
  · rw [length_saveSeq]; dsimp only; omega
  · dsimp only; omega
  · intro p hp
    have := saveRest_bounds s c p hp
    omega
theorem State.byte_writeSave_out (s : State) (c : Ctx) (pa x : Nat) (h : x < pa ∨ pa + 0x2B00000 ≤ x) :
    (s.writeSave c pa).byte x = s.byte x := by
  unfold State.writeSave State.byte
  split
  · dsimp only
    rw [saveMem_out s c pa x h]
  · rfl

/-- One word of a list of words, byte by byte. -/
theorem getD_words (ws : List Nat) (k i : Nat) (hk : k < ws.length) (hi : i < 8) :
    (words ws).getD (8 * k + i) 0 = (leList 8 (ws.getD k 0)).getD i 0 := by
  induction ws generalizing k with
  | nil => exact absurd hk (Nat.not_lt_zero _)
  | cons w ws ih =>
    have hw : words (w :: ws) = leList 8 w ++ words ws := rfl
    rw [hw]
    cases k with
    | zero =>
      rw [Nat.mul_zero, Nat.zero_add, List.getD_append _ _ _ _ (by rw [length_leList]; exact hi)]
      rfl
    | succ k =>
      rw [List.getD_append_right _ _ _ _ (by rw [length_leList]; omega), length_leList,
        show 8 * (k + 1) + i - 8 = 8 * k + i by omega, ih k (Nat.lt_of_succ_lt_succ hk)]
      rfl
theorem byteList_getD (f : Nat → Byte) (l : List Byte) (a : Nat) (h : ∀ i < l.length, f (a + i) = l.getD i 0) :
    byteList f a l.length = l := by
  induction l generalizing a with
  | nil => rfl
  | cons b l ih =>
    rw [List.length_cons, byteList, ih (a + 1) (fun i hi => by
      have := h (i + 1) (Nat.succ_lt_succ hi)
      rw [show a + 1 + i = a + (i + 1) by omega, this]; rfl)]
    have := h 0 (Nat.zero_lt_succ _)
    rw [Nat.add_zero] at this
    rw [this]; rfl
/-- Eight bytes that hold a word of a list of words are that word. -/
theorem leVal_words (f : Nat → Byte) (a : Nat) (ws : List Nat) (k : Nat) (hk : k < ws.length)
    (h : ∀ i < 8, f (a + 8 * k + i) = (words ws).getD (8 * k + i) 0) :
    leVal (byteList f (a + 8 * k) 8) = ws.getD k 0 % 2 ^ 64 := by
  have e : byteList f (a + 8 * k) 8 = leList 8 (ws.getD k 0) := by
    have := byteList_getD f (leList 8 (ws.getD k 0)) (a + 8 * k) (fun i hi => by
      rw [length_leList] at hi
      rw [h i hi, getD_words ws k i hk hi])
    rwa [length_leList] at this
  rw [e, leVal_leList]; rfl

end Sys2Proof.Machine
end

