-- ==== Sys2Proof/Laws/Seq.lean ====
section
/-!
SUPPORT. One lemma for each shared operation of the sequencer: what it can do (R99, R108 to R111, R120).
-/

namespace Sys2Proof.Machine

open Sys2Proof.Laws

/-! ## Results -/

theorem Thread.get_result (t : Thread) (now lat : Nat) (d : Reg) (v : Word) (p : Bool) (r : Reg) :
    (t.result now lat d v p).get r = if r = d ∧ d ≠ 0 then v else t.get r := t.get_put d r v p
theorem Thread.poisoned_result (t : Thread) (now lat : Nat) (d : Reg) (v : Word) (p : Bool) (r : Reg) :
    (t.result now lat d v p).poisoned r = if r = d ∧ d ≠ 0 then p else t.poisoned r := t.poisoned_put d r v p
/-- A result changes general registers, their poison and the latencies alone. -/
theorem Thread.result_rest (t : Thread) (now lat : Nat) (d : Reg) (v : Word) (p : Bool) :
    { t.result now lat d v p with g := t.g, poison := t.poison, ready := t.ready } = t := by
  unfold Thread.result Thread.put
  split <;> rfl
theorem Thread.ready_result (t : Thread) (now lat : Nat) (d : Reg) (v : Word) (p : Bool) :
    mget (t.result now lat d v p).ready d.toNat = if lat ≤ 1 ∨ d = 0 then 0 else now + lat := by
  have h : (t.result now lat d v p).ready =
      mset (t.put d v p).ready d.toNat (if lat ≤ 1 || d = 0 then 0 else now + lat) := rfl
  rw [h, mget_mset_same]; simp
theorem Thread.pend_result (t : Thread) (now lat : Nat) (d : Reg) (v : Word) (p : Bool) :
    (t.result now lat d v p).pend = t.pend := by
  unfold Thread.result Thread.put
  split <;> rfl

/-! ## Retiring and transfers -/

theorem State.thr_retire (s : State) (c : Ctx) (f : Thread → Thread) :
    (s.retire c f).thr c = { f (s.thr c) with
      pc := (s.thr c).pc + 4, waitSince := none, idle := none, woken := false, barArrived := false, barReleased := false } :=
  s.thr_modThr_same c _
theorem State.retire_eq (s : State) (c : Ctx) (f : Thread → Thread) : s.retire c f = s.setThr c ((s.retire c f).thr c) :=
  s.modThr_eq c _
theorem State.thr_transfer (s : State) (c : Ctx) (f : Thread → Thread) (target : Word) (delay : Nat) :
    (s.transfer c f target delay).thr c = { f (s.thr c) with
      pc := target, waitSince := none, idle := none, woken := false, nextIssue := s.cycle + delay } := s.thr_modThr_same c _
theorem State.transfer_eq (s : State) (c : Ctx) (f : Thread → Thread) (target : Word) (delay : Nat) :
    s.transfer c f target delay = s.setThr c ((s.transfer c f target delay).thr c) := s.modThr_eq c _
theorem State.stalled_eq (s : State) (c : Ctx) : s.stalled c = s.setThr c ((s.stalled c).thr c) := s.modThr_eq c _
theorem State.thr_stalled (s : State) (c : Ctx) :
    (s.stalled c).thr c = { s.thr c with waitSince := some ((s.thr c).waitSince.getD s.cycle) } := s.thr_modThr_same c _

/-! ## Stalls, poison and what is left -/

/-- All that an integer instruction can do. -/
theorem State.intOp_cases (s : State) (d : Reg) (srcs : List Reg) (lat : Nat) (v : Thread → Word) :
    s.intOp d srcs lat v = if (s.thr s.cur).busy s.cycle srcs [d] then .next (s.stalled s.cur)
      else .next (s.retire s.cur (fun t => t.result s.cycle lat d (v t) (srcs.any t.poisoned))) := rfl
/-- All that an instruction with unpoisoned sources can do before its own effect. -/
theorem State.strict_cases (s : State) (srcs dsts : List Reg) (k : Thread → Out) :
    ((s.thr s.cur).busy s.cycle srcs dsts = true ∧ s.strict srcs dsts k = .next (s.stalled s.cur)) ∨
    ((s.thr s.cur).busy s.cycle srcs dsts = false ∧ ∃ r, (s.thr s.cur).firstPoisoned srcs = some r ∧
      s.strict srcs dsts k = .next (s.trap s.cur 0x13 (BitVec.ofNat 64 r.toNat))) ∨
    ((s.thr s.cur).busy s.cycle srcs dsts = false ∧ (s.thr s.cur).firstPoisoned srcs = none ∧
      s.strict srcs dsts k = k (s.thr s.cur)) := by
  unfold State.strict
  by_cases h : (s.thr s.cur).busy s.cycle srcs dsts = true
  · left; simp [h]
  · right
    have h := Bool.eq_false_iff.mpr h
    cases hp : (s.thr s.cur).firstPoisoned srcs with
    | some r => left; exact ⟨h, r, rfl, by simp [h, hp]⟩
    | none => right; exact ⟨h, rfl, by simp [h, hp]⟩
theorem State.strict_ok (s : State) (srcs dsts : List Reg) (k : Thread → Out)
    (h : (s.thr s.cur).busy s.cycle srcs dsts = false) (hp : (s.thr s.cur).firstPoisoned srcs = none) :
    s.strict srcs dsts k = k (s.thr s.cur) := by
  unfold State.strict; simp [h, hp]
/-- No register is reported where no source is poisoned. -/
theorem Thread.firstPoisoned_none (t : Thread) (srcs : List Reg) :
    t.firstPoisoned srcs = none ↔ ∀ r ∈ srcs, t.poisoned r = false := by
  have grows : ∀ (l : List Reg) (r : Reg), (l.foldl (fun m r => match m with
      | none => some r
      | some x => if r.toNat < x.toNat then some r else some x) (some r)) ≠ none := by
    intro l
    induction l with
    | nil => exact fun r => Option.some_ne_none r
    | cons a l ih => intro r; rw [List.foldl_cons]; dsimp only; split <;> exact ih _
  unfold Thread.firstPoisoned
  have e : srcs.filter t.poisoned = [] ↔ ∀ r ∈ srcs, t.poisoned r = false := by simp [List.filter_eq_nil_iff]
  rw [← e]
  cases srcs.filter t.poisoned with
  | nil => exact ⟨fun _ => rfl, fun _ => rfl⟩
  | cons a l => exact ⟨fun h => absurd h (grows l a), fun h => nomatch h⟩

/-! ## Traps (R111) -/

/-- All that a trap in user mode does. -/
theorem State.trap_user (s : State) (c : Ctx) (code : BitVec 8) (arg : Word) (h : (s.thr c).sup = false) :
    s.trap c code arg = s.setThr c { s.thr c with
      epc := (s.thr c).pc, ecause := code, earg := arg, prevSup := false, sup := true
      pc := (s.thr c).evec.getD (Config.handlerEntry &&& ~~~(3 : Word)), waitSince := none, idle := none, woken := false } := by
  unfold State.trap; simp only [h]; rfl

/-! ## Translation (R12, R253) -/

/-- A translation that a TLB or a pin holds, with Dirty set or not asked for, changes nothing and checks its leaf. -/
theorem State.translate_held (s : State) (c : Ctx) (tenant : BitVec 16) (owner : BitVec 8) (sup : Bool) (k : AccK) (va : Nat)
    (e : TlbEnt) (hv : va < 2 ^ 48) (he : s.tlbLookup c tenant va = some e)
    (hk : (k != .store || pteBit e.pte.toNat 9 || !pteBit e.pte.toNat 2) = true) :
    s.translate c tenant owner sup k va = (s, s.checkLeaf owner sup k e.pte.toNat e.size va) := by
  unfold State.translate State.findLeaf
  simp only [he, hk, if_neg (Nat.not_le.mpr hv)]
  rfl
/-- The same of an access of the acting thread outside its private stack. -/
theorem State.seqTranslate_held (s : State) (k : AccK) (va : Nat) (e : TlbEnt)
    (hs : (s.task (s.taskAt s.cur)).inStack va = false) (hb : (s.task (s.taskAt s.cur)).belowStack va = false)
    (hv : va < 2 ^ 48) (he : s.tlbLookup s.cur (s.task (s.taskAt s.cur)).tenant va = some e)
    (hk : (k != .store || pteBit e.pte.toNat 9 || !pteBit e.pte.toNat 2) = true) :
    s.seqTranslate k va = (s, s.checkLeaf (s.task (s.taskAt s.cur)).owner (s.thr s.cur).sup k e.pte.toNat e.size va) := by
  unfold State.seqTranslate
  simp only [hs, hb]
  exact s.translate_held s.cur _ _ _ k va e hv he hk
/-- An address of the private stack is in memory, with no leaf and no check, under its task's owner tag. -/
theorem State.seqTranslate_stack (s : State) (k : AccK) (va : Nat) (hs : (s.task (s.taskAt s.cur)).inStack va = true) :
    s.seqTranslate k va =
      (s, .ok ((s.task (s.taskAt s.cur)).stackPa + (va - (s.task (s.taskAt s.cur)).stackVa)) false false
        (s.task (s.taskAt s.cur)).owner.toNat) := by
  unfold State.seqTranslate; simp [hs]

end Sys2Proof.Machine
end

