-- ==== Sys2Proof/Safety.lean ====
section
/-!
DEFINITION. What counts as a safe run, in the terms that claims use: runs of the machine, what every state of a run
holds, and what a step keeps.
-/

namespace Sys2Proof.Safety

open Sys2Proof.Machine

/-- `t` is the state after n steps from `s`, each of which answered a next state. -/
def Runs : Nat → State → State → Prop
  | 0, s, t => t = s
  | n + 1, s, t => ∃ u, step s = .next u ∧ Runs n u t
/-- Every state that a run from `s` reaches holds P. -/
def Always (P : State → Prop) (s : State) : Prop := ∀ n t, Runs n s t → P t
/-- A step never leaves P. -/
def Kept (P : State → Prop) : Prop := ∀ s t, P s → step s = .next t → P t
/-- The next step answers a next state: it neither faults nor is refused. -/
def GoesOn (s : State) : Prop := ∃ t, step s = .next t
/-- Memory and its checks are in their canonical form. -/
def MemorySound (s : State) : Prop := Memory.wf s.mem = true ∧ mwf s.checks = true
/-- No pc of a thread has a low bit set (R99). -/
def PcsAligned (s : State) : Prop := ∀ c, (s.thr c).pc.toNat % 4 = 0
/-- Memory of a range is the same in two states. -/
def SameBytes (s t : State) (a n : Nat) : Prop := ∀ x, a ≤ x → x < a + n → t.byte x = s.byte x

end Sys2Proof.Safety
end

