-- ==== Sys2Proof/Tests/Slice0.lean ====
section
/-!
SUPPORT. Tests of decoding and of single steps, the ill-formed terms that WellFormed refuses, and for each statement
concrete states and operands that meet its hypotheses.
-/

set_option Elab.async false

namespace Sys2Proof.Tests

open Sys2Proof.Machine Sys2Proof.Claims

/-! ## A small state -/

/-- A translation of the first 64 KiB to the first frame of device memory, for every access. -/
def page : TlbEnt := { tenant := 0, base := 0, size := 65536, pte := 0x71F }
/-- Context 0 runs task 1, which is head of its instance, with the given thread and task. -/
def at0 (u : Thread) (k : Task) : State :=
  { threads := [(0, u)], tasks := [(1, { k with gang := 1, phase := .resident })], gangs := [(1, { size := 1 })]
    owner := [(0, some 1)], tlb1 := [(0, [page])], start := { ready := true, starts := 1 } }
/-- g2 is 64, g3 is 7, g4 is all ones. -/
def u0 : Thread := { g := [(2, 64), (3, 7), (4, 0xFFFFFFFFFFFFFFFF)] }
def s0 : State := at0 u0 {}
/-- A second task in front of task 1, so that task 1 is neither head nor in the head group. -/
def behind (s : State) : State := { s with tasks := s.tasks.map (fun p => (p.1, { p.2 with ts := 5 })) ++ [(2, { gang := 1, phase := .resident, ctx := 1 })] }

/-! ## Hypotheses of the statements about sequencer instructions -/

theorem meets_IntegerResults :
    (intSpec (s0.thr s0.cur).get (.add 31 2 3) = some (31, [2, 3], 71) ∧ Free s0 [2, 3] [31]) ∧
    (intSpec (s0.thr s0.cur).get (.div 0 3 0) = some (0, [3, 0], BitVec.ofNat 64 (2 ^ 63 - 1)) ∧ Free s0 [3, 0] [0]) :=
  ⟨⟨by decide, rfl⟩, by decide, rfl⟩
theorem meets_IntegerLatency :
    intSpec (s0.thr s0.cur).get (.mul 5 2 3) = some (5, [2, 3], 448) ∧ Free s0 [2, 3] [5] ∧ (5 : Reg) ≠ 0 ∧
    (∃ t, exec (.mul 5 2 3) s0 = .next t) ∧ s0.cycle < 1 :=
  ⟨by decide, rfl, by decide, ⟨_, rfl⟩, by decide⟩
theorem meets_BranchOutcomes :
    (branchSpec (s0.thr s0.cur).get (.blt 4 3 0x8000) = some (4, 3, 0x8000, true) ∧ Free s0 [4, 3] [] ∧ Clean s0 [4, 3]) ∧
    (branchSpec (s0.thr s0.cur).get (.bltn 4 3 1) = some (4, 3, 1, false) ∧ Free s0 [4, 3] [] ∧ Clean s0 [4, 3]) ∧
    (let s := at0 { u0 with poison := 0x18 } {}
     Free s [4, 3] [] ∧ LowestPoisoned (s.thr s.cur) [4, 3] 3) :=
  ⟨⟨by decide, rfl, by unfold Clean; decide⟩, ⟨by decide, rfl, by unfold Clean; decide⟩, rfl, by unfold LowestPoisoned; decide⟩
theorem meets_JumpOutcomes :
    Free s0 [] [0] ∧ (Free s0 [2] [1] ∧ Clean s0 [2] ∧ (based ((s0.thr s0.cur).get 2) 0x8000).toNat % 4 = 0) ∧
    (Free s0 [3] [1] ∧ Clean s0 [3] ∧ (based ((s0.thr s0.cur).get 3) 0).toNat % 4 ≠ 0) :=
  ⟨rfl, ⟨rfl, by unfold Clean; decide, by decide⟩, rfl, by unfold Clean; decide, by decide⟩
theorem meets_PendingRegistersStall :
    let s := at0 { u0 with pend := [{ d := 31, kind := .value }] } {}
    needs (.beq 1 31 0) = some ([1, 31], []) ∧ (∃ d v, intSpec (s.thr s.cur).get (.add 31 1 2) = some (d, [1, 2], v) ∧ [31] = [d]) ∧
    (∃ r, r ∈ [1, 31] ++ [] ∧ (s.thr s.cur).pending r = true) ∧ (∃ r, r ∈ [1, 2] ++ [31] ∧ (s.thr s.cur).pending r = true) :=
  ⟨rfl, ⟨31, _, rfl, rfl⟩, ⟨31, by decide +kernel⟩, 31, by decide +kernel⟩
theorem meets_PoisonedSourceTraps :
    let s := at0 { u0 with poison := 0x80000000 } {}
    needs (.acas 31 2 3 .plain .core true) = some ([2, 3, 31], [31]) ∧ Free s [2, 3, 31] [31] ∧
    LowestPoisoned (s.thr s.cur) [2, 3, 31] 31 :=
  ⟨rfl, rfl, by unfold LowestPoisoned; decide +kernel⟩
theorem meets_SystemNeeds :
    let s := at0 { u0 with sup := true, poison := 0x80000000 } {}
    let w := at0 { u0 with sup := true, pend := [{ d := 31, kind := .value }] } {}
    systemNeeds s (.tlbinv 31) [31] [] ∧ systemNeeds s (.mts 31 0x105) [31] [] ∧ Free s [31] [] ∧ LowestPoisoned (s.thr s.cur) [31] 31 ∧
    systemNeeds w (.mfs 31 0x100) [] [31] ∧ ∃ r, r ∈ [] ++ [31] ∧ (w.thr w.cur).pending r = true :=
  ⟨.inr (.inr ⟨31, rfl, rfl, rfl, rfl⟩), .inr (.inl ⟨31, 0x105, rfl, by decide +kernel, .inr rfl, rfl, rfl⟩), rfl,
   by unfold LowestPoisoned; decide +kernel, .inl ⟨31, 0x100, rfl, by decide +kernel, .inr rfl, rfl, rfl⟩, 31, by decide +kernel⟩
theorem meets_SoftwareTrapEntry : (s0.thr s0.cur).sup = false := rfl
theorem meets_SupervisorTrapStops :
    let s := at0 { u0 with sup := true } {}
    (s.thr s.cur).sup = true ∧ ((Instr.brk 0xFFFF = .trap 0xFFFF ∧ (0x04 : BitVec 8) = 0x05) ∨ (Instr.brk 0xFFFF = .brk 0xFFFF ∧ (0x04 : BitVec 8) = 0x04)) :=
  ⟨rfl, .inr ⟨rfl, rfl⟩⟩
theorem meets_TrapReturn : ((at0 { u0 with sup := true, prevSup := true, epc := 3 } {}).thr 0).sup = true := rfl
theorem meets_PrivilegeTraps : (s0.thr s0.cur).sup = false ∧ 0x100 ≤ (0x100 : BitVec 12).toNat ∧ 0x100 ≤ (0xFFF : BitVec 12).toNat := by decide +kernel
theorem meets_SystemRegisterReads :
    ((0x008 : BitVec 12).toNat ∈ sysNumbers ∧ Allowed s0 (0x008 : BitVec 12).toNat ∧ Free s0 [] [31]) ∧
    (let s := at0 { u0 with sup := true } {}
     (0x108 : BitVec 12).toNat ∈ sysNumbers ∧ Allowed s (0x108 : BitVec 12).toNat ∧ Free s [] [0]) :=
  ⟨⟨by decide +kernel, .inl (by decide +kernel), rfl⟩, by decide +kernel, .inr rfl, rfl⟩
theorem meets_SystemRegisterWrites :
    (0x006 : BitVec 12).toNat ∈ sysWrites ∧ Allowed s0 (0x006 : BitVec 12).toNat ∧ Free s0 [4] [] ∧ Clean s0 [4] :=
  ⟨by decide +kernel, .inl (by decide +kernel), rfl, by unfold Clean; decide +kernel⟩
theorem meets_UnassignedSystemRegisters :
    ((0x009 : BitVec 12).toNat ∉ sysNumbers ∧ Allowed s0 (0x009 : BitVec 12).toNat) ∧
    (let s := at0 { u0 with sup := true } {}
     ((0xFFF : BitVec 12).toNat ∉ sysNumbers ∧ Allowed s (0xFFF : BitVec 12).toNat) ∧
     (0x106 : BitVec 12).toNat ∉ sysWrites ∧ Allowed s (0x106 : BitVec 12).toNat) :=
  ⟨⟨by decide +kernel, .inl (by decide +kernel)⟩, ⟨by decide +kernel, .inr rfl⟩, by decide +kernel, .inr rfl⟩
theorem meets_WaitEnds : ((at0 { u0 with woken := true } {}).thr 0).woken = true ∧ (s0.thr s0.cur).woken = false := by decide +kernel
theorem meets_TlbInvalidation :
    let s := at0 { u0 with sup := true } {}
    (s.thr s.cur).sup = true ∧ Free s [2] [] ∧ Clean s [2] ∧ page ∈ mget s.tlb1 (s.cur.toNat / 2) ∧ Named s 2 page :=
  ⟨rfl, rfl, by unfold Clean; decide +kernel, by decide +kernel, by unfold Named; decide +kernel⟩

/-! ## Accesses to memory -/

/-- A translation that the page of these states holds. -/
theorem translates {s : State} {k : AccK} {va : Nat} {a : Acc}
    (h : (s.task (s.taskAt s.cur)).inStack va = false ∧ (s.task (s.taskAt s.cur)).belowStack va = false ∧ va < 2 ^ 48 ∧
      s.tlbLookup s.cur (s.task (s.taskAt s.cur)).tenant va = some page ∧
      s.checkLeaf (s.task (s.taskAt s.cur)).owner (s.thr s.cur).sup k 0x71F 65536 va = a) : s.seqTranslate k va = (s, a) :=
  h.2.2.2.2 ▸ s.seqTranslate_held k va page h.1 h.2.1 h.2.2.1 h.2.2.2.1 (by cases k <;> rfl)
theorem meets_MisalignedAccessTraps :
    needs (.lh 1 3 0) = some ([3], [1]) ∧ accessOf (s0.thr s0.cur).get (.lh 1 3 0) = some (7, 2) ∧ Free s0 [3] [1] ∧
    Clean s0 [3] ∧ (7 : Word).toNat % 2 ≠ 0 :=
  ⟨rfl, by decide +kernel, rfl, by unfold Clean; decide +kernel, by decide +kernel⟩
theorem meets_TranslationFrame :
    AccK.fetch ≠ .store ∧ (s0.tlbLookup s0.cur (s0.task (me s0)).tenant 65535).isSome = true := by decide +kernel
theorem meets_LoadResults :
    loadSpec (.ld 1 2 0) = some (1, 2, 0, 8, unsigned) ∧ Free s0 [2] [1] ∧ Clean s0 [2] ∧
    (based ((s0.thr s0.cur).get 2) 0).toNat % 8 = 0 ∧ Unawaited s0 ∧
    (s0.task (me s0)).laidByte (based ((s0.thr s0.cur).get 2) 0).toNat 8 = false ∧
    s0.seqTranslate .load (based ((s0.thr s0.cur).get 2) 0).toNat = (s0, .ok 64 false false 0) ∧ Sound s0 64 :=
  ⟨rfl, rfl, by unfold Clean; decide +kernel, by decide +kernel, rfl, rfl, translates (by decide +kernel), by unfold Sound; decide +kernel⟩
/-- No translation of this context exists: its table is empty memory. -/
def noPage (s : State) : State := { s with tlb1 := [], regs := { s.regs with ctxCount := 1 } }
theorem meets_FaultingLoadHolds :
    let s := noPage s0
    loadSpec (.lb 1 2 0) = some (1, 2, 0, 1, signed 1) ∧ Free s [2] [1] ∧ Clean s [2] ∧
    (based ((s.thr s.cur).get 2) 0).toNat % 1 = 0 ∧ Unawaited s ∧
    (s.task (me s)).laidByte (based ((s.thr s.cur).get 2) 0).toNat 1 = false ∧
    s.seqTranslate .load (based ((s.thr s.cur).get 2) 0).toNat = (s, .pageFault) :=
  ⟨rfl, rfl, by unfold Clean; decide +kernel, by decide +kernel, rfl, rfl, rfl⟩
theorem meets_StoreWritesMemory :
    storeSpec (.sb 4 2 7) = some (4, 2, 7, 1) ∧ Free s0 [2, 4] [] ∧ Clean s0 [2, 4] ∧
    (based ((s0.thr s0.cur).get 2) 7).toNat % 1 = 0 ∧ Unawaited s0 ∧
    s0.seqTranslate .store (based ((s0.thr s0.cur).get 2) 7).toNat = (s0, .ok 71 false false 0) ∧ Sound s0 71 ∧
    s0.checkOk (71 / 64) = true ∧ Apart s0 71 ∧ s0.isHead (me s0) = true ∧
    (s0.task (me s0)).laidGranule (based ((s0.thr s0.cur).get 2) 7).toNat = false :=
  ⟨rfl, rfl, by unfold Clean; decide +kernel, by decide +kernel, rfl, translates (by decide +kernel), by unfold Sound; decide +kernel, by decide +kernel, by unfold Apart; decide +kernel, by decide +kernel, rfl⟩
theorem meets_StoreWritesMemory_stack :
    let s := at0 u0 { stackVa := 64, stackPa := 0x10000, stackLen := 65536 }
    s.seqTranslate .store (based ((s.thr s.cur).get 2) 0).toNat = (s, .ok 0x10000 false false 0) ∧ Sound s 0x10000 ∧
    s.checkOk (0x10000 / 64) = true ∧ Apart s 0x10000 ∧ onStack s (based ((s.thr s.cur).get 2) 0).toNat :=
  ⟨rfl, by unfold Sound; decide +kernel, by decide +kernel, by unfold Apart; decide +kernel, rfl⟩
theorem meets_StoreEntersHold :
    let s := behind s0
    storeSpec (.sd 4 2 0) = some (4, 2, 0, 8) ∧ Free s [2, 4] [] ∧ Clean s [2, 4] ∧
    (based ((s.thr s.cur).get 2) 0).toNat % 8 = 0 ∧ Unawaited s ∧
    s.seqTranslate .store (based ((s.thr s.cur).get 2) 0).toNat = (s, .ok 64 false false 0) ∧ Sound s 64 ∧
    ¬ onStack s (based ((s.thr s.cur).get 2) 0).toNat ∧ s.isHead (me s) = false ∧
    (s.task (me s)).laidGranule (based ((s.thr s.cur).get 2) 0).toNat = false ∧ (s.task (me s)).slots < 32768 :=
  ⟨rfl, rfl, by unfold Clean; decide +kernel, by decide +kernel, rfl, translates (by decide +kernel), by unfold Sound; decide +kernel, by unfold onStack; decide +kernel, by decide +kernel, rfl, by decide +kernel⟩
theorem meets_FaultingStoreLaidBy :
    let s := noPage s0
    storeSpec (.sw 4 2 0) = some (4, 2, 0, 4) ∧ Free s [2, 4] [] ∧ Clean s [2, 4] ∧
    (based ((s.thr s.cur).get 2) 0).toNat % 4 = 0 ∧ Unawaited s ∧
    s.seqTranslate .store (based ((s.thr s.cur).get 2) 0).toNat = (s, .pageFault) ∧
    (s.laysOf (s.task (me s)).ctx).length < 2048 :=
  ⟨rfl, rfl, by unfold Clean; decide +kernel, by decide +kernel, rfl, rfl, by decide +kernel⟩
theorem meets_AtomicResults :
    atomSpec (.acas 4 2 3 .plain .core true) = some (4, 2, 3, true, 9) ∧ Free s0 [2, 3, 4] [4] ∧ Clean s0 [2, 3, 4] ∧
    ((s0.thr s0.cur).get 2).toNat % (64 / 8) = 0 ∧ Unawaited s0 ∧ s0.inHeadGroup (me s0) = true ∧
    (s0.task (me s0)).laidByte ((s0.thr s0.cur).get 2).toNat (64 / 8) = false ∧ (s0.task (me s0)).laidPlain = false ∧
    s0.seqTranslate .store ((s0.thr s0.cur).get 2).toNat = (s0, .ok 64 false false 0) ∧ Sound s0 64 ∧
    s0.behindHold s0.cur .plain 64 (64 / 8) = false ∧ s0.checkOk (64 / 64) = true ∧ Apart s0 64 :=
  ⟨rfl, rfl, by unfold Clean; decide +kernel, by decide +kernel, rfl, by decide +kernel, rfl, rfl, translates (by decide +kernel),
    by unfold Sound; decide +kernel, by decide +kernel, by decide +kernel, by unfold Apart; decide +kernel⟩
/-- Task 1 holds a byte, in the head group behind task 0. -/
def grouped : State :=
  let s := at0 u0 { hold := [(64, some 9)] }
  { s with tasks := (0, { gang := 1, phase := .resident, ctx := 1 }) :: s.tasks }
theorem meets_AtomicResults_held :
    let s := grouped
    let s2 := s.releaseHold (me s)
    Free s [2, 3] [4] ∧ Clean s [2, 3] ∧ Unawaited s ∧ s.isHead (me s) = false ∧ s.inHeadGroup (me s) = true ∧
    (s.task (me s)).laidByte ((s.thr s.cur).get 2).toNat (32 / 8) = false ∧ (s.task (me s)).laidPlain = false ∧
    s.seqTranslate .store ((s.thr s.cur).get 2).toNat = (s, .ok 64 false false 0) ∧ Sound s 64 ∧
    s.behindHold s.cur .plain 64 (32 / 8) = true ∧ s2.thr s.cur = s.thr s.cur ∧ s2.checkOk (64 / 64) = true ∧ Apart s2 64 :=
  ⟨rfl, by unfold Clean; decide +kernel, rfl, by decide +kernel, by decide +kernel, rfl, rfl, translates (by decide +kernel),
    by unfold Sound; decide +kernel, by decide +kernel, by decide +kernel, by decide +kernel, by unfold Apart; decide +kernel⟩
theorem meets_AtomicsWaitForTheHeadGroup :
    let s := behind s0
    atomSpec (.aadd 4 2 3 .plain .core false) = some (4, 2, 3, false, 1) ∧ Free s [2, 3] [4] ∧ Clean s [2, 3] ∧
    ((s.thr s.cur).get 2).toNat % 4 = 0 ∧ ¬ onStack s ((s.thr s.cur).get 2).toNat ∧ s.inHeadGroup (me s) = false :=
  ⟨rfl, rfl, by unfold Clean; decide +kernel, by decide +kernel, by unfold onStack; decide +kernel, by decide +kernel⟩
theorem meets_FenceWaitsForLoads :
    let s := at0 { u0 with pend := [{ d := 1, kind := .value }] } {}
    let r := at0 u0 { lays := [{ va := 64, gen := 0, bytes := [], cmd := 511, pos := 0 }] }
    ((∀ p ∈ (s0.thr s0.cur).pend, ¬ Awaited p) ∧ (s0.task (me s0)).laidPlain = false) ∧
    (FenceKind.acq ≠ .rel ∧ ∃ p ∈ (s.thr s.cur).pend, Awaited p) ∧
    (FenceKind.rel ≠ .acq ∧ (r.task (me r)).laidPlain = true) ∧ mwf (grouped.task (me grouped)).hold = true :=
  ⟨⟨(fun _ h => nomatch h), rfl⟩, ⟨by decide, { d := 1, kind := .value }, by decide +kernel, .inl rfl⟩, ⟨by decide, rfl⟩, by decide +kernel⟩

/-! ## Task control, engine controls and link instructions -/

/-- Element (0,0) to (15,31) as one island, and two rectangles side by side. -/
def whole : IslandDesc := { bottom := 15, right := 31, count := 1 }
def left0 : IslandDesc := { bottom := 15, right := 15, count := 0 }
def right1 : IslandDesc := { bottom := 15, left := 16, right := 31, count := 2 }
/-- A state whose active plane of context 0 is p. -/
def withPlane (s : State) (p : Plane) : State := { s with active := [(0, p)] }
/-- A state in which island i of context 0 runs. -/
def running (s : State) (i : Nat) : State := s.setIsl 0 i { running := true }

theorem meets_IslandStart :
    let s := withPlane s0 { isls := [left0, right1] }
    let isls := (s.plane s.cur).isls
    (1 : BitVec 6).toNat < isls.length ∧ isls.length ≤ 64 ∧ Unawaited s ∧
    (∀ j ∈ lockGroup isls (1 : BitVec 6).toNat, (s.isl s.cur j).running = false) ∧
    (∃ j ∈ lockGroup isls (1 : BitVec 6).toNat, ((running s 0).isl (running s 0).cur j).running = true) ∧
    ¬ Unawaited (at0 { pend := [{ d := 1, kind := .link 0 }] } {}) := by unfold Unawaited; decide +kernel
theorem meets_LockGroupClosed :
    0 < [left0, right1].length ∧ 0 ∈ lockGroup [left0, right1] 0 ∧ 1 < [left0, right1].length ∧
    adjoin ([left0, right1].getD 0 {}) ([left0, right1].getD 1 {}) = true := by decide +kernel
theorem meets_IslandWait :
    (s0.isl s0.cur (63 : BitVec 6).toNat).running = false ∧ ((running s0 63).isl (running s0 63).cur (63 : BitVec 6).toNat).running = true := by
  decide +kernel
theorem meets_TaskEnd :
    (Quiet s0 ∧ Unstained s0 ∧ (s0.thr s0.cur).pend = [] ∧ (∀ r, (s0.thr s0.cur).poisoned r = false) ∧
      (s0.task (me s0)).guardHit = none ∧ (s0.task (me s0)).gang ≠ 0) ∧
    (∃ i < 64, ((running s0 63).isl (running s0 63).cur i).running = true) ∧
    (let s := at0 { u0 with poison := 0x80000000 } {}
     Quiet s ∧ Unstained s ∧ (s.thr s.cur).pend = [] ∧ (s.thr s.cur).poisoned 31 = true ∧
      (∀ q : Reg, (s.thr s.cur).poisoned q = true → (31 : Reg).toNat ≤ q.toNat)) :=
  ⟨by unfold Quiet Unstained; decide +kernel, by decide +kernel, by unfold Quiet Unstained; decide +kernel⟩
theorem meets_SpawnRequest :
    Free s0 [2, 8, 9, 10, 11, 12, 13, 14, 15] [31] ∧ Clean s0 [2, 8, 9, 10, 11, 12, 13, 14, 15] ∧ s0.isHead (me s0) = true ∧
    Free (behind s0) [2, 8, 9, 10, 11, 12, 13, 14, 15] [31] ∧ Clean (behind s0) [2, 8, 9, 10, 11, 12, 13, 14, 15] ∧
    (behind s0).isHead (me (behind s0)) = false ∧ Unawaited s0 ∧ (s0.task (me s0)).laidPlain = false ∧
    (let s := at0 u0 { lays := [{ va := 64, gen := 0, bytes := [], cmd := 511, pos := 0 }] }
     Free s [2, 8, 9, 10, 11, 12, 13, 14, 15] [31] ∧ Clean s [2, 8, 9, 10, 11, 12, 13, 14, 15] ∧ (s.task (me s)).laidPlain = true) :=
  ⟨rfl, by unfold Clean; decide +kernel, by decide +kernel, rfl, by unfold Clean; decide +kernel, by decide +kernel, rfl, rfl,
   rfl, by unfold Clean; decide +kernel, rfl⟩
/-- A request for child 0, in a task whose image has one; the header of the child is that of an image without demands. -/
def asks : Pend := { d := 31, kind := .spawn 7 0 [1, 2, 3, 4, 5, 6, 7, 8] 0 }
def kid : State := (at0 { pend := [asks] } { ts := 7, image := { children := [(0, 256)] }, kidsPa := 0x20001000000 }).write 0x20001000000
  (leList 8 (0x474D494B + 2 ^ 32 + 2 ^ 56) ++ leList 8 7 ++ leList 8 1 ++ List.replicate 232 0) |>.1
/-- With frame 1 alone in the loader's pool. -/
def pooled (s : State) : State := { s with regs := { s.regs with lpBase := 65536, lpSize := 65536 } }
theorem pooled_frame : (pooled kid).mailFrame = some 1 := by
  have h : ((pooled kid).devicePool 0 (2 ^ 23)) = (1, 1) ∧ (pooled kid).framesHeld 0 = [] := by decide +kernel
  unfold State.mailFrame
  rw [h.1, h.2]
  simp [pickRun, Nat.mod_one]
theorem meets_SpawnReply :
    let s := pooled kid
    spawning (s.thr 0) = some asks ∧ asks.kind = .spawn 7 0 [1, 2, 3, 4, 5, 6, 7, 8] 0 ∧
    (s.tasks.filter (fun q => q.2.gang == (s.task (s.taskAt 0)).gang && q.2.phase != .done)).length < 32 ∧
    (s.task (s.taskAt 0)).ts.toNat ≤ (7 : Word).toNat ∧ (∃ k, s.childOf (s.taskAt 0) 0 = some k) ∧ s.mailFrame = some 1 :=
  ⟨by decide +kernel, rfl, by decide +kernel, by decide +kernel, Option.isSome_iff_exists.mp (by decide +kernel), pooled_frame⟩
theorem meets_SpawnRefused :
    (let s : State := { kid with tasks := kid.tasks ++ (List.range 31).map (fun n => (n + 2, { gang := 1 })) }
     spawning (s.thr 0) = some asks ∧
     32 ≤ (s.tasks.filter (fun q => q.2.gang == (s.task (s.taskAt 0)).gang && q.2.phase != .done)).length) ∧
    (let s : State := { kid with tasks := kid.tasks.map (fun p => (p.1, { p.2 with ts := 8 })) }
     spawning (s.thr 0) = some asks ∧
     (s.tasks.filter (fun q => q.2.gang == (s.task (s.taskAt 0)).gang && q.2.phase != .done)).length < 32 ∧
     (7 : Word).toNat < (s.task (s.taskAt 0)).ts.toNat) ∧
    (let s := at0 { pend := [asks] } { ts := 7 }
     spawning (s.thr 0) = some asks ∧
     (s.tasks.filter (fun q => q.2.gang == (s.task (s.taskAt 0)).gang && q.2.phase != .done)).length < 32 ∧
     (s.task (s.taskAt 0)).ts.toNat ≤ (7 : Word).toNat ∧ s.childOf (s.taskAt 0) 0 = none) := by decide +kernel
/-- This package is the one member of the group of pod barrier 15. -/
def podAt : State := { s0 with pkgId := 0, mem := [(128, 1)], regs := { s0.regs with podBar := [(15, 128)] } }
theorem meets_BarrierArrival :
    let may := fun s : State => (s.thr s.cur).barReleased = false ∧ (s.thr s.cur).barArrived = false ∧ Unawaited s ∧
      s.inHeadGroup (me s) = true ∧ (s.task (me s)).laidPlain = false
    let key := (32 * scopeNum .pod + instOf .pod 0) * 16 + (15 : BitVec 4).toNat
    (s0.task (me s0)).guardHit = none ∧ ((at0 { barReleased := true } {}).thr 0).barReleased = true ∧
    (may podAt ∧ podAt.podOk (15 : BitVec 4).toNat = true ∧ (mget podAt.bars key).lost = []) ∧ may grouped ∧
    (may s0 ∧ s0.podOk (15 : BitVec 4).toNat = false) ∧
    (may podAt ∧ (mget ({ podAt with bars := [(key, { lost := [0] })] } : State).bars key).lost ≠ []) ∧
    (((at0 { barArrived := true } {}).thr 0).barArrived = true ∧ ((at0 { barArrived := true } {}).thr 0).barReleased = false) ∧
    ¬ Unawaited (at0 { pend := [{ d := 1, kind := .link 0 }] } {}) ∧
    ((behind s0).thr (behind s0).cur).barReleased = false ∧ (behind s0).inHeadGroup (me (behind s0)) = false ∧
    ((at0 u0 { lays := [{ va := 64, gen := 0, bytes := [], cmd := 511, pos := 0 }] }).task 1).laidPlain = true := by
  unfold Unawaited; decide +kernel
theorem meets_BarrierRelease :
    let key := (32 * scopeNum .quad + (0 : BitVec 5).toNat) * 16 + (15 : BitVec 4).toNat
    let s : State := { s0 with bars := [(key, { gang := some 1, arrived := [1] })] }
    Scope.quad ≠ .pod ∧ s.barFull .quad (0 : BitVec 5).toNat (mget s.bars key) = true ∧
    s0.barFull .quad (0 : BitVec 5).toNat (mget s0.bars key) = false := by decide +kernel
theorem meets_CompletionWait :
    (Free s0 [2, 0] [1] ∧ Clean s0 [2, 0] ∧ ((s0.thr s0.cur).get 2).toNat % 8 = 0 ∧ Unawaited s0 ∧
      (s0.task (me s0)).laidByte ((s0.thr s0.cur).get 2).toNat 8 = false ∧
      s0.seqTranslate .load ((s0.thr s0.cur).get 2).toNat = (s0, .ok 64 false false 0) ∧ Sound s0 64 ∧
      ((s0.thr s0.cur).get 0).toNat ≤ seen s0 ((s0.thr s0.cur).get 2).toNat 64 8) ∧
    seen s0 ((s0.thr s0.cur).get 2).toNat 64 8 < ((s0.thr s0.cur).get 3).toNat :=
  ⟨⟨rfl, by unfold Clean; decide +kernel, by decide +kernel, rfl, rfl, translates (by decide +kernel), by unfold Sound; decide +kernel,
    by decide +kernel⟩, by decide +kernel⟩

/-- A command table of one `cam.gath`, bound to the island of the whole region. -/
def gath : CamRec := { hdr := { start := 0x80, island := 0 }, cam := 0, handle := 0, merge := .keep, l1 := {}, l2 := {}, l3 := {}
                       l4 := {}, l5 := {}, tok := 0, steps1 := 0, thr := 0, window := 1, port := 0, edge := false }
def gathRec : CmdRec := { words := [0x10000000080, 1, 1, 1, 1, 1, 0, 1] }
def table (u : Thread) : State :=
  { withPlane (at0 u {}) { isls := [whole], cmds := [gathRec] } with cmdTab := [(0, gathRec)] }
/-- The hypotheses of a patch of field f of that record with the value v in g3. -/
def Patchable (f : BitVec 5) (v : Word) : Prop :=
  let s := table { g := [(3, v)] }
  Free s [3, 0] [] ∧ Clean s [3, 0] ∧ f.toNat ≤ 11 ∧ ((s.thr s.cur).get 0).toNat < s.tableLen s.cur ∧
  (s.cmdRec s.cur 0).words.length = 8 ∧ s.cmdAt s.cur 0 = some (.camGath gath) ∧ (s.isl s.cur 0).running = false ∧
  cmdwField (.camGath gath) f.toNat = true ∧ InRange f.toNat v ∧
  ∃ j, readRec (patchRec (s.cmdRec s.cur 0) (.camGath gath) f.toNat v) = some j ∧
    recOk (s.plane s.cur).isls (s.task (me s)).streams (s.task (me s)).acc (patchRec (s.cmdRec s.cur 0) (.camGath gath) f.toNat v) j = true
theorem meets_CommandPatch_start : Patchable 0 0xFFFFFFFF :=
  ⟨rfl, by unfold Clean; decide +kernel, by decide, by decide +kernel, rfl, by decide +kernel, by decide +kernel, by decide,
   by unfold InRange; decide +kernel,
   .camGath { gath with hdr := { start := 0xFFFFFFFF, island := 0 } }, by decide +kernel, by decide +kernel⟩
theorem meets_CommandPatch_count : Patchable 5 0xFFFFFF :=
  ⟨rfl, by unfold Clean; decide +kernel, by decide, by decide +kernel, rfl, by decide +kernel, by decide +kernel, by decide,
   by unfold InRange; decide +kernel, .camGath { gath with l5 := { count := 0xFFFFFF } }, by decide +kernel, by decide +kernel⟩
theorem meets_CommandPatch_stride : Patchable 10 0xFFFFFF8000000000 :=
  ⟨rfl, by unfold Clean; decide +kernel, by decide, by decide +kernel, rfl, by decide +kernel, by decide +kernel, by decide,
   by unfold InRange; decide +kernel, .camGath { gath with l5 := { stride := 0x8000000000 } }, by decide +kernel, by decide +kernel⟩
theorem meets_CommandPatch_window : Patchable 11 0xFFFF :=
  ⟨rfl, by unfold Clean; decide +kernel, by decide, by decide +kernel, rfl, by decide +kernel, by decide +kernel, by decide,
   by unfold InRange; decide +kernel, .camGath { gath with window := 0xFFFF }, by decide +kernel, by decide +kernel⟩
theorem meets_CommandPatchRefused :
    let s := table { g := [(2, 1), (3, 0x1000000)] }
    Free s [3, 2] [] ∧ Clean s [3, 2] ∧ s.tableLen s.cur ≤ ((s.thr s.cur).get 2).toNat ∧ Free s [3, 0] [] ∧ Clean s [3, 0] ∧
    s.cmdAt s.cur ((s.thr s.cur).get 0).toNat = some (.camGath gath) ∧ (s.isl s.cur 0).running = false ∧
    12 < (13 : BitVec 5).toNat ∧ (1 : BitVec 5).toNat ≤ 11 ∧ ¬ InRange (1 : BitVec 5).toNat ((s.thr s.cur).get 3) :=
  ⟨rfl, by unfold Clean; decide +kernel, by decide +kernel, rfl, by unfold Clean; decide +kernel, by decide +kernel, by decide +kernel,
   by decide, by decide, by unfold InRange; decide +kernel⟩
/-- A table of one `s.in` of a stream of one page, which is mapped or not. -/
def in1 : StreamRec := { (default : StreamRec) with hdr := { start := 0x80, island := 0 }, base := 64, window := 1, esize := 4 }
def inRec : CmdRec := { words := (in1.toWords 0 false false).map (BitVec.ofNat 64), refs := [{ word := 6, stream := 0, off := 64 }] }
def moveAt (mappedPage : Bool) : State :=
  { withPlane (at0 { g := [(3, 128)] } { streams := [{ hi := 65536, reads := true }], extents := if mappedPage then [(0, 0x71F)] else [] })
      { isls := [whole], cmds := [inRec] } with cmdTab := [(0, inRec)] }
theorem meets_CommandMove : ∀ m : Bool,
    let s := moveAt m
    Free s [3, 0] [] ∧ Clean s [3, 0] ∧ ((s.thr s.cur).get 0).toNat < s.tableLen s.cur ∧ (s.cmdRec s.cur 0).words.length = 8 ∧
    s.cmdAt s.cur 0 = some (.sIn in1) ∧ (s.isl s.cur 0).running = false ∧ cmdwField (.sIn in1) 12 = true ∧ (128 : Word).toNat < 2 ^ 48 ∧
    (s.cmdRec s.cur 0).refs.find? (fun f => f.word == offsetWord (.sIn in1)) = some { word := 6, stream := 0, off := 64 } ∧
    recOk (s.plane s.cur).isls (s.task (me s)).streams (s.task (me s)).acc (patchRec (s.cmdRec s.cur 0) (.sIn in1) 12 128) (.sIn in1) = true ∧
    s.extAcc (s.task (me s)) .load 128 = (if m then .ok 128 false false 0 else .pageFault) := by
  unfold Free Clean; decide +kernel
theorem meets_CommandPatchRefused_more :
    let s := moveAt true
    cmdwField (.camGath gath) 12 = false ∧
    (∃ st, refOf (s.task (me s)).streams (s.cmdRec s.cur 0) (offsetWord (.sIn in1)) = some st ∧ st.1.hi ≤ (65536 : Word).toNat) ∧
    ∃ j, readRec (patchRec (s.cmdRec s.cur 0) (.sIn in1) 6 1) = some j ∧
      recOk (s.plane s.cur).isls (s.task (me s)).streams (s.task (me s)).acc (patchRec (s.cmdRec s.cur 0) (.sIn in1) 6 1) j = false :=
  ⟨rfl, ⟨_, rfl, by decide +kernel⟩, .sIn { in1 with l1 := { in1.l1 with stride := 1 } }, by decide +kernel, by decide +kernel⟩
/-- The image of a graph of one input, which is its one output. -/
def graphImage : List Byte :=
  leList 8 (0x4D4F4F4C + 2 ^ 32 + 64 * 2 ^ 48) ++ leList 8 (2 ^ 16 + 2 ^ 32) ++ leList 8 (128 * 2 ^ 32) ++ List.replicate 40 0 ++
    leList 8 0xA000000000000000 ++ leList 8 0x6000000000000000 ++ List.replicate 48 0
def loads : Pend := { d := 31, kind := .gload 0 0 0 }
def loomAt : State := ((at0 { pend := [loads] } { graphs := [0x20001000000] }).write 0x20001000000 graphImage).1
theorem meets_GraphLoad :
    Free s0 [] [31] ∧ loading (loomAt.thr 0) = some loads ∧ loads.kind = .gload 0 0 0 ∧
    0 < (loomAt.task (loomAt.taskAt 0)).graphs.length ∧
    (loomAt.graphBytes ((loomAt.task (loomAt.taskAt 0)).graphs.getD 0 0)).2 = true ∧
    (∃ gr, readGraph (loomAt.graphBytes ((loomAt.task (loomAt.taskAt 0)).graphs.getD 0 0)).1 = some gr ∧ gr.farRead = false ∧
      gr.depth ≤ 64 ∧ gr.bays = 0) ∧ ∃ k < 16, (loomAt.slot 0 k).resident = false :=
  ⟨rfl, by decide +kernel, rfl, by decide +kernel, by decide +kernel,
   ⟨{ taps := [1], outs := [.tap 0], scales := [0] }, by decide +kernel, rfl, by decide, rfl⟩, by decide +kernel⟩
theorem meets_LoomControls :
    (Free s0 [2] [] ∧ Clean s0 [2] ∧ 15 < ((s0.thr s0.cur).get 2).toNat) ∧
    (let s := at0 { g := [(2, 15)] } {}
     Free s [2] [5] ∧ Clean s [2] ∧ ((s.thr s.cur).get 2).toNat ≤ 15 ∧
     s.runningCmd s.cur (fun i => match i with | .gRun r => r.slot.toNat == ((s.thr s.cur).get 2).toNat | _ => false) = false) ∧
    (let s := { at0 { g := [(2, 15)] } {} with slots := [(15, { resident := true })] }
     (s.slot s.cur 15).resident = true ∧ (s.slot s.cur 15).graph.depth < 256 ∧ (s.slot s.cur 15).graph.nodes.length < 2 ^ 20 ∧
     (s.slot s.cur 15).graph.taps.length < 512 ∧ (s.slot s.cur 15).graph.outs.length < 512) :=
  ⟨⟨rfl, by unfold Clean; decide +kernel, by decide +kernel⟩, ⟨rfl, by unfold Clean; decide +kernel, by decide +kernel, by decide +kernel⟩,
   by decide +kernel⟩
theorem meets_CameraControls :
    (34 : BitVec 6).toNat ≤ 34 ∧ Free s0 [4] [] ∧ Clean s0 [4] ∧ CamIdle s0 (7 : BitVec 3).toNat :=
  ⟨by decide, rfl, by unfold Clean; decide +kernel, by unfold CamIdle; decide +kernel⟩
theorem meets_LinkDescriptorQueued :
    let w := fun n => seen s0 ((s0.thr s0.cur).get 2).toNat 64 32 / 2 ^ (64 * n) % 2 ^ 64
    linkSpec (.lamo 31 2) = some (.amo, 2, some 31) ∧ Free s0 [2] (some (31 : Reg)).toList ∧ Clean s0 [2] ∧
    ((s0.thr s0.cur).get 2).toNat % 32 = 0 ∧ Unawaited s0 ∧ (s0.task (me s0)).laidByte ((s0.thr s0.cur).get 2).toNat 32 = false ∧
    s0.seqTranslate .load ((s0.thr s0.cur).get 2).toNat = (s0, .ok 64 false false 0) ∧ Sound s0 64 ∧ w 3 % 8 = 0 ∧
    linkOk .amo (w 0) (w 1) (w 3) = true ∧
    (w 0 / 2 ^ 16 % 16 = 9 → ∀ r ∈ (some 31 : Option Reg), (s0.thr s0.cur).poisoned r = false) ∧ (s0.task (me s0)).gang ≠ 0 :=
  ⟨rfl, rfl, by unfold Clean; decide +kernel, by decide +kernel, rfl, rfl, translates (by decide +kernel), by unfold Sound; decide +kernel,
   by decide +kernel, by decide +kernel, by decide +kernel, by decide +kernel⟩
/-- At 64 lies a descriptor of an `amo` that compares (R117), and its comparand, g31, is poisoned. -/
def casAt : State := { at0 { u0 with poison := 0x80000000 } {} with mem := [(66, 9)] }
theorem meets_LinkDescriptorQueued_poisoned :
    let w := fun n => seen casAt ((casAt.thr casAt.cur).get 2).toNat 64 32 / 2 ^ (64 * n) % 2 ^ 64
    linkSpec (.lamo 31 2) = some (.amo, 2, some 31) ∧ Free casAt [2] (some (31 : Reg)).toList ∧ Clean casAt [2] ∧
    ((casAt.thr casAt.cur).get 2).toNat % 32 = 0 ∧ Unawaited casAt ∧
    casAt.seqTranslate .load ((casAt.thr casAt.cur).get 2).toNat = (casAt, .ok 64 false false 0) ∧
    linkOk .amo (w 0) (w 1) (w 3) = true ∧ w 0 / 2 ^ 16 % 16 = 9 ∧ ∃ r ∈ (some 31 : Option Reg), (casAt.thr casAt.cur).poisoned r = true :=
  ⟨rfl, rfl, by unfold Clean; decide +kernel, by decide +kernel, rfl, translates (by decide +kernel), by decide +kernel,
   by decide +kernel, 31, rfl, by decide +kernel⟩
theorem meets_LinkValueQueued : Clean s0 [2] ∧ (s0.task (me s0)).gang ≠ 0 ∧ Free s0 [2] [] ∧ Free s0 [2] [31] :=
  ⟨by unfold Clean; decide +kernel, by decide +kernel, rfl, rfl⟩
theorem meets_PendingWriteLands :
    let p : Pend := { d := 31, kind := .value, v := 9 }
    let s := at0 { pend := [p] } {}
    p ∈ (s.thr 0).pend ∧ p.kind = .value ∧ ∀ q ∈ (s.thr 0).pend, q.d = p.d → q = p := by decide +kernel
theorem meets_WaitTimeout :
    let s : State := { at0 { idle := some 3 } {} with cycle := 65539 }
    (s.thr 0).idle = some 3 ∧ 3 + 65536 ≤ s.cycle ∧ ¬ 3 + 65537 ≤ s.cycle := by decide +kernel

/-! ## Timed entries -/

/-- The fields of an entry of a type, whose operands are the newest captures of N. -/
def fields (ty : Ty) (x : BitVec 16) : EntryF := { stamp := 0, a := {}, b := {}, c := {}, ty := ty, sat := false, rnd := .rs, we := true, x := x }

theorem meets_LaneArithmetic :
    ∃ lf li n vf vi, arithSpec (.entryFma (fields .bf16 0)) = some (fields .bf16 0, lf, li, n, vf, vi) ∧
      ∃ lf li n vf vi, arithSpec (.entryAbs (fields .n8 0)) = some (fields .n8 0, lf, li, n, vf, vi) :=
  ⟨_, _, _, _, _, rfl, _, _, _, _, _, rfl⟩
theorem meets_LaneFunctions :
    ∃ lat n g, laneSpec (.entryExp2 (fields .f16 0)) = some (fields .f16 0, lat, n, g) ∧
      ∃ lat n g, laneSpec (.entrySra (fields .i64 0)) = some (fields .i64 0, lat, n, g) := ⟨_, _, _, rfl, _, _, _, rfl⟩
theorem meets_BitwiseAndMoves :
    ∃ n g, bitSpec (.entryAndn (fields .bits 0)) = some (fields .bits 0, n, g) := ⟨_, _, rfl⟩
theorem meets_CompareResults : ∃ r, cmpSpec (.entryCmpun (fields .e5m2 0)) = some (fields .e5m2 0, r) := ⟨_, rfl⟩
/-- The acting element, element 0 of context 0, is x. -/
def holding (x : Elem) : State := s0.setElem 0 0 x
theorem meets_SelectResults :
    ((elemOf s0).qU ≤ s0.now - 1 ∧ selPoison s0 (fields .e2m1 0) = false) ∧
    ((elemOf (holding { qPoison := true })).qU ≤ (holding { qPoison := true }).now - 1 ∧
      selPoison (holding { qPoison := true }) (fields .e2m1 0) = true) ∧
    ((fields .f32 1).x.getLsbD 0 = true ∧ selPoison (holding { qPoison := true }) (fields .f32 1) = false) := by decide +kernel
theorem meets_ConversionResults :
    Ty.ofCode? ((fields .f32 0xD).x.toNat % 16) = some .bits ∧ Ty.ofCode? ((fields .e4m3 0x131).x.toNat % 16) = some .bf16 := ⟨rfl, rfl⟩
theorem meets_BlockPacking :
    Ty.ofCode? ((fields .f32 0x75).x.toNat % 16) = some .e2m1 ∧
    (let s := withPlane s0 { isls := [whole], elems := [(0, { blk := 8 })] }
     Ty.ofCode? ((fields .e2m1 1).x.toNat % 16) = some .bf16 ∧ Ty.bf16 ∈ [Ty.f32, .bf16, .f16] ∧
     (fields .e2m1 1).ty ∈ [Ty.e2m1, .e4m3, .e5m2] ∧ (s.cfg s.cur s.ei).blk ∈ [8, 16, 32]) := by decide +kernel
theorem meets_BlockScaleIsLeast :
    (∀ x ∈ ([] : List Val), x.isNan = false) ∧
    (([] : List Val).foldl (fun m x => Val.max m x.abs) (Val.fin false 0 0 false)).isZero = true ∧
    (∀ x ∈ [Val.fin true 3 200 false, Val.inf false], x.isNan = false) ∧
    ([Val.fin true 3 200 false, Val.inf false].foldl (fun m x => Val.max m x.abs) (Val.fin false 0 0 false)).isZero = false := by
  decide +kernel
theorem meets_LaneMoves :
    ∃ g b, moveSpec s0 (.entryRot (fields .n8 31)) = some (fields .n8 31, g, b) ∧
      ∃ g b, moveSpec s0 (.entryShuf (fields .f32 0)) = some (fields .f32 0, g, b) := ⟨_, _, rfl, _, _, rfl⟩
theorem meets_HorizontalSums :
    ((fields .e4m3 0).ty.isF || (fields .e4m3 0).ty.isF8 || (fields .e4m3 0).ty.isI) = true ∧
    ((fields .n16 0).ty.isF || (fields .n16 0).ty.isF8 || (fields .n16 0).ty.isI) = true := ⟨rfl, rfl⟩
theorem meets_Scans :
    ((fields .f32 0).ty.isF || (fields .f32 0).ty.isI) = true ∧ ((fields .n8 0).ty.isF || (fields .n8 0).ty.isI) = true := ⟨rfl, rfl⟩
theorem meets_HorizontalExtremes :
    (let f := fields .e5m2 0
     (f.ty.isF || f.ty.isF8 || f.ty.isI) = true ∧ isFloat f.ty = true) ∧
    (let f := fields .i32 0
     (f.ty.isF || f.ty.isF8 || f.ty.isI) = true ∧ f.ty.isI = true ∧ 3 < f.ty.lanes) ∧
    (Val.nan.isNan = true ∧ (Val.inf true).isNan = false ∧
      (Val.fin true 0 0 false).eq (Val.fin false 0 0 false) = true) := by decide +kernel
theorem meets_ControlPlane :
    (∃ n g, ctlSpec (.entryCshl (fields .i32 0)) = some (fields .i32 0, n, g)) ∧ ((fields .n32 5).ty = .i32 ∨ (fields .n32 5).ty = .n32) :=
  ⟨⟨_, _, rfl⟩, .inr rfl⟩
/-- Task 1 has bank tag 1, and the line of addresses 65472 to 65535 of element 0 carries an owner and a guard mark. -/
def banked (owner : BitVec 4) (guard : Bool) : State :=
  { at0 {} { tag := 1 } with bankMeta := [(lineKey 0 0 65472, { owner := owner, guard := guard })] }
theorem meets_BankReads :
    bankReads (.entryLdb (fields .bits 0xFFC0)) = true ∧ bankAddr (banked 1 false) (.entryLdb (fields .bits 0xFFC0)) = some 65472 ∧
    (banked 1 false).bankChk 0 (banked 1 false).ei 65472 = .ok ∧
    (let o : BankOp := { c := 0, e := 0, a := 65472, at' := 3 }
     o.store = none ∧ o.poison = false) := by decide +kernel
theorem meets_BankStores :
    bankReads (.entryStb (fields .bits 0xFFC0)) = false ∧ bankAddr (banked 1 false) (.entryStb (fields .bits 0xFFC0)) = some 65472 ∧
    (stored (banked 1 false) (.entryStb (fields .bits 0xFFC0))).anyP = false ∧
    (banked 1 false).bankChk 0 (banked 1 false).ei 65472 = .ok ∧
    (let o : BankOp := { c := 0, e := 0, a := 65472, store := some 7 }
     let w : PlaneWr := { c := 0, e := 0, a := 65472, span := 1, pfmt := 0, v := 9 }
     let s : State := { banked 1 false with bankQ := [o], planeQ := [w] }
     o.store = some 7 ∧ s.planeQ = [w] ∧ s.bankQ = [o]) := by decide +kernel
theorem meets_BankFaults :
    (bankAddr (holding { ln := [{ side := 0x100000000 }] }) (.entryStb (fields .bits 0xFFC0)) = some 65472 ∧
      bankReads (.entryStb (fields .bits 0xFFC0)) = false ∧
      (stored (holding { ln := [{ side := 0x100000000 }] }) (.entryStb (fields .bits 0xFFC0))).anyP = true) ∧
    (bankAddr (banked 2 false) (.entryLdbx (fields .bits 0xFFC0)) = some 65472 ∧
      bankReads (.entryLdbx (fields .bits 0xFFC0)) = true ∧ (banked 2 false).bankChk 0 (banked 2 false).ei 65472 = .notOwned) ∧
    (bankAddr (banked 1 true) (.entryLdb (fields .bits 0xFFC0)) = some 65472 ∧
      (banked 1 true).bankChk 0 (banked 1 true).ei 65472 = .guard ∧ ((banked 1 true).task (me (banked 1 true))).gang ≠ 0) := by
  decide +kernel
theorem meets_RandomDraws :
    (fields .bits 0).ty ≠ .f32 ∧ (fields .f32 0).ty = .f32 ∧ (s0.opA (fields .f32 0)).anyP = false := by decide +kernel
theorem meets_Reservoirs : (fields .bf16 0xFFFF).ty.isF = true := rfl
theorem meets_BitAndTableLookups : (fields .i16 0).ty.width ≤ 16 := by decide
theorem meets_ConditionsAndChecks :
    (((s0.opA (fields .i32 0)).anyP || (s0.opB (fields .i32 0)).anyP) = false ∧
      ∀ i < (fields .i32 0).ty.lanes, relLane (fields .i32 0).ty (relOfCode ((fields .i32 0).x.toNat % 8))
        (lane (fields .i32 0) (s0.opA (fields .i32 0)) i) (lane (fields .i32 0) (s0.opB (fields .i32 0)) i) = true) ∧
    ¬ (∀ i < (fields .i32 1).ty.lanes, relLane (fields .i32 1).ty (relOfCode ((fields .i32 1).x.toNat % 8))
        (lane (fields .i32 1) (s0.opA (fields .i32 1)) i) (lane (fields .i32 1) (s0.opB (fields .i32 1)) i) = true) ∧
    ((holding { ln := [{ side := 0x100000000 }] }).opA (fields .i32 0)).anyP = true := by decide +kernel

/-! ## Commands of the engines -/

/-- A state of 17 commands, of which the last acts and the others are at work with the record i. -/
def busy (i : Instr) : State :=
  { withPlane (at0 {} { loom := 4096, acc := 256 }) { isls := [whole], cmds := List.replicate 17 gathRec } with
    curCmd := 16, runs := (List.range 16).map (fun k => (k, { st := .running, ins := some i })) }
def hdr0 : CmdHdr := { start := 0x80, island := 0 }
def bags0 : WhRedRec := { hdr := hdr0, bags := { count := 0 }, inds := {}, idx := 0, dst := 0, cw := 8, table := 0, port := 7, ty := .f32
                          merge := .add, scope := .core, row := 16 }
theorem meets_PortCommandsStart :
    portCmd (.whRed { bags0 with bags := { count := 1 } }) = true ∧ (∀ p, portOf (.whRed bags0) = some p → s0.portUse s0.cur p < 16) ∧
    (∃ p, portOf (.sIn { (default : StreamRec) with port := 0 }) = some p ∧ 16 ≤ (busy (.camGath gath)).portUse 0 p) ∧
    bags0.bags.count.toNat = 0 ∧ s0.portUse s0.cur bags0.port.toNat < 16 ∧ (s0.task (me s0)).gang ≠ 0 :=
  ⟨rfl, by intro p h; obtain rfl : 7 = p := Option.some.inj h; decide +kernel, ⟨0, rfl, by decide +kernel⟩, rfl, by decide +kernel, by decide +kernel⟩
def zero0 : MxZeroRec := { hdr := hdr0, l1 := {}, accrow := 1023, acccol := 255, cols1 := 0 }
def tile0 : Tile := { fmt := 5, blk := 3, kb := 7, nb := 15, bytes := [], cmd := 0, whole := true }
def step0 : MxStepRec := { hdr := hdr0, l1 := {}, l2 := {}, bank := 0, accrow := 0, acccol := 0, t1 := 0, t2 := 0, afmt := 4, span := 0 }
/-- A load at its join, with all its beats read. -/
def joinLoad : MxWloadRec := { hdr := hdr0, base := 64, wfmt := 2, blk := 0, kb := 0, nb := 0 }
def joining : State := { s0 with
  cycle := 200, isls := [(0, { running := true, ctr := 200 })], runs := [(0, { st := .running, ins := some (.mxWload joinLoad), f := 3, done := 9 })] }
theorem meets_MatrixCommandsStart :
    ((mxUnit (.mxZero zero0)).isSome = true ∧ UnitFree s0 (.mxZero zero0) ∧ MatrixFit s0 (.mxZero zero0)) ∧
    (let s : State := { at0 {} { acc := 256 } with tileA := [(0, some tile0)] }
     (mxUnit (.mxStep step0)).isSome = true ∧ UnitFree s (.mxStep step0) ∧ MatrixFit s (.mxStep step0)) ∧
    (let s : State := { s0 with tileS := [(0, some tile0)] }
     (mxUnit (.mxSwap hdr0)).isSome = true ∧ UnitFree s (.mxSwap hdr0) ∧ MatrixFit s (.mxSwap hdr0)) ∧
    JoinsNow joining { tile0 with whole := false } ∧
    (¬ MatrixFit s0 (.mxSwap hdr0)) ∧ ¬ UnitFree (busy (.mxZero zero0)) (.mxZero zero0) :=
  ⟨⟨rfl, ⟨fun u h => Option.some.inj h ▸ by decide +kernel, by decide +kernel⟩, trivial⟩,
   ⟨rfl, ⟨fun u h => Option.some.inj h ▸ by decide +kernel, by decide +kernel⟩, tile0, rfl, rfl, by decide +kernel, by decide +kernel⟩,
   ⟨rfl, ⟨fun u h => Option.some.inj h ▸ by decide +kernel, by decide +kernel⟩, tile0, rfl, .inl rfl⟩,
   ⟨by decide +kernel, joinLoad, by decide +kernel⟩,
   (fun h => by obtain ⟨_, h, _⟩ := h; exact nomatch h), fun h => absurd (h.1 .port rfl) (by decide +kernel)⟩
def run0 : GRunRec := { hdr := hdr0, vectors := 1, sx := 0, window := 100, port := 3, slot := 15, i16 := false, side := false }
theorem meets_LoomCommandStarts :
    let s : State := { at0 {} { loom := 4096 } with slots := [(15, { resident := true })] }
    (∀ k q, k < s.tableLen s.cur → (s.run s.cur k).live = true → (s.run s.cur k).ins = some (.gRun q) →
      (q.slot ≠ run0.slot ∧ q.port ≠ run0.port) ∨ GRunRec.join q (s.slot s.cur q.slot.toNat).graph ≤ s.since s.cur k) ∧
    ((s.slot s.cur run0.slot.toNat).resident = true ∧ 4096 ≤ (s.task (me s)).loom) ∧
    (0 < (busy (.gRun run0)).tableLen 0 ∧ ((busy (.gRun run0)).run 0 0).live = true ∧ ((busy (.gRun run0)).run 0 0).ins = some (.gRun run0) ∧
      ¬ ((run0.slot ≠ run0.slot ∧ run0.port ≠ run0.port) ∨
        GRunRec.join run0 ((busy (.gRun run0)).slot 0 run0.slot.toNat).graph ≤ (busy (.gRun run0)).since 0 0)) ∧
    ¬ ((s0.slot s0.cur run0.slot.toNat).resident = true ∧ 4096 ≤ (s0.task (me s0)).loom) :=
  ⟨fun k q h => absurd h (Nat.not_lt_zero k), by decide +kernel, by decide +kernel, by decide +kernel⟩
theorem meets_CameraCommandsStart :
    let s : State := { s0 with cams := [(0, { f := [(28, 8), (29, 8), (30, 8)] })], sst := [(0, 0x8000000000000000)] }
    camSpec (.camGath gath) = some (gath, true) ∧ s.portUse s.cur gath.port.toNat < 16 ∧ CamFit s gath true ∧ ¬ CamFit s0 gath true :=
  ⟨rfl, by decide +kernel, ⟨by decide +kernel, by decide +kernel, by decide +kernel, fun _ => by decide +kernel⟩,
   fun h => absurd h.1 (by decide +kernel)⟩

/-! ## Attention commands -/

/-- The three parts of a result. -/
theorem triple {α β γ : Type} (x : α × β × γ) {c : γ} (h : x.2.2 = c) : x = (x.1, x.2.1, c) := h ▸ rfl
theorem pair {α β : Type} (x : α × β) {c : β} (h : x.2 = c) : x = (x.1, c) := h ▸ rfl
theorem found {α : Type} {o : Option α} {p : α → Bool} (h : o.any p = true) : ∃ u, o = some u ∧ p u = true := by
  cases o with
  | none => exact nomatch h
  | some u => exact ⟨u, rfl, h⟩
def rows0 : AtRec := { hdr := hdr0, rows := { count := 0, stride := 256 }, handle := 64, rowBase := 0, w4 := 0, out := 0, cw := 0, scope := .core
                       causal := false, sinks := 0, recent := 0, limit1 := 0 }
/-- A queued truncation to no tokens; an empty sequence of d = 64 stands at the begin of attention memory. -/
def trunc0 : AtQueued := { cmd := 0, op := .trunc, rec' := rows0, startReal := 0 }
def seqAt : State :=
  { (at0 {} { extents := [(0, 0x71F)] }).update 0x10000000008 (leList 8 0x10000001000) with pkgId := 0, atq := [(0, [trunc0])] }
def seqAt1 : State := (seqAt.rowGet (me seqAt) trunc0.cmd 0 trunc0.rec'.handle.toNat 8).1
theorem meets_AttentionQueueJoins : (mget s0.atq s0.cur.toNat).length < 64 ∧
    (mget ({ s0 with atq := [(0, List.replicate 64 trunc0)] } : State).atq s0.cur.toNat).length = 64 := by decide +kernel
theorem meets_MayLeave : MayLeave seqAt seqAt1 trunc0 [] 0 where
  first := by decide +kernel
  head := by decide +kernel
  free := rfl
  handle := ⟨_, triple (seqAt.rowGet (me seqAt) trunc0.cmd 0 trunc0.rec'.handle.toNat 8) (by decide +kernel), by decide +kernel⟩
  here := by decide +kernel
  sound := by decide +kernel
  legal := by decide +kernel
  mine := by decide +kernel
  fits := rfl
  alone := by intro a h; exact absurd h (by rw [show seqAt1.atRun = [] by decide +kernel]; exact List.not_mem_nil)
  room := fun h => nomatch h
theorem meets_AttentionCommandsPerform :
    ∃ u, rowsFrom (gone seqAt seqAt1 trunc0 [] 0) seqAt1.atRun.length 0
        (if trunc0.op = .trunc then 1 else trunc0.rec'.rows.count.toNat) = some u ∧ (u.atOf seqAt1.atRun.length).acks = [] ∧
      ∀ l ∈ (u.task (me seqAt)).lays, ¬ (l.ext = true ∧ l.intent = none ∧ l.cmd = trunc0.cmd) := by
  obtain ⟨u, hu, h⟩ := found (o := rowsFrom (gone seqAt seqAt1 trunc0 [] 0) seqAt1.atRun.length 0 1)
    (p := fun u => (u.task 1).lays.isEmpty && (u.atOf seqAt1.atRun.length).acks.isEmpty) (by decide +kernel)
  rw [Bool.and_eq_true] at h
  exact ⟨u, hu, List.isEmpty_iff.mp h.2, fun l hl => absurd hl (by
    rw [show me seqAt = 1 by decide +kernel, List.isEmpty_iff.mp h.1]; exact List.not_mem_nil)⟩
theorem meets_AttentionCommandsWait : (behind s0).isHead (me (behind s0)) = false ∧ mget s0.atq s0.cur.toNat = [] := by decide +kernel
/-- A granule of zeros with a check of zero is sound. -/
theorem zero_granule (s : State) (g : Nat) (hc : mget s.checks g = 0) (hm : ∀ x, 64 * g ≤ x → x < 64 * g + 64 → s.byte x = 0) :
    s.checkOk g = true := by
  have h : s.granule g = List.replicate 64 0 := by
    unfold State.granule State.bytes
    have key : ∀ n a, 64 * g ≤ a → a + n ≤ 64 * g + 64 → byteList s.byte a n = List.replicate n 0 := by
      intro n
      induction n with
      | zero => intro a _ _; rfl
      | succ n ih =>
        intro a h1 h2
        rw [byteList, ih (a + 1) (by omega) (by omega), hm a h1 (by omega)]; rfl
    exact key 64 _ le_rfl le_rfl
  unfold State.checkOk
  rw [h, hc]
  decide +kernel
theorem granules_ge {a n g : Nat} (h : g ∈ granulesOf a n) : a / 64 ≤ g := by
  unfold granulesOf at h
  split at h
  · simp at h
  · obtain ⟨j, _, rfl⟩ := List.mem_map.mp h
    exact Nat.le_add_left _ _
/-- Granules behind all the memory and the checks that a state lists are sound. -/
theorem sound_zero {s : State} {pa n : Nat} (he : s.errs = []) (hm : ∀ x ∈ mkeys s.mem, x < 64 * (pa / 64))
    (hc : ∀ g ∈ mkeys s.checks, g < pa / 64) : ∀ g ∈ granulesOf pa n, s.checkOk g = true ∧ s.hardMem (64 * g) = false := by
  have absent : ∀ {α : Type} [Inhabited α] (m : SMap α) (x : Nat), (∀ y ∈ mkeys m, y < x) → mget m x = default :=
    fun m x h => Laws.mget_absent m x fun p hp e => by
      have := h p.1 (List.mem_map.mpr ⟨p, hp, rfl⟩)
      omega
  intro g hg
  have hb := granules_ge hg
  refine ⟨zero_granule s g (absent _ _ fun y hy => (hc y hy).trans_le hb) fun x h1 _ => ?_, by unfold State.hardMem; rw [he]; rfl⟩
  show mget s.mem x = 0
  exact absent _ _ fun y hy => (hm y hy).trans_le (by omega)
/-- A run of an append whose sequence is empty and whose page 0 lies behind the descriptor. -/
def appAt : State :=
  { seqAt with atRun := [{ task := 1, cmd := 0, op := .app, rec' := { rows0 with rows := { count := 1, stride := 256 } }
                           desc := 0x10000000000, pages := [(0, 0x10000010000)] }] }
/-- The same with one token in the sequence. -/
def appAt' : State := appAt.update 0x10000000000 (leList 8 (256 + 2 ^ 32))
theorem meets_AppendRow :
    (PageAt appAt 0 ((appAt.seqDesc (appAt.atOf 0).desc).length / 64) 0x10000010000 ∧
      (appAt.seqDesc (appAt.atOf 0).desc).length + 1 < 2 ^ 24 ∧
      (appAt.rowGet (appAt.atOf 0).task (appAt.atOf 0).cmd 0 ((appAt.atOf 0).rec'.rowBase.toNat + 0 * (appAt.atOf 0).rec'.rows.stride.toNat)
        (4 * (appAt.seqDesc (appAt.atOf 0).desc).d)).2.2 = .ok ∧
      (appAt.seqDesc (appAt.atOf 0).desc).e4m3 = false ∧
      SoundRange (appAt.rowGet (appAt.atOf 0).task (appAt.atOf 0).cmd 0 0 256).1 0x10000010000 (SeqDesc.pageBytes (appAt.seqDesc (appAt.atOf 0).desc)) ∧
      SoundRange (appAt.rowGet (appAt.atOf 0).task (appAt.atOf 0).cmd 0 0 256).1 0x10000000000 32) ∧
    (appAt'.seqDesc (appAt'.atOf 0).desc).length % 64 = 1 ∧ PageAt appAt' 0 ((appAt'.seqDesc (appAt'.atOf 0).desc).length / 64) 0x10000010000 ∧
    (appAt'.rowGet (appAt'.atOf 0).task (appAt'.atOf 0).cmd 0 ((appAt'.atOf 0).rec'.rowBase.toNat + 0 * (appAt'.atOf 0).rec'.rows.stride.toNat)
      (4 * (appAt'.seqDesc (appAt'.atOf 0).desc).d)).2.2 = .ok ∧
    ((appAt'.rowGet (appAt'.atOf 0).task (appAt'.atOf 0).cmd 0 0 256).1.pageGet 0 0 0 0 320).2.isSome = true := by
  have h : ((appAt.rowGet (appAt.atOf 0).task (appAt.atOf 0).cmd 0 0 256).1).errs = [] ∧
      (∀ x ∈ mkeys (appAt.rowGet (appAt.atOf 0).task (appAt.atOf 0).cmd 0 0 256).1.mem, x < 0x10000010000) ∧
      ∀ g ∈ mkeys (appAt.rowGet (appAt.atOf 0).task (appAt.atOf 0).cmd 0 0 256).1.checks, g < 0x10000010000 / 64 := by decide +kernel
  refine ⟨⟨?_, ?_, ?_, ?_, sound_zero h.1 h.2.1 h.2.2, ?_⟩, ?_⟩
  all_goals first | decide +kernel | (unfold PageAt; decide +kernel) | (unfold SoundRange; decide +kernel)
theorem meets_TruncateRow :
    (0 ≤ (appAt.seqDesc (appAt.atOf 0).desc).length ∧ (appAt.seqDesc (appAt.atOf 0).desc).length < 64) ∧
    (1 ≤ (appAt'.seqDesc (appAt'.atOf 0).desc).length ∧ (∃ pa, PageAt appAt' 0 0 pa ∧
      SoundRange appAt' pa (SeqDesc.pageBytes (appAt'.seqDesc (appAt'.atOf 0).desc))) ∧ SoundRange appAt' (appAt'.atOf 0).desc 32 ∧
      (appAt'.pageGet 0 0 0 0 (64 + 4 * 64 + 1 % 64 * 64 * 2)).2.isSome = true) ∧
    ((appAt'.seqDesc (appAt'.atOf 0).desc).length < 2 ∧ ∃ pa, PageAt appAt' 0 0 pa) :=
  ⟨by decide +kernel, ⟨by decide +kernel, ⟨0x10000010000, by unfold PageAt; decide +kernel, sound_zero (by decide +kernel) (by decide +kernel) (by decide +kernel)⟩,
    by unfold SoundRange; decide +kernel, by decide +kernel⟩,
    by decide +kernel,
    0x10000010000, by unfold PageAt; decide +kernel⟩

/-! ## Collectives -/

def coll0 : LCollRec := { hdr := hdr0, n := 1, src := 0, dst := 0, grp := 0, cw := 0, op := .sum, ty := .i32, pair := false, root := 0, scope := .core }
def op0 : LinkOp := { num := 5, kind := .coll, len := 1, remote := 0x1000, local' := 0x2000, arg := 0x3000, ins := some (.lCollReduce coll0) }
/-- Task 1 has one queued collective of packages 0 and 1 under tag 7. -/
def collAt : State :=
  { ((at0 {} { extents := [(0, 0x71F)], links := [op0] }).update 0x1000 (leList 8 0x700000002)).update 0x1040 (leList 4 0x10000) with pkgId := 0, unreach := [] }
def coll1 : State := (collAt.engRead (me collAt) (linkCmd op0) 0 false false op0.remote.toNat 64).1
def head1 : List (Byte × Bool) := (collAt.engRead (me collAt) (linkCmd op0) 0 false false op0.remote.toNat 64).2.1
def coll2 : State := (coll1.engRead (me collAt) (linkCmd op0) 0 false false (op0.remote.toNat + 64) (2 * groupSize (head1.map (·.1)))).1
def ents2 : List (Byte × Bool) := (coll1.engRead (me collAt) (linkCmd op0) 0 false false (op0.remote.toNat + 64) (2 * groupSize (head1.map (·.1)))).2.1
def coll3 : State := (coll2.engRead (me collAt) (linkCmd op0) 0 false false op0.local'.toNat (op0.len * collBytes coll0.ty)).1
def src3 : List (Byte × Bool) := (coll2.engRead (me collAt) (linkCmd op0) 0 false false op0.local'.toNat (op0.len * collBytes coll0.ty)).2.1
theorem meets_CollectiveLeaves :
    collRec (.lCollReduce coll0) = some coll0 ∧ (collAt.task (me collAt)).firstOp true = some op0 ∧
    op0.ins = some (.lCollReduce coll0) ∧ collAt.isHead (me collAt) = true ∧ op0.held = false ∧
    (collAt.engRead (me collAt) (linkCmd op0) 0 false false op0.remote.toNat 64 = (coll1, head1, .none) ∧
      coll1.engRead (me collAt) (linkCmd op0) 0 false false (op0.remote.toNat + 64) (2 * groupSize (head1.map (·.1))) = (coll2, ents2, .none) ∧
      coll2.engRead (me collAt) (linkCmd op0) 0 false false op0.local'.toNat (op0.len * collBytes coll0.ty) = (coll3, src3, .none)) ∧
    (∀ b ∈ head1 ++ ents2 ++ src3, b.2 = false) ∧ readGroup (head1.map (·.1)) (ents2.map (·.1)) = some (7, [0, 1]) ∧
    GoodGroup coll3 [0, 1] ∧ 2 ≤ [(0 : BitVec 10), 1].length ∧ (coll0.op = .broadcast → coll0.root.toNat < [(0 : BitVec 10), 1].length) ∧
    (∀ x ∈ coll3.colls, x.is 7 (mget coll3.collCount (7 : W32).toNat) = false) ∧ (coll3.task (me collAt)).gang ≠ 0 :=
  ⟨rfl, by decide +kernel, rfl, by decide +kernel, rfl,
   ⟨triple _ (by decide +kernel), triple _ (by decide +kernel), triple _ (by decide +kernel)⟩,
   by decide +kernel, by decide +kernel, by unfold GoodGroup; decide +kernel, by decide, by decide, by decide +kernel, by decide +kernel⟩
def part0 : CollPart := { tag := 7, seqNo := 0, rank := 0, members := [0, 1], op := .sum, ty := .i32, pair := false, root := 0, n := 1, data := [3] }
def part1 : CollPart := { part0 with rank := 1, data := [0xFFFFFFFF] }
def mine0 : Coll := { tag := 7, seqNo := 0, mine := some (1, 5, coll0, [0, 1]), parts := [part0] }
def endsAt : State := { collAt with colls := [mine0] }
theorem meets_CollectiveEnds :
    (let x : Coll := { mine0 with parts := [part0, part1] }
     (noted endsAt (.part part1)).colls.find? (·.is 7 0) = some x ∧ x.mine = some (1, 5, coll0, [0, 1]) ∧
     ((noted endsAt (.part part1)).task 1).links.find? (·.num == 5) = some op0 ∧ part1.tag = 7 ∧ part1.seqNo = 0 ∧ x.ended = [] ∧
     x.held = false ∧ (∀ q ∈ x.parts, partAgrees coll0 [0, 1] q = true) ∧ (∀ rk < 2, ∃ q ∈ x.parts, q.rank = rk) ∧
     ((noted endsAt (.part part1)).engWrite 1 (linkCmd op0) 0 false true op0.arg.toNat (collBytesOf coll0.ty (collResult coll0
       ((List.range 2).filterMap (fun rk => (x.parts.find? (·.rank == rk)).map (·.data)))))).2 = .none) ∧
    (noted endsAt (.ended 7 0 1)).colls.find? (·.is 7 0) = some { mine0 with ended := [1] } ∧
    (let p : CollPart := { part1 with op := .max }
     (noted endsAt (.part p)).colls.find? (·.is 7 0) = some { mine0 with parts := [part0, p] } ∧ p.tag = 7 ∧ p.seqNo = 0 ∧
     partAgrees coll0 [0, 1] p = false) := by decide +kernel
theorem meets_CollectiveEnds_told :
    (∀ x ∈ collAt.colls, x.is part0.tag part0.seqNo = false) ∧
    part0.seqNo < mget ({ collAt with collCount := [(7, 1)] } : State).collCount part0.tag.toNat := by decide +kernel
theorem meets_CollectiveSums : coll0.op = .sum ∧ (coll0.ty = .i32 ∨ coll0.ty = .n32) ∧ (List.replicate 1024 (1 : W32)).length ≤ 1024 :=
  ⟨rfl, .inl rfl, by rw [List.length_replicate]⟩

/-! ## Link operations -/

/-- Task 1 with a private stack of 64 KiB and one link operation. -/
def linkAt (o : LinkOp) : State := { at0 {} { stackVa := 0x10000, stackPa := 0x20000, stackLen := 65536, links := [o] } with pkgId := 0, unreach := [] }
def put0 : LinkOp := { num := 5, kind := .put, pkg := 1, len := 64, local' := 0x10000, remote := 0x40 }
theorem meets_LinkOperationsLeave :
    let goes := fun (s : State) (o : LinkOp) => (s.task 1).firstOp false = some o ∧ s.isHead 1 = true ∧ o.held = false ∧
      (s.task 1).linkWaits o = false
    (let s := linkAt put0
     goes s put0 ∧ (s.localRead 1 put0 put0.local'.toNat put0.len).2.2 = .none ∧
     (∀ b ∈ (s.localRead 1 put0 put0.local'.toNat put0.len).2.1, b.2 = false) ∧
     (messageOf s 1 put0 []).isSome = true ∧ (s.localRead 1 put0 put0.local'.toNat put0.len).1.reaches put0.pkg = true) ∧
    (let o : LinkOp := { num := 5, kind := .notify, arg := 9 }
     goes (linkAt o) o ∧ o.kind = .notify) ∧
    (let o : LinkOp := { num := 5, kind := .recv, arg := 0x10000 }
     (goes (linkAt o) o ∧ o.kind = .recv ∧ ((linkAt o).task 1).mail = [] ∧ ((linkAt o).task 1).phase = .resident) ∧
     (let s := at0 {} { stackVa := 0x10000, stackPa := 0x20000, stackLen := 65536, links := [o], mailPa := 0x40000, mail := [256, 0] }
      let r := s.localWrite 1 o o.arg.toNat (s.bytes (Task.mailSlot (s.task 1) 0) 256 ++ List.replicate (256 - 256) 0)
      goes s o ∧ (s.task 1).mail = 256 :: [0] ∧ r.2 = .none ∧ (r.1.task 1).phase = .resident ∧ (r.1.task 1).gang ≠ 0)) ∧
    (((behind (linkAt put0)).task 1).firstOp false = some { put0 with num := 5 } ∧ (behind (linkAt put0)).isHead 1 = false) ∧
    (let o : LinkOp := { num := 4, kind := .amo, left := true }
     ((at0 {} { links := [o, put0] }).task 1).firstOp false = some put0 ∧ ((at0 {} { links := [o, put0] }).task 1).linkWaits put0 = true) := by
  decide +kernel
theorem meets_LinkOperationsComplete :
    let o : LinkOp := { put0 with kind := .get, left := true }
    (linkAt o).findOp 5 = some (1, o) ∧ ((linkAt o).localWrite 1 o o.local'.toNat (List.replicate 64 1)).2 = .none := by decide +kernel

/-- Tenant context 0 maps its first GiB to the first GiB of device memory, for a package elsewhere as well. -/
def mapped : State :=
  { s0 with
    mem := [(0x1000, 1), (0x1001, 0x30), (0x2001, 0x10), (0x2007, 0x80), (0x2008, 1), (0x3000, 0x1F), (0x3001, 7)]
    regs := { ctxBase := 0x2000, ctxCount := 1 } }
def from1 : Sender := { who := { pkg := 1, task := 9 }, op := 3, tenant := 0, owner := 1 }
theorem reaches {s : State} {x : Sender} {k : AccK} {va ad : Nat} {a : Acc}
    (h : (s.ctxEntry x.tenant.toNat).ok = true ∧ va < 2 ^ 48 ∧ s.walk x.tenant.toNat va = .leaf 0x71F 1 ad ∧
      s.checkLeaf x.owner false k 0x71F (leafSize 1 0x71F) va = a) : s.farAcc x k va = (s, a) := by
  unfold State.farAcc
  have hv := h.2.1
  rw [h.2.2.1, if_neg (by simp only [h.1]; simp; omega), ← h.2.2.2]
  have hm : markPte (k == .store && pteBit 0x71F 2) 0x71F = 0x71F := by cases k <;> decide +kernel
  unfold State.markWord
  simp only [hm, if_true]
theorem beyond {s : State} {x : Sender} {k : AccK} {va : Nat} (h : 2 ^ 48 ≤ va) : s.farAcc x k va = (s, .prot) := by
  unfold State.farAcc
  rw [if_pos (by simp; exact .inr h)]
theorem meets_RemoteWrites :
    (List.replicate 64 (0 : Byte) ≠ [] ∧ (64 : Word).toNat % 64 + (List.replicate 64 (0 : Byte)).length ≤ 64 ∧
      mapped.farAcc from1 .store (64 : Word).toNat = (mapped, .ok 64 false false 0) ∧
      ((List.replicate 64 (0 : Byte)).length = 64 ∨ mapped.checkOk (64 / 64) = true)) ∧
    (mapped.farAcc from1 .store (2 ^ 63 : Word).toNat = (mapped, .prot) ∧
      ∀ pa p d tag, Acc.prot = .ok pa p d tag → [(0 : Byte)].length ≠ 64 ∧ mapped.checkOk (pa / 64) = false) :=
  ⟨⟨by decide, by decide, reaches (ad := 0x3000) (by decide +kernel), .inl rfl⟩, beyond (by decide +kernel), fun _ _ _ _ h => nomatch h⟩
theorem meets_RemoteReads :
    (0 < 1 ∧ (127 : Word).toNat % 64 + 1 ≤ 64 ∧ mapped.farAcc from1 .load (127 : Word).toNat = (mapped, .ok 127 false false 0) ∧
      mapped.hardMem 127 = false ∧ mapped.checkOk (127 / 64) = true) ∧
    (mapped.farAcc from1 .load (0x1000 : Word).toNat = (mapped, .ok 0x1000 false false 0) ∧ mapped.hardMem 0x1000 = false ∧
      mapped.checkOk (0x1000 / 64) = false) :=
  ⟨⟨by decide, by decide, reaches (ad := 0x3000) (by decide +kernel), by decide +kernel, by decide +kernel⟩,
   reaches (ad := 0x3000) (by decide +kernel), by decide +kernel, by decide +kernel⟩
theorem meets_RemoteAtomics :
    ((9 : BitVec 4).toNat ≤ 9 ∧ (120 : Word).toNat % (64 / 8) = 0 ∧ mapped.farAcc from1 .store (120 : Word).toNat = (mapped, .ok 120 false false 0) ∧
      mapped.hardMem 120 = false ∧ mapped.checkOk (120 / 64) = true ∧ 120 % 64 + 64 / 8 ≤ 64) ∧
    9 < (10 : BitVec 4).toNat ∧ (2 : Word).toNat % (32 / 8) ≠ 0 :=
  ⟨⟨by decide, by decide, reaches (ad := 0x3000) (by decide +kernel), by decide +kernel, by decide +kernel, by decide⟩, by decide, by decide⟩
theorem meets_MailDelivery :
    (s0.mailLive (1 : W32).toNat = true ∧ (s0.task (1 : W32).toNat).mail.length < 31 ∧
      (¬ ∃ p ∈ s0.mailWait, p.1.who.pkg = from1.who.pkg) ∧ (List.replicate 256 (1 : Byte)).length ≤ 256) ∧
    (∃ p ∈ ({ s0 with mailWait := [(from1, 7, [])] } : State).mailWait, p.1.who.pkg = from1.who.pkg) ∧
    (let s := at0 {} { mail := List.replicate 31 1 }
     s.mailLive (1 : W32).toNat = true ∧ 31 ≤ (s.task (1 : W32).toNat).mail.length) ∧
    s0.mailLive (2 : W32).toNat = false ∧
    (∀ g ∈ granulesOf (Task.mailSlot (s0.task 1) 0) 256, s0.checkOk g = true) := by decide +kernel
/-- The global table at 0x4000 has one entry, of a page at the begin of attention memory. -/
def globalAt : State :=
  { s0.update 0x4000 (leList 8 0x10000000001) with regs := { atgBase := 0x4000, atgSize := 1 } }
theorem meets_PageRequests :
    globalAt.regs.atgSize.toNat ≤ (1 : BitVec 52).toNat ∧
    ((0 : BitVec 52).toNat < globalAt.regs.atgSize.toNat ∧ ({ globalAt with checks := [] } : State).checkOk (0x4000 / 64) = false) ∧
    (0x10000000000 / 64 ∈ granulesOf 0x10000000000 64 ∧
      ({ globalAt with checks := mset globalAt.checks (0x10000000000 / 64) 1 } : State).checkOk (0x10000000000 / 64) = false) ∧
    (inAttention 0x10000000040 = true ∧ [(7 : Byte)] ≠ [] ∧ 0x10000000040 % 64 + [(7 : Byte)].length ≤ 64 ∧ s0.hardMem 0x10000000040 = false ∧
      s0.checkOk (0x10000000040 / 64) = true ∧
      ({ s0 with checks := mset [] (0x10000000040 / 64) 1 } : State).checkOk (0x10000000040 / 64) = false) ∧
    (let a := globalAt.regs.atgBase.toNat + 8 * (0 : BitVec 52).toNat
     let page := globalAt.word a / 2 ^ 12 % 2 ^ 40 * 4096
     (0 : BitVec 52).toNat < globalAt.regs.atgSize.toNat ∧ globalAt.hardMem a = false ∧ globalAt.checkOk (a / 64) = true ∧
     globalAt.word a % 2 = 1 ∧ inAttention page = true ∧
     ∀ g ∈ granulesOf page maxPage, globalAt.hardMem (64 * g) = false ∧ globalAt.checkOk g = true) := by
  have he : globalAt.errs = [] ∧ (∀ x ∈ mkeys globalAt.mem, x < 0x10000000000) ∧ ∀ g ∈ mkeys globalAt.checks, g < 0x10000000000 / 64 := by
    decide +kernel
  have hp : globalAt.word (globalAt.regs.atgBase.toNat + 8 * (0 : BitVec 52).toNat) / 2 ^ 12 % 2 ^ 40 * 4096 = 0x10000000000 := by
    decide +kernel
  refine ⟨by decide +kernel, by decide +kernel, by decide +kernel, by decide +kernel, ?_⟩
  dsimp only
  rw [hp]
  exact ⟨by decide, by decide +kernel, by decide +kernel, by decide +kernel, by decide +kernel,
    fun g hg => (sound_zero he.1 he.2.1 he.2.2 g hg).symm⟩

/-! ## Matrix commands at work -/

/-- Command 0 of context 0 is at work with a record since `since` island cycles. -/
def atWork (i : Instr) (since : Nat) : State :=
  { at0 {} { extents := [(0, 0x71F)] } with
    isls := [(0, { running := true, ctr := since })], runs := [(0, { st := .running, ins := some i })] }
theorem meets_SwapExchanges :
    let s : State := { atWork (.mxSwap hdr0) 0 with tileS := [(0, some tile0)] }
    (s.run 0 0).live = true ∧ (s.run 0 0).ins = some (.mxSwap hdr0) ∧ s.since 0 0 = 0 ∧ (s.run 0 0).done = 0 ∧
    mget s.tileS (0 : Ctx).toNat = some tile0 ∧ tile0.whole = true ∧ (s.run 0 tile0.cmd).slip = false := by decide +kernel
def load0 : MxWloadRec := { hdr := hdr0, base := 64, wfmt := 2, blk := 0, kb := 0, nb := 0 }
/-- That load at work with the bytes of its first n beats. -/
def loadAt (n : Nat) : State :=
  { atWork (.mxWload load0) 96 with
    runs := [(0, { st := .running, ins := some (.mxWload load0), f := n, part := List.replicate (256 * n) (0, false), done := 9 })] }
theorem meets_LoadFillsShadow :
    let size := tileBytes load0.wfmt.toNat load0.blk.toNat load0.kb.toNat load0.nb.toNat
    let s := loadAt 0
    let r := s.engRun (s.taskAt 0) 0 false false (beatPieces (min 256 (size - 256 * 0)) [(0, s.vaOf 0 0 6 load0.base + 256 * 0)])
    (size + 255) / 256 = 3 ∧ ((loadAt 0).run 0 0).tries = true ∧ ((loadAt 3).run 0 0).tries = true ∧
    ((s.run 0 0).f < 3 ∧ 95 < 96 + (s.run 0 0).f ∧ (s.run 0 0).slip = false) ∧
    ((s.run 0 0).f < 3 ∧ 96 + (s.run 0 0).f ≤ 96 ∧ (s.run 0 0).part.length = 256 * (s.run 0 0).f ∧ r.2.2.2 = .none ∧
      (∀ p ∈ r.2.1, p.2 = false) ∧ r.1.run 0 0 = s.run 0 0) ∧
    (((loadAt 3).run 0 0).f = 3 ∧ 104 + 3 ≤ 107 ∧ (({ loadAt 3 with cycle := 18 } : State).run 0 0).done + 9 ≤ 18) := by decide +kernel
theorem meets_ZeroClears :
    let s := atWork (.mxZero zero0) 1
    (s.run 0 0).live = true ∧ (s.run 0 0).ins = some (.mxZero zero0) ∧ zero0.acccol.toNat + zero0.cols1.toNat < 256 ∧
    zero0.l1.count.toNat ≤ 1024 := by decide +kernel
def drain0 : MxDrainRec := { hdr := hdr0, l1 := {}, clear := false, accrow := 0, acccol := 0, wide := true }
theorem meets_DrainSends :
    let s := { atWork (.mxDrain drain0) 9 with runs := [(0, ({ st := .running, ins := some (.mxDrain drain0), f := 1 } : CmdRun))] }
    (s.run 0 0).live = true ∧ (s.run 0 0).ins = some (.mxDrain drain0) ∧ 8 ≤ s.since 0 0 ∧
    (s.since 0 0 - 8) / (1 + drain0.wide.toNat) < drain0.l1.count.toNat ∧ (s.run 0 0).f = s.since 0 0 - 8 := by decide +kernel
theorem meets_StepAccumulates :
    mget ({ s0 with tileA := [(0, some tile0)] } : State).tileA (0 : Ctx).toNat = some tile0 ∧ step0.afmt ≠ 2 ∧
    step0.acccol.toNat + 16 * (tile0.nb + 1) ≤ 256 := by decide +kernel
theorem meets_EpilogueConverts : 255 ≤ ({ (default : MxEpiRec) with cols1 := 255 }).cols1.toNat := by decide

/-! ## Islands, windows and beats -/

/-- Island 0 of context 0 in a state x, over the rectangle d. -/
def islIn (x : Isl) (d : IslandDesc) : State := { withPlane s0 { isls := [d] } with isls := [(0, x)] }
theorem meets_IslandCycles :
    (let x : Isl := { running := true, issued := true, abs := 5 }
     let s : State := { islIn x whole with elems := [(511, { bankRd := [(5, some { data := 9 })] }), (510, { mNext := some ({ data := 8 }, 16) })] }
     s.isl 0 0 = x ∧ s.cmdsOf 0 0 = [] ∧ islHas whole 511 = true ∧ (s.elem 0 511).resU ≤ 5 ∧ neighbour 511 .w = some 510 ∧
     islandIx (s.plane 0).isls 510 = 0 ∧ (s.elem 0 510).resU ≤ 5 ∧ (mget (s.elem 0 511).bankRd 5).isSome = true ∧
     mget (s.elem 0 510).bankRd 5 = none ∧ (s.elem 0 510).mNext.isSome = true) ∧
    (islHas left0 31 = false ∧ ((islIn { running := true, issued := true } left0).isl 0 0).stall = false) ∧
    (s0.isl 0 63).running = false ∧ ((islIn { running := true, issued := true, stall := true } whole).isl 0 0).stall = true := by
  decide +kernel
theorem meets_IntervalEnds :
    let last : State := islIn { running := true, ctr := 1, left := 1 } whole
    let more : State := islIn { running := true, ctr := 1, left := 2 } whole
    let two : State := islIn { running := true, ctr := 1, abs := 1, left := 2 } { whole with hasB := true }
    let bad : State := { two with elems := [(0, { flagPoison := true })] }
    IntervalDue last 0 0 ∧ (last.isl 0 0).left ≤ 1 ∧ IntervalDue more 0 0 ∧ 1 < (more.isl 0 0).left ∧ whole.hasB = false ∧
    IntervalDue two 0 0 ∧ 1 < (two.isl 0 0).left ∧ (two.elem 0 0).flagU ≤ (two.isl 0 0).abs - 1 ∧ (two.elem 0 0).flagPoison = false ∧
    IntervalDue bad 0 0 ∧ (bad.elem 0 0).flagU ≤ (bad.isl 0 0).abs - 1 ∧ (bad.elem 0 0).flagPoison = true ∧ ¬ IntervalDue s0 0 63 := by
  unfold IntervalDue; decide +kernel
theorem meets_IslandFinishes :
    (let s : State := { islIn { running := true, past := true } whole with threads := [(0, { idle := some 3 })] }
     (s.isl 0 0).running = true ∧ (s.isl 0 0).issued = false ∧ (s.isl 0 0).past = true ∧ (s.isl 0 0).zero = 0 ∧ s.cmdsOf 0 0 = [] ∧
     (s.thr 0).idle ≠ none) ∧
    (let s : State := { table u0 with isls := [(0, { running := true, past := true })], runs := [(0, { st := .held, ins := some (.camGath gath) })] }
     ∃ p ∈ s.cmdsOf 0 0, (s.run 0 p.1).live = true) := by decide +kernel
theorem meets_LockEntries :
    let y : LinkEnt := { n := 3, cap := { data := 6 }, cc := {}, at' := 9 }
    let s : State := { islIn { running := true, abs := 5 } whole with
      cycle := 9, links := [(linkKey 0 0 .e, [y])], elems := [(0, { le := [{ data := 1 }, { pend := true }, { pend := true }] })] }
    let now := fun (z : LinkEnt) => { z with avail := z.avail || decide (z.at' ≤ s.cycle) }
    s.link 0 0 .e = [y] ∧ (lineTo .e (s.elem 0 0))[0]? = some { data := 1 } ∧ (lineTo .e (s.elem 0 0))[1]? = some { pend := true } ∧
    1 < (s.islOf 0 0).abs ∧
    ((s.link 0 0 .e).map now).find? (fun z => z.avail && z.n == (s.islOf 0 0).abs - 1 - 1) = some (now y) ∧
    (∀ z ∈ s.link 0 0 .e, (now z).avail = true → z.n ≠ (s.islOf 0 0).abs - 1 - 2) ∧ (now y).n < (s.islOf 0 0).abs ∧
    (1 : Nat) ≠ 0 := by decide +kernel
def in0 : StreamRec := { (default : StreamRec) with hdr := hdr0, base := 64, window := 1, esize := 4 }
/-- Command 0 of context 0 is at work with a run x, since `ctr` cycles of its island. -/
def windowAt (x : CmdRun) (ctr : Nat) : State :=
  { at0 {} { extents := [(0, 0x71F)] } with isls := [(0, { running := true, ctr := ctr })], runs := [(0, x)] }
theorem meets_WindowEnds :
    (let x : CmdRun := { st := .running, ins := some (.sIn in0) }
     (windowAt x 0).run 0 0 = x ∧ x.live = true ∧ windowOf (.sIn in0) = some 1 ∧ (windowAt x 0).since 0 0 < 1 ∧
     1 ≤ (windowAt x 9).since 0 0 ∧ captureSpec (windowAt x 9) 0 (.sIn in0) = some (31, 32, 1) ∧ 1 ≤ (windowAt x 9).since 0 0 - 1) ∧
    (let x : CmdRun := { st := .running, ins := some (.sIn in0), captured := 1 }
     (windowAt x 1).since 0 0 - 1 < 1 ∧ (windowAt x 1).since 0 0 - 1 < x.captured) ∧
    (let x : CmdRun := { st := .running, ins := some (.sIn in0), latch := [(0, some {})] }
     (windowAt x 1).since 0 0 = 1 ∧ (windowAt x 1).since 0 0 - 1 < 1 ∧ x.captured ≤ (windowAt x 1).since 0 0 - 1 ∧
     mget x.latch ((windowAt x 1).since 0 0 - 1) = some {}) ∧
    (let x : CmdRun := { st := .running, ins := some (.sIn in0) }
     mget x.latch ((windowAt x 1).since 0 0 - 1) = none ∧ ¬ Excused (windowAt x 1) 0 0) ∧
    (let x : CmdRun := { st := .held, ins := some (.sIn in0) }
     x.live = true ∧ mget x.latch ((windowAt x 1).since 0 0 - 1) = none ∧ Excused (windowAt x 1) 0 0 ∧ hdrOf (.sIn in0) = some hdr0) ∧
    (let x : CmdRun := { st := .running, ins := some (.sIn in0), slip := true }
     mget x.latch ((windowAt x 1).since 0 0 - 1) = none ∧ Excused (windowAt x 1) 0 0) ∧
    (let x : CmdRun := { st := .running, ins := some (.sOut in0), done := 1 }
     windowOf (.sOut in0) = some 1 ∧ 1 ≤ (windowAt x 1).since 0 0 ∧ writeTotal (.sOut in0) ≤ x.done ∧ 0 < writeTotal (.sOut in0)) ∧
    (let x : CmdRun := { st := .running, ins := some (.camScat { gath with window := 1 }) }
     windowOf (.camScat { gath with window := 1 }) = some 1 ∧ 1 ≤ (windowAt x 1).since 0 0 ∧
     x.done < writeTotal (.camScat { gath with window := 1 })) := by
  refine ⟨by decide +kernel, by decide +kernel, by decide +kernel, ⟨by decide +kernel, ?_⟩, ⟨by decide +kernel, by decide +kernel, .inl rfl, rfl⟩,
    ⟨by decide +kernel, .inr ⟨rfl, .inl (by decide +kernel)⟩⟩, by decide +kernel, by decide +kernel⟩
  rintro (h | ⟨h, _⟩)
  · exact nomatch h
  · exact absurd h (by decide +kernel)
def inAt : State := windowAt { st := .running, ins := some (.sIn in0) } 0
def inTo : State × Cap × EStop := inAt.sBeat 0 0 in0 false 0
theorem meets_StreamBeatsArrive :
    (inAt.run 0 0).ins = some (.sIn in0) ∧ (inAt.run 0 0).tries = true ∧ inAt.latched 0 (portElem in0.port.toNat in0.edge) < 2048 ∧
    (inAt.run 0 0).done < StreamRec.beats in0 false ∧ inAt.sBeat 0 0 in0 false 0 = (inTo.1, inTo.2.1, .none) ∧ in0.esize = 4 ∧
    (let va := addOff (inAt.sBase 0 0 in0) (nestOff (StreamRec.levels in0 false) 0)
     va = 64 ∧ (inAt.run 0 0).part = [] ∧ pteBit (mget (inAt.task 1).extents (va / 65536)).toNat 0 = true ∧ (inAt.task 1).laidByte va 16 = false ∧ inAt.extAcc (inAt.task 1) .load va = .ok 64 false false 0 ∧
     inAt.hardMem 64 = false ∧ inAt.checkOk (64 / 64) = true) ∧
    (let s : State := { inAt with tasks := [(1, { gang := 1, phase := .resident })] }
     ∃ va s1 v, s.sBeat 0 0 in0 false 0 = (s1, v, .held va)) :=
  ⟨by decide +kernel, by decide +kernel, by decide +kernel, by decide +kernel, triple _ (by decide +kernel), rfl, by decide +kernel,
   ⟨64, _, _, triple _ (by decide +kernel)⟩⟩
theorem meets_StreamBeatsWritten :
    (inAt.run 0 0).tries = true ∧ mget (inAt.run 0 0).taken 0 = none ∧
    (let x : CmdRun := { st := .running, ins := some (.sOut in0), taken := [(0, some { data := 5 })] }
     let s := windowAt x 0
     let va := addOff (s.sBase 0 0 in0) (nestOff (StreamRec.levels in0 false) 0)
     x.tries = true ∧ mget x.taken 0 = some { data := 5 } ∧ (0 < StreamRec.beats in0 false ∧ x.f ≤ 0) ∧ va % 16 = 0 ∧
     s.isHead 1 = true ∧ pteBit (mget (s.task 1).extents (va / 65536)).toNat 0 = true ∧ (s.task 1).laidGranule va = false ∧ s.extAcc (s.task 1) .store va = .ok 64 false false 0 ∧
     s.hardMem 64 = false ∧ s.checkOk (64 / 64) = true ∧ ∀ q ∈ s.victims 1 [64 / 64] [], (s.task q).ctx ≠ 0) := by decide +kernel

/-! ## Commit, faults, registers, host -/

/-- A head that has executed `tend`, alone and beside a later task of its gang. -/
def tended0 : State := at0 {} { tended := true }
def tended1 : State := { tended0 with tasks := tended0.tasks ++ [(2, { gang := 1, ts := 5, ctx := 1, phase := .placed })] }
theorem meets_Commit :
    (tended0.headOf .core 0 = some 1 ∧ tended0.ready 1 = true ∧ tended0.doomed 1 = false ∧ (tended0.task 1).intents = [] ∧
      (tended0.task 1).lays = [] ∧ (∀ p ∈ tended0.tasks, p.2.gang = 1 → p.1 ≠ 1 → p.2.phase = .done) ∧ (tended0.gang 1).batch = none) ∧
    (tended1.headOf .core 0 = some 1 ∧ tended1.ready 1 = true ∧ (tended1.task 2).gang = 1 ∧ (tended1.task 2).phase ≠ .done) ∧
    tended0.headOf .core 31 = none ∧ s0.headOf .core 0 = some 1 ∧ s0.ready 1 = false := by decide +kernel
theorem meets_FaultRecordsWritten :
    (let s : State := { s0 with faultQ := [{ code := 0x13, gen := 0 }], fb := { base := 0x1000, prod := 255 } }
     s.faultQ = [{ code := 0x13, gen := 0 }] ∧ s.fb.full = false ∧ (0x1000 + 32 * 255) % 64 + 32 ≤ 64 ∧
     (∀ g ∈ granulesOf (0x1000 + 32 * 255) 32, s.checkOk g = true) ∧
     ({ s with checks := [((0x1000 + 32 * 255) / 64, 1)] } : State).checkOk ((0x1000 + 32 * 255) / 64) = false) ∧ s0.faultQ = [] ∧
    ({ s0 with fb := { base := 0x1000, prod := 256 } } : State).fb.full = true := by decide +kernel
theorem meets_FlushReleases :
    (∀ id, (s0.task id).lays = [] ∧ (s0.task id).cws = [] ∧ (s0.task id).step3 = none ∧
      ∀ u, (s0.task id).lists u = true → mget (s0.task id).extents u ≠ 0) ∧ s0.colls = [] ∧
    ((at0 { held := .debug } {}).thr 0).held = .debug ∧
    ((windowAt { st := .held } 0).run 0 0).st = .held ∧ ((windowAt { st := .held } 0).run 0 0).full = false := by
  refine ⟨fun id => ?_, by decide +kernel⟩
  by_cases h : (1 : Nat) = id
  · subst h; exact ⟨rfl, rfl, rfl, fun _ h => nomatch h⟩
  · have hd : s0.task id = default := by
      show mget [(1, _)] id = _
      rw [mget, if_neg h]; rfl
    rw [hd]; exact ⟨rfl, rfl, rfl, fun _ h => nomatch h⟩
theorem meets_RegisterWrites :
    0x018 ∈ regOffsets ∧ 0x610 ∈ regOffsets ∧ 0x10000 + 64 * 255 + 0x18 ∈ regOffsets ∧ s0.start.ready = true ∧
    State.reset.start.ready = false := by
  refine ⟨by decide +kernel, by decide +kernel, ?_, rfl, rfl⟩
  unfold regOffsets
  rw [List.mem_append, List.mem_flatMap]
  exact .inr ⟨255, List.mem_range.mpr (by decide), by simp⟩
theorem meets_HostReads :
    (s0.start.ready = true ∧ 0x118 % 8 = 0 ∧ 0x118 < 0x100000000 ∧ s0.regRead 0x118 = some 0) ∧
    (4095 % 4096 + 1 ≤ 4096 ∧ s0.place (4095 : BitVec 52).toNat = .device ∧ s0.leafAt (4095 : BitVec 52).toNat = none ∧
      ∀ g ∈ granulesOf (4095 : BitVec 52).toNat 1, s0.hardMem (64 * g) = false) := by decide +kernel
theorem meets_HostWrites :
    s0.start.ready = true ∧ 1 ≤ [(7 : Byte), 8].length ∧ (63 : BitVec 52).toNat % 4096 + [(7 : Byte), 8].length ≤ 4096 ∧
    s0.place (63 : BitVec 52).toNat = .device ∧ ∀ g ∈ granulesOf (63 : BitVec 52).toNat 2, s0.checkOk g = true := by decide +kernel
theorem meets_LaunchMessages :
    (let s : State := { s0 with queues := [(7, { enable := true, resend := [(3, [1])] })] }
     s.start.ready = true ∧ (s.queue 7).enable = true ∧ (s.queue 7).msgs.length < 64 ∧
     (s.queue 7).resend.find? (fun p => p.1 == 3) = some (3, [1])) ∧ (s0.queue 255).enable = false := by decide +kernel

/-! ## Loading -/

/-- Whether a step of the loader succeeds. -/
def succeeds {α : Type} : Load α → Bool
  | .ok _ => true
  | _ => false
theorem loaded {α : Type} {x : Load α} (h : succeeds x = true) : ∃ v, x = .ok v := by
  cases x with
  | ok v => exact ⟨v, rfl⟩
  | _ => exact nomatch h
/-- A child of task 1 with an image waits for its placement; the standby plane of context 31 alone is free. -/
def kidAt (im : Image) : State :=
  { mapped with
    tasks := [(1, { gang := 1, phase := .resident }), (2, { gang := 1, parent := some (1, 0), image := im })]
    gangs := [(1, { size := 1, phase := .placed })]
    owner := (List.range 31).map (fun c => (c, some 1)), booked := (List.range 31).map (fun c => (c, some 1)) }
/-- A stream that lies in a block at an address that nothing maps. -/
def farIm : Image := { streams := [{ lo := 0, hi := 64 }], datas := [{ place := .device (some 0x80000000) }] }
theorem kid_under (im : Image) : (kidAt im).underLoad 1 = [2] := rfl
/-- The choices of a task without a preferred region, from the k-th context on. -/
def choicesAt (s : State) (k : Nat) : List Ctx :=
  let all := (List.range 32).map (BitVec.ofNat 5)
  let cs := (all.drop k ++ all.take k).filter (s.canBook (s.task 2))
  cs.filter (fun c => (mget s.owner c.toNat).isNone) ++ cs.filter (fun c => !(mget s.owner c.toNat).isNone)
theorem choices_at (s : State) : s.ctxChoices { id := 2 } = choicesAt s (Config.pick (s.free + 2) % 32) := by
  have h : ((List.range 32).map (BitVec.ofNat 5)).filter (fun c : Ctx => (none : Option Nat) == some (regionOf c)) = [] := by decide +kernel
  simp only [State.ctxChoices, choicesAt, h, Bool.false_eq_true, if_false, List.nil_append]
/-- Where context 31 alone is free it is the choice from every context on. -/
theorem choices_last (s : State) (h : ∀ c : Ctx, s.canBook (s.task 2) c = (c == 31)) (ho : mget s.owner (31 : Ctx).toNat = none) :
    ∀ k < 32, choicesAt s k = [(31 : Ctx)] := by
  intro k hk
  have hf : s.canBook (s.task 2) = fun c : Ctx => c == 31 := funext h
  have hl : ∀ k < 32, (((List.range 32).map (BitVec.ofNat 5)).drop k ++ ((List.range 32).map (BitVec.ofNat 5)).take k).filter
      (fun c : Ctx => c == 31) = [(31 : Ctx)] := by decide +kernel
  unfold choicesAt
  simp only [hf, hl k hk, List.filter_cons, List.filter_nil, ho, Option.isNone_none, if_true, Bool.not_true, Bool.false_eq_true,
    if_false, List.append_nil]
theorem kid_ctx : ∀ im ∈ [{}, farIm], ∀ k < 32, choicesAt (kidAt im) k = [(31 : Ctx)] := by
  have h : ∀ im ∈ [{}, farIm], (∀ c : Ctx, (kidAt im).canBook ((kidAt im).task 2) c = (c == 31)) ∧
      mget (kidAt im).owner (31 : Ctx).toNat = none := by decide +kernel
  exact fun im hi => choices_last _ (h im hi).1 (h im hi).2
theorem kid_room {im : Image} (h : im ∈ [{}, farIm]) :
    roomFor (kidAt im) 1 [2] = (kidAt im).room 1 [{ id := 2 }] ∧
    assignCtx [{ id := 2 }] (kidAt im) = some ((kidAt im).giveCtx 2 31) := by
  refine ⟨rfl, ?_⟩
  unfold assignCtx
  rw [choices_at, kid_ctx im h _ (Nat.mod_lt _ (by decide))]
  rfl
/-- The rest of step 2 once contexts are assigned. -/
def roomIn (s s1 : State) : Load Ld :=
  (Load.fold (fun s (x : Cand) => s.giveBars 1 x.id) [{ id := 2 }] { s1 with free := s1.free + s1.nextTask }).bind (fun s2 =>
    (s2.findFrames 1 [{ id := 2 }] (s.framesHeld 1)).bind (fun l =>
    if [({ id := 2 } : Cand)].any (fun x => (l.s.reserves (l.s.task x.id)).any (fun r => decide (48 < l.s.reserved r.1))) then .wait else .ok l))
theorem room_is {im : Image} (h : im ∈ [{}, farIm]) (l : Ld) (hl : roomIn (kidAt im) ((kidAt im).giveCtx 2 31) = .ok l) :
    roomFor (kidAt im) 1 [2] = .ok l := by
  have hf : (kidAt im).findRoom 1 [{ id := 2 }] ((kidAt im).framesHeld 1) = .ok l := by
    unfold State.findRoom
    rw [(kid_room h).2]
    exact hl
  rw [(kid_room h).1, State.room, hf]
/-- The state in which step 3 begins. -/
def noted3 (l : Ld) : State := l.s.setGang l.g { l.s.gang l.g with notes := (l.s.gang l.g).notes ++ l.notes }
def stepsPass (l : Ld) : Bool :=
  match (noted3 l).extendAll [2] with
  | .done s1 => succeeds ((({ l with s := s1, notes := [], used := s1.framesHeld 0 } : Ld).migrate [2]).checkAll [2])
  | _ => false
def stepFaults (l : Ld) : Bool :=
  match (noted3 l).extendAll [2] with
  | .fault _ _ _ => true
  | _ => false
/-- Where no standby plane is free the child waits, since an empty machine would take it. -/
def full0 : State := { kidAt {} with
  start := { s0.start with retired := 0x7FFF }
  owner := (List.range 32).map (fun c => (c, some 1)), booked := (List.range 32).map (fun c => (c, some 1)) }
/-- Whether the frames are found for the first of some contexts, the free ones before the others; for the choices from the
k-th on. -/
def fitsOf (s : State) (cs : List Ctx) : Bool :=
  match (cs.filter (fun c => (mget s.owner c.toNat).isNone) ++ cs.filter (fun c => !(mget s.owner c.toNat).isNone)).findSome?
      (fun c => some (s.giveCtx 2 c)) with
  | none => false
  | some s1 => match s1.findFrames 1 [{ id := 2 }] [] with
    | .wait => false
    | _ => true
def fitsAt (s : State) (k : Nat) : Bool :=
  match (choicesAt s k).findSome? (fun c => some (s.giveCtx 2 c)) with
  | none => false
  | some s1 => match s1.findFrames 1 [{ id := 2 }] [] with
    | .wait => false
    | _ => true
theorem full_waits : roomFor full0 1 [2] = .wait := by
  have hb : full0.canBook (full0.task 2) = fun _ => false := funext (by decide +kernel)
  have hc : ∀ k, choicesAt full0 k = [] := fun k => by unfold choicesAt; simp [hb]
  have hf : full0.findRoom 1 [{ id := 2 }] (full0.framesHeld 1) = .wait := by
    unfold State.findRoom assignCtx
    rw [choices_at, hc]
    rfl
  have he : (full0.emptied [{ id := 2 }]).canBook ((full0.emptied [{ id := 2 }]).task 2) = fun c : Ctx => 30 ≤ c :=
    funext (by decide +kernel)
  have hl : ∀ k < 32, ∃ l ∈ [[(30 : Ctx), 31], [31, 30]], (((List.range 32).map (BitVec.ofNat 5)).drop k ++
      ((List.range 32).map (BitVec.ofNat 5)).take k).filter (fun c : Ctx => 30 ≤ c) = l := by decide +kernel
  have hs : ∀ l ∈ [[(30 : Ctx), 31], [31, 30]], fitsOf (full0.emptied [{ id := 2 }]) l = true := by decide +kernel
  have hk : ∀ k < 32, fitsAt (full0.emptied [{ id := 2 }]) k = true := by
    intro k h
    obtain ⟨l, hm, h⟩ := hl k h
    have := hs l hm
    unfold fitsAt choicesAt
    simp only [he, h]
    exact this
  have hg : full0.couldFit 1 [{ id := 2 }] = true := by
    unfold State.couldFit
    simp only [assignCtx]
    rw [choices_at]
    exact hk _ (Nat.mod_lt _ (by decide))
  show full0.room 1 [{ id := 2 }] = _
  unfold State.room
  rw [hf, hg]
  rfl
/-- The tables of the loader window: entries 480 to 511 of the first at 0, every entry of those at 4096 and 8192; the last
table is again the first, whose entries from 0 on are empty. -/
def tableCells (j : Nat) : SMap Byte :=
  (8 * (j + 480), 1) :: if j < 32 then [(8 * (j + 480) + 1, 0x10)] else if j < 544 then [(8 * (j + 480) + 1, 0x20)] else []
/-- The tenant's context entry and the code of the image in frame 1. -/
def restCells : SMap Byte := [(0x4007, 0x80), (0x4008, 1), (65539, 0xC8)]
def windowMem : SMap Byte := (List.range 1056).flatMap tableCells ++ restCells
theorem mget_left {m n : SMap Byte} {x : Nat} (h : ∀ p ∈ n, p.1 ≠ x) : mget (m ++ n) x = mget m x := mget_append_left m n x h
theorem mget_right {m n : SMap Byte} {x : Nat} (h : ∀ p ∈ m, p.1 ≠ x) : mget (m ++ n) x = mget n x := mget_append_right m n x h
theorem cells_keys (j : Nat) : ∀ p ∈ tableCells j, p.1 / 8 = j + 480 := by
  intro p hp
  unfold tableCells at hp
  split at hp
  · simp at hp; rcases hp with rfl | rfl <;> omega
  · split at hp <;> simp at hp
    · rcases hp with rfl | rfl <;> omega
    · subst hp; omega
theorem mget_cells (n x j : Nat) (hx : x / 8 = j + 480) (hj : j < n) : mget ((List.range n).flatMap tableCells) x = mget (tableCells j) x := by
  induction n with
  | zero => omega
  | succ n ih =>
    rw [List.range_succ, List.flatMap_append]
    by_cases h : j = n
    · subst h
      rw [mget_right]
      · simp
      · intro p hp
        obtain ⟨i, hi, hp⟩ := List.mem_flatMap.mp hp
        have := cells_keys i p hp
        have := List.mem_range.mp hi
        omega
    · rw [mget_left, ih (by omega)]
      intro p hp
      simp at hp
      have := cells_keys n p hp
      omega
theorem mget_low (n x : Nat) (hx : x / 8 < 480) : mget ((List.range n).flatMap tableCells) x = 0 := by
  have h : ∀ p ∈ (List.range n).flatMap tableCells, p.1 ≠ x := by
    intro p hp
    obtain ⟨i, _, hp⟩ := List.mem_flatMap.mp hp
    have := cells_keys i p hp
    omega
  have := mget_right (n := []) h
  rwa [List.append_nil] at this
theorem window_byte (x : Nat) (hx : x < 12288) :
    mget windowMem x = if x / 8 < 480 then 0 else mget (tableCells (x / 8 - 480)) x := by
  unfold windowMem
  rw [mget_left (by intro p hp; simp [restCells] at hp; rcases hp with rfl | rfl | rfl <;> omega)]
  split
  · exact mget_low _ _ ‹_›
  · exact mget_cells _ _ _ (by omega) (by omega)
theorem window_word {s : State} (hs : s.mem = windowMem) (i : Nat) (hi : i < 1536) :
    s.word (8 * i) = if i < 480 then 0 else if i < 512 then 0x1001 else if i < 1024 then 0x2001 else 1 := by
  have hb : ∀ k < 8, s.byte (8 * i + k) = if i < 480 then 0 else mget (tableCells (i - 480)) (8 * i + k) := by
    intro k hk
    show mget s.mem _ = _
    rw [hs, window_byte _ (by omega), show (8 * i + k) / 8 = i by omega]
  simp only [State.word, State.bytes, byteList, leVal]
  have h0 := hb 0 (by omega)
  rw [Nat.add_zero] at h0
  rw [h0, hb 1 (by omega), hb 2 (by omega), hb 3 (by omega), hb 4 (by omega), hb 5 (by omega), hb 6 (by omega), hb 7 (by omega)]
  by_cases h1 : i < 480
  · simp [h1]
  · simp only [h1, if_false]
    have e : 8 * (i - 480 + 480) = 8 * i := by omega
    unfold tableCells
    by_cases h2 : i < 512
    · rw [if_pos (by omega), if_pos h2, e]
      simp [mget, show (default : Byte) = 0 from rfl]
    · rw [if_neg (by omega), if_neg h2]
      by_cases h3 : i < 1024
      · rw [if_pos (by omega), if_pos h3, e]; simp [mget, show (default : Byte) = 0 from rfl]
      · rw [if_neg (by omega), if_neg h3, e]; simp [mget, show (default : Byte) = 0 from rfl]
/-- The granules below the tables hold zeros, with the check of zeros. -/
theorem window_check {s : State} (hs : s.mem = windowMem) (g : Nat) (hg : g < 60) (hc : mget s.checks g = 0) : s.checkOk g = true := by
  have hz : s.granule g = byteList (fun _ => 0) (64 * g) 64 := byteList_congr 64 (64 * g) fun x h1 h2 => by
    show mget s.mem x = 0
    rw [hs, window_byte x (by omega), if_pos (by omega)]
  have h0 : byteList (fun _ => (0 : Byte)) (64 * g) 64 = List.replicate 64 0 := by simp only [byteList]; rfl
  unfold State.checkOk
  rw [hz, h0, hc]
  decide +kernel
theorem window_map (l : Ld) (hm : l.s.mem = windowMem) (hr : (l.s.ctxEntry 0).root = 0)
    (hp : ∀ t < 65536, l.s.place t = .device) (task u leaf : Nat) (h1 : 0xF0000000 ≤ u) (h2 : u < 0x100000000) :
    l.map 0 task u leaf = .ok { l with s := l.s.updateWord (8 * (u % 32)) leaf } := by
  have w := window_word hm
  have a0 : walkIndex 0 (u * 65536) = u / 2 ^ 23 := show u * 65536 / 2 ^ 39 % 512 = _ by omega
  have k1 : walkIndex 1 (u * 65536) < 512 := Nat.mod_lt _ (by decide)
  have k2 : walkIndex 2 (u * 65536) < 512 := Nat.mod_lt _ (by decide)
  have w0 : l.s.word (8 * walkIndex 0 (u * 65536)) = 0x1001 := by
    rw [a0, w _ (by omega), if_neg (by omega), if_pos (by omega)]
  have w1 : l.s.word (4096 + 8 * walkIndex 1 (u * 65536)) = 0x2001 := by
    rw [show 4096 + 8 * walkIndex 1 (u * 65536) = 8 * (512 + walkIndex 1 (u * 65536)) by omega, w _ (by omega), if_neg (by omega),
      if_neg (by omega), if_pos (by omega)]
  have w2 : l.s.word (8192 + 8 * walkIndex 2 (u * 65536)) = 1 := by
    rw [show 8192 + 8 * walkIndex 2 (u * 65536) = 8 * (1024 + walkIndex 2 (u * 65536)) by omega, w _ (by omega), if_neg (by omega),
      if_neg (by omega), if_neg (by omega)]
  have w3 : l.s.word (8 * (u % 32)) = 0 := by rw [w _ (by omega), if_pos (by omega)]
  have b : pteBit 0x1001 0 = true ∧ pteBit 0x1001 1 = false ∧ pteBit 0x2001 0 = true ∧ pteBit 0x2001 1 = false ∧
      pteBit 1 0 = true ∧ pteBit 1 1 = false ∧ pteBit 0 0 = false := by decide +kernel
  unfold Ld.map
  rw [show (0 : BitVec 16).toNat = 0 from rfl, hr]
  simp [Ld.mapFrom, hp, w0, w1, w2, w3, b]
/-- An image that has code alone. -/
def codeIm : Image := { code := [0xC8000000] }
theorem take_one (l : Ld) (hu : l.used = []) : l.take (1, 1) 1 = .ok ({ l with used := [1], s := { l.s with free := l.s.free + 1 } }, 1) := by
  cases l
  subst hu
  simp [Ld.take, pickRun, Nat.mod_one]
/-- A load once a page of code has its frame, the only one of the pool. -/
def codeFill (l : Ld) (u : Nat) : Ld :=
  let m := (({ l with used := [1], s := { l.s with free := l.s.free + 1 } } : Ld).own 1).mapped u
  let z := m.s.fillZero 1 65536
  { m with s := { z with mem := putBytes z.mem 65536 [0, 0, 0, 0xC8], checks := (z.update 65536 [0, 0, 0, 0xC8]).checks } }
theorem fill_shape (l : Ld) (u : Nat) :
    ((({ l with used := [1], s := { l.s with free := l.s.free + 1 } } : Ld).own 1).mapped u).fill 1 [0, 0, 0, 0xC8] = codeFill l u := by
  unfold Ld.fill codeFill
  have e := State.updateFor_one (({ l with used := [1], s := { l.s with free := l.s.free + 1 } } : Ld).own 1 |>.mapped u |>.s.fillZero 1 65536)
    0 65536 [0, 0, 0, 0xC8] (by decide +kernel) (.inr (State.checkOk_fillZero _ 1 1024 65536 (by decide) (by decide)))
  unfold State.update
  show Ld.mk _ _ _ _ _ = Ld.mk _ _ _ _ _
  rw [e]
theorem bind_ok {α : Type} (x : Load α) : x.bind Load.ok = x := by cases x <;> rfl
theorem code_pages (l : Ld) (hu : l.used = []) (hd : l.s.devicePool 0 (2 ^ 23) = (1, 1)) (t : Task) (va : Nat) :
    l.pages t .code true va [0, 0, 0, 0xC8] (fun l => l.take (l.s.devicePool 0 (2 ^ 23)) 1) =
      (codeFill l (va / 65536)).map t.tenant t.index (va / 65536) (leafOf .code (l.s.ctxEntry t.tenant.toNat).owner 1) := by
  unfold Ld.pages
  rw [show List.range ((([0, 0, 0, 0xC8] : List Byte).length + 65535) / 65536) = [0] from rfl]
  have hk : (([0, 0, 0, 0xC8] : List Byte).drop (65536 * 0)).take 65536 = [0, 0, 0, 0xC8] := by decide +kernel
  simp only [Load.fold, hd, take_one l hu]
  unfold Load.bind
  simp only [hk, if_true, Nat.add_zero, fill_shape]
  exact bind_ok ((codeFill l (va / 65536)).map t.tenant t.index (va / 65536) (leafOf .code (l.s.ctxEntry t.tenant.toNat).owner 1))
/-- The last step of a load for a task that has code alone. -/
def codeEnd (kids va : Nat) (l : Ld) : Load Ld :=
  Ld.stack { l with s := l.s.setTask 2 { l.s.task 2 with
    graphs := [], kidsPa := kids, entryPc := BitVec.ofNat 64 (va + 0), streams := [] } } 2
theorem task_code (l : Ld) (h : (l.s.task 2).image = codeIm) : l.task { id := 2 } =
    ((l.address (l.s.task 2).tenant 1 65536).1.pages (l.s.task 2) .code true (l.address (l.s.task 2).tenant 1 65536).2 [0, 0, 0, 0xC8]
      (fun l => l.take (l.s.devicePool 0 (2 ^ 23)) 1)).bind
      (codeEnd (l.s.task 2).kidsPa (l.address (l.s.task 2).tenant 1 65536).2) := by
  have h0 : storeFails codeIm = [] := rfl
  have h1 : codeIm.datas = [] := rfl
  have h2 : codeIm.stores = [] := rfl
  have h3 : codeIm.graphs = [] := rfl
  have h4 : codeIm.entry = 0 := rfl
  have hb : codeIm.code.flatMap (fun w => leList 4 w.toNat) = [0, 0, 0, 0xC8] := by decide +kernel
  have hn : (([0, 0, 0, 0xC8] : List Byte).length + 65535) / 65536 = 1 := by decide +kernel
  have hs : strmsOf codeIm [] = [] := rfl
  have hh : ∀ (l : Ld) (t : Task), l.hidden t [] = .ok (l, 0) := fun _ _ => rfl
  unfold Ld.task codeEnd
  simp only [h, h0, Load.unless, h1, h2, h3, h4, hs, hh, hb, hn, List.zipIdx_nil, Load.fold, Load.bind, List.isEmpty_nil, if_true]
/-- A child whose image has code, with frame 1 alone in the pool and every table of the loader window in place. -/
def codeAt : State := { kidAt codeIm with
  mem := (List.range 1056).flatMap tableCells ++ [(0x4007, 0x80), (0x4008, 1)]
  regs := { ctxBase := 0x4000, ctxCount := 1, lpBase := 65536, lpSize := 65536 } }
/-- The load once it has its context. -/
def codeLd : Ld := { s := { codeAt.giveCtx 2 31 with free := (codeAt.giveCtx 2 31).free + (codeAt.giveCtx 2 31).nextTask }, g := 1, used := [] }
def codeVa : Nat := (codeLd.address 0 1 65536).2
theorem code_unit : 0xF0000000 ≤ codeVa / 65536 ∧ codeVa / 65536 < 0x100000000 := by
  have h : ∀ us : List Nat, (∀ x ∈ us, ∃ k, x = loaderWindow / 65536 + 1 * (k % 0xFFEFFFF)) → ∀ p : Nat → Bool,
      loaderWindow / 65536 ≤ (us.find? p).getD (loaderWindow / 65536) ∧ (us.find? p).getD (loaderWindow / 65536) < 0x100000000 := by
    intro us hu p
    cases hf : us.find? p with
    | none => exact ⟨le_rfl, by decide⟩
    | some x =>
      obtain ⟨k, rfl⟩ := hu x (List.mem_of_find?_eq_some hf)
      have := Nat.mod_lt k (show 0 < 0xFFEFFFF by decide)
      simp only [Option.getD_some, loaderWindow]
      omega
  unfold codeVa Ld.address
  rw [Nat.mul_div_cancel _ (by decide)]
  refine h _ (fun x hx => ?_) _
  obtain ⟨k, _, rfl⟩ := List.mem_map.mp hx
  exact ⟨_, rfl⟩
/-- The load with its page found, filled and mapped. -/
def codeMapped : Ld :=
  let l := codeFill (codeLd.address 0 1 65536).1 (codeVa / 65536)
  let a := 8 * (codeVa / 65536 % 32)
  let bs := leList 8 (leafOf .code 1 1)
  { l with s := { l.s with mem := putBytes l.s.mem a bs, checks := (l.s.update a bs).checks } }
theorem address_same (l : Ld) (tenant : BitVec 16) (m al : Nat) : (l.address tenant m al).1.used = l.used := rfl
theorem low_place (s : State) {t : Nat} (h : t < 65536) : s.place t = .device := by
  unfold State.place placeOf
  rw [if_pos (by omega), if_neg (by simp; omega)]
theorem code_load (l m : Ld) (va : Nat) (hi : (l.s.task 2).image = codeIm) (ht : (l.s.task 2).tenant = 0) (hk : (l.s.task 2).kidsPa = 0)
    (hu : l.used = []) (hv : (l.address 0 1 65536).2 = va) (hd : (l.address 0 1 65536).1.s.devicePool 0 (2 ^ 23) = (1, 1))
    (ho : ((l.address 0 1 65536).1.s.ctxEntry (0 : BitVec 16).toNat).owner = 1)
    (hm : (codeFill (l.address 0 1 65536).1 (va / 65536)).map 0 (l.s.task 2).index (va / 65536) (leafOf .code 1 1) = .ok m) :
    l.task { id := 2 } = codeEnd 0 va m := by
  rw [task_code _ hi, ht, hk, hv, code_pages _ ((address_same l 0 1 65536).trans hu) hd, ht, ho, hm]
  rfl
theorem tables_below : ∀ p ∈ (List.range 1056).flatMap tableCells, p.1 < 12288 := by
  intro p hp
  obtain ⟨j, hj, hp⟩ := List.mem_flatMap.mp hp
  have := cells_keys j p hp
  have := List.mem_range.mp hj
  omega
theorem mset_right {m n : SMap Byte} {k : Nat} (v : Byte) (h : ∀ p ∈ m, p.1 < k) : mset (m ++ n) k v = m ++ mset n k v := by
  have hd : mdel k (m ++ n) = m ++ mdel k n := by
    unfold mdel
    rw [List.filter_append, List.filter_eq_self.mpr (fun p hp => by have := h p hp; simp; omega)]
  have hp : ∀ x : SMap Byte, mput k v (m ++ x) = m ++ mput k v x := by
    intro x
    induction m with
    | nil => rfl
    | cons q m ih =>
      have hq := h q (by simp)
      rw [List.cons_append, mput, if_pos hq, ih (fun p hp => h p (by simp [hp])) (by unfold mdel; rw [List.filter_append,
        List.filter_eq_self.mpr (fun p hp => by have := h p (by simp [hp]); simp; omega)])]
      rfl
  unfold mset
  rw [hd]
  split
  · rfl
  · exact hp _
theorem putBytes_right {m n : SMap Byte} {a : Nat} (bs : List Byte) (h : ∀ p ∈ m, p.1 < a) :
    putBytes (m ++ n) a bs = m ++ putBytes n a bs := by
  induction bs generalizing n a with
  | nil => rfl
  | cons b bs ih => rw [putBytes, putBytes, mset_right b h, ih (fun p hp => by have := h p hp; omega)]
theorem fill_mem (l : Ld) (u : Nat) : (codeFill l u).s.mem = putBytes (mcut 65536 65536 l.s.mem) 65536 [0, 0, 0, 0xC8] := rfl
theorem code_mem : (codeFill (codeLd.address 0 1 65536).1 (codeVa / 65536)).s.mem = windowMem := by
  have hm : (codeLd.address 0 1 65536).1.s.mem = (List.range 1056).flatMap tableCells ++ [(0x4007, 0x80), (0x4008, 1)] := by
    show codeAt.mem = _
    simp only [codeAt]
  rw [fill_mem, hm]
  unfold mcut
  rw [List.filter_append, List.filter_eq_self.mpr (fun p hp => by have := tables_below p hp; simp; omega),
    putBytes_right _ (fun p hp => by have := tables_below p hp; omega)]
  exact congrArg _ (by decide +kernel)
theorem code_root : ((codeFill (codeLd.address 0 1 65536).1 (codeVa / 65536)).s.ctxEntry 0).root = 0 := by
  have hw : ∀ a, 12288 ≤ a → (codeFill (codeLd.address 0 1 65536).1 (codeVa / 65536)).s.word a =
      leVal (byteList (mget restCells) a 8) := by
    intro a ha
    have hb : ∀ x, 12288 ≤ x → mget (codeFill (codeLd.address 0 1 65536).1 (codeVa / 65536)).s.mem x = mget restCells x := fun x hx => by
      rw [code_mem]
      exact mget_right (fun p hp => by have := tables_below p hp; omega)
    simp only [State.word, State.bytes, State.byte, byteList, hb _ ha, hb _ (show 12288 ≤ a + 1 by omega), hb _ (show 12288 ≤ a + 1 + 1 by omega),
      hb _ (show 12288 ≤ a + 1 + 1 + 1 by omega), hb _ (show 12288 ≤ a + 1 + 1 + 1 + 1 by omega), hb _ (show 12288 ≤ a + 1 + 1 + 1 + 1 + 1 by omega),
      hb _ (show 12288 ≤ a + 1 + 1 + 1 + 1 + 1 + 1 by omega), hb _ (show 12288 ≤ a + 1 + 1 + 1 + 1 + 1 + 1 + 1 by omega)]
  have hr : (codeFill (codeLd.address 0 1 65536).1 (codeVa / 65536)).s.regs = codeAt.regs := rfl
  unfold State.ctxEntry
  rw [hr, hw _ (by decide), hw _ (by decide)]
  decide +kernel
theorem codeMapped_shape : codeMapped = { codeFill (codeLd.address 0 1 65536).1 (codeVa / 65536) with
    s := (codeFill (codeLd.address 0 1 65536).1 (codeVa / 65536)).s.updateWord (8 * (codeVa / 65536 % 32)) (leafOf .code 1 1) } := by
  have one : ∀ k < 32, pieces (8 * k) (leList 8 (leafOf .code 1 1)) = [(8 * k, leList 8 (leafOf .code 1 1))] := by decide +kernel
  have hk : codeVa / 65536 % 32 < 32 := Nat.mod_lt _ (by decide)
  have hc : mget (codeFill (codeLd.address 0 1 65536).1 (codeVa / 65536)).s.checks (8 * (codeVa / 65536 % 32) / 64) = 0 := by
    have : ∀ k < 4, mget (codeFill (codeLd.address 0 1 65536).1 (codeVa / 65536)).s.checks k = 0 := by decide +kernel
    exact this _ (by omega)
  have e := State.updateFor_one (codeFill (codeLd.address 0 1 65536).1 (codeVa / 65536)).s 0 (8 * (codeVa / 65536 % 32))
    (leList 8 (leafOf .code 1 1)) (one _ hk) (.inr (window_check code_mem _ (by omega) hc))
  unfold codeMapped State.updateWord State.update
  dsimp only
  show Ld.mk _ _ _ _ _ = Ld.mk _ _ _ _ _
  rw [e]
theorem code_task : codeLd.task { id := 2 } = codeEnd 0 codeVa codeMapped :=
  code_load codeLd codeMapped codeVa (by decide +kernel) (by decide +kernel) (by decide +kernel) rfl rfl (by decide +kernel) (by decide +kernel)
    ((window_map (codeFill (codeLd.address 0 1 65536).1 (codeVa / 65536)) code_mem code_root
      (fun t h => low_place _ h) ((codeLd.s.task 2).index) (codeVa / 65536) (leafOf .code 1 1) code_unit.1 code_unit.2).trans
      (congrArg Load.ok codeMapped_shape.symm))
/-- Whether the reservations of the child fit. -/
def fitsBw (l : Ld) : Bool := !([({ id := 2 } : Cand)].any (fun x => (l.s.reserves (l.s.task x.id)).any (fun r => decide (48 < l.s.reserved r.1))))
theorem code_ctx : ∀ k < 32, choicesAt codeAt k = [(31 : Ctx)] := choices_last _ (by decide +kernel) (by decide +kernel)
theorem code_room : ∃ l, roomFor codeAt 1 [2] = .ok l ∧ stepsPass l = true := by
  have h : (match codeEnd 0 codeVa codeMapped with | .ok l => fitsBw l && stepsPass l | _ => false) = true := by decide +kernel
  have hb : (Load.fold (fun s (x : Cand) => s.giveBars 1 x.id) [{ id := 2 }] codeLd.s) = .ok codeLd.s := by
    have : barsOf (codeLd.s.task 2).image = [] := by decide +kernel
    simp only [Load.fold, State.giveBars, this]
    rfl
  have ht := code_task
  generalize codeEnd 0 codeVa codeMapped = x at h ht
  cases x with
  | ok l =>
    simp only [Bool.and_eq_true] at h
    refine ⟨l, ?_, h.2⟩
    have hf : codeLd.s.findFrames 1 [{ id := 2 }] (codeAt.framesHeld 1) = .ok l := by
      unfold State.findFrames
      have hk : codeAt.framesHeld 1 = [] ∧ (codeLd.s.gang 1).frames = [] ∧ (codeLd.s.gang 1).blocks = [] := by decide +kernel
      simp only [hk.1, hk.2.1, hk.2.2, Load.fold, ite_self, List.append_nil]
      exact (congrArg (fun y => Load.bind y Load.ok) ht)
    have hr : codeAt.findRoom 1 [{ id := 2 }] (codeAt.framesHeld 1) = .ok l := by
      unfold State.findRoom assignCtx
      rw [choices_at, code_ctx _ (Nat.mod_lt _ (by decide))]
      show (Load.fold (fun s (x : Cand) => s.giveBars 1 x.id) [{ id := 2 }] codeLd.s).bind _ = _
      rw [hb]
      show (codeLd.s.findFrames 1 [{ id := 2 }] (codeAt.framesHeld 1)).bind _ = _
      rw [hf]
      have := h.1
      unfold fitsBw at this
      show (if _ then _ else _) = _
      rw [if_neg (by simpa using this)]
    show codeAt.room 1 [{ id := 2 }] = _
    unfold State.room
    rw [hr]
  | _ => exact nomatch h
theorem meets_Placement :
    (s0.gang 2).size = 0 ∧
    (let s : State := { kidAt {} with tasks := [(2, { gang := 1, parent := some (1, 0) })], standby := [(0, some {})], booked := [(0, some 2)] }
     s.underLoad 1 = [2] ∧ (mget s.standby (s.task 2).ctx.toNat).isSome = true ∧ s.bookedAt (s.task 2).ctx = 2) ∧
    (codeAt.underLoad 1 = [2] ∧ (codeAt.gang 1).size ≠ 0 ∧ (codeAt.task 2).step3 = none ∧
      mget codeAt.standby (codeAt.task 2).ctx.toNat = none ∧ ∃ l, roomFor codeAt 1 [2] = .ok l ∧ stepsPass l = true) ∧
    (∃ l, roomFor (kidAt farIm) 1 [2] = .ok l ∧ stepFaults l = true) ∧
    ((kidAt {}).underLoad 1 = [2] ∧ ((kidAt {}).gang 1).size ≠ 0 ∧ ((kidAt {}).task 2).step3 = none ∧
      mget (kidAt {}).standby ((kidAt {}).task 2).ctx.toNat = none) ∧
    (∃ c n, roomFor { at0 {} { phase := .waiting } with gangs := [(1, { size := 1, table := 1 })] } 1 [1] = .refuse c n) ∧
    roomFor full0 1 [2] = .wait := by
  refine ⟨by decide +kernel, by decide +kernel, ?_, ?_, by decide +kernel, ⟨_, _, rfl⟩, full_waits⟩
  · exact ⟨rfl, by decide +kernel, by decide +kernel, by decide +kernel, code_room⟩
  · have h : (match roomIn (kidAt farIm) ((kidAt farIm).giveCtx 2 31) with | .ok l => stepFaults l | _ => false) = true := by decide +kernel
    generalize hx : roomIn (kidAt farIm) ((kidAt farIm).giveCtx 2 31) = x at h
    cases x with
    | ok l => exact ⟨l, room_is (by simp) l hx, h⟩
    | _ => exact nomatch h
theorem meets_PlaneSwaps :
    let s : State := { at0 {} {} with tasks := [(1, { gang := 1, phase := .waiting })], owner := [], standby := [(0, some {})], booked := [(0, some 1)] }
    (mget s.standby 0 = some {} ∧ s.bookedAt 0 = 1 ∧ (s.task 1).gang ≠ 0 ∧ (s.task 1).phase = .waiting ∧ mget s.owner 0 = none ∧
      s.start.measuring.contains (regionOf 0) = false ∧ (s.task 1).parent = none ∧ ∀ p ∈ s.tasks, p.1 ≠ 1 → p.2.gang = 1 → p.2.phase = .waiting → p.2.parent ≠ none) ∧
    mget s0.standby 31 = none ∧ (s0.task (s0.bookedAt 31)).gang = 0 ∧ mget s0.owner 0 ≠ none ∧
    ({ s0 with start := { s0.start with measuring := [0] } } : State).start.measuring.contains (regionOf 0) = true := by decide +kernel
/-- A batch between two iterations: its table lies at 0x10000. -/
def batch0 : Batch := { table := 0x10000 }
def batchAt : State := { mapped with gangs := [(1, { size := 1, phase := .between, batch := some batch0 })] }
theorem meets_BatchIterations :
    ((batchAt.gang 1).batch = some batch0 ∧ batchAt.members 1 ≠ [] ∧ (batchAt.gang 1).phase = .between ∧
      ∃ s3, State.takeSnapshot (batchAt.setGang 1 { batchAt.gang 1 with
        phase := .waiting, batch := some { batch0 with iter := 0 }, notes := [], raced := false
        args := (batchAt.gang 1).args.take 4 ++ [BitVec.ofNat 64 (0x10000 + 4096 * (1 + 0 % 2)), BitVec.ofNat 64 0] })
        (batchAt.gang 1).tenant 0x10000 0 = .ok s3) ∧
    (let s : State := { batchAt with tasks := [] }
     s.members 1 = [] ∧ (s.gang 1).phase = .between ∧ (s.newTasks 1).isNone = true) ∧ (s0.gang 1).phase ≠ .between ∧
    (List.replicate 4096 (0 : Byte)).length = 4096 ∧ 63 < 64 :=
  ⟨⟨rfl, by decide +kernel, rfl, loaded (by decide +kernel)⟩, by decide +kernel, by decide +kernel, by rw [List.length_replicate], by decide⟩

/-! ## Dispatch -/

theorem meets_SpillAndRestore :
    (let s : State := { s0 with berths := [(0, { seqNo := 2, area := 0x4000000 })], disps := [(0, { live := none })] }
     stable (s.berth 0).seqNo (s.berth 0).acted = true ∧ (s.berth 0).valid = false ∧ (s.task (s.taskAt 0)).gang ≠ 0 ∧
     (s.task (s.taskAt 0)).phase = .resident ∧ s.canSpill 0 = true ∧ s.unleft 0 = none ∧
     s.areaOk (s.berth 0).area.toNat = true) ∧
    (let s : State := { s0 with berths := [(0, { seqNo := 2, valid := true, task := 1 })], tasks := [(1, { gang := 1, phase := .placed })] }
     stable (s.berth 0).seqNo (s.berth 0).acted = true ∧ (s.task 1).gang ≠ 0 ∧ (s.task 1).ctx = 0 ∧ (s.task 1).phase = .placed) ∧
    (let s := fun (marked : Bool) => ({ s0 with
       berths := [(0, { seqNo := 2, valid := true, task := 1, save := 0x4000000 })], saves := [(1, { area := 0x4000000 })]
       owner := [], tasks := [(1, { gang := 1, phase := .spilled, marked := marked })], mem := if marked then [(0x4049000, 1)] else [] } : State)
     let low := fun (marked : Bool) => ({ s marked with saves := [], berths := [(0, { seqNo := 2, valid := true, task := 1 })] } : State)
     (∀ m, ((s m).task 1).phase = .spilled ∧ (mget (s m).saves 1).area = ((s m).berth 0).save ∧
       (s m).canTake ((s m).task 1) 0 = true ∧ (s m).areaOk (mget (s m).saves 1).area.toNat = true ∧
       decide ((s m).byte ((mget (s m).saves 1).area.toNat + 0x49000) ≠ 0) = m) ∧
     (∀ m, (mget (low m).saves 1).area = ((low m).berth 0).save ∧ (low m).areaOk (mget (low m).saves 1).area.toNat = false ∧
       ((low m).task 1).marked = m) ∧
     (mget ({ s false with saves := [(1, { area := 0x8000000 })] } : State).saves 1).area ≠ ((s false).berth 0).save) ∧
    stable (s0.berth 31).seqNo (s0.berth 31).acted = false := by decide +kernel
theorem meets_DispatchEvents :
    (let s : State := { s0 with disps := [(0, { seqNo := 2 })] }
     stable (s.disp 0).seqNo (s.disp 0).acted = true ∧ stable (s.berth (ctxOf 0 (s.disp 0).part)).seqNo (s.berth (ctxOf 0 (s.disp 0).part)).acted = false) ∧
    (let s : State := { s0 with disps := [(0, { seqNo := 2, live := none })], berths := [(0, { seqNo := 2 })] }
     (s.disp 0).none' = false ∧ (s.disp 0).live ≠ some (s.disp 0).part ∧
     stable (s.berth (ctxOf 0 (s.disp 0).part)).seqNo (s.berth (ctxOf 0 (s.disp 0).part)).acted = true) ∧ stable (s0.disp 15).seqNo (s0.disp 15).acted = false ∧
    (let s : State := { s0 with cycle := 24, disps := [(0, { drain := 24 })] }
     (s.disp 0).drain ≠ 0 ∧ (s.disp 0).drain ≤ s.cycle) ∧ (0 : Nat) < (({ s0 with disps := [(0, { drain := 24 })] } : State).disp 0).drain ∧
    (({ s0 with cycle := 9, disps := [(0, { sliceEnd := 9 })] } : State).sliceDue 0 = true ∧ s0.sliceDue 15 = false) ∧
    s0.stallDue 31 = false ∧
    (let s : State := { at0 { waitSince := some 1, held := .fault 0 } {} with
       cycle := 40002, tasks := [(1, { gang := 1, phase := .resident }), (2, { gang := 1, ctx := 1, phase := .resident })], owner := [(0, some 1), (1, some 2)] }
     s.stallDue 0 = true) := by decide +kernel
theorem meets_MostUrgentServed :
    let s : State := { s0 with
      tasks := s0.tasks ++ [(2, { gang := 1, ctx := 1, phase := .resident })], owner := [(0, some 1), (1, some 2)]
      berths := [(0, { cls := 1 }), (1, { queue := 255, slice := 1 })], queues := [(255, { deficit := 1 })] }
    let d := s.disp 0
    s.servable (ctxOf 0 (!d.part)) = true ∧ (s.berth (ctxOf 0 (!d.part))).cls.toNat < (s.berth (ctxOf 0 d.part)).cls.toNat ∧
    ((s.charge 0).queue (s.berth (ctxOf 0 (!d.part))).queue.toNat).deficit ≠ 0 ∧ d.live ≠ some (!d.part) := by decide +kernel
theorem meets_WindowCloses :
    let s : State := { s0 with queues := [(255, { window := some (0, 3), coalesce := 1, endpoint := 9 })] }
    (s.queue 255).window = some (0, 3) ∧ 0 + (s.queue 255).coalesce.toNat * 4000 ≤ ({ s with cycle := 4000 } : State).cycle ∧
    s.cycle < 0 + (s.queue 255).coalesce.toNat * 4000 := by decide +kernel

/-! ## Starts and upkeep -/

theorem meets_Starts : startSpec s0 .coldStart = some .cold ∧ startSpec s0 .maintenanceReset = some .maintenance ∧
    startSpec ({ s0 with start := { saved := true } }) .warmReset = some .warm := by decide +kernel
theorem meets_StartCounts :
    (let s : State := { State.reset with cycle := 240000000000 }
     s.start.ready = false ∧ s.start.stage < 8 ∧ s.start.began + 240000000000 ≤ s.cycle) ∧
    s0.start.ready = true ∧ State.reset.cycle < State.reset.start.began + 240000000000 := by decide +kernel
theorem meets_AgeingChecks :
    (let s : State := { s0 with cycle := 14400000000000000 }
     s.start.measuring = [] ∧ s.start.retired.getLsbD (15 : BitVec 4).toNat = false ∧
     mget s.start.aged (15 : BitVec 4).toNat + 14400000000000000 ≤ s.cycle) ∧
    (s0.start.measuring = [] ∧ ¬ mget s0.start.aged (15 : BitVec 4).toNat + 14400000000000000 ≤ s0.cycle) ∧
    (let s : State := { s0 with start := { s0.start with measuring := [15] } }
     s.start.measuring = [(15 : BitVec 4).toNat] ∧ s.taskAt (ctxOf 15 false) = 0 ∧ s.taskAt (ctxOf 15 true) = 0) := by decide +kernel
theorem meets_Scrubbing :
    let s := fun (l : ArrayLine) (hard : Bool) => ({ s0 with errs := [{ line := l, hard := hard }] } : State)
    let found := fun (l : ArrayLine) (hard : Bool) => (s l hard).errs.find? (fun x => x.line == l) = some { line := l, hard := hard }
    let bank : ArrayLine := .bank 15 true 511 1023
    let basin : ArrayLine := .mem 0x800000000
    (∀ e ∈ s0.errs, e.line ≠ bank) ∧ (∀ h, found bank h) ∧ lineRegion bank = some 15 ∧ (∀ g, bank ≠ .mem g) ∧
    (s0.slot (ctxOf (15 : BitVec 4).toNat true) (15 : BitVec 4).toNat).resident = false ∧
    (let low : ArrayLine := .loom 15 true 15 0
     let y : State := { s low true with slots := [(31 * 16 + 15, { resident := true, graph := { nodes := [default] } })] }
     found low true ∧ (y.slot (ctxOf (15 : BitVec 4).toNat true) (15 : BitVec 4).toNat).resident = true ∧
     (0 : BitVec 20).toNat < (y.slot (ctxOf (15 : BitVec 4).toNat true) (15 : BitVec 4).toNat).graph.nodes.length) ∧
    (∀ h, found (.mem 0) h) ∧ inHbm s0 (0 : BitVec 46).toNat ∧ found basin false ∧
      s0.place (64 * (0x800000000 : BitVec 46).toNat) = .basin := by
  intro s found bank basin
  refine ⟨by decide +kernel, by decide +kernel, by decide +kernel, ?_, by decide +kernel, by decide +kernel,
    by decide +kernel, .inl (by decide +kernel), by decide +kernel, by decide +kernel⟩
  intro g h
  exact nomatch h

/-! ## Decoding: words written out from the encodings of the spec -/

theorem test_decode_integer :
    decodeSeq 0x07E68800 = .ok (.add 31 6 17) ∧
    decodeSeq 0x07E68801 = .ok (.sub 31 6 17) ∧
    decodeSeq 0x07E68802 = .ok (.and 31 6 17) ∧
    decodeSeq 0x07E68803 = .ok (.or 31 6 17) ∧
    decodeSeq 0x07E68804 = .ok (.xor 31 6 17) ∧
    decodeSeq 0x07E68805 = .ok (.shl 31 6 17) ∧
    decodeSeq 0x07E68806 = .ok (.shr 31 6 17) ∧
    decodeSeq 0x07E68807 = .ok (.sra 31 6 17) ∧
    decodeSeq 0x07E68808 = .ok (.slt 31 6 17) ∧
    decodeSeq 0x07E68809 = .ok (.sltn 31 6 17) ∧
    decodeSeq 0x07E6880A = .ok (.min 31 6 17) ∧
    decodeSeq 0x07E6880B = .ok (.max 31 6 17) ∧
    decodeSeq 0x07E6880C = .ok (.minn 31 6 17) ∧
    decodeSeq 0x07E6880D = .ok (.maxn 31 6 17) ∧
    decodeSeq 0x07E68810 = .ok (.mul 31 6 17) := by decide +kernel

theorem test_decode_integer_more :
    decodeSeq 0x07E68811 = .ok (.mulh 31 6 17) ∧
    decodeSeq 0x07E68812 = .ok (.mulhn 31 6 17) ∧
    decodeSeq 0x07E68814 = .ok (.div 31 6 17) ∧
    decodeSeq 0x07E68815 = .ok (.divn 31 6 17) ∧
    decodeSeq 0x07E68816 = .ok (.rem 31 6 17) ∧
    decodeSeq 0x07E68817 = .ok (.remn 31 6 17) ∧
    decodeSeq 0x07E68958 = .ok (.addx 31 6 17 5) ∧
    decodeSeq 0x0BE68001 = .ok (.addi 31 6 32769) ∧
    decodeSeq 0x0FE68001 = .ok (.slti 31 6 32769) ∧
    decodeSeq 0x13E68001 = .ok (.sltni 31 6 32769) ∧
    decodeSeq 0x17E68001 = .ok (.andi 31 6 32769) ∧
    decodeSeq 0x1BE68001 = .ok (.ori 31 6 32769) ∧
    decodeSeq 0x1FE68001 = .ok (.xori 31 6 32769) ∧
    decodeSeq 0x23E60001 = .ok (.shli 31 6 1) ∧
    decodeSeq 0x27E60001 = .ok (.shri 31 6 1) := by decide +kernel

theorem test_decode_immediate_and_loads :
    decodeSeq 0x2BE60001 = .ok (.srai 31 6 1) ∧
    decodeSeq 0x2FE08001 = .ok (.lui 31 32769) ∧
    decodeSeq 0x43E67FFE = .ok (.lb 31 6 32766) ∧
    decodeSeq 0x47E67FFE = .ok (.lbn 31 6 32766) ∧
    decodeSeq 0x4BE67FFE = .ok (.lh 31 6 32766) ∧
    decodeSeq 0x4FE67FFE = .ok (.lhn 31 6 32766) ∧
    decodeSeq 0x53E67FFE = .ok (.lw 31 6 32766) ∧
    decodeSeq 0x57E67FFE = .ok (.lwn 31 6 32766) ∧
    decodeSeq 0x5BE67FFE = .ok (.ld 31 6 32766) ∧
    decodeSeq 0x61267FFE = .ok (.sb 9 6 32766) ∧
    decodeSeq 0x65267FFE = .ok (.sh 9 6 32766) ∧
    decodeSeq 0x69267FFE = .ok (.sw 9 6 32766) ∧
    decodeSeq 0x6D267FFE = .ok (.sd 9 6 32766) ∧
    decodeSeq 0x73E68A90 = .ok (.aswp 31 6 17 .rel .package true) ∧
    decodeSeq 0x73E68A91 = .ok (.aadd 31 6 17 .rel .package true) := by decide +kernel

theorem test_decode_stores_and_atomics :
    decodeSeq 0x73E68A92 = .ok (.aand 31 6 17 .rel .package true) ∧
    decodeSeq 0x73E68A93 = .ok (.aor 31 6 17 .rel .package true) ∧
    decodeSeq 0x73E68A94 = .ok (.axor 31 6 17 .rel .package true) ∧
    decodeSeq 0x73E68A95 = .ok (.amin 31 6 17 .rel .package true) ∧
    decodeSeq 0x73E68A96 = .ok (.amax 31 6 17 .rel .package true) ∧
    decodeSeq 0x73E68A97 = .ok (.aminn 31 6 17 .rel .package true) ∧
    decodeSeq 0x73E68A98 = .ok (.amaxn 31 6 17 .rel .package true) ∧
    decodeSeq 0x73E68A99 = .ok (.acas 31 6 17 .rel .package true) ∧
    decodeSeq 0x7400001D = .ok (.fence .ar .pod) ∧
    decodeSeq 0x80D17FFE = .ok (.beq 6 17 32766) ∧
    decodeSeq 0x84D17FFE = .ok (.bne 6 17 32766) ∧
    decodeSeq 0x88D17FFE = .ok (.blt 6 17 32766) ∧
    decodeSeq 0x8CD17FFE = .ok (.bge 6 17 32766) ∧
    decodeSeq 0x90D17FFE = .ok (.bltn 6 17 32766) ∧
    decodeSeq 0x94D17FFE = .ok (.bgen 6 17 32766) := by decide +kernel

theorem test_decode_fence_and_control :
    decodeSeq 0x9BF00006 = .ok (.jal 31 1048582) ∧
    decodeSeq 0x9FE67FFE = .ok (.jlr 31 6 32766) ∧
    decodeSeq 0xA3E01030 = .ok (.mfs 31 259) ∧
    decodeSeq 0xA0061031 = .ok (.mts 6 259) ∧
    decodeSeq 0xA0000002 = .ok (.eret) ∧
    decodeSeq 0xA0000003 = .ok (.wait) ∧
    decodeSeq 0xA0060004 = .ok (.tlbinv 6) ∧
    decodeSeq 0xA4008001 = .ok (.trap 32769) ∧
    decodeSeq 0xA8008001 = .ok (.brk 32769) ∧
    decodeSeq 0xC0000001 = .ok (.tgo 1) ∧
    decodeSeq 0xC4000001 = .ok (.twait 1) ∧
    decodeSeq 0xC8000000 = .ok (.tend) ∧
    decodeSeq 0xCFE68001 = .ok (.tspawn 31 6 32769) ∧
    decodeSeq 0xD040000E = .ok (.bar .quad 14) ∧
    decodeSeq 0xD7E68803 = .ok (.cwait 31 6 17 .die) := by decide +kernel

theorem test_decode_tasks_and_engines :
    decodeSeq 0xD806880C = .ok (.cmdw 6 17 12) ∧
    decodeSeq 0xE3E08001 = .ok (.gload 31 32769) ∧
    decodeSeq 0xE4060000 = .ok (.gfree 6) ∧
    decodeSeq 0xEBE60000 = .ok (.gstat 31 6) ∧
    decodeSeq 0xECC6001E = .ok (.camw 6 6 30) ∧
    decodeSeq 0xF0C08001 = .ok (.camld 6 32769) ∧
    decodeSeq 0xF4060000 = .ok (.lput 6) ∧
    decodeSeq 0xF4060001 = .ok (.lget 6) ∧
    decodeSeq 0xF7E60002 = .ok (.lamo 31 6) ∧
    decodeSeq 0xF4060003 = .ok (.lsend 6) ∧
    decodeSeq 0xF4060004 = .ok (.lnotify 6) ∧
    decodeSeq 0xF7E60005 = .ok (.mrecv 31 6) := by decide +kernel

/-- The word of a timed entry with stamp 1 (R172). -/
def entryWord (op ty x : Nat) : Nat := 2 ^ 52 + 2 ^ 45 * op + 2 ^ 20 * ty + x
def ent (ty : Ty) (x : BitVec 16 := 0) : EntryF :=
  { stamp := 1, a := {}, b := {}, c := {}, ty := ty, sat := false, rnd := .rn, we := false, x := x }
theorem test_decode_entries :
    decodeEntry (entryWord 1 0 0) = .ok (.entryAdd (ent .f32)) ∧
    decodeEntry (entryWord 2 1 0) = .ok (.entrySub (ent .bf16)) ∧
    decodeEntry (entryWord 3 2 0) = .ok (.entryMul (ent .f16)) ∧
    decodeEntry (entryWord 4 0 0) = .ok (.entryFma (ent .f32)) ∧
    decodeEntry (entryWord 5 0 0) = .ok (.entryFms (ent .f32)) ∧
    decodeEntry (entryWord 6 0 0) = .ok (.entryFnma (ent .f32)) ∧
    decodeEntry (entryWord 7 6 0) = .ok (.entryMin (ent .i32)) ∧
    decodeEntry (entryWord 8 7 0) = .ok (.entryMax (ent .n32)) ∧
    decodeEntry (entryWord 9 8 0) = .ok (.entryAbs (ent .i16)) ∧
    decodeEntry (entryWord 0xA 10 0) = .ok (.entryNeg (ent .i8)) ∧
    decodeEntry (entryWord 0xB 6 0) = .ok (.entryClamp (ent .i32)) ∧
    decodeEntry (entryWord 0xC 0 0) = .ok (.entryDiv (ent .f32)) ∧
    decodeEntry (entryWord 0xD 0 0) = .ok (.entrySqrt (ent .f32)) ∧
    decodeEntry (entryWord 0xE 0 0) = .ok (.entryExp2 (ent .f32)) ∧
    decodeEntry (entryWord 0xF 0 0) = .ok (.entryLg2 (ent .f32)) ∧
    decodeEntry (entryWord 0x10 0 0) = .ok (.entryRint (ent .f32)) ∧
    decodeEntry (entryWord 0x18 6 0) = .ok (.entryShl (ent .i32)) ∧
    decodeEntry (entryWord 0x19 7 0) = .ok (.entryShr (ent .n32)) ∧
    decodeEntry (entryWord 0x1A 6 0) = .ok (.entrySra (ent .i32)) ∧
    decodeEntry (entryWord 0x1B 13 0) = .ok (.entryAnd (ent .bits)) ∧
    decodeEntry (entryWord 0x1C 13 0) = .ok (.entryOr (ent .bits)) ∧
    decodeEntry (entryWord 0x1D 13 0) = .ok (.entryXor (ent .bits)) := by decide +kernel

theorem test_decode_entries_more :
    decodeEntry (entryWord 0x1E 13 0) = .ok (.entryAndn (ent .bits)) ∧
    decodeEntry (entryWord 0x1F 13 0) = .ok (.entryNot (ent .bits)) ∧
    decodeEntry (entryWord 0x20 6 0) = .ok (.entryMulh (ent .i32)) ∧
    decodeEntry (entryWord 0x21 7 0) = .ok (.entryClz (ent .n32)) ∧
    decodeEntry (entryWord 0x22 7 0) = .ok (.entryPopc (ent .n32)) ∧
    decodeEntry (entryWord 0x28 0 0) = .ok (.entryCmpeq (ent .f32)) ∧
    decodeEntry (entryWord 0x29 0 0) = .ok (.entryCmpne (ent .f32)) ∧
    decodeEntry (entryWord 0x2A 0 0) = .ok (.entryCmplt (ent .f32)) ∧
    decodeEntry (entryWord 0x2B 0 0) = .ok (.entryCmple (ent .f32)) ∧
    decodeEntry (entryWord 0x2C 0 0) = .ok (.entryCmpgt (ent .f32)) ∧
    decodeEntry (entryWord 0x2D 0 0) = .ok (.entryCmpge (ent .f32)) ∧
    decodeEntry (entryWord 0x2E 0 0) = .ok (.entryCmpun (ent .f32)) ∧
    decodeEntry (entryWord 0x2F 13 0) = .ok (.entrySel (ent .bits)) ∧
    decodeEntry (entryWord 0x30 0 0) = .ok (.entryCvt (ent .f32)) ∧
    decodeEntry (entryWord 0x31 3 0) = .ok (.entryBlkPack (ent .e4m3)) ∧
    decodeEntry (entryWord 0x32 0 3) = .ok (.entryBlkUnpk (ent .f32 3)) ∧
    decodeEntry (entryWord 0x38 10 0) = .ok (.entryShuf (ent .i8)) ∧
    decodeEntry (entryWord 0x39 6 31) = .ok (.entryBcast (ent .i32 31)) ∧
    decodeEntry (entryWord 0x3A 9 31) = .ok (.entryRot (ent .n16 31)) ∧
    decodeEntry (entryWord 0x3B 0 0) = .ok (.entryHsum (ent .f32)) ∧
    decodeEntry (entryWord 0x3C 0 0) = .ok (.entryHmax (ent .f32)) ∧
    decodeEntry (entryWord 0x3D 0 0) = .ok (.entryHmin (ent .f32)) := by decide +kernel

theorem test_decode_entries_last :
    decodeEntry (entryWord 0x3E 0 0) = .ok (.entryScan (ent .f32)) ∧
    decodeEntry (entryWord 0x40 13 0) = .ok (.entryMov (ent .bits)) ∧
    decodeEntry (entryWord 0x48 13 0) = .ok (.entryLdb (ent .bits)) ∧
    decodeEntry (entryWord 0x49 13 0) = .ok (.entryStb (ent .bits)) ∧
    decodeEntry (entryWord 0x4A 13 0) = .ok (.entryLdbx (ent .bits)) ∧
    decodeEntry (entryWord 0x4B 13 0) = .ok (.entryStbx (ent .bits)) ∧
    decodeEntry (entryWord 0x50 7 0) = .ok (.entryCadd (ent .n32)) ∧
    decodeEntry (entryWord 0x51 7 0) = .ok (.entryCsub (ent .n32)) ∧
    decodeEntry (entryWord 0x52 7 0) = .ok (.entryCand (ent .n32)) ∧
    decodeEntry (entryWord 0x53 7 0) = .ok (.entryCor (ent .n32)) ∧
    decodeEntry (entryWord 0x54 7 0) = .ok (.entryCshl (ent .n32)) ∧
    decodeEntry (entryWord 0x55 7 0) = .ok (.entryCmov (ent .n32)) ∧
    decodeEntry (entryWord 0x56 7 0) = .ok (.entryCcmp (ent .n32)) ∧
    decodeEntry (entryWord 0x58 13 0) = .ok (.entryRngDraw (ent .bits)) ∧
    decodeEntry (entryWord 0x58 13 1) = .ok (.entryRngSeed (ent .bits 1)) ∧
    decodeEntry (entryWord 0x59 0 0) = .ok (.entryRsv (ent .f32)) ∧
    decodeEntry (entryWord 0x5A 0 0) = .ok (.entryRsvm (ent .f32)) ∧
    decodeEntry (entryWord 0x5B 7 0) = .ok (.entryBitt (ent .n32)) ∧
    decodeEntry (entryWord 0x5C 9 0) = .ok (.entryLut16 (ent .n16)) ∧
    decodeEntry (entryWord 0x5D 7 0) = .ok (.entryCond (ent .n32)) ∧
    decodeEntry (entryWord 0x5E 7 0) = .ok (.entryChk (ent .n32)) ∧
    decodeEntry (entryWord 0x41 6 0 + 6 * 2 ^ 24) = .ok (.entryRep { ent .i32 with c := { line := .c } }) := by decide +kernel

/-- The fields that the records of one engine below share. -/
def hdr9 : CmdHdr := { start := 9, island := 0 }
def lvl2 : Lvl := { count := 2, stride := 32 }
def str9 : StreamRec :=
  { hdr := { start := 9, island := 5 }, l1 := lvl2, l2 := {}, l3 := {}, l4 := {}, l5 := {}, base2 := 0, base := 0x1000
    window := 7, port := 6, edge := true, esize := 4, poison := false, span := 0, pfmt := 0, blk := 0, bank := 0 }
def cam9 : CamRec :=
  { hdr := hdr9, cam := 5, handle := 2, merge := .keep, l1 := { count := 4, stride := 1 }, l2 := {}, l3 := {}, l4 := {}
    l5 := {}, tok := 6, steps1 := 0, thr := 0, window := 7, port := 6, edge := true }
def rows9 : AtRec :=
  { hdr := hdr9, rows := { count := 2, stride := 256 }, handle := 8, rowBase := 0x80, w4 := 0xC0, out := 0, cw := 0x40
    scope := .core, causal := false, sinks := 0, recent := 0, limit1 := 0 }
def coll9 : LCollRec :=
  { hdr := hdr9, n := 16, src := 0x40, dst := 0x80, grp := 0xC0, cw := 8, op := .min, ty := .bf16, pair := true, root := 0
    scope := .pod }
theorem test_decode_streams :
    decodeCmd [9 + 5 * 2 ^ 32, 0x20000002, 1, 1, 1, 1, 0x1000, 7 + 6 * 2 ^ 16 + 2 ^ 19 + 5 * 2 ^ 20 + 2 ^ 23 + 2 * 2 ^ 30] =
      .ok (.sIn { str9 with esize := 5, poison := true, blk := 2 }) ∧
    decodeCmd [9 + 5 * 2 ^ 32, 0x20000002, 1, 1, 1, 1, 0x1000, 7 + 6 * 2 ^ 16 + 2 ^ 19 + 2 ^ 24 + 5 * 2 ^ 25 + 2 ^ 28 + 0x40 * 2 ^ 32] =
      .ok (.sInPlane { str9 with esize := 0, span := 5, pfmt := 1, bank := 0x40 }) ∧
    decodeCmd [9 + 5 * 2 ^ 32 + 2 ^ 41, 0x20000002, 1, 1, 1, 1, 0x1000, 7 + 6 * 2 ^ 16 + 2 ^ 19 + 4 * 2 ^ 20] =
      .ok (.sOut str9) ∧
    decodeCmd [9 + 5 * 2 ^ 32 + 2 * 2 ^ 41, 2, 1, 1, 1, 1, 0x1000, 7 + 6 * 2 ^ 16 + 2 ^ 19 + 2 * 2 ^ 20] =
      .ok (.sGath { str9 with l1 := { count := 2 }, esize := 2 }) ∧
    decodeCmd [9 + 5 * 2 ^ 32 + 3 * 2 ^ 41, 2, 1, 1, 1, 1, 0x1000, 7 + 6 * 2 ^ 16 + 2 ^ 19 + 2 * 2 ^ 20] =
      .ok (.sScat { str9 with l1 := { count := 2 }, esize := 2 }) ∧
    decodeCmd [9 + 5 * 2 ^ 32 + 4 * 2 ^ 41, 0x20000002, 1, 1, 1, 0x2000, 0x1000, 7 + 6 * 2 ^ 16 + 2 ^ 19 + 4 * 2 ^ 20] =
      .ok (.sCopy { str9 with base2 := 0x2000 }) := by
  decide +kernel

theorem test_decode_wharf_and_matrix :
    decodeCmd [0x4000000000, 0x20000002, 0x20000003, 0x100, 0x200, 0x308, 0x400, 0x2002000000] =
      .ok (.whRed { hdr := { start := 0, island := 0 }, bags := lvl2, inds := { count := 3, stride := 32 }, idx := 0x100, dst := 0x200, cw := 0x308
                    table := 0x400, port := 0, ty := .f32, merge := .write, scope := .quad, row := 32 }) ∧
    decodeCmd [9 + 2 ^ 38 + 2 ^ 41, 0x20000002, 1, 1, 3, 5, 0x1000, 7 + 6 * 2 ^ 16 + 2 ^ 19 + 7 * 2 ^ 20 + 2 ^ 24] =
      .ok (.whFilt { hdr := hdr9, l1 := lvl2, l2 := {}, l3 := {}, lo := 3, hi := 5, base := 0x1000, window := 7, port := 6, edge := true
                     ty := .n32, poison := true }) ∧
    decodeCmd [0x8000000000, 1, 1, 1, 1, 1, 0x1000, 3] =
      .ok (.mxWload { hdr := { start := 0, island := 0 }, base := 0x1000, wfmt := 3, blk := 0, kb := 0, nb := 0 }) ∧
    decodeCmd [0x28000000071, 1, 1, 1, 1, 1, 0, 0] =
      .ok (.mxSwap { start := 113, island := 0 }) ∧
    decodeCmd [0x48000000072, 0x20000002, 1, 1, 1, 1, 0x400000000, 3] =
      .ok (.mxStep { hdr := { start := 114, island := 0 }, l1 := lvl2, l2 := {}, bank := 0, accrow := 0, acccol := 0, t1 := 1, t2 := 0
                     afmt := 3, span := 0 }) ∧
    decodeCmd [0x2680000000A7, 0x40000002, 1, 1, 1, 1, 0x1000, 0x3F800000003C0000] =
      .ok (.mxEpi { hdr := { start := 167, island := 0 }, l1 := { count := 2, stride := 64 }, clear := true, relu := false, base := 0x1000
                    accrow := 0, acccol := 0, cols1 := 15, ofmt := 0, sat := false, rnd := 0, scale := 0x3F800000 }) ∧
    decodeCmd [9 + 2 * 2 ^ 38 + 4 * 2 ^ 41, 3, 1, 1, 1, 1, 0, 5 + 6 * 2 ^ 10 + 15 * 2 ^ 18] =
      .ok (.mxZero { hdr := hdr9, l1 := { count := 3 }, accrow := 5, acccol := 6, cols1 := 15 }) ∧
    decodeCmd [9 + 2 * 2 ^ 38 + 5 * 2 ^ 41, 3, 1, 1, 1, 1, 0, 5 + 6 * 2 ^ 10 + 2 ^ 18] =
      .ok (.mxDrain { hdr := hdr9, l1 := { count := 3 }, clear := false, accrow := 5, acccol := 6, wide := true }) := by
  decide +kernel

theorem test_decode_loom_and_camera :
    decodeCmd [0xC00000000A, 1, 1, 1, 1, 1, 0x3E800000, 5] =
      .ok (.gRun { hdr := { start := 10, island := 0 }, vectors := 1, sx := 0x3E800000, window := 5, port := 0, slot := 0, i16 := false
                   side := false }) ∧
    decodeCmd [0x10000000000, 0x1000004, 1, 1, 1, 1, 0x23F000000, 0x700] =
      .ok (.camGath { cam9 with hdr := { start := 0, island := 0 }, cam := 0, handle := 0, tok := 0, steps1 := 63, thr := 1, window := 0x700, port := 0, edge := false }) ∧
    decodeCmd [9 + 4 * 2 ^ 38 + 5 * 2 ^ 45 + 2 * 2 ^ 48 + 2 ^ 50, 0x1000004, 1, 1, 1, 1, 6 + 9 * 2 ^ 33, 7 + 6 * 2 ^ 16 + 2 ^ 19] =
      .ok (.camGathDepth { cam9 with thr := 9 }) ∧
    decodeCmd [9 + 4 * 2 ^ 38 + 2 ^ 41 + 5 * 2 ^ 45 + 2 * 2 ^ 48 + 2 * 2 ^ 50, 0x1000004, 1, 1, 1, 1, 6, 7 + 6 * 2 ^ 16 + 2 ^ 19] =
      .ok (.camScat { cam9 with merge := .blend }) ∧
    decodeCmd [9 + 4 * 2 ^ 38 + 2 * 2 ^ 41 + 5 * 2 ^ 45, 4, 1, 1, 1, 1, 0, 7 + 6 * 2 ^ 16 + 2 ^ 19] =
      .ok (.camProj { cam9 with handle := 0, l1 := { count := 4 }, tok := 0 }) := by
  decide +kernel

theorem test_decode_attention_and_link :
    decodeCmd [0x14000000000, 0x100000100, 8, 0x80, 0x4000000030000000, 0, 0x40, 1] =
      .ok (.atApp { rows9 with hdr := { start := 0, island := 0 }, rows := { count := 256, stride := 256 }, w4 := 0x4000000030000000 }) ∧
    decodeCmd [0x3400000000A, 0x100000002, 8, 0x80, 0xC0, 0, 0x40, 0x2010109] =
      .ok (.atSel { rows9 with hdr := { start := 10, island := 0 }, causal := true, sinks := 1, recent := 1, limit1 := 2 }) ∧
    decodeCmd [0x54000000002, 0xC0000002, 8, 0x80, 0xC0, 0x100, 0x40, 9] =
      .ok (.atAtt { rows9 with hdr := { start := 2, island := 0 }, rows := { count := 2, stride := 0xC0 }, out := 0x100, causal := true }) ∧
    decodeCmd [9 + 5 * 2 ^ 38 + 3 * 2 ^ 41, 5, 8, 0, 0, 0, 0x40, 1] =
      .ok (.atTrunc { rows9 with rows := { count := 5 }, rowBase := 0, w4 := 0 }) ∧
    decodeCmd [9 + 6 * 2 ^ 38, 16, 0x40, 0x80, 0xC0, 8, 2 + 8 + 64, 5] =
      .ok (.lCollReduce coll9) ∧
    decodeCmd [9 + 6 * 2 ^ 38, 16, 0x40, 0x80, 0xC0, 8, 3 + 2 * 8, 5] =
      .ok (.lCollAllgather { coll9 with op := .allgather, ty := .i32, pair := false }) ∧
    decodeCmd [9 + 6 * 2 ^ 38, 16, 0x40, 0x80, 0xC0, 8, 4 + 3 * 8 + 9 * 2 ^ 8, 5] =
      .ok (.lCollBroadcast { coll9 with op := .broadcast, ty := .n32, pair := false, root := 9 }) := by
  decide +kernel

/-! ## Steps, encodings, invariants -/

theorem holds_nothing (u : Thread) (k : Task) (h : k.hold = []) : HeadsHoldNothing (at0 u k) := by
  intro id _
  by_cases h1 : (1 : Nat) = id
  · subst h1; exact h
  · have hd : (at0 u k).task id = default := by
      show mget [(1, _)] id = _
      rw [mget, if_neg h1]; rfl
    rw [hd]; rfl
/-- The thread of context 0 has its slot; at its pc 64 stands `tgo 0`. -/
def fetchAt (m : SMap Byte) : State := { at0 { u0 with pc := 64 } {} with mem := m, agenda := [.thread 0] }
theorem fetch_meets : ∀ m ∈ [[(67, 0xC0)], []], (fetchAt m).agenda = [.thread 0] ∧ (issueState (fetchAt m) 0 []).runnable 0 = true ∧
      ¬ (((fetchAt m).thr 0).sup = true ∧ ((fetchAt m).thr 0).pc = Config.handlerEntry &&& ~~~(3 : Word)) ∧
      (issueState (fetchAt m) 0 []).seqTranslate .fetch ((fetchAt m).thr 0).pc.toNat = (issueState (fetchAt m) 0 [], .ok 64 false false 0) ∧
      (issueState (fetchAt m) 0 []).hardMem 64 = false := by
  intro m hm
  rcases List.mem_pair.mp hm with rfl | rfl <;>
    exact ⟨rfl, by decide +kernel, fun h => absurd h.1 (by decide +kernel), translates (by decide +kernel), by decide +kernel⟩
/-- What a context fetches of the task's bytes at 64, as they stand. -/
def fetched (s : State) : List Byte := s.taskBytes (s.taskAt 0) 64 4
theorem meets_StepRunsDecoded :
    ((∀ m ∈ [[(67, 0xC0)], []], (fetchAt m).agenda = [.thread 0] ∧ (issueState (fetchAt m) 0 []).runnable 0 = true ∧
      ¬ (((fetchAt m).thr 0).sup = true ∧ ((fetchAt m).thr 0).pc = Config.handlerEntry &&& ~~~(3 : Word)) ∧
      (issueState (fetchAt m) 0 []).seqTranslate .fetch ((fetchAt m).thr 0).pc.toNat = (issueState (fetchAt m) 0 [], .ok 64 false false 0) ∧
      (issueState (fetchAt m) 0 []).hardMem 64 = false) ∧
      (let s := issueState (fetchAt [(67, 0xC0)]) 0 []
       s.codeWord 0 64 ≠ leVal (fetched s) ∧ decodeSeq (leVal (fetched s)) = .ok (.tgo 0) ∧ decodeSeq (s.codeWord 0 64) = .error .unassignedOp) ∧
      (let s := issueState { fetchAt [(67, 0xC0)] with codeSeen := [(0, [(67, 0xC0)])] } 0 []
       s.codeWord 0 64 = leVal (fetched s) ∧ decodeSeqBytes (fetched s) = .ok (.tgo 0)) ∧
      (let s := issueState (fetchAt []) 0 []
       s.codeWord 0 64 = leVal (fetched s) ∧ decodeSeqBytes (fetched s) = .error .unassignedOp)) ∧
    (let s : State := { withPlane s0 { isls := [whole], elems := [(511, { entA := [0x000800000FD00000] })] } with
       isls := [(0, { running := true })], agenda := [.entry 0 511] }
     s.agenda = [.entry 0 511] ∧ s.dueEntry 0 511 = some 0x000800000FD00000 ∧ s.doomed (s.task (s.taskAt 0)).gang = false) ∧
    (let s : State := { table u0 with agenda := [.cmd 0 0] }
     s.agenda = [.cmd 0 0] ∧ (∃ i, decodeCmd ((s.cmdRec 0 0).words.map (·.toNat)) = .ok i ∧ startsItself i = true ∧ s.accLost 0 i = none) ∧
     s.doomed (s.task (s.taskAt 0)).gang = false) ∧
    (let s : State := { seqAt with agenda := [.att 0] }
     s.agenda = [.att 0] ∧ mget s.atq (0 : Ctx).toNat = [trunc0]) ∧
    ({ s0 with agenda := [.ev .fbflush] } : State).agenda = [.ev .fbflush] ∧ s0.agenda = [] := by
  exact ⟨⟨fetch_meets, by decide +kernel, by decide +kernel, by decide +kernel⟩, by decide +kernel,
    ⟨rfl, ⟨.camGath gath, by decide +kernel, rfl, by decide +kernel⟩, by decide +kernel⟩, by decide +kernel, rfl, rfl⟩
theorem meets_EncodeRoundTrip :
    ((Instr.acas 31 31 31 .ar .pod true).wf = true ∧ (encodeSeq? (.acas 31 31 31 .ar .pod true)).isSome = true) ∧
    ((Instr.entryMov { (default : EntryF) with stamp := 4095, a := { line := .k, tap := 15 }, ty := .bits, we := true }).wf = true ∧
      (encodeEntry? (.entryMov { (default : EntryF) with stamp := 4095, a := { line := .k, tap := 15 }, ty := .bits, we := true })).isSome = true) ∧
    ((Instr.camGath gath).wf = true ∧ (encodeCmd? (.camGath gath)).isSome = true) := by decide +kernel
theorem meets_HeadsDrain : HeadsHoldNothing s0 ∧ step s0 = .next s0.advance :=
  ⟨holds_nothing u0 {} rfl, rfl⟩
/-- Whether an instruction answers a next state with a property. -/
def gives (i : Instr) (s : State) (p : State → Bool) : Bool :=
  match exec i s with
  | .next t => p t
  | _ => false
theorem given {i : Instr} {s : State} (h : gives i s (fun _ => true) = true) : ∃ t, exec i s = .next t := by
  unfold gives at h
  generalize exec i s = o at h
  cases o with
  | next t => exact ⟨t, rfl⟩
  | _ => exact nomatch h
theorem meets_MemoryCanonical :
    accesses (.sw 3 2 0) = true ∧ Memory.wf s0.mem = true ∧ ∃ t, exec (.sw 3 2 0) s0 = .next t :=
  ⟨rfl, rfl, given (by decide +kernel)⟩

/-! ## Ill-formed terms -/

def e0 : EntryF := { stamp := 0, a := {}, b := {}, c := {}, ty := .f32, sat := false, rnd := .rn, we := false, x := 0 }
def off0 : Opnd := { tap := 1 }
/-- One ill-formed instruction for each check of an entry. -/
def badEntries : List Instr :=
  [.entryAdd { e0 with ty := .bits }, .entryAdd { e0 with c := off0 }, .entryMul { e0 with x := 1 }, .entryFma { e0 with ty := .i64 },
   .entryMin { e0 with sat := true }, .entryClamp { e0 with x := 1 }, .entryAbs { e0 with b := off0 }, .entryDiv { e0 with ty := .i32 },
   .entrySqrt { e0 with b := off0 }, .entryRint { e0 with sat := true }, .entryShl { e0 with ty := .f32 }, .entryAnd { e0 with sat := true },
   .entryNot { e0 with ty := .bits, b := off0 }, .entryMulh e0, .entryClz e0, .entryCmpeq { e0 with ty := .bits },
   .entryCmpun { e0 with ty := .i32 }, .entrySel { e0 with ty := .bits, c := off0 }, .entryCvt { e0 with x := 0xFFFF },
   .entryBlkPack { e0 with ty := .f32 }, .entryBlkUnpk { e0 with ty := .i8 }, .entryShuf { e0 with ty := .bits },
   .entryBcast { e0 with x := 32 }, .entryHsum { e0 with ty := .bits }, .entryScan { e0 with ty := .e4m3 }, .entryHmax { e0 with sat := true },
   .entryMov e0, .entryRep { e0 with c := { line := .n } }, .entryLdb { e0 with ty := .bits, x := 8 }, .entryLdbx { e0 with ty := .bits, we := true },
   .entryStb { e0 with ty := .bits, x := 1 }, .entryStbx { e0 with ty := .bits, we := true }, .entryCadd { e0 with ty := .f32 },
   .entryCmov { e0 with ty := .n32, b := off0 }, .entryCcmp { e0 with ty := .n32, x := 6 }, .entryRngDraw { e0 with x := 1 },
   .entryRngSeed e0, .entryRsv { e0 with ty := .i32 }, .entryRsvm { e0 with ty := .bf16 }, .entryBitt { e0 with ty := .bits },
   .entryLut16 { e0 with ty := .f32 }, .entryCond e0, .entryChk { e0 with x := 6 }]
/-- One for each check of a word, a record or an attention command. -/
def badOthers : List Instr :=
  [.aadd 1 2 3 .plain .lane false, .fence .acq .lane, .bar .lane 0, .cwait 1 2 3 .lane, .camw 0 1 35,
   .sIn { str9 with window := 0 }, .sIn { str9 with esize := 6 }, .sIn { str9 with blk := 1 }, .sIn { str9 with span := 1 },
   .sInPlane str9, .sInPlane { str9 with esize := 0, bank := 1 }, .sOut { str9 with poison := true }, .sGath { str9 with base := 2 ^ 48 },
   .sScat { str9 with poison := true }, .sCopy { str9 with l5 := lvl2 }, .whRed { bags0 with row := 8 }, .whRed { bags0 with scope := .lane },
   .whFilt { (default : WhFiltRec) with window := 1, ty := .bits }, .mxWload { load0 with wfmt := 6 }, .mxWload { load0 with wfmt := 3, blk := 1 },
   .mxStep { step0 with afmt := 5 }, .mxEpi { (default : MxEpiRec) with rnd := 3 }, .gRun { run0 with window := 0 },
   .gRun { run0 with side := true, sx := 1 }, .camGath { cam9 with steps1 := 256 }, .camGathDepth { cam9 with steps1 := 1 },
   .camScat { cam9 with thr := 1 }, .camProj { cam9 with tok := 6 }, .atApp { rows9 with causal := true }, .atSel { rows9 with out := 8 },
   .atAtt { rows9 with sinks := 1 }, .atTrunc { rows9 with w4 := 1 }, .attentionQueueJoin .trunc { rows9 with scope := .lane },
   .lCollReduce { coll9 with root := 1 }, .lCollAllgather coll9, .lCollBroadcast coll9]
theorem test_ill_formed_entries : badEntries.all (fun i => !i.wf) = true := by decide +kernel
theorem test_ill_formed_others : badOthers.all (fun i => !i.wf) = true := by decide +kernel

/-! ## Single steps -/

theorem test_add_wraps : gives (.add 5 4 3) s0 (fun t => (t.thr 0).get 5 == 6) = true := by decide +kernel
theorem test_sltn_is_unsigned : gives (.sltn 5 4 3) s0 (fun t => (t.thr 0).get 5 == 0) && gives (.slt 5 4 3) s0 (fun t => (t.thr 0).get 5 == 1) = true := by
  decide +kernel
theorem test_lui_sign : gives (.lui 5 0x8000) s0 (fun t => (t.thr 0).get 5 == 0xFFFFFFFF80000000) = true := by decide +kernel
theorem test_sw_little_endian :
    gives (.sw 4 2 4) s0 (fun t => t.byte 67 == 0 && t.byte 68 == 0xFF && t.byte 71 == 0xFF && t.byte 72 == 0) = true := by decide +kernel
theorem test_jal_target : gives (.jal 1 0x1FFFFF) (at0 { u0 with pc := 64 } {}) (fun t => (t.thr 0).pc == 60 && (t.thr 0).get 1 == 68) = true := by
  decide +kernel
theorem test_trap_saves_pc : gives (.trap 7) (at0 { u0 with pc := 64 } {}) (fun t => (t.thr 0).epc == 64 && (t.thr 0).sup && (t.thr 0).earg == 7) = true := by
  decide +kernel
/-- An element with one constant K0. -/
def constAt (k : W128) : State := withPlane s0 { isls := [whole], elems := [(0, { consts := [(0, k)] })] }
/-- R187's example: lanes 1, 2^-9 and 2^-9 of bf16. -/
def hsum0 : EntryF := { e0 with a := { line := .k }, ty := .bf16, we := true }
theorem test_hsum_example : gives (.entryHsum hsum0) (constAt 0x3B003B003F80) (fun t => (t.elem 0 0).res.data == 0x3F808000) = true := by
  decide +kernel
theorem test_rot_lanes :
    gives (.entryRot { e0 with a := { line := .k }, ty := .i8, x := 1, we := true }) (constAt 0x0102)
      (fun t => (t.elem 0 0).res.data == 0x02000000000000000000000000000001) = true := by decide +kernel

/-! ## What the loom, streams, wharf nodes, the camera engine and attention make -/

/-- A graph of two vectors of outputs: one negated node that is clamped, and a tap. -/
def graph1 : Graph :=
  { taps := [8], nodes := [{ a := .tap 0, b := .tap 0, na := false, nb := true, sa := 2, sb := 0, w := 4 }], outs := [.node 0, .tap 0]
    scales := [0x3F800000, 0x40000000], depth := 1 }
/-- 65 taps take two clocks of 8-bit inputs, and one output takes one. -/
def graph2 : Graph := { taps := List.replicate 65 8, outs := [.tap 64], scales := [0x3F800000] }
def loomRun : CmdRun := { st := .running, ins := some (.gRun run0) }
/-- A running `g.run` of a graph, in an island cycle. -/
def loomOn (x : CmdRun) (g : Graph) (ctr : Nat) : State :=
  { windowAt x ctr with slots := [(15, { resident := true, graph := g })], elems := [(westElem 3 0, { res := { data := 0xFB } })] }
theorem meets_LoomWindow :
    (loomRun.live = true ∧ 0 < loomPace run0 graph1 ∧ (loomOn loomRun graph1 99).since 0 0 < 100) ∧
    loomJoin run0 graph1 ≤ (loomOn loomRun graph1 101).since 0 0 ∧
    (let r : GRunRec := { run0 with vectors := 2 }
     let x : CmdRun := { loomRun with ins := some (.gRun r) }
     100 ≤ (loomOn x graph2 101).since 0 0 ∧ (loomOn x graph2 101).since 0 0 < loomJoin r graph2 ∧
     loomOut graph2 ≤ ((loomOn x graph2 101).since 0 0 - 100) % loomPace r graph2) ∧
    (let r : GRunRec := { run0 with window := 1 }
     let s := loomOn { loomRun with ins := some (.gRun r) } graph1 1
     1 ≤ s.since 0 0 ∧ s.since 0 0 < loomJoin r graph1 ∧ r.vectors ≠ 0 ∧ 0 < loomOut graph1 ∧ (s.since 0 0 - 1) % loomPace r graph1 = 0 ∧
     s.since 0 0 < loomIn r graph1 + graph1.depth + 3) ∧
    (let s := loomOn loomRun graph1 100
     100 ≤ s.since 0 0 ∧ s.since 0 0 < loomJoin run0 graph1 ∧ loomPace run0 graph1 * 0 + loomIn run0 graph1 + graph1.depth + 3 ≤ s.since 0 0 ∧
     graph1.strict = false) ∧
    (let x : CmdRun := { loomRun with snap := [(0, 1)] }
     let s := loomOn x { graph1 with strict := true } 100
     (s.slot 0 15).graph.strict = true ∧ mget (s.run 0 0).snap 0 ≠ 0) := by decide +kernel
theorem graph_sound : GraphSound graph1 ∧ GraphSound graph2 :=
  ⟨⟨by decide +kernel, by decide +kernel⟩, by decide +kernel, by decide +kernel⟩
theorem meets_LoomVector :
    (loomRun.live = true ∧ 0 < loomPace run0 graph1 ∧ GraphSound graph1 ∧
      ∀ e < 4, ((loomOn loomRun graph1 0).elem 0 (westElem 3 e)).resU ≤ ((loomOn loomRun graph1 0).islOf 0 (westElem 3 e)).abs) ∧
    (run0.vectors.toNat ≤ (loomOn loomRun graph1 1).since 0 0 / loomPace run0 graph1) ∧
    ((loomOn loomRun graph2 0).since 0 0 / loomPace run0 graph2 < run0.vectors.toNat ∧
      (loomOn loomRun graph2 0).since 0 0 % loomPace run0 graph2 + 1 < loomIn run0 graph2) ∧
    ((loomOn loomRun graph1 0).since 0 0 / loomPace run0 graph1 < run0.vectors.toNat ∧
      (loomOn loomRun graph1 0).since 0 0 % loomPace run0 graph1 + 1 = loomIn run0 graph1 ∧
      ∀ e ∈ (loomOn loomRun graph1 0).errs, e.hard = true → nodeLine 0 15 graph1.nodes.length e = false) ∧
    (let e : ErrLine := { line := .loom 0 false 15 0, hard := true }
     let s : State := { loomOn loomRun graph1 0 with errs := [e] }
     e ∈ s.errs ∧ e.hard = true ∧ nodeLine 0 15 graph1.nodes.length e = true) :=
  ⟨⟨by decide +kernel, by decide +kernel, graph_sound.1, by decide +kernel⟩, by decide +kernel, by decide +kernel, by decide +kernel,
   by decide +kernel⟩
/-- A page of memory at address 0 that the task of a context, alone in its order, reads and writes by its extents without a stop. -/
structure Plain (s : State) (c : Ctx) : Prop where
  noErrs : s.errs = []
  noLays : (s.task (s.taskAt c)).lays = []
  leaf : mget (s.task (s.taskAt c)).extents 0 = 0x71F
  sound : ∀ g < 1024, s.checkOk g = true
  alone : ∀ p ∈ s.tasks, p.2.ts ≤ (s.task (s.taskAt c)).ts
theorem leaf_low (s : State) (owner : BitVec 8) (sup : Bool) (k : AccK) (hk : k ≠ .fetch) {va : Nat} (hv : va < 65536) :
    s.checkLeaf owner sup k 0x71F 65536 va = .ok va false false 0 := by
  have hf : pteFrame 0x71F * 65536 / 65536 * 65536 = 0 := by decide +kernel
  have ho : pteOwner 0x71F = 0 := by decide +kernel
  have hb : pteBit 0x71F 4 = true ∧ pteBit 0x71F 63 = false ∧ pteBit 0x71F 10 = true ∧ pteBit 0x71F 2 = true := by decide +kernel
  unfold State.checkLeaf
  simp only [hf, ho, hb.1, hb.2.1, hb.2.2.1, hb.2.2.2, Nat.mod_eq_of_lt hv, Nat.zero_add, low_place s hv]
  cases k <;> cases sup
  all_goals first | exact absurd rfl hk | rfl
theorem Plain.ext {s : State} {c : Ctx} (h : Plain s c) (sup : Bool) (k : AccK) (hk : k ≠ .fetch) {va : Nat} (hv : va < 65536) :
    pteBit (mget (s.task (s.taskAt c)).extents (va / 65536)).toNat 0 = true ∧
    s.extAccM (s.task (s.taskAt c)) sup k va = .ok va false false 0 := by
  have hx : (mget (s.task (s.taskAt c)).extents (va / 65536)).toNat = 0x71F := by rw [Nat.div_eq_of_lt hv, h.leaf]; rfl
  have hp : pteBit 0x71F 0 = true ∧ sizeOfCode (0x71F / 2 ^ 60 % 8) = 65536 := by decide +kernel
  unfold State.extAccM
  simp only [hx, if_neg (show ¬ va ≥ 2 ^ 48 by omega), hp.1, hp.2, if_true, leaf_low s _ _ k hk hv, and_self]
theorem Plain.sees {s : State} {c : Ctx} (h : Plain s c) {va n : Nat} (hv : va < 65536) (hn : va % 64 + n ≤ 64) : EngSees s c false va n va :=
  ⟨hn, by unfold Task.laidByte; rw [h.noLays]; rfl, by unfold State.hardMem; rw [h.noErrs]; rfl, h.sound _ (by omega), 0,
   h.ext false .load (by decide) hv⟩
theorem Plain.writes {s : State} {c : Ctx} (h : Plain s c) {va n : Nat} (hv : va < 65536) (hn : va % 64 + n ≤ 64) :
    EngWrites s c false va n va := by
  refine ⟨hn, by unfold Task.laidGranule; rw [h.noLays]; rfl, by unfold State.hardMem; rw [h.noErrs]; rfl, h.sound _ (by omega), ?_, false, false, 0,
    h.ext false .store (by decide) hv⟩
  unfold State.victims
  rw [List.map_eq_nil_iff, List.filter_eq_nil_iff]
  intro p hp
  have := h.alone p hp
  simp only [Bool.and_eq_true, decide_eq_true_eq, not_and]
  intro hlt
  have : p.2.ts.toNat ≤ (s.task (s.taskAt c)).ts.toNat := h.alone p hp
  omega
/-- The same by the translation that the page of these states holds. -/
theorem Plain.held {s : State} {c : Ctx} (h : Plain s c) {va n : Nat} (hv : va < 65536) (hn : va % 64 + n ≤ 64)
    (hp : s.tlbLookup (s.task (s.taskAt c)).ctx (s.task (s.taskAt c)).tenant va = some page) :
    EngSees s c true va n va ∧ EngWrites s c true va n va := by
  obtain ⟨_, h1, h2, h3, _⟩ := h.sees hv hn
  obtain ⟨_, h4, _, _, h5, _⟩ := h.writes hv hn
  have held (k : AccK) (hk : k ≠ .fetch) : s.translate (s.task (s.taskAt c)).ctx (s.task (s.taskAt c)).tenant (s.task (s.taskAt c)).owner
      false k va = (s, .ok va false false 0) :=
    (s.translate_held _ _ _ _ _ _ page (by omega) hp (by cases k <;> decide +kernel)).trans (congrArg (Prod.mk s) (leaf_low s _ _ k hk hv))
  exact ⟨⟨hn, h1, h2, h3, 0, (if_pos rfl).mpr (held .load (by decide))⟩,
    hn, h4, h2, h3, h5, false, false, 0, (if_pos rfl).mpr (held .store (by decide))⟩
/-- Memory is sound where the granules that it and the checks list are. -/
theorem all_sound {s : State} (gs : List Nat) (h : (∀ x ∈ mkeys s.mem, x / 64 ∈ gs) ∧ (∀ g ∈ mkeys s.checks, g ∈ gs) ∧ ∀ g ∈ gs, s.checkOk g = true)
    (g : Nat) : s.checkOk g = true := by
  by_cases hg : g ∈ gs
  · exact h.2.2 g hg
  · refine zero_granule s g (Laws.mget_absent _ _ fun p hp e => hg (e ▸ h.2.1 p.1 (List.mem_map.mpr ⟨p, hp, rfl⟩))) fun x h1 h2 =>
      Laws.mget_absent s.mem x fun p hp e => hg ?_
    have := h.1 p.1 (List.mem_map.mpr ⟨p, hp, rfl⟩)
    rwa [e, show x / 64 = g by omega] at this
/-- The page of a task alone in memory that is sound is plain; memory without contents is. -/
theorem plain_sound {s : State} {c : Ctx} (hs : ∀ g, s.checkOk g = true) (h : s.errs = [] ∧ (s.task (s.taskAt c)).lays = [] ∧
    mget (s.task (s.taskAt c)).extents 0 = 0x71F ∧ s.tasks = [(s.taskAt c, s.task (s.taskAt c))]) : Plain s c :=
  ⟨h.1, h.2.1, h.2.2.1, fun g _ => hs g, fun p hp => by rw [h.2.2.2] at hp; exact List.mem_singleton.mp hp ▸ Nat.le_refl _⟩
theorem plain {s : State} {c : Ctx} (hm : s.mem = [] ∧ s.checks = []) (h : s.errs = [] ∧ (s.task (s.taskAt c)).lays = [] ∧
    mget (s.task (s.taskAt c)).extents 0 = 0x71F ∧ s.tasks = [(s.taskAt c, s.task (s.taskAt c))]) : Plain s c :=
  plain_sound (all_sound [] (by rw [hm.1, hm.2]; exact ⟨nofun, nofun, nofun⟩)) h
def lvl (n : Nat) (st : Int) : Lvl := { count := BitVec.ofNat 24 n, stride := BitVec.ofInt 40 st }
/-- Six elements of 4 bytes, three and three; two scaled ones. -/
def nest6 : StreamRec := { in0 with esize := 2, l1 := lvl 3 8, l2 := lvl 2 32 }
def nest2 : StreamRec := { in0 with esize := 5, l1 := lvl 2 32 }
/-- A command at work on a record, with a beat taken, in context 0. -/
def beat1 : Cap := { data := 0x0F0E0D0C0B0A09080706050403020100, side := 0x0AABBCCDD }
def streamAt (i : Instr) (taken : SMap (Option Cap)) : State := windowAt { st := .running, ins := some i, done := 1, taken := taken } 0
theorem stream_plain (i : Instr) (taken : SMap (Option Cap)) : Plain (streamAt i taken) 0 := plain ⟨rfl, rfl⟩ ⟨rfl, rfl, rfl, rfl⟩
/-- The address of an element, and the elements of a beat. -/
def elemAt (r : StreamRec) (base f : Nat) : Nat := addOff base (nestOff (StreamRec.levels r false) f)
theorem elems {s : State} {r : StreamRec} {w n : Nat} (h : Plain s 0)
    (hf : ∀ f < n, elemAt r w f < 65536 ∧ elemAt r w f % 64 + elemBytes r ≤ 64) (b f : Nat) (hb : InBeat r n b f) :
    EngSees s 0 false (elemAt r w f) (elemBytes r) (elemAt r w f) ∧ EngWrites s 0 false (elemAt r w f) (elemBytes r) (elemAt r w f) :=
  have hp := hf f hb.2.1
  ⟨h.sees hp.1 hp.2, h.writes hp.1 hp.2⟩
theorem nest_facts : ∀ r ∈ [nest6, nest2], r.esize.toNat ≤ 5 ∧ 1 * perBeat r < nestN (StreamRec.levels r false) ∧
    ∀ f < nestN (StreamRec.levels r false), elemAt r 64 f < 65536 ∧ elemAt r 64 f % 64 + elemBytes r ≤ 64 := by decide +kernel
theorem nest_ready : ∀ r ∈ [nest6, nest2],
    (let s := streamAt (.sIn r) []
     (s.run 0 0).tries = true ∧ s.latched 0 (portElem r.port.toNat r.edge) < 2048 ∧ (s.run 0 0).part = [] ∧ s.sBase 0 0 r = 64) ∧
    (let s := streamAt (.sOut r) [(1, some beat1)]
     (s.run 0 0).tries = true ∧ mget (s.run 0 0).taken 1 = some beat1 ∧ (s.run 0 0).f ≤ 1 * perBeat r ∧ s.isHead (s.taskAt 0) = true ∧
     s.sBase 0 0 r = 64) := by decide +kernel
theorem meets_StreamInBeats : ∀ r ∈ [nest6, nest2],
    let s := streamAt (.sIn r) []
    ((s.run 0 0).tries = true ∧ s.latched 0 (portElem r.port.toNat r.edge) < 2048 ∧ (s.run 0 0).part = [] ∧ s.sBase 0 0 r = 64) ∧
    r.esize.toNat ≤ 5 ∧ 1 * perBeat r < nestN (StreamRec.levels r false) ∧
    ∀ f, InBeat r (nestN (StreamRec.levels r false)) 1 f → EngSees s 0 false (elemAt r 64 f) (elemBytes r) (elemAt r 64 f) :=
  fun r hr => ⟨(nest_ready r hr).1, (nest_facts r hr).1, (nest_facts r hr).2.1, fun f hf =>
    (elems (stream_plain (.sIn r) []) (nest_facts r hr).2.2 1 f hf).1⟩
/-- The copy of the six elements. -/
def copy6 : StreamRec := { nest6 with base2 := 0x200 }
theorem meets_StreamOutBeats :
    (∀ r ∈ [nest6, nest2], let s := streamAt (.sOut r) [(1, some beat1)]
     ((s.run 0 0).tries = true ∧ mget (s.run 0 0).taken 1 = some beat1 ∧ (s.run 0 0).f ≤ 1 * perBeat r ∧ s.isHead (s.taskAt 0) = true ∧
      s.sBase 0 0 r = 64) ∧
     ∀ f, InBeat r (nestN (StreamRec.levels r false)) 1 f → EngWrites s 0 false (elemAt r 64 f) (elemBytes r) (elemAt r 64 f)) ∧
    (let s := streamAt (.sCopy copy6) []
     ((s.run 0 0).tries = true ∧ 1 * perBeat copy6 < nestN (StreamRec.levels copy6 true) ∧ mget (s.run 0 0).taken 1 = none ∧
      (s.run 0 0).f ≤ 1 * perBeat copy6 ∧ s.isHead (s.taskAt 0) = true ∧ s.sBase 0 0 copy6 = 64 ∧ s.sDst 0 0 copy6 = 0x200) ∧
     ∀ f, InBeat copy6 6 1 f → EngSees s 0 false (elemAt copy6 64 f) (elemBytes copy6) (elemAt copy6 64 f) ∧
       EngWrites s 0 false (elemAt copy6 0x200 f) (elemBytes copy6) (elemAt copy6 0x200 f)) :=
  ⟨fun r hr => ⟨(nest_ready r hr).2, fun f hf => (elems (stream_plain (.sOut r) _) (nest_facts r hr).2.2 1 f hf).2⟩,
   by decide +kernel, fun f hf => ⟨(elems (stream_plain (.sCopy copy6) []) (by decide +kernel) 1 f hf).1,
    (elems (stream_plain (.sCopy copy6) []) (by decide +kernel) 1 f hf).2⟩⟩
/-- Four lanes of 32 bits with their poison. -/
def lanes4 (a b c d : W32) (p : BitVec 4) : Cap := { data := (d ++ c ++ b ++ a : BitVec 128), side := BitVec.ofNat 36 (p.toNat * 2 ^ 32) }
/-- An indirect stream over 256 bytes from 64, of elements of 4 bytes. -/
def gath0 : StreamRec := { in0 with base := 0, esize := 2, l1 := lvl 4 4 }
def gathCmd : CmdRec := { words := (gath0.toWords 2 false false).map (BitVec.ofNat 64), refs := [{ word := 6, stream := 0, off := 64 }] }
def indexAt (i : Instr) (ix taken : Cap) : State :=
  { withPlane (at0 {} { extents := [(0, 0x71F)], streams := [{ hi := 256 }] }) { isls := [whole], cmds := [gathCmd] } with
    isls := [(0, { running := true })], cmdTab := [(0, gathCmd)], runs := [(0, { st := .running, ins := some i, idx := [(0, some ix)], taken := [(0, some taken)] })] }
theorem index_plain (i : Instr) (ix taken : Cap) : Plain (indexAt i ix taken) 0 := plain ⟨rfl, rfl⟩ ⟨rfl, rfl, rfl, rfl⟩
/-- Lanes 0, 2, 5 and 47, of which lane 2 is poisoned for a gather; and an index behind the range. -/
def ixOf (q : Nat) : Nat := [0, 2, 5, 47].getD q 0
def good : Cap := lanes4 0 2 5 47 0
def vaOf' (q : Nat) : Nat := 64 + 4 * ixOf q
theorem meets_IndirectBeats :
    (let s := indexAt (.sGath gath0) (lanes4 0 2 5 47 4) {}
     ((s.run 0 0).tries = true ∧ s.latched 0 (portElem gath0.port.toNat gath0.edge) < 2048 ∧ gath0.esize = 2 ∧ 0 < StreamRec.dataBeats gath0 ∧
      (s.run 0 0).part = [] ∧ ∀ q < 4, (s.run 0 0).index q = some (ixOf q, q == 2)) ∧
     ∀ q < 4, IndexAt s 0 0 gath0 (ixOf q) (vaOf' q) ∧ EngSees s 0 true (vaOf' q) (elemBytes gath0) (vaOf' q)) ∧
    (let s := indexAt (.sGath gath0) (lanes4 64 2 5 47 0) {}
     ((s.run 0 0).index 0 = some (64, false) ∧ ∀ q < 4, ((s.run 0 0).index q).isSome = true) ∧ ∀ va, ¬ IndexAt s 0 0 gath0 64 va) ∧
    (let s := indexAt (.sScat gath0) good beat1
     ((s.run 0 0).tries = true ∧ mget (s.run 0 0).taken 0 = some beat1 ∧ (s.run 0 0).f ≤ 0 ∧ s.isHead (s.taskAt 0) = true ∧
      ∀ q < 4, (s.run 0 0).index q = some (ixOf q, false)) ∧
     ∀ q < 4, IndexAt s 0 0 gath0 (ixOf q) (vaOf' q) ∧ EngWrites s 0 true (vaOf' q) (elemBytes gath0) (vaOf' q)) := by
  have hb : ∀ q < 4, vaOf' q < 65536 ∧ vaOf' q % 64 + elemBytes gath0 ≤ 64 := by decide +kernel
  have look : ∀ i ∈ [Instr.sGath gath0, .sScat gath0], ∀ x ∈ [(lanes4 0 2 5 47 4, ({} : Cap)), (good, beat1)], ∀ q < 4,
      let s := indexAt i x.1 x.2
      s.tlbLookup (s.task (s.taskAt 0)).ctx (s.task (s.taskAt 0)).tenant (vaOf' q) = some page ∧
      (vaOf' q : Int) = s.sBase 0 0 gath0 + ixOf q * gath0.l1.stride.toInt ∧ (s.sRange 0 0 6).1 ≤ vaOf' q ∧
      vaOf' q + elemBytes gath0 ≤ (s.sRange 0 0 6).2 := by decide +kernel
  have out : (indexAt (.sGath gath0) (lanes4 64 2 5 47 0) {}).sBase 0 0 gath0 = 64 ∧ gath0.l1.stride.toInt = 4 ∧
      ((indexAt (.sGath gath0) (lanes4 64 2 5 47 0) {}).sRange 0 0 6).2 = 256 := by decide +kernel
  refine ⟨⟨by decide +kernel, fun q hq => ?_⟩, ⟨by decide +kernel, ?_⟩, by decide +kernel, fun q hq => ?_⟩
  · have l := look (.sGath gath0) (by simp) (lanes4 0 2 5 47 4, {}) (by simp) q hq
    exact ⟨l.2, ((index_plain _ _ _).held (hb q hq).1 (hb q hq).2 l.1).1⟩
  · rintro va ⟨h1, _, h2⟩
    rw [out.1, out.2.1] at h1
    rw [out.2.2] at h2
    omega
  · have l := look (.sScat gath0) (by simp) (good, beat1) (by simp) q hq
    exact ⟨l.2, ((index_plain _ _ _).held (hb q hq).1 (hb q hq).2 l.1).2⟩
/-- A plane-mode stream of a row of 512 bytes and of one of 1,024, into lines of task 1. -/
def planeRec (pf : BitVec 2) : StreamRec := { in0 with esize := 0, l1 := lvl 1 1, pfmt := pf, span := 1, bank := 64 }
def planeAt (pf : BitVec 2) : State :=
  { at0 {} { tag := 1, extents := [(0, 0x71F)] } with
    isls := [(0, { running := true })], runs := [(0, { st := .running, ins := some (.sInPlane (planeRec pf)) })]
    bankMeta := (List.range 32).map (fun col => (lineKey 0 (southElem col) 64, { owner := 1 })) }
theorem plane_plain (pf : BitVec 2) : Plain (planeAt pf) 0 := plain ⟨rfl, rfl⟩ ⟨rfl, rfl, rfl, rfl⟩
theorem meets_PlaneRows : ∀ pf ∈ [0, 1, 2],
    let s := planeAt pf
    let r := planeRec pf
    ((s.run 0 0).tries = true ∧ r.pfmt ≠ 3 ∧ 0 < nestN (StreamRec.levels r false) ∧ (s.run 0 0).part = [] ∧
      addOff (s.sBase 0 0 r) (nestOff (StreamRec.levels r false) 0) = 64 ∧
      ∀ col < 32, ∀ m < (if pf = 1 then 2 else 1), s.bankChk 0 (southElem col) (spanned 1 ((64 + 16 * m) % 65536)) = .ok) ∧
    ∀ i < (if pf = 1 then 1024 else 512), EngSees s 0 false (64 + i) 1 (64 + i) := by
  have h : ∀ pf ∈ [(0 : BitVec 2), 1, 2], ((planeAt pf).run 0 0).tries = true ∧ (planeRec pf).pfmt ≠ 3 ∧
      0 < nestN (StreamRec.levels (planeRec pf) false) ∧ ((planeAt pf).run 0 0).part = [] ∧
      addOff ((planeAt pf).sBase 0 0 (planeRec pf)) (nestOff (StreamRec.levels (planeRec pf) false) 0) = 64 ∧
      ∀ col < 32, ∀ m < (if pf = 1 then 2 else 1), (planeAt pf).bankChk 0 (southElem col) (spanned 1 ((64 + 16 * m) % 65536)) = .ok := by
    decide +kernel
  refine fun pf hpf => ⟨h pf hpf, fun i hi => (plane_plain pf).sees ?_ (by omega)⟩
  split at hi <;> omega
def filt0 : WhFiltRec :=
  { hdr := hdr0, l1 := lvl 2 16, l2 := {}, l3 := {}, lo := 0x80, hi := 0x10, base := 64, window := 1, port := 0, edge := false, ty := .i8, poison := true }
/-- A filter at its second beat, with the leaf of its page. -/
def filtAt (pte : Word) : State :=
  { windowAt { st := .running, ins := some (.whFilt filt0), done := 1 } 0 with tasks := [(1, { gang := 1, phase := .resident, extents := [(0, pte)] })] }
theorem meets_FilterSlots :
    (((filtAt 0x71F).run 0 0).tries = true ∧ (filtAt 0x71F).latched 0 (portElem filt0.port.toNat filt0.edge) < 2048 ∧
      1 < nestN [filt0.l1, filt0.l2, filt0.l3] ∧
      addOff ((filtAt 0x71F).vaOf 0 0 6 filt0.base) (nestOff [filt0.l1, filt0.l2, filt0.l3] 1) = 80) ∧
    EngSees (filtAt 0x71F) 0 false 80 16 80 ∧
    (let s := filtAt 0x800000000000071F
     pteBit (mget (s.task (s.taskAt 0)).extents (80 / 65536)).toNat 0 = true ∧ (s.task (s.taskAt 0)).laidByte 80 16 = false ∧
     s.extAcc (s.task (s.taskAt 0)) .load 80 = .ok 80 true false 0) :=
  ⟨by decide +kernel, (plain ⟨rfl, rfl⟩ ⟨rfl, rfl, rfl, rfl⟩ : Plain (filtAt 0x71F) 0).sees (by decide) (by decide), by decide +kernel⟩
/-- A reducer of two bags of m indices, at its second bag with f of them added; its rows lie in a range up to `hi`. -/
def redRec (m : Nat) : WhRedRec := { bags0 with bags := lvl 2 256, inds := lvl m 16, idx := 64, dst := 0x1000, cw := 0x2000, table := 128 }
def redCmd (m : Nat) : CmdRec := { words := (redRec m).toWords.map (BitVec.ofNat 64), refs := [{ word := 6, stream := 0, off := 128 }, { word := 3, stream := 0, off := 64 }] }
def redAt (m f hi : Nat) : State :=
  { withPlane (at0 {} { extents := [(0, 0x71F)], streams := [{ hi := hi }] }) { isls := [whole], cmds := [redCmd m] } with
    isls := [(0, { running := true })], cmdTab := [(0, redCmd m)]
    runs := [(0, { st := .running, ins := some (.whRed (redRec m)), done := 1, f := f, acc := List.replicate 4 0x40000000, accPoison := List.replicate 4 false })] }
theorem red_plain (m f hi : Nat) : Plain (redAt m f hi) 0 := plain ⟨rfl, rfl⟩ ⟨rfl, rfl, rfl, rfl⟩
theorem meets_ReducerRows :
    (((redAt 2 1 4096).run 0 0).tries = true ∧ ((redAt 2 1 4096).run 0 0).done < (redRec 2).bags.count.toNat ∧
      ((redAt 2 1 4096).run 0 0).f < (redRec 2).inds.count.toNat ∧ ((redAt 2 1 4096).run 0 0).part = [] ∧
      (redAt 2 1 4096).vaOf 0 0 3 (redRec 2).idx + 4 * (1 * (redRec 2).inds.count.toNat + 1) = 76) ∧
    EngSees (redAt 2 1 4096) 0 false 76 4 76 ∧
    ((redAt 2 1 4096).vaOf 0 0 6 (redRec 2).table + engSeen (redAt 2 1 4096) 0 76 4 * (redRec 2).inds.stride.toInt = 128 ∧
      (redAt 2 1 4096).sRange 0 0 6 = (0, 4096) ∧ (redRec 2).row.toNat = 16 ∧ (redRec 2).row.toNat % redBytes (redRec 2).ty = 0 ∧
      ((redAt 2 1 4096).run 0 0).acc.length = rowLanes (redRec 2)) ∧
    (∀ i < 16, EngSees (redAt 2 1 4096) 0 false (128 + i) 1 (128 + i)) ∧
    ((redAt 2 1 130).vaOf 0 0 6 (redRec 2).table = 128 ∧ (redAt 2 1 130).sRange 0 0 6 = (0, 130)) :=
  ⟨by decide +kernel, (red_plain 2 1 4096).sees (by decide) (by decide), by decide +kernel,
   fun i hi => (red_plain 2 1 4096).sees (by omega) (by omega), by decide +kernel⟩
theorem meets_ReducerBags : ∀ m ∈ [0, 2],
    ((redAt m m 4096).run 0 0).tries = true ∧ ((redAt m m 4096).run 0 0).done < (redRec m).bags.count.toNat ∧
    (redRec m).inds.count.toNat ≤ ((redAt m m 4096).run 0 0).f ∧ ((redAt m m 4096).run 0 0).done + 1 = (redRec m).bags.count.toNat ∧
    ((redAt m m 4096).task ((redAt m m 4096).taskAt 0)).slots + (4 * rowLanes (redRec m) + 63) / 64 ≤ 32768 ∧
    (redAt m m 4096).vaOf 0 0 5 (redRec m).cw ≠ 0 := by decide +kernel
/-- A store at 0x1000: one cell, of confidence 9, is occupied in its one brick. -/
def storeMem : State :=
  ((({} : State).update 0x1000 ([0, 0x3F80000000000000, 7 * 2 ^ 21, 7 * 2 ^ 21, 7 * 2 ^ 21, 2 ^ 16, 0x1200, 0x2000, 0x1240].flatMap (leList 8))).update 0x1200
    (leList 8 (2 ^ 63))).update 0x4400 [1, 9, 2, 3, 4, 5]
/-- An 8 x 8 camera of patches of 8, near 1, far 8, and steps of 1. -/
def camSnap : SMap W32 :=
  [(12, 0x3F800000), (17, 0x3F800000), (22, 0x3F800000), (28, 64), (29, 64), (30, 8), (31, 0x3F800000), (32, 0x41000000), (33, 0x3F800000), (34, 6), (35, 77)]
def camRec : CamRec := { gath with tok := 1, steps1 := 5, thr := 9, l1 := lvl 2 63 }
def camRun : CmdRun := { st := .running, snap := camSnap, idx := [(0, some (lanes4 0x40200000 0x3F000000 0x7F800000 0 0))] }
def camAt (x : CmdRun) : State :=
  { windowAt x 0 with
    mem := storeMem.mem, checks := storeMem.checks, sst := [(0, 0x8000000000001000)], stores := [(0, 0x1000, 0x1000, default)]
    tasks := [(1, { gang := 1, phase := .resident, ts := 0x55, extents := [(0, 0x71F)] })] }
theorem store_sound : (∀ x ∈ mkeys storeMem.mem, x / 64 ∈ [64, 65, 72, 272]) ∧ (∀ g ∈ mkeys storeMem.checks, g ∈ [64, 65, 72, 272]) ∧
    ∀ g ∈ [64, 65, 72, 272], storeMem.checkOk g = true := by decide +kernel
/-- The checks of a state depend on its memory alone. -/
theorem check_same {s t : State} (hm : s.mem = t.mem) (hc : s.checks = t.checks) (g : Nat) : s.checkOk g = t.checkOk g := by
  unfold State.checkOk State.granule State.bytes
  rw [hc, show s.byte = t.byte from funext fun a => congrArg (mget · a) hm]
theorem cam_plain (x : CmdRun) : Plain (camAt x) 0 :=
  plain_sound (fun g => (check_same (by simp only [camAt]) (by simp only [camAt]) g).trans (all_sound (s := storeMem) [64, 65, 72, 272] store_sound g)) ⟨rfl, rfl, rfl, rfl⟩
def store0 : Store := (camAt {}).storeOf 0 camRec
/-- Either gather at its token f. -/
def camX (i : Instr) (f : Nat) : CmdRun := { camRun with ins := some i, done := f }
theorem store_is : ∀ i ∈ [Instr.camGath camRec, .camGathDepth camRec], ∀ f < 2,
    (camAt (camX i f)).storeOf 0 camRec = store0 ∧ (camAt (camX i f)).word 0x1208 = 0 := by decide +kernel
theorem store_seen (i : Instr) (hi : i ∈ [Instr.camGath camRec, .camGathDepth camRec]) (f : Nat) (hf : f < 2) :
    StoreSeen (camAt (camX i f)) 0 ((camAt (camX i f)).storeOf 0 camRec) 0xB000 := by
  have h : store0.desc = 0x1000 ∧ store0.va = 0x1000 ∧ store0.table = 0x1200 ∧ store0.tlog = 0 ∧ store0.pool = 0x2000 ∧ store0.nf = 32 := by
    decide +kernel
  rw [(store_is i hi f hf).1]
  unfold StoreSeen
  simp only [h.1, h.2.1, h.2.2.1, h.2.2.2.1, h.2.2.2.2.1, h.2.2.2.2.2]
  refine ⟨by decide, by decide, by decide, by decide, by decide, fun n hn _ => ?_, fun a h1 h2 => ?_⟩
  · obtain rfl : n = 0 := by omega
    exact (congrArg (fun w => 0x2000 + (w % 2 ^ 24 + 1) * 512 * (8 + 2 * 32)) (store_is i hi f hf).2).trans_le (by decide)
  · have hp := (cam_plain (camX i f)).ext true .load (by decide) (va := a) (by omega)
    rw [show 4096 + (a - 4096) = a by omega]
    exact ⟨hp.1, ⟨0, hp.2⟩, rfl, (cam_plain _).sound _ (by omega)⟩
def tokenOf (f : Nat) : Int := camRec.tok.toNat + nestOff [camRec.l1, camRec.l2, camRec.l3, camRec.l4, camRec.l5] f
theorem meets_CameraGathers :
    (∀ i ∈ [Instr.camGath camRec, .camGathDepth camRec], ∀ f < 2, ((camAt (camX i f)).run 0 0).tries = true ∧ (camAt (camX i f)).latched 0 (portElem camRec.port.toNat camRec.edge) < 2048 ∧
     f < nestN [camRec.l1, camRec.l2, camRec.l3, camRec.l4, camRec.l5]) ∧
    (∀ i ∈ [Instr.camGath camRec, .camGathDepth camRec], ∀ f < 2,
      StoreSeen (camAt (camX i f)) 0 ((camAt (camX i f)).storeOf 0 camRec) 0xB000) ∧
    (0 ≤ tokenOf 0 ∧ tokenOf 0 < across camSnap * down camSnap ∧ ¬ tokenOf 1 < across camSnap * down camSnap) ∧
    (camRec.steps1.toNat + 1 = 6 ∧ ∀ j < 6, (f32 (fAdd (mget camSnap 31) (fMul (rn32 (ofInt (j : Nat))) (mget camSnap 33)))).le (f32 (mget camSnap 32)) = true) ∧
    (let v := lanes4 0x40200000 0x3F000000 0 0 0
     v.pq (0 % 4) = false ∧ v.pq (1 % 4) = false ∧ (lanes4 0x40200000 0 0 0 1).pq (0 % 4) = true) :=
  ⟨by decide +kernel, store_seen, by decide +kernel, by decide +kernel, by decide +kernel⟩
/-- The five beats of token 0 of a scatter: its depth is 2.5, its confidence 0xAA. -/
def scatBeat (j : Nat) : Cap := [lanes4 0x70008 0x50006 0x30004 0x10002 0, {}, {}, lanes4 7 0 0 0 0, lanes4 0x40200000 0xAA 0 0 0].getD j {}
def scatRun (f : Nat) : CmdRun :=
  { camRun with ins := some (.camScat camRec), done := f, taken := (List.range 10).map (fun j => (j, some (scatBeat (j % 5)))) }
/-- Its point lies in cell (0, 0, 2). -/
theorem ray_at : ∀ a < 3, rayAt camSnap (tokenOf 0).toNat (BitVec.ofNat 32 (laneOf 32 (scatBeat 4).data 0)) a = [0, 0, 0x40200000].getD a 0 := by
  decide +kernel
theorem cell_at : CellAt store0 (rayAt camSnap (tokenOf 0).toNat (BitVec.ofNat 32 (laneOf 32 (scatBeat 4).data 0))) (0, 0, 2) := by
  intro a n hp
  obtain ⟨rfl, rfl⟩ | ⟨rfl, rfl⟩ | ⟨rfl, rfl⟩ : (a = 0 ∧ n = 0) ∨ (a = 1 ∧ n = 0) ∨ (a = 2 ∧ n = 2) := by simpa using hp
  all_goals (rw [ray_at _ (by decide)]; exact ⟨⟨by decide +kernel, by decide +kernel⟩, by decide +kernel⟩)
theorem meets_CameraScatters :
    (∀ f < 2, ((camAt (scatRun f)).run 0 0).tries = true ∧ f < nestN [camRec.l1, camRec.l2, camRec.l3, camRec.l4, camRec.l5] ∧
      (camAt (scatRun f)).storeOf 0 camRec = store0 ∧ 2 * store0.nf / 16 = 4 ∧
      (∀ j ≤ 4, mget ((camAt (scatRun f)).run 0 0).taken (f * 5 + j) = some (scatBeat j)) ∧
      ((camAt (scatRun f)).task ((camAt (scatRun f)).taskAt 0)).slots + (16 + 2 * store0.nf + 63) / 64 ≤ 32768) ∧
    (0 ≤ tokenOf 0 ∧ tokenOf 0 < across camSnap * down camSnap ∧ (f32 (BitVec.ofNat 32 (laneOf 32 (scatBeat 4).data 0))).isNan = false) ∧
    CellAt store0 (rayAt camSnap (tokenOf 0).toNat (BitVec.ofNat 32 (laneOf 32 (scatBeat 4).data 0))) (0, 0, 2) ∧
    ¬ tokenOf 1 < across camSnap * down camSnap :=
  ⟨by decide +kernel, by decide +kernel, cell_at, by decide +kernel⟩
/-- A projection of a point, by the identity, onto an 8 x 8 image of patches of 8; z is 2 in front of the camera and -2 behind it. -/
def projAt (z : W32) : State :=
  windowAt { st := .running, ins := some (.camProj camRec)
             snap := [(0, 0x3F800000), (5, 0x3F800000), (10, 0x3F800000), (24, 0x3F800000), (25, 0x3F800000), (28, 64), (29, 64), (30, 8)]
             idx := [(0, some (lanes4 0x41A80000 0x42340000 z 0 0))] } 0
theorem meets_CameraProjects : ∀ s ∈ [projAt 0x40000000, projAt 0xC0000000],
    (s.run 0 0).tries = true ∧ s.latched 0 (portElem camRec.port.toNat camRec.edge) < 2048 ∧
    (s.run 0 0).done < nestN [camRec.l1, camRec.l2, camRec.l3, camRec.l4, camRec.l5] ∧ (mget (s.run 0 0).idx (s.run 0 0).done).isSome = true := by
  decide +kernel
/-- Memory with a sequence of one token of d = 64, a query of scale 1 at 0x1000, and a list with a Count at 0x4000. -/
def rowMem (n : Nat) : State :=
  ((({} : State).update 0x10000000000 (leList 8 (256 + 2 ^ 32) ++ leList 8 0x10000001000)).update 0x1000
    (leList 8 (2 ^ 32) ++ leList 8 0x3F800000)).update 0x4000 (leList 2 n)
def rowRec : AtRec := { rows0 with rows := { count := 1, stride := 256 }, rowBase := 0x1000, w4 := 0x4000, out := 0x8000 }
/-- A run whose page 0 lies behind the descriptor. -/
def rowAt (op : AtOp) (n : Nat) : State :=
  { at0 {} { extents := [(0, 0x71F)] } with
    mem := (rowMem n).mem, checks := (rowMem n).checks
    atRun := [{ task := 1, cmd := 0, op := op, rec' := rowRec, desc := 0x10000000000, pages := [(0, 0x10000010000)] }] }
def rowGranules : List Nat := [64, 256, 0x400000000]
theorem row_mem : ∀ n ∈ [1, 257], (∀ x ∈ mkeys (rowMem n).mem, x / 64 ∈ rowGranules) ∧ (∀ g ∈ mkeys (rowMem n).checks, g ∈ rowGranules) ∧
    ∀ g ∈ rowGranules, (rowMem n).checkOk g = true := by decide +kernel
theorem row_sound (op : AtOp) (n : Nat) (h : n ∈ [1, 257]) (g : Nat) : (rowAt op n).checkOk g = true :=
  (check_same (by simp only [rowAt]) (by simp only [rowAt]) g).trans (all_sound (s := rowMem n) rowGranules (row_mem n h) g)
theorem row_plain (op : AtOp) (n : Nat) (h : n ∈ [1, 257]) : Plain (rowAt op n) 0 := plain_sound (row_sound op n h) ⟨rfl, rfl, rfl, rfl⟩
theorem Plain.bytes {s : State} {c : Ctx} (h : Plain s c) {va n : Nat} (hv : va + n ≤ 65536) : BytesSeen s c va n (va + ·) :=
  fun k hk => h.sees (by omega) (by omega)
theorem Plain.granules {s : State} {c : Ctx} (h : Plain s c) {va n : Nat} (ha : va % 64 = 0) (hv : va + 64 * n ≤ 65536) :
    GranulesWritten s c va n (va + 64 * ·) :=
  ⟨ha, fun g hg => h.writes (by omega) (by omega), fun g hg k hk => show va + 64 * g ≠ va + 64 * k by omega⟩
theorem meets_SelectRow :
    ((rowAt .sel 1).taskAt 0 = ((rowAt .sel 1).atOf 0).task ∧ ((rowAt .sel 1).seqDesc ((rowAt .sel 1).atOf 0).desc).d = 64 ∧
      scaleOk (BitVec.ofNat 32 (seenAt (rowAt .sel 1) 0 (0x1000 + ·) 8 4)) = true ∧ rowRec.sinks.toNat + rowRec.recent.toNat ≤ rowRec.limit1.toNat + 1 ∧
      (vendOf (seenAt (rowAt .sel 1) 0 (0x1000 + ·)) ((rowAt .sel 1).seqDesc ((rowAt .sel 1).atOf 0).desc).length rowRec.causal + 63) / 64 = 1) ∧
    BytesSeen (rowAt .sel 1) 0 (rowRec.rowBase.toNat + 0 * rowRec.rows.stride.toNat) 192 (0x1000 + ·) ∧
    PageAt (rowAt .sel 1) 0 0 0x10000010000 ∧ SoundRange (rowAt .sel 1) (0x10000010000 + 64) 256 ∧
    GranulesWritten (rowAt .sel 1) 0 (rowRec.w4.toNat + 2112 * 0) 33 (0x4000 + 64 * ·) :=
  have h := row_plain .sel 1 (by decide)
  ⟨by decide +kernel, h.bytes (va := 0x1000) (by decide), by unfold PageAt; decide +kernel,
   fun g _ => ⟨row_sound .sel 1 (by decide) g, rfl⟩, h.granules (va := 0x4000) (by decide) (by decide)⟩
theorem meets_AttendRow :
    (∀ n ∈ [1, 257], (rowAt .att n).taskAt 0 = ((rowAt .att n).atOf 0).task ∧ seenAt (rowAt .att n) 0 (0x4000 + ·) 0 2 = n ∧
      BytesSeen (rowAt .att n) 0 (rowRec.w4.toNat + 2112 * 0) 2112 (0x4000 + ·)) ∧
    (((rowAt .att 1).seqDesc ((rowAt .att 1).atOf 0).desc).d = 64 ∧ ((rowAt .att 1).seqDesc ((rowAt .att 1).atOf 0).desc).length = 1 ∧
      (List.range 1).map (fun k => seenAt (rowAt .att 1) 0 (0x4000 + ·) (64 + 8 * k) 3) = [0] ∧
      scaleOk (BitVec.ofNat 32 (seenAt (rowAt .att 1) 0 (0x1000 + ·) 8 4)) = true ∧ leVal ((rowAt .att 1).bytes 0x10000010000 2) ≤ 64) ∧
    BytesSeen (rowAt .att 1) 0 (rowRec.rowBase.toNat + 0 * rowRec.rows.stride.toNat) 192 (0x1000 + ·) ∧
    PageAt (rowAt .att 1) 0 0 0x10000010000 ∧
    SoundRange (rowAt .att 1) 0x10000010000 (SeqDesc.pageBytes ((rowAt .att 1).seqDesc ((rowAt .att 1).atOf 0).desc)) ∧
    GranulesWritten (rowAt .att 1) 0 (rowRec.out.toNat + (64 + 4 * 64) * 0) 5 (0x8000 + 64 * ·) := by
  have h := row_plain .att 1 (by decide)
  have hd : ∀ n ∈ [1, 257], (rowAt .att n).taskAt 0 = ((rowAt .att n).atOf 0).task ∧ seenAt (rowAt .att n) 0 (0x4000 + ·) 0 2 = n := by
    decide +kernel
  exact ⟨fun n hn => ⟨(hd n hn).1, (hd n hn).2, (row_plain .att n hn).bytes (va := 0x4000) (by decide)⟩, by decide +kernel,
    h.bytes (va := 0x1000) (by decide), by unfold PageAt; decide +kernel, fun g _ => ⟨row_sound .att 1 (by decide) g, rfl⟩,
    h.granules (va := 0x8000) (by decide) (by decide)⟩

end Sys2Proof.Tests
end

section
/-!
Laws of the shared operations that the proofs of the engines' windows, of memory's form and of barriers rest on: what a
fault record, a move, a store and an abort leave alone.
-/

namespace Sys2Proof.Machine

open Sys2Proof.Laws

/-! ## Fault records and the gangs that end (R157, R158, R221) -/

/-- `t` differs from `s` in fault records and in the gangs that end alone. -/
def State.Reported (s t : State) : Prop :=
  t = { s with faultQ := t.faultQ, recorded := t.recorded, fb := t.fb, dying := t.dying }

theorem State.Reported.trans {s t u : State} (h : s.Reported t) (k : t.Reported u) : s.Reported u := by
  unfold State.Reported at *
  rw [k, h]
theorem State.Reported.mem {s t : State} (h : s.Reported t) : t.mem = s.mem := by rw [h]
theorem State.Reported.runs {s t : State} (h : s.Reported t) : t.runs = s.runs := by rw [h]
theorem State.Reported.tasks {s t : State} (h : s.Reported t) : t.tasks = s.tasks := by rw [h]

theorem State.record_reported (s : State) (r : FaultRec) : s.Reported (s.record r) := by
  unfold State.Reported State.record; dsimp only; split <;> rfl
theorem State.recordAt_reported (s : State) (c : Ctx) (code : BitVec 8) (addr : Word) (cmd elem : Nat) (pos : Word)
    (held laid ended nested : Bool) : s.Reported (s.recordAt c code addr cmd elem pos held laid ended nested) :=
  s.record_reported _
theorem State.engRecord_reported (s : State) (id cmd : Nat) (code : BitVec 8) (addr elem pos : Nat)
    (held laid ended : Bool) : s.Reported (s.engRecord id cmd code addr elem pos held laid ended) := s.record_reported _
theorem State.doom_reported (s : State) (g : Nat) (code : BitVec 8) (ctx : Bool) : s.Reported (s.doom g code ctx) := by
  unfold State.Reported State.doom; split <;> rfl
theorem State.seqEnd_reported (s : State) (code : BitVec 8) (addr : Word) : s.Reported (s.seqEnd code addr) :=
  (s.recordAt_reported ..).trans (State.doom_reported ..)
theorem State.engEnd_reported (s : State) (id cmd : Nat) (code : BitVec 8) (addr pos : Nat) :
    s.Reported (s.engEnd id cmd code addr pos) := (s.engRecord_reported ..).trans (State.doom_reported ..)
theorem State.fabricFault_reported (s : State) (c : Ctx) (code : BitVec 8) (addr : Word) (cmd elem pos : Nat)
    (byElem : Bool) : s.Reported (s.fabricFault c code addr cmd elem pos byElem) :=
  (s.record_reported _).trans (State.doom_reported ..)
theorem State.doomOwner_reported (s : State) (tag : Nat) : s.Reported (s.doomOwner tag) := by
  unfold State.doomOwner
  split
  · rfl
  · exact List.foldlRecOn (motive := s.Reported) _ _ rfl fun t h p _ => h.trans (t.doom_reported ..)

/-- An uncorrectable error changes what a fault record does, and the counters of the start. -/
theorem State.memError_rest (s : State) (c : Ctx) (pa tag cmd elem : Nat) (pos : Word) :
    ∃ x, State.Reported { s with start := x } (s.memError c pa tag cmd elem pos) := by
  have count : ∃ x, s.countUE pa = { s with start := x } := by
    unfold State.countUE; dsimp only; split
    · exact ⟨_, rfl⟩
    · exact ⟨s.start, rfl⟩
  obtain ⟨x, hx⟩ := count
  unfold State.memError
  rw [hx]
  exact ⟨x, (State.recordAt_reported ..).trans (State.doomOwner_reported ..)⟩
@[simp] theorem State.memError_mem (s : State) (c : Ctx) (pa tag cmd elem : Nat) (pos : Word) :
    (s.memError c pa tag cmd elem pos).mem = s.mem := (s.memError_rest c pa tag cmd elem pos).elim fun _ h => h.mem
@[simp] theorem State.memError_runs (s : State) (c : Ctx) (pa tag cmd elem : Nat) (pos : Word) :
    (s.memError c pa tag cmd elem pos).runs = s.runs := (s.memError_rest c pa tag cmd elem pos).elim fun _ h => h.runs

@[simp] theorem State.seqRecord_mem (s : State) (code : BitVec 8) (addr : Word) (held ended : Bool) :
    (s.seqRecord code addr held ended).mem = s.mem := (s.recordAt_reported ..).mem
@[simp] theorem State.seqEnd_mem (s : State) (code : BitVec 8) (addr : Word) : (s.seqEnd code addr).mem = s.mem :=
  (s.seqEnd_reported code addr).mem
@[simp] theorem State.engRecord_runs (s : State) (id cmd : Nat) (code : BitVec 8) (addr elem pos : Nat)
    (held laid ended : Bool) : (s.engRecord id cmd code addr elem pos held laid ended).runs = s.runs :=
  (s.engRecord_reported ..).runs
@[simp] theorem State.engEnd_runs (s : State) (id cmd : Nat) (code : BitVec 8) (addr pos : Nat) :
    (s.engEnd id cmd code addr pos).runs = s.runs := (s.engEnd_reported ..).runs

/-! ## Updates of tasks -/

/-- `t` differs from `s` in the tasks alone. -/
def State.OnlyTasks (s t : State) : Prop := t = { s with tasks := t.tasks }

theorem State.OnlyTasks.trans {s t u : State} (h : s.OnlyTasks t) (k : t.OnlyTasks u) : s.OnlyTasks u := by
  unfold State.OnlyTasks at *
  rw [k, h]
theorem State.OnlyTasks.mem {s t : State} (h : s.OnlyTasks t) : t.mem = s.mem := by rw [h]
theorem State.OnlyTasks.checks {s t : State} (h : s.OnlyTasks t) : t.checks = s.checks := by rw [h]
theorem State.OnlyTasks.errs {s t : State} (h : s.OnlyTasks t) : t.errs = s.errs := by rw [h]
theorem State.OnlyTasks.runs {s t : State} (h : s.OnlyTasks t) : t.runs = s.runs := by rw [h]
theorem State.OnlyTasks.saves {s t : State} (h : s.OnlyTasks t) : t.saves = s.saves := by rw [h]

theorem State.modTask_only (s : State) (id : Nat) (f : Task → Task) : s.OnlyTasks (s.modTask id f) := by
  unfold State.OnlyTasks State.modTask; split <;> rfl
/-- What a task is after a change of a task. -/
theorem State.task_modTask (s : State) (id j : Nat) (f : Task → Task) :
    (s.modTask id f).task j = s.task j ∨ (j = id ∧ (s.modTask id f).task j = f (s.task j)) := by
  by_cases hj : j = id
  · subst hj
    by_cases hg : (s.task j).gang = 0
    · exact .inl (by unfold State.modTask; rw [if_pos hg])
    · exact .inr ⟨rfl, s.task_modTask_same j f hg⟩
  · exact .inl (s.task_modTask_ne hj f)
/-- Changes of several tasks, one after another. -/
theorem State.modTasks_only {α : Type} (l : List α) (key : α → Nat) (f : α → Task → Task) (s : State) :
    s.OnlyTasks (l.foldl (fun s p => s.modTask (key p) (f p)) s) :=
  List.foldlRecOn (motive := s.OnlyTasks) l _ rfl fun t h _ _ => h.trans (t.modTask_only ..)

theorem State.noteRead_only (s : State) (id : Nat) (gs : List Nat) : s.OnlyTasks (s.noteRead id gs) := s.modTask_only id _
theorem State.move_only (s : State) (id pa n : Nat) : s.OnlyTasks (s.move id pa n) := by
  unfold State.move
  split
  · exact s.modTask_only id _
  · rfl
theorem State.overtake_only (s : State) (id pa n : Nat) : s.OnlyTasks (s.overtake id pa n) := State.modTasks_only _ _ _ s
theorem State.strike_only (s : State) (pa n : Nat) : s.OnlyTasks (s.strike pa n) := State.modTasks_only _ _ _ s

@[simp] theorem State.modTask_mem (s : State) (id : Nat) (f : Task → Task) : (s.modTask id f).mem = s.mem :=
  (s.modTask_only id f).mem
@[simp] theorem State.modTask_runs (s : State) (id : Nat) (f : Task → Task) : (s.modTask id f).runs = s.runs :=
  (s.modTask_only id f).runs
@[simp] theorem State.noteRead_mem (s : State) (id : Nat) (gs : List Nat) : (s.noteRead id gs).mem = s.mem :=
  (s.noteRead_only id gs).mem
@[simp] theorem State.noteRead_runs (s : State) (id : Nat) (gs : List Nat) : (s.noteRead id gs).runs = s.runs :=
  (s.noteRead_only id gs).runs
@[simp] theorem State.move_mem (s : State) (id pa n : Nat) : (s.move id pa n).mem = s.mem := (s.move_only id pa n).mem
@[simp] theorem State.move_runs (s : State) (id pa n : Nat) : (s.move id pa n).runs = s.runs := (s.move_only id pa n).runs
@[simp] theorem State.overtake_mem (s : State) (id pa n : Nat) : (s.overtake id pa n).mem = s.mem :=
  (s.overtake_only id pa n).mem
@[simp] theorem State.strike_mem (s : State) (pa n : Nat) : (s.strike pa n).mem = s.mem := (s.strike_only pa n).mem

/-! ## Aborts (R83, R84) -/

/-- A task that has been aborted. -/
def Task.aborted (t : Task) (marked : Bool) : Task :=
  { t with marked := marked, tended := false, hold := [], out := [], redo := [], intents := [], sig := 0, bricks := []
           brickAll := [], lays := [], cws := [], links := t.links.filter (·.left), guardHit := none }

/-- All that an abort can do: a spilled task is marked in its save area, a resident one starts again with a stack of its own of
free values, and any other is left alone. -/
theorem State.abort_cases (s : State) (v : Nat) :
    ((s.task v).phase = .spilled ∧ s.abort v = (s.markSave v).modTask v (·.aborted true)) ∨
    ((s.task v).phase = .resident ∧ s.abort v = (s.startPartition v).wipeStack v) ∨ s.abort v = s := by
  unfold State.abort
  dsimp only
  split
  · next h => exact .inl ⟨by simpa using h, rfl⟩
  · split
    · next h => exact .inr (.inl ⟨by simpa using h, rfl⟩)
    · exact .inr (.inr rfl)
/-- The mark of an abort in a save area is an update of its 64 bytes, where the area lies in memory. -/
theorem State.markSave_cases (s : State) (v : Nat) : s.markSave v = s ∨
    s.markSave v = s.updateFor v ((mget s.saves v).area.toNat + 0x49000) (leList 8 1 ++ List.replicate 56 0) := by
  unfold State.markSave
  rw [abortMark_eq]
  dsimp only
  split
  · exact .inr rfl
  · exact .inl rfl
theorem State.markSave_tasks (s : State) (v : Nat) : (s.markSave v).tasks = s.tasks := by
  rcases s.markSave_cases v with e | e
  · rw [e]
  · rw [e, State.updateFor_rest]
theorem State.markSave_saves (s : State) (v : Nat) : (s.markSave v).saves = s.saves := by
  rcases s.markSave_cases v with e | e
  · rw [e]
  · rw [e, State.updateFor_rest]
theorem State.markSave_runs (s : State) (v : Nat) : (s.markSave v).runs = s.runs := by
  rcases s.markSave_cases v with e | e
  · rw [e]
  · rw [e, State.updateFor_rest]
/-- What a task is after an abort. -/
theorem State.task_abort (s : State) (v j : Nat) :
    (s.abort v).task j = s.task j ∨ ∃ m, (s.abort v).task j = (s.task j).aborted m := by
  rcases s.abort_cases v with ⟨-, e⟩ | ⟨-, e⟩ | e
  · have same : (s.markSave v).task j = s.task j := by unfold State.task; rw [s.markSave_tasks v]
    rw [e]
    rcases (s.markSave v).task_modTask v j (·.aborted true) with h | ⟨-, h⟩
    · exact .inl (h.trans same)
    · exact .inr ⟨true, by rw [h, same]⟩
  · rw [e]
    by_cases hj : j = v
    · subst hj; exact .inr ⟨false, mget_mset_same ..⟩
    · exact .inl (mget_mset_ne _ hj _)
  · exact .inl (by rw [e])
theorem State.abort_saves (s : State) (v : Nat) : (s.abort v).saves = s.saves := by
  rcases s.abort_cases v with ⟨-, e⟩ | ⟨-, e⟩ | e
  · rw [e, (State.modTask_only ..).saves, s.markSave_saves v]
  · rw [e]; rfl
  · rw [e]
/-- An abort leaves the commands of every context but that of its task. -/
theorem State.run_abort_ne (s : State) (v : Nat) (c : Ctx) (k : Nat) (hk : k < 256) (h : (s.task v).ctx ≠ c) :
    (s.abort v).run c k = s.run c k := by
  unfold State.run
  rcases s.abort_cases v with ⟨-, e⟩ | ⟨-, e⟩ | e
  · rw [e, State.modTask_runs, s.markSave_runs v]
  · rw [e]
    have hn : (s.task v).ctx.toNat ≠ c.toNat := fun e => h (BitVec.eq_of_toNat_eq e)
    show mget (mcut ((s.task v).ctx.toNat * 256) 256 s.runs) (kKey c k) = _
    rw [mget_mcut, if_neg]
    unfold kKey
    omega
  · rw [e]

/-- What every part of a visibility event keeps, the event keeps. -/
theorem State.visible_keeps {P : State → Prop} (s : State) (id : Nat) (gs : List Nat)
    (bricks : List (Nat × Int × Int × Int)) (h : P s) (abort : ∀ t v, P t → P (t.abort v)) :
    P (s.visible id gs bricks) := by
  unfold State.visible
  split
  · exact List.foldlRecOn (motive := P) _ _ h fun t ht v _ => abort t v ht
  · exact h
/-- What each part of the performance of held bytes keeps, the whole keeps. -/
theorem State.letGo_keeps {P : State → Prop} (s : State) (id : Nat) (m : SMap (Option Byte)) (f : Task → Task)
    (h : P (s.setTask id (f (s.task id)))) (write : ∀ t pa bs, P t → P (State.writeGranule t pa bs).1)
    (report : ∀ t u, State.Reported t u → P t → P u) (overtake : ∀ t pa n, P t → P (t.overtake id pa n))
    (abort : ∀ t v, P t → P (t.abort v)) : P (s.letGo id m f) := by
  unfold State.letGo
  dsimp only
  refine State.visible_keeps _ id _ [] ?_ abort
  refine List.foldlRecOn (motive := P) _ _ ?_ fun t ht r _ => overtake t _ _ ht
  refine List.foldlRecOn (motive := P) _ _ ?_ fun t ht g _ =>
    report t _ ((t.recordAt_reported ..).trans (State.doom_reported ..)) ht
  exact List.foldlRecOn (motive := fun p : State × List Nat => P p.1) _ _ h fun p hp r _ => write p.1 r.1 r.2 hp

end Sys2Proof.Machine
end

section
/-!
Barriers (R14, R94, R128, R379).
-/

namespace Sys2Proof.Machine

open Sys2Proof.Laws

/-! ## Held stores that a release performs (R93, R94) -/

/-- Overtaking stores leave every hold as it is. -/
theorem State.hold_overtake (s : State) (id pa n j : Nat) : ((s.overtake id pa n).task j).hold = (s.task j).hold := by
  unfold State.overtake
  dsimp only
  refine List.foldlRecOn (motive := fun t : State => (t.task j).hold = (s.task j).hold) _ _ rfl fun t h p _ => ?_
  rcases t.task_modTask p.1 j _ with e | ⟨-, e⟩
  · rw [e]; exact h
  · rw [e]; exact h
/-- An abort empties holds and fills none. -/
theorem State.hold_abort (s : State) (v j : Nat) (h : (s.task j).hold = []) : ((s.abort v).task j).hold = [] := by
  rcases s.task_abort v j with e | ⟨m, e⟩
  · rw [e]; exact h
  · rw [e]; rfl
/-- A task whose held stores have performed holds nothing. -/
theorem State.hold_releaseHold (s : State) (id : Nat) : ((s.releaseHold id).task id).hold = [] := by
  unfold State.releaseHold
  split
  · assumption
  · refine State.letGo_keeps (P := fun t => (t.task id).hold = []) s id _ _ ?_ ?_ ?_ ?_ fun t v h => t.hold_abort v id h
    · rw [State.task_setTask_same]
    · intro t pa bs h
      rcases t.writeGranule_cases pa bs with ⟨e, -, -⟩ | ⟨k, e, -, -⟩
      · rw [e]; exact h
      · rw [e]; exact h
    · intro t u hr h
      unfold State.task at *
      rw [hr.tasks]; exact h
    · intro t pa n h
      rw [State.hold_overtake]; exact h
/-- A task that holds nothing releases nothing. -/
theorem State.releaseHold_of_empty (s : State) (id : Nat) (h : (s.task id).hold = []) : s.releaseHold id = s := if_pos h

/-! ## `bar` -/

/-- The acting task may not arrive now, or has arrived already. -/
def State.barWaits (s : State) : Bool :=
  (s.thr s.cur).barArrived || (s.thr s.cur).acquiring || !s.inHeadGroup (s.taskAt s.cur) ||
    (s.task (s.taskAt s.cur)).laidPlain
/-- The identifier of a pod barrier cannot be used: no group holds this package, or a member is lost (R379). -/
def State.barRefused (s : State) (sc : Scope) (b : Nat) : Bool :=
  sc == .pod && (!s.podOk b || !(mget s.bars (barKey .pod 0 b)).lost.isEmpty)
/-- The acting task has arrived, behind its held stores, and its thread stalls. -/
def State.barArrive (s : State) (sc : Scope) (b : Nat) : State :=
  let s0 := s.releaseHold (s.taskAt s.cur)
  let s1 := { s0 with bars := mmod s0.bars (barKey sc (instOf sc s.cur) b)
                        (fun x => { x with arrived := x.arrived ++ [s.taskAt s.cur], last := s.cycle }) }
  (s1.modThr s.cur (fun t => { t.closeLoads with barArrived := true })).stalled s.cur

/-- All that a `bar` can do where no guard access is pending (R128). -/
theorem exec_bar (sc : Scope) (b : BitVec 4) (s : State) (hg : (s.task (s.taskAt s.cur)).guardHit = none) :
    exec (.bar sc b) s =
      if (s.thr s.cur).barReleased then .next ((s.acquire s.cur).retire s.cur (fun t => t))
      else if s.barWaits then .next (s.stalled s.cur)
      else if s.barRefused sc b.toNat then .next (s.seqEnd 0x38 (BitVec.ofNat 64 b.toNat))
      else .next (s.barArrive sc b.toNat) := by
  show execBar sc b s = _
  unfold execBar
  simp only [hg]
  rfl
theorem State.barWaits_iff (s : State) : s.barWaits = true ↔ (s.thr s.cur).barArrived = true ∨
    (s.thr s.cur).acquiring = true ∨ s.inHeadGroup (s.taskAt s.cur) = false ∨
    (s.task (s.taskAt s.cur)).laidPlain = true := by
  unfold State.barWaits
  simp only [Bool.or_eq_true, Bool.not_eq_true', or_assoc]
theorem State.barRefused_iff (s : State) (sc : Scope) (b : Nat) : s.barRefused sc b = true ↔
    sc = .pod ∧ (s.podOk b = false ∨ (mget s.bars (barKey .pod 0 b)).lost ≠ []) := by
  unfold State.barRefused
  simp only [Bool.and_eq_true, beq_iff_eq, Bool.or_eq_true, Bool.not_eq_true', List.isEmpty_eq_false_iff]

variable (s : State) (sc : Scope) (b : Nat)

theorem State.barArrive_rest : s.barArrive sc b = { s.releaseHold (s.taskAt s.cur) with
    threads := (s.barArrive sc b).threads, bars := (s.barArrive sc b).bars } := rfl
theorem State.barArrive_bars : (s.barArrive sc b).bars = mmod (s.releaseHold (s.taskAt s.cur)).bars
    (barKey sc (instOf sc s.cur) b) (fun x => { x with arrived := x.arrived ++ [s.taskAt s.cur], last := s.cycle }) := rfl
theorem State.thr_barArrive : (s.barArrive sc b).thr s.cur =
    let u := (s.releaseHold (s.taskAt s.cur)).thr s.cur
    { u.closeLoads with
      waitSince := some (u.waitSince.getD (s.releaseHold (s.taskAt s.cur)).cycle), barArrived := true } := by
  unfold State.barArrive
  dsimp only
  rw [State.thr_stalled, State.thr_modThr_same]
  rfl

/-! ## Releases -/

/-- A change of the thread of a task, wherever its context is, changes threads and saved contexts alone. -/
theorem State.modThread_rest (id : Nat) (f : Thread → Thread) : s.modThread id f =
    { s with threads := (s.modThread id f).threads, saves := (s.modThread id f).saves } := by
  unfold State.modThread
  dsimp only
  split
  · rfl
  · split <;> rfl
theorem State.thr_modThread (id : Nat) (f : Thread → Thread) (c : Ctx) :
    (s.modThread id f).thr c = if (s.task id).phase = .resident ∧ (s.task id).ctx = c then f (s.thr c) else s.thr c := by
  unfold State.modThread
  by_cases hp : (s.task id).phase = .resident
  · by_cases hc : (s.task id).ctx = c
    · subst hc; simp [hp]
    · simp only [hp, beq_self_eq_true, if_true, hc, and_false, if_false]
      exact s.thr_modThr_ne (Ne.symm hc) f
  · simp only [beq_iff_eq, hp, if_false, false_and]
    split <;> rfl

/-- A thread that a release has let go on. -/
def Thread.opened (t : Thread) : Thread := { t with barArrived := false, barReleased := true }

/-- The threads of the parties go on one after another; nothing but threads and saved contexts changes. -/
theorem State.openThreads_rest (l : List Nat) : l.foldl (fun s id => s.modThread id Thread.opened) s =
    { s with threads := (l.foldl (fun s id => s.modThread id Thread.opened) s).threads
             saves := (l.foldl (fun s id => s.modThread id Thread.opened) s).saves } :=
  List.foldlRecOn (motive := fun t : State => t = { s with threads := t.threads, saves := t.saves }) l _ rfl
    fun t h id _ => by rw [t.modThread_rest, h]
/-- Each thread is afterwards as it was, or has been let go on; it has been where a resident party has its context. -/
theorem State.thr_openThreads (l : List Nat) (c : Ctx) :
    (l.foldl (fun s id => s.modThread id Thread.opened) s).thr c =
      if ∃ id ∈ l, (s.task id).phase = .resident ∧ (s.task id).ctx = c then (s.thr c).opened else s.thr c := by
  induction l generalizing s with
  | nil => simp
  | cons i l ih =>
    have tasks : ∀ j, (s.modThread i Thread.opened).task j = s.task j := fun j => by rw [s.modThread_rest]; rfl
    rw [List.foldl_cons, ih]
    simp only [tasks, State.thr_modThread, List.mem_cons, exists_eq_or_imp]
    by_cases hi : (s.task i).phase = .resident ∧ (s.task i).ctx = c
    · simp only [hi, and_self, true_or, if_true]
      split <;> rfl
    · simp only [hi, if_false, false_or]

/-- The release of an episode below pod scope empties the identifier and lets its parties go on. -/
theorem State.barOpen_eq (key : Nat) : s.barOpen key [] =
    (mget s.bars key).arrived.foldl (fun s id => s.modThread id Thread.opened)
      { s with bars := mset s.bars key { mget s.bars key with arrived := [], sent := false } } := rfl
theorem State.barrierStep_full (inst id : Nat) (h : sc ≠ .pod)
    (hf : s.barFull sc inst (mget s.bars (barKey sc inst id)) = true) :
    s.barrierStep sc inst id = s.barOpen (barKey sc inst id) [] := by
  unfold State.barrierStep
  simp [h, hf]
theorem State.barrierStep_missing (inst id : Nat) (h : s.barFull sc inst (mget s.bars (barKey sc inst id)) = false) :
    s.barrierStep sc inst id = s := by
  unfold State.barrierStep
  simp [h]

end Sys2Proof.Machine

namespace Sys2Proof.Proofs

open Sys2Proof.Machine Sys2Proof.Claims Sys2Proof.Laws

/-- A `bar` arrives once, in the head group, behind its held stores; it goes on behind the release; and it ends its gang
where its pod barrier cannot be used. -/
theorem barrierArrival : BarrierArrival := by
  intro s sc b hg
  have arm := exec_bar sc b s hg
  have may : (s.thr s.cur).barArrived = false ∧ Unawaited s ∧ s.inHeadGroup (me s) = true ∧
      (s.task (me s)).laidPlain = false → ¬ s.barWaits = true := by
    rintro ⟨ha, hq, hh, hl⟩ h
    unfold Unawaited me at *
    rw [s.barWaits_iff, ha, hq, hh, hl] at h
    simp at h
  refine ⟨fun h => by rw [arm, if_pos h]; rfl, ?arrives, ?refused, ?waits⟩
  case arrives =>
    rintro ⟨hr, hm⟩ hp
    have pod : ¬ s.barRefused sc b.toNat = true := by
      rw [s.barRefused_iff]
      rintro ⟨rfl, h⟩
      obtain ⟨hok, hlost⟩ := hp rfl
      exact h.elim (fun h => by rw [hok] at h; exact nomatch h) (fun h => h hlost)
    rw [arm, if_neg (by rw [hr]; exact Bool.false_ne_true), if_neg (may hm), if_neg pod]
    refine ⟨_, rfl, s.thr_barArrive sc b.toNat, ?_, fun n hn => ?_, s.barArrive_rest sc b.toNat, s.hold_releaseHold (me s),
      s.releaseHold_of_empty _⟩
    · rw [s.barArrive_bars]
      exact congrArg Bar.arrived (mget_mmod_same ..)
    · rw [s.barArrive_bars]
      exact mget_mmod_ne _ hn _
  case refused =>
    rintro ⟨hr, hm⟩ rfl h
    rw [arm, if_neg (by rw [hr]; exact Bool.false_ne_true), if_neg (may hm), if_pos ((s.barRefused_iff ..).mpr ⟨rfl, h⟩)]
  case waits =>
    intro hr h
    rw [arm, if_neg (by rw [hr]; exact Bool.false_ne_true), if_pos]
    · rfl
    · rw [s.barWaits_iff]
      unfold Unawaited at h
      rwa [Bool.not_eq_false] at h

/-- An episode below pod scope releases once it is full, and not before. -/
theorem barrierRelease : BarrierRelease := by
  intro s sc inst b
  have arm : exec (.barrierRelease sc inst b) s = .next (s.barrierStep sc inst.toNat b.toNat) := rfl
  refine ⟨fun hsc hf => ?_, fun hf => by rw [arm, s.barrierStep_missing sc _ _ hf]⟩
  have key : (32 * scopeNum sc + inst.toNat) * 16 + b.toNat = barKey sc inst.toNat b.toNat := rfl
  rw [key] at hf ⊢
  rw [arm, s.barrierStep_full sc _ _ hsc hf, s.barOpen_eq]
  refine ⟨_, rfl, ?_, fun n hn => ?_, fun id hid hp => ?_, ?_⟩
  · rw [State.openThreads_rest]
    exact congrArg Bar.arrived (mget_mset_same ..)
  · rw [State.openThreads_rest]
    exact mget_mset_ne _ hn _
  · rw [State.thr_openThreads, if_pos ⟨id, hid, hp, rfl⟩]
    exact ⟨rfl, rfl⟩
  · rw [State.openThreads_rest]

/-- Settles O51: an arrival is one update of its identifier behind the held stores, whose performance leaves the hold empty,
and a release lets the threads of its parties go on one after another. -/
theorem barriers : Obligations.Barriers := ⟨barrierArrival, barrierRelease⟩

end Sys2Proof.Proofs
end

section
/-!
The canonical form of memory alone (R9, R72, R79, R115, R117, R254): every access of the sequencer and every drain keeps it,
whatever form the checks have.
-/

namespace Sys2Proof.Machine

open Sys2Proof.Laws

/-- Memory is in its canonical form. -/
def State.MemCanonical (s : State) : Prop := Memory.wf s.mem = true

theorem State.MemCanonical.of_eq {s t : State} (h : s.MemCanonical) (e : t.mem = s.mem) : t.MemCanonical := by
  unfold State.MemCanonical at *
  rw [e]; exact h

variable {s : State}

/-! ## Writes -/

theorem State.MemCanonical.writeGranule (h : s.MemCanonical) (pa : Nat) (bs : List Byte) :
    (s.writeGranule pa bs).1.MemCanonical := by
  rcases s.writeGranule_cases pa bs with ⟨e, -, -⟩ | ⟨k, e, -, -⟩
  · rw [e]; exact h
  · rw [e]; exact wf_putBytes _ _ _ h
theorem State.MemCanonical.updateFor (h : s.MemCanonical) (id pa : Nat) (bs : List Byte) :
    (s.updateFor id pa bs).MemCanonical := by
  rw [State.updateFor_eq]
  refine List.foldlRecOn (motive := State.MemCanonical) _ _ h fun t ht q _ => ?_
  rcases t.updateOne_cases id q with ⟨-, -, e⟩ | ⟨-, e⟩
  · rw [e, t.integrity_rest]; exact ht
  · rw [e]; exact wf_putBytes _ _ _ ht
theorem State.MemCanonical.markWord (h : s.MemCanonical) (id pa old new : Nat) :
    (s.markWord id pa old new).MemCanonical := by
  unfold State.markWord
  split
  · exact h
  · exact h.updateFor id pa _

/-! ## Aborts and visibility events -/

theorem State.MemCanonical.abort (h : s.MemCanonical) (v : Nat) : (s.abort v).MemCanonical := by
  rcases s.abort_cases v with ⟨-, e⟩ | ⟨-, e⟩ | e
  · rw [e]
    refine State.MemCanonical.of_eq ?_ (State.modTask_mem ..)
    rcases s.markSave_cases v with e | e
    · rw [e]; exact h
    · rw [e]; exact h.updateFor v _ _
  · rw [e]
    exact mwf_msplice _ _ _ _ h (wf_freeSlice _ _).1 (wf_freeSlice _ _).2
  · rw [e]; exact h
theorem State.MemCanonical.visible (h : s.MemCanonical) (id : Nat) (gs : List Nat)
    (bricks : List (Nat × Int × Int × Int)) : (s.visible id gs bricks).MemCanonical :=
  s.visible_keeps id gs bricks h fun _ v ht => ht.abort v
theorem State.MemCanonical.letGo (h : s.MemCanonical) (id : Nat) (m : SMap (Option Byte)) (f : Task → Task) :
    (s.letGo id m f).MemCanonical :=
  s.letGo_keeps id m f h (fun _ pa bs ht => ht.writeGranule pa bs) (fun _ _ hr ht => ht.of_eq hr.mem)
    (fun t pa n ht => ht.of_eq (t.overtake_mem id pa n)) (fun _ v ht => ht.abort v)
theorem State.MemCanonical.releaseHold (h : s.MemCanonical) (id : Nat) : (s.releaseHold id).MemCanonical := by
  unfold State.releaseHold
  split
  · exact h
  · exact h.letGo id _ _
theorem State.MemCanonical.settle (h : s.MemCanonical) : s.settle.MemCanonical := by
  refine List.foldlRecOn (motive := State.MemCanonical) _ _ h fun t ht id _ => ?_
  split
  · exact ht.letGo id _ _
  · exact ht

/-! ## Faults and threads -/

@[simp] theorem State.trap_mem (s : State) (c : Ctx) (code : BitVec 8) (arg : Word) : (s.trap c code arg).mem = s.mem := by
  unfold State.trap
  dsimp only
  split
  · exact ((s.recordAt_reported ..).trans (State.doom_reported ..)).mem
  · rfl
@[simp] theorem State.holdThread_mem (s : State) (code : BitVec 8) (va : Word) : (s.holdThread code va).mem = s.mem :=
  s.seqRecord_mem code va true false

/-! ## Translation -/

theorem State.MemCanonical.walkFill (h : s.MemCanonical) (c : Ctx) (tenant : BitVec 16) (k : AccK) (va : Nat) :
    (s.walkFill c tenant k va).1.MemCanonical := by
  unfold State.walkFill
  split
  · exact h
  · exact h
  · exact h.markWord _ _ _ _
theorem State.MemCanonical.seqTranslate (h : s.MemCanonical) (k : AccK) (va : Nat) :
    (s.seqTranslate k va).1.MemCanonical := by
  have find : ∀ c tenant, (s.findLeaf c tenant k va).1.MemCanonical := fun c tenant => by
    unfold State.findLeaf
    split
    · split
      · exact h
      · exact h.walkFill c tenant k va
    · exact h.walkFill c tenant k va
  unfold State.seqTranslate
  dsimp only
  split
  · exact h
  split
  · exact h
  unfold State.translate
  split
  · exact h
  · dsimp only
    split <;> exact find _ _

/-! ## Loads -/

/-- A read changes memory by the marks of its translation alone. -/
theorem State.seqRead_mem (s : State) (va n : Nat) (poisonTrap : Option Word) :
    (s.seqRead va n poisonTrap).1.mem = s.mem ∨ (s.seqRead va n poisonTrap).1.mem = (s.seqTranslate .load va).1.mem := by
  unfold State.seqRead
  extract_lets id u
  split
  · exact .inl rfl
  · right
    generalize s.seqTranslate .load va = r
    obtain ⟨s1, a⟩ := r
    cases a with
    | pageFault => exact s1.holdThread_mem _ _
    | prot => exact s1.trap_mem _ _ _
    | owner => exact s1.seqEnd_mem _ _
    | ok pa poison dead tag =>
      dsimp -zeta only
      extract_lets s2 s3
      have h3 : s3.mem = s1.mem := by
        have h2 : s2.mem = s1.mem := by unfold s2; split <;> simp
        unfold s3; split <;> simp [h2]
      rw [← h3]
      split
      · split
        · rfl
        · exact s3.trap_mem _ _ _
      split
      · rename_i s4 _ _
        have h4 : s4.mem = s3.mem := s3.memError_mem ..
        rw [← h4]
        split
        · rfl
        · split
          · exact s4.trap_mem ..
          · rfl
      split
      · split <;> simp
      · exact s3.move_mem _ _ _
theorem State.MemCanonical.seqRead (h : s.MemCanonical) (va n : Nat) (poisonTrap : Option Word) :
    (s.seqRead va n poisonTrap).1.MemCanonical := by
  rcases s.seqRead_mem va n poisonTrap with e | e
  · exact h.of_eq e
  · exact (h.seqTranslate .load va).of_eq e

/-- Each next state that an outcome answers has canonical memory. -/
def KeepsMemory (o : Out) : Prop := ∀ t, o = .next t → t.MemCanonical
theorem keepsMemory_next {t : State} (h : t.MemCanonical) : KeepsMemory (.next t) := fun u e => by
  injection e with e
  exact e ▸ h
theorem State.MemCanonical.strict (h : s.MemCanonical) (srcs dsts : List Reg) (k : Thread → Out)
    (hk : ∀ t, KeepsMemory (k t)) : KeepsMemory (s.strict srcs dsts k) := by
  rcases s.strict_cases srcs dsts k with ⟨-, e⟩ | ⟨-, r, -, e⟩ | ⟨-, -, e⟩
  · rw [e]; exact keepsMemory_next h
  · rw [e]; exact keepsMemory_next (h.of_eq (s.trap_mem ..))
  · rw [e]; exact hk _

theorem State.MemCanonical.load (h : s.MemCanonical) (d a : Reg) (off : BitVec 16) (n : Nat) (signed : Bool) :
    KeepsMemory (s.load d a off n signed) := by
  refine h.strict _ _ _ fun t => ?_
  extract_lets ea
  have read := h.seqRead ea.toNat n none
  split
  · exact keepsMemory_next (h.of_eq (s.trap_mem ..))
  split
  · exact keepsMemory_next h
  split
  · next e => rw [e] at read; exact keepsMemory_next read
  · next e => rw [e] at read; exact keepsMemory_next read

/-! ## Stores -/

theorem State.MemCanonical.mirrorLay (h : s.MemCanonical) (id : Nat) (l : Lay) : (s.mirrorLay id l).MemCanonical :=
  h.updateFor 0 _ _
theorem State.MemCanonical.addLay {t : State} {id : Nat} {l : Lay} (h : s.MemCanonical) (e : s.addLay id l = some t) :
    t.MemCanonical := by
  unfold State.addLay at e
  dsimp only at e
  split at e
  · exact nomatch e
  · rw [← Option.some.inj e]
    exact State.MemCanonical.mirrorLay (by exact h) id _
theorem State.MemCanonical.layGranule {t : State} {id va cmd pos : Nat} {bs : List Byte} {ext : Bool} (h : s.MemCanonical)
    (e : s.layGranule id va bs cmd pos ext = some t) : t.MemCanonical := by
  unfold State.layGranule at e
  dsimp only at e
  split at e
  · split at e
    · injection e with e
      rw [← e]
      exact State.MemCanonical.mirrorLay (by exact h) id _
    · exact h.addLay e
  · exact h.addLay e
theorem State.MemCanonical.layStore (h : s.MemCanonical) (id va : Nat) (bs : List Byte) (cmd pos : Nat)
    (ext faulted : Bool) : (s.layStore id va bs cmd pos ext faulted).1.MemCanonical := by
  unfold State.layStore
  dsimp only
  split
  · exact h.of_eq (s.record_reported _).mem
  · next t e =>
    split
    · exact (h.layGranule e).of_eq (State.record_reported ..).mem
    · exact h.layGranule e
theorem State.MemCanonical.storePa (h : s.MemCanonical) (id va pa : Nat) (bs : List Byte) (cmd pos : Nat) (ext : Bool) :
    (s.storePa id va pa bs cmd pos ext).1.MemCanonical := by
  unfold State.storePa
  dsimp only
  split
  · exact h.layStore id va bs cmd pos ext false
  split
  · split
    · refine State.MemCanonical.visible ?_ id _ []
      exact (h.writeGranule pa bs).of_eq (by simp)
    · exact h
  split
  · exact State.MemCanonical.of_eq (s := s.setTask id _) h (State.move_mem ..)
  · exact h
theorem State.MemCanonical.seqDirect (h : s.MemCanonical) (va pa : Nat) (bs : List Byte) :
    (s.seqDirect va pa bs).1.MemCanonical := by
  unfold State.seqDirect
  dsimp only
  split
  · exact h.writeGranule pa bs
  · exact h.of_eq (s.seqEnd_mem ..)
@[simp] theorem State.soon_mem (s : State) (i : Instr) : (s.soon i).mem = s.mem := rfl
theorem mem_of_some {t u : State} (h : u.mem = s.mem) (e : some u = some t) : t.mem = s.mem := Option.some.inj e ▸ h
/-- A write of a queue's block changes no byte of memory. -/
theorem State.queueWrite_mem {t : State} {q off : Nat} {v : Word} : s.queueWrite q off v = some t → t.mem = s.mem := by
  fun_cases State.queueWrite s q off v
  case case2 => exact mem_of_some (List.foldlRecOn (motive := fun u : State => u.mem = s.mem) _ _ rfl fun _ hu _ _ => hu)
  case case6 => exact nofun
  all_goals exact mem_of_some rfl
/-- A write of a register changes no byte of memory. -/
theorem State.regWrite_mem {t : State} {off : Nat} {v : Word} : s.regWrite off v = some t → t.mem = s.mem := by
  fun_cases State.regWrite s off v
  case case1 => exact State.queueWrite_mem
  case case19 => exact nofun
  case case15 =>
    refine mem_of_some ?_
    split <;> rfl
  all_goals
    refine mem_of_some ?_
    simp only [apply_ite State.mem, State.soon_mem, ite_self]
theorem State.regPut_mem {t : State} {pa : Nat} {bs : List Byte} (e : s.regPut pa bs = some t) : t.mem = s.mem := by
  unfold State.regPut at e
  dsimp only at e
  split at e
  · exact nomatch e
  · exact State.regWrite_mem e
/-- A store that has gone in, or that a full hold, a full log or a failed check holds back, keeps canonical memory. -/
theorem State.MemCanonical.seqStore (h : s.MemCanonical) (va : Nat) (a : Acc) (bs : List Byte) :
    (s.seqStore va a bs).1.MemCanonical := by
  unfold State.seqStore
  cases a with
  | prot => exact h.of_eq (s.trap_mem ..)
  | owner => exact h.of_eq (s.seqEnd_mem ..)
  | pageFault =>
    have lay := h.layStore (s.taskAt s.cur) va bs seqCmd (s.thr s.cur).pc.toNat false true
    dsimp only
    split
    · next e => rw [e] at lay; exact lay
    · next e => rw [e] at lay; exact lay
  | ok pa poison dead tag =>
    extract_lets id
    dsimp -zeta only
    split
    · exact h.seqDirect va pa bs
    split
    · split
      · next e => exact h.of_eq (State.regPut_mem e)
      · exact h.of_eq (s.trap_mem ..)
    split
    · exact h.of_eq (s.memError_mem ..)
    · extract_lets s1
      have h1 : s1.MemCanonical := by
        unfold s1
        split
        · exact h.of_eq (s.memError_mem ..)
        · exact h
      have put := h1.storePa id va pa bs seqCmd (s.thr s.cur).pc.toNat false
      split
      · next e => rw [e] at put; exact put
      · next e => rw [e] at put; exact put
      · next e => rw [e] at put; exact put
      · next e => rw [e] at put; exact put.of_eq (State.seqEnd_mem ..)
      · next e => rw [e] at put; exact put
theorem State.MemCanonical.store (h : s.MemCanonical) (src a : Reg) (off : BitVec 16) (n : Nat) :
    KeepsMemory (s.store src a off n) := by
  refine h.strict _ _ _ fun t => ?_
  extract_lets ea
  split
  · exact keepsMemory_next (h.of_eq (s.trap_mem ..))
  split
  · exact keepsMemory_next h
  have h1 := h.seqTranslate .store ea.toNat
  generalize s.seqTranslate .store ea.toNat = r at h1
  obtain ⟨s1, acc⟩ := r
  have h2 := State.MemCanonical.seqStore h1 ea.toNat acc (leList n (t.get src).toNat)
  generalize e : s1.seqStore ea.toNat acc (leList n (t.get src).toNat) = r at h2
  obtain ⟨s2, done⟩ := r
  dsimp only
  rw [e]
  refine keepsMemory_next ?_
  cases done with
  | true => exact h2
  | false => exact h2

/-! ## Atomics and fences -/

theorem State.MemCanonical.atomicAt (h : s.MemCanonical) (o : Aop) (ord : AtomOrd) (d : Reg) (n va pa : Nat)
    (poison stack : Bool) (b cmp : Nat) : (s.atomicAt o ord d n va pa poison stack b cmp).MemCanonical := by
  unfold State.atomicAt
  extract_lets id old s1
  have h1 : s1.MemCanonical := by
    unfold s1
    split
    · exact h
    · exact h.of_eq (s.noteRead_mem ..)
  have direct := h1.seqDirect va pa (leList n (aopNew o n old b cmp))
  generalize s1.seqDirect va pa (leList n (aopNew o n old b cmp)) = r at direct
  obtain ⟨s2, ok⟩ := r
  dsimp -zeta only
  split
  · exact direct
  · show State.MemCanonical (if stack then s2 else _)
    split
    · exact direct
    · exact State.MemCanonical.visible (direct.of_eq (by simp)) id _ []
theorem State.MemCanonical.atomic (h : s.MemCanonical) (o : Aop) (d a b : Reg) (ord : AtomOrd) (sc : Scope) (dbl : Bool) :
    KeepsMemory (s.atomic o d a b ord sc dbl) := by
  unfold State.atomic
  extract_lets n id
  refine h.strict _ _ _ fun t => ?_
  extract_lets va stack
  split
  · exact keepsMemory_next (h.of_eq (s.trap_mem ..))
  split
  · exact keepsMemory_next h
  have h1 := h.seqTranslate .store va
  generalize s.seqTranslate .store va = r at h1
  obtain ⟨s1, acc⟩ := r
  cases acc with
  | pageFault => exact keepsMemory_next (h1.of_eq (s1.holdThread_mem ..))
  | prot => exact keepsMemory_next (h1.of_eq (s1.trap_mem ..))
  | owner => exact keepsMemory_next (h1.of_eq (s1.seqEnd_mem ..))
  | ok pa poison dead tag =>
    dsimp -zeta only
    split
    · exact keepsMemory_next (h1.of_eq (s1.trap_mem ..))
    split
    · exact keepsMemory_next (h1.of_eq (s1.memError_mem ..))
    · extract_lets bad s2 s3 s4
      have h2 : s2.MemCanonical := by
        unfold s2
        split
        · exact h1.of_eq (s1.memError_mem ..)
        · exact h1
      have h3 : s3.MemCanonical := by
        unfold s3
        split
        · exact h2.releaseHold id
        · exact h2
      have h4 : s4.MemCanonical := h3.atomicAt ..
      refine keepsMemory_next ?_
      split
      · exact h4
      · exact h4
theorem State.MemCanonical.fence (h : s.MemCanonical) (kind : FenceKind) (sc : Scope) : KeepsMemory (execFence kind sc s) := by
  unfold execFence
  extract_lets t k waits
  split
  · exact keepsMemory_next h
  · refine keepsMemory_next ?_
    show State.MemCanonical (if kind != .rel && sc != .lane then s.acquire s.cur else s)
    split
    · exact h
    · exact h

end Sys2Proof.Machine

namespace Sys2Proof.Proofs

open Sys2Proof.Machine Sys2Proof.Claims

/-- Every load, store, atomic and fence keeps canonical memory. -/
theorem accesses_keep_memory (i : Instr) (s : State) (hi : accesses i = true) (h : s.MemCanonical) : KeepsMemory (exec i s) := by
  cases i
  case lb d a off | lbn d a off | lh d a off | lhn d a off | lw d a off | lwn d a off | ld d a off => exact h.load d a off _ _
  case sb r a off | sh r a off | sw r a off | sd r a off => exact h.store r a off _
  case aswp d a b o sc w | aadd d a b o sc w | aand d a b o sc w | aor d a b o sc w | axor d a b o sc w | amin d a b o sc w |
      amax d a b o sc w | aminn d a b o sc w | amaxn d a b o sc w | acas d a b o sc w => exact h.atomic _ d a b o sc w
  case fence kind sc => exact h.fence kind sc
  all_goals exact absurd hi Bool.false_ne_true

/-- Settles O31: every write of memory goes through `putBytes` or a splice of free bytes, which keep the canonical form. -/
theorem memoryCanonical : Obligations.MemoryCanonical :=
  ⟨fun i s t hi h e => accesses_keep_memory i s hi h t e, fun _ h => State.MemCanonical.settle h⟩

end Sys2Proof.Proofs
end

section
/-!
Visibility events (R79, R83, R84): what a store of a head leaves of memory and of the commands.
-/

namespace Sys2Proof.Machine

open Sys2Proof.Laws

/-! ## Bytes outside an update -/

theorem splitGranules_within (n pa : Nat) (bs : List Byte) :
    ∀ q ∈ splitGranules n pa bs, pa ≤ q.1 ∧ q.1 + q.2.length ≤ pa + bs.length := by
  induction n generalizing pa bs with
  | zero => exact fun q hq => absurd hq (List.not_mem_nil)
  | succ n ih =>
    cases bs with
    | nil => exact fun q hq => absurd hq (List.not_mem_nil)
    | cons b bs =>
      refine List.forall_mem_cons.mpr ⟨⟨Nat.le_refl _, ?_⟩, fun q hq => ?_⟩
      · rw [List.length_take]; omega
      · by_cases hk : (b :: bs).length ≤ 64 - pa % 64
        · rw [List.drop_eq_nil_of_le hk] at hq
          cases n <;> exact absurd hq (List.not_mem_nil)
        · have h := ih (pa + (64 - pa % 64)) _ q hq
          rw [List.length_drop] at h
          omega
/-- An update writes inside its range alone. -/
theorem State.byte_updateFor_out (s : State) (id pa : Nat) (bs : List Byte) (x : Nat) (h : x < pa ∨ pa + bs.length ≤ x) :
    (s.updateFor id pa bs).byte x = s.byte x := by
  rw [State.updateFor_eq]
  refine List.foldlRecOn (motive := fun t : State => t.byte x = s.byte x) _ _ rfl fun t ht q hq => ?_
  have hw := splitGranules_within _ pa bs q hq
  rcases t.updateOne_cases id q with ⟨-, -, e⟩ | ⟨-, e⟩
  · rw [e, t.integrity_rest]; exact ht
  · rw [e]
    exact (mget_putBytes_out t.mem q.1 q.2 x (by omega)).trans ht

/-! ## What aborts write -/

/-- `u` has what decides where an abort writes as `s` has it: save areas, and the phase, the context and the stack of each
task. -/
structure State.SameFrames (s u : State) : Prop where
  saves : u.saves = s.saves
  phase : ∀ j, (u.task j).phase = (s.task j).phase
  ctx : ∀ j, (u.task j).ctx = (s.task j).ctx
  stackPa : ∀ j, (u.task j).stackPa = (s.task j).stackPa
  stackLen : ∀ j, (u.task j).stackLen = (s.task j).stackLen

theorem State.SameFrames.abort {s u : State} (h : s.SameFrames u) (v : Nat) : s.SameFrames (u.abort v) := by
  obtain ⟨saves, phase, ctx, stackPa, stackLen⟩ := h
  have same : ∀ {α : Type} (f : Task → α), (∀ t m, f (t.aborted m) = f t) →
      ∀ j, f ((u.abort v).task j) = f (u.task j) := by
    intro α f hf j
    rcases u.task_abort v j with e | ⟨m, e⟩
    · rw [e]
    · rw [e, hf]
  exact ⟨(u.abort_saves v).trans saves, fun j => (same (·.phase) (fun _ _ => rfl) j).trans (phase j),
    fun j => (same (·.ctx) (fun _ _ => rfl) j).trans (ctx j), fun j => (same (·.stackPa) (fun _ _ => rfl) j).trans (stackPa j),
    fun j => (same (·.stackLen) (fun _ _ => rfl) j).trans (stackLen j)⟩
theorem State.SameFrames.abortWrites {s u : State} (h : s.SameFrames u) (v x : Nat) :
    Claims.AbortWrites u v x ↔ Claims.AbortWrites s v x := by
  unfold Claims.AbortWrites
  rw [h.saves, h.phase, h.stackPa, h.stackLen]

/-- An abort writes the stack that is its task's own, or the mark in its save area, and nothing else. -/
theorem State.byte_abort_out (s : State) (v x : Nat) (h : ¬ Claims.AbortWrites s v x) : (s.abort v).byte x = s.byte x := by
  unfold Claims.AbortWrites at h
  rcases s.abort_cases v with ⟨hp, e⟩ | ⟨-, e⟩ | e
  · have mark : (s.markSave v).byte x = s.byte x := by
      rcases s.markSave_cases v with e | e
      · rw [e]
      · rw [e]
        refine s.byte_updateFor_out _ _ _ x ?_
        have len : (leList 8 1 ++ List.replicate 56 (0 : Byte)).length = 64 := rfl
        rw [len]
        by_contra hx
        exact h (.inr ⟨hp, by omega, by omega⟩)
    rw [e]
    unfold State.byte at *
    rw [State.modTask_mem, mark]
  · rw [e]
    have stack : ((s.startPartition v).task v).stackPa = (s.task v).stackPa ∧
        ((s.startPartition v).task v).stackLen = (s.task v).stackLen := by
      have t : (s.startPartition v).task v = _ := mget_mset_same ..
      rw [t]
      exact ⟨rfl, rfl⟩
    show mget (msplice _ _ (freeSlice _ _) _) x = _
    rw [stack.1, stack.2]
    exact mget_msplice_out _ _ _ _ x (wf_freeSlice _ _).2 (by by_contra hx; exact h (.inl (by omega)))
  · rw [e]
/-- Aborts one after another write what each of them may write. -/
theorem State.byte_aborts_out {s u : State} (hf : s.SameFrames u) (l : List Nat) (x : Nat)
    (h : ∀ v ∈ l, ¬ Claims.AbortWrites s v x) : (l.foldl State.abort u).byte x = u.byte x := by
  refine (List.foldlRecOn (motive := fun t : State => s.SameFrames t ∧ t.byte x = u.byte x) l _ ⟨hf, rfl⟩
    fun t ht v hv => ?_).2
  obtain ⟨hs, hb⟩ := ht
  refine ⟨hs.abort v, (t.byte_abort_out v x ?_).trans hb⟩
  rw [hs.abortWrites]
  exact h v hv
/-- Aborts leave the commands of a context in which none of their tasks is. -/
theorem State.run_aborts_ne {s u : State} (hf : s.SameFrames u) (l : List Nat) (c : Ctx) (k : Nat) (hk : k < 256)
    (h : ∀ v ∈ l, (s.task v).ctx ≠ c) : (l.foldl State.abort u).run c k = u.run c k := by
  refine (List.foldlRecOn (motive := fun t : State => s.SameFrames t ∧ t.run c k = u.run c k) l _ ⟨hf, rfl⟩
    fun t ht v hv => ?_).2
  obtain ⟨hs, hr⟩ := ht
  exact ⟨hs.abort v, (t.run_abort_ne v c k hk (by rw [hs.ctx]; exact h v hv)).trans hr⟩

/-! ## Whom a visibility event aborts -/

/-- `u` is `t` but for the bytes let out and those to be written again (log entry 71), and what has been moved. -/
def Task.Alike (t u : Task) : Prop := u = { t with out := u.out, redo := u.redo, traffic := u.traffic }

theorem Task.Alike.trans {t u w : Task} (h : t.Alike u) (k : u.Alike w) : t.Alike w := by
  unfold Task.Alike at *
  rw [k, h]
section
variable {t u : Task}
theorem Task.Alike.inOrder (h : t.Alike u) : u.inOrder = t.inOrder := by unfold Task.Alike at h; rw [h]; rfl
theorem Task.Alike.ts (h : t.Alike u) : u.ts = t.ts := by rw [h]
theorem Task.Alike.gang (h : t.Alike u) : u.gang = t.gang := by rw [h]
theorem Task.Alike.sig (h : t.Alike u) : u.sig = t.sig := by rw [h]
theorem Task.Alike.hasBrick (h : t.Alike u) : u.hasBrick = t.hasBrick := by unfold Task.Alike at h; rw [h]; rfl
theorem Task.Alike.sameInst {t' u' : Task} (h : t.Alike u) (k : t'.Alike u') : u.sameInst u' = t.sameInst t' := by
  unfold Task.Alike at h k; rw [h, k]; rfl
end

/-- The tasks of `u` are those of `s`, each alike. -/
structure State.Alike (s u : State) : Prop where
  task : ∀ j, (s.task j).Alike (u.task j)
  entries : ∀ p ∈ u.tasks, ∃ q ∈ s.tasks, q.1 = p.1 ∧ q.2.Alike p.2

theorem State.Alike.of_tasks {s u : State} (h : u.tasks = s.tasks) : s.Alike u :=
  ⟨fun j => by unfold State.task; rw [h]; rfl, fun p hp => ⟨p, h ▸ hp, rfl, rfl⟩⟩
theorem State.Alike.trans {s t u : State} (h : s.Alike t) (k : t.Alike u) : s.Alike u :=
  ⟨fun j => (h.task j).trans (k.task j), fun p hp => by
    obtain ⟨q, hq, e, a⟩ := k.entries p hp
    obtain ⟨r, hr, e', a'⟩ := h.entries q hq
    exact ⟨r, hr, e'.trans e, a'.trans a⟩⟩
/-- A key that does not read as the default is listed. -/
theorem mem_of_mget_ne_default {α : Type} [Inhabited α] (m : SMap α) (k : Nat)
    (h : mget m k ≠ default) : (k, mget m k) ∈ m := by
  induction m with
  | nil => exact absurd rfl h
  | cons p m ih =>
    obtain ⟨j, v⟩ := p
    have step : mget ((j, v) :: m) k = if j = k then v else mget m k := rfl
    rw [step] at h ⊢
    by_cases e : j = k
    · rw [if_pos e, e]; exact List.mem_cons_self ..
    · rw [if_neg e] at h ⊢
      exact List.mem_cons_of_mem _ (ih h)
/-- A write adds its own entry alone. -/
theorem mem_mset {α : Type} [Inhabited α] [DecidableEq α] {m : SMap α} {k : Nat} {v : α} {q : Nat × α}
    (h : q ∈ mset m k v) : q = (k, v) ∨ q ∈ m := by
  unfold mset at h
  split at h
  · exact .inr (List.mem_filter.mp h).1
  · exact (mem_mput h).imp_right (fun h => (List.mem_filter.mp h).1)
theorem State.modTask_alike (s : State) (id : Nat) (f : Task → Task) (hf : ∀ t, Task.Alike t (f t)) :
    s.Alike (s.modTask id f) := by
  refine ⟨fun j => ?_, fun p hp => ?_⟩
  · rcases s.task_modTask id j f with e | ⟨-, e⟩
    · rw [e]; rfl
    · rw [e]; exact hf _
  · unfold State.modTask at hp
    split at hp
    · exact ⟨p, hp, rfl, rfl⟩
    · next hg =>
      rcases mem_mset hp with rfl | hp
      · exact ⟨_, mem_of_mget_ne_default s.tasks id (fun e => hg (by unfold State.task; rw [e]; rfl)), rfl, hf _⟩
      · exact ⟨p, hp, rfl, rfl⟩
theorem State.move_alike (s : State) (id pa n : Nat) : s.Alike (s.move id pa n) := by
  unfold State.move
  split
  · exact s.modTask_alike id _ fun _ => rfl
  · exact State.Alike.of_tasks rfl
theorem State.overtake_alike (s : State) (id pa n : Nat) : s.Alike (s.overtake id pa n) :=
  List.foldlRecOn (motive := s.Alike) _ _ (State.Alike.of_tasks rfl) fun t h p _ =>
    h.trans (t.modTask_alike p.1 _ fun _ => rfl)

theorem State.Alike.inHeadGroup {s u : State} (h : s.Alike u) (j : Nat) (hj : s.inHeadGroup j = true) :
    u.inHeadGroup j = true := by
  unfold State.inHeadGroup at *
  simp only [Bool.and_eq_true, List.all_eq_true] at *
  obtain ⟨ho, hk⟩ := hj
  refine ⟨(h.task j).inOrder.trans ho, fun k hm => ?_⟩
  obtain ⟨p, hp, rfl⟩ := List.mem_map.mp hm
  obtain ⟨q, hq, e, -⟩ := h.entries p hp
  rw [(h.task p.1).inOrder, (h.task j).sameInst (h.task p.1), (h.task p.1).ts, (h.task j).ts]
  exact hk p.1 (List.mem_map.mpr ⟨q, hq, e⟩)
/-- Among tasks that are alike, a visibility event aborts no others. -/
theorem State.Alike.victims {s u : State} (h : s.Alike u) (id : Nat) (gs : List Nat) (bricks : List (Nat × Int × Int × Int))
    (v : Nat) (hv : v ∈ u.victims id gs bricks) : v ∈ s.victims id gs bricks := by
  unfold State.victims at *
  obtain ⟨p, hp, rfl⟩ := List.mem_map.mp hv
  obtain ⟨hp, hc⟩ := List.mem_filter.mp hp
  obtain ⟨q, hq, e, a⟩ := h.entries p hp
  refine List.mem_map.mpr ⟨q, List.mem_filter.mpr ⟨hq, ?_⟩, e⟩
  rw [a.inOrder, (h.task id).sameInst a, (h.task id).ts, a.ts, a.sig, a.hasBrick] at hc
  have head : s.inHeadGroup q.1 = true → u.inHeadGroup p.1 = true := fun k => h.inHeadGroup p.1 (e ▸ k)
  simp only [Bool.and_eq_true, Bool.not_eq_true'] at hc ⊢
  obtain ⟨⟨hc, hh⟩, hr⟩ := hc
  refine ⟨⟨hc, ?_⟩, hr⟩
  by_contra k
  rw [head (by simpa using k)] at hh
  exact nomatch hh
theorem State.Alike.sameFrames {s u : State} (h : s.Alike u) (hs : u.saves = s.saves) : s.SameFrames u :=
  ⟨hs, fun j => by rw [h.task j], fun j => by rw [h.task j], fun j => by rw [h.task j], fun j => by rw [h.task j]⟩

/-! ## A store of a head (R72, R79) -/

/-- A store of a head writes its bytes and makes the check anew, is counted, and overtakes what later tasks have let out;
then it is a visibility event. -/
theorem State.storePa_head (s : State) (id va pa : Nat) (bs : List Byte) (cmd pos : Nat)
    (hl : (s.task id).laidGranule va = false) (hh : s.isHead id = true) (hc : s.checkOk (pa / 64) = true) :
    ∃ w, s.storePa id va pa bs cmd pos false = (w.visible id [pa / 64] [], .ok) ∧
      w.mem = putBytes s.mem pa bs ∧ w.runs = s.runs ∧ w.saves = s.saves ∧ s.Alike w := by
  obtain ⟨k, e⟩ : ∃ k, s.writeGranule pa bs =
      ({ s with mem := putBytes s.mem pa bs, checks := mset s.checks (pa / 64) k }, true) := by
    rcases s.writeGranule_cases pa bs with ⟨-, -, h⟩ | ⟨k, e, -, -⟩
    · rw [hc] at h; exact nomatch h
    · exact ⟨k, e⟩
  unfold State.storePa
  simp only [hl, hh, e, Bool.or_true, if_true, Bool.false_eq_true, if_false]
  generalize hw : ({ s with mem := putBytes s.mem pa bs, checks := mset s.checks (pa / 64) k } : State) = w
  have only := (w.move_only id pa bs.length).trans (State.overtake_only _ id pa bs.length)
  have alike : s.Alike w := State.Alike.of_tasks (by rw [← hw])
  refine ⟨_, rfl, ?_, ?_, ?_, (alike.trans (w.move_alike id pa bs.length)).trans (State.overtake_alike _ id pa bs.length)⟩
  · rw [only.mem, ← hw]
  · rw [only.runs, ← hw]
  · rw [only.saves, ← hw]
/-- After a visibility event each byte and each command is as it was, but for what the aborts of its victims write and the
commands of their contexts. -/
theorem State.visible_out {s w : State} (h : s.Alike w) (hs : w.saves = s.saves) (id : Nat) (gs : List Nat) :
    (∀ x, (∀ v ∈ s.victims id gs [], ¬ Claims.AbortWrites s v x) → (w.visible id gs []).byte x = w.byte x) ∧
    (∀ (c : Ctx) (k : Nat), k < 256 → (∀ v ∈ s.victims id gs [], (s.task v).ctx ≠ c) →
      (w.visible id gs []).run c k = w.run c k) := by
  have frames := h.sameFrames hs
  unfold State.visible
  refine ⟨fun x hx => ?_, fun c k hk hc => ?_⟩
  · split
    · exact State.byte_aborts_out frames _ x fun v hv => hx v (h.victims id gs [] v hv)
    · rfl
  · split
    · exact State.run_aborts_ne frames _ c k hk fun v hv => hc v (h.victims id gs [] v hv)
    · rfl

end Sys2Proof.Machine
end

section
/-!
The commands of the stream engine: windows, reads and writes of one beat (R16, R17, R45, R206, R231, R240 to R246).
-/

namespace Sys2Proof.Machine

open Sys2Proof.Laws

/-! ## Accesses through extents (R256, R266) -/

/-- A unit whose extent does not fault is not translated anew. -/
theorem State.freshen_present (s : State) (id : Nat) (store : Bool) (va : Nat)
    (h : pteBit (mget (s.task id).extents (va / 65536)).toNat 0 = true) : s.freshen id store va = s := by
  unfold State.freshen
  rw [h, Bool.or_true]
  rfl
@[simp] theorem State.markWord_runs (s : State) (id pa old new : Nat) : (s.markWord id pa old new).runs = s.runs := by
  unfold State.markWord
  split
  · rfl
  · rw [State.updateFor_rest]
@[simp] theorem State.freshen_runs (s : State) (id : Nat) (store : Bool) (va : Nat) : (s.freshen id store va).runs = s.runs := by
  unfold State.freshen State.patchUnit
  split
  · rfl
  · dsimp only
    split
    · split <;> simp
    · exact s.modTask_runs id _

/-! ## Reads (R78, R241, R246) -/

/-- A piece that a command reads through its extents changes no command. -/
theorem State.engPiece_runs (s : State) (id cmd pos : Nat) (pol : Bool) (va n : Nat) :
    (s.engPiece id cmd pos pol false va n).1.runs = s.runs := by
  unfold State.engPiece
  extract_lets s1 t
  have h1 : s1.runs = s.runs := s.freshen_runs id false va
  rw [← h1]
  split
  · rfl
  rw [if_neg Bool.false_ne_true]
  dsimp -zeta only
  split
  · split
    · rfl
    · exact s1.engRecord_runs ..
  · exact s1.engEnd_runs ..
  · exact s1.engEnd_runs ..
  · extract_lets s2
    have h2 : s2.runs = s1.runs := by unfold s2; split <;> simp
    rw [← h2]
    split
    · rfl
    split
    · exact s2.memError_runs ..
    · rename_i ok s3 _ _
      have h3 : s3.runs = s2.runs := by unfold s3; split <;> simp
      exact h3
theorem State.engRun_runs (s : State) (id cmd : Nat) (pol : Bool) (ps : List (Nat × Nat × Nat)) :
    (s.engRun id cmd pol false ps).1.runs = s.runs := by
  induction ps generalizing s with
  | nil => rfl
  | cons p ps ih =>
    obtain ⟨f, va, n⟩ := p
    have one := s.engPiece_runs id cmd f pol va n
    unfold State.engRun
    split
    · next s1 bs e =>
      rw [e] at one
      exact (ih s1).trans one
    · next e => rw [e] at one; exact one

theorem State.OnlyTasks.hardMem {s t : State} (h : s.OnlyTasks t) (pa : Nat) : t.hardMem pa = s.hardMem pa := by
  unfold State.hardMem
  rw [h.errs]
theorem State.OnlyTasks.checkOk {s t : State} (h : s.OnlyTasks t) (g : Nat) : t.checkOk g = s.checkOk g := by
  unfold State.checkOk State.granule State.bytes
  rw [h.checks, show t.byte = s.byte by funext x; unfold State.byte; rw [h.mem]]
/-- What a task sees depends on memory and on its hold. -/
theorem State.OnlyTasks.taskBytes {s t : State} (h : s.OnlyTasks t) (id pa n : Nat)
    (hold : (t.task id).hold = (s.task id).hold) : t.taskBytes id pa n = s.taskBytes id pa n := by
  unfold State.taskBytes
  refine byteList_congr n pa fun x _ _ => ?_
  unfold State.taskByte State.byte
  rw [hold, h.mem]
theorem State.hold_noteRead (s : State) (id : Nat) (gs : List Nat) (j : Nat) :
    ((s.noteRead id gs).task j).hold = (s.task j).hold := by
  unfold State.noteRead
  rcases s.task_modTask id j (fun t => { t with sig := gs.foldl sigAdd t.sig }) with e | ⟨-, e⟩
  · rw [e]
  · rw [e]
/-- A piece of a sound granule of a unit whose extent does not fault, with no byte laid by, is what the task sees there. -/
theorem State.engPiece_sound (s : State) (id cmd pos : Nat) (pol : Bool) (va n pa tag : Nat)
    (hx : pteBit (mget (s.task id).extents (va / 65536)).toNat 0 = true) (hl : (s.task id).laidByte va n = false)
    (ha : s.extAcc (s.task id) .load va = .ok pa false false tag) (hh : s.hardMem pa = false)
    (hc : s.checkOk (pa / 64) = true) :
    ∃ t, s.engPiece id cmd pos pol false va n = (t, (s.taskBytes id pa n).map (fun b => (b, false)), .none) := by
  have read := s.noteRead_only id [pa / 64]
  have only := read.trans (State.move_only _ id pa n)
  have hold : (((s.noteRead id [pa / 64]).move id pa n).task id).hold = (s.task id).hold := by
    rw [((s.noteRead id [pa / 64]).move_alike id pa n).task id]
    exact s.hold_noteRead id _ id
  refine ⟨(s.noteRead id [pa / 64]).move id pa n, ?_⟩
  unfold State.engPiece
  simp only [Bool.false_eq_true, if_false, s.freshen_present id false va hx, hl, ha, read.hardMem, hh, read.checkOk, hc,
    if_true, only.taskBytes id pa n hold, Bool.not_true]


/-- The read of a beat: its bytes behind those read before, or a stop that holds the command. -/
theorem State.engBeat_cases (s : State) (c : Ctx) (k : Nat) (pol virt : Bool) (ps : List (Nat × Nat × Nat)) :
    ∃ s1 bs f e, s.engRun (s.taskAt c) k pol virt (piecesPast (s.run c k).part.length ps) = (s1, bs, f, e) ∧
      ((e = .none ∧ s.engBeat c k pol virt ps =
          (s1.putRun c k (fun x => { x with part := [] }), (s.run c k).part ++ bs, .none)) ∨
       (e ≠ .none ∧ s.engBeat c k pol virt ps =
          ((s1.putRun c k (fun x => { x with part := (s.run c k).part ++ bs })).stopRun c k f e, [], e))) := by
  unfold State.engBeat
  dsimp only
  generalize s.engRun (s.taskAt c) k pol virt (piecesPast (s.run c k).part.length ps) = r
  obtain ⟨s1, bs, f, e⟩ := r
  refine ⟨s1, bs, f, e, rfl, ?_⟩
  cases e with
  | none => exact .inl ⟨rfl, rfl⟩
  | held va => exact .inr ⟨nofun, rfl⟩
  | wait => exact .inr ⟨nofun, rfl⟩
  | ended => exact .inr ⟨nofun, rfl⟩
@[simp] theorem State.run_putRun (s : State) (c : Ctx) (k : Nat) (f : CmdRun → CmdRun) :
    (s.putRun c k f).run c k = f (s.run c k) := s.run_setRun_same c k _


/-! ## Beats of one 16-byte element -/

section
variable {r : StreamRec}

theorem StreamRec.bytes_wide (h : r.esize = 4) : StreamRec.bytes r = 16 := by unfold StreamRec.bytes; rw [h]; rfl
theorem StreamRec.perBeat_wide (h : r.esize = 4) : StreamRec.perBeat r = 1 := by unfold StreamRec.perBeat; rw [h]; rfl
theorem StreamRec.beats_wide (h : r.esize = 4) (copy : Bool) : StreamRec.beats r copy = nestN (StreamRec.levels r copy) := by
  unfold StreamRec.beats
  rw [StreamRec.perBeat_wide h, Nat.div_one, Nat.add_sub_cancel]
/-- The one iteration of a beat. -/
theorem StreamRec.iters_wide (h : r.esize = 4) (copy : Bool) {b : Nat} (hb : b < StreamRec.beats r copy) :
    beatIters (nestN (StreamRec.levels r copy)) (StreamRec.perBeat r) b = [b] := by
  rw [StreamRec.beats_wide h] at hb
  unfold beatIters
  rw [StreamRec.perBeat_wide h, show min (nestN (StreamRec.levels r copy)) (1 * (b + 1)) - 1 * b = 1 by omega]
  simp
theorem vaPieces_aligned {va : Nat} (h : va % 16 = 0) : vaPieces va 16 = [(va, 16)] := by
  unfold vaPieces granulesOf
  rw [if_neg (by decide), show (va + 16 - 1) / 64 - va / 64 + 1 = 1 by omega]
  simp only [List.range_one, List.map_cons, List.map_nil, Nat.zero_add, List.cons.injEq, Prod.mk.injEq, and_true]
  omega
theorem leVal_lt (l : List Byte) : leVal l < 256 ^ l.length := by
  induction l with
  | nil => exact Nat.one_pos
  | cons b l ih =>
    have hb := b.isLt
    show b.toNat + 256 * leVal l < 256 ^ (l.length + 1)
    rw [Nat.pow_succ]
    omega
theorem length_byteList (f : Nat → Byte) (n a : Nat) : (byteList f a n).length = n := by
  induction n generalizing a with
  | zero => rfl
  | succ n ih => exact congrArg (· + 1) (ih (a + 1))
/-- A beat of sixteen unpoisoned bytes is their number, with a clear sideband. -/
theorem StreamRec.capOf_wide (h : r.esize = 4) (l : List Byte) (hl : l.length = 16) :
    (StreamRec.capOf r (l.map (fun b => (b, false)))).data.toNat = leVal l ∧
      (StreamRec.capOf r (l.map (fun b => (b, false)))).side = 0 := by
  unfold StreamRec.capOf
  rw [if_neg (by rw [h]; decide)]
  have clear : (l.map (fun b => (b, false))).any (·.2) = false := by simp
  have bytes : ((l.map (fun b => (b, false))).take 16).map (·.1) = l := by
    rw [← List.map_take, List.map_map, List.take_of_length_le hl.le]
    exact List.map_id l
  dsimp only
  rw [clear, bytes]
  refine ⟨?_, rfl⟩
  rw [BitVec.toNat_ofNat]
  have := leVal_lt l
  rw [hl] at this
  exact Nat.mod_eq_of_lt this
end

/-! ## STREAM_READ_ARRIVES (R231, R240, R241) -/

/-- The next beat of an `s.in` with room in the latch is read. -/
theorem State.readArrives_sIn (s : State) (c : Ctx) (k : Nat) (r : StreamRec) (hi : (s.run c k).ins = some (.sIn r))
    (ht : (s.run c k).tries = true) (hl : s.latched c (portElem r.port.toNat r.edge) < 2048) :
    s.readArrives c k = s.sInRead c k r := by
  have room : (latchElem (.sIn r)).all (fun e => decide (s.latched c e < latchSize)) = true := by
    simp only [latchElem, Option.all_some, latchSize, hl, decide_true]
  unfold State.readArrives
  simp only [hi, ht, room, Bool.not_true, Bool.false_eq_true, if_false, if_true]
/-- A beat that has been read is latched. -/
theorem State.sInRead_latches {s s1 : State} {c : Ctx} {k : Nat} {r : StreamRec} {x : Cap}
    (hb : (s.run c k).done < StreamRec.beats r false) (e : s.sBeat c k r false (s.run c k).done = (s1, x, .none)) :
    s.sInRead c k r = s1.latchBeat c k (s.run c k).done (((s.run c k).done + 1) * StreamRec.perBeat r) x := by
  unfold State.sInRead
  simp only [Nat.not_le.mpr hb, if_false, e]
/-- A page fault leaves what the read made of the command. -/
theorem State.sInRead_holds {s s1 : State} {c : Ctx} {k : Nat} {r : StreamRec} {x : Cap} {va : Nat}
    (hb : (s.run c k).done < StreamRec.beats r false) (e : s.sBeat c k r false (s.run c k).done = (s1, x, .held va)) :
    s.sInRead c k r = s1 := by
  unfold State.sInRead
  simp only [Nat.not_le.mpr hb, if_false, e]
/-- What a command is after a beat of it has been read, or stopped at a page fault. -/
theorem State.run_sBeat (s : State) (c : Ctx) (k : Nat) (r : StreamRec) (copy : Bool) (b : Nat) :
    ((s.sBeat c k r copy b).2.2 = .none → (s.sBeat c k r copy b).1.run c k = { s.run c k with part := [] }) ∧
    (∀ va, (s.sBeat c k r copy b).2.2 = .held va → ∃ part f, (s.sBeat c k r copy b).1.run c k = { s.run c k with
      part := part, st := .held, heldAt := f, heldVa := BitVec.ofNat 64 va, full := false, slip := true }) := by
  unfold State.sBeat
  dsimp only
  generalize beatPieces _ _ = ps
  obtain ⟨s1, bs, f, e, run, h⟩ := s.engBeat_cases c k r.poison false ps
  have same : s1.run c k = s.run c k := by
    have := s.engRun_runs (s.taskAt c) k r.poison (piecesPast (s.run c k).part.length ps)
    rw [run] at this
    unfold State.run
    rw [this]
  rcases h with ⟨rfl, h⟩ | ⟨he, h⟩
  · rw [h]
    exact ⟨fun _ => by rw [State.run_putRun, same], nofun⟩
  · rw [h]
    refine ⟨fun h => absurd h he, fun va hv => ?_⟩
    dsimp only at hv
    subst hv
    refine ⟨(s.run c k).part ++ bs, f, ?_⟩
    unfold State.stopRun
    dsimp only
    rw [State.run_putRun, State.run_putRun, same]
/-- A beat of one element in a sound granule, of which nothing has been read, is what the task sees there. -/
theorem State.sBeat_sound (s : State) (c : Ctx) (k : Nat) (r : StreamRec) (copy : Bool) (b pa : Nat) (hr : r.esize = 4)
    (hb : b < StreamRec.beats r copy) (hp : (s.run c k).part = [])
    (piece : ∃ t, s.engPiece (s.taskAt c) k b r.poison false
      (addOff (s.sBase c k r) (nestOff (StreamRec.levels r copy) b)) 16 =
        (t, (s.taskBytes (s.taskAt c) pa 16).map (fun b => (b, false)), .none))
    (ha : addOff (s.sBase c k r) (nestOff (StreamRec.levels r copy) b) % 16 = 0) :
    (s.sBeat c k r copy b).2.1 = StreamRec.capOf r ((s.taskBytes (s.taskAt c) pa 16).map (fun b => (b, false))) := by
  obtain ⟨t, piece⟩ := piece
  unfold State.sBeat State.engBeat
  simp only [StreamRec.iters_wide hr copy hb, StreamRec.bytes_wide hr, beatPieces, List.map_cons, List.map_nil,
    List.flatMap_cons, List.flatMap_nil, vaPieces_aligned ha, hp, List.length_nil, piecesPast, State.engRun, piece,
    List.append_nil, List.nil_append, if_true]

end Sys2Proof.Machine

namespace Sys2Proof.Proofs

open Sys2Proof.Machine Sys2Proof.Claims Sys2Proof.Laws

/-- A beat that has been read is latched with its number; a page fault holds the command before it. -/
theorem streamBeatsArrive : StreamBeatsArrive := by
  intro s s1 c k r v
  dsimp only
  intro hi ht hl hb
  have arm : exec (.streamReadArrives c k) s = .next (s.readArrives c k.toNat) := rfl
  have after := s.run_sBeat c k.toNat r false (s.run c k.toNat).done
  rw [arm, s.readArrives_sIn c k.toNat r hi ht hl]
  refine ⟨fun e => ?read, fun va e => ?held, fun pa tag hr e ha hp hx hd hacc hh hc => ?bytes⟩
  case read =>
    rw [State.sInRead_latches hb e]
    rw [e] at after
    refine ⟨_, rfl, ?_⟩
    have run := after.1 rfl
    unfold State.latchBeat
    rw [State.run_putRun, run]
    exact ⟨rfl, rfl, rfl, rfl, fun j => mget_mset (s.run c k.toNat).latch j _ (some v), rfl⟩
  case held =>
    rw [State.sInRead_holds hb e]
    rw [e] at after
    obtain ⟨part, f, run⟩ := after.2 va rfl
    rw [run]
    exact ⟨rfl, rfl, rfl, rfl, rfl⟩
  case bytes =>
    have piece := s.engPiece_sound (s.taskAt c) k.toNat (s.run c k.toNat).done r.poison _ 16 pa tag hx hd hacc hh hc
    have beat := s.sBeat_sound c k.toNat r false _ pa hr hb hp piece ha
    rw [e] at beat
    rw [show v = _ from beat]
    exact StreamRec.capOf_wide hr _ (length_byteList _ 16 pa)

end Sys2Proof.Proofs
end

section
/-!
WRITE_BEAT_ACCEPTED and WINDOW_END of the stream engine (R16, R17, R45, R72, R79, R206, R240, R242).
-/

namespace Sys2Proof.Machine

open Sys2Proof.Laws

/-! ## WRITE_BEAT_ACCEPTED (R240, R242) -/

/-- A command's write by a head, through an extent that allows it, is its store (R246, R256). -/
theorem State.engPut_head (s : State) (id cmd pos va pa tag : Nat) (poison dead : Bool) (bs : List Byte)
    (hx : pteBit (mget (s.task id).extents (va / 65536)).toNat 0 = true) (hl : (s.task id).laidGranule va = false)
    (hh : s.isHead id = true) (ha : s.extAcc (s.task id) .store va = .ok pa poison dead tag) (he : s.hardMem pa = false)
    (hc : s.checkOk (pa / 64) = true) :
    ∃ w, s.engPut id cmd pos false false va bs = (w.visible id [pa / 64] [], .none) ∧
      w.mem = putBytes s.mem pa bs ∧ w.runs = s.runs ∧ w.saves = s.saves ∧ s.Alike w := by
  obtain ⟨w, store, rest⟩ := s.storePa_head id va pa bs cmd pos hl hh hc
  refine ⟨w, ?_, rest⟩
  unfold State.engPut State.storeAcc
  simp only [Bool.false_eq_true, if_false, s.freshen_present id true va hx, ha, he, Option.any_none, store]

/-- A beat not yet taken is not accepted. -/
theorem State.writeAccepted_untaken (s : State) (c : Ctx) (k : Nat) (r : StreamRec) (hi : (s.run c k).ins = some (.sOut r))
    (hn : mget (s.run c k).taken (s.run c k).done = none) : s.writeAccepted c k = s := by
  unfold State.writeAccepted State.sOutWrite
  simp only [hi, hn, ite_self]
/-- A beat of one element that has been taken is written whole by its one lane. -/
theorem State.writeAccepted_wide (s : State) (c : Ctx) (k : Nat) (r : StreamRec) (v : Cap) (u : State)
    (hi : (s.run c k).ins = some (.sOut r)) (ht : (s.run c k).tries = true) (hr : r.esize = 4)
    (hv : mget (s.run c k).taken (s.run c k).done = some v) (hb : (s.run c k).done < StreamRec.beats r false)
    (hf : (s.run c k).f ≤ (s.run c k).done)
    (put : s.engPut (s.taskAt c) k (s.run c k).done false false
      (addOff (s.sBase c k r) (nestOff (StreamRec.levels r false) (s.run c k).done)) (leList 16 v.data.toNat) = (u, .none)) :
    s.writeAccepted c k = (u.putRun c k (fun y => { y with f := (s.run c k).done + 1 })).putRun c k (fun y =>
      { y with st := .running, full := false, done := (s.run c k).done + 1, taken := mset y.taken (s.run c k).done none }) := by
  have lane : StreamRec.laneBytes r v 0 = leList 16 v.data.toNat := by
    unfold StreamRec.laneBytes
    rw [if_neg (by rw [hr]; decide), Nat.zero_mul, List.drop_zero, StreamRec.bytes_wide hr,
      List.take_of_length_le (length_leList 16 _).le]
  have iters := StreamRec.iters_wide hr false hb
  rw [StreamRec.perBeat_wide hr] at iters
  unfold State.writeAccepted State.sOutWrite State.putBeat
  simp only [ht, Bool.not_true, Bool.false_eq_true, if_false, hi, hv, StreamRec.perBeat_wide hr, iters, List.map_cons,
    List.map_nil, Nat.mul_one, Nat.sub_self, lane, List.filter_cons, hf, decide_true, if_true,
    List.filter_nil, State.putLanes, put]

/-- Byte n of the bytes of a number. -/
theorem getD_leList (m v n : Nat) (h : n < m) : (leList m v).getD n 0 = BitVec.ofNat 8 (v / 256 ^ n) := by
  induction m generalizing v n with
  | zero => exact absurd h (Nat.not_lt_zero n)
  | succ m ih =>
    cases n with
    | zero => rw [Nat.pow_zero, Nat.div_one]; rfl
    | succ n =>
      show (leList m (v / 256)).getD n 0 = _
      rw [ih _ n (Nat.lt_of_succ_lt_succ h), Nat.div_div_eq_div_mul, Nat.pow_succ, Nat.mul_comm]

/-! ## WINDOW_END (R16, R17, R45, R206) -/

theorem State.excused_iff (s : State) (c : Ctx) (k : Nat) : s.excused c k = true ↔ Claims.Excused s c k := by
  unfold State.excused Claims.Excused
  simp only [Bool.or_eq_true, Bool.and_eq_true, beq_iff_eq, decide_eq_true_eq, Option.any_eq_true]
/-- A fault without a once-per-generation rule adds its record to the queue (R158, R159). -/
theorem State.fabricFault_queued (s : State) (c : Ctx) (code : BitVec 8) (addr : Word) (cmd elem pos : Nat) (byElem : Bool)
    (h : onceCode code = false) : ∃ r, (s.fabricFault c code addr cmd elem pos byElem).faultQ = s.faultQ ++ [r] ∧
      r.code = code ∧ r.pos = BitVec.ofNat 64 pos := by
  have doom : ∀ (t : State) g d x, (t.doom g d x).faultQ = t.faultQ := fun t g d x => by unfold State.doom; split <;> rfl
  unfold State.fabricFault
  dsimp only
  rw [doom]
  unfold State.record
  simp only [h, Bool.false_and, Bool.false_eq_true, if_false]
  exact ⟨_, rfl, rfl, rfl⟩
/-- What is missing stalls the island behind a hold, and is late otherwise. -/
theorem State.windowMiss_missed (s : State) (c : Ctx) (k : Nat) (i : Instr) : Claims.Missed s (s.windowMiss c k i) c k i := by
  unfold Claims.Missed State.windowMiss
  refine ⟨fun he h hh => ?_, fun he => ?_⟩
  · rw [if_pos ((s.excused_iff c k).mpr he)]
    unfold State.stallIsl
    rw [hh]
    exact ⟨congrArg Isl.stall (s.isl_setIsl_same ..), rfl⟩
  · rw [if_neg (fun h => he ((s.excused_iff c k).mp h))]
    obtain ⟨r, queued, code, pos⟩ :=
      s.fabricFault_queued c 0x11 (BitVec.ofNat 64 0) k 0 (s.islOfCmd c i).ctr false (by decide)
    exact ⟨r, queued, code, pos, (s.fabricFault_reported ..).runs⟩

section
variable {s : State} {c : Ctx} {k w : Nat} {i : Instr}

/-- Before its window a command does nothing. -/
theorem State.windowEnd_before (hi : (s.run c k).ins = some i) (hw : windowOf i = some w) (h : s.since c k < w) :
    s.windowEnd c k = s := by
  unfold State.windowEnd
  simp only [hi, hw, Option.any_some, h, decide_true, Bool.or_true, if_true]
/-- From its window on, a reading command captures its beats. -/
theorem State.windowEnd_reads (hi : (s.run c k).ins = some i) (hl : (s.run c k).live = true) (hw : windowOf i = some w)
    (h : w ≤ s.since c k) {e blk n : Nat} (hc : Claims.captureSpec s c i = some (e, blk, n)) :
    s.windowEnd c k = s.capBeat c k i e blk n := by
  have isOpen : (!(s.run c k).live || (windowOf i).any (fun w => decide (s.since c k < w))) = false := by
    simp [hl, hw, h]
  unfold State.windowEnd
  simp only [hi, isOpen, Bool.false_eq_true, if_false]
  revert hc
  fun_cases Claims.captureSpec s c i
  case case7 => exact nofun
  all_goals
    rintro ⟨⟩
    rfl
/-- From its window on, a writing command joins. -/
theorem State.windowEnd_writes (hi : (s.run c k).ins = some i) (hl : (s.run c k).live = true) (hw : windowOf i = some w)
    (h : w ≤ s.since c k)
    (hk : (∃ r, i = .sOut r ∨ i = .sScat r ∨ i = .sCopy r ∨ i = .sInPlane r) ∨ ∃ r, i = .camScat r) :
    s.windowEnd c k = s.joinBeat c k i := by
  have isOpen : (!(s.run c k).live || (windowOf i).any (fun w => decide (s.since c k < w))) = false := by
    simp [hl, hw, h]
  unfold State.windowEnd
  simp only [hi, isOpen, Bool.false_eq_true, if_false]
  rcases hk with ⟨r, rfl | rfl | rfl | rfl⟩ | ⟨r, rfl⟩ <;> rfl

/-! What a capture does (R16, R45): it ends a command without beats left, keeps to one beat in a cycle, takes the beat that is
due to M, or finds it missing. -/

theorem State.capBeat_over (hw : windowOf i = some w) {elem blk total : Nat} (h : total ≤ s.since c k - w) :
    s.capBeat c k i elem blk total = s.putRun c k (fun x => { x with st := .ended }) := by
  unfold State.capBeat
  simp only [hw, Option.getD_some, h, if_true]
theorem State.capBeat_captured (hw : windowOf i = some w) {elem blk total : Nat} (h : s.since c k - w < total)
    (hd : s.since c k - w < (s.run c k).captured) : s.capBeat c k i elem blk total = s := by
  unfold State.capBeat
  simp only [hw, Option.getD_some, Nat.not_le.mpr h, if_false, hd, if_true]
theorem State.capBeat_due (hw : windowOf i = some w) {elem blk total : Nat} (h : s.since c k - w < total)
    (hd : (s.run c k).captured ≤ s.since c k - w) {v : Cap} (hv : mget (s.run c k).latch (s.since c k - w) = some v) :
    s.capBeat c k i elem blk total = (s.aimM c elem v blk).putRun c k (fun x => { x with
      latch := mcut 0 (s.since c k - w + 1) x.latch, captured := s.since c k - w + 1
      st := if s.since c k - w + 1 = total then .ended else x.st }) := by
  unfold State.capBeat CmdRun.beat
  simp only [hw, Option.getD_some, Nat.not_le.mpr h, if_false, Nat.not_lt.mpr hd, hv]
theorem State.capBeat_missing (hw : windowOf i = some w) {elem blk total : Nat} (h : s.since c k - w < total)
    (hd : (s.run c k).captured ≤ s.since c k - w) (hv : mget (s.run c k).latch (s.since c k - w) = none) :
    s.capBeat c k i elem blk total = s.windowMiss c k i := by
  unfold State.capBeat CmdRun.beat
  simp only [hw, Option.getD_some, Nat.not_le.mpr h, if_false, Nat.not_lt.mpr hd, hv]

end

end Sys2Proof.Machine

namespace Sys2Proof.Proofs

open Sys2Proof.Machine Sys2Proof.Claims Sys2Proof.Laws

/-- A beat of a head is one store and one visibility event. -/
theorem streamBeatsWritten : StreamBeatsWritten := by
  intro s c k r
  dsimp only
  intro hi ht
  have arm : exec (.writeBeatAccepted c k) s = .next (s.writeAccepted c k.toNat) := rfl
  rw [arm]
  refine ⟨fun hn => by rw [s.writeAccepted_untaken c k.toNat r hi hn], ?_⟩
  intro v pa p dead tag hv hr hb hf _ hh hx hl ha he hc hv'
  obtain ⟨w, put, mem, runs, saves, alike⟩ := s.engPut_head (s.taskAt c) k.toNat (s.run c k.toNat).done _ pa tag p dead
    (leList 16 v.data.toNat) hx hl hh ha he hc
  obtain ⟨bytes, cmds⟩ := State.visible_out alike saves (s.taskAt c) [pa / 64]
  have run : (w.visible (s.taskAt c) [pa / 64] []).run c k.toNat = s.run c k.toNat := by
    rw [cmds c k.toNat k.isLt hv']
    unfold State.run
    rw [runs]
  rw [s.writeAccepted_wide c k.toNat r v _ hi ht hr hv hb hf put]
  refine ⟨_, rfl, ?_⟩
  rw [State.run_putRun, State.run_putRun, run]
  refine ⟨rfl, rfl, mget_mset_same (s.run c k.toNat).taken _ none, fun y hy => ?_⟩
  have stored : (w.visible (s.taskAt c) [pa / 64] []).byte y = w.byte y := bytes y fun q hq h => hy ⟨q, hq, h⟩
  refine stored.trans ?_
  unfold State.byte
  rw [mem, mget_putBytes, length_leList]
  split
  · exact getD_leList 16 _ _ (by omega)
  · rfl

/-- A window is one capture of the beat that is due, or one test of what has been accepted. -/
theorem windowEnds : WindowEnds := by
  intro s c k i w
  dsimp only
  intro hi hl hw
  have arm : exec (.windowEnd c k) s = .next (s.windowEnd c k.toNat) := rfl
  rw [arm]
  refine ⟨fun h => by rw [State.windowEnd_before hi hw h], fun h e blk n hc => ?reads, fun h hk => ?writes⟩
  case reads =>
    rw [State.windowEnd_reads hi hl hw h hc]
    refine ⟨fun hn => ?_, fun hn hd => by rw [State.capBeat_captured hw hn hd], fun v hn hd hv => ?_, fun hn hd hv => ?_⟩
    · rw [State.capBeat_over hw hn]
      exact ⟨_, rfl, s.run_putRun ..⟩
    · rw [State.capBeat_due hw hn hd hv]
      refine ⟨_, rfl, ?_⟩
      rw [State.run_putRun]
      refine ⟨congrArg Elem.mNext (s.elem_setElem_same ..), rfl, rfl, fun j => ?_, rfl⟩
      refine (mget_mcut 0 _ (s.run c k.toNat).latch j).trans (if_congr ?_ rfl rfl)
      omega
    · rw [State.capBeat_missing hw hn hd hv]
      exact ⟨_, rfl, s.windowMiss_missed c k.toNat i⟩
  case writes =>
    rw [State.windowEnd_writes hi hl hw h hk]
    unfold State.joinBeat
    refine ⟨fun hn => ?_, fun hn => ?_⟩
    · rw [if_pos hn]
      exact ⟨_, rfl, s.run_putRun .., rfl⟩
    · rw [if_neg (Nat.not_le.mpr hn)]
      exact ⟨_, rfl, s.windowMiss_missed c k.toNat i⟩

/-- Settles O17: windows by the cases of a capture and of a join, arrivals by the reads of a beat, and writes by the one store
of a lane. -/
theorem windowsAndBeats : Obligations.WindowsAndBeats := ⟨windowEnds, streamBeatsArrive, streamBeatsWritten⟩

end Sys2Proof.Proofs
end

section
/-!
The events of islands: ISLAND_CYCLE, INTERVAL_SAMPLE, ISLAND_FINISH and LOCK_ENTRY_AVAILABLE (R43 to R45, R167 to R170, R200 to
R207).
-/

namespace Sys2Proof.Machine

open Sys2Proof.Laws

/-! ## Elements and islands after writes -/

theorem eKey_ne (c : Ctx) {e g : Nat} (h : g ≠ e) : eKey c g ≠ eKey c e := fun k => h (Nat.add_left_cancel k)
theorem iKey_ne (c : Ctx) {i j : Nat} (h : j ≠ i) : iKey c j ≠ iKey c i := fun k => h (Nat.add_left_cancel k)

/-- `t` differs from `s` in elements alone. -/
def State.OnlyElems (s t : State) : Prop := t = { s with elems := t.elems }

theorem State.OnlyElems.setElem {s t : State} (h : s.OnlyElems t) (c : Ctx) (e : Nat) (x : Elem) :
    s.OnlyElems (t.setElem c e x) := congrArg (fun u : State => u.setElem c e x) h
theorem State.setElems_only (s : State) (c : Ctx) (f : Nat → Elem) (l : List Nat) :
    s.OnlyElems (l.foldl (fun t e => t.setElem c e (f e)) s) :=
  List.foldlRecOn (motive := s.OnlyElems) l _ rfl fun _ h e _ => h.setElem c e (f e)
/-- What an element is after writes of several elements. -/
theorem State.elem_setElems (s : State) (c : Ctx) (f : Nat → Elem) (l : List Nat) (g : Nat) :
    (l.foldl (fun t e => t.setElem c e (f e)) s).elem c g = if g ∈ l then f g else s.elem c g := by
  induction l generalizing s with
  | nil => rfl
  | cons e l ih =>
    rw [List.foldl_cons, ih]
    by_cases h : g = e
    · subst h; simp
    · rw [State.elem_setElem_ne _ (eKey_ne c h)]
      simp [h]

@[simp] theorem State.elem_setIsl (s : State) (c d : Ctx) (i e : Nat) (x : Isl) : (s.setIsl c i x).elem d e = s.elem d e := rfl
theorem State.Reported.isls {s t : State} (h : s.Reported t) : t.isls = s.isls := by rw [h]

theorem mem_islElems {d : IslandDesc} {e : Nat} : e ∈ islElems d ↔ e < 512 ∧ islHas d e = true := by simp [islElems]

/-! ## ISLAND_CYCLE (R44, R45, R167, R169, R170) -/

section
variable {s : State} {c : Ctx} {k i : Nat}

/-- A command that is not live does nothing at the end of an island cycle, and takes nothing. -/
theorem State.mxAdvance_idle (h : (s.run c k).live = false) : s.mxAdvance c k = s := by
  unfold State.mxAdvance
  simp only [h, Bool.not_false, if_true]
theorem State.takeCmd_idle (h : (s.run c k).live = false) : s.takeCmd c k = s := by
  unfold State.takeCmd State.takesOf
  simp only [h, Bool.not_false, if_true, List.foldl_nil, Bool.false_eq_true, if_false]
  split <;> rfl

/-- An island's lines shift and capture, and its elements push their results on its links. -/
def State.shiftLines (s : State) (c : Ctx) (i : Nat) : State :=
  let es := islElems ((s.plane c).isls.getD i {})
  let t := es.foldl (fun t e => t.setElem c e (s.captureElem c i e)) s
  { t with links := s.pushLinks c i es, free := t.free + 8192 }
/-- The commands of an island in the order in which they act, loads first. -/
def State.actingCmds (s : State) (c : Ctx) (i : Nat) : List Nat :=
  ((s.cmdsOf c i).filter (fun p => isLoad p.2)).map (·.1) ++ ((s.cmdsOf c i).filter (fun p => !isLoad p.2)).map (·.1)

theorem State.elem_shiftLines (s : State) (c : Ctx) (i e : Nat) : (s.shiftLines c i).elem c e =
    if e ∈ islElems ((s.plane c).isls.getD i {}) then s.captureElem c i e else s.elem c e := by
  rw [← s.elem_setElems c (s.captureElem c i)]
  unfold State.shiftLines
  generalize islElems _ = es
  rfl
/-- An island's cycle shifts the lines of its own elements and of no other. -/
theorem State.elem_shiftLines_in {e : Nat} (he : e < 512) (h : islHas ((s.plane c).isls.getD i {}) e = true) :
    (s.shiftLines c i).elem c e = s.captureElem c i e :=
  (s.elem_shiftLines c i e).trans (if_pos (mem_islElems.mpr ⟨he, h⟩))
theorem State.elem_shiftLines_out {e : Nat} (h : islHas ((s.plane c).isls.getD i {}) e = false) :
    (s.shiftLines c i).elem c e = s.elem c e :=
  (s.elem_shiftLines c i e).trans (if_neg fun k => Bool.false_ne_true (h.symm.trans (mem_islElems.mp k).2))
/-- The captures of a cycle and its pushes change elements and links alone. -/
theorem State.shiftLines_rest (s : State) (c : Ctx) (i : Nat) : s.shiftLines c i =
    { s with elems := (s.shiftLines c i).elems, links := (s.shiftLines c i).links, free := (s.shiftLines c i).free } := by
  unfold State.shiftLines
  generalize islElems _ = es
  dsimp only
  rw [s.setElems_only c _ es]

theorem State.idle_of_mem_actingCmds (hn : Claims.NoCommand s c i) (hk : k ∈ s.actingCmds c i) : (s.run c k).live = false := by
  obtain ⟨p, hp, rfl⟩ : ∃ p ∈ s.cmdsOf c i, p.1 = k := by
    rcases List.mem_append.mp hk with h | h
    all_goals
      obtain ⟨p, hp, e⟩ := List.mem_map.mp h
      exact ⟨p, List.mem_of_mem_filter hp, e⟩
  exact hn p hp

theorem foldl_fixed_of_mem {f : State → Nat → State} {l : List Nat} (h : ∀ k ∈ l, f s k = s) : l.foldl f s = s :=
  List.foldlRecOn (motive := fun t : State => t = s) l f rfl fun _ ht k hk => ht.symm ▸ h k hk

/-- A cycle that has not been taken up, or that stalls, does not end. -/
theorem State.islandCycle_stopped (h : (s.isl c i).running = false ∨ (s.isl c i).issued = false ∨ (s.isl c i).stall = true) :
    s.islandCycle c i = s := by
  unfold State.islandCycle
  refine if_pos ?_
  rcases h with h | h | h <;> simp [h]
/-- In a cycle that ends, the commands act; where none of them stalls it, they take, and the lines shift. -/
theorem State.islandCycle_taken (hr : (s.isl c i).running = true) (hi : (s.isl c i).issued = true)
    (hs : (s.isl c i).stall = false) (hz : (s.isl c i).zero = 0) :
    s.islandCycle c i =
      let s1 := (s.actingCmds c i).foldl (fun t k => t.mxAdvance c k) s
      if (s1.isl c i).stall then s1
      else
        let s3 := ((s.actingCmds c i).foldl (fun t k => t.takeCmd c k) s1).shiftLines c i
        s3.setIsl c i { s3.isl c i with
          ctr := (s.isl c i).ctr + 1, abs := (s.isl c i).abs + 1, issued := false, moved := s.cycle } := by
  unfold State.islandCycle State.actingCmds State.shiftLines
  simp only [hr, hi, hs, hz, Bool.not_true, Bool.or_self, bne_self_eq_false, Bool.false_eq_true, if_false]
/-- A cycle in which no command acts shifts the lines and advances the counter. -/
theorem State.islandCycle_free (hr : (s.isl c i).running = true) (hi : (s.isl c i).issued = true)
    (hs : (s.isl c i).stall = false) (hz : (s.isl c i).zero = 0) (hn : Claims.NoCommand s c i) :
    s.islandCycle c i = (s.shiftLines c i).setIsl c i { s.isl c i with
      ctr := (s.isl c i).ctr + 1, abs := (s.isl c i).abs + 1, issued := false, moved := s.cycle } := by
  have acts : (s.actingCmds c i).foldl (fun t k => t.mxAdvance c k) s = s :=
    foldl_fixed_of_mem fun k hk => State.mxAdvance_idle (State.idle_of_mem_actingCmds hn hk)
  have takes : (s.actingCmds c i).foldl (fun t k => t.takeCmd c k) s = s :=
    foldl_fixed_of_mem fun k hk => State.takeCmd_idle (State.idle_of_mem_actingCmds hn hk)
  have isls : (s.shiftLines c i).isl c i = s.isl c i := by
    unfold State.isl
    rw [State.shiftLines_rest]
  rw [State.islandCycle_taken hr hi hs hz, acts]
  dsimp only
  rw [takes, if_neg (hs ▸ Bool.false_ne_true), isls]

/-- A register whose landing window has ended is captured as it is. -/
theorem Elem.seeRes_landed {x : Elem} {n : Nat} (h : x.resU ≤ n) (free : Nat) : x.seeRes n free = x.res :=
  if_neg (Nat.not_lt.mpr h)
/-- A line captures, at age 1, what lies behind its direction. -/
theorem State.lineTo_captureElem (s : State) (c : Ctx) (i e : Nat) (d : Dir) :
    Claims.lineTo d (s.captureElem c i e) =
      push16 (s.fromDir c i e d (s.free + 16 * e + dirNum d)).1 (Claims.lineTo d (s.elem c e)) := by
  cases d <;> rfl
/-- Within an island a line captures the neighbour's result. -/
theorem State.fromDir_within {e n : Nat} {d : Dir} (hn : neighbour e d = some n) (hi : i < 64)
    (h : islandIx (s.plane c).isls n = i) (free : Nat) :
    (s.fromDir c i e d free).1 = (s.elem c n).seeRes (s.isl c i).abs free := by
  unfold State.fromDir
  simp only [hn, h, Nat.ne_of_lt hi, if_false, if_true]
/-- M captures the bank read that is due, and else what an engine aimed at it. -/
theorem State.captureElem_bankRd {e : Nat} {v : Cap} (h : mget (s.elem c e).bankRd (s.isl c i).abs = some v) :
    (s.captureElem c i e).lm = push16 v (s.elem c e).lm := by
  unfold State.captureElem
  simp only [h]
theorem State.captureElem_aimed {e b : Nat} {v : Cap} (h : mget (s.elem c e).bankRd (s.isl c i).abs = none)
    (hm : (s.elem c e).mNext = some (v, b)) : (s.captureElem c i e).lm = push16 v (s.elem c e).lm := by
  unfold State.captureElem
  simp only [h, hm, Option.getD_some]

/-! ## INTERVAL_SAMPLE (R43, R200, R202, R203) -/

theorem State.intervalSample_within (h : ¬ Claims.IntervalDue s c i) : s.intervalSample c i = s := by
  unfold State.intervalSample
  refine if_pos ?_
  by_contra k
  refine h ?_
  unfold Claims.IntervalDue
  simpa [and_assoc] using k
/-- At an interval's end the island is over, or its selector is sampled. -/
theorem State.intervalSample_due (h : Claims.IntervalDue s c i) : s.intervalSample c i =
    let x := s.isl c i
    let d := (s.plane c).isls.getD i {}
    let e := d.selRow * 32 + d.selCol
    let f := if d.hasB then (s.elem c e).seeFlag (x.abs - 1) s.free else (false, false)
    if x.left ≤ 1 then s.setIsl c i { x with left := 0, past := true }
    else if f.2 then s.fabricFault c 0x13 0 0 e (x.ctr - 1) true
    else { s.setIsl c i { x with left := x.left - 1, schedB := f.1, base := if f.1 = x.schedB then x.ctr else x.ctr + 3 } with
      free := s.free + 1 } := by
  have due : (!(s.isl c i).running || (s.isl c i).past || (s.isl c i).issued || (s.isl c i).zero != 0 ||
      (s.isl c i).ctr != (s.isl c i).base + ((s.plane c).isls.getD i {}).period) = false := by
    obtain ⟨running, past, issued, zero, ctr⟩ := h
    simp [running, past, issued, zero, ctr]
  unfold State.intervalSample
  simp only [due, Bool.false_eq_true, if_false, beq_iff_eq]
  rfl

/-- A selector's flag whose landing window has ended is sampled as it is. -/
theorem Elem.seeFlag_landed {x : Elem} {n : Nat} (h : x.flagU ≤ n) (free : Nat) : x.seeFlag n free = (x.flag, x.flagPoison) :=
  if_neg (Nat.not_lt.mpr h)

/-! ## ISLAND_FINISH (R43, R122, R207) -/

/-- A thread that waits is woken. -/
def Thread.wake (t : Thread) : Thread := if t.idle.isSome then { t with woken := true } else t

theorem State.islandFinish_before (h : ¬ ((s.isl c i).running = true ∧ (s.isl c i).issued = false ∧
    (s.isl c i).past = true ∧ (s.isl c i).zero = 0 ∧ Claims.NoCommand s c i)) : s.islandFinish c i = s := by
  unfold State.islandFinish
  refine if_pos ?_
  by_contra k
  refine h ?_
  unfold Claims.NoCommand
  simpa [and_assoc] using k
/-- An island that finishes changes itself, the elements whose captures it fills with zeros, and the thread that waits. -/
theorem State.islandFinish_done (hr : (s.isl c i).running = true) (hi : (s.isl c i).issued = false)
    (hp : (s.isl c i).past = true) (hz : (s.isl c i).zero = 0) (hn : Claims.NoCommand s c i) :
    ∃ u, (s.setIsl c i { s.isl c i with running := false, finished := true }).OnlyElems u ∧
      s.islandFinish c i = u.modThr c Thread.wake := by
  have idle : (s.cmdsOf c i).any (fun p => (s.run c p.1).live) = false := by
    rw [List.any_eq_false]
    exact fun p hp => Bool.not_eq_true _ ▸ hn p hp
  unfold State.islandFinish
  simp only [hr, hi, hp, hz, idle, Bool.not_true, Bool.or_self, bne_self_eq_false, Bool.false_eq_true, if_false]
  generalize islElems _ = es
  refine ⟨_, ?_, rfl⟩
  refine List.foldlRecOn (motive := State.OnlyElems _) es _ rfl fun t ht e _ => ?_
  refine List.foldlRecOn (motive := State.OnlyElems _) dirs _ ht fun t ht d _ => ?_
  split
  · exact ht.setElem ..
  · exact ht

end

/-! ## LOCK_ENTRY_AVAILABLE (R205 to R207) -/

/-- A lock entry at a real cycle: available from its time on. -/
def LinkEnt.ripen (now : Nat) (y : LinkEnt) : LinkEnt := { y with avail := y.avail || decide (y.at' ≤ now) }

theorem LinkEnt.ripen_eq (now : Nat) (y : LinkEnt) :
    (if y.at' ≤ now then { y with avail := true } else y) = y.ripen now := by
  unfold LinkEnt.ripen
  split <;> simp [*]

/-- A capture of a line that is filled: one that waits for its number takes what has it. -/
theorem getElem?_fillCaps (abs : Nat) (f : Nat → Option Cap) (l : List Cap) (p : Nat) :
    (fillCaps abs f l)[p]? = l[p]?.map (fun v => if v.pend && p < abs then (f (abs - 1 - p)).getD v else v) := by
  unfold fillCaps
  simp [List.getElem?_zipIdx, Function.comp_def]
theorem Elem.lineTo_setLc (x : Elem) (l : List CCap) (d : Dir) : Claims.lineTo d { x with lc := l } = Claims.lineTo d x := by
  cases d <;> rfl
/-- A fill of one direction leaves the lines of the others alone. -/
theorem Elem.lineTo_fill (x : Elem) (d d' : Dir) (cdir : Option Dir) (abs : Nat) (f : Nat → Option (Cap × CCap)) :
    Claims.lineTo d' (x.fill d cdir abs f) =
      if d' = d then fillCaps abs (fun n => (f n).map (·.1)) (Claims.lineTo d' x) else Claims.lineTo d' x := by
  unfold Elem.fill
  dsimp only
  rw [apply_ite (Claims.lineTo d'), Elem.lineTo_setLc, ite_self]
  cases d <;> cases d' <;> rfl

section
variable (s : State) (c : Ctx) (e : Nat) (d : Dir)

/-- The entries of a link, each available from its time on. -/
def State.ripe : List LinkEnt := (s.link c e d).map (LinkEnt.ripen s.cycle)

theorem State.mem_ripe {c : Ctx} {e : Nat} {d : Dir} {y : LinkEnt} :
    y ∈ s.ripe c e d ↔ ∃ z ∈ s.link c e d, y = z.ripen s.cycle := by
  unfold State.ripe
  simp only [List.mem_map, eq_comm]
theorem State.lockAvail_eq : s.lockAvail c e d =
    let abs := (s.islOf c e).abs
    let x := (s.elem c e).fill d (s.cfg c e).cdir abs
      (fun n => ((s.ripe c e d).find? (fun y => y.avail && y.n == n)).map (fun y => (y.cap, y.cc)))
    { s.setElem c e x with
      links := mset s.links (linkKey c e d) ((s.ripe c e d).filter (fun y => !(y.avail && y.n < abs))) } := by
  unfold State.lockAvail State.ripe
  simp only [LinkEnt.ripen_eq]
  rfl
theorem State.lockAvail_rest : s.lockAvail c e d =
    { s with elems := (s.lockAvail c e d).elems, links := (s.lockAvail c e d).links } := rfl
theorem State.link_lockAvail : (s.lockAvail c e d).link c e d =
    (s.ripe c e d).filter (fun y => !(y.avail && y.n < (s.islOf c e).abs)) := by
  rw [State.lockAvail_eq]
  exact mget_mset_same s.links _ _
/-- The line along a link is filled from the entries that are available; the other lines stay. -/
theorem State.lineTo_lockAvail (d' : Dir) : Claims.lineTo d' ((s.lockAvail c e d).elem c e) =
    if d' = d then fillCaps (s.islOf c e).abs
      (fun n => ((s.ripe c e d).find? (fun y => y.avail && y.n == n)).map (·.cap)) (Claims.lineTo d' (s.elem c e))
    else Claims.lineTo d' (s.elem c e) := by
  have filled : (s.lockAvail c e d).elem c e = (s.elem c e).fill d (s.cfg c e).cdir (s.islOf c e).abs
      (fun n => ((s.ripe c e d).find? (fun y => y.avail && y.n == n)).map (fun y => (y.cap, y.cc))) := by
    rw [State.lockAvail_eq]
    exact s.elem_setElem_same c e _
  rw [filled, Elem.lineTo_fill]
  simp only [Option.map_map, Function.comp_def]
theorem State.elem_lockAvail_ne {g : Nat} (h : g ≠ e) : (s.lockAvail c e d).elem c g = s.elem c g :=
  s.elem_setElem_ne (eKey_ne c h) _

end
end Sys2Proof.Machine

namespace Sys2Proof.Proofs

open Sys2Proof.Machine Sys2Proof.Claims Sys2Proof.Laws

/-- The lines of an element after its island's cycle. -/
theorem islandCycles : IslandCycles := by
  intro s c i
  dsimp only
  have arm : exec (.islandCycle c i) s = .next (s.islandCycle c i.toNat) := rfl
  rw [arm]
  refine ⟨fun hr hi hs hz hn => ?_, fun h => by rw [State.islandCycle_stopped h]⟩
  rw [State.islandCycle_free hr hi hs hz hn]
  refine ⟨_, rfl, State.isl_setIsl_same .., fun e he hh => ?inside, fun e _ hh => ?outside, ?bank, ?mem⟩
  case outside => exact (State.elem_setIsl ..).trans (State.elem_shiftLines_out hh)
  case bank => rw [State.setIsl_bank, State.shiftLines_rest]
  case mem => rw [State.setIsl_mem, State.shiftLines_rest]
  rw [State.elem_setIsl, State.elem_shiftLines_in he hh]
  refine ⟨fun hu => ?_, fun dir n hd hx hu => ?_, fun v hv => State.captureElem_bankRd hv,
    fun v b hv hm => State.captureElem_aimed hv hm⟩
  · exact congrArg (push16 · (s.elem c e).ll) (Elem.seeRes_landed hu _)
  · rw [State.lineTo_captureElem, State.fromDir_within hd i.isLt hx, Elem.seeRes_landed hu]
    rfl

/-- The end of an interval by what its selector shows. -/
theorem intervalEnds : IntervalEnds := by
  intro s c i
  dsimp only
  have arm : exec (.intervalSample c i) s = .next (s.intervalSample c i.toNat) := rfl
  rw [arm]
  refine ⟨fun h hl => ?last, fun h hl hb => ?alone, fun h hl hb hu hp => ?chosen, fun h hl hb hu hp => ?poisoned,
    fun h => by rw [State.intervalSample_within h]⟩
  all_goals rw [State.intervalSample_due h]
  case last => simp only [hl, if_true]
  case alone =>
    simp only [Nat.not_le.mpr hl, hb, if_false, Bool.false_eq_true]
    exact ⟨_, rfl, rfl⟩
  case chosen =>
    simp only [Nat.not_le.mpr hl, hb, Elem.seeFlag_landed hu, hp, if_true, if_false, Bool.false_eq_true]
    exact ⟨_, rfl, rfl⟩
  case poisoned =>
    simp only [Nat.not_le.mpr hl, hb, Elem.seeFlag_landed hu, hp, if_true, if_false]
    obtain ⟨r, queued, code, -⟩ := s.fabricFault_queued c 0x13 0 0 _ _ true (by decide)
    exact ⟨_, r, rfl, State.Reported.isls (s.fabricFault_reported ..), queued, code⟩

/-- An island that is over finishes once. -/
theorem islandFinishes : IslandFinishes := by
  intro s c i
  dsimp only
  have arm : exec (.islandFinish c i) s = .next (s.islandFinish c i.toNat) := rfl
  rw [arm]
  refine ⟨fun ⟨hr, hi, hp, hz, hn⟩ => ?_, fun h => by rw [State.islandFinish_before h]⟩
  obtain ⟨u, only, finish⟩ := State.islandFinish_done hr hi hp hz hn
  rw [finish]
  have isl : ∀ j, (u.modThr c Thread.wake).isl c j = (s.setIsl c i.toNat
      { s.isl c i.toNat with running := false, finished := true }).isl c j := fun j => by rw [only]; rfl
  refine ⟨_, rfl, (isl _).trans (State.isl_setIsl_same ..), fun j _ hj => (isl j).trans (s.isl_setIsl_ne (iKey_ne c hj) _),
    fun hw => ?_, ?_⟩
  · have thr : u.thr c = s.thr c := by rw [only]; rfl
    rw [State.thr_modThr_same, thr]
    exact if_pos (Option.isSome_iff_ne_none.mpr hw)
  · rw [only]
    rfl

/-- A lock link by its entries, and the line that looks along it by its captures. -/
theorem lockEntries : LockEntries := by
  intro s c e d
  dsimp only
  refine ⟨s.lockAvail c e.toNat d, rfl, s.lockAvail_rest .., fun y => ?entries, fun p v hv => ?captures, fun d' hd => ?others,
    fun k hk _ => s.elem_lockAvail_ne c e.toNat d hk⟩
  case entries =>
    have stays : (!(y.avail && decide (y.n < (s.islOf c e.toNat).abs))) = true ↔
        ¬ (y.avail = true ∧ y.n < (s.islOf c e.toNat).abs) := by
      rw [Bool.not_eq_true', ← Bool.not_eq_true, Bool.and_eq_true, decide_eq_true_eq]
    rw [State.link_lockAvail, List.mem_filter, State.mem_ripe, stays]
    exact ⟨fun ⟨⟨z, hz, hy⟩, hn⟩ => ⟨z, hz, hy, hn⟩, fun ⟨z, hz, hy, hn⟩ => ⟨⟨z, hz, hy⟩, hn⟩⟩
  case captures =>
    rw [State.lineTo_lockAvail, if_pos rfl, getElem?_fillCaps, hv, Option.map_some]
    refine ⟨fun hp => by simp [hp], fun y hp hlt hy => ?_, fun hz => ?_⟩
    · have found : (s.ripe c e.toNat d).find? (fun z => z.avail && z.n == (s.islOf c e.toNat).abs - 1 - p) = some y := hy
      simp [hp, hlt, found]
    · have missing : (s.ripe c e.toNat d).find? (fun z => z.avail && z.n == (s.islOf c e.toNat).abs - 1 - p) = none := by
        rw [List.find?_eq_none]
        intro y hy
        obtain ⟨z, hl, rfl⟩ := s.mem_ripe.mp hy
        simpa [LinkEnt.ripen] using hz z hl
      simp [missing]
  case others => rw [State.lineTo_lockAvail, if_neg hd]

/-- Settles O16: an island's cycle by one capture of each of its elements, an interval's end by one sample, a finish by one
update of the island and its waiting thread, and a lock entry by one fill of a line. -/
theorem islandEvents : Obligations.IslandEvents := ⟨islandCycles, intervalEnds, islandFinishes, lockEntries⟩

end Sys2Proof.Proofs
end

section
/-!
Lanes, sidebands and results of the timed entries (R48, R54, R59, R170, R176 to R179, R218): what a beat made of lanes holds, and
what an op that acts lane by lane leaves.
-/

namespace Sys2Proof

theorem Ty.width_pos (t : Ty) : 0 < t.width := by cases t <;> decide
/-- The lanes of a type fill a beat. -/
theorem Ty.width_lanes (t : Ty) : t.width * t.lanes = 128 := by cases t <;> rfl

end Sys2Proof

namespace Sys2Proof.Claims

theorem Lanes.congr {w n : Nat} {d : W128} {g h : Nat → Nat} (hd : Lanes w n d g)
    (e : ∀ i < n, g i % 2 ^ w = h i % 2 ^ w) : Lanes w n d h := fun i hi => (hd i hi).trans (e i hi)

end Sys2Proof.Claims

namespace Sys2Proof.Machine

open Sys2Proof.Claims

/-! ## Lanes (R48) -/

theorem laneOf_lt (w : Nat) (d : W128) (i : Nat) : laneOf w d i < 2 ^ w := Nat.mod_lt _ (Nat.two_pow_pos w)
theorem lane_lt (f : EntryF) (o : Cap) (i : Nat) : lane f o i < 2 ^ f.ty.width := laneOf_lt ..

/-- The number of a list of lanes, lane 0 lowest. -/
def lanesNat (w : Nat) (vs : List Nat) : Nat := vs.foldr (fun v acc => v % 2 ^ w + acc * 2 ^ w) 0

theorem packLanes_eq (w : Nat) (vs : List Nat) : packLanes w vs = BitVec.ofNat 128 (lanesNat w vs) := rfl
theorem lanesNat_lt (w : Nat) (vs : List Nat) : lanesNat w vs < 2 ^ (w * vs.length) := by
  induction vs with
  | nil => exact Nat.one_pos
  | cons v vs ih =>
    have hv := Nat.mod_lt v (Nat.two_pow_pos w)
    calc lanesNat w (v :: vs) = v % 2 ^ w + lanesNat w vs * 2 ^ w := rfl
      _ < (lanesNat w vs + 1) * 2 ^ w := by rw [Nat.add_mul]; omega
      _ ≤ 2 ^ (w * vs.length) * 2 ^ w := Nat.mul_le_mul_right _ ih
      _ = 2 ^ (w * (v :: vs).length) := by rw [← Nat.pow_add]; rfl
theorem lanesNat_lane (w : Nat) (vs : List Nat) (i : Nat) :
    lanesNat w vs / 2 ^ (w * i) % 2 ^ w = vs.getD i 0 % 2 ^ w := by
  induction vs generalizing i with
  | nil => simp [lanesNat]
  | cons v vs ih =>
    have step : lanesNat w (v :: vs) = v % 2 ^ w + lanesNat w vs * 2 ^ w := rfl
    cases i with
    | zero => rw [step, Nat.mul_zero, Nat.pow_zero, Nat.div_one, Nat.add_mul_mod_self_right, Nat.mod_mod]; rfl
    | succ i =>
      rw [step, Nat.mul_succ, Nat.add_comm (w * i), Nat.pow_add, ← Nat.div_div_eq_div_mul,
        Nat.add_mul_div_right _ _ (Nat.two_pow_pos w), Nat.div_eq_of_lt (Nat.mod_lt v (Nat.two_pow_pos w)), Nat.zero_add, ih]
      rfl
/-- A lane of a beat that was made of lanes. -/
theorem laneOf_packLanes {w : Nat} {vs : List Nat} (h : w * vs.length ≤ 128) (i : Nat) :
    laneOf w (packLanes w vs) i = vs.getD i 0 % 2 ^ w := by
  have hlt : lanesNat w vs < 2 ^ 128 := (lanesNat_lt w vs).trans_le (Nat.pow_le_pow_right (by decide) h)
  rw [laneOf, packLanes_eq, BitVec.toNat_ofNat, Nat.mod_eq_of_lt hlt, lanesNat_lane]
/-- A beat made of the lanes of a function has them. -/
theorem lanes_packLanes {w n : Nat} (h : w * n ≤ 128) (g : Nat → Nat) :
    Lanes w n (packLanes w ((List.range n).map g)) g := by
  intro i hi
  rw [laneOf_packLanes (by simpa using h)]
  simp [hi]
theorem lanes_of_type (t : Ty) (g : Nat → Nat) :
    Lanes t.width t.lanes (packLanes t.width ((List.range t.lanes).map g)) g := lanes_packLanes t.width_lanes.le g

/-! ## Results (R170) -/

@[simp] theorem elemOf_putMe (s : State) (x : Elem) : elemOf (s.putMe x) = x := s.elem_setElem_same s.cur s.ei x
theorem State.putMe_onlyElem (s : State) (x : Elem) : OnlyElem s (s.putMe x) := by
  unfold OnlyElem
  rw [elemOf_putMe]
  rfl
/-- An op that writes its result changes the acting element alone, and there what R170 says. -/
theorem State.result_issued (s : State) (f : EntryF) (lat : Nat) (x : Elem) (r : Res) :
    ∃ t, s.result f lat x r = .next t ∧ OnlyElem s t ∧ Result f.we x (elemOf t) s.now lat r.data r.side := by
  refine ⟨_, rfl, s.putMe_onlyElem _, ?_⟩
  rw [elemOf_putMe]
  unfold Result
  cases f.we
  · rfl
  · exact ⟨rfl, rfl, rfl, rfl⟩

/-- The draws of an op under `rs`, as the ops of the model take them. -/
theorem drawsOf_eq (f : EntryF) (x : Elem) :
    (if (f.rnd == .rs) = true then drawN ((f.ty.lanes + 3) / 4) x.rand else ([], x.rand)) = drawsOf f x := by
  unfold drawsOf
  simp only [beq_iff_eq]

/-- What an op that acts lane by lane leaves: in each lane its function of the lanes and of the lane's draw (R54, R218). -/
theorem State.laneOp_issued (s : State) (f : EntryF) (lat n : Nat) (g : Nat → Nat → Nat → Nat → Nat) :
    ∃ t data, s.laneOp f lat n g = .next t ∧ OnlyElem s t ∧
      Result f.we (drawn f (elemOf s)) (elemOf t) s.now lat data
        (mkSide (quarterPoison f.ty.width ([s.opA f, s.opB f, s.opC f].take n)) 0) ∧
      Lanes f.ty.width f.ty.lanes data (fun j =>
        g (rs16 (drawsOf f (elemOf s)).1 j) (lane f (s.opA f) j) (lane f (s.opB f) j) (lane f (s.opC f) j)) := by
  unfold State.laneOp
  dsimp only
  rw [show (if (f.rnd == .rs) = true then _ else _) = _ from drawsOf_eq f s.me]
  obtain ⟨t, next, only, result⟩ := s.result_issued f lat (drawn f (elemOf s)) ⟨_, _⟩
  exact ⟨t, _, next, only, result, lanes_of_type _ _⟩

/-! ## Lanes of integer types (R49, R179) -/

theorem decodeInt_eq_asInt {t : Ty} {v : Nat} (h : v < 2 ^ t.width) : decodeInt t v = asInt t v := by
  have hw : 2 ^ t.width = 2 * 2 ^ (t.width - 1) := by
    rw [← Nat.pow_succ', Nat.succ_eq_add_one, Nat.sub_add_cancel t.width_pos]
  unfold decodeInt asInt
  dsimp only
  rw [Nat.mod_eq_of_lt h]
  cases isSigned t
  · rfl
  · rw [BitVec.toInt_eq_toNat_cond, BitVec.toNat_ofNat, Nat.mod_eq_of_lt h]
    simp only [Bool.true_and, decide_eq_true_eq, ge_iff_le, if_true]
    by_cases hn : 2 ^ (t.width - 1) ≤ v
    · rw [if_pos hn, if_neg (by omega)]
      simp
    · rw [if_neg hn, if_pos (by omega)]
theorem lowest_le_highest (t : Ty) : lowest t ≤ highest t := by cases t <;> decide
theorem clampInt_eq {lo hi : Int} (h : lo ≤ hi) (x : Int) : clampInt lo hi x = max lo (min hi x) := by
  unfold clampInt
  split <;> [skip; split] <;> omega
/-- A number as a lane, wrapped or clamped. -/
theorem encodeInt_eq_toLane (t : Ty) (sat : Bool) (v : Int) :
    encodeInt t.width (if sat then clampInt (minInt t) (maxInt t) v else v) = toLane t sat v := by
  unfold encodeInt toLane
  rw [clampInt_eq (show minInt t ≤ maxInt t from lowest_le_highest t)]
  rfl
theorem toLane_lt (t : Ty) (sat : Bool) (v : Int) : toLane t sat v < 2 ^ t.width := by
  have hp : (0 : Int) < 2 ^ t.width := by positivity
  unfold toLane
  have := Int.emod_lt_of_pos (if sat then max (lowest t) (min (highest t) v) else v) hp
  have := Int.emod_nonneg (if sat then max (lowest t) (min (highest t) v) else v) hp.ne'
  zify
  omega
/-- An integer op puts the value of its lanes, wrapped or clamped, into a lane. -/
theorem EntryF.intLane_eq (f : EntryF) (v : Int → Int → Int → Int) {a b c : Nat} (ha : a < 2 ^ f.ty.width)
    (hb : b < 2 ^ f.ty.width) (hc : c < 2 ^ f.ty.width) :
    EntryF.intLane f v a b c = toLane f.ty f.sat (v (asInt f.ty a) (asInt f.ty b) (asInt f.ty c)) := by
  unfold EntryF.intLane
  dsimp only
  rw [encodeInt_eq_toLane, decodeInt_eq_asInt ha, decodeInt_eq_asInt hb, decodeInt_eq_asInt hc]

/-! ## The ops that both kinds of type have (R176, R177, R179) -/

theorem int_min_eq (a b : Int) : (if a < b then a else b) = min a b := by split <;> omega
theorem int_max_eq (a b : Int) : (if a < b then b else a) = max a b := by split <;> omega
theorem int_abs_eq (a : Int) : (if a < 0 then -a else a) = a.natAbs := by split <;> omega

/-- What each of them computes: on the floats of its lanes, or on their integers. -/
theorem exec_of_arithSpec {i : Instr} {f : EntryF} {lf li n : Nat} {vf : Val → Val → Val → Val} {vi : Int → Int → Int → Int}
    (h : arithSpec i = some (f, lf, li, n, vf, vi)) (s : State) :
    exec i s = if isFloat f.ty
      then s.laneOp f lf n (fun r a b c =>
        roundTo f.ty f.rnd (saturates i f) r (vf (decodeFloat f.ty a) (decodeFloat f.ty b) (decodeFloat f.ty c)))
      else s.laneOp f li n (fun _ a b c => EntryF.intLane f vi a b c) := by
  unfold arithSpec at h
  split at h <;> cases h
  case h_7 => simp only [← int_min_eq]; rfl
  case h_8 => simp only [← int_max_eq]; rfl
  case h_9 => simp only [← int_abs_eq]; rfl
  case h_11 => simp only [← int_max_eq, ← int_min_eq]; rfl
  all_goals rfl

/-! ## The ops of one kind of type (R70, R177, R179) -/

/-- The signed value of a lane, whatever the signedness of its type. -/
theorem toInt_lane {t : Ty} {a : Nat} (h : a < 2 ^ t.width) :
    (BitVec.ofNat t.width a).toInt = if a ≥ 2 ^ (t.width - 1) then (a : Int) - 2 ^ t.width else a := by
  have hw : 2 ^ t.width = 2 * 2 ^ (t.width - 1) := by
    rw [← Nat.pow_succ', Nat.succ_eq_add_one, Nat.sub_add_cancel t.width_pos]
  rw [BitVec.toInt_eq_toNat_cond, BitVec.toNat_ofNat, Nat.mod_eq_of_lt h]
  by_cases hn : 2 ^ (t.width - 1) ≤ a
  · rw [if_pos hn, if_neg (by omega)]
    simp
  · rw [if_neg hn, if_pos (by omega)]
/-- The zeros above the highest one bit of a number. -/
theorem leading_zeros {w a : Nat} (h : a < 2 ^ w) :
    ((List.range w).takeWhile (fun k => !a.testBit (w - 1 - k))).length = if a = 0 then w else w - 1 - Nat.log2 a := by
  have count : ∀ n : Nat, n ≤ w → (∀ k < n, a.testBit (w - 1 - k) = false) → (n < w → a.testBit (w - 1 - n) = true) →
      ((List.range w).takeWhile (fun k => !a.testBit (w - 1 - k))).length = n := by
    intro n hn below at'
    obtain ⟨m, rfl⟩ := Nat.exists_eq_add_of_le hn
    rw [List.range_add, List.takeWhile_append_of_pos (by simpa using below)]
    cases m with
    | zero => simp
    | succ m =>
      have top := at' (by omega)
      rw [List.range_succ_eq_map, List.map_cons, List.takeWhile_cons_of_neg (by simpa using top)]
      simp
  split
  · next ha => exact count w (Nat.le_refl w) (by simp [ha]) (by omega)
  · next ha =>
    have hl : Nat.log2 a < w := (Nat.log2_lt ha).mpr h
    refine count _ (by omega) (fun k hk => ?_) (fun _ => ?_)
    · refine Nat.testBit_lt_two_pow ((Nat.log2_lt ha).mp (by omega))
    · rw [show w - 1 - (w - 1 - Nat.log2 a) = Nat.log2 a by omega]
      exact Nat.testBit_log2 ha
theorem popCount_eq (w a : Nat) : popCount w a = ((List.range w).filter (fun k => a.testBit k)).length := by
  unfold popCount
  congr 2
  funext k
  rw [Nat.testBit_eq_decide_div_mod_eq]

/-- What each of them computes, as a lane of its type. -/
theorem exec_of_laneSpec {i : Instr} {f : EntryF} {lat n : Nat} {g : Nat → Nat → Nat → Nat}
    (h : laneSpec i = some (f, lat, n, g)) (s : State) :
    ∃ g', exec i s = s.laneOp f lat n g' ∧ ∀ r a b c, a < 2 ^ f.ty.width → b < 2 ^ f.ty.width →
      g' r a b c % 2 ^ f.ty.width = g r a b % 2 ^ f.ty.width := by
  unfold laneSpec at h
  split at h <;> cases h
  case h_1 =>
    refine ⟨_, show execEntryDiv f s = _ from rfl, fun r a b c _ _ => ?_⟩
    unfold EntryF.ieeeLane EntryF.floatLane
    dsimp only
    cases (decodeFloat f.ty b).isZero
    · rw [Bool.not_false, Bool.and_true, if_neg Bool.false_ne_true]
    · rw [Bool.not_true, Bool.and_false, if_pos rfl]
  case h_2 => exact ⟨_, show execEntrySqrt f s = _ from rfl, fun _ _ _ _ _ _ => rfl⟩
  case h_3 => exact ⟨_, show execEntryExp2 f s = _ from rfl, fun _ _ _ _ _ _ => rfl⟩
  case h_4 => exact ⟨_, show execEntryLg2 f s = _ from rfl, fun _ _ _ _ _ _ => rfl⟩
  case h_5 => exact ⟨_, show execEntryRint f s = _ from rfl, fun _ _ _ _ _ _ => rfl⟩
  case h_6 =>
    refine ⟨_, show execEntryShl f s = _ from rfl, fun r a b c _ _ => ?_⟩
    dsimp only
    by_cases hb : b < f.ty.width
    · rw [if_neg (Nat.not_le.mpr hb), if_pos hb, Nat.mod_mod]
    · rw [if_pos (Nat.not_lt.mp hb), if_neg hb]
  case h_7 =>
    refine ⟨_, show execEntryShr f s = _ from rfl, fun r a b c _ _ => ?_⟩
    dsimp only
    by_cases hb : b < f.ty.width
    · rw [if_neg (Nat.not_le.mpr hb), if_pos hb]
    · rw [if_pos (Nat.not_lt.mp hb), if_neg hb]
  case h_8 =>
    refine ⟨_, show execEntrySra f s = _ from rfl, fun r a b c ha _ => ?_⟩
    dsimp only
    rw [toInt_lane ha, show (if b ≥ f.ty.width then f.ty.width else b) = min b f.ty.width by split <;> omega]
    rfl
  case h_9 =>
    refine ⟨_, show execEntryMulh f s = _ from rfl, fun r a b c ha hb => ?_⟩
    dsimp only
    rw [decodeInt_eq_asInt ha, decodeInt_eq_asInt hb, ← encodeInt_eq_toLane]
    rfl
  case h_10 =>
    refine ⟨_, show execEntryClz f s = _ from rfl, fun r a b c ha _ => ?_⟩
    dsimp only
    rw [leading_zeros ha]
  case h_11 =>
    refine ⟨_, show execEntryPopc f s = _ from rfl, fun r a b c ha _ => ?_⟩
    dsimp only
    rw [popCount_eq]

end Sys2Proof.Machine

namespace Sys2Proof.Proofs

open Sys2Proof.Machine Sys2Proof.Claims

/-- Settles O8: each op is the one lane op of its value, on the floats of its lanes or on their integers. -/
theorem laneArithmetic : Obligations.LaneArithmetic := by
  intro i s f lf li n vf vi h
  rw [exec_of_arithSpec h s]
  cases isFloat f.ty
  case true =>
    simp only [if_true]
    exact s.laneOp_issued f lf n _
  case false =>
    simp only [Bool.false_eq_true, if_false]
    obtain ⟨t, data, next, only, result, lanes⟩ := s.laneOp_issued f li n (fun _ a b c => EntryF.intLane f vi a b c)
    exact ⟨t, data, next, only, result, Lanes.congr lanes fun i _ => congrArg (· % _)
      (EntryF.intLane_eq f vi (lane_lt f _ i) (lane_lt f _ i) (lane_lt f _ i))⟩

/-- Settles O9: each op is the one lane op of its function. -/
theorem laneFunctions : Obligations.LaneFunctions := by
  intro i s f lat n g h
  obtain ⟨g', arm, same⟩ := exec_of_laneSpec h s
  obtain ⟨t, data, next, only, result, lanes⟩ := s.laneOp_issued f lat n g'
  have two : n ≤ 2 := by
    unfold laneSpec at h
    split at h <;> cases h <;> decide
  rw [show [s.opA f, s.opB f, s.opC f].take n = [s.opA f, s.opB f].take n from
    List.take_append_of_le_length (l₁ := [s.opA f, s.opB f]) two] at result
  exact ⟨t, data, arm ▸ next, only, result, Lanes.congr lanes fun j _ =>
    same _ _ _ _ (lane_lt f _ j) (lane_lt f _ j)⟩

end Sys2Proof.Proofs
end

section
/-!
Sidebands of results (R59, R218), and conversions (R54, R56, R57, R183).
-/

namespace Sys2Proof.Machine

open Sys2Proof.Claims

/-! ## Poison bits and scale bytes (R59, R218) -/

@[simp] theorem poisonOf_mkSide (p : BitVec 4) (sc : W32) : poisonOf (mkSide p sc) = p := by
  refine BitVec.eq_of_getLsbD_eq fun i hi => ?_
  have : 32 + i < 36 := by omega
  simp [poisonOf, mkSide, hi, this]
@[simp] theorem scalesOf_mkSide (p : BitVec 4) (sc : W32) : scalesOf (mkSide p sc) = sc := by
  refine BitVec.eq_of_getLsbD_eq fun i hi => ?_
  simp [scalesOf, mkSide, hi]
theorem getLsbD_bits4 (f : Nat → Bool) {q : Nat} (h : q < 4) : (bits4 f).getLsbD q = f q := by
  have four : ∀ a b c d : Bool, ∀ q < 4, (bits4 fun q => [a, b, c, d].getD q false).getLsbD q = [a, b, c, d].getD q false := by
    decide
  have same : bits4 f = bits4 fun q => [f 0, f 1, f 2, f 3].getD q false := rfl
  rw [same, four _ _ _ _ q h]
  match q, h with
  | 0, _ | 1, _ | 2, _ | 3, _ => rfl
/-- A quarter is poisoned by the lanes that lie in it. -/
theorem getLsbD_lanePoison (w n : Nat) (dep : Nat → Bool) {q : Nat} (h : q < 4) :
    (lanePoison w n dep).getLsbD q = true ↔ ∃ i < n, q ∈ quartersOf w i ∧ dep i = true := by
  rw [lanePoison, getLsbD_bits4 _ h]
  simp [List.any_eq_true]

theorem scaleByte_eq (p : Side) {q : Nat} (h : q < 4) : scaleByte p q = (scalesOf p).toNat / 2 ^ (8 * q) % 2 ^ 8 := by
  have split : 2 ^ 32 = 2 ^ (8 * q) * 2 ^ (32 - 8 * q) := by rw [← Nat.pow_add]; congr 1; omega
  have low : 2 ^ 8 ∣ 2 ^ (32 - 8 * q) := Nat.pow_dvd_pow 2 (by omega)
  rw [scaleByte, scalesOf, BitVec.toNat_setWidth, split, Nat.mod_mul_right_div_self, Nat.mod_mod_of_dvd _ low]
  rfl
/-- The scale bytes that a result is given. -/
theorem scaleByte_mkSide (p : BitVec 4) {vs : List Nat} (hl : vs.length ≤ 4) {q : Nat} (h : q < 4) :
    scaleByte (mkSide p (BitVec.ofNat 32 (lanesNat 8 vs))) q = vs.getD q 0 % 2 ^ 8 := by
  have hlt : lanesNat 8 vs < 2 ^ 32 := (lanesNat_lt 8 vs).trans_le (Nat.pow_le_pow_right (by decide) (by omega))
  rw [scaleByte_eq _ h, scalesOf_mkSide, BitVec.toNat_ofNat, Nat.mod_eq_of_lt hlt, lanesNat_lane]
theorem scaleByte_lt (p : Side) (q : Nat) : scaleByte p q < 2 ^ 8 := Nat.mod_lt _ (by decide)
/-- Four numbers of w bits summed at their places. -/
theorem sum_lanes (w : Nat) {g : Nat → Nat} (h : ∀ q, g q < 2 ^ w) :
    (List.range 4).foldl (fun m q => m + g q * 2 ^ (w * q)) 0 = lanesNat w ((List.range 4).map g) := by
  have four : List.range 4 = [0, 1, 2, 3] := rfl
  simp only [four, lanesNat, List.foldl_cons, List.foldl_nil, List.map_cons, List.map_nil, List.foldr_cons, List.foldr_nil,
    Nat.mod_eq_of_lt (h _), Nat.pow_mul]
  ring

/-! ## Conversions (R56, R57, R183) -/

theorem convLane_eq {src : Ty} {v : Nat} (h : v < 2 ^ src.width) (f : EntryF) (r : Nat) :
    convLane src f.ty f.rnd f.sat r v = convert src f.ty f r v := by
  unfold convLane convert laneVal ofInt
  rw [decodeInt_eq_asInt h]
  rfl
/-- The lane of the source that `cvt` reads for a lane. -/
theorem cvtFrom_eq (ls ld part i : Nat) :
    (if ls = ld then some i else if ld ≤ ls then some (part * ld + i) else if i / ls = part then some (i % ls) else none) =
      cvtFrom ls ld part i := by
  unfold cvtFrom
  refine if_ctx_congr Iff.rfl (fun _ => rfl) fun h => if_congr ?_ rfl rfl
  omega

section
variable (s : State) (f : EntryF) (src : Ty)

/-- Source lane, value and poison of lane i of a `cvt`, and the scale byte of quarter q. -/
def cvtFromAt (i : Nat) : Option Nat := cvtFrom src.lanes f.ty.lanes (f.x.toNat / 16 % 16) i
def State.cvtLaneAt (i : Nat) : Nat :=
  match cvtFromAt f src i with
  | some j => convLane src f.ty f.rnd f.sat (rs16 (drawsOf f (elemOf s)).1 i) (laneOf src.width (s.opA f).data j)
  | none => if f.x.getLsbD 8 then lane f (s.opB f) i else 0
def State.cvtPoisonAt (i : Nat) : Bool :=
  match cvtFromAt f src i with
  | some j => (s.opA f).laneP src.width j
  | none => f.x.getLsbD 8 && (s.opB f).laneP f.ty.width i
def State.cvtScaleAt (q : Nat) : Nat :=
  if f.x.getLsbD 8 && (List.range f.ty.lanes).all (fun i => !(quartersOf f.ty.width i).contains q || (cvtFromAt f src i).isNone)
  then scaleByte (s.opB f).side q else 0

theorem exec_cvt (h : Ty.ofCode? (f.x.toNat % 16) = some src) :
    exec (.entryCvt f) s = s.result f 2 (drawn f (elemOf s))
      { data := packLanes f.ty.width ((List.range f.ty.lanes).map (s.cvtLaneAt f src))
        side := mkSide (lanePoison f.ty.width f.ty.lanes (s.cvtPoisonAt f src))
          (BitVec.ofNat 32 ((List.range 4).foldl (fun m q => m + s.cvtScaleAt f src q * 2 ^ (8 * q)) 0)) } := by
  show execEntryCvt f s = _
  unfold execEntryCvt
  simp only [h, Option.getD_some, cvtFrom_eq]
  rw [show (if (f.rnd == .rs) = true then _ else _) = _ from drawsOf_eq f s.me]
  rfl

end

end Sys2Proof.Machine

namespace Sys2Proof.Proofs

open Sys2Proof.Machine Sys2Proof.Claims

/-- Settles O10: a `cvt` is one result made lane by lane. -/
theorem conversionResults : Obligations.ConversionResults := by
  intro s f src h
  rw [exec_cvt s f src h]
  obtain ⟨t, next, only, result⟩ := s.result_issued f 2 (drawn f (elemOf s)) ⟨_, _⟩
  refine ⟨t, _, _, next, only, result, Lanes.congr (lanes_of_type _ _) fun i _ => ?lanes, fun q hq => ⟨?poison, ?scale⟩⟩
  case lanes =>
    congr 1
    unfold State.cvtLaneAt cvtFromAt
    cases cvtFrom src.lanes f.ty.lanes (f.x.toNat / 16 % 16) i with
    | some j => exact convLane_eq (laneOf_lt ..) f _
    | none => rfl
  case poison =>
    rw [poisonOf_mkSide, getLsbD_lanePoison _ _ _ hq]
    refine exists_congr fun i => and_congr_right fun _ => and_congr_right fun _ => ?_
    unfold State.cvtPoisonAt cvtFromAt
    cases cvtFrom src.lanes f.ty.lanes (f.x.toNat / 16 % 16) i with
    | some j => exact Iff.rfl
    | none => exact Bool.and_eq_true_iff
  case scale =>
    have byte : ∀ q, s.cvtScaleAt f src q < 2 ^ 8 := fun q => by
      unfold State.cvtScaleAt
      split
      · exact scaleByte_lt ..
      · decide
    rw [sum_lanes 8 byte, scaleByte_mkSide _ (by simp) hq]
    simp only [List.getD_eq_getElem?_getD, List.getElem?_map, List.getElem?_range hq, Option.map_some, Option.getD_some,
      Nat.mod_eq_of_lt (byte q)]
    unfold State.cvtScaleAt
    refine if_congr ?_ rfl rfl
    simp [cvtFromAt, or_iff_not_imp_left]

end Sys2Proof.Proofs
end

section
/-!
Rounding stays within a float type's codes (R50, R53, R55), and the reductions over lanes (R68, R187).
-/

namespace Sys2Proof.Machine

open Sys2Proof.Claims

/-! ## Codes of rounded values (R50, R55) -/

theorem withSign_lt {t : Ty} {c : Nat} (h : c < 2 ^ (t.width - 1)) (neg : Bool) : withSign t neg c < 2 ^ t.width := by
  have hw : 2 ^ t.width = 2 * 2 ^ (t.width - 1) := by
    rw [← Nat.pow_succ', Nat.succ_eq_add_one, Nat.sub_add_cancel t.width_pos]
  unfold withSign
  split <;> omega
/-- A magnitude at its quantum, rounded, has at most one place more than the fraction (R53). -/
theorem roundMag_le (mode : Rnd) (neg : Bool) (m sh : Nat) (rest : Bool) (rnd : Nat) :
    roundMag mode neg m sh rest rnd ≤ m / 2 ^ sh + 1 := by
  unfold roundMag
  dsimp only
  split
  · omega
  · split <;> [skip; split; split; split] <;> omega
theorem quantum_top (t : Ty) (m : Nat) (e : Int) : (Nat.log2 m : Int) + e - mantBits t ≤ quantum t m e := by
  unfold quantum
  dsimp only
  split <;> omega
theorem lt_two_pow_log2_succ (m : Nat) : m < 2 ^ (Nat.log2 m + 1) := Nat.lt_log2_self

theorem exact_lt {t : Ty} {m : Nat} {e : Int} (h : quantum t m e ≤ e) :
    m * 2 ^ (e - quantum t m e).toNat < 2 ^ (mantBits t + 1) := by
  have top := quantum_top t m e
  calc m * 2 ^ (e - quantum t m e).toNat < 2 ^ (Nat.log2 m + 1) * 2 ^ (e - quantum t m e).toNat :=
        Nat.mul_lt_mul_of_pos_right (lt_two_pow_log2_succ m) (Nat.two_pow_pos _)
    _ = 2 ^ (Nat.log2 m + 1 + (e - quantum t m e).toNat) := (Nat.pow_add ..).symm
    _ ≤ 2 ^ (mantBits t + 1) := Nat.pow_le_pow_right (by decide) (by omega)
theorem cut_lt {t : Ty} {m : Nat} {e : Int} (h : e < quantum t m e) :
    m / 2 ^ (quantum t m e - e).toNat < 2 ^ (mantBits t + 1) := by
  have top := quantum_top t m e
  rw [Nat.div_lt_iff_lt_mul (Nat.two_pow_pos _)]
  calc m < 2 ^ (Nat.log2 m + 1) := lt_two_pow_log2_succ m
    _ ≤ 2 ^ (mantBits t + 1 + (quantum t m e - e).toNat) := Nat.pow_le_pow_right (by decide) (by omega)
    _ = _ := Nat.pow_add ..

/-- A value that is not beyond the largest finite one lies below its last place, or is no multiple too many of it. -/
theorem within_of_not_beyond {t : Ty} {k : Nat} {q : Int} (hm : (maxFin t).1 < 2 ^ (mantBits t + 1)) (h : beyond t k q = false) :
    q < (maxFin t).2 ∨ (k ≤ (maxFin t).1 ∧ (k < 2 ^ mantBits t ∨ q = (maxFin t).2)) := by
  unfold beyond at h
  by_cases hq : q < (maxFin t).2
  · exact .inl hq
  · refine .inr ?_
    have hk : k * 2 ^ (q - (maxFin t).2).toNat ≤ (maxFin t).1 := by simpa [not_lt.mp hq] using h
    refine ⟨(Nat.le_mul_of_pos_right k (Nat.two_pow_pos _)).trans hk, ?_⟩
    by_contra! hn
    have two : 2 ^ 1 ≤ 2 ^ (q - (maxFin t).2).toNat := Nat.pow_le_pow_right (by decide) (by omega)
    have := Nat.mul_le_mul hn.1 two
    rw [Nat.pow_succ] at hm
    omega
/-- The code of a normal magnitude up to the largest finite one stays below the sign bit. -/
theorem normal_code_lt {t : Ty} (ht : isFloat t = true) {k : Nat} {q : Int} (hk : k < 2 ^ (mantBits t + 1))
    (hq : q < (maxFin t).2 ∨ (q = (maxFin t).2 ∧ k ≤ (maxFin t).1)) :
    (q + mantBits t + expBias t).toNat * 2 ^ mantBits t + (k - 2 ^ mantBits t) < 2 ^ (t.width - 1) := by
  cases t <;> simp only [isFloat, Bool.false_eq_true] at ht <;> simp [mantBits, maxFin, expBias, Ty.width] at * <;> omega
/-- A value that is not beyond the largest finite one has a code of its type. -/
theorem encodeFin_lt {t : Ty} (ht : isFloat t = true) (neg : Bool) {k : Nat} {q : Int} (hk : k ≤ 2 ^ (mantBits t + 1))
    (hb : beyond t k q = false) : encodeFin t neg k q < 2 ^ t.width := by
  have fraction : 2 ^ mantBits t ≤ 2 ^ (t.width - 1) := Nat.pow_le_pow_right (by decide) (by cases t <;> decide)
  have max : (maxFin t).1 < 2 ^ (mantBits t + 1) := by cases t <;> simp only [isFloat, Bool.false_eq_true] at ht <;> decide
  have within := within_of_not_beyond max hb
  have twice : 2 ^ (mantBits t + 1) = 2 * 2 ^ mantBits t := Nat.pow_succ'
  have one := Nat.two_pow_pos (mantBits t)
  unfold encodeFin
  by_cases carry : k = 2 ^ (mantBits t + 1)
  · have least : 2 ^ mantBits t ≤ (maxFin t).1 := by cases t <;> simp only [isFloat, Bool.false_eq_true] at ht <;> decide
    simp only [if_pos carry, Nat.lt_irrefl, if_false]
    exact withSign_lt (normal_code_lt ht (by omega) (by omega)) neg
  · simp only [if_neg carry]
    split
    · exact withSign_lt (by omega) neg
    · exact withSign_lt (normal_code_lt ht (by omega) (by omega)) neg

theorem maxCode_lt {t : Ty} (ht : isFloat t = true) (neg : Bool) : withSign t neg (maxCode t) < 2 ^ t.width :=
  withSign_lt (by cases t <;> simp only [isFloat, Bool.false_eq_true] at ht <;> decide) neg
theorem infCode_lt {t : Ty} (ht : isFloat t = true) (neg : Bool) : infCode t neg < 2 ^ t.width :=
  withSign_lt (by cases t <;> simp only [isFloat, Bool.false_eq_true] at ht <;> decide) neg
theorem e4m3_nan_lt {t : Ty} {b : Bool} (h : (t == .e4m3 && b) = true) : 0x7F < 2 ^ t.width := by
  obtain rfl : t = .e4m3 := beq_iff_eq.mp (Bool.and_eq_true_iff.mp h).1
  decide
theorem overflow_lt {t : Ty} (ht : isFloat t = true) (mode : Rnd) (sat neg b : Bool) : overflow t mode sat neg b < 2 ^ t.width := by
  have max := maxCode_lt ht neg
  have inf := infCode_lt ht neg
  unfold overflow
  split
  · split
    · exact max
    · cases mode
      · exact inf
      · exact max
      · dsimp only; split <;> assumption
      · dsimp only; split <;> exact inf
  · split
    · next h => exact e4m3_nan_lt h
    · exact max

/-- What `roundTo` makes of a magnitude k x 2^q is a code; k0 is the magnitude cut (R55). -/
theorem finish_lt {t : Ty} (ht : isFloat t = true) (mode : Rnd) (sat neg : Bool) {k0 k : Nat} (q : Int)
    (hk : k ≤ 2 ^ (mantBits t + 1)) :
    (if beyond t k q then
      (if mode == .rs && hasInf t && !sat && !beyond t k0 q && k == k0 then encodeFin t neg k q
       else overflow t mode sat neg (beyond t k0 q))
    else encodeFin t neg k q) < 2 ^ t.width := by
  split
  · next hb =>
    refine (if_neg ?_).trans_lt (overflow_lt ht mode sat neg _)
    rintro h
    simp only [Bool.and_eq_true, Bool.not_eq_true', beq_iff_eq] at h
    obtain ⟨⟨-, h0⟩, rfl⟩ := h
    exact absurd hb (by simp [h0])
  · next hb => exact encodeFin_lt ht neg hk (by simpa using hb)
/-- A rounded value is a code of its type. -/
theorem roundTo_lt {t : Ty} (ht : isFloat t = true) (mode : Rnd) (sat : Bool) (rnd : Nat) (v : Val) :
    roundTo t mode sat rnd v < 2 ^ t.width := by
  have max := maxCode_lt ht
  have inf := infCode_lt ht
  cases v with
  | nan =>
    show (if t == .e2m1 then maxCode t else nanCode t) < 2 ^ t.width
    cases t <;> simp only [isFloat, Bool.false_eq_true] at ht <;> decide
  | inf neg =>
    unfold roundTo
    dsimp only
    split
    · split
      · exact max neg
      · exact inf neg
    · split
      · next h => exact e4m3_nan_lt h
      · exact max neg
  | fin neg m e rest =>
    unfold roundTo
    dsimp only
    split
    · exact withSign_lt (Nat.two_pow_pos _) neg
    · by_cases hq : quantum t m e ≤ e
      · simp only [if_pos hq]
        exact finish_lt ht mode sat neg _ (exact_lt hq).le
      · simp only [if_neg hq]
        have cut := cut_lt (not_le.mp hq)
        have round := roundMag_le mode neg m (quantum t m e - e).toNat rest rnd
        exact finish_lt ht mode sat neg _ (by omega)

/-! ## Sums over lanes (R68, R187) -/

/-- A scalar result stands in bits 31:0, or in lane 0, with zeros above. -/
theorem State.scalar_issued (s : State) (f : EntryF) (lat : Nat) (a : Cap) {v : Nat} (hv : v < 2 ^ 128) :
    ∃ t data, s.scalar f lat a v = .next t ∧ OnlyElem s t ∧
      Result f.we (elemOf s) (elemOf t) s.now lat data (mkSide (if a.anyP then 1 else 0) 0) ∧ data.toNat = v := by
  obtain ⟨t, next, only, result⟩ := s.result_issued f lat s.me ⟨BitVec.ofNat 128 v, mkSide (if a.anyP then 1 else 0) 0⟩
  exact ⟨t, _, next, only, result, Nat.mod_eq_of_lt hv⟩

theorem pairUp_range (g : Val → Val → Val) (h : Nat → Val) (n : Nat) :
    pairUp g ((List.range (2 * n)).map h) = (List.range n).map (fun i => g (h (2 * i)) (h (2 * i + 1))) := by
  induction n generalizing h with
  | zero => rfl
  | succ n ih =>
    have shift := ih (fun i => h (i + 2))
    rw [show 2 * (n + 1) = 2 * n + 1 + 1 by omega, List.range_succ_eq_map, List.range_succ_eq_map, List.range_succ_eq_map (n := n)]
    simp only [List.map_cons, List.map_map, pairUp]
    exact congrArg _ shift
/-- The leaves may be paired first. -/
theorem pairwise_pairs (g : Val → Val → Val) (h : Nat → Val) (k i : Nat) :
    pairwise g (fun i => g (h (2 * i)) (h (2 * i + 1))) k i = pairwise g h (k + 1) i := by
  induction k generalizing i with
  | zero => rfl
  | succ k ih =>
    show g _ _ = g _ _
    rw [ih, ih]
theorem pairTree_single (g : Val → Val → Val) (n : Nat) (x : Val) : pairTree g n [x] = x := by
  induction n with
  | zero => rfl
  | succ n ih => exact ih
/-- The tree over a power of two of leaves, however many levels more are asked for. -/
theorem pairTree_range (g : Val → Val → Val) (h : Nat → Val) (k m : Nat) :
    pairTree g (k + m) ((List.range (2 ^ k)).map h) = pairwise g h k 0 := by
  induction k generalizing h with
  | zero => exact pairTree_single g _ (h 0)
  | succ k ih =>
    rw [show k + 1 + m = (k + m) + 1 by omega, Nat.pow_succ', pairTree, pairUp_range, ih, pairwise_pairs]
theorem foldl_total (g : Nat → Int) (n : Nat) : ((List.range n).map g).foldl (· + ·) 0 = total g n := by
  induction n with
  | zero => rfl
  | succ n ih => rw [List.range_succ, List.map_append, List.foldl_append, ih]; rfl

theorem map_lanes {α : Type} (f : EntryF) (a : Cap) (h : Nat → α) :
    (((List.range f.ty.lanes).map (laneOf f.ty.width a.data)).map h) = (List.range f.ty.lanes).map (fun i => h (lane f a i)) :=
  List.map_map ..

theorem isFloat_of_set {t : Ty} (h : (t.isF || t.isF8 || t.isI) = true) : isFloat t = !t.isI := by
  cases t <;> first | rfl | exact absurd h (by decide)

/-- `hsum` on a float type. -/
theorem exec_hsum_float (s : State) (f : EntryF) (h : isFloat f.ty = true) :
    exec (.entryHsum f) s = s.scalar f (if f.ty = .f32 then 6 else if f.ty.width = 16 then 9 else 12) (s.opA f)
      (roundTo .f32 .rn false 0 (pairTree (fun x y => level f (x.add y)) 5
        ((List.range f.ty.lanes).map (fun i => Claims.leafOf f (lane f (s.opA f) i))))) := by
  show execEntryHsum f s = _
  unfold execEntryHsum
  simp only [h, if_true, map_lanes, beq_iff_eq]
  rfl
/-- `hsum` on an integer type. -/
theorem exec_hsum_int (s : State) (f : EntryF) (h : isFloat f.ty = false) :
    exec (.entryHsum f) s = s.scalar f 3 (s.opA f)
      (toLane (if isSigned f.ty then .i32 else .n32) f.sat (total (fun i => asInt f.ty (lane f (s.opA f) i)) f.ty.lanes)) := by
  show execEntryHsum f s = _
  unfold execEntryHsum
  have lanes : (fun i => decodeInt f.ty (lane f (s.opA f) i)) = fun i => asInt f.ty (lane f (s.opA f) i) :=
    funext fun i => decodeInt_eq_asInt (lane_lt f _ i)
  have wide : ∀ t : Ty, (if isSigned t then Ty.i32 else .n32).width = 32 := fun t => by split <;> rfl
  simp only [h, Bool.false_eq_true, if_false, map_lanes, lanes, foldl_total, ← encodeInt_eq_toLane, wide]

/-! ## Scans (R68, R187) -/

theorem mem_quartersOf {w i q : Nat} : q ∈ quartersOf w i ↔ q < 4 ∧ q * 32 < w * (i + 1) ∧ w * i < 32 * (q + 1) := by
  simp [quartersOf]
/-- Lane 0 of a type, and its other lanes. -/
theorem range_lanes (t : Ty) : List.range t.lanes = 0 :: List.range' 1 (t.lanes - 1) := by
  obtain ⟨n, hn⟩ := Nat.exists_eq_add_of_le' (show 1 ≤ t.lanes by cases t <;> decide)
  rw [hn, List.range_eq_range', List.range'_succ]
  rfl
/-- A scan of the codes h, element by element behind element k, which is y k. -/
theorem scanCodes_range (g : Nat → Nat → Nat) {h y : Nat → Nat} (step : ∀ i, y (i + 1) = g (y i) (h (i + 1))) (n k : Nat) :
    scanCodes g (some (y k)) ((List.range' (k + 1) n).map h) = (List.range' (k + 1) n).map y := by
  induction n generalizing k with
  | zero => rfl
  | succ n ih =>
    rw [List.range'_succ, List.map_cons, List.map_cons, scanCodes, ← step, ih]

theorem scanned_lt (f : EntryF) (a : Cap) (i : Nat) : scanned f a i < 2 ^ f.ty.width := by
  cases i <;> unfold scanned <;> split
  · exact roundTo_lt ‹_› ..
  · exact lane_lt ..
  · exact roundTo_lt ‹_› ..
  · exact toLane_lt ..
/-- A `scan` puts each inclusive sum into its lane. -/
theorem exec_scan (s : State) (f : EntryF) :
    exec (.entryScan f) s = s.result f (if f.ty.isI then 4 else if f.ty = .f32 then 8 else 12) s.me
      { data := packLanes f.ty.width ((List.range f.ty.lanes).map (scanned f (s.opA f)))
        side := mkSide (lanePoison f.ty.width f.ty.lanes
          (fun i => (List.range (i + 1)).any ((s.opA f).laneP f.ty.width))) 0 } := by
  show execEntryScan f s = _
  unfold execEntryScan
  have first : (if isFloat f.ty then roundTo f.ty f.rnd f.sat 0 (decodeFloat f.ty (laneOf f.ty.width (s.opA f).data 0))
    else laneOf f.ty.width (s.opA f).data 0) = scanned f (s.opA f) 0 := rfl
  simp only [range_lanes, List.map_cons, scanCodes, beq_iff_eq, first]
  rw [scanCodes_range _ (y := scanned f (s.opA f)) fun i => ?_]
  rw [scanned]
  refine if_congr Iff.rfl rfl ?_
  rw [← encodeInt_eq_toLane, decodeInt_eq_asInt (scanned_lt ..), decodeInt_eq_asInt (laneOf_lt ..)]
  rfl

/-! ## Extremes over lanes (R68, R187) -/

theorem Val.lt_asymm {x y : Val} (h : x.lt y = true) : y.lt x = false := by
  cases x with
  | nan => exact nomatch h
  | inf a => cases y <;> simp_all [Val.lt]
  | fin a m e r =>
    cases y with
    | nan => exact nomatch h
    | inf b => simp_all [Val.lt]
    | fin b n f u =>
      have same : (if f ≤ e then f else e) = if e ≤ f then e else f := by split <;> split <;> omega
      simp only [Val.lt, same, decide_eq_true_eq, decide_eq_false_iff_not, not_lt] at *
      exact h.le
theorem Val.lt_irrefl (x : Val) : x.lt x = false := by
  by_contra h
  rw [Bool.not_eq_false] at h
  exact absurd h (by rw [Val.lt_asymm h]; decide)
/-- Of two values that are no NaN, the greater and the lesser (R68). -/
theorem Val.max_eq {x y : Val} (hx : x.isNan = false) (hy : y.isNan = false) :
    x.max y = if x.lt y then y else if y.lt x then x else if x.signBit then y else x := by
  unfold Val.max; rw [hx, hy]; rfl
theorem Val.min_eq {x y : Val} (hx : x.isNan = false) (hy : y.isNan = false) :
    x.min y = if x.lt y then x else if y.lt x then y else if x.signBit then x else y := by
  unfold Val.min; rw [hx, hy]; rfl
theorem extremes (x y : Val) : Extremes x y (x.max y) (x.min y) := by
  refine ⟨fun h => ?_, fun hx hy => ?_⟩
  · unfold Val.max Val.min
    rw [if_pos (by simpa using h), if_pos (by simpa using h)]
    exact ⟨rfl, rfl⟩
  · rw [Val.max_eq hx hy, Val.min_eq hx hy]
    have eq : x.eq y = (!x.lt y && !y.lt x) := by unfold Val.eq; rw [hx, hy]; rfl
    rw [eq]
    cases hxy : x.lt y
    case true => simp [Val.lt_asymm hxy, Val.lt_irrefl]
    case false =>
      cases hyx : y.lt x
      case true => simp [hxy, Val.lt_irrefl]
      case false => cases hs : x.signBit <;> simp [hxy, hyx, hs, Val.lt_irrefl]

/-- A fold over the lanes behind lane k, whose steps are those of y. -/
theorem foldl_range' {α β : Type} (g : α → β → α) {h : Nat → β} {y : Nat → α} (step : ∀ i, y (i + 1) = g (y i) (h (i + 1)))
    (n k : Nat) :
    ((List.range' (k + 1) n).map h).foldl g (y k) = y (k + n) := by
  induction n generalizing k with
  | zero => rfl
  | succ n ih => rw [List.range'_succ, List.map_cons, List.foldl_cons, ← step, ih]; congr 1; omega

/-- The greatest or least of the integer lanes 0 to n. -/
def extremeInt (f : EntryF) (hi : Bool) (a : Cap) : Nat → Int
  | 0 => asInt f.ty (lane f a 0)
  | i + 1 => if hi then max (extremeInt f hi a i) (asInt f.ty (lane f a (i + 1)))
      else min (extremeInt f hi a i) (asInt f.ty (lane f a (i + 1)))

theorem extremeInt_mem (f : EntryF) (hi : Bool) (a : Cap) (n : Nat) :
    ∃ i ≤ n, extremeInt f hi a n = asInt f.ty (lane f a i) := by
  induction n with
  | zero => exact ⟨0, Nat.le_refl _, rfl⟩
  | succ n ih =>
    obtain ⟨i, hi', e⟩ := ih
    have here : (extremeInt f hi a (n + 1) = extremeInt f hi a n) ∨ extremeInt f hi a (n + 1) = asInt f.ty (lane f a (n + 1)) := by
      rw [extremeInt]; split <;> omega
    rcases here with h | h
    · exact ⟨i, by omega, h.trans e⟩
    · exact ⟨n + 1, Nat.le_refl _, h⟩
theorem extremeInt_bound (f : EntryF) (hi : Bool) (a : Cap) (n : Nat) : ∀ i ≤ n,
    if hi then asInt f.ty (lane f a i) ≤ extremeInt f hi a n else extremeInt f hi a n ≤ asInt f.ty (lane f a i) := by
  induction n with
  | zero => intro i h; obtain rfl := Nat.le_zero.mp h; cases hi <;> exact Int.le_refl _
  | succ n ih =>
    intro i h
    rcases Nat.lt_or_eq_of_le h with h | rfl
    · have := ih i (by omega)
      cases hi <;> simp only [extremeInt, if_true, Bool.false_eq_true, if_false] at * <;> omega
    · cases hi <;> simp only [extremeInt, if_true, Bool.false_eq_true, if_false] <;> omega

theorem encodeInt_asInt {t : Ty} {v : Nat} (h : v < 2 ^ t.width) : encodeInt t.width (asInt t v) = v := by
  have whole : (asInt t v) % 2 ^ t.width = v := by
    unfold asInt
    split
    · rw [BitVec.toInt_eq_toNat_bmod, BitVec.toNat_ofNat, Nat.mod_eq_of_lt h]
      rw [show (2 : Int) ^ t.width = ((2 ^ t.width : Nat) : Int) by norm_cast, Int.bmod_emod]
      norm_cast
      exact Nat.mod_eq_of_lt h
    · norm_cast
      exact Nat.mod_eq_of_lt h
  unfold encodeInt
  rw [whole]
  rfl

section
variable (s : State) (f : EntryF) (hi : Bool) (vf : Val → Val → Val) (vi : Int → Int → Int)

theorem State.extreme_float (h : isFloat f.ty = true) (step : ∀ i, extremeLane f hi (s.opA f) (i + 1) =
      vf (extremeLane f hi (s.opA f) i) (decodeFloat f.ty (lane f (s.opA f) (i + 1)))) :
    s.extreme f vf vi = s.scalar f 3 (s.opA f)
      (roundTo f.ty .rz false 0 (extremeLane f hi (s.opA f) (f.ty.lanes - 1))) := by
  have all := foldl_range' (fun m c => vf m (decodeFloat f.ty c)) (h := lane f (s.opA f)) step (f.ty.lanes - 1) 0
  simp only [Nat.zero_add] at all
  unfold State.extreme
  simp only [range_lanes, List.map_cons, h, if_true, ← all]
  rfl
theorem State.extreme_int (h : isFloat f.ty = false) (step : ∀ i, extremeInt f hi (s.opA f) (i + 1) =
      vi (extremeInt f hi (s.opA f) i) (asInt f.ty (lane f (s.opA f) (i + 1)))) :
    s.extreme f vf vi = s.scalar f 3 (s.opA f)
      (encodeInt f.ty.width (extremeInt f hi (s.opA f) (f.ty.lanes - 1))) := by
  have all := foldl_range' (fun m c => vi m (decodeInt f.ty c)) (h := lane f (s.opA f)) (y := extremeInt f hi (s.opA f))
    (fun i => (step i).trans (by rw [decodeInt_eq_asInt (lane_lt ..)])) (f.ty.lanes - 1) 0
  simp only [Nat.zero_add, extremeInt, ← decodeInt_eq_asInt (lane_lt ..)] at all
  unfold State.extreme
  simp only [range_lanes, List.map_cons, h, Bool.false_eq_true, if_false, ← all]
  rfl

/-- `hmax` and `hmin` on a float type, and on an integer type. -/
theorem exec_extreme_float (h : isFloat f.ty = true) :
    exec (if hi then .entryHmax f else .entryHmin f) s = s.scalar f 3 (s.opA f)
      (roundTo f.ty .rz false 0 (extremeLane f hi (s.opA f) (f.ty.lanes - 1))) := by
  cases hi
  · show execEntryHmin f s = _
    exact s.extreme_float f false Val.min _ h fun _ => rfl
  · show execEntryHmax f s = _
    exact s.extreme_float f true Val.max _ h fun _ => rfl
theorem exec_extreme_int (h : isFloat f.ty = false) :
    exec (if hi then .entryHmax f else .entryHmin f) s = s.scalar f 3 (s.opA f)
      (encodeInt f.ty.width (extremeInt f hi (s.opA f) (f.ty.lanes - 1))) := by
  cases hi
  · show execEntryHmin f s = _
    exact s.extreme_int f false Val.min _ h fun _ => (int_min_eq ..).symm
  · show execEntryHmax f s = _
    exact s.extreme_int f true Val.max _ h fun _ => (int_max_eq ..).symm

end

end Sys2Proof.Machine

namespace Sys2Proof.Proofs

open Sys2Proof.Machine Sys2Proof.Claims

/-- `hsum` is the pairwise tree of its lanes, or their exact sum. -/
theorem horizontalSums : HorizontalSums := by
  intro s f hset
  have kind := isFloat_of_set hset
  cases hi : f.ty.isI <;> rw [hi] at kind
  case false =>
    have kind : isFloat f.ty = true := kind
    obtain ⟨t, data, next, only, result, value⟩ := s.scalar_issued f
      (if f.ty = .f32 then 6 else if f.ty.width = 16 then 9 else 12) (s.opA f)
      ((roundTo_lt (t := .f32) rfl .rn false 0 _).trans (by decide))
    refine ⟨t, data, (exec_hsum_float s f kind).trans next, only, result, value.trans ?_⟩
    have levels : Nat.log2 f.ty.lanes ≤ 5 ∧ f.ty.lanes = 2 ^ Nat.log2 f.ty.lanes := by cases f.ty <;> decide
    obtain ⟨m, hm⟩ := Nat.exists_eq_add_of_le levels.1
    have tree := pairTree_range (fun x y => level f (x.add y)) (fun i => Claims.leafOf f (lane f (s.opA f) i)) (Nat.log2 f.ty.lanes) m
    rw [← levels.2, ← hm] at tree
    rw [if_pos kind, tree]
  case true =>
    have kind : isFloat f.ty = false := kind
    obtain ⟨t, data, next, only, result, value⟩ := s.scalar_issued f 3 (s.opA f)
      ((toLane_lt (if isSigned f.ty then .i32 else .n32) f.sat _).trans_le (by split <;> decide))
    refine ⟨t, data, (exec_hsum_int s f kind).trans next, only, result, value.trans ?_⟩
    rw [kind]
    rfl

/-- A `scan` is one result of inclusive sums. -/
theorem scans : Scans := by
  intro s f _
  obtain ⟨t, next, only, result⟩ := s.result_issued f (if f.ty.isI then 4 else if f.ty = .f32 then 8 else 12) s.me ⟨_, _⟩
  refine ⟨t, _, _, (exec_scan s f).trans next, only, result, lanes_of_type _ _, fun q hq => ?_⟩
  rw [getLsbD_lanePoison _ _ _ hq]
  simp only [mem_quartersOf, inQuarter, hq, true_and, List.any_eq_true, List.mem_range, Nat.lt_succ_iff, and_assoc]

/-- The extreme lane of a float type is rounded as it is; of an integer type it is one of the lanes. -/
theorem horizontalExtremes : HorizontalExtremes := by
  refine ⟨extremes, fun s f hi hset => ?_⟩
  have kind := isFloat_of_set hset
  have wide : 2 ^ f.ty.width ≤ 2 ^ 128 := Nat.pow_le_pow_right (by decide) (by cases f.ty <;> decide)
  cases hI : f.ty.isI <;> rw [hI] at kind
  case false =>
    have small := roundTo_lt kind .rz false 0 (extremeLane f hi (s.opA f) (f.ty.lanes - 1))
    obtain ⟨t, data, next, only, result, value⟩ := s.scalar_issued f 3 (s.opA f) (small.trans_le wide)
    exact ⟨t, data, (exec_extreme_float s f hi kind).trans next, only, result, value ▸ small, fun _ => value, fun h => nomatch h⟩
  case true =>
    obtain ⟨i, below, e⟩ := extremeInt_mem f hi (s.opA f) (f.ty.lanes - 1)
    have bound := extremeInt_bound f hi (s.opA f) (f.ty.lanes - 1)
    have code : encodeInt f.ty.width (extremeInt f hi (s.opA f) (f.ty.lanes - 1)) = lane f (s.opA f) i := by
      rw [e, encodeInt_asInt (lane_lt ..)]
    have small := code ▸ lane_lt f (s.opA f) i
    obtain ⟨t, data, next, only, result, value⟩ := s.scalar_issued f 3 (s.opA f) (small.trans_le wide)
    have lanes : 0 < f.ty.lanes := by cases f.ty <;> decide
    refine ⟨t, data, (exec_extreme_int s f hi kind).trans next, only, result, value ▸ small, fun h => ?_, fun _ =>
      ⟨⟨i, by omega, value.trans code⟩, fun j hj => ?_⟩⟩
    · rw [kind] at h; exact nomatch h
    · rw [value, code, ← e]
      exact bound j (by omega)

/-- Settles O57: sums as trees or totals, scans element by element, and extremes as folds over the lanes. -/
theorem reductions : Obligations.Reductions := ⟨horizontalSums, scans, horizontalExtremes⟩

end Sys2Proof.Proofs
end

section
/-!
Block packing (R60, R184, R185).
-/

namespace Sys2Proof.Machine

open Sys2Proof.Claims

/-! ## The scale of a block (R60) -/

/-- Without NaN every element counts for the greatest magnitude. -/
theorem greatest_of_no_nan {xs : List Val} (h : ∀ x ∈ xs, x.isNan = false) (m : Val) :
    xs.foldl (fun (m : Val) x => if x.isNan then m else m.max x.abs) m = xs.foldl (fun m x => Val.max m x.abs) m := by
  induction xs generalizing m with
  | nil => rfl
  | cons x xs ih =>
    obtain ⟨hx, hxs⟩ := List.forall_mem_cons.mp h
    simp only [List.foldl_cons, hx, Bool.false_eq_true, if_false]
    exact ih hxs _
/-- The first number from 1 to 255 with a property, or 255. -/
theorem firstCode_spec (p : Nat → Bool) :
    let c := (((List.range 255).map (· + 1)).find? p).getD 255
    1 ≤ c ∧ c ≤ 255 ∧ (∀ d, 1 ≤ d → d < c → p d = false) ∧ (c < 255 → p c = true) := by
  intro c
  cases hf : ((List.range 255).map (· + 1)).find? p with
  | none =>
    have hc : c = 255 := by unfold c; rw [hf]; rfl
    have no := List.find?_eq_none.mp hf
    refine ⟨by omega, by omega, fun d h1 h2 => ?_, fun h => by omega⟩
    have mem : d ∈ (List.range 255).map (· + 1) := List.mem_map.mpr ⟨d - 1, List.mem_range.mpr (by omega), by omega⟩
    simpa using no d mem
  | some d =>
    have hc : c = d := by unfold c; rw [hf]; rfl
    rw [List.find?_map, Option.map_eq_some_iff] at hf
    obtain ⟨j, hj, rfl⟩ := hf
    rw [List.find?_range_eq_some] at hj
    obtain ⟨hp, hm, hb⟩ := hj
    have := List.mem_range.mp hm
    refine ⟨by omega, by omega, fun d h1 h2 => ?_, fun _ => hc ▸ hp⟩
    have := hb (d - 1) (by omega)
    simpa [Nat.sub_add_cancel h1] using this

theorem blockCode_of_no_nan (t : Ty) {xs : List Val} (h : ∀ x ∈ xs, x.isNan = false) :
    blockCode t xs = let m := xs.foldl (fun m x => Val.max m x.abs) (Val.fin false 0 0 false)
      if m.isZero then 0 else (((List.range 255).map (· + 1)).find? (fun c => m.le ((qmax t).mul (decodeScale c)))).getD 255 := by
  unfold blockCode
  rw [greatest_of_no_nan h]
theorem blockCode_lt (t : Ty) (xs : List Val) : blockCode t xs < 2 ^ 8 := by
  unfold blockCode
  dsimp only
  split
  · decide
  · exact Nat.lt_succ_of_le (firstCode_spec _).2.1

/-! ## Blocks of a list (R184) -/

theorem range_blocks {α : Type} (h : Nat → α) (a b : Nat) :
    (List.range a).flatMap (fun j => (List.range b).map (fun i => h (j * b + i))) = (List.range (a * b)).map h := by
  induction a with
  | zero => simp
  | succ a ih =>
    rw [List.range_succ, List.flatMap_append, ih, Nat.succ_mul, List.range_add, List.map_append, List.map_map]
    simp
theorem take_drop_range {α : Type} (h : Nat → α) {d n m : Nat} (hm : d + n ≤ m) :
    (((List.range m).map h).drop d).take n = (List.range n).map (fun i => h (d + i)) := by
  refine List.ext_getElem (by simp; omega) fun i h1 h2 => ?_
  simp
theorem getD_map_range {α : Type} (h : Nat → α) (n i : Nat) (z : α) :
    ((List.range n).map h).getD i z = if i < n then h i else z := by
  by_cases hi : i < n
  · simp [hi]
  · simp [hi]

/-- Numbers of w bits summed at the places that they have in a list. -/
theorem sum_zipIdx {w : Nat} {vs : List Nat} (h : ∀ v ∈ vs, v < 2 ^ w) {k m : Nat} :
    (vs.zipIdx k).foldl (fun m p => m + p.1 * 2 ^ (w * p.2)) m = m + lanesNat w vs * 2 ^ (w * k) := by
  induction vs generalizing k m with
  | nil => simp [lanesNat]
  | cons v vs ih =>
    obtain ⟨hv, hvs⟩ := List.forall_mem_cons.mp h
    have step : lanesNat w (v :: vs) = v % 2 ^ w + lanesNat w vs * 2 ^ w := rfl
    rw [List.zipIdx_cons, List.foldl_cons, ih hvs, step, Nat.mod_eq_of_lt hv, Nat.mul_succ, Nat.pow_add]
    ring

/-- Some lane of a beat holds poison where some quarter does. -/
theorem any_laneP (c : Cap) (t : Ty) : (List.range t.lanes).any (fun i => c.laneP t.width i) = c.anyP := by
  have quarters : ∀ p : BitVec 4, (p != 0) = (List.range 4).any (fun q => p.getLsbD q) := by decide
  have cover : ∀ q < 4, ∃ i < t.lanes, q ∈ quartersOf t.width i := by cases t <;> decide
  unfold Cap.anyP
  rw [quarters, Bool.eq_iff_iff]
  simp only [List.any_eq_true, List.mem_range, Cap.laneP, Cap.pq]
  constructor
  · rintro ⟨i, -, q, hq, hp⟩
    exact ⟨q, (mem_quartersOf.mp hq).1, hp⟩
  · rintro ⟨q, hq, hp⟩
    obtain ⟨i, hi, hm⟩ := cover q hq
    exact ⟨i, hi, q, hm, hp⟩

/-- Poison of some lane of the beats read, oldest first. -/
theorem any_beats (beat : Nat → Cap) (t : Ty) (k : Nat) :
    (((List.range k).map (fun j => beat (k - 1 - j))).flatMap (fun b => (List.range t.lanes).map (fun i => b.laneP t.width i))).any id =
      ((List.range k).map beat).any Cap.anyP := by
  rw [Bool.eq_iff_iff]
  simp only [List.any_flatMap, List.any_map, Function.comp_def, id_eq, any_laneP, List.any_eq_true, List.mem_range]
  constructor
  · rintro ⟨j, hj, h⟩
    exact ⟨k - 1 - j, by omega, h⟩
  · rintro ⟨j, hj, h⟩
    exact ⟨k - 1 - j, by omega, by rwa [show k - 1 - (k - 1 - j) = j by omega]⟩

section
variable (s : State) (f : EntryF) (src : Ty)

/-- Beats that a `blk.pack` reads, its block length, source values, and scale codes. -/
def packLen : Nat := (s.cfg s.cur s.ei).blk
def packBeats : Nat := max f.ty.lanes (packLen s) / src.lanes
def packVals : List Val :=
  ((List.range (packBeats s f src)).map (fun j => s.opndOlder s.cur s.ei f.a (packBeats s f src - 1 - j))).flatMap (fun b =>
    (List.range src.lanes).map (fun i => decodeFloat src (laneOf src.width b.data i)))
def packBlocks : List (List Val) :=
  (List.range (max f.ty.lanes (packLen s) / packLen s)).map (fun j => ((packVals s f src).drop (j * packLen s)).take (packLen s))
def packCodes : List Nat := (packBlocks s f src).map (blockCode f.ty)
def packElems : List Nat := ((packBlocks s f src).zip (packCodes s f src)).flatMap (fun p => blockElems f.ty p.2 p.1)
def packData : W128 := packLanes f.ty.width (if f.ty.lanes < packLen s
  then ((packElems s f src).drop (f.x.toNat / 16 % 2 * f.ty.lanes)).take f.ty.lanes else packElems s f src)
def packScales : Nat := ((packCodes s f src).zipIdx.take 4).foldl (fun m p => m + p.1 * 2 ^ (8 * p.2)) 0
def packPoison : BitVec 4 :=
  if ((List.range (packBeats s f src)).map (s.opndOlder s.cur s.ei f.a)).any Cap.anyP then 15 else 0

theorem exec_blkPack (h : Ty.ofCode? (f.x.toNat % 16) = some src) :
    exec (.entryBlkPack f) s = s.result f 4 s.me
      { data := packData s f src, side := mkSide (packPoison s f src) (BitVec.ofNat 32 (packScales s f src)) } := by
  show execEntryBlkPack f s = _
  unfold execEntryBlkPack
  simp only [h, Option.getD_some]
  rw [any_beats]
  rfl

/-- The types and block lengths that a `blk.pack` may name (R184). -/
def PackFit : Prop := src ∈ [Ty.f32, .bf16, .f16] ∧ f.ty ∈ [Ty.e2m1, .e4m3, .e5m2] ∧ packLen s ∈ [8, 16, 32]
def packSource (k : Nat) : Val := packed s f.a src (packBeats s f src) k
def packCode (b : Nat) : Nat := blockCode f.ty ((List.range (packLen s)).map (fun i => packSource s f src (b * packLen s + i)))

theorem packVals_eq : packVals s f src = (List.range (packBeats s f src * src.lanes)).map (packSource s f src) := by
  have pos : 0 < src.lanes := by cases src <;> decide
  rw [← range_blocks]
  unfold packVals packSource packed
  rw [List.flatMap_map]
  refine List.flatMap_congr fun j _ => List.map_congr_left fun i hi => ?_
  have hi := List.mem_range.mp hi
  rw [Nat.mul_comm j, Nat.mul_add_div pos, Nat.mul_add_mod, Nat.div_eq_of_lt hi, Nat.mod_eq_of_lt hi, Nat.add_zero]

variable {s f src} (h : PackFit s f src)
include h

/-- The beats read make whole blocks. -/
theorem PackFit.sizes : 0 < packLen s ∧ packBeats s f src * src.lanes = max f.ty.lanes (packLen s) ∧
    max f.ty.lanes (packLen s) / packLen s * packLen s = max f.ty.lanes (packLen s) ∧ max f.ty.lanes (packLen s) / packLen s ≤ 4 ∧
    (packLen s ≤ f.ty.lanes ∨ 2 * f.ty.lanes = packLen s) := by
  obtain ⟨hs, ht, hn⟩ := h
  unfold packBeats
  generalize packLen s = n at *
  generalize f.ty = t at *
  revert n
  revert t
  revert src
  decide
theorem PackFit.blocks : packBlocks s f src = (List.range (max f.ty.lanes (packLen s) / packLen s)).map (fun j =>
    (List.range (packLen s)).map (fun i => packSource s f src (j * packLen s + i))) := by
  obtain ⟨pos, total, whole, -, -⟩ := h.sizes
  unfold packBlocks
  rw [packVals_eq, total]
  refine List.map_congr_left fun j hj => take_drop_range _ ?_
  have := Nat.mul_le_mul_right (packLen s) (List.mem_range.mp hj)
  rw [whole, Nat.succ_mul] at this
  exact this
theorem PackFit.codes : packCodes s f src = (List.range (max f.ty.lanes (packLen s) / packLen s)).map (packCode s f src) := by
  unfold packCodes
  rw [h.blocks, List.map_map]
  rfl
theorem PackFit.elems : packElems s f src = (List.range (max f.ty.lanes (packLen s))).map (fun k =>
    elemCode f.ty (packCode s f src (k / packLen s)) (packSource s f src k)) := by
  obtain ⟨pos, total, whole, -, -⟩ := h.sizes
  conv => rhs; rw [← whole]
  rw [← range_blocks]
  unfold packElems
  rw [h.codes, h.blocks, List.zip_map', List.flatMap_map]
  refine List.flatMap_congr fun j _ => ?_
  unfold blockElems
  rw [List.map_map]
  refine List.map_congr_left fun i hi => ?_
  rw [Nat.mul_comm j, Nat.mul_add_div pos, Nat.div_eq_of_lt (List.mem_range.mp hi), Nat.add_zero]
  rfl
theorem PackFit.lanes : Lanes f.ty.width f.ty.lanes (packData s f src) (fun i =>
    let k := (if f.ty.lanes < packLen s then f.x.toNat / 16 % 2 * f.ty.lanes else 0) + i
    elemCode f.ty (packCode s f src (k / packLen s)) (packSource s f src k)) := by
  obtain ⟨-, -, -, -, fit⟩ := h.sizes
  unfold packData
  rw [h.elems]
  by_cases hl : f.ty.lanes < packLen s
  · have half : f.x.toNat / 16 % 2 * f.ty.lanes ≤ f.ty.lanes := by
      have := Nat.mul_le_mul_right f.ty.lanes (show f.x.toNat / 16 % 2 ≤ 1 by omega)
      omega
    simp only [if_pos hl]
    rw [take_drop_range _ (by omega)]
    exact lanes_of_type _ _
  · simp only [if_neg hl, Nat.zero_add, Nat.max_eq_left (not_lt.mp hl)]
    exact lanes_of_type _ _
theorem PackFit.scales {b : Nat} (hb : b < 4) (p : BitVec 4) : scaleByte (mkSide p (BitVec.ofNat 32 (packScales s f src))) b =
    if b * packLen s < max f.ty.lanes (packLen s) then packCode s f src b else 0 := by
  obtain ⟨pos, -, whole, few, -⟩ := h.sizes
  have byte : ∀ v ∈ packCodes s f src, v < 2 ^ 8 := fun v hv => by
    obtain ⟨xs, -, rfl⟩ := List.mem_map.mp hv
    exact blockCode_lt f.ty xs
  have len : (packCodes s f src).length ≤ 4 := by rw [h.codes]; simpa using few
  unfold packScales
  rw [List.take_of_length_le (by simpa using len), sum_zipIdx byte, Nat.zero_add, Nat.mul_zero, Nat.pow_zero, Nat.mul_one,
    scaleByte_mkSide p len hb, h.codes, getD_map_range]
  have inside : b < max f.ty.lanes (packLen s) / packLen s ↔ b * packLen s < max f.ty.lanes (packLen s) := by
    conv => rhs; rw [← whole]
    exact (Nat.mul_lt_mul_right pos).symm
  rw [if_congr inside rfl rfl]
  split
  · exact Nat.mod_eq_of_lt (blockCode_lt ..)
  · rfl

end

/-! ## `blk.unpk` (R185) -/

section
variable (s : State) (f : EntryF) (e : Ty)

/-- Scale byte of lane j of the elements of a `blk.unpk`. -/
def unpkScale (j : Nat) : Nat :=
  if f.x.getLsbD 7 then scaleByte (s.opndOlder s.cur s.ei f.a 1).side 0
  else if e.lanes < s.lineBlk s.cur s.ei f.a then scaleByte (s.opA f).side 0
  else scaleByte (s.opA f).side (j / s.lineBlk s.cur s.ei f.a)
/-- Lane i of its result. -/
def unpkLane (i : Nat) : Nat :=
  roundTo f.ty f.rnd f.sat (rs16 (drawsOf f (elemOf s)).1 i)
    ((decodeFloat e (laneOf e.width (s.opA f).data (f.x.toNat / 16 % 8 * f.ty.lanes + i))).mul
      (decodeScale (unpkScale s f e (f.x.toNat / 16 % 8 * f.ty.lanes + i))))

theorem exec_blkUnpk (h : Ty.ofCode? (f.x.toNat % 16) = some e) :
    exec (.entryBlkUnpk f) s = s.result f 2 (drawn f (elemOf s))
      { data := packLanes f.ty.width ((List.range f.ty.lanes).map (unpkLane s f e))
        side := mkSide (lanePoison f.ty.width f.ty.lanes
          (fun i => (s.opA f).laneP e.width (f.x.toNat / 16 % 8 * f.ty.lanes + i))) 0 } := by
  show execEntryBlkUnpk f s = _
  unfold execEntryBlkUnpk
  simp only [h, Option.getD_some]
  rw [show (if (f.rnd == .rs) = true then _ else _) = _ from drawsOf_eq f s.me]
  rfl

end

end Sys2Proof.Machine

namespace Sys2Proof.Proofs

open Sys2Proof.Machine Sys2Proof.Claims

/-- The first code that suffices is the least one. -/
theorem blockScaleIsLeast : BlockScaleIsLeast := by
  intro t xs h
  rw [blockCode_of_no_nan t h]
  intro m
  refine ⟨fun hz => if_pos hz, fun hz => ?_⟩
  dsimp only
  rw [if_neg (by rw [hz]; decide)]
  exact firstCode_spec _

/-- A `blk.pack` is one result of codes and scales, a `blk.unpk` one of rounded products. -/
theorem blockPacking : BlockPacking := by
  refine ⟨fun s f src h => ?poison, fun s f src h hs ht hn => ?pack, fun s f e h => ?unpack⟩
  case poison =>
    obtain ⟨t, next, only, result⟩ := s.result_issued f 4 s.me
      ⟨packData s f src, mkSide (packPoison s f src) (BitVec.ofNat 32 (packScales s f src))⟩
    exact ⟨t, _, _, (exec_blkPack s f src h).trans next, only, result, poisonOf_mkSide ..⟩
  case pack =>
    have fit : PackFit s f src := ⟨hs, ht, hn⟩
    obtain ⟨t, next, -, result⟩ := s.result_issued f 4 s.me
      ⟨packData s f src, mkSide (packPoison s f src) (BitVec.ofNat 32 (packScales s f src))⟩
    exact ⟨t, _, _, (exec_blkPack s f src h).trans next, result, fit.lanes, fun b hb => fit.scales hb _⟩
  case unpack =>
    obtain ⟨t, next, only, result⟩ := s.result_issued f 2 (drawn f (elemOf s)) ⟨_, _⟩
    exact ⟨t, _, _, (exec_blkUnpk s f e h).trans next, only, result, scalesOf_mkSide .., lanes_of_type _ _⟩

/-- Settles O56: lanes and scale bytes of a pack block by block, and the least scale by the search that finds it. -/
theorem blockScaling : Obligations.BlockScaling := ⟨blockPacking, blockScaleIsLeast⟩

end Sys2Proof.Proofs
end

section

/-! # A scatter through a translation whose size is no multiple of a granule (R243) -/

namespace Sys2Proof.Machine

open Sys2Proof.Claims

/-! ## The state

`TlbEnt.size` is any number. Through an entry of 100 bytes the physical address and the virtual one stand at different
places of their granules, so a lane that lies in one granule of its virtual address is stored across two granules of
memory, of which a write renews the check of the first alone. -/

/-- 100 bytes from virtual address 0, which the frame at 65,536 has from 65,500. -/
def oddEntry : TlbEnt := { tenant := 0, base := 0, size := 100, pte := 0x1071F }
/-- The 64 KiB from virtual address 65,536, at the same frame. -/
def evenEntry : TlbEnt := { tenant := 0, base := 65536, size := 65536, pte := 0x1071F }
/-- A scatter of four-byte elements with a stride of 2, whose base is that of its range. -/
def oddScatter : StreamRec :=
  { (default : StreamRec) with hdr := { start := 0x80, island := 0 }, window := 1, esize := 2, l1 := { count := 4, stride := 2 } }
/-- Its command, over the range from address 64. -/
def oddCmd : CmdRec :=
  { words := (oddScatter.toWords 2 false false).map (BitVec.ofNat 64), refs := [{ word := 6, stream := 0, off := 64 }] }
/-- The indices of its lanes, and the addresses that they name. -/
def oddIndex (q : Nat) : Nat := [17, 32770, 32800, 32802].getD q 0
def oddVa (q : Nat) : Nat := 64 + 2 * oddIndex q
/-- Where the lanes are stored: lane 0 at bytes 62 to 65 of granule 1,024, lane 1 in granule 1,025. -/
def oddPa (q : Nat) : Nat := if q = 0 then 65598 else oddVa q
/-- Four bytes of ones in each lane. -/
def oddBeat : Cap := { data := BitVec.allOnes 128 }
/-- The beat of indices. -/
def oddIndices : Cap := { data := (32802#32 ++ 32800#32 ++ 32770#32 ++ 17#32 : BitVec 128) }
/-- Task 1 alone, head, with the scatter at work on its first beat. -/
def oddState : State :=
  { tasks := [(1, { gang := 1, phase := .resident, streams := [{ hi := 131072 }] })], gangs := [(1, { size := 1 })]
    owner := [(0, some 1)], tlb1 := [(0, [oddEntry, evenEntry])]
    active := [(0, { isls := [{ bottom := 15, right := 31, count := 1 }], cmds := [oddCmd] })]
    isls := [(0, { running := true })], cmdTab := [(0, oddCmd)]
    runs := [(0, { st := .running, ins := some (.sScat oddScatter), idx := [(0, some oddIndices)], taken := [(0, some oddBeat)] })] }

/-! ## What holds in it -/

theorem oddState_index : ∀ q < 4,
    (oddState.run 0 0).index (perBeat oddScatter * (oddState.run 0 0).done + q) = some (oddIndex q, false) := by decide +kernel
theorem oddState_indexAt : ∀ q < 4, IndexAt oddState 0 0 oddScatter (oddIndex q) (oddVa q) := by
  unfold IndexAt; decide +kernel
/-- The entry through which a lane goes. -/
def oddHeld (q : Nat) : TlbEnt := if q = 0 then oddEntry else evenEntry
theorem oddState_lookup : ∀ q < 4, oddState.tlbLookup 0 0 (oddVa q) = some (oddHeld q) := by decide +kernel
theorem oddHeld_dirty (q : Nat) : pteBit (oddHeld q).pte.toNat 9 = true := by
  unfold oddHeld; split <;> decide +kernel
theorem oddState_leaf : ∀ q < 4,
    oddState.checkLeaf 0 false .store (oddHeld q).pte.toNat (oddHeld q).size (oddVa q) = .ok (oddPa q) false false 0 := by
  decide +kernel
theorem oddState_quiet : ∀ q < 4, oddVa q % 64 + 4 ≤ 64 ∧ oddVa q < 2 ^ 48 ∧ (oddState.task 1).laidGranule (oddVa q) = false ∧
    oddState.hardMem (oddPa q) = false ∧ oddState.checkOk (oddPa q / 64) = true ∧ oddState.victims 1 [oddPa q / 64] [] = [] := by
  decide +kernel
/-- Every lane meets what the statement asks of an engine's write. -/
theorem oddState_writes (q : Nat) (hq : q < 4) : EngWrites oddState 0 true (oddVa q) (elemBytes oddScatter) (oddPa q) := by
  obtain ⟨inGranule, low, noLaid, noHard, sound, noVictim⟩ := oddState_quiet q hq
  have through := oddState.translate_held 0 0 0 false .store (oddVa q) _ low (oddState_lookup q hq)
    (by rw [oddHeld_dirty]; rfl)
  exact ⟨inGranule, noLaid, noHard, sound, noVictim, false, false, 0,
    (if_pos rfl).mpr (through.trans (congrArg (Prod.mk oddState) (oddState_leaf q hq)))⟩
/-- Its beat is not done after a step: lane 0 has spoiled the check of the granule of lane 1. -/
theorem oddState_stops : (match exec (.writeBeatAccepted 0 0) oddState with
    | .next t => (t.run 0 0).done
    | _ => 0) = 0 := by decide +kernel

end Sys2Proof.Machine

namespace Sys2Proof.Proofs

open Sys2Proof.Machine Sys2Proof.Claims

/-- An `s.scat` of a head need not end its beat, though each of its lanes alone can be written. -/
theorem not_indirectBeats : ¬ IndirectBeats := by
  rintro ⟨-, -, scatters⟩
  obtain ⟨t, ht, done, -⟩ := scatters oddState 0 0 oddScatter oddBeat oddIndex oddVa oddPa rfl (by decide +kernel)
    (by decide +kernel) (by decide +kernel) (by decide +kernel) (.inl rfl)
    (fun q hq => ⟨⟨false, oddState_index q hq⟩, oddState_indexAt q hq, oddState_writes q hq⟩)
  have stops := oddState_stops
  rw [ht] at stops
  exact absurd (done.symm.trans stops) (by decide +kernel)

/-- Refutes O33: the beat of an `s.scat` of a head need not be stored. In `oddState` a translation of 100 bytes puts lane 0
across two granules; the write renews the check of the first alone, and lane 1, which goes into the second, raises 0x14
and is not stored. -/
theorem not_streamContents : ¬ Obligations.StreamContents := by
  rintro ⟨-, -, indirect, -⟩
  exact not_indirectBeats indirect

end Sys2Proof.Proofs
end

section

/-! # What an engine's accesses keep (R78, R79, R82, R241, R246) -/

namespace Sys2Proof.Machine

open Sys2Proof.Laws Sys2Proof.Claims

/-! ## The signature of a reader aborts nobody of whom its writes would not -/

/-- After a change of a task's signature each task is as it was, but for its signature. -/
theorem State.task_noteRead (s : State) (id : Nat) (gs : List Nat) (j : Nat) :
    ∃ g, (s.noteRead id gs).task j = { s.task j with sig := g } := by
  rcases s.task_modTask id j (fun t => { t with sig := gs.foldl sigAdd t.sig }) with e | ⟨-, e⟩
  · exact ⟨_, e⟩
  · exact ⟨_, e⟩
/-- An entry of the tasks after a read is an old one, or that of the reader, which was listed. -/
theorem State.entry_noteRead (s : State) (id : Nat) (gs : List Nat) {p : Nat × Task} (hp : p ∈ (s.noteRead id gs).tasks) :
    p ∈ s.tasks ∨ (p.1 = id ∧ (∃ q ∈ s.tasks, q.1 = id) ∧ p.2.ts = (s.task id).ts) := by
  unfold State.noteRead State.modTask at hp
  split at hp
  · exact .inl hp
  · next hg =>
    rcases mem_mset hp with rfl | hp
    · exact .inr ⟨rfl, ⟨_, mem_of_mget_ne_default s.tasks id (fun e => hg (by unfold State.task; rw [e]; rfl)), rfl⟩, rfl⟩
    · exact .inl hp
theorem State.inHeadGroup_noteRead (s : State) (id : Nat) (gs : List Nat) (j : Nat) (h : s.inHeadGroup j = true) :
    (s.noteRead id gs).inHeadGroup j = true := by
  unfold State.inHeadGroup at *
  simp only [Bool.and_eq_true, List.all_eq_true] at *
  obtain ⟨inOrder, first⟩ := h
  obtain ⟨g, ej⟩ := s.task_noteRead id gs j
  refine ⟨by rw [ej]; exact inOrder, fun k hk => ?_⟩
  obtain ⟨p, hp, rfl⟩ := List.mem_map.mp hk
  obtain ⟨q, hq, e⟩ : ∃ q ∈ s.tasks, q.1 = p.1 := by
    rcases s.entry_noteRead id gs hp with hp | ⟨e, ⟨q, hq, e'⟩, -⟩
    · exact ⟨p, hp, rfl⟩
    · exact ⟨q, hq, e'.trans e.symm⟩
  obtain ⟨g', ek⟩ := s.task_noteRead id gs p.1
  rw [ej, ek]
  exact first p.1 (List.mem_map.mpr ⟨q, hq, e⟩)
/-- A task's own reads add no victim of its writes. -/
theorem State.victims_noteRead (s : State) (id : Nat) (gs hs : List Nat) (v : Nat)
    (hv : v ∈ (s.noteRead id gs).victims id hs []) : v ∈ s.victims id hs [] := by
  unfold State.victims at *
  obtain ⟨p, hp, rfl⟩ := List.mem_map.mp hv
  obtain ⟨hp, hc⟩ := List.mem_filter.mp hp
  obtain ⟨g, e⟩ := s.task_noteRead id gs id
  rw [e] at hc
  simp only [Bool.and_eq_true, Bool.not_eq_true', decide_eq_true_eq] at hc
  obtain ⟨⟨⟨⟨inOrder, sameInst⟩, later⟩, behind⟩, met⟩ := hc
  rcases s.entry_noteRead id gs hp with hp | ⟨-, -, ts⟩
  · refine List.mem_map.mpr ⟨p, List.mem_filter.mpr ⟨hp, ?_⟩, rfl⟩
    simp only [Bool.and_eq_true, Bool.not_eq_true', decide_eq_true_eq]
    refine ⟨⟨⟨⟨inOrder, sameInst⟩, later⟩, ?_⟩, met⟩
    by_contra head
    rw [s.inHeadGroup_noteRead id gs p.1 (by simpa using head)] at behind
    exact nomatch behind
  · rw [ts] at later
    exact absurd later (Nat.lt_irrefl _)

/-! ## What accesses leave -/

/-- `u` differs from `s` in what accesses of task `id` may change and still leave its further accesses alone: memory and checks, its
own signature and traffic, and what it and others have let out; no write has more victims. -/
structure State.Steady (id : Nat) (s u : State) : Prop where
  errs : u.errs = s.errs
  regs : u.regs = s.regs
  start : u.start = s.start
  atRun : u.atRun = s.atRun
  faultQ : u.faultQ = s.faultQ
  task : u.task id = { s.task id with
    sig := (u.task id).sig, out := (u.task id).out, redo := (u.task id).redo, traffic := (u.task id).traffic }
  victims : ∀ gs, ∀ v ∈ u.victims id gs [], v ∈ s.victims id gs []
/-- `u` is `s` after reads of task `id`. -/
structure State.ReadOn (id : Nat) (s u : State) : Prop extends State.Steady id s u where
  mem : u.mem = s.mem
  checks : u.checks = s.checks

section
variable {id : Nat} {s t u : State}

theorem State.Steady.refl (id : Nat) (s : State) : State.Steady id s s := ⟨rfl, rfl, rfl, rfl, rfl, rfl, fun _ _ h => h⟩
theorem State.Steady.trans (h : State.Steady id s t) (k : State.Steady id t u) : State.Steady id s u :=
  ⟨k.errs.trans h.errs, k.regs.trans h.regs, k.start.trans h.start, k.atRun.trans h.atRun, k.faultQ.trans h.faultQ,
   k.task.trans (by rw [h.task]), fun gs v hv => h.victims gs v (k.victims gs v hv)⟩
theorem State.ReadOn.refl (id : Nat) (s : State) : State.ReadOn id s s := ⟨.refl id s, rfl, rfl⟩
theorem State.ReadOn.trans (h : State.ReadOn id s t) (k : State.ReadOn id t u) : State.ReadOn id s u :=
  ⟨h.toSteady.trans k.toSteady, k.mem.trans h.mem, k.checks.trans h.checks⟩
/-- Changes of tasks that are alike. -/
theorem State.Alike.steady (h : s.Alike t) (k : s.OnlyTasks t) : State.Steady id s t :=
  ⟨by rw [k], by rw [k], by rw [k], by rw [k], by rw [k], by rw [h.task id], fun gs => h.victims id gs []⟩
theorem State.noteRead_steady (s : State) (id : Nat) (gs : List Nat) : State.Steady id s (s.noteRead id gs) := by
  have only := s.noteRead_only id gs
  obtain ⟨g, e⟩ := s.task_noteRead id gs id
  exact ⟨by rw [only], by rw [only], by rw [only], by rw [only], by rw [only], by rw [e], s.victims_noteRead id gs⟩
/-- A read of one granule notes it and counts its bytes. -/
theorem State.readOn_move (s : State) (id : Nat) (gs : List Nat) (pa n : Nat) :
    State.ReadOn id s ((s.noteRead id gs).move id pa n) :=
  ⟨(s.noteRead_steady id gs).trans (((s.noteRead id gs).move_alike id pa n).steady (State.move_only ..)),
   by rw [State.move_mem, State.noteRead_mem], ((s.noteRead_only id gs).trans (State.move_only _ id pa n)).checks⟩

theorem State.Steady.extents (h : State.Steady id s u) : (u.task id).extents = (s.task id).extents := by rw [h.task]
theorem State.Steady.hold (h : State.Steady id s u) : (u.task id).hold = (s.task id).hold := by rw [h.task]
theorem State.Steady.lays (h : State.Steady id s u) : (u.task id).lays = (s.task id).lays := by rw [h.task]
theorem State.Steady.laidByte (h : State.Steady id s u) (va n : Nat) : (u.task id).laidByte va n = (s.task id).laidByte va n := by
  unfold Task.laidByte; rw [h.lays]
theorem State.Steady.laidGranule (h : State.Steady id s u) (va : Nat) : (u.task id).laidGranule va = (s.task id).laidGranule va := by
  unfold Task.laidGranule; rw [h.lays]
theorem State.Steady.hardMem (h : State.Steady id s u) (pa : Nat) : u.hardMem pa = s.hardMem pa := by
  unfold State.hardMem; rw [h.errs]
theorem State.Steady.atOf (h : State.Steady id s u) (i : Nat) : u.atOf i = s.atOf i := by
  unfold State.atOf; rw [h.atRun]
/-- An access through an extent that does not fault is judged as before. -/
theorem State.Steady.extAcc (h : State.Steady id s u) (k : AccK) {va : Nat}
    (hx : pteBit (mget (s.task id).extents (va / 65536)).toNat 0 = true) :
    u.extAcc (u.task id) k va = s.extAcc (s.task id) k va := by
  unfold State.extAcc State.extAccM
  rw [h.extents]
  simp only [hx, if_true]
  rw [show (u.task id).owner = (s.task id).owner by rw [h.task]]
  unfold State.checkLeaf State.place
  rw [h.start, h.regs]
theorem State.ReadOn.byte (h : State.ReadOn id s u) : u.byte = s.byte := by
  funext x; unfold State.byte; rw [h.mem]
theorem State.ReadOn.bytes (h : State.ReadOn id s u) : u.bytes = s.bytes := by
  funext a n; unfold State.bytes; rw [h.byte]
theorem State.ReadOn.checkOk (h : State.ReadOn id s u) (g : Nat) : u.checkOk g = s.checkOk g := by
  unfold State.checkOk State.granule; rw [h.checks, h.bytes]
theorem State.ReadOn.taskByte (h : State.ReadOn id s u) : u.taskByte (u.task id) = s.taskByte (s.task id) := by
  funext x; unfold State.taskByte; rw [h.hold, h.byte]
theorem State.ReadOn.seqDesc (h : State.ReadOn id s u) (pa : Nat) : u.seqDesc pa = s.seqDesc pa := by
  unfold State.seqDesc State.word; rw [h.bytes]
end

/-! ## Reads (R78, R241) -/

/-- Task `id` reads the byte at a virtual address, at a physical address, without a stop. -/
def State.SeesByte (s : State) (id va pa : Nat) : Prop :=
  pteBit (mget (s.task id).extents (va / 65536)).toNat 0 = true ∧ (s.task id).laidByte va 1 = false ∧ s.hardMem pa = false ∧
  s.checkOk (pa / 64) = true ∧ ∃ tag, s.extAcc (s.task id) .load va = .ok pa false false tag
theorem EngSees.seesByte {s : State} {c : Ctx} {va pa : Nat} (h : EngSees s c false va 1 pa) : s.SeesByte (s.taskAt c) va pa := by
  obtain ⟨-, noLaid, noHard, sound, tag, acc⟩ := h
  obtain ⟨present, acc⟩ := (if_neg Bool.false_ne_true).mp acc
  exact ⟨present, noLaid, noHard, sound, tag, acc⟩
theorem State.SeesByte.later {id : Nat} {s u : State} {va pa : Nat} (h : s.SeesByte id va pa) (k : State.ReadOn id s u) :
    u.SeesByte id va pa := by
  obtain ⟨present, noLaid, noHard, sound, tag, acc⟩ := h
  exact ⟨by rw [k.extents]; exact present, by rw [k.laidByte]; exact noLaid, by rw [k.hardMem]; exact noHard,
    by rw [k.checkOk]; exact sound, tag, by rw [k.extAcc .load present]; exact acc⟩

/-- The size of an extent's page is a multiple of its unit. -/
theorem dvd_sizeOfCode (n : Nat) : 65536 ∣ sizeOfCode n := by
  unfold sizeOfCode; split <;> decide
/-- Where an access that a leaf allows goes. -/
theorem State.checkLeaf_ok {s : State} {owner : BitVec 8} {sup : Bool} {k : AccK} {pte size va pa : Nat} {p dead : Bool} {tag : Nat}
    (h : s.checkLeaf owner sup k pte size va = .ok pa p dead tag) : pa = pteFrame pte * 65536 / size * size + va % size := by
  unfold State.checkLeaf at h
  grind
/-- Within a unit the physical address goes along with the virtual one. -/
theorem State.extAcc_along {s : State} {t : Task} {k : AccK} {va n pa pb tag tag' : Nat} {p dead p' dead' : Bool}
    (hx : pteBit (mget t.extents (va / 65536)).toNat 0 = true) (hn : va % 64 + n < 64)
    (ha : s.extAcc t k va = .ok pa p dead tag) (hb : s.extAcc t k (va + n) = .ok pb p' dead' tag') :
    pb = pa + n := by
  unfold State.extAcc State.extAccM at ha hb
  rw [show (va + n) / 65536 = va / 65536 by omega] at hb
  split at ha
  · exact nomatch ha
  split at hb
  · exact nomatch hb
  simp only [hx, if_true] at ha hb
  rw [State.checkLeaf_ok ha, State.checkLeaf_ok hb]
  obtain ⟨m, hm⟩ := dvd_sizeOfCode ((mget t.extents (va / 65536)).toNat / 2 ^ 60 % 8)
  rw [hm, Nat.add_assoc]
  congr 1
  rw [Nat.mod_mul, Nat.mod_mul, show (va + n) / 65536 = va / 65536 by omega]
  omega
/-- An access through an extent keeps the place in the granule. -/
theorem State.extAcc_mod {s : State} {t : Task} {k : AccK} {va pa tag : Nat} {p dead : Bool}
    (hx : pteBit (mget t.extents (va / 65536)).toNat 0 = true) (ha : s.extAcc t k va = .ok pa p dead tag) :
    pa % 64 = va % 64 := by
  unfold State.extAcc State.extAccM at ha
  split at ha
  · exact nomatch ha
  simp only [hx, if_true] at ha
  rw [State.checkLeaf_ok ha]
  obtain ⟨m, hm⟩ := dvd_sizeOfCode ((mget t.extents (va / 65536)).toNat / 2 ^ 60 % 8)
  rw [hm, Nat.mod_mul, ← Nat.mul_assoc, Nat.mul_right_comm]
  omega

theorem byteList_eq_map (f : Nat → Byte) (a n : Nat) : byteList f a n = (List.range n).map (fun k => f (a + k)) := by
  induction n generalizing a with
  | zero => rfl
  | succ n ih =>
    rw [byteList, ih, List.range_succ_eq_map, List.map_cons, List.map_map]
    exact congrArg₂ _ rfl (List.map_congr_left fun k _ => congrArg f (by show a + 1 + k = a + (k + 1); omega))
theorem State.bytes_eq_map (s : State) (pa n : Nat) : s.bytes pa n = (List.range n).map (fun k => s.byte (pa + k)) :=
  byteList_eq_map s.byte pa n
/-- No byte of a range is laid by where each alone is not. -/
theorem Task.laidByte_range {t : Task} {va n : Nat} (h : ∀ k < n, t.laidByte (va + k) 1 = false) : t.laidByte va n = false := by
  unfold Task.laidByte at *
  rw [List.any_eq_false]
  intro l hl hany
  simp only [Bool.and_eq_true, List.any_eq_true, List.mem_range] at hany
  obtain ⟨plain, k, hk, met⟩ := hany
  refine List.any_eq_false.mp (h k hk) l hl ?_
  simp only [Bool.and_eq_true, List.any_eq_true, List.mem_range]
  exact ⟨plain, 0, Nat.one_pos, met⟩

/-- What task `id` sees of n bytes, byte k of them at `at' k`. -/
def State.seenBytes (s : State) (id : Nat) (at' : Nat → Nat) (n : Nat) : List Byte :=
  (List.range n).map (fun k => s.taskByte (s.task id) (at' k))

/-- A piece of one granule whose bytes are seen is read. -/
theorem State.engPiece_seen {s : State} {id va n : Nat} {pa : Nat → Nat} (cmd pos : Nat) (h0 : 0 < n) (hn : va % 64 + n ≤ 64)
    (h : ∀ k < n, s.SeesByte id (va + k) (pa k)) :
    ∃ t, s.engPiece id cmd pos false false va n = (t, (s.seenBytes id pa n).map (fun b => (b, false)), .none) ∧
      State.ReadOn id s t := by
  obtain ⟨present, -, noHard, sound, tag, acc⟩ := h 0 h0
  have along (k : Nat) (hk : k < n) : pa k = pa 0 + k := by
    obtain ⟨-, -, -, -, tag', acc'⟩ := h k hk
    exact State.extAcc_along present (by omega) acc acc'
  have noLaid := Task.laidByte_range fun k hk => (h k hk).2.1
  have on := s.readOn_move id [pa 0 / 64] (pa 0) n
  have seen : ((s.noteRead id [pa 0 / 64]).move id (pa 0) n).taskBytes id (pa 0) n = s.seenBytes id pa n := by
    unfold State.taskBytes State.seenBytes
    rw [on.taskByte, byteList_eq_map]
    exact List.map_congr_left fun k hk => by rw [along k (List.mem_range.mp hk)]
  refine ⟨_, ?_, on⟩
  have read := s.noteRead_only id [pa 0 / 64]
  rw [Nat.add_zero] at present acc
  unfold State.engPiece
  simp only [Bool.false_eq_true, if_false, s.freshen_present id false va present, noLaid, acc, read.hardMem, noHard, read.checkOk,
    sound, if_true, Bool.not_true, seen]
/-- Pieces one after another, byte x of them seen at `at' x`. -/
theorem State.engPieces_seen {s : State} {id : Nat} {at' : Nat → Nat} (cmd pos : Nat) (ps : List (Nat × Nat))
    (h : ∀ p ∈ ps, 0 < p.2 ∧ p.1 % 64 + p.2 ≤ 64 ∧ ∀ k < p.2, s.SeesByte id (p.1 + k) (at' (p.1 + k))) :
    ∃ t, s.engPieces id cmd pos false false ps =
        (t, (ps.flatMap (fun p => s.seenBytes id (fun k => at' (p.1 + k)) p.2)).map (fun b => (b, false)), .none) ∧
      State.ReadOn id s t := by
  induction ps generalizing s with
  | nil => exact ⟨s, rfl, .refl id s⟩
  | cons p ps ih =>
    obtain ⟨⟨h0, hn, first⟩, rest⟩ := List.forall_mem_cons.mp h
    obtain ⟨t, piece, on⟩ := State.engPiece_seen cmd pos h0 hn first
    obtain ⟨u, pieces, on'⟩ := ih fun q hq => by
      obtain ⟨some, inside, sees⟩ := rest q hq
      exact ⟨some, inside, fun k hk => (sees k hk).later on⟩
    refine ⟨u, ?_, on.trans on'⟩
    have same (n : Nat) (f : Nat → Nat) : t.seenBytes id f n = s.seenBytes id f n := by
      unfold State.seenBytes; rw [on.taskByte]
    simp only [same] at pieces
    obtain ⟨va, n⟩ := p
    unfold State.engPieces
    simp only [piece, pieces, List.flatMap_cons, List.map_append]

/-- A range within a granule is one piece. -/
theorem vaPieces_within {va n : Nat} (h0 : 0 < n) (h : va % 64 + n ≤ 64) : vaPieces va n = [(va, n)] := by
  unfold vaPieces granulesOf
  rw [if_neg (by omega), show (va + n - 1) / 64 - va / 64 + 1 = 1 by omega]
  simp only [List.range_one, List.map_cons, List.map_nil, Nat.zero_add, List.cons.injEq, Prod.mk.injEq, and_true]
  omega
/-- A range that leaves a granule is its piece of it, and the rest. -/
theorem vaPieces_across {va n : Nat} (h : 64 < va % 64 + n) :
    vaPieces va n = (va, 64 - va % 64) :: vaPieces (va + (64 - va % 64)) (n - (64 - va % 64)) := by
  unfold vaPieces granulesOf
  rw [if_neg (by omega), if_neg (by omega), show va + (64 - va % 64) + (n - (64 - va % 64)) - 1 = va + n - 1 by omega,
    show (va + (64 - va % 64)) / 64 = va / 64 + 1 by omega,
    show (va + n - 1) / 64 - va / 64 + 1 = (va + n - 1) / 64 - (va / 64 + 1) + 1 + 1 by omega, List.range_succ_eq_map]
  simp only [List.map_cons, List.map_map, Nat.zero_add, List.cons.injEq, Prod.mk.injEq]
  refine ⟨by omega, List.map_congr_left fun k hk => ?_⟩
  simp only [Function.comp_apply, Prod.mk.injEq, Nat.succ_eq_add_one]
  have := List.mem_range.mp hk
  omega
/-- The pieces of a range are its bytes in order, each within a granule. -/
theorem vaPieces_bytes {α : Type} (f : Nat → α) (va n : Nat) :
    (vaPieces va n).flatMap (fun p => (List.range p.2).map (fun k => f (p.1 + k))) = (List.range n).map (fun k => f (va + k)) ∧
    ∀ p ∈ vaPieces va n, 0 < p.2 ∧ p.1 % 64 + p.2 ≤ 64 ∧ va ≤ p.1 ∧ p.1 + p.2 ≤ va + n := by
  induction n using Nat.strongRecOn generalizing va with
  | ind n ih =>
    rcases Nat.eq_zero_or_pos n with rfl | h0
    · exact ⟨rfl, fun p hp => absurd hp List.not_mem_nil⟩
    by_cases hn : va % 64 + n ≤ 64
    · rw [vaPieces_within h0 hn]
      refine ⟨by simp, fun p hp => ?_⟩
      rw [List.mem_singleton.mp hp]
      exact ⟨h0, hn, Nat.le_refl _, Nat.le_refl _⟩
    · obtain ⟨bytes, within⟩ := ih (n - (64 - va % 64)) (by omega) (va + (64 - va % 64))
      rw [vaPieces_across (by omega), List.flatMap_cons, bytes]
      refine ⟨?_, List.forall_mem_cons.mpr ⟨⟨by show 0 < 64 - va % 64; omega, by show va % 64 + (64 - va % 64) ≤ 64; omega,
        Nat.le_refl _, by show va + (64 - va % 64) ≤ va + n; omega⟩, fun p hp => ?_⟩⟩
      · conv_rhs => rw [show n = (64 - va % 64) + (n - (64 - va % 64)) by omega, List.range_add, List.map_append, List.map_map]
        exact congrArg _ (List.map_congr_left fun k _ => congrArg f (Nat.add_assoc ..))
      · obtain ⟨h1, h2, h3, h4⟩ := within p hp
        exact ⟨h1, h2, by omega, by omega⟩

/-- A row whose bytes are seen is read. -/
theorem State.rowGet_seen {s : State} {id va n : Nat} {pa : Nat → Nat} (cmd pos : Nat)
    (h : ∀ k < n, s.SeesByte id (va + k) (pa k)) :
    ∃ t, s.rowGet id cmd pos va n = (t, s.seenBytes id pa n, .ok) ∧ State.ReadOn id s t := by
  obtain ⟨bytes, within⟩ := vaPieces_bytes (fun x => s.taskByte (s.task id) (pa (x - va))) va n
  obtain ⟨t, read, on⟩ := State.engPieces_seen (at' := fun x => pa (x - va)) cmd pos (vaPieces va n) (fun p hp => by
    obtain ⟨h0, hn, lo, hi⟩ := within p hp
    refine ⟨h0, hn, fun k hk => ?_⟩
    have := h (p.1 + k - va) (by omega)
    rwa [show va + (p.1 + k - va) = p.1 + k by omega] at this)
  refine ⟨t, ?_, on⟩
  have all : (vaPieces va n).flatMap (fun p => s.seenBytes id (fun k => pa (p.1 + k - va)) p.2) = s.seenBytes id pa n := by
    refine bytes.trans (List.map_congr_left fun k _ => ?_)
    rw [Nat.add_sub_cancel_left]
  rw [all] at read
  have clean : (((s.seenBytes id pa n).map (fun b => (b, false))).zipIdx).find? (fun p => p.1.2) = none := by
    rw [List.find?_eq_none]
    rintro ⟨⟨b, e⟩, k⟩ hp
    obtain ⟨b', -, e'⟩ := List.mem_map.mp (List.fst_mem_of_mem_zipIdx hp)
    rw [Prod.mk.injEq] at e'
    simp [← e'.2]
  unfold State.rowGet State.engRead
  simp only [read, clean, List.map_map, Function.comp_def, List.map_id']

end Sys2Proof.Machine
end

section

/-! # External writes of an engine, whole granules at a time (R72, R79, R82, R246) -/

namespace Sys2Proof.Machine

open Sys2Proof.Laws Sys2Proof.Claims

/-- Task `id` writes the granule at a virtual address, at a physical address, without a stop and without a victim. -/
def State.WritesGranule (s : State) (id va pa : Nat) : Prop :=
  pteBit (mget (s.task id).extents (va / 65536)).toNat 0 = true ∧ (s.task id).laidGranule va = false ∧ s.hardMem pa = false ∧
  s.victims id [pa / 64] [] = [] ∧ ∃ p dead tag, s.extAcc (s.task id) .store va = .ok pa p dead tag
theorem EngWrites.writesGranule {s : State} {c : Ctx} {va n pa : Nat} (h : EngWrites s c false va n pa) :
    s.WritesGranule (s.taskAt c) va pa := by
  obtain ⟨-, noLaid, noHard, -, noVictim, p, dead, tag, acc⟩ := h
  obtain ⟨present, acc⟩ := (if_neg Bool.false_ne_true).mp acc
  exact ⟨present, noLaid, noHard, noVictim, p, dead, tag, acc⟩
theorem State.WritesGranule.later {id : Nat} {s u : State} {va pa : Nat} (h : s.WritesGranule id va pa) (k : State.Steady id s u) :
    u.WritesGranule id va pa := by
  obtain ⟨present, noLaid, noHard, noVictim, p, dead, tag, acc⟩ := h
  refine ⟨by rw [k.extents]; exact present, by rw [k.laidGranule]; exact noLaid, by rw [k.hardMem]; exact noHard, ?_, p, dead, tag,
    by rw [k.extAcc .store present]; exact acc⟩
  exact List.eq_nil_iff_forall_not_mem.mpr fun v hv => List.not_mem_nil (noVictim ▸ k.victims _ v hv)
/-- It stands at the same place of its granule. -/
theorem State.WritesGranule.mod {id : Nat} {s : State} {va pa : Nat} (h : s.WritesGranule id va pa) : pa % 64 = va % 64 := by
  obtain ⟨present, -, -, -, p, dead, tag, acc⟩ := h
  exact State.extAcc_mod present acc

theorem State.visible_none {s : State} {id : Nat} {gs : List Nat} (h : s.victims id gs [] = []) : s.visible id gs [] = s := by
  unfold State.visible
  rw [h]
  exact ite_self s
/-- A write of a whole granule enters memory. -/
theorem State.engPut_granule {s : State} {id va pa : Nat} (cmd pos : Nat) {bs : List Byte} (h : s.WritesGranule id va pa)
    (hl : bs.length = 64) :
    ∃ w, s.engPut id cmd pos false true va bs = (w, .none) ∧ w.mem = putBytes s.mem pa bs ∧ State.Steady id s w := by
  have ⟨present, noLaid, noHard, noVictim, p, dead, tag, acc⟩ := h
  obtain ⟨k, put⟩ : ∃ k, s.writeGranule pa bs =
      ({ s with mem := putBytes s.mem pa bs, checks := mset s.checks (pa / 64) k }, true) := by
    rcases s.writeGranule_cases pa bs with ⟨-, short, -⟩ | ⟨k, e, -, -⟩
    · omega
    · exact ⟨k, e⟩
  generalize hw : ({ s with mem := putBytes s.mem pa bs, checks := mset s.checks (pa / 64) k } : State) = w at put
  have alike : s.Alike w := State.Alike.of_tasks (by rw [← hw])
  have first : State.Steady id s w := by
    rw [← hw] at alike ⊢
    exact ⟨rfl, rfl, rfl, rfl, rfl, rfl, fun gs => alike.victims id gs []⟩
  have only := (w.move_only id pa bs.length).trans (State.overtake_only _ id pa bs.length)
  have steady := first.trans (((w.move_alike id pa bs.length).trans (State.overtake_alike _ id pa bs.length)).steady only)
  have quiet := State.visible_none (h.later steady).2.2.2.1
  refine ⟨_, ?_, ?_, steady⟩
  · unfold State.engPut State.storeAcc State.storePa
    simp only [Bool.false_eq_true, if_false, s.freshen_present id true va present, acc, noHard, Option.any_none, noLaid,
      Bool.true_or, if_true, put, quiet]
  · rw [only.mem, ← hw]
/-- Granules at places of their own, one after another: each has its bytes, and every other byte is as before. -/
theorem State.engWrites_granules {s : State} {id : Nat} {va pa : Nat → Nat} {b : Nat → List Byte} (cmd pos : Nat) (gs : List Nat)
    (hb : ∀ g ∈ gs, (b g).length = 64) (h : ∀ g ∈ gs, s.WritesGranule id (va g) (pa g))
    (apart : gs.Pairwise (fun g h => pa g + 64 ≤ pa h ∨ pa h + 64 ≤ pa g)) :
    ∃ t, s.engWrites id cmd pos false true (gs.map (fun g => (va g, b g))) = (t, .none) ∧
      (∀ g ∈ gs, ∀ k < 64, t.byte (pa g + k) = (b g).getD k 0) ∧
      ∀ y, (∀ g ∈ gs, ¬ (pa g ≤ y ∧ y < pa g + 64)) → t.byte y = s.byte y := by
  induction gs generalizing s with
  | nil => exact ⟨s, rfl, fun g hg => absurd hg List.not_mem_nil, fun y _ => rfl⟩
  | cons g gs ih =>
    obtain ⟨length, hb'⟩ := List.forall_mem_cons.mp hb
    obtain ⟨first, h'⟩ := List.forall_mem_cons.mp h
    obtain ⟨beside, apart'⟩ := List.pairwise_cons.mp apart
    obtain ⟨w, put, mem, steady⟩ := State.engPut_granule cmd pos first length
    obtain ⟨t, puts, stored, kept⟩ := ih hb' (fun g' hg' => (h' g' hg').later steady) apart'
    refine ⟨t, ?_, List.forall_mem_cons.mpr ⟨fun k hk => ?_, stored⟩, fun y hy => ?_⟩
    · rw [List.map_cons]
      unfold State.engWrites
      simp only [put, puts]
    · rw [kept (pa g + k) fun g' hg' hin => by rcases beside g' hg' with d | d <;> omega]
      unfold State.byte
      rw [mem, mget_putBytes, if_pos (by omega), Nat.add_sub_cancel_left]
    · obtain ⟨outside, hy'⟩ := List.forall_mem_cons.mp hy
      rw [kept y hy']
      unfold State.byte
      rw [mem]
      exact mget_putBytes_out s.mem (pa g) (b g) y (by omega)
/-- Whole granules from a boundary on are cut at the boundaries. -/
theorem splitGranules_whole {va n : Nat} {bs : List Byte} (hv : va % 64 = 0) (hl : bs.length = 64 * n) (m : Nat) (hm : n < m) :
    splitGranules m va bs = (List.range n).map (fun g => (va + 64 * g, (bs.drop (64 * g)).take 64)) := by
  induction n generalizing va bs m with
  | zero =>
    rw [List.length_eq_zero_iff.mp hl]
    obtain ⟨m, rfl⟩ : ∃ k, m = k + 1 := ⟨m - 1, by omega⟩
    rfl
  | succ n ih =>
    obtain ⟨m, rfl⟩ : ∃ k, m = k + 1 := ⟨m - 1, by omega⟩
    obtain ⟨b, bs, rfl⟩ := List.exists_cons_of_length_pos (show 0 < bs.length by omega)
    rw [show splitGranules (m + 1) va (b :: bs) = (va, (b :: bs).take (64 - va % 64)) ::
        splitGranules m (va + (64 - va % 64)) ((b :: bs).drop (64 - va % 64)) from rfl, show 64 - va % 64 = 64 by omega,
      ih (show (va + 64) % 64 = 0 by omega) (by rw [List.length_drop, hl]; omega) m (by omega), List.range_succ_eq_map,
      List.map_cons, List.map_map]
    refine congrArg₂ _ (by simp) (List.map_congr_left fun g _ => ?_)
    simp only [Function.comp_apply, List.drop_drop, Prod.mk.injEq, Nat.succ_eq_add_one]
    exact ⟨by omega, by rw [show 64 + 64 * g = 64 * (g + 1) by omega]⟩

/-- A record of n granules is written, byte o of it where the statement looks for it. -/
theorem State.rowPut_granules {s u : State} {c : Ctx} {va n : Nat} {pa : Nat → Nat} (cmd pos : Nat) {bs : List Byte}
    (h : GranulesWritten s c va n pa) (on : State.ReadOn (s.taskAt c) s u) (hl : bs.length = 64 * n) :
    ∃ t, u.rowPut (s.taskAt c) cmd pos va bs = (t, .ok) ∧
      (∀ o k, o + k ≤ 64 * n → wroteAt t pa o k = leVal ((bs.drop o).take k)) ∧ ElseKept s t pa n := by
  obtain ⟨hv, writes, apart⟩ := h
  have granule (g : Nat) (hg : g < n) : u.WritesGranule (s.taskAt c) (va + 64 * g) (pa g) :=
    (EngWrites.writesGranule (writes g hg)).later on.toSteady
  have aligned (g : Nat) (hg : g < n) : pa g % 64 = 0 := by have := (granule g hg).mod; omega
  obtain ⟨t, put, stored, kept⟩ := State.engWrites_granules (va := fun g => va + 64 * g) (b := fun g => (bs.drop (64 * g)).take 64)
    cmd pos (List.range n) (fun g hg => by rw [List.length_take, List.length_drop]; have := List.mem_range.mp hg; omega)
    (fun g hg => granule g (List.mem_range.mp hg)) (List.pairwise_lt_range.imp_of_mem fun {g h} hg hh lt => by
      have := aligned g (List.mem_range.mp hg)
      have := aligned h (List.mem_range.mp hh)
      have := apart h (List.mem_range.mp hh) g lt
      omega)
  refine ⟨t, ?_, fun o k hk => ?_, fun y hy => ?_⟩
  · unfold State.rowPut State.engWrite pieces
    rw [splitGranules_whole hv hl _ (by omega), put]
  · have byte (x : Nat) (hx : x < 64 * n) : t.byte (pa (x / 64) + x % 64) = bs.getD x 0 := by
      rw [stored (x / 64) (List.mem_range.mpr (by omega)) (x % 64) (by omega)]
      simp only [List.getD_eq_getElem?_getD, List.getElem?_take, List.getElem?_drop]
      rw [if_pos (by omega), show 64 * (x / 64) + x % 64 = x by omega]
    unfold wroteAt
    refine congrArg leVal (List.ext_getElem (by simp; omega) fun j h1 h2 => ?_)
    have hj : j < k := by simpa using h1
    simp only [List.getElem_map, List.getElem_range, List.getElem_take, List.getElem_drop]
    rw [byte (o + j) (by omega), List.getD_eq_getElem _ _ (by omega)]
  · rw [kept y fun g hg => hy g (List.mem_range.mp hg), on.byte]

end Sys2Proof.Machine
end

section

/-! # The order of values, and a choice of the best (R352) -/

namespace Sys2Proof.Machine

/-! ## The order of values -/

/-- The place of a value that is no NaN among the extended rationals. -/
def Val.key : Val → WithBot (WithTop ℚ)
  | .nan => ⊥
  | .inf a => if a then ⊥ else ⊤
  | .fin a m e _ => (((if a then -(m : ℚ) else m) * 2 ^ e : ℚ) : WithTop ℚ)

theorem scaled_eq (a : Bool) (m : Nat) {e lo : Int} (h : lo ≤ e) :
    ((scaled a m e lo : Int) : ℚ) * 2 ^ lo = (if a then -(m : ℚ) else m) * 2 ^ e := by
  have split : (2 : ℚ) ^ e = 2 ^ (e - lo).toNat * 2 ^ lo := by
    rw [← zpow_natCast, ← zpow_add₀ (by norm_num), Int.toNat_of_nonneg (by omega), Int.sub_add_cancel]
  rw [split, ← mul_assoc]
  unfold scaled
  cases a <;> push_cast <;> simp
theorem Val.lt_iff_key {x y : Val} (hx : x.isNan = false) (hy : y.isNan = false) : x.lt y = true ↔ x.key < y.key := by
  cases x with
  | nan => exact nomatch hx
  | inf a =>
    cases y with
    | nan => exact nomatch hy
    | inf b => cases a <;> cases b <;> simp [Val.lt, Val.key]
    | fin b n f r => cases a <;> simp [Val.lt, Val.key]
  | fin a m e r =>
    cases y with
    | nan => exact nomatch hy
    | inf b => cases b <;> simp [Val.lt, Val.key, WithTop.coe_lt_top, ← WithBot.coe_top]
    | fin b n f u =>
      have pos : (0 : ℚ) < 2 ^ (Min.min e f) := zpow_pos (by norm_num) _
      have lo : (if e ≤ f then e else f) = Min.min e f := by split <;> omega
      simp only [Val.lt, Val.key, lo, decide_eq_true_eq, WithBot.coe_lt_coe, WithTop.coe_lt_coe]
      rw [← scaled_eq a m (min_le_left e f), ← scaled_eq b n (min_le_right e f), mul_lt_mul_iff_left₀ pos, Int.cast_lt]
theorem Val.eq_iff_key {x y : Val} (hx : x.isNan = false) (hy : y.isNan = false) : x.eq y = true ↔ x.key = y.key := by
  unfold Val.eq
  simp only [hx, hy, Bool.not_false, Bool.true_and, Bool.and_eq_true, Bool.not_eq_true', ← Bool.not_eq_true,
    Val.lt_iff_key hx hy, Val.lt_iff_key hy hx, not_lt]
  exact ⟨fun h => le_antisymm h.2 h.1, fun h => ⟨h.ge, h.le⟩⟩
theorem Val.isNan_of_le {x y : Val} (h : x.le y = true) : y.isNan = false := by
  cases y with
  | nan => cases x <;> exact nomatch h
  | inf b => rfl
  | fin b n f r => rfl

/-! ## The best of a list -/

/-- In a list whose elements are in order by `before`, no more than `room` have less than `room` of it before them. -/
theorem length_best_le {α : Type} {l : List α} (hl : l.Nodup) {before : α → α → Bool} (room : Nat)
    (trans : ∀ p ∈ l, ∀ o ∈ l, ∀ x ∈ l, before p o = true → before o x = true → before p x = true)
    (irrefl : ∀ p ∈ l, before p p = false)
    (total : ∀ p ∈ l, ∀ o ∈ l, p ≠ o → before p o = true ∨ before o p = true) :
    (l.filter (fun p => decide ((l.filter (before p)).length < room))).length ≤ room := by
  have less : ∀ p ∈ l, ∀ o ∈ l, before p o = true → (l.filter (before o)).length < (l.filter (before p)).length := by
    intro p hp o ho h
    have sub : l.filter (before o) = (l.filter (before p)).filter (before o) := by
      rw [List.filter_filter]
      refine List.filter_congr fun x hx => ?_
      cases e : before o x with
      | false => rfl
      | true => rw [trans p hp o ho x hx h e]; rfl
    rw [sub]
    refine lt_of_le_of_ne (List.length_filter_le ..) fun e => ?_
    have := List.length_filter_eq_length_iff.mp e o (List.mem_filter.mpr ⟨ho, h⟩)
    rw [irrefl o ho] at this
    exact nomatch this
  have nodup : ((l.filter (fun p => decide ((l.filter (before p)).length < room))).map
      (fun p => (l.filter (before p)).length)).Nodup := by
    refine (hl.filter _).map_on fun p hp o ho e => ?_
    by_contra ne
    have hp := (List.mem_filter.mp hp).1
    have ho := (List.mem_filter.mp ho).1
    rcases total p hp o ho ne with h | h
    · exact absurd (less p hp o ho h) (by omega)
    · exact absurd (less o ho p hp h) (by omega)
  have sub := (List.subperm_of_subset nodup (l₂ := List.range room) fun x hx => by
    obtain ⟨p, hp, rfl⟩ := List.mem_map.mp hx
    exact List.mem_range.mpr (of_decide_eq_true (List.mem_filter.mp hp).2)).length_le
  rwa [List.length_map, List.length_range] at sub
theorem length_filter_or_le {α : Type} (l : List α) (f g : α → Bool) :
    (l.filter (fun x => f x || g x)).length ≤ (l.filter f).length + (l.filter g).length := by
  induction l with
  | nil => exact Nat.le_refl 0
  | cons x l ih => simp only [List.filter_cons]; cases f x <;> cases g x <;> simp <;> omega
/-- No more than m numbers lie below m, or in the last m places of a range. -/
theorem length_first_le (n m : Nat) : ((List.range n).filter (fun p => decide (p < m))).length ≤ m := by
  have sub := (List.subperm_of_subset (List.nodup_range.filter (fun p => decide (p < m))) (l₁ := (List.range n).filter _)
    (l₂ := List.range m) fun x hx => List.mem_range.mpr (of_decide_eq_true (List.mem_filter.mp hx).2)).length_le
  rwa [List.length_range] at sub
theorem length_last_le (n m : Nat) : ((List.range n).filter (fun p => decide (n ≤ p + m))).length ≤ m := by
  have sub := (List.subperm_of_subset (List.nodup_range.filter (fun p => decide (n ≤ p + m))) (l₁ := (List.range n).filter _)
    (l₂ := (List.range m).map (n - 1 - ·)) fun x hx => by
      obtain ⟨lt, last⟩ := List.mem_filter.mp hx
      have lt := List.mem_range.mp lt
      have last := of_decide_eq_true last
      exact List.mem_map.mpr ⟨n - 1 - x, List.mem_range.mpr (by omega), by show n - 1 - (n - 1 - x) = x; omega⟩).length_le
  rwa [List.length_map, List.length_range] at sub

/-- Of pages with bounds, one comes before another with a greater bound, or with the same and a lower number (R352). -/
def ranksAbove (u : Nat → Val) (p o : Nat) : Bool := (u p).lt (u o) || ((u o).eq (u p) && decide (o < p))
theorem ranksAbove_iff {u : Nat → Val} {p o : Nat} (hp : (u p).isNan = false) (ho : (u o).isNan = false) :
    ranksAbove u p o = true ↔ (u p).key < (u o).key ∨ ((u p).key = (u o).key ∧ o < p) := by
  unfold ranksAbove
  simp only [Bool.or_eq_true, Bool.and_eq_true, decide_eq_true_eq, Val.lt_iff_key hp ho, Val.eq_iff_key ho hp,
    @eq_comm _ (u o).key]
/-- Of pages whose bounds are no NaN, no more than `room` are among the `room` best. -/
theorem length_best_pages {l : List Nat} (hl : l.Nodup) {u : Nat → Val} (hu : ∀ p ∈ l, (u p).isNan = false) (room : Nat) :
    (l.filter (fun p => decide ((l.filter (ranksAbove u p)).length < room))).length ≤ room := by
  refine length_best_le hl room (fun p hp o ho x hx h k => ?_) (fun p hp => ?_) (fun p hp o ho ne => ?_)
  · rw [ranksAbove_iff (hu p hp) (hu o ho)] at h
    rw [ranksAbove_iff (hu o ho) (hu x hx)] at k
    rw [ranksAbove_iff (hu p hp) (hu x hx)]
    rcases h with h | ⟨h, h'⟩ <;> rcases k with k | ⟨k, k'⟩
    · exact .inl (h.trans k)
    · exact .inl (k ▸ h)
    · exact .inl (h ▸ k)
    · exact .inr ⟨h.trans k, k'.trans h'⟩
  · rw [← Bool.not_eq_true, ranksAbove_iff (hu p hp) (hu p hp)]
    simp
  · rw [ranksAbove_iff (hu p hp) (hu o ho), ranksAbove_iff (hu o ho) (hu p hp)]
    rcases lt_trichotomy (u p).key (u o).key with h | h | h
    · exact .inl (.inl h)
    · rcases Nat.lt_or_gt_of_ne ne with k | k
      · exact .inr (.inr ⟨h.symm, k⟩)
      · exact .inl (.inr ⟨h, k⟩)
    · exact .inr (.inl h)

end Sys2Proof.Machine
end

section

/-! # What attention rows read (R340, R343, R349, R352) -/

namespace Sys2Proof.Machine

open Sys2Proof.Laws Sys2Proof.Claims

/-! ## Rows as the statement sees them -/

theorem engSeen_one (s : State) (c : Ctx) (pa : Nat) :
    BitVec.ofNat 8 (engSeen s c pa 1) = s.taskByte (s.task (s.taskAt c)) pa := by
  show BitVec.ofNat 8 ((s.taskByte (s.task (s.taskAt c)) pa).toNat + 256 * 0) = _
  rw [Nat.mul_zero, Nat.add_zero, BitVec.ofNat_toNat, BitVec.setWidth_eq]
theorem seenAt_eq (s : State) (c : Ctx) (pa : Nat → Nat) (o n : Nat) :
    seenAt s c pa o n = leVal (s.seenBytes (s.taskAt c) (fun k => pa (o + k)) n) := by
  unfold seenAt State.seenBytes
  simp only [engSeen_one]
theorem seenAt_lt (s : State) (c : Ctx) (pa : Nat → Nat) (o n : Nat) : seenAt s c pa o n < 256 ^ n := by
  have lt := leVal_lt (s.seenBytes (s.taskAt c) (fun k => pa (o + k)) n)
  unfold State.seenBytes at lt
  rw [List.length_map, List.length_range] at lt
  rw [seenAt_eq]
  exact lt
/-- A number in a row that has been read. -/
theorem bytesAt_seenBytes (s : State) (c : Ctx) (pa : Nat → Nat) {o n m : Nat} (h : o + n ≤ m) :
    bytesAt (s.seenBytes (s.taskAt c) pa m) o n = seenAt s c pa o n := by
  rw [seenAt_eq]
  exact congrArg leVal (take_drop_range _ h)
/-- A number in bytes of memory that have been read. -/
theorem bytesAt_bytes (s : State) (pa : Nat) {o n m : Nat} (h : o + n ≤ m) :
    bytesAt (s.bytes pa m) o n = leVal (s.bytes (pa + o) n) := by
  rw [s.bytes_eq_map, s.bytes_eq_map]
  refine congrArg leVal ((take_drop_range _ h).trans (List.map_congr_left fun k _ => ?_))
  rw [Nat.add_assoc]
/-- Part of a row whose bytes are seen, in a later state too. -/
theorem BytesSeen.part {s u : State} {c : Ctx} {va m : Nat} {pa : Nat → Nat} (h : BytesSeen s c va m pa)
    (on : State.ReadOn (s.taskAt c) s u) {o n : Nat} (hn : o + n ≤ m) (k : Nat) (hk : k < n) :
    u.SeesByte (s.taskAt c) (va + o + k) (pa (o + k)) := by
  rw [Nat.add_assoc]
  exact (EngSees.seesByte (h (o + k) (by omega))).later on
/-- It is read, in a later state too. -/
theorem BytesSeen.rowGet {s u : State} {c : Ctx} {va m : Nat} {pa : Nat → Nat} (h : BytesSeen s c va m pa)
    (on : State.ReadOn (s.taskAt c) s u) {o n : Nat} (hn : o + n ≤ m) (cmd pos : Nat) :
    ∃ t, u.rowGet (s.taskAt c) cmd pos (va + o) n = (t, s.seenBytes (s.taskAt c) (fun k => pa (o + k)) n, .ok) ∧
      State.ReadOn (s.taskAt c) s t := by
  obtain ⟨t, read, on'⟩ := State.rowGet_seen cmd pos (BytesSeen.part h on hn)
  refine ⟨t, ?_, on.trans on'⟩
  rw [read]
  unfold State.seenBytes
  rw [on.taskByte]

/-! ## Query rows (R343, R349) -/

theorem f32_ofNat {n : Nat} (h : n < 256 ^ 4) : f32 (BitVec.ofNat 32 n) = decodeFloat .f32 n := by
  unfold f32
  rw [BitVec.toNat_ofNat, Nat.mod_eq_of_lt (show n < 2 ^ 32 from h)]
theorem f32_round (mode : Rnd) (sat : Bool) (v : Val) :
    f32 (BitVec.ofNat 32 (roundTo .f32 mode sat 0 v)) = decodeFloat .f32 (roundTo .f32 mode sat 0 v) :=
  f32_ofNat (roundTo_lt rfl mode sat 0 v)
theorem f32_ru32 (v : Val) : f32 (ru32 v) = up32 v := f32_round .ru false v
theorem f32_rn32 (v : Val) : f32 (rn32 v) = decodeFloat .f32 (roundTo .f32 .rn false 0 v) := f32_round .rn false v
theorem rsat_eq (v : Val) : rsat v = satRn v := f32_round .rn true v
theorem exp2f_eq (v : Val) : exp2f v = exp2Rn v := f32_rn32 v.exp2
theorem toNat_round (mode : Rnd) (sat : Bool) (v : Val) :
    (BitVec.ofNat 32 (roundTo .f32 mode sat 0 v)).toNat = roundTo .f32 mode sat 0 v :=
  (BitVec.toNat_ofNat ..).trans (Nat.mod_eq_of_lt (roundTo_lt (t := .f32) rfl mode sat 0 v))

/-- The query that a row holds, by the statement's reading of its fields. -/
def queryOf (h : Nat → Nat → Nat) (d len : Nat) (causal : Bool) : Query :=
  { vend := vendOf h len causal, scale := BitVec.ofNat 32 (h 8 4), thr := BitVec.ofNat 32 (h 12 4)
    q := (List.range d).map (cleanAt h 64) }
theorem readQuery_seenBytes (s : State) (c : Ctx) (pa : Nat → Nat) (d len : Nat) (causal : Bool) :
    readQuery (s.seenBytes (s.taskAt c) pa (64 + 2 * d)) d len causal = queryOf (seenAt s c pa) d len causal := by
  have field (o n : Nat) (h : o + n ≤ 64) : bytesAt (s.seenBytes (s.taskAt c) pa (64 + 2 * d)) o n = seenAt s c pa o n :=
    bytesAt_seenBytes s c pa (by omega)
  have values : (channels (s.seenBytes (s.taskAt c) pa (64 + 2 * d)) 64 d).map (fun e => decodeFloat .bf16 e.1) =
      (List.range d).map (cleanAt (seenAt s c pa) 64) := by
    unfold channels
    rw [List.map_map]
    refine List.map_congr_left fun e he => ?_
    have := List.mem_range.mp he
    have code : half (s.seenBytes (s.taskAt c) pa (64 + 2 * d)) (64 + 2 * e) = seenAt s c pa (64 + 2 * e) 2 :=
      bytesAt_seenBytes s c pa (by omega)
    unfold cleanAt
    rw [Function.comp_apply, code]
  unfold readQuery queryOf vendOf
  rw [field 4 4 (by omega), field 0 4 (by omega), field 8 4 (by omega), field 12 4 (by omega), values]

/-! ## Pages (R335, R340) -/

theorem mem_granulesOf {pa n g : Nat} : g ∈ granulesOf pa n ↔ 0 < n ∧ pa / 64 ≤ g ∧ g ≤ (pa + n - 1) / 64 := by
  unfold granulesOf
  split
  · next h => simp [h]
  · simp only [List.mem_map, List.mem_range]
    constructor
    · rintro ⟨k, hk, rfl⟩
      omega
    · rintro ⟨-, h1, h2⟩
      exact ⟨g - pa / 64, by omega, by omega⟩
/-- A part of a sound range is sound. -/
theorem SoundRange.part {s : State} {pa m : Nat} (h : SoundRange s pa m) {o n : Nat} (hn : o + n ≤ m) : SoundRange s (pa + o) n := by
  intro g hg
  obtain ⟨h0, lo, hi⟩ := mem_granulesOf.mp hg
  exact h g (mem_granulesOf.mpr ⟨by omega, by omega, by omega⟩)

section
variable {s u : State} {id i p pa : Nat} (hp : PageAt s i p pa) (on : State.ReadOn id s u)
include hp on
/-- A page that has been translated goes through. -/
theorem PageAt.atPage (pos addr : Nat) : u.atPage i pos addr p = (u, .ok) := by
  obtain ⟨-, near, -⟩ := hp
  have listed : (s.atOf i).pages.any (·.1 == p) = true :=
    List.any_eq_true.mpr ⟨_, List.mem_of_find?_eq_some near, by simp⟩
  unfold State.atPage
  simp only [on.atOf i, listed, Bool.true_or, if_true]
/-- Sound bytes of it are read. -/
theorem PageAt.pageGet {off n : Nat} (hs : SoundRange s (pa + off) n) (pos : Nat) :
    u.pageGet i pos p off n = (u, some (s.bytes (pa + off) n)) := by
  obtain ⟨notFar, near, -⟩ := hp
  have noHard : (granulesOf (pa + off) n).any (fun g => u.hardMem (64 * g)) = false :=
    List.any_eq_false.mpr fun g hg => by rw [on.hardMem, (hs g hg).2]; exact Bool.false_ne_true
  have sound : (granulesOf (pa + off) n).all u.checkOk = true :=
    List.all_eq_true.mpr fun g hg => by rw [on.checkOk]; exact (hs g hg).1
  unfold State.pageGet State.atGet
  simp only [on.atOf i, notFar, near, Option.map_some, Option.getD_some, noHard, sound, Bool.false_eq_true, if_false, if_true, on.bytes]
end

/-! ## Bytes of a record -/

/-- A field behind the fields before it. -/
theorem drop_take_field {α : Type} (pre l post : List α) {o n : Nat} (ho : pre.length = o) (hn : l.length = n) :
    ((pre ++ (l ++ post)).drop o).take n = l := by
  rw [List.drop_left' ho, List.take_left' hn]
theorem leVal_zeros {l : List Byte} (h : ∀ b ∈ l, b = 0) : leVal l = 0 := by
  induction l with
  | nil => rfl
  | cons b l ih =>
    obtain ⟨rfl, zeros⟩ := List.forall_mem_cons.mp h
    show (0 : Byte).toNat + 256 * leVal l = 0
    rw [ih zeros]
    rfl
/-- A number of a record. -/
theorem leVal_field (pre post : List Byte) (v : Nat) {o n : Nat} (ho : pre.length = o) :
    leVal (((pre ++ (leList n v ++ post)).drop o).take n) = v % 256 ^ n := by
  rw [drop_take_field pre _ post ho (length_leList n v), leVal_leList]
/-- Zeros of a record. -/
theorem leVal_zero_field (pre post : List Byte) (m : Nat) {o n : Nat} (ho : pre.length = o) (hn : m = n) :
    leVal (((pre ++ (List.replicate m 0 ++ post)).drop o).take n) = 0 := by
  rw [drop_take_field pre _ post ho (by rw [List.length_replicate, hn])]
  exact leVal_zeros fun b hb => List.eq_of_mem_replicate hb
theorem length_flatten_map {α : Type} {w : Nat} {f : α → List Byte} (h : ∀ x, (f x).length = w) (l : List α) :
    ((l.map f).flatten).length = w * l.length := by
  induction l with
  | nil => rfl
  | cons x l ih => rw [List.map_cons, List.flatten_cons, List.length_append, h, ih, List.length_cons, Nat.mul_succ, Nat.add_comm]
/-- Entries of one length: entry k has the others of before k in front of it. -/
theorem flatten_map_split {α : Type} {w : Nat} {f : α → List Byte} (h : ∀ x, (f x).length = w) {l : List α} {k : Nat} {x : α}
    (hk : l[k]? = some x) : ∃ a b, (l.map f).flatten = a ++ (f x ++ b) ∧ a.length = w * k := by
  obtain ⟨lt, rfl⟩ := List.getElem?_eq_some_iff.mp hk
  refine ⟨((l.take k).map f).flatten, ((l.drop (k + 1)).map f).flatten, ?_, ?_⟩
  · conv_lhs => rw [← List.take_append_drop k l, List.drop_eq_getElem_cons lt]
    rw [List.map_append, List.map_cons, List.flatten_append, List.flatten_cons]
  · rw [length_flatten_map h, List.length_take, Nat.min_eq_left lt.le]

end Sys2Proof.Machine
end

section

/-! # Rows of `at.sel` (R352) -/

namespace Sys2Proof.Machine

open Sys2Proof.Laws Sys2Proof.Claims

/-! ## Bounds -/

theorem zipIdx_map_range {α : Type} (h : Nat → α) (n : Nat) :
    ((List.range n).map h).zipIdx = (List.range n).map (fun k => (h k, k)) :=
  List.ext_getElem (by simp) fun i h1 h2 => by simp
/-- The bound of a page that has been read, as a value. -/
theorem f32_boundOf {q : Query} {d : Nat} {v : Nat → Val} (hq : q.q = (List.range d).map v) (lh : List Byte) :
    f32 (Machine.boundOf q lh d) = pageBound d v (fun k => decodeFloat .bf16 (half lh (2 * k)))
      (fun k => decodeFloat .bf16 (half lh (2 * d + 2 * k))) q.scale := by
  unfold Machine.boundOf pageBound
  rw [f32_ru32, hq, zipIdx_map_range, List.foldl_map]
  refine congrArg (fun a => up32 (a.mul (f32 q.scale))) (List.foldl_hom f32 fun acc k => ?_).symm
  simp only [f32_ru32]
/-- The bounds of pages that are there and sound. -/
theorem State.bounds_seen {s u : State} {id i d : Nat} {page : Nat → Nat} (on : State.ReadOn id s u) (f : Nat) (q : Query)
    (ps : List Nat)
    (h : ∀ p ∈ ps, PageAt s i p (page p) ∧ SoundRange s (page p + 64) (4 * d)) (us : List W32) :
    u.bounds i f q d us ps = (u, .ok, us ++ ps.map (fun p => Machine.boundOf q (s.bytes (page p + 64) (4 * d)) d)) := by
  induction ps generalizing us with
  | nil => rw [List.map_nil, List.append_nil]; rfl
  | cons p ps ih =>
    obtain ⟨⟨there, sound⟩, rest⟩ := List.forall_mem_cons.mp h
    unfold State.bounds
    simp only [PageAt.atPage there on, PageAt.pageGet there on sound, ih rest, List.map_cons, List.append_assoc,
      List.cons_append, List.nil_append]

/-! ## The choice of pages -/

section
variable (r : AtRec) (np : Nat) (ub : Nat → Val) (thr : Val)

def selSink (p : Nat) : Bool := decide (p < r.sinks.toNat)
def selLate (p : Nat) : Bool := decide (np ≤ p + r.recent.toNat)
def selPasses (p : Nat) : Bool := !selSink r p && !selLate r np p && thr.le (ub p)
def selCount (g : Nat → Bool) : Nat := ((List.range np).filter g).length
def selRoom : Nat := r.limit1.toNat + 1 - selCount np (fun p => selSink r p || selLate r np p)
def selAhead (p o : Nat) : Bool := selPasses r np ub thr o && ranksAbove ub p o
def selKeeps (p : Nat) : Bool := selSink r p || selLate r np p ||
  (selPasses r np ub thr p && decide (selCount np (selAhead r np ub thr p) < selRoom r np))
def selKept : List Nat := (List.range np).filter (selKeeps r np ub thr)
/-- Why a page is listed, in the bits above its number. -/
def selReason (p : Nat) : Nat := (if selSink r p then 1 else 0) + (if selLate r np p then 2 else 0) +
  if selSink r p || selLate r np p then 0 else 4

/-- The passing pages that are ahead of one. -/
theorem selAhead_filter (p : Nat) : selCount np (selAhead r np ub thr p) =
    (((List.range np).filter (selPasses r np ub thr)).filter (ranksAbove ub p)).length := by
  unfold selCount selAhead
  rw [List.filter_filter]
  exact congrArg List.length (List.filter_congr fun o _ => Bool.and_comm ..)
theorem selForced_le : selCount np (fun p => selSink r p || selLate r np p) ≤ r.sinks.toNat + r.recent.toNat :=
  (length_filter_or_le ..).trans (Nat.add_le_add (length_first_le ..) (length_last_le ..))
/-- The forced pages and the best of the others fill the limit at most. -/
theorem length_selKept (h : r.sinks.toNat + r.recent.toNat ≤ r.limit1.toNat + 1) : (selKept r np ub thr).length ≤ 256 := by
  have forced := selForced_le r np
  have best := length_best_pages ((List.nodup_range (n := np)).filter (selPasses r np ub thr)) (u := ub) (fun p hp => by
    have passes := (List.mem_filter.mp hp).2
    unfold selPasses at passes
    exact Val.isNan_of_le (Bool.and_eq_true_iff.mp passes).2) (selRoom r np)
  simp only [← selAhead_filter] at best
  rw [List.filter_filter] at best
  have both := length_filter_or_le (List.range np) (fun p => selSink r p || selLate r np p)
    (fun p => selPasses r np ub thr p && decide (selCount np (selAhead r np ub thr p) < selRoom r np))
  rw [List.filter_congr fun p _ => Bool.and_comm (selPasses r np ub thr p) _] at both
  have limit := r.limit1.isLt
  unfold selKept selKeeps
  unfold selCount at forced
  unfold selRoom selCount at best
  unfold selRoom selCount at both
  unfold selRoom selCount
  omega

/-- An entry of a list. -/
def selEntry (ubs : List W32) (p : Nat) : List Byte :=
  leList 4 (p % 2 ^ 24 + 2 ^ 24 * selReason r np p) ++ leList 4 (ubs.getD p 0).toNat
theorem length_selEntry (ubs : List W32) (p : Nat) : (selEntry r np ubs p).length = 8 := by
  unfold selEntry
  rw [List.length_append, length_leList, length_leList]
/-- The header of a list. -/
def selHeader (kept passing : Nat) : List Byte :=
  leList 2 kept ++ ([0, 0] ++ (leList 4 np ++ (leList 4 passing ++ List.replicate 52 0)))
theorem length_selHeader (kept passing : Nat) : (selHeader np kept passing).length = 64 := by
  unfold selHeader
  simp [length_leList]
/-- The list of a row, by its choice. -/
theorem gatherList_eq {q : Query} {ubs : List W32} (hn : ubs.length = np) (hu : ∀ p < np, f32 (ubs.getD p 0) = ub p)
    (ht : f32 q.thr = thr) :
    gatherList r q ubs = selHeader np (selKept r np ub thr).length (selCount np (selPasses r np ub thr)) ++
      (((selKept r np ub thr).map (selEntry r np ubs)).flatten ++
        List.replicate (2048 - (((selKept r np ub thr).map (selEntry r np ubs)).flatten).length) 0) := by
  have sink (p : Nat) (hp : p < np) : decide (p < min r.sinks.toNat np) = selSink r p := by
    unfold selSink
    exact decide_eq_decide.mpr (by omega)
  have forced : (List.range np).filter (fun p => decide (p < min r.sinks.toNat np) || decide (np ≤ p + r.recent.toNat)) =
      (List.range np).filter (fun p => selSink r p || selLate r np p) :=
    List.filter_congr fun p hp => by rw [sink p (List.mem_range.mp hp)]; rfl
  have passing : (List.range np).filter (fun p => !(decide (p < min r.sinks.toNat np) || decide (np ≤ p + r.recent.toNat)) &&
      thr.le (f32 (ubs.getD p 0))) = (List.range np).filter (selPasses r np ub thr) :=
    List.filter_congr fun p hp => by
      rw [sink p (List.mem_range.mp hp), hu p (List.mem_range.mp hp), Bool.not_or]; rfl
  have ahead (p : Nat) (hp : p < np) : (((List.range np).filter (selPasses r np ub thr)).filter (fun o =>
      (f32 (ubs.getD p 0)).lt (f32 (ubs.getD o 0)) || ((f32 (ubs.getD o 0)).eq (f32 (ubs.getD p 0)) && decide (o < p)))).length =
      selCount np (selAhead r np ub thr p) := by
    rw [selAhead_filter]
    refine congrArg List.length (List.filter_congr fun o ho => ?_)
    rw [hu p hp, hu o (List.mem_range.mp (List.mem_filter.mp ho).1)]
    rfl
  have keeps : (List.range np).filter (fun p => decide (p < min r.sinks.toNat np) || decide (np ≤ p + r.recent.toNat) ||
      (((List.range np).filter (selPasses r np ub thr)).contains p &&
        decide ((((List.range np).filter (selPasses r np ub thr)).filter (fun o => (f32 (ubs.getD p 0)).lt (f32 (ubs.getD o 0)) ||
          ((f32 (ubs.getD o 0)).eq (f32 (ubs.getD p 0)) && decide (o < p)))).length < selRoom r np))) = selKept r np ub thr :=
    List.filter_congr fun p hp => by
      have lt := List.mem_range.mp hp
      have member : ((List.range np).filter (selPasses r np ub thr)).contains p = selPasses r np ub thr p := by
        rw [Bool.eq_iff_iff, List.contains_iff_mem, List.mem_filter]
        exact ⟨fun h => h.2, fun h => ⟨hp, h⟩⟩
      rw [sink p lt, ahead p lt, member]
      rfl
  have entries : (selKept r np ub thr).map (fun p => leList 4 (p % 2 ^ 24 + 2 ^ 24 *
      ((if decide (p < min r.sinks.toNat np) then 1 else 0) + (if decide (np ≤ p + r.recent.toNat) then 2 else 0) +
        (if decide (p < min r.sinks.toNat np) || decide (np ≤ p + r.recent.toNat) then 0 else 4))) ++
      leList 4 (ubs.getD p 0).toNat) =
      (selKept r np ub thr).map (selEntry r np ubs) :=
    List.map_congr_left fun p hp => by
      rw [sink p (List.mem_range.mp (List.mem_filter.mp hp).1)]; rfl
  unfold gatherList
  dsimp only
  rw [hn, ht, passing, forced]
  have room : r.limit1.toNat + 1 - ((List.range np).filter (fun p => selSink r p || selLate r np p)).length = selRoom r np := rfl
  rw [room, keeps, entries]
  unfold selHeader
  simp only [List.append_assoc]
  rfl
end

/-! ## The list's bytes -/

/-- The fields of a list's header. -/
theorem selHeader_fields (np kept passing : Nat) (post : List Byte) :
    let at' := fun (o n : Nat) => leVal (((selHeader np kept passing ++ post).drop o).take n)
    at' 0 2 = kept % 256 ^ 2 ∧ at' 2 2 = 0 ∧ at' 4 4 = np % 256 ^ 4 ∧ at' 8 4 = passing % 256 ^ 4 ∧ at' 12 52 = 0 := by
  dsimp only
  unfold selHeader
  simp only [List.append_assoc]
  refine ⟨leVal_field [] _ kept rfl, leVal_zero_field (leList 2 kept) _ 2 (length_leList ..) rfl, ?_, ?_, ?_⟩
  · have := leVal_field (leList 2 kept ++ [0, 0]) (leList 4 passing ++ (List.replicate 52 0 ++ post)) np (o := 4) (n := 4)
      (by simp [length_leList])
    simpa only [List.append_assoc] using this
  · have := leVal_field (leList 2 kept ++ ([0, 0] ++ leList 4 np)) (List.replicate 52 0 ++ post) passing (o := 8) (n := 4)
      (by simp [length_leList])
    simpa only [List.append_assoc] using this
  · have := leVal_zero_field (leList 2 kept ++ ([0, 0] ++ (leList 4 np ++ leList 4 passing))) post 52 (o := 12) (n := 52)
      (by simp [length_leList]) rfl
    simpa only [List.append_assoc] using this
/-- The fields of an entry of a list. -/
theorem selEntry_fields {r : AtRec} {np : Nat} {ubs : List W32} {kept : List Nat} {k p : Nat} (hk : kept[k]? = some p)
    {pre : List Byte} (hpre : pre.length = 64) (post : List Byte) :
    let at' := fun (o n : Nat) => leVal (((pre ++ ((kept.map (selEntry r np ubs)).flatten ++ post)).drop o).take n)
    at' (64 + 8 * k) 4 = (p % 2 ^ 24 + 2 ^ 24 * selReason r np p) % 256 ^ 4 ∧
    at' (68 + 8 * k) 4 = (ubs.getD p 0).toNat % 256 ^ 4 := by
  obtain ⟨a, b, split, length⟩ := flatten_map_split (length_selEntry r np ubs) hk
  dsimp only
  rw [split]
  unfold selEntry
  constructor
  · have := leVal_field (pre ++ a) (leList 4 (ubs.getD p 0).toNat ++ (b ++ post)) (p % 2 ^ 24 + 2 ^ 24 * selReason r np p) (n := 4)
      (o := 64 + 8 * k) (by rw [List.length_append, hpre, length])
    simpa only [List.append_assoc] using this
  · have := leVal_field (pre ++ (a ++ leList 4 (p % 2 ^ 24 + 2 ^ 24 * selReason r np p))) (b ++ post) (ubs.getD p 0).toNat (n := 4)
      (o := 68 + 8 * k) (by rw [List.length_append, List.length_append, hpre, length, length_leList]; omega)
    simpa only [List.append_assoc] using this
/-- Behind its entries a list has zeros. -/
theorem leVal_behind {pre : List Byte} {m o n : Nat} (ho : pre.length ≤ o) :
    leVal (((pre ++ List.replicate m 0).drop o).take n) = 0 := by
  refine leVal_zeros fun b hb => ?_
  rw [List.drop_append, List.drop_eq_nil_of_le ho, List.nil_append] at hb
  exact List.eq_of_mem_replicate (List.mem_of_mem_drop (List.mem_of_mem_take hb))

/-- A list is written, each of its fields where the statement looks for it. -/
theorem State.rowPut_gatherList {s u : State} {c : Ctx} {va n : Nat} {out : Nat → Nat} {r : AtRec} {q : Query} {ubs : List W32}
    {ub : Nat → Val} {thr : Val} (cmd pos : Nat) (hn : ubs.length = n) (hu : ∀ p < n, f32 (ubs.getD p 0) = ub p) (ht : f32 q.thr = thr)
    (few : n < 2 ^ 19) (limits : r.sinks.toNat + r.recent.toNat ≤ r.limit1.toNat + 1) (writes : GranulesWritten s c va 33 out)
    (on : State.ReadOn (s.taskAt c) s u) :
    let kept := selKept r n ub thr
    ∃ t, u.rowPut (s.taskAt c) cmd pos va (gatherList r q ubs) = (t, .ok) ∧ wroteAt t out 0 2 = kept.length ∧ wroteAt t out 2 2 = 0 ∧
      wroteAt t out 4 4 = n ∧ wroteAt t out 8 4 = selCount n (selPasses r n ub thr) ∧ wroteAt t out 12 52 = 0 ∧
      (∀ k p, kept[k]? = some p → wroteAt t out (64 + 8 * k) 4 = p + 2 ^ 24 * selReason r n p ∧
        decodeFloat .f32 (wroteAt t out (68 + 8 * k) 4) = ub p) ∧
      (∀ k < 256, kept.length ≤ k → wroteAt t out (64 + 8 * k) 8 = 0) ∧ ElseKept s t out 33 := by
  intro kept
  have list := gatherList_eq r n ub thr hn hu ht
  rw [show selKept r n ub thr = kept from rfl] at list
  have fits : kept.length ≤ 256 := length_selKept r n ub thr limits
  have passing : selCount n (selPasses r n ub thr) ≤ n := (List.length_filter_le ..).trans_eq List.length_range
  have entries := length_flatten_map (length_selEntry r n ubs) kept
  have header := length_selHeader n kept.length (selCount n (selPasses r n ub thr))
  obtain ⟨t, put, wrote, elseKept⟩ := State.rowPut_granules cmd pos (bs := gatherList r q ubs) writes on (by
    rw [list]
    simp only [List.length_append, length_selHeader, List.length_replicate]
    omega)
  rw [list] at wrote
  obtain ⟨header0, header2, header4, header8, header12⟩ := selHeader_fields n kept.length (selCount n (selPasses r n ub thr))
    ((kept.map (selEntry r n ubs)).flatten ++ List.replicate (2048 - (kept.map (selEntry r n ubs)).flatten.length) 0)
  refine ⟨t, put, (wrote 0 2 (by omega)).trans (header0.trans (Nat.mod_eq_of_lt (by omega))), (wrote 2 2 (by omega)).trans header2,
    (wrote 4 4 (by omega)).trans (header4.trans (Nat.mod_eq_of_lt (by omega))),
    (wrote 8 4 (by omega)).trans (header8.trans (Nat.mod_eq_of_lt (by omega))), (wrote 12 52 (by omega)).trans header12,
    fun k p hkp => ?entry, fun k _ behind => ?behind, elseKept⟩
  case entry =>
    have lt := (List.getElem?_eq_some_iff.mp hkp).1
    have below : p < n := List.mem_range.mp (List.mem_filter.mp (List.mem_of_getElem? hkp)).1
    have reason : selReason r n p ≤ 7 := by unfold selReason; split <;> split <;> split <;> omega
    obtain ⟨number, value⟩ := selEntry_fields (r := r) (np := n) (ubs := ubs) hkp header
      (List.replicate (2048 - (kept.map (selEntry r n ubs)).flatten.length) 0)
    refine ⟨(wrote (64 + 8 * k) 4 (by omega)).trans (number.trans ?_), ?_⟩
    · rw [Nat.mod_eq_of_lt (by omega), Nat.mod_eq_of_lt (by omega)]
    · rw [(wrote (68 + 8 * k) 4 (by omega)).trans value, Nat.mod_eq_of_lt (show _ < 256 ^ 4 from (ubs.getD p 0).isLt)]
      exact hu p below
  case behind =>
    rw [wrote (64 + 8 * k) 8 (by omega), ← List.append_assoc]
    exact leVal_behind (by rw [List.length_append, header, entries]; omega)

/-! ## A row -/

theorem pageBound_congr {d : Nat} {q lo hi lo' hi' : Nat → Val} (scale : W32) (h : ∀ k < d, lo k = lo' k ∧ hi k = hi' k) :
    pageBound d q lo hi scale = pageBound d q lo' hi' scale := by
  unfold pageBound
  refine congrArg (fun a : Val => up32 (a.mul _)) (List.foldl_ext _ _ _ fun acc k hk => ?_)
  obtain ⟨lo, hi⟩ := h k (List.mem_range.mp hk)
  rw [lo, hi]

section
variable (s : State) (page : Nat → Nat) (d : Nat)

/-- The bounds of pages 0 to n - 1 for a query. -/
def boundsOf (q : Query) (n : Nat) : List W32 :=
  (List.range n).map (fun p => Machine.boundOf q (s.bytes (page p + 64) (4 * d)) d)
/-- A stored code of a page's summary, and the bound that it gives, as the statement has them. -/
def summaryAt (p o : Nat) : Val := decodeFloat .bf16 (leVal (s.bytes (page p + 64 + o) 2))
def boundAt (h : Nat → Nat → Nat) (p : Nat) : Val :=
  pageBound d (cleanAt h 64) (fun k => summaryAt s page p (2 * k)) (fun k => summaryAt s page p (2 * d + 2 * k))
    (BitVec.ofNat 32 (h 8 4))

theorem boundsOf_getD (h : Nat → Nat → Nat) (len : Nat) (causal : Bool) {n p : Nat} (hp : p < n) :
    f32 ((boundsOf s page d (queryOf h d len causal) n).getD p 0) = boundAt s page d h p := by
  have values : (queryOf h d len causal).q = (List.range d).map (cleanAt h 64) := rfl
  unfold boundsOf
  rw [getD_map_range, if_pos hp, f32_boundOf values]
  refine pageBound_congr _ fun k hk => ?_
  have code (o : Nat) (ho : o + 2 ≤ 4 * d) : half (s.bytes (page p + 64) (4 * d)) o = leVal (s.bytes (page p + 64 + o) 2) :=
    bytesAt_bytes s _ ho
  rw [code _ (by omega), code _ (by omega)]
  exact ⟨rfl, rfl⟩
end

/-- A sequence has fewer than 2^24 tokens, so its rows have no more than 2^18 pages. -/
theorem State.seqDesc_length (s : State) (pa : Nat) : (s.seqDesc pa).length < 2 ^ 24 := Nat.mod_lt _ (by decide)
theorem vendOf_le (h : Nat → Nat → Nat) (len : Nat) (causal : Bool) : vendOf h len causal ≤ len := by
  unfold vendOf
  dsimp only
  split <;> omega

/-- A row over pages that are there and sound is one write of its list. -/
theorem State.selRow_seen {s : State} {c : Ctx} {i f : Nat} {qa page : Nat → Nat} {a : AtRun} {x : SeqDesc} {q : Query}
    (ha : s.atOf i = a) (hx : s.seqDesc a.desc = x) (hq : queryOf (seenAt s c qa) x.d x.length a.rec'.causal = q)
    (hid : s.taskAt c = a.task) (row : BytesSeen s c (a.rec'.rowBase.toNat + f * a.rec'.rows.stride.toNat) (64 + 2 * x.d) qa)
    (scale : scaleOk q.scale = true)
    (pages : ∀ p < (q.vend + 63) / 64, PageAt s i p (page p) ∧ SoundRange s (page p + 64) (4 * x.d)) :
    ∃ u, State.ReadOn (s.taskAt c) s u ∧ s.selRow i f = u.rowPut (s.taskAt c) a.cmd f (a.rec'.w4.toNat + 2112 * f)
      (gatherList a.rec' q (boundsOf s page x.d q ((q.vend + 63) / 64))) := by
  obtain ⟨u, read, on⟩ := BytesSeen.rowGet row (.refl _ s) (o := 0) (n := 64 + 2 * x.d) (by omega) a.cmd f
  simp only [Nat.zero_add, Nat.add_zero] at read
  have bounds := State.bounds_seen on f q (List.range (ceil64 q.vend)) (fun p hp => pages p (List.mem_range.mp hp)) []
  have query := (readQuery_seenBytes s c qa x.d x.length a.rec'.causal).trans hq
  refine ⟨u, on, ?_⟩
  unfold State.selRow
  simp only [ha, hx, ← hid, read, query, scale, bounds, Bool.not_true, Bool.false_eq_true, if_false, List.nil_append]
  rfl

end Sys2Proof.Machine

namespace Sys2Proof.Proofs

open Sys2Proof.Machine Sys2Proof.Claims

/-- A row of `at.sel` over pages that are there and sound (R352). -/
theorem selectRow : SelectRow := by
  intro s c i f qa page out
  dsimp only
  intro hid row scale limits pages writes
  generalize ha : s.atOf i = a at *
  generalize hx : s.seqDesc a.desc = x at *
  obtain ⟨u, on, sel⟩ := State.selRow_seen ha hx rfl hid row scale pages
  have few : (vendOf (seenAt s c qa) x.length a.rec'.causal + 63) / 64 < 2 ^ 19 := by
    have length := s.seqDesc_length a.desc
    have vend := vendOf_le (seenAt s c qa) x.length a.rec'.causal
    rw [hx] at length
    omega
  rw [sel]
  exact State.rowPut_gatherList a.cmd f (List.length_map _ |>.trans List.length_range)
    (fun p hp => boundsOf_getD s page x.d _ _ _ hp) (f32_ofNat (seenAt_lt ..)) few limits writes on

end Sys2Proof.Proofs
end

section

/-! # Rows of `at.att` (R353) -/

namespace Sys2Proof.Machine

open Sys2Proof.Laws Sys2Proof.Claims

/-! ## The list of a row (R345) -/

/-- The pages of a list, as they are read. -/
theorem State.positions_seen {s u : State} {c : Ctx} {base : Nat} {la : Nat → Nat} (row : BytesSeen s c base 2112 la) (cmd f : Nat)
    (ks : List Nat) (hk : ∀ k ∈ ks, k < 256) (on : State.ReadOn (s.taskAt c) s u) :
    ∃ t, u.positions (s.taskAt c) cmd f base ks = (t, ks.map (fun k => seenAt s c la (64 + 8 * k) 3), .ok) ∧
      State.ReadOn (s.taskAt c) s t := by
  induction ks generalizing u with
  | nil => exact ⟨u, rfl, on⟩
  | cons k ks ih =>
    obtain ⟨lt, hk⟩ := List.forall_mem_cons.mp hk
    obtain ⟨v, read, on'⟩ := BytesSeen.rowGet row on (o := 64 + 8 * k) (n := 3) (by omega) cmd f
    obtain ⟨t, rest, on''⟩ := ih hk on'
    refine ⟨t, ?_, on''⟩
    rw [← Nat.add_assoc] at read
    unfold State.positions
    simp only [read, rest, ← seenAt_eq, List.map_cons]
/-- A list is read: its count, and so many entries where there are no more than 256. -/
theorem State.listGet_seen {s : State} {c : Ctx} {base : Nat} {la : Nat → Nat} (row : BytesSeen s c base 2112 la) (cmd f : Nat) :
    let n := seenAt s c la 0 2
    ∃ t, s.listGet (s.taskAt c) cmd f base =
        (t, n, (if n > 256 then [] else List.range n).map (fun k => seenAt s c la (64 + 8 * k) 3), .ok) ∧
      State.ReadOn (s.taskAt c) s t := by
  obtain ⟨u, read, on⟩ := BytesSeen.rowGet row (.refl _ s) (o := 0) (n := 2) (by omega) cmd f
  obtain ⟨t, entries, on'⟩ := State.positions_seen row cmd f (if seenAt s c la 0 2 > 256 then [] else List.range (seenAt s c la 0 2))
    (fun k hk => by split at hk
                    · exact absurd hk List.not_mem_nil
                    · have := List.mem_range.mp hk; omega) on
  refine ⟨t, ?_, on'⟩
  rw [Nat.add_zero] at read
  unfold State.listGet
  simp only [read, ← seenAt_eq, entries]
theorem ascending_iff (lim : Nat) (ps : List Nat) : ascending lim ps = true ↔ ps.Pairwise (· < ·) ∧ ∀ p ∈ ps, p < lim := by
  induction ps with
  | nil => simp [ascending]
  | cons a ps ih =>
    cases ps with
    | nil => simp [ascending]
    | cons b ps =>
      unfold ascending
      rw [Bool.and_eq_true, decide_eq_true_eq, ih, List.pairwise_cons (a := a), List.forall_mem_cons (a := a)]
      constructor
      · rintro ⟨lt, pairs, below⟩
        have first := (List.forall_mem_cons.mp below).1
        refine ⟨⟨List.forall_mem_cons.mpr ⟨lt, fun q hq => lt.trans ?_⟩, pairs⟩, by omega, below⟩
        exact (List.pairwise_cons.mp pairs).1 q hq
      · rintro ⟨⟨less, pairs⟩, -, below⟩
        exact ⟨less b (List.mem_cons_self ..), pairs, below⟩
/-- A gang ends with one record; nothing is stored. -/
theorem State.atEnd_list (s : State) (i addr pos : Nat) : (s.atEnd i 0x22 addr pos).mem = s.mem ∧
    ∃ q, (s.atEnd i 0x22 addr pos).faultQ = s.faultQ ++ [q] ∧ q.code = 0x22 := by
  refine ⟨(s.engEnd_reported ..).mem, ?_⟩
  have doom (t : State) (g : Nat) (code : BitVec 8) (ctx : Bool) : (t.doom g code ctx).faultQ = t.faultQ := by
    unfold State.doom; split <;> rfl
  unfold State.atEnd State.engEnd
  rw [doom]
  exact ⟨_, rfl, rfl⟩

/-! ## Keys (R353) -/

/-- The model's state of a row, from the values that the statement follows. -/
def softOf (d : Nat) (z : Val × Val × (Nat → Val)) (pages keys : Nat) : Soft :=
  { m := z.1, l := z.2.1, o := (List.range d).map z.2.2, pages := pages, keys := keys }
theorem rsat_eq_satRn : rsat = satRn := funext rsat_eq
theorem exp2f_eq_exp2Rn : exp2f = exp2Rn := funext exp2f_eq

/-- One key. -/
theorem softKey_softOf {d : Nat} {q : Query} {v : Nat → Val} (hq : q.q = (List.range d).map v) (z : Val × Val × (Nat → Val))
    (pages keys : Nat) (key val : Nat → Val) :
    softKey q (softOf d z pages keys) ((List.range d).map key) ((List.range d).map val) =
      softOf d (softStep d v q.scale z (key, val)) pages (keys + 1) := by
  have zip (g h : Nat → Val) : ((List.range d).map g).zip ((List.range d).map h) = (List.range d).map (fun c => (g c, h c)) :=
    List.zip_map' ..
  have beq : (z.1 == .inf true) = decide (z.1 = .inf true) := rfl
  unfold softKey softOf softStep
  rw [hq, rsat_eq_satRn, exp2f_eq_exp2Rn]
  dsimp only
  have scale : f32 q.scale = decodeFloat .f32 q.scale.toNat := rfl
  rw [scale, beq]
  split
  · simp only [List.map_map, zip, Function.comp_def, decide_eq_true_eq]
  · simp only [List.map_map, zip, Function.comp_def]
/-- Keys one after another. -/
theorem foldl_softKey {d : Nat} {q : Query} {v : Nat → Val} (hq : q.q = (List.range d).map v) (z : Val × Val × (Nat → Val))
    (pages keys : Nat) (rows : List ((Nat → Val) × (Nat → Val))) :
    rows.foldl (fun y r => softKey q y ((List.range d).map r.1) ((List.range d).map r.2)) (softOf d z pages keys) =
      softOf d (rows.foldl (softStep d v q.scale) z) pages (keys + rows.length) := by
  induction rows generalizing z keys with
  | nil => rfl
  | cons r rows ih =>
    rw [List.foldl_cons, softKey_softOf hq, ih, List.foldl_cons, List.length_cons]
    rw [show keys + 1 + rows.length = keys + (rows.length + 1) by omega]

/-! ## Pages of a list (R334) -/

section
variable (s : State) (x : SeqDesc) (page : Nat → Nat) (vend : Nat)

/-- A word of a page's header, the rows of a page that are live, and where a row's elements stand, as the statement has them. -/
def pageWord (p o : Nat) : Nat := leVal (s.bytes (page p + o) 4)
def liveRows (p : Nat) : Nat := min (leVal (s.bytes (page p) 2)) (vend - 64 * p)
def keyAt (p row k : Nat) : Nat := page p + 64 + 4 * x.d + (row * x.d + k) * x.e
/-- The key and the value of a row of a page. -/
def storedKey (p row k : Nat) : Val := storedAt s x.e4m3 (pageWord s page p 4) (keyAt x page p row k)
def storedVal (p row k : Nat) : Val := storedAt s x.e4m3 (pageWord s page p 8) (keyAt x page p row k + 64 * x.d * x.e)
def pageKeys (p : Nat) : List ((Nat → Val) × (Nat → Val)) :=
  (List.range (liveRows s page vend p)).map (fun row => (storedKey s x page p row, storedVal s x page p row))
end

theorem SeqDesc.e_eq (x : SeqDesc) : x.e = if x.e4m3 then 1 else 2 := rfl
/-- A stored element of bytes that have been read. -/
theorem elemVal_bytes (s : State) (x : SeqDesc) {word base o m : Nat} (hw : word < 256 ^ 4) (h : o + x.e ≤ m) :
    elemVal x.e4m3 (BitVec.ofNat 32 word) (s.bytes base m) o = storedAt s x.e4m3 word (base + o) := by
  rw [SeqDesc.e_eq] at h
  unfold elemVal storedAt
  cases he : x.e4m3 with
  | true =>
    rw [he] at h
    have byte : leVal (((s.bytes base m).drop o).take 1) = (s.byte (base + o)).toNat := (bytesAt_bytes s base h).trans rfl
    simp only [if_true, byte, f32_ofNat hw]
  | false =>
    rw [he] at h
    have code : half (s.bytes base m) o = leVal (s.bytes (base + o) 2) := bytesAt_bytes s base h
    simp only [Bool.false_eq_true, if_false, code]
theorem pageWord_lt (s : State) (page : Nat → Nat) (p o : Nat) : pageWord s page p o < 256 ^ 4 := by
  have lt := leVal_lt (s.bytes (page p + o) 4)
  rwa [show (s.bytes (page p + o) 4).length = 4 from length_byteList ..] at lt
/-- The rows of a page that has been read. -/
theorem softPage_seen {s : State} {x : SeqDesc} {q : Query} {v : Nat → Val} (hq : q.q = (List.range x.d).map v) (page : Nat → Nat)
    (vend p : Nat) (z : Val × Val × (Nat → Val)) (pages keys : Nat) :
    softPage x q (BitVec.ofNat 32 (pageWord s page p 4)) (BitVec.ofNat 32 (pageWord s page p 8))
        (s.bytes (page p + (64 + 4 * x.d)) (liveRows s page vend p * x.d * x.e))
        (s.bytes (page p + (64 + 4 * x.d + 64 * x.d * x.e)) (liveRows s page vend p * x.d * x.e)) (liveRows s page vend p)
        (softOf x.d z pages keys) =
      softOf x.d ((pageKeys s x page vend p).foldl (softStep x.d v q.scale) z) pages (keys + liveRows s page vend p) := by
  have inside {row k : Nat} (hr : row < liveRows s page vend p) (hk : k < x.d) :
      (row * x.d + k) * x.e + x.e ≤ liveRows s page vend p * x.d * x.e := by
    have le : row * x.d + k + 1 ≤ liveRows s page vend p * x.d := by
      calc row * x.d + k + 1 ≤ (row + 1) * x.d := by rw [Nat.succ_mul]; omega
        _ ≤ _ := Nat.mul_le_mul_right _ hr
    calc (row * x.d + k) * x.e + x.e = (row * x.d + k + 1) * x.e := (Nat.succ_mul ..).symm
      _ ≤ _ := Nat.mul_le_mul_right _ le
  have fold := foldl_softKey hq z pages keys (pageKeys s x page vend p)
  have length : (pageKeys s x page vend p).length = liveRows s page vend p := by simp [pageKeys]
  rw [length] at fold
  rw [← fold]
  unfold softPage pageKeys
  rw [List.foldl_map]
  refine List.foldl_ext _ _ _ fun y row hr => congrArg₂ (softKey q y) ?_ ?_
  · refine List.map_congr_left fun k hk => ?_
    rw [elemVal_bytes s x (pageWord_lt ..) (inside (List.mem_range.mp hr) (List.mem_range.mp hk)), ← Nat.add_assoc]
    rfl
  · refine List.map_congr_left fun k hk => ?_
    rw [elemVal_bytes s x (pageWord_lt ..) (inside (List.mem_range.mp hr) (List.mem_range.mp hk))]
    refine congrArg (storedAt s x.e4m3 _) ?_
    unfold keyAt
    omega

/-- The pages of a row that are there and sound. -/
theorem State.softPages_seen {s u : State} {id i f : Nat} {x : SeqDesc} {q : Query} {v : Nat → Val} {page : Nat → Nat}
    (on : State.ReadOn id s u) (hq : q.q = (List.range x.d).map v) (ps : List Nat)
    (h : ∀ p ∈ ps, PageAt s i p (page p) ∧ SoundRange s (page p) (SeqDesc.pageBytes x) ∧ leVal (s.bytes (page p) 2) ≤ 64)
    (z : Val × Val × (Nat → Val)) (pages keys : Nat) :
    u.softPages i f x q (softOf x.d z pages keys) ps = (u, .ok, softOf x.d
      ((ps.flatMap (pageKeys s x page q.vend)).foldl (softStep x.d v q.scale) z)
      (pages + (ps.filter (fun p => decide (64 * p < q.vend))).length)
      (keys + (ps.flatMap (pageKeys s x page q.vend)).length)) := by
  induction ps generalizing z pages keys with
  | nil => rfl
  | cons p ps ih =>
    obtain ⟨⟨there, sound, count⟩, rest⟩ := List.forall_mem_cons.mp h
    have live : liveRows s page q.vend p ≤ 64 := (Nat.min_le_left ..).trans count
    have size : liveRows s page q.vend p * x.d * x.e ≤ 64 * x.d * x.e :=
      Nat.mul_le_mul_right _ (Nat.mul_le_mul_right _ live)
    have total : SeqDesc.pageBytes x = 64 + 4 * x.d + 64 * x.d * x.e + 64 * x.d * x.e := by
      unfold SeqDesc.pageBytes
      rw [show 128 * x.d * x.e = 64 * x.d * x.e + 64 * x.d * x.e by rw [← Nat.add_mul, ← Nat.add_mul]]
      omega
    rw [total] at sound
    have head := PageAt.pageGet there on (SoundRange.part sound (o := 0) (n := 12) (by omega)) f
    have keyBytes := PageAt.pageGet there on (SoundRange.part sound (o := 64 + 4 * x.d)
      (n := liveRows s page q.vend p * x.d * x.e) (by omega)) f
    have valBytes := PageAt.pageGet there on (SoundRange.part sound (o := 64 + 4 * x.d + 64 * x.d * x.e)
      (n := liveRows s page q.vend p * x.d * x.e) (by omega)) f
    have rows : min (bytesAt (s.bytes (page p + 0) 12) 0 2) (q.vend - 64 * p) = liveRows s page q.vend p := by
      rw [bytesAt_bytes s _ (by omega)]; rfl
    have kscale : bytesAt (s.bytes (page p + 0) 12) 4 4 = pageWord s page p 4 := bytesAt_bytes s _ (by omega)
    have vscale : bytesAt (s.bytes (page p + 0) 12) 8 4 = pageWord s page p 8 := bytesAt_bytes s _ (by omega)
    have counted : (if 64 * p < q.vend then { softOf x.d z pages keys with pages := (softOf x.d z pages keys).pages + 1 }
        else softOf x.d z pages keys) = softOf x.d z (pages + if 64 * p < q.vend then 1 else 0) keys := by
      split <;> rfl
    unfold State.softPages
    simp only [PageAt.atPage there on, head, rows, keyBytes, valBytes, kscale, vscale, counted, softPage_seen hq page q.vend p]
    rw [ih rest, List.flatMap_cons, List.foldl_append, List.length_append, List.filter_cons]
    have length : (pageKeys s x page q.vend p).length = liveRows s page q.vend p := by simp [pageKeys]
    rw [length]
    refine congrArg (fun y => (u, RowRes.ok, y)) (congrArg₂ (softOf x.d _) ?_ (Nat.add_assoc ..))
    by_cases lt : 64 * p < q.vend
    · simp [lt]; omega
    · simp [lt]

end Sys2Proof.Machine
end

section

/-! # Output records and the rows of `at.att` (R343 to R345, R353) -/

namespace Sys2Proof.Machine

open Sys2Proof.Laws Sys2Proof.Claims

/-! ## Output records -/

section
variable (d : Nat) (z : Val × Val × (Nat → Val)) (pages keys : Nat)

/-- The Lse of a row, and its outputs, as codes. -/
def lseCode : Nat := if keys = 0 then 0xFF800000
  else roundTo .f32 .rn true 0 (z.1.add (decodeFloat .f32 (roundTo .f32 .rn false 0 z.2.1.lg2)))
def outCode (k : Nat) : Nat := if keys = 0 then 0 else roundTo .f32 .rn true 0 ((z.2.2 k).div z.2.1)
/-- The header of an output record. -/
def outHeader : List Byte :=
  leList 4 (lseCode z keys) ++ (leList 4 (if keys = 0 then 1 else 0) ++ (leList 4 pages ++ (leList 4 keys ++ List.replicate 48 0)))

theorem lseCode_lt : lseCode z keys < 256 ^ 4 := by
  unfold lseCode
  split
  · decide
  · exact roundTo_lt (t := .f32) rfl ..
theorem outCode_lt (k : Nat) : outCode z keys k < 256 ^ 4 := by
  unfold outCode
  split
  · decide
  · exact roundTo_lt (t := .f32) rfl ..
theorem length_outHeader : (outHeader z pages keys).length = 64 := by
  unfold outHeader
  simp [length_leList]
theorem outRecord_eq : outRecord (softOf d z pages keys) =
    outHeader z pages keys ++ ((List.range d).map (fun k => leList 4 (outCode z keys k))).flatten := by
  have lse : (if keys = 0 then rn32 (.inf true) else rsat32 (z.1.add (f32 (rn32 z.2.1.lg2)))).toNat = lseCode z keys := by
    unfold lseCode
    split
    · decide +kernel
    · rw [f32_rn32]; exact toNat_round ..
  have out (k : Nat) : (if keys = 0 then 0 else (rsat32 ((z.2.2 k).div z.2.1)).toNat) = outCode z keys k := by
    unfold outCode
    split
    · rfl
    · exact toNat_round ..
  unfold outRecord softOf outHeader
  simp only [lse, List.map_map, Function.comp_def, out, List.append_assoc]
/-- The fields of its header. -/
theorem outHeader_fields (post : List Byte) :
    let at' := fun (o n : Nat) => leVal (((outHeader z pages keys ++ post).drop o).take n)
    at' 0 4 = lseCode z keys ∧ at' 4 4 = (if keys = 0 then 1 else 0) ∧ at' 8 4 = pages % 256 ^ 4 ∧ at' 12 4 = keys % 256 ^ 4 ∧
    at' 16 48 = 0 := by
  dsimp only
  unfold outHeader
  simp only [List.append_assoc]
  refine ⟨?_, ?_, ?_, ?_, ?_⟩
  · exact (leVal_field [] _ (lseCode z keys) rfl).trans (Nat.mod_eq_of_lt (lseCode_lt z keys))
  · rw [leVal_field (leList 4 (lseCode z keys)) _ (if keys = 0 then 1 else 0) (o := 4) (length_leList ..)]
    split <;> rfl
  · have := leVal_field (leList 4 (lseCode z keys) ++ leList 4 (if keys = 0 then 1 else 0))
      (leList 4 keys ++ (List.replicate 48 0 ++ post)) pages (o := 8) (n := 4) (by simp [length_leList])
    simpa only [List.append_assoc] using this
  · have := leVal_field (leList 4 (lseCode z keys) ++ (leList 4 (if keys = 0 then 1 else 0) ++ leList 4 pages))
      (List.replicate 48 0 ++ post) keys (o := 12) (n := 4) (by simp [length_leList])
    simpa only [List.append_assoc] using this
  · have := leVal_zero_field (leList 4 (lseCode z keys) ++ (leList 4 (if keys = 0 then 1 else 0) ++ (leList 4 pages ++ leList 4 keys)))
      post 48 (o := 16) (n := 48) (by simp [length_leList]) rfl
    simpa only [List.append_assoc] using this
/-- An output of it. -/
theorem outRecord_output {k : Nat} (hk : k < d) :
    leVal (((outRecord (softOf d z pages keys)).drop (64 + 4 * k)).take 4) = outCode z keys k := by
  obtain ⟨a, b, split, length⟩ := flatten_map_split (f := fun k => leList 4 (outCode z keys k)) (w := 4) (fun _ => length_leList ..)
    (l := List.range d) (k := k) (List.getElem?_range hk)
  rw [outRecord_eq, split, ← List.append_assoc, leVal_field _ b _ (by rw [List.length_append, length_outHeader, length])]
  exact Nat.mod_eq_of_lt (outCode_lt z keys k)
theorem length_outRecord : (outRecord (softOf d z pages keys)).length = 64 + 4 * d := by
  rw [outRecord_eq, List.length_append, length_outHeader, length_flatten_map (w := 4) (fun _ => length_leList ..), List.length_range]
end

/-! ## A row -/

/-- Each page of a list has no more than 64 keys. -/
theorem length_keys_le (s : State) (x : SeqDesc) (page : Nat → Nat) (vend : Nat) (ps : List Nat)
    (h : ∀ p ∈ ps, leVal (s.bytes (page p) 2) ≤ 64) : (ps.flatMap (pageKeys s x page vend)).length ≤ 64 * ps.length := by
  induction ps with
  | nil => exact Nat.le_refl 0
  | cons p ps ih =>
    obtain ⟨count, rest⟩ := List.forall_mem_cons.mp h
    have live : (pageKeys s x page vend p).length ≤ 64 := by
      unfold pageKeys liveRows
      rw [List.length_map, List.length_range]
      exact (Nat.min_le_left ..).trans count
    rw [List.flatMap_cons, List.length_append, List.length_cons, Nat.mul_succ]
    have := ih rest
    omega
theorem SeqDesc.d_mul (x : SeqDesc) : 64 + 4 * x.d = 64 * (1 + x.d / 16) := by
  have : x.d = 64 * 2 ^ x.dcode := rfl
  omega

/-- An output record is written, each of its fields where the statement looks for it. -/
theorem State.rowPut_outRecord {s u : State} {c : Ctx} {va : Nat} {x : SeqDesc} {out : Nat → Nat} (cmd pos : Nat)
    (z : Val × Val × (Nat → Val)) {pages keys : Nat} (hp : pages < 256 ^ 4) (hk : keys < 256 ^ 4)
    (writes : GranulesWritten s c va (1 + x.d / 16) out) (on : State.ReadOn (s.taskAt c) s u) :
    ∃ t, u.rowPut (s.taskAt c) cmd pos va (outRecord (softOf x.d z pages keys)) = (t, .ok) ∧ wroteAt t out 0 4 = lseCode z keys ∧
      wroteAt t out 4 4 = (if keys = 0 then 1 else 0) ∧ wroteAt t out 8 4 = pages ∧ wroteAt t out 12 4 = keys ∧
      wroteAt t out 16 48 = 0 ∧ (∀ k < x.d, wroteAt t out (64 + 4 * k) 4 = outCode z keys k) ∧ ElseKept s t out (1 + x.d / 16) := by
  have size := SeqDesc.d_mul x
  obtain ⟨t, put, wrote, elseKept⟩ := State.rowPut_granules cmd pos writes on ((length_outRecord x.d z pages keys).trans size)
  have output (k : Nat) (hk : k < x.d) := (wrote (64 + 4 * k) 4 (by omega)).trans (outRecord_output x.d z pages keys hk)
  rw [outRecord_eq] at wrote
  obtain ⟨header0, header4, header8, header12, header16⟩ := outHeader_fields z pages keys
    ((List.range x.d).map (fun k => leList 4 (outCode z keys k))).flatten
  exact ⟨t, put, (wrote 0 4 (by omega)).trans header0, (wrote 4 4 (by omega)).trans header4,
    (wrote 8 4 (by omega)).trans (header8.trans (Nat.mod_eq_of_lt hp)),
    (wrote 12 4 (by omega)).trans (header12.trans (Nat.mod_eq_of_lt hk)), (wrote 16 48 (by omega)).trans header16, output, elseKept⟩

section
variable {s : State} {c : Ctx} {i f : Nat} {la : Nat → Nat} {a : AtRun} {x : SeqDesc} (ha : s.atOf i = a) (hx : s.seqDesc a.desc = x)
  (hid : s.taskAt c = a.task) (list : BytesSeen s c (a.rec'.w4.toNat + 2112 * f) 2112 la)
include ha hx hid list
/-- A list that is too long, or out of order, ends the gang. -/
theorem State.attRow_ended (h : ¬ (seenAt s c la 0 2 ≤ 256 ∧
    ((List.range (seenAt s c la 0 2)).map (fun k => seenAt s c la (64 + 8 * k) 3)).Pairwise (· < ·) ∧
    ∀ p ∈ (List.range (seenAt s c la 0 2)).map (fun k => seenAt s c la (64 + 8 * k) 3), p < (x.length + 63) / 64)) :
    ∃ u, State.ReadOn (s.taskAt c) s u ∧ s.attRow i f = (u.atEnd i 0x22 (a.rec'.w4.toNat + 2112 * f) f, .ended) := by
  obtain ⟨u, read, on⟩ := State.listGet_seen list a.cmd f
  refine ⟨u, on, ?_⟩
  have refused : (decide (seenAt s c la 0 2 > 256) || !ascending (ceil64 x.length) ((if seenAt s c la 0 2 > 256 then []
      else List.range (seenAt s c la 0 2)).map (fun k => seenAt s c la (64 + 8 * k) 3))) = true := by
    by_cases long : seenAt s c la 0 2 > 256
    · rw [decide_eq_true long]; rfl
    · rw [if_neg long, decide_eq_false long, Bool.false_or, Bool.not_eq_true', ← Bool.not_eq_true, ascending_iff]
      exact fun sound => h ⟨by omega, sound⟩
  unfold State.attRow
  simp only [ha, hx, ← hid, read, refused, if_true]
/-- A row over a legal list whose pages are there and sound is one write of its output record. -/
theorem State.attRow_seen {qa page : Nat → Nat} {q : Query} (hq : queryOf (seenAt s c qa) x.d x.length a.rec'.causal = q)
    {ps : List Nat} (hps : (List.range (seenAt s c la 0 2)).map (fun k => seenAt s c la (64 + 8 * k) 3) = ps)
    (short : seenAt s c la 0 2 ≤ 256) (rising : ps.Pairwise (· < ·)) (below : ∀ p ∈ ps, p < (x.length + 63) / 64)
    (row : BytesSeen s c (a.rec'.rowBase.toNat + f * a.rec'.rows.stride.toNat) (64 + 2 * x.d) qa) (scale : scaleOk q.scale = true)
    (pages : ∀ p ∈ ps, PageAt s i p (page p) ∧ SoundRange s (page p) (SeqDesc.pageBytes x) ∧ leVal (s.bytes (page p) 2) ≤ 64) :
    ∃ u, State.ReadOn (s.taskAt c) s u ∧ s.attRow i f = u.rowPut (s.taskAt c) a.cmd f (a.rec'.out.toNat + (64 + 4 * x.d) * f)
      (outRecord (softOf x.d ((ps.flatMap (pageKeys s x page q.vend)).foldl (softStep x.d (cleanAt (seenAt s c qa) 64) q.scale)
          (.inf true, .fin false 0 0 false, fun _ => .fin false 0 0 false))
        (ps.filter (fun p => decide (64 * p < q.vend))).length (ps.flatMap (pageKeys s x page q.vend)).length)) := by
  obtain ⟨u, readList, on⟩ := State.listGet_seen list a.cmd f
  obtain ⟨v, read, on'⟩ := BytesSeen.rowGet row on (o := 0) (n := 64 + 2 * x.d) (by omega) a.cmd f
  simp only [Nat.zero_add, Nat.add_zero] at read
  have query := (readQuery_seenBytes s c qa x.d x.length a.rec'.causal).trans hq
  have values : q.q = (List.range x.d).map (cleanAt (seenAt s c qa) 64) := by rw [← hq]; rfl
  have attended := State.softPages_seen (f := f) on' values ps pages (.inf true, .fin false 0 0 false, fun _ => .fin false 0 0 false) 0 0
  rw [Nat.zero_add, Nat.zero_add] at attended
  have start : softOf x.d (.inf true, .fin false 0 0 false, fun _ => .fin false 0 0 false) 0 0 =
      { o := List.replicate x.d (.fin false 0 0 false) } := by
    unfold softOf
    simp
  rw [start] at attended
  have legal : (decide (seenAt s c la 0 2 > 256) || !ascending (ceil64 x.length) ps) = false := by
    rw [decide_eq_false (by omega), Bool.false_or, Bool.not_eq_false', ascending_iff]
    exact ⟨rising, below⟩
  rw [if_neg (by omega), hps] at readList
  refine ⟨v, on', ?_⟩
  unfold State.attRow
  simp only [ha, hx, ← hid, readList, legal, read, query, scale, attended, Bool.not_true, Bool.false_eq_true, if_false]
end

end Sys2Proof.Machine

namespace Sys2Proof.Proofs

open Sys2Proof.Machine Sys2Proof.Claims

/-- A row of `at.att` over an illegal list, and over one whose pages are there and sound (R353). -/
theorem attendRow : AttendRow := by
  intro s c i f la qa page out
  dsimp only
  intro hid list
  generalize ha : s.atOf i = a at *
  generalize hx : s.seqDesc a.desc = x at *
  generalize hps : (List.range (seenAt s c la 0 2)).map (fun k => seenAt s c la (64 + 8 * k) 3) = ps at *
  refine ⟨fun illegal => ?_, fun short rising below row scale pages writes => ?_⟩
  · obtain ⟨u, on, ended⟩ := State.attRow_ended ha hx hid list (by rw [hps]; exact illegal)
    obtain ⟨mem, r, queued, code⟩ := u.atEnd_list i (a.rec'.w4.toNat + 2112 * f) f
    exact ⟨_, r, ended, by rw [queued, on.faultQ], code, mem.trans on.mem⟩
  · obtain ⟨u, on, attended⟩ := State.attRow_seen ha hx hid list rfl hps short rising below row scale pages
    have few : ps.length ≤ 256 := by rw [← hps, List.length_map, List.length_range]; exact short
    rw [attended]
    refine State.rowPut_outRecord a.cmd f _ (lt_of_le_of_lt ((List.length_filter_le ..).trans few) (by decide)) ?_ writes on
    exact lt_of_le_of_lt ((length_keys_le s x page _ ps fun p hp => (pages p hp).2.2).trans (Nat.mul_le_mul_left 64 few)) (by decide)

/-- Settles O36: the reads of a row leave its task's further accesses as they were, so that its pages are bounded or attended as
the statement says, and its record is written granule by granule. -/
theorem attentionRows : Obligations.AttentionRows := ⟨selectRow, attendRow⟩

end Sys2Proof.Proofs
end

section
/-!
Heads hold nothing after a step (R76, R79): the drains that end an act leave the commit order as it is and fill no hold.
-/

namespace Sys2Proof.Machine

open Sys2Proof.Laws

/-! ## The commit order (R75, R76) -/

/-- Two tasks have the same place in a commit order. -/
structure Task.SamePlace (t u : Task) : Prop where
  gang : u.gang = t.gang
  phase : u.phase = t.phase
  scope : u.scope = t.scope
  ctx : u.ctx = t.ctx
  ts : u.ts = t.ts

theorem Task.SamePlace.refl (t : Task) : t.SamePlace t := ⟨rfl, rfl, rfl, rfl, rfl⟩
theorem Task.SamePlace.trans {t u w : Task} (h : t.SamePlace u) (k : u.SamePlace w) : t.SamePlace w :=
  ⟨k.gang.trans h.gang, k.phase.trans h.phase, k.scope.trans h.scope, k.ctx.trans h.ctx, k.ts.trans h.ts⟩
theorem Task.SamePlace.inOrder {t u : Task} (h : t.SamePlace u) : u.inOrder = t.inOrder := by
  unfold Task.inOrder; rw [h.gang, h.phase]
theorem Task.SamePlace.sameInst {t u t' u' : Task} (h : t.SamePlace u) (k : t'.SamePlace u') :
    u.sameInst u' = t.sameInst t' := by
  unfold Task.sameInst; rw [h.scope, h.ctx, k.scope, k.ctx]

/-- A task in a commit order is listed. -/
theorem State.mem_mkeys_of_inOrder {s : State} {k : Nat} (h : (s.task k).inOrder = true) : k ∈ mkeys s.tasks := by
  refine List.mem_map.mpr ⟨_, mem_of_mget_ne_default s.tasks k fun e => ?_, rfl⟩
  unfold State.task at h
  rw [e] at h
  exact nomatch h
/-- A head is in order, and no task in order of its commit scope comes before it. -/
theorem State.isHead_iff (s : State) (id : Nat) : s.isHead id = true ↔ (s.task id).inOrder = true ∧ ∀ k,
    ¬ ((s.task k).inOrder = true ∧ (s.task id).sameInst (s.task k) = true ∧
      precedes (s.task k).ts k (s.task id).ts id = true) := by
  unfold State.isHead
  simp only [Bool.and_eq_true, List.all_eq_true, Bool.not_eq_true', Bool.and_eq_false_imp]
  refine and_congr_right fun _ => ⟨fun h k ⟨ho, hs, hp⟩ => ?_, fun h k _ hos => ?_⟩
  · rw [h k (State.mem_mkeys_of_inOrder ho) ⟨ho, hs⟩] at hp
    exact nomatch hp
  · exact Bool.eq_false_iff.mpr fun hp => h k ⟨hos.1, hos.2, hp⟩

/-! ## What a drain keeps -/

/-- Each task of `u` has the place in its commit order that it has in `s`, and holds nothing where it holds nothing there. -/
structure State.Drained (s u : State) : Prop where
  place : ∀ j, (s.task j).SamePlace (u.task j)
  empty : ∀ j, (s.task j).hold = [] → (u.task j).hold = []

theorem State.Drained.of_tasks {s u : State} (h : u.tasks = s.tasks) : s.Drained u := by
  have same : u.task = s.task := by unfold State.task; rw [h]
  exact ⟨fun j => same ▸ .refl _, fun j e => by rw [same]; exact e⟩
theorem State.Drained.trans {s t u : State} (h : s.Drained t) (k : t.Drained u) : s.Drained u :=
  ⟨fun j => (h.place j).trans (k.place j), fun j e => k.empty j (h.empty j e)⟩
theorem State.Drained.isHead {s u : State} (h : s.Drained u) (id : Nat) : u.isHead id = s.isHead id := by
  rw [Bool.eq_iff_iff, State.isHead_iff, State.isHead_iff, (h.place id).inOrder]
  refine and_congr_right fun _ => forall_congr' fun k => ?_
  rw [(h.place k).inOrder, (h.place id).sameInst (h.place k), (h.place k).ts, (h.place id).ts]
theorem State.Drained.headsHoldNothing {s u : State} (h : s.Drained u) (hs : Claims.HeadsHoldNothing s) :
    Claims.HeadsHoldNothing u := fun id hid => h.empty id (hs id (h.isHead id ▸ hid))

theorem State.overtake_drained (s : State) (id pa n : Nat) : s.Drained (s.overtake id pa n) :=
  ⟨fun j => by rw [(s.overtake_alike id pa n).task j]; exact ⟨rfl, rfl, rfl, rfl, rfl⟩,
    fun j e => (s.hold_overtake id pa n j).trans e⟩
theorem State.abort_drained (s : State) (v : Nat) : s.Drained (s.abort v) := by
  refine ⟨fun j => ?_, fun j => s.hold_abort v j⟩
  rcases s.task_abort v j with e | ⟨m, e⟩
  · rw [e]; exact .refl _
  · rw [e]; exact ⟨rfl, rfl, rfl, rfl, rfl⟩
theorem State.writeGranule_tasks (s : State) (pa : Nat) (bs : List Byte) : (s.writeGranule pa bs).1.tasks = s.tasks := by
  rcases s.writeGranule_cases pa bs with ⟨e, -, -⟩ | ⟨k, e, -, -⟩ <;> rw [e]

/-- A task that keeps nothing in its hold, and nothing that it let out of it. -/
def Task.unheld (t : Task) : Task := { t with hold := [], out := [], redo := [] }
/-- A drained task holds nothing, and the drain has filled no hold. -/
theorem State.drain_drained (s : State) (id : Nat) : s.Drained (s.drain id) ∧ ((s.drain id).task id).hold = [] := by
  have first : s.Drained (s.setTask id (s.task id).unheld) := by
    refine ⟨fun j => ?_, fun j e => ?_⟩
    · by_cases hj : j = id
      · subst hj; rw [State.task_setTask_same]; exact ⟨rfl, rfl, rfl, rfl, rfl⟩
      · rw [s.task_setTask_ne hj]; exact .refl _
    · by_cases hj : j = id
      · subst hj; rw [State.task_setTask_same]; rfl
      · rw [s.task_setTask_ne hj]; exact e
  have rest : (s.setTask id (s.task id).unheld).Drained (s.drain id) := by
    refine State.letGo_keeps (P := (s.setTask id (s.task id).unheld).Drained) s id _ _ (.of_tasks rfl) ?_ ?_ ?_ ?_
    · exact fun t pa bs h => h.trans (.of_tasks (t.writeGranule_tasks pa bs))
    · exact fun t u hr h => h.trans (.of_tasks hr.tasks)
    · exact fun t pa n h => h.trans (t.overtake_drained id pa n)
    · exact fun t v h => h.trans (t.abort_drained v)
  exact ⟨first.trans rest, rest.empty id (by rw [State.task_setTask_same]; rfl)⟩

/-- One task's turn when an act has performed. -/
def State.settleOne (s : State) (id : Nat) : State :=
  if s.isHead id && ((s.task id).hold != [] || (s.task id).redo != []) then s.drain id else s
theorem State.settleOne_drained (s : State) (id : Nat) :
    s.Drained (s.settleOne id) ∧ ((s.settleOne id).isHead id = true → ((s.settleOne id).task id).hold = []) := by
  unfold State.settleOne
  split
  · exact ⟨(s.drain_drained id).1, fun _ => (s.drain_drained id).2⟩
  · next h =>
    refine ⟨.of_tasks rfl, fun hd => ?_⟩
    by_contra hh
    exact h (by simp [hd, hh])
/-- After the turns of some tasks, the heads among them hold nothing. -/
theorem State.settleAll_drained (l : List Nat) (s : State) : s.Drained (l.foldl State.settleOne s) ∧
    ∀ id ∈ l, (l.foldl State.settleOne s).isHead id = true → ((l.foldl State.settleOne s).task id).hold = [] := by
  induction l generalizing s with
  | nil => exact ⟨.of_tasks rfl, nofun⟩
  | cons id l ih =>
    obtain ⟨one, own⟩ := s.settleOne_drained id
    obtain ⟨rest, others⟩ := ih (s.settleOne id)
    refine ⟨one.trans rest, fun j hj head => ?_⟩
    rcases List.mem_cons.mp hj with rfl | hj
    · exact rest.empty j (own (rest.isHead j ▸ head))
    · exact others j hj head
/-- Whatever has been done, no head holds anything once every head has had its turn. -/
theorem State.settle_headsHoldNothing (s : State) : Claims.HeadsHoldNothing s.settle := by
  intro id head
  obtain ⟨kept, empty⟩ := State.settleAll_drained (mkeys s.tasks) s
  have ordered : (s.task id).inOrder = true := ((s.isHead_iff id).mp ((kept.isHead id).symm.trans head)).1
  exact empty id (State.mem_mkeys_of_inOrder ordered) head

/-! ## What follows the drains, and the begin of a cycle -/

/-- Loads in flight that look at memory again change threads and the free counter alone. -/
theorem State.lookAgain_only (s : State) (actor : Option Ctx) :
    s.lookAgain actor = { s with threads := (s.lookAgain actor).threads, free := (s.lookAgain actor).free } := by
  refine List.foldlRecOn (motive := fun t : State => t = { s with threads := t.threads, free := t.free }) _ _ rfl
    fun t h p _ => ?_
  rw [h]; rfl
theorem State.lookAgain_tasks (s : State) (actor : Option Ctx) : (s.lookAgain actor).tasks = s.tasks := by
  rw [s.lookAgain_only actor]

theorem State.takeOut_tasks (s : State) (c : Ctx) : (s.takeOut c).tasks = s.tasks := by
  unfold State.takeOut
  dsimp only
  split <;> rfl
/-- What firmware does of its own changes no task. -/
theorem State.firmware_tasks (s : State) : s.firmware.tasks = s.tasks := by
  unfold State.firmware
  extract_lets quiet
  refine List.foldlRecOn (motive := fun t : State => t.tasks = s.tasks) _ _ rfl fun t h c _ => ?_
  rw [← h]
  extract_lets k s1 id here area
  split
  · rfl
  split
  · exact s1.takeOut_tasks c
  split
  · rfl
  split
  · split <;> rfl
  split
  · rfl
  split
  · split <;> rfl
  · rfl
theorem State.upset_tasks (s : State) : s.upset.tasks = s.tasks := by
  unfold State.upset; split <;> rfl
/-- The begin of a real cycle changes no task. -/
theorem State.advance_tasks (s : State) : s.advance.tasks = s.tasks := by
  unfold State.advance
  dsimp only
  rw [State.upset_tasks]
  split
  · exact State.firmware_tasks _
  · rfl

end Sys2Proof.Machine

namespace Sys2Proof.Proofs

open Sys2Proof.Machine Sys2Proof.Claims

/-- Settles O30: an act is followed by the drains of all heads, and the begin of a real cycle changes no task. -/
theorem headsDrain : Obligations.HeadsDrain := by
  intro s t hs e
  unfold step at e
  split at e
  · injection e with e
    rw [← e]
    exact (State.Drained.of_tasks s.advance_tasks).headsHoldNothing hs
  · next a rest _ =>
    generalize ({ s with agenda := rest } : State).perform a = o at e
    cases o with
    | next u =>
      injection e with e
      rw [← e]
      exact (State.Drained.of_tasks (u.settle.lookAgain_tasks _)).headsHoldNothing u.settle_headsHoldNothing
    | fault r => exact nomatch e
    | refused r => exact nomatch e

end Sys2Proof.Proofs
end

section
/-!
Waits and writes in flight (R109, R122, R390): a second write of a key takes the place of the first, and what a look at
memory again may change of the loads in flight.
-/

namespace Sys2Proof.Laws

open Sys2Proof.Machine

variable {α : Type}

theorem mdel_mput (k : Nat) (v : α) (m : SMap α) : mdel k (mput k v m) = mdel k m := by
  induction m with
  | nil => simp [mput, mdel]
  | cons q m ih =>
    obtain ⟨j, w⟩ := q
    unfold mput
    split
    · unfold mdel at ih ⊢
      rw [List.filter_cons, List.filter_cons, ih]
    · simp [mdel]
theorem mdel_mdel (k : Nat) (m : SMap α) : mdel k (mdel k m) = mdel k m := by
  unfold mdel; rw [List.filter_filter]; simp
/-- Of two writes of a key the later one stands, in every list of pairs. -/
@[simp] theorem mset_mset [Inhabited α] [DecidableEq α] (m : SMap α) (k : Nat) (v w : α) :
    mset (mset m k v) k w = mset m k w := by
  have cleared : mdel k (mset m k v) = mdel k m := by
    unfold mset
    split
    · exact mdel_mdel k m
    · rw [mdel_mput, mdel_mdel]
  unfold mset at cleared ⊢
  rw [cleared]

end Sys2Proof.Laws

namespace Sys2Proof.Machine

open Sys2Proof.Laws

@[simp] theorem State.setThr_setThr (s : State) (c : Ctx) (t u : Thread) : (s.setThr c t).setThr c u = s.setThr c u := by
  unfold State.setThr
  dsimp only
  rw [mset_mset]
/-- Two changes of one thread are the change by both. -/
theorem State.modThr_modThr (s : State) (c : Ctx) (f g : Thread → Thread) :
    (s.modThr c f).modThr c g = s.modThr c (fun t => g (f t)) := by
  unfold State.modThr
  rw [State.thr_setThr_same, State.setThr_setThr]

/-- A change of one thread leaves all but the threads as it is. -/
theorem State.modThr_only (s : State) (c : Ctx) (f : Thread → Thread) :
    s.modThr c f = { s with threads := (s.modThr c f).threads } := rfl

/-! ## Loads in flight that look at memory again (R96, R390) -/

/-- The write in flight `q` is `p`, but that its value may be one that `see` gives at its bytes, which stay the same. -/
structure Pend.Looked (see : Again → Nat) (p q : Pend) : Prop where
  only : q = { p with v := q.v, again := q.again }
  bytes : q.again.map (fun a => (a.pa, a.n, a.signed)) = p.again.map (fun a => (a.pa, a.n, a.signed))
  value : q.v = p.v ∨ ∃ a, p.again = some a ∧ q.v = extN a.signed a.n (see a)

theorem Pend.Looked.refl {see : Again → Nat} (p : Pend) : p.Looked see p := ⟨rfl, rfl, .inl rfl⟩
/-- What is seen depends on the bytes alone. -/
def OfBytes (see : Again → Nat) : Prop := ∀ a b : Again, a.pa = b.pa → a.n = b.n → see a = see b
theorem Pend.Looked.trans {see : Again → Nat} (hs : OfBytes see) {p q r : Pend} (h : p.Looked see q) (k : q.Looked see r) :
    p.Looked see r := by
  refine ⟨?_, k.bytes.trans h.bytes, ?_⟩
  · rw [k.only, h.only]
  · rcases k.value with e | ⟨a, ha, e⟩
    · rw [e]; exact h.value
    · have same := h.bytes
      rw [ha] at same
      obtain ⟨b, hb, eb⟩ := Option.map_eq_some_iff.mp same.symm
      injection eb with hpa rest
      injection rest with hn hsg
      exact .inr ⟨b, hb, by rw [e, hs b a hpa hn, hn, hsg]⟩
theorem forall₂_looked_trans {see : Again → Nat} (hs : OfBytes see) {l m r : List Pend}
    (h : List.Forall₂ (Pend.Looked see) l m) (k : List.Forall₂ (Pend.Looked see) m r) :
    List.Forall₂ (Pend.Looked see) l r := by
  induction h generalizing r with
  | nil => exact k
  | cons hp _ ih =>
    cases k with
    | cons kp ks => exact .cons (hp.trans hs kp) (ih ks)
/-- One look of the loads in flight of a thread. -/
theorem lookPends_looked (see : Again → Nat) (own : Bool) (k : Nat) (old : List Again) (ps : List Pend) :
    List.Forall₂ (Pend.Looked see) ps (lookPends see own k old ps) := by
  induction ps generalizing k old with
  | nil => exact .nil
  | cons p ps ih =>
    unfold lookPends
    split
    · exact .cons (.refl p) (ih _ _)
    · next a ha =>
      dsimp only
      split
      · exact .cons ⟨rfl, by rw [ha]; rfl, .inr ⟨a, ha, rfl⟩⟩ (ih _ _)
      · exact .cons ⟨rfl, by rw [ha]; rfl, .inl rfl⟩ (ih _ _)

/-- What the task of a context sees at the bytes of a load in flight. -/
def State.sees (s : State) (c : Ctx) (a : Again) : Nat := leVal (s.taskBytes (s.taskAt c) a.pa a.n)
theorem State.sees_ofBytes (s : State) (c : Ctx) : OfBytes (s.sees c) := fun a b hpa hn => by
  unfold State.sees; rw [hpa, hn]
/-- Of `s`, `u` differs in its threads and the free counter, and of the thread of `c` in what loads in flight have seen. -/
structure State.LookedAt (s : State) (c : Ctx) (u : State) : Prop where
  only : u = { s with threads := u.threads, free := u.free }
  thread : u.thr c = { s.thr c with pend := (u.thr c).pend }
  pends : List.Forall₂ (Pend.Looked (s.sees c)) (s.thr c).pend (u.thr c).pend

/-- One context's look keeps what the looks before it have kept. -/
theorem State.LookedAt.look {s u : State} {c : Ctx} (h : s.LookedAt c u) (d : Ctx) (own : Bool) :
    s.LookedAt c (u.modThr d (fun t => { t with pend := lookPends (u.sees d) own u.free [] t.pend })) := by
  have seen : u.sees d = s.sees d := by rw [h.only]; rfl
  refine ⟨?_, ?_, ?_⟩
  · have only := h.only
    generalize u.threads = threads, u.free = free at only
    subst only
    rfl
  all_goals by_cases hd : c = d
  · subst hd; rw [State.thr_modThr_same, h.thread]
  · rw [State.thr_modThr_ne u hd]; exact h.thread
  · subst hd
    rw [State.thr_modThr_same, seen]
    exact forall₂_looked_trans (s.sees_ofBytes c) h.pends (lookPends_looked _ _ _ _ _)
  · rw [State.thr_modThr_ne u hd]; exact h.pends
theorem State.LookedAt.freely {s u : State} {c : Ctx} (h : s.LookedAt c u) (k : Nat) :
    s.LookedAt c { u with free := k } :=
  ⟨by conv_lhs => rw [h.only], h.thread, h.pends⟩
theorem State.lookAgain_lookedAt (s : State) (actor : Option Ctx) (c : Ctx) : s.LookedAt c (s.lookAgain actor) := by
  refine List.foldlRecOn (motive := s.LookedAt c) _ _ ⟨rfl, rfl, ?_⟩ fun u h p _ => ?_
  · exact List.forall₂_same.mpr fun p _ => .refl p
  · exact (h.look (BitVec.ofNat 5 p.1) (actor == some (BitVec.ofNat 5 p.1))).freely _

end Sys2Proof.Machine

namespace Sys2Proof.Proofs

open Sys2Proof.Laws Sys2Proof.Machine Sys2Proof.Claims

theorem waitEnds : Claims.WaitEnds := by
  refine fun s => ⟨fun h => ?_, fun h => ?_⟩ <;> show execWait s = _ <;> unfold execWait <;> rw [h]
  · rfl
  · exact congrArg Host.Outcome.next (State.modThr_modThr s s.cur _ _)
theorem waitTimeout : Claims.WaitTimeout := by
  intro s c n idle
  have due : (s.thr c).idle.any (fun n => decide (n + waitLimit ≤ s.cycle)) = decide (n + 65536 ≤ s.cycle) := by
    rw [idle]; rfl
  refine congrArg (fun u => Host.Outcome.next (s.setThr c u)) ?_
  dsimp only
  rw [due]
  by_cases h : n + 65536 ≤ s.cycle
  · simp only [h, decide_true, if_true]
  · simp only [h, decide_false, if_false]
    rfl
theorem land_landed (u : Thread) (p : Pend) (v : Word) (poison : Bool) : Landed u (u.land p v poison) p v poison := by
  refine ⟨fun r => u.get_put p.d r v poison, fun r => u.poisoned_put p.d r v poison, ?_⟩
  unfold Thread.land Thread.put
  split <;> rfl
theorem pendingWriteLands : Claims.PendingWriteLands := by
  intro s c p hp hk only
  have found : (s.thr c).pend.find? (fun q => q.d == p.d && q.kind == .value) = some p := by
    cases e : (s.thr c).pend.find? (fun q => q.d == p.d && q.kind == .value) with
    | none => simpa [hk] using List.find?_eq_none.mp e p hp
    | some q =>
      have hq := List.find?_some e
      rw [Bool.and_eq_true, beq_iff_eq] at hq
      rw [only q (List.mem_of_find?_eq_some e) hq.1]
  refine ⟨s.modThr c (fun t => t.land p p.v p.poison), ?_, s.modThr_eq c _, ?_⟩
  · show execPendingWriteLands c p.d s = _
    unfold execPendingWriteLands
    rw [found]
  · rw [State.thr_modThr_same]
    exact land_landed _ _ _ _
theorem loadsLookAgain : Claims.LoadsLookAgain := by
  intro s actor c
  obtain ⟨only, thread, pends⟩ := s.lookAgain_lookedAt actor c
  obtain ⟨length, each⟩ := List.forall₂_iff_zip.mp pends
  exact ⟨only, thread, length.symm, fun x hx => ⟨(each hx).only, (each hx).value⟩⟩

/-- Settles O41, by its four parts: the two ends of a `wait`, the landing of a value, and the look of loads in flight. -/
theorem waitsAndLandings : Obligations.WaitsAndLandings := ⟨waitEnds, waitTimeout, pendingWriteLands, loadsLookAgain⟩

end Sys2Proof.Proofs
end

section
/-!
What an access of the acting thread makes of the state before it performs (R116, R250 to R254).
-/

namespace Sys2Proof.Machine

open Sys2Proof.Laws

/-! ## Translation -/

/-- `u` is `s` after a translation: the marked entry with its check, the TLBs, the dead pages noted, the free counter and what a
failed check of the entry reports. -/
def State.Translated (s u : State) : Prop :=
  u = { s with mem := u.mem, checks := u.checks, tlb1 := u.tlb1, tlb2 := u.tlb2, dead := u.dead, free := u.free
               faultQ := u.faultQ, recorded := u.recorded, fb := u.fb, dying := u.dying }

/-- Setting Accessed and Dirty changes what an update does. -/
theorem State.markWord_rest (s : State) (id pa old new : Nat) :
    s.markWord id pa old new = { s with
      mem := (s.markWord id pa old new).mem, checks := (s.markWord id pa old new).checks
      faultQ := (s.markWord id pa old new).faultQ, recorded := (s.markWord id pa old new).recorded
      fb := (s.markWord id pa old new).fb, dying := (s.markWord id pa old new).dying } := by
  unfold State.markWord
  split
  · rfl
  · exact s.updateFor_rest id pa _
/-- A walk that ends at a leaf marks it and fills the TLBs; another one leaves the state as it is. -/
theorem State.walkFill_cases (s : State) (c : Ctx) (tenant : BitVec 16) (k : AccK) (va : Nat) :
    (s.walkFill c tenant k va).1 = s ∨
      s.Translated (s.walkFill c tenant k va).1 ∧ ∃ p lv a, (s.walkFill c tenant k va).2.1 = .leaf p lv a := by
  unfold State.walkFill
  split
  · exact .inl rfl
  · exact .inl rfl
  · next p lv a _ =>
    have marked := s.markWord_rest (s.taskAt c) a p (markPte (k == .store && pteBit p 2) p)
    refine .inr ⟨?_, _, _, _, rfl⟩
    unfold State.Translated
    dsimp only
    rw [marked]
theorem State.findLeaf_cases (s : State) (c : Ctx) (tenant : BitVec 16) (k : AccK) (va : Nat) :
    (s.findLeaf c tenant k va).1 = s ∨
      s.Translated (s.findLeaf c tenant k va).1 ∧ ∃ p lv a, (s.findLeaf c tenant k va).2.1 = .leaf p lv a := by
  unfold State.findLeaf
  split
  · split
    · exact .inl rfl
    · exact s.walkFill_cases c tenant k va
  · exact s.walkFill_cases c tenant k va
/-- The check of a leaf finds no page fault. -/
theorem State.checkLeaf_present (s : State) (owner : BitVec 8) (sup : Bool) (k : AccK) (pte size va : Nat) :
    s.checkLeaf owner sup k pte size va ≠ .pageFault := by
  unfold State.checkLeaf
  extract_lets page pa pl
  repeat' split
  all_goals simp
/-- A translation changes the state as a walk does, and not at all where it page-faults. -/
theorem State.translate_cases (s : State) (c : Ctx) (tenant : BitVec 16) (owner : BitVec 8) (sup : Bool) (k : AccK) (va : Nat) :
    (s.translate c tenant owner sup k va).1 = s ∨
      s.Translated (s.translate c tenant owner sup k va).1 ∧ (s.translate c tenant owner sup k va).2 ≠ .pageFault := by
  unfold State.translate
  split
  · exact .inl rfl
  · have leaf := s.findLeaf_cases c tenant k va
    dsimp only
    rcases leaf with e | ⟨e, p, lv, a, found⟩
    · left
      split <;> exact e
    · right
      rw [found]
      exact ⟨e, State.checkLeaf_present _ _ _ _ _ _ _⟩
theorem State.seqTranslate_cases (s : State) (k : AccK) (va : Nat) :
    (s.seqTranslate k va).1 = s ∨ s.Translated (s.seqTranslate k va).1 ∧ (s.seqTranslate k va).2 ≠ .pageFault := by
  unfold State.seqTranslate
  dsimp only
  split
  · exact .inl rfl
  split
  · exact .inl rfl
  · exact s.translate_cases ..
theorem State.seqTranslate_translated {s s1 : State} {k : AccK} {va : Nat} {a : Acc} (h : s.seqTranslate k va = (s1, a)) :
    s.Translated s1 := by
  rcases s.seqTranslate_cases k va with e | ⟨e, -⟩ <;> rw [h] at e
  · subst e; rfl
  · exact e
/-- A translation that page-faults changes nothing. -/
theorem State.seqTranslate_pageFault {s s1 : State} {k : AccK} {va : Nat} (h : s.seqTranslate k va = (s1, .pageFault)) :
    s1 = s := by
  rcases s.seqTranslate_cases k va with e | ⟨-, e⟩ <;> rw [h] at e
  · exact e
  · exact absurd rfl e
/-- A translated state is the old one in all that a translation does not change. -/
theorem State.Translated.elim {s u : State} (h : s.Translated u) {P : State → Prop}
    (each : ∀ mem checks tlb1 tlb2 dead free faultQ recorded fb dying, P { s with
      mem := mem, checks := checks, tlb1 := tlb1, tlb2 := tlb2, dead := dead, free := free
      faultQ := faultQ, recorded := recorded, fb := fb, dying := dying }) : P u := by
  rw [h]; exact each ..

section
variable {s u : State} (h : s.Translated u)
include h
theorem State.Translated.cur : u.cur = s.cur := by rw [h]
theorem State.Translated.cycle : u.cycle = s.cycle := by rw [h]
theorem State.Translated.threads : u.threads = s.threads := by rw [h]
theorem State.Translated.tasks : u.tasks = s.tasks := by rw [h]
theorem State.Translated.thr (c : Ctx) : u.thr c = s.thr c := by rw [h]; rfl
theorem State.Translated.task (id : Nat) : u.task id = s.task id := by rw [h]; rfl
theorem State.Translated.taskAt (c : Ctx) : u.taskAt c = s.taskAt c := by rw [h]; rfl
theorem State.Translated.isHead (id : Nat) : u.isHead id = s.isHead id := by rw [h]; rfl
end

end Sys2Proof.Machine
end

section
/-!
The accesses of the sequencer, each rule once: its base and width, where it traps, and what a read does before it gives its
value (R78, R115 to R117).
-/

namespace Sys2Proof.Machine

open Sys2Proof.Laws Sys2Proof.Claims

/-- The address of a load or store (R115). -/
theorem based_eq (base : Word) (off : BitVec 16) : based base off = base + sext16 off := by
  unfold based
  rw [BitVec.ofInt_add, BitVec.ofInt_natCast, BitVec.ofNat_toNat, BitVec.setWidth_eq]
  rfl
/-- The extension of a value of n bytes (R1, R115). -/
theorem extN_true {n v : Nat} (h : v < 2 ^ (8 * n)) (hn : 0 < n) : extN true n v = signed n v := by
  have half : 2 ^ (8 * n) = 2 * 2 ^ (8 * n - 1) := by
    rw [← Nat.pow_succ']; congr 1; omega
  show BitVec.ofInt 64 (BitVec.ofNat (8 * n) v).toInt = _
  unfold signed
  rw [BitVec.toInt_eq_toNat_cond, BitVec.toNat_ofNat, Nat.mod_eq_of_lt h, half]
  congr 1
  by_cases low : v < 2 ^ (8 * n - 1)
  · rw [if_pos low, if_pos (by omega)]
  · rw [if_neg low, if_neg (by omega)]
    rw [← half]
    push_cast
    rfl
/-- Each load is the shared one with its width and extension. -/
theorem exec_of_loadSpec {i : Instr} {d a : Reg} {off : BitVec 16} {n : Nat} {ext : Nat → Word}
    (h : loadSpec i = some (d, a, off, n, ext)) (s : State) :
    ∃ sg, exec i s = s.load d a off n sg ∧ ∀ v < 2 ^ (8 * n), extN sg n v = ext v := by
  unfold loadSpec at h
  split at h <;> cases h
  case h_2 | h_4 | h_6 | h_7 => exact ⟨false, rfl, fun _ _ => rfl⟩
  all_goals exact ⟨true, rfl, fun _ hv => extN_true hv (by decide)⟩
/-- Each store is the shared one with its width. -/
theorem exec_of_storeSpec {i : Instr} {r a : Reg} {off : BitVec 16} {n : Nat} (h : storeSpec i = some (r, a, off, n)) (s : State) :
    exec i s = s.store r a off n ∧ n ∣ 64 ∧ 0 < n ∧ n ≤ 8 := by
  unfold storeSpec at h
  split at h <;> cases h <;> exact ⟨rfl, by decide, by decide, by decide⟩

/-! ## Stalls and traps -/

/-- An instruction whose registers are free and unpoisoned does what it does. -/
theorem State.strict_clean {s : State} {srcs dsts : List Reg} (free : Free s srcs dsts) (clean : Clean s srcs) (k : Thread → Out) :
    s.strict srcs dsts k = k (s.thr s.cur) :=
  s.strict_ok srcs dsts k free ((Thread.firstPoisoned_none _ _).mpr clean)
theorem odd_true {x n : Nat} (h : x % n ≠ 0) : (x % n != 0) = true := bne_iff_ne.mpr h
theorem odd_false {x n : Nat} (h : x % n = 0) : (x % n != 0) = false := by rw [h]; rfl

/-- A load goes on to its read where its address is aligned and nothing is awaited. -/
theorem State.load_eq {s : State} {d a : Reg} {off : BitVec 16} {n : Nat} (sg : Bool) (free : Free s [a] [d]) (clean : Clean s [a])
    (aligned : (based ((s.thr s.cur).get a) off).toNat % n = 0) (un : Unawaited s) :
    s.load d a off n sg = match s.seqRead (based ((s.thr s.cur).get a) off).toNat n none with
      | (s1, .value v p) => .next (s1.retire s1.cur (fun t =>
          t.await { d := d, kind := .value, v := extN sg n v, poison := p
                    due := s1.readDue (based ((s.thr s.cur).get a) off).toNat
                    dev := s1.readDev (based ((s.thr s.cur).get a) off).toNat
                    again := s1.readAgain (based ((s.thr s.cur).get a) off).toNat n sg }))
      | (s1, .stop) => .next s1 := by
  unfold State.load
  rw [State.strict_clean free clean]
  dsimp only
  rw [← based_eq, odd_false aligned, show (s.thr s.cur).acquiring = false from un]
  rfl
/-- A load whose read gives a value puts it in flight, extended. -/
theorem State.load_value {s u : State} {d a : Reg} {off : BitVec 16} {n v : Nat} {p sg : Bool} (free : Free s [a] [d])
    (clean : Clean s [a]) (aligned : (based ((s.thr s.cur).get a) off).toNat % n = 0) (un : Unawaited s)
    (read : s.seqRead (based ((s.thr s.cur).get a) off).toNat n none = (u, .value v p)) :
    ∃ q, s.load d a off n sg = .next (u.retire u.cur (fun t => t.await q)) ∧ Brings q d p ∧ q.v = extN sg n v := by
  rw [State.load_eq sg free clean aligned un, read]
  exact ⟨_, rfl, ⟨rfl, rfl, rfl⟩, rfl⟩
/-- A store goes on to its translation where its address is aligned and nothing is awaited. -/
theorem State.store_eq {s : State} {r a : Reg} {off : BitVec 16} {n : Nat} (free : Free s [a, r] []) (clean : Clean s [a, r])
    (aligned : (based ((s.thr s.cur).get a) off).toNat % n = 0) (un : Unawaited s) {s1 : State} {acc : Acc}
    (tr : s.seqTranslate .store (based ((s.thr s.cur).get a) off).toNat = (s1, acc)) :
    s.store r a off n =
      .next (if (s1.seqStore (based ((s.thr s.cur).get a) off).toNat acc (leList n ((s.thr s.cur).get r).toNat)).2
        then (s1.seqStore (based ((s.thr s.cur).get a) off).toNat acc (leList n ((s.thr s.cur).get r).toNat)).1.retire
          (s1.seqStore (based ((s.thr s.cur).get a) off).toNat acc (leList n ((s.thr s.cur).get r).toNat)).1.cur id
        else (s1.seqStore (based ((s.thr s.cur).get a) off).toNat acc (leList n ((s.thr s.cur).get r).toNat)).1) := by
  unfold State.store
  rw [State.strict_clean free clean]
  dsimp only
  rw [← based_eq, odd_false aligned, show (s.thr s.cur).acquiring = false from un, tr]
  rfl

/-! ## Reads -/

/-- `u` is `s` after a read of task `id`: its signature and its count of bytes moved may have changed. -/
structure State.Saw (id : Nat) (s u : State) : Prop where
  only : s.OnlyTasks u
  task : ∀ j, u.task j = { s.task j with sig := (u.task j).sig, traffic := (u.task j).traffic }
  other : ∀ j, j ≠ id → u.task j = s.task j

theorem State.Saw.refl (id : Nat) (s : State) : State.Saw id s s := ⟨rfl, fun _ => rfl, fun _ _ => rfl⟩
theorem State.Saw.trans {id : Nat} {s t u : State} (h : State.Saw id s t) (k : State.Saw id t u) : State.Saw id s u :=
  ⟨h.only.trans k.only, fun j => (k.task j).trans (by rw [h.task j]), fun j hj => (k.other j hj).trans (h.other j hj)⟩
theorem State.saw_modTask (s : State) (id : Nat) (f : Task → Task)
    (hf : ∀ t, f t = { t with sig := (f t).sig, traffic := (f t).traffic }) : State.Saw id s (s.modTask id f) := by
  refine ⟨s.modTask_only id f, fun j => ?_, fun j hj => State.task_modTask_ne _ hj f⟩
  rcases s.task_modTask id j f with e | ⟨-, e⟩
  · rw [e]
  · rw [e]; exact hf _
theorem State.saw_noteRead (s : State) (id : Nat) (gs : List Nat) : State.Saw id s (s.noteRead id gs) :=
  s.saw_modTask id _ fun _ => rfl
theorem State.saw_move (s : State) (id pa n : Nat) : State.Saw id s (s.move id pa n) := by
  unfold State.move
  split
  · exact s.saw_modTask id _ fun _ => rfl
  · exact .refl id s
theorem State.Saw.hold {id : Nat} {s u : State} (h : State.Saw id s u) (j : Nat) : (u.task j).hold = (s.task j).hold := by
  rw [h.task j]
theorem State.Saw.bytes {id : Nat} {s u : State} (h : State.Saw id s u) (pa n : Nat) : u.bytes pa n = s.bytes pa n := by
  rw [h.only]; rfl

/-- A read that page-faults holds the thread. -/
theorem State.seqRead_pageFault {s : State} {va n : Nat} {w : Option Word} (lay : (s.task (Claims.me s)).laidByte va n = false)
    {s1 : State} (tr : s.seqTranslate .load va = (s1, .pageFault)) :
    s.seqRead va n w = (s1.holdThread 0x08 (BitVec.ofNat 64 va), .stop) := by
  unfold State.seqRead
  simp only [show (s.task (s.taskAt s.cur)).laidByte va n = false from lay, tr]
  rfl
/-- A read of sound memory, unpoisoned or of a kind that takes poison with it, gives what the task sees. -/
theorem State.seqRead_sound {s s1 : State} {va n pa tag : Nat} {p : Bool} {w : Option Word}
    (lay : (s.task (Claims.me s)).laidByte va n = false) (tr : s.seqTranslate .load va = (s1, .ok pa p false tag))
    (sound : Sound s1 pa) (hp : p = false ∨ w = none) :
    ∃ u v, s.seqRead va n w = (u, .value v p) ∧ State.Saw (Claims.me s) s1 u ∧ v < 2 ^ (8 * n) ∧ (p = false → v = seen s1 va pa n) := by
  have T := State.seqTranslate_translated tr
  have hme : Claims.me s1 = Claims.me s := by unfold Claims.me; rw [T.cur, T.taskAt]
  obtain ⟨place, soft⟩ := sound
  obtain ⟨s3, hs3⟩ : ∃ s3, s3 = if (s.task (Claims.me s)).inStack va then s1 else s1.noteRead (Claims.me s) [pa / 64] := ⟨_, rfl⟩
  have saw : State.Saw (Claims.me s) s1 s3 := by
    rw [hs3]
    split
    · exact .refl _ _
    · exact s1.saw_noteRead _ _
  have hplace : (s3.place pa == .registers) = false := by
    have : s3.place pa = s1.place pa := by rw [saw.only]; rfl
    rw [this]; simpa using place
  have hsoft : s3.hardMem pa = false := by
    have : s3.hardMem pa = s1.hardMem pa := by rw [saw.only]; rfl
    rw [this]; exact soft
  have run : s.seqRead va n w = if p
      then (match w with | some arg => (s3.trap s3.cur 0x13 arg, .stop) | none => (s3, .value 0 true))
      else (s3.move (Claims.me s) pa n, .value (leVal (if (s.task (Claims.me s)).inStack va then s3.bytes pa n else s3.taskBytes (Claims.me s) pa n))
        false) := by
    unfold State.seqRead
    simp only [show (s.task (s.taskAt s.cur)).laidByte va n = false from lay, tr, Bool.false_eq_true, if_false]
    rw [show (if (s.task (s.taskAt s.cur)).inStack va then s1 else s1.noteRead (s.taskAt s.cur) [pa / 64]) = s3 from hs3.symm]
    simp only [hplace, hsoft]
    rfl
  cases p with
  | true =>
    obtain rfl := hp.resolve_left (by decide)
    exact ⟨s3, 0, run, saw, Nat.two_pow_pos _, nofun⟩
  | false =>
    refine ⟨_, _, run, saw.trans (s3.saw_move _ _ _), ?_, fun _ => ?_⟩
    · refine (leVal_lt _).trans_eq ?_
      rw [show (256 : Nat) = 2 ^ 8 from rfl, ← Nat.pow_mul]
      split <;> exact congrArg (fun k => 2 ^ (8 * k)) (length_byteList _ _ _)
    · unfold seen
      rw [hme, T.task, saw.bytes, State.OnlyTasks.taskBytes saw.only _ pa n (saw.hold _)]
      split <;> rfl

end Sys2Proof.Machine
end

section
/-!
Loads that perform (R78, R109, R115).
-/

namespace Sys2Proof.Machine

open Sys2Proof.Laws Sys2Proof.Claims

/-- A thread that goes on to the next word with a write in flight. -/
theorem State.thr_retire_await (s : State) (c : Ctx) (q : Pend) :
    (s.retire c (fun t => t.await q)).thr c = Claims.inFlight (s.thr c) q := by
  rw [State.thr_retire]
  unfold Thread.await Claims.inFlight Claims.advanced
  split <;> rfl
/-- A retired instruction changes its own thread. -/
theorem State.retire_only (s : State) (c : Ctx) (f : Thread → Thread) :
    s.retire c f = { s with threads := (s.retire c f).threads } := rfl
theorem State.task_retire (s : State) (c : Ctx) (f : Thread → Thread) (id : Nat) : (s.retire c f).task id = s.task id := rfl
theorem State.thr_retire_ne (s : State) {c d : Ctx} (h : d ≠ c) (f : Thread → Thread) : (s.retire c f).thr d = s.thr d :=
  State.thr_modThr_ne s h _
/-- What follows a read and the retirement of its instruction is the read state but for threads and tasks. -/
theorem State.Saw.retire_only {id : Nat} {s u : State} (h : State.Saw id s u) (c : Ctx) (f : Thread → Thread) :
    u.retire c f = { s with threads := (u.retire c f).threads, tasks := (u.retire c f).tasks } := by
  rw [u.retire_only c f, h.only]
theorem State.Saw.thr {id : Nat} {s u : State} (h : State.Saw id s u) (c : Ctx) : u.thr c = s.thr c := by rw [h.only]; rfl
theorem State.Saw.cur {id : Nat} {s u : State} (h : State.Saw id s u) : u.cur = s.cur := by rw [h.only]

end Sys2Proof.Machine

namespace Sys2Proof.Proofs

open Sys2Proof.Laws Sys2Proof.Machine Sys2Proof.Claims

/-- Settles O5: a load's read gives what its task sees, and its retirement puts the extended value in flight. -/
theorem loadResults : Obligations.LoadResults := by
  intro i s s1 d a off n ext pa tag p spec free clean aligned un lay tr sound
  obtain ⟨sg, run, extended⟩ := exec_of_loadSpec spec s
  obtain ⟨u, v, read, saw, bound, value⟩ := State.seqRead_sound (w := none) lay tr sound (.inr rfl)
  have T := State.seqTranslate_translated tr
  have cur : u.cur = s.cur := saw.cur.trans T.cur
  obtain ⟨q, load, brings, qv⟩ := State.load_value (sg := sg) free clean aligned un read
  rw [load, cur] at run
  refine ⟨_, q, run, brings, ?_, fun hp => ?_, saw.retire_only _ _, fun c hc => ?_, fun id => ?_, fun id hid => ?_⟩
  · rw [State.thr_retire_await, saw.thr, T.thr]
  · rw [qv, ← value hp]; exact extended v bound
  · rw [State.thr_retire_ne u hc, saw.thr, T.thr]
  · rw [State.task_retire, ← T.task id]; exact saw.task id
  · rw [State.task_retire, ← T.task id]; exact saw.other id hid

end Sys2Proof.Proofs
end

section
/-!
Accesses of the sequencer that fault (R98, R115 to R117, R258): updates of whole granules, which no check can refuse, and the
entry of a store that is laid by.
-/

namespace Sys2Proof.Machine

open Sys2Proof.Laws Sys2Proof.Claims

/-! ## Updates of whole granules (R72) -/

/-- A piece that is a whole granule is stored, whatever its old check. -/
theorem State.updateOne_whole (s : State) (id pa : Nat) {bs : List Byte} (hl : bs.length = 64) :
    s.updateOne id (pa, bs) = { s with mem := putBytes s.mem pa bs, checks := (s.updateOne id (pa, bs)).checks } := by
  rcases s.updateOne_cases id (pa, bs) with ⟨short, -, -⟩ | ⟨-, e⟩
  · exact absurd hl (Nat.ne_of_lt short)
  · rw [e]
/-- Whole granules from a boundary on are stored, and nothing else but their checks changes. -/
theorem State.updateFor_whole (s : State) (id : Nat) {pa n : Nat} {bs : List Byte} (hv : pa % 64 = 0) (hl : bs.length = 64 * n) :
    s.updateFor id pa bs = { s with mem := (s.updateFor id pa bs).mem, checks := (s.updateFor id pa bs).checks } ∧
    ∀ x, (s.updateFor id pa bs).byte x = if pa ≤ x ∧ x < pa + bs.length then bs.getD (x - pa) 0 else s.byte x := by
  rw [State.updateFor_eq]
  unfold pieces
  rw [splitGranules_whole hv hl _ (by omega)]
  have part : ∀ k ≤ n, ∃ u, ((List.range k).map (fun g => (pa + 64 * g, (bs.drop (64 * g)).take 64))).foldl (State.updateOne id) s =
      u ∧ u = { s with mem := u.mem, checks := u.checks } ∧
      ∀ x, u.byte x = if pa ≤ x ∧ x < pa + 64 * k then bs.getD (x - pa) 0 else s.byte x := by
    intro k hk
    induction k with
    | zero => exact ⟨s, rfl, rfl, fun x => by rw [if_neg (by omega)]⟩
    | succ k ih =>
      obtain ⟨u, run, only, bytes⟩ := ih (by omega)
      have length : ((bs.drop (64 * k)).take 64).length = 64 := by rw [List.length_take, List.length_drop]; omega
      have one := u.updateOne_whole id (pa + 64 * k) length
      refine ⟨u.updateOne id (pa + 64 * k, (bs.drop (64 * k)).take 64), ?_, ?_, fun x => ?_⟩
      · rw [List.range_succ, List.map_append, List.foldl_append, run]; rfl
      · rw [one, only]
      · have mem : (u.updateOne id (pa + 64 * k, (bs.drop (64 * k)).take 64)).mem =
            putBytes u.mem (pa + 64 * k) ((bs.drop (64 * k)).take 64) := by rw [one]
        unfold State.byte at bytes ⊢
        rw [mem, mget_putBytes, length, bytes]
        by_cases here : pa + 64 * k ≤ x ∧ x < pa + 64 * k + 64
        · rw [if_pos here, if_pos (by omega), List.getD_eq_getElem?_getD, List.getElem?_take_of_lt (by omega),
            List.getElem?_drop, ← List.getD_eq_getElem?_getD]
          congr 1
          omega
        · rw [if_neg here]
          exact if_congr (by omega) rfl rfl
  obtain ⟨u, run, only, bytes⟩ := part n (Nat.le_refl n)
  rw [run, hl]
  exact ⟨only, bytes⟩

/-! ## The bytes of a hold and of a laid-by entry -/

theorem mget_holdPut (m : SMap (Option Byte)) (a : Nat) (bs : List Byte) (x : Nat) :
    mget (holdPut m a bs) x = if a ≤ x ∧ x < a + bs.length then some (bs.getD (x - a) 0) else mget m x := by
  induction bs generalizing m a with
  | nil => rw [if_neg (by simp)]; rfl
  | cons b bs ih =>
    rw [holdPut, ih, mget_mset, List.length_cons]
    rcases Nat.lt_trichotomy x a with h | rfl | h
    · rw [if_neg (by omega), if_neg (by omega), if_neg (by omega)]
    · rw [if_neg (by omega), if_pos rfl, if_pos (by omega), Nat.sub_self, List.getD_cons_zero]
    · rw [show x - a = x - (a + 1) + 1 by omega, List.getD_cons_succ, if_neg (show x ≠ a by omega)]
      exact if_congr (by omega) rfl rfl
theorem layBytes_eq (m : SMap (Option Byte)) (a : Nat) (bs : List Byte) : layBytes m a bs = holdPut m a bs := by
  induction bs generalizing m a with
  | nil => rfl
  | cons b bs ih => exact ih _ _

/-! ## Laying a store by (R98, R258) -/

/-- An entry of the log has 128 bytes, from a boundary of granules on. -/
theorem Lay.length_words (l : Lay) (id : Nat) : (l.words id).length = 64 * 2 := by
  unfold Lay.words
  rw [List.length_append, List.length_map, List.length_range]
  simp [length_leList]
theorem layAddr_aligned (c : Ctx) (slot : Nat) : layAddr c slot % 64 = 0 := by
  unfold layAddr Config.layStart
  omega
/-- The mirror of an entry is its 128 bytes, and no other byte. -/
theorem State.mirrorLay_written (s : State) (id : Nat) (l : Lay) :
    s.mirrorLay id l = { s with mem := (s.mirrorLay id l).mem, checks := (s.mirrorLay id l).checks } ∧
    ∀ x, (s.mirrorLay id l).byte x = if layAddr (s.task id).ctx l.slot ≤ x ∧ x < layAddr (s.task id).ctx l.slot + 128
      then (l.words id).getD (x - layAddr (s.task id).ctx l.slot) 0 else s.byte x := by
  have whole := s.updateFor_whole 0 (layAddr_aligned (s.task id).ctx l.slot) (l.length_words id)
  rw [Lay.length_words] at whole
  exact whole
/-- A store of the sequencer that is laid by stands last among the entries of its task, and in the basin. -/
structure State.LaidBy (s : State) (id va : Nat) (bs : List Byte) (l : Lay) (u : State) : Prop where
  only : u = { s with mem := u.mem, checks := u.checks, tasks := u.tasks, nextLay := u.nextLay
                      faultQ := u.faultQ, recorded := u.recorded, fb := u.fb, dying := u.dying }
  last : (u.task id).lays.getLast? = some l
  addr : l.va = va / 64 * 64
  bytes : l.bytes = layBytes [] (va % 64) bs
  mem : ∀ x, u.byte x = if layAddr (s.task id).ctx l.slot ≤ x ∧ x < layAddr (s.task id).ctx l.slot + 128
      then (l.words id).getD (x - layAddr (s.task id).ctx l.slot) 0 else s.byte x

theorem State.LaidBy.reported {s t u : State} {id va : Nat} {bs : List Byte} {l : Lay} (h : s.LaidBy id va bs l t)
    (k : t.Reported u) : s.LaidBy id va bs l u := by
  have task : u.task id = t.task id := by rw [k]; rfl
  have byte : u.byte = t.byte := by rw [k]; rfl
  exact ⟨by rw [k, h.only], task ▸ h.last, h.addr, h.bytes, fun x => byte ▸ h.mem x⟩
/-- The state with an entry behind those of its task. -/
def State.withLay (s : State) (id : Nat) (e : Lay) : State :=
  { s.setTask id { s.task id with lays := (s.task id).lays ++ [e] } with nextLay := s.nextLay + 1 }
theorem State.task_withLay (s : State) (id : Nat) (e : Lay) :
    (s.withLay id e).task id = { s.task id with lays := (s.task id).lays ++ [e] } := s.task_setTask_same id _
theorem State.room_laySize {s : State} {c : Ctx} (room : (s.laysOf c).length < 2048) :
    ¬ ((s.laysOf c).map (·.slot)).length ≥ laySize := by
  rw [List.length_map]
  exact Nat.not_le.mpr room
/-- With room in the log the entry that is added has what is laid by, and a number and a place of its own. -/
theorem State.addLay_eq (s : State) (id : Nat) (l : Lay) (room : (s.laysOf (s.task id).ctx).length < 2048) :
    ∃ slot, s.addLay id l = some ((s.withLay id { l with gen := s.fb.gen, slot := slot, seq := s.nextLay }).mirrorLay id
      { l with gen := s.fb.gen, slot := slot, seq := s.nextLay }) := by
  unfold State.addLay
  dsimp only
  rw [if_neg (State.room_laySize room)]
  exact ⟨_, rfl⟩
theorem State.addLay_laidBy (s : State) (id va : Nat) (bs : List Byte) (l : Lay) (hva : l.va = va / 64 * 64)
    (hb : l.bytes = layBytes [] (va % 64) bs) (room : (s.laysOf (s.task id).ctx).length < 2048) :
    ∃ u m, s.addLay id l = some u ∧ s.LaidBy id va bs m u := by
  obtain ⟨slot, added⟩ := s.addLay_eq id l room
  refine ⟨_, { l with gen := s.fb.gen, slot := slot, seq := s.nextLay }, added, ?_⟩
  generalize he : ({ l with gen := s.fb.gen, slot := slot, seq := s.nextLay } : Lay) = e
  obtain ⟨only, bytes⟩ := (s.withLay id e).mirrorLay_written id e
  have ctx : ((s.withLay id e).task id).ctx = (s.task id).ctx := by rw [State.task_withLay]
  have byte : (s.withLay id e).byte = s.byte := by unfold State.byte; rfl
  rw [ctx, byte] at bytes
  generalize (s.withLay id e).mirrorLay id e = u at *
  refine ⟨?_, ?_, ?_, ?_, bytes⟩
  · generalize u.mem = mem, u.checks = checks at only
    subst only
    rfl
  · have same : u.task id = (s.withLay id e).task id := by unfold State.task; rw [only]
    rw [same, State.task_withLay]
    exact List.getLast?_concat
  · rw [← he]; exact hva
  · rw [← he]; exact hb
/-- With room in the log a store of the sequencer whose page faults is laid by, with a record. -/
theorem State.layStore_laidBy (s : State) (id va pos : Nat) (bs : List Byte) (faulted : Bool)
    (room : (s.laysOf (s.task id).ctx).length < 2048) :
    ∃ u l, s.layStore id va bs seqCmd pos false faulted = (u, .laid) ∧ s.LaidBy id va bs l u := by
  have added := s.addLay_laidBy id va bs
    { va := va / 64 * 64, gen := s.fb.gen, bytes := layBytes [] (va % 64) bs, cmd := seqCmd, pos := pos, ext := false } rfl rfl room
  obtain ⟨u, l, add, laid⟩ := added
  have granule : s.layGranule id va bs seqCmd pos false = some u := by
    unfold State.layGranule
    dsimp only
    split
    · rw [if_neg (by simp)]; exact add
    · exact add
  unfold State.layStore
  simp only [granule]
  cases faulted with
  | true => exact ⟨_, l, rfl, laid.reported (u.record_reported _)⟩
  | false => exact ⟨_, l, rfl, laid⟩

/-! ## Page faults of loads (R85, R116) -/

/-- A held thread waits at its instruction with the address of the fault. -/
theorem State.thr_holdThread (s : State) (code : BitVec 8) (va : Word) :
    (s.holdThread code va).thr s.cur = { waiting (s.thr s.cur) s.cycle with held := .fault va } := by
  unfold State.holdThread State.seqRecord
  generalize hu : s.recordAt s.cur code va seqCmd 0 (s.thr s.cur).pc true false false false = u
  have told : s.Reported u := hu ▸ s.recordAt_reported ..
  have thr : u.thr s.cur = s.thr s.cur := by rw [told]; rfl
  rw [State.thr_modThr_same, thr]
  rfl
/-- A record is the last of the queue, or this generation has it already. -/
theorem State.record_faultQ (s : State) (r : FaultRec) :
    (s.record r).faultQ = s.faultQ ∨ (s.record r).faultQ = s.faultQ ++ [{ r with gen := s.fb.gen }] := by
  unfold State.record
  dsimp only
  split
  · exact .inl rfl
  · exact .inr rfl
theorem State.holdThread_faultQ (s : State) (code : BitVec 8) (va : Word) :
    (s.holdThread code va).faultQ = s.faultQ ∨
      ∃ r, (s.holdThread code va).faultQ = s.faultQ ++ [r] ∧ r.code = code ∧ r.held = true ∧ r.addr = va := by
  rcases s.record_faultQ { code := code, held := true, gen := 0, task := BitVec.ofNat 32 (s.taskAt s.cur), addr := va,
                                  tenant := (s.task (s.taskAt s.cur)).tenant, ctx := s.cur, cmd := BitVec.ofNat 9 seqCmd,
                                  elem := BitVec.ofNat 9 0, pos := (s.thr s.cur).pc } with e | e
  · exact .inl e
  · exact .inr ⟨_, e, rfl, rfl, rfl⟩

/-! ## Misaligned accesses (R115, R117, R129, R135) -/

/-- Each atomic is the shared one with its operation. -/
theorem exec_of_atomSpec {i : Instr} {d a b : Reg} {dbl : Bool} {code : Nat} (h : atomSpec i = some (d, a, b, dbl, code)) (s : State) :
    ∃ o sc, exec i s = s.atomic o d a b (atomOrd i) sc dbl ∧ aopOfCode code = some o := by
  unfold atomSpec at h
  split at h <;> cases h <;> exact ⟨_, _, rfl, rfl⟩
/-- A compare-and-swap reads its destination too. -/
theorem cas_of_aopOfCode {code : Nat} {o : Aop} (h : aopOfCode code = some o) (a b d : Reg) :
    (if o == .cas then [a, b, d] else [a, b]) = if code = 9 then [a, b, d] else [a, b] := by
  unfold aopOfCode at h
  split at h <;> cases h <;> rfl
/-- Each link instruction with a descriptor is the shared one. -/
theorem exec_of_linkSpec {i : Instr} {k : LinkKind} {a : Reg} {d : Option Reg} (h : linkSpec i = some (k, a, d)) (s : State) :
    exec i s = s.linkInstr k a d := by
  unfold linkSpec at h
  split at h <;> cases h <;> rfl

section
variable {s : State}

theorem State.load_misaligned {d a : Reg} {off : BitVec 16} {n : Nat} (sg : Bool) (free : Free s [a] [d]) (clean : Clean s [a])
    (odd : (based ((s.thr s.cur).get a) off).toNat % n ≠ 0) :
    s.load d a off n sg = .next (s.trap s.cur 0x02 (based ((s.thr s.cur).get a) off)) := by
  rw [based_eq] at odd ⊢
  exact (State.strict_clean free clean _).trans (if_pos (odd_true odd))
theorem State.store_misaligned {r a : Reg} {off : BitVec 16} {n : Nat} (free : Free s [a, r] []) (clean : Clean s [a, r])
    (odd : (based ((s.thr s.cur).get a) off).toNat % n ≠ 0) :
    s.store r a off n = .next (s.trap s.cur 0x02 (based ((s.thr s.cur).get a) off)) := by
  rw [based_eq] at odd ⊢
  exact (State.strict_clean free clean _).trans (if_pos (odd_true odd))
theorem State.atomic_misaligned {o : Aop} {d a b : Reg} {ord : AtomOrd} {sc : Scope} {dbl : Bool}
    (free : Free s (if o == .cas then [a, b, d] else [a, b]) [d]) (clean : Clean s (if o == .cas then [a, b, d] else [a, b]))
    (odd : ((s.thr s.cur).get a).toNat % (if dbl then 8 else 4) ≠ 0) :
    s.atomic o d a b ord sc dbl = .next (s.trap s.cur 0x02 ((s.thr s.cur).get a)) := by
  unfold State.atomic
  exact (State.strict_clean free clean _).trans (if_pos (odd_true odd))
theorem execCwait_misaligned {d a b : Reg} {sc : Scope} (free : Free s [a, b] [d]) (clean : Clean s [a, b])
    (odd : ((s.thr s.cur).get a).toNat % 8 ≠ 0) :
    execCwait d a b sc s = .next (s.trap s.cur 0x02 ((s.thr s.cur).get a)) :=
  (State.strict_clean free clean _).trans (if_pos (odd_true odd))
theorem State.linkInstr_misaligned {k : LinkKind} {a : Reg} {d : Option Reg} (free : Free s [a] d.toList) (clean : Clean s [a])
    (odd : ((s.thr s.cur).get a).toNat % 32 ≠ 0) :
    s.linkInstr k a d = .next (s.trap s.cur 0x02 ((s.thr s.cur).get a)) := by
  cases d <;> exact (State.strict_clean free clean _).trans (if_pos (odd_true odd))
end

/-- An instruction that accesses memory is a load, a store, an atomic, a `cwait` or a link instruction with a descriptor. -/
inductive Accesses (g : Reg → Word) (i : Instr) : List Reg → List Reg → Word → Nat → Prop
  | load (d a off n ext) (spec : loadSpec i = some (d, a, off, n, ext)) : Accesses g i [a] [d] (based (g a) off) n
  | store (r a off n) (spec : storeSpec i = some (r, a, off, n)) : Accesses g i [a, r] [] (based (g a) off) n
  | atomic (d a b dbl code srcs) (spec : atomSpec i = some (d, a, b, dbl, code))
    (hs : srcs = if code = 9 then [a, b, d] else [a, b]) : Accesses g i srcs [d] (g a) (if dbl then 8 else 4)
  | cwait (d a b sc) (is : i = .cwait d a b sc) : Accesses g i [a, b] [d] (g a) 8
  | link (k a d dsts) (spec : linkSpec i = some (k, a, d)) (hd : dsts = d.toList) : Accesses g i [a] dsts (g a) 32
theorem accesses_of_accessOf {g : Reg → Word} {i : Instr} {srcs dsts : List Reg} {ea : Word} {n : Nat}
    (hn : needs i = some (srcs, dsts)) (ha : accessOf g i = some (ea, n)) : Accesses g i srcs dsts ea n := by
  unfold accessOf at ha
  split at ha <;> cases ha <;> cases hn
  case h_1 | h_2 | h_4 | h_5 | h_7 | h_8 | h_10 => exact .load _ _ _ _ _ rfl
  case h_3 | h_6 | h_9 | h_11 => exact .store _ _ _ _ rfl
  case h_22 => exact .cwait _ _ _ _ rfl
  case h_23 | h_24 | h_25 | h_26 => exact .link _ _ _ _ rfl rfl
  all_goals exact .atomic _ _ _ _ _ _ rfl rfl

end Sys2Proof.Machine

namespace Sys2Proof.Proofs

open Sys2Proof.Laws Sys2Proof.Machine Sys2Proof.Claims

theorem misalignedAccessTraps : Claims.MisalignedAccessTraps := by
  intro i s srcs dsts ea n hn ha free clean odd
  cases accesses_of_accessOf hn ha with
  | load d a off n ext spec =>
    obtain ⟨sg, run, -⟩ := exec_of_loadSpec spec s
    exact run.trans (State.load_misaligned sg free clean odd)
  | store r a off n spec => exact (exec_of_storeSpec spec s).1.trans (State.store_misaligned free clean odd)
  | atomic d a b dbl code srcs spec hs =>
    obtain ⟨o, sc, run, op⟩ := exec_of_atomSpec spec s
    rw [hs, ← cas_of_aopOfCode op] at free clean
    exact run.trans (State.atomic_misaligned free clean odd)
  | cwait d a b sc is => subst is; exact execCwait_misaligned free clean odd
  | link k a d dsts spec hd =>
    rw [hd] at free
    exact (exec_of_linkSpec spec s).trans (State.linkInstr_misaligned free clean odd)
theorem faultingLoadHolds : Claims.FaultingLoadHolds := by
  intro i s s1 d a off n ext spec free clean aligned un lay tr
  obtain ⟨sg, run, -⟩ := exec_of_loadSpec spec s
  obtain rfl := State.seqTranslate_pageFault tr
  rw [State.load_eq sg free clean aligned un, State.seqRead_pageFault lay tr, BitVec.ofNat_toNat, BitVec.setWidth_eq] at run
  refine ⟨_, run, ?_, ?_, ?_⟩
  · exact (s1.recordAt_reported ..).mem
  · exact (s1.thr_holdThread 0x08 _)
  · exact s1.holdThread_faultQ 0x08 _
theorem faultingStoreLaidBy : Claims.FaultingStoreLaidBy := by
  intro i s s1 r a off n spec free clean aligned un tr room
  obtain ⟨run, wide, pos, small⟩ := exec_of_storeSpec spec s
  obtain rfl := State.seqTranslate_pageFault tr
  generalize hva : (based ((s1.thr s1.cur).get a) off).toNat = va at *
  obtain ⟨u, l, lay, laid⟩ := s1.layStore_laidBy (me s1) va (s1.thr s1.cur).pc.toNat
    (leList n ((s1.thr s1.cur).get r).toNat) true room
  have stored : s1.seqStore va .pageFault (leList n ((s1.thr s1.cur).get r).toNat) = (u, true) := by
    unfold State.seqStore
    dsimp only
    rw [show s1.layStore (s1.taskAt s1.cur) va (leList n ((s1.thr s1.cur).get r).toNat) seqCmd (s1.thr s1.cur).pc.toNat false true =
      (u, .laid) from lay]
  have cur : u.cur = s1.cur := by rw [laid.only]
  have thr : u.thr s1.cur = s1.thr s1.cur := by rw [laid.only]; rfl
  rw [State.store_eq free clean (hva ▸ aligned) un (hva ▸ tr), hva, stored] at run
  refine ⟨_, l, run, ?_, fun x hx => ?_, ?_, laid.last, ?_, fun j hj => ?_⟩
  · rw [if_pos rfl, cur, State.thr_retire, thr]; rfl
  · exact (laid.mem x).trans (if_neg (by omega))
  · have length := l.length_words (me s1)
    unfold State.bytes
    rw [← show (l.words (me s1)).length = 128 from length]
    refine byteList_getD _ _ _ fun k hk => ?_
    rw [if_pos rfl]
    refine (laid.mem _).trans ?_
    rw [ if_pos (by omega), Nat.add_sub_cancel_left]
  · rw [laid.addr]; omega
  · rw [laid.bytes, layBytes_eq, mget_holdPut, length_leList, if_pos (by omega), Nat.add_sub_cancel_left, getD_leList _ _ _ hj]

/-- Settles O43, by its three parts. -/
theorem accessFaults : Obligations.AccessFaults := ⟨misalignedAccessTraps, faultingLoadHolds, faultingStoreLaidBy⟩

end Sys2Proof.Proofs
end

section
/-!
Fences, what an acquire lets a fetch see, and the wait for a completion word (R93, R108, R119, R129).
-/

namespace Sys2Proof.Machine

open Sys2Proof.Laws Sys2Proof.Claims

/-- A byte of memory with the bytes of a hold over it. -/
theorem mget_overlay {h : SMap (Option Byte)} (wf : mwf h = true) (m : SMap Byte) (x : Nat) :
    mget (h.foldl (fun m p => match p.2 with | some b => mset m p.1 b | none => m) m) x =
      match mget h x with | some b => b | none => mget m x := by
  induction h generalizing m with
  | nil => rfl
  | cons p h ih =>
    obtain ⟨j, v⟩ := p
    obtain ⟨hv, later, wf'⟩ := (mwf_cons j v h).mp wf
    obtain ⟨b, rfl⟩ := Option.ne_none_iff_exists'.mp hv
    rw [List.foldl_cons, ih wf']
    have head : mget ((j, some b) :: h) x = if j = x then some b else mget h x := rfl
    rw [head]
    by_cases hj : j = x
    · subst hj
      have absent : mget h j = none := mget_absent h j fun p hp => Nat.ne_of_gt (later p hp)
      rw [if_pos rfl, absent]
      exact mget_mset_same m j b
    · rw [if_neg hj]
      cases mget h x with
      | some c => rfl
      | none => exact mget_mset_ne m (fun e => hj e.symm) b
theorem State.mget_seenMem (s : State) (id : Nat) (wf : mwf (s.task id).hold = true) (x : Nat) :
    mget (s.seenMem id) x = s.taskByte (s.task id) x := by
  unfold State.seenMem State.taskByte State.byte
  exact mget_overlay wf s.mem x
/-- A fence awaits a load, an atomic, a `cwait` or a link result. -/
theorem any_awaited (l : List Pend) :
    l.any (fun p => match p.kind with | .value => true | .link _ => true | _ => false) = true ↔ ∃ p ∈ l, Awaited p := by
  rw [List.any_eq_true]
  refine exists_congr fun p => and_congr_right fun _ => ?_
  unfold Awaited
  cases p.kind <;> simp

/-- A `cwait` whose read gives a value compares it. -/
theorem execCwait_value {s u : State} {d a b : Reg} {sc : Scope} {v : Nat} {p : Bool} (free : Free s [a, b] [d])
    (clean : Clean s [a, b]) (aligned : ((s.thr s.cur).get a).toNat % 8 = 0) (un : Unawaited s)
    (read : s.seqRead ((s.thr s.cur).get a).toNat 8 (some ((s.thr s.cur).get a)) = (u, .value v p)) :
    ∃ q, execCwait d a b sc s = (if v < ((s.thr s.cur).get b).toNat then .next (u.stalled u.cur)
      else .next ((if sc != .lane then u.acquire u.cur else u).retire u.cur (fun t => t.await q))) ∧
      Brings q d false ∧ q.v = BitVec.ofNat 64 v := by
  refine ⟨{ d := d, kind := .value, v := BitVec.ofNat 64 v, due := u.readDue ((s.thr s.cur).get a).toNat
            dev := u.readDev ((s.thr s.cur).get a).toNat }, ?_, ⟨rfl, rfl, rfl⟩, rfl⟩
  unfold execCwait
  rw [State.strict_clean free clean]
  dsimp only
  rw [odd_false aligned, show (s.thr s.cur).acquiring = false from un, read]
  rfl
/-- A read whose task does not go on waits. -/
theorem State.thr_stalled_waiting (s : State) (c : Ctx) : (s.stalled c).thr c = waiting (s.thr c) s.cycle := s.thr_stalled c

end Sys2Proof.Machine

namespace Sys2Proof.Proofs

open Sys2Proof.Laws Sys2Proof.Machine Sys2Proof.Claims

/-- What a fence does where it need not wait, and where it must. -/
theorem fence_performs (k : FenceKind) (sc : Scope) (s : State)
    (loads : k = .rel ∨ ∀ p ∈ (s.thr s.cur).pend, ¬ Awaited p) (stores : k = .acq ∨ (s.task (me s)).laidPlain = false) :
    exec (.fence k sc) s = .next (withThread (if k ≠ .rel ∧ sc ≠ .lane then s.acquire s.cur else s)
      { advanced (if k = .acq then s.thr s.cur else settled (s.thr s.cur)) with
        fenced := (s.thr s.cur).fenced || (k != .acq && (s.task (me s)).hold != []) }) := by
  have noWait : ((k != .rel && (s.thr s.cur).pend.any (fun p => match p.kind with
      | .value => true | .link _ => true | _ => false)) || (k != .acq && (s.task (s.taskAt s.cur)).laidPlain)) = false := by
    rw [Bool.or_eq_false_iff, Bool.and_eq_false_imp, Bool.and_eq_false_imp]
    refine ⟨fun hk => ?_, fun hk => ?_⟩
    · rw [Bool.eq_false_iff, ne_eq, any_awaited]
      rintro ⟨p, hp, aw⟩
      exact (loads.resolve_left (bne_iff_ne.mp hk)) p hp aw
    · exact stores.resolve_left (bne_iff_ne.mp hk)
  refine (if_neg (Bool.eq_false_iff.mp noWait)).trans ?_
  cases k <;> cases sc <;> rfl
theorem fence_stalls (k : FenceKind) (sc : Scope) (s : State)
    (h : (k ≠ .rel ∧ ∃ p ∈ (s.thr s.cur).pend, Awaited p) ∨ (k ≠ .acq ∧ (s.task (me s)).laidPlain = true)) :
    exec (.fence k sc) s = .next (withThread s (waiting (s.thr s.cur) s.cycle)) := by
  have waits : ((k != .rel && (s.thr s.cur).pend.any (fun p => match p.kind with
      | .value => true | .link _ => true | _ => false)) || (k != .acq && (s.task (s.taskAt s.cur)).laidPlain)) = true := by
    rw [Bool.or_eq_true, Bool.and_eq_true, Bool.and_eq_true, any_awaited, bne_iff_ne, bne_iff_ne]
    exact h
  exact if_pos waits
/-- An acquire changes what the fetches of its context see, and gives them what its task sees. -/
theorem acquire_sees (s : State) : s.acquire s.cur = { s with codeSeen := (s.acquire s.cur).codeSeen } ∧
    (∀ c : Ctx, c ≠ s.cur → mget (s.acquire s.cur).codeSeen c.toNat = mget s.codeSeen c.toNat) ∧
    (mwf (s.task (me s)).hold = true →
      ∀ x, mget (mget (s.acquire s.cur).codeSeen s.cur.toNat) x = s.taskByte (s.task (me s)) x) := by
  refine ⟨rfl, fun c hc => mget_mset_ne _ (fun e => hc (BitVec.eq_of_toNat_eq e)) _, fun wf x => ?_⟩
  rw [show mget (s.acquire s.cur).codeSeen s.cur.toNat = s.seenMem (me s) from mget_mset_same _ _ _]
  exact s.mget_seenMem (me s) wf x
theorem fenceWaitsForLoads : Claims.FenceWaitsForLoads :=
  ⟨fun k sc s => ⟨fence_performs k sc s, fence_stalls k sc s⟩, acquire_sees⟩
theorem completionWait : Claims.CompletionWait := by
  intro s s1 d a b sc pa tag free clean aligned un lay tr sound
  obtain ⟨u, v, read, saw, -, value⟩ := State.seqRead_sound lay tr sound (w := some ((s.thr s.cur).get a)) (.inl rfl)
  have T := State.seqTranslate_translated tr
  have cur : u.cur = s.cur := saw.cur.trans T.cur
  have cycle : u.cycle = s.cycle := by rw [saw.only]; exact T.cycle
  have thr : u.thr s.cur = s.thr s.cur := (saw.thr _).trans (T.thr _)
  obtain ⟨q, run, brings, qv⟩ := execCwait_value (sc := sc) free clean aligned un read
  rw [cur, value rfl] at run
  rw [value rfl] at qv
  by_cases below : seen s1 ((s.thr s.cur).get a).toNat pa 8 < ((s.thr s.cur).get b).toNat
  · rw [if_pos below] at run
    refine ⟨_, run, saw.only.mem, fun h => absurd h (Nat.not_le.mpr below), fun _ => ?_⟩
    rw [State.thr_stalled_waiting, thr, cycle]
  · rw [if_neg below] at run
    refine ⟨_, run, ?_, fun _ => ⟨q, brings, qv, ?_⟩, fun h => absurd h below⟩
    · split <;> exact saw.only.mem
    · rw [State.thr_retire_await, ← thr]
      split <;> rfl

/-- Settles O44: a fence by what it waits for, and a `cwait` by the read that it makes. -/
theorem fencesAndCompletionWaits : Obligations.FencesAndCompletionWaits := ⟨fenceWaitsForLoads, completionWait⟩

end Sys2Proof.Proofs
end

section
/-!
Where a store of the sequencer goes (R77, R79, R83, R115): memory for a head and for the own stack, else the hold.
-/

namespace Sys2Proof.Machine

open Sys2Proof.Laws Sys2Proof.Claims

/-! ## What an abort leaves of other contexts (R84) -/

theorem State.startPartition_cur (s : State) (v : Nat) : (s.startPartition v).cur = s.cur := rfl
/-- An abort leaves the threads of every context but that of its task, and the acting context. -/
theorem State.thr_abort_ne (s : State) (v : Nat) {c : Ctx} (h : (s.task v).ctx ≠ c) : (s.abort v).thr c = s.thr c := by
  unfold State.thr
  rcases s.abort_cases v with ⟨-, e⟩ | ⟨-, e⟩ | e
  · have mark : (s.markSave v).threads = s.threads := by
      rcases s.markSave_cases v with e | e
      · rw [e]
      · rw [e, State.updateFor_rest]
    rw [e, State.modTask_only, mark]
  · rw [e]
    exact mget_mset_ne _ (fun e => h (BitVec.eq_of_toNat_eq e.symm)) _
  · rw [e]
theorem State.cur_abort (s : State) (v : Nat) : (s.abort v).cur = s.cur := by
  rcases s.abort_cases v with ⟨-, e⟩ | ⟨-, e⟩ | e
  · have mark : (s.markSave v).cur = s.cur := by
      rcases s.markSave_cases v with e | e
      · rw [e]
      · rw [e, State.updateFor_rest]
    rw [e, State.modTask_only, mark]
  · rw [e]; rfl
  · rw [e]
/-- A visibility event leaves the threads of contexts of which it aborts no task. -/
theorem State.thr_visible {s w : State} (h : s.Alike w) (hs : w.saves = s.saves) (id : Nat) (gs : List Nat) {c : Ctx}
    (apart : ∀ v ∈ s.victims id gs [], (s.task v).ctx ≠ c) : (w.visible id gs []).thr c = w.thr c := by
  unfold State.visible
  split
  · refine (List.foldlRecOn (motive := fun t : State => s.SameFrames t ∧ t.thr c = w.thr c) (w.victims id gs []) _
      ⟨h.sameFrames hs, rfl⟩ fun t ht v hv => ?_).2
    obtain ⟨frames, same⟩ := ht
    exact ⟨frames.abort v, (t.thr_abort_ne v (by rw [frames.ctx]; exact apart v (h.victims id gs [] v hv))).trans same⟩
  · rfl
theorem State.cur_visible (s : State) (id : Nat) (gs : List Nat) (bricks : List (Nat × Int × Int × Int)) :
    (s.visible id gs bricks).cur = s.cur :=
  State.visible_keeps (P := fun t => t.cur = s.cur) s id gs bricks rfl fun t v h => (t.cur_abort v).trans h

/-- The next word follows. -/
theorem State.thr_retire_id (s : State) (c : Ctx) : (s.retire c id).thr c = advanced (s.thr c) := s.thr_retire c id

/-! ## The two ways of a store to memory -/

/-- A write whose granule's check holds is made. -/
theorem State.writeGranule_sound (s : State) {pa : Nat} (bs : List Byte) (hc : s.checkOk (pa / 64) = true) :
    ∃ k, s.writeGranule pa bs = ({ s with mem := putBytes s.mem pa bs, checks := k }, true) := by
  rcases s.writeGranule_cases pa bs with ⟨-, -, h⟩ | ⟨k, e, -, -⟩
  · rw [hc] at h; exact nomatch h
  · exact ⟨_, e⟩
/-- A store to the own stack writes memory and nothing else. -/
theorem State.seqStore_stack {s : State} {va pa tag : Nat} {p dead : Bool} {bs : List Byte} (stack : onStack s va)
    (hc : s.checkOk (pa / 64) = true) :
    ∃ k, s.seqStore va (.ok pa p dead tag) bs = ({ s with mem := putBytes s.mem pa bs, checks := k }, true) := by
  obtain ⟨k, e⟩ := s.writeGranule_sound bs hc
  refine ⟨k, ?_⟩
  unfold State.seqStore State.seqDirect
  dsimp only
  exact (if_pos stack).trans (by rw [e]; rfl)
/-- A store beside the own stack to sound memory is a store of its task. -/
theorem State.seqStore_sound {s u : State} {va pa tag : Nat} {p dead : Bool} {bs : List Byte} (stack : ¬ onStack s va)
    (sound : Sound s pa) (h : s.storePa (Claims.me s) va pa bs seqCmd (s.thr s.cur).pc.toNat false = (u, .ok)) :
    s.seqStore va (.ok pa p dead tag) bs = (u, true) := by
  obtain ⟨place, soft⟩ := sound
  have reg : (s.place pa == .registers) = false := by simpa using place
  unfold State.seqStore
  dsimp only
  refine (if_neg stack).trans ?_
  rw [reg, soft]
  have h' : s.storePa (s.taskAt s.cur) va pa bs seqCmd (s.thr s.cur).pc.toNat false = (u, .ok) := h
  simp only [Bool.false_eq_true, if_false, Bool.false_and, h']
/-- A store of a head writes its bytes, may count them and what it overtakes, and is a visibility event. -/
theorem State.storePa_head_only (s : State) (id va pa : Nat) (bs : List Byte) (cmd pos : Nat)
    (hl : (s.task id).laidGranule va = false) (hh : s.isHead id = true) (hc : s.checkOk (pa / 64) = true) :
    ∃ w, s.storePa id va pa bs cmd pos false = (w.visible id [pa / 64] [], .ok) ∧
      w = { s with mem := putBytes s.mem pa bs, checks := w.checks, tasks := w.tasks } ∧ s.Alike w := by
  obtain ⟨k, e⟩ := s.writeGranule_sound bs hc
  unfold State.storePa
  simp only [hl, hh, e, Bool.or_true, if_true, Bool.false_eq_true, if_false]
  generalize hw : ({ s with mem := putBytes s.mem pa bs, checks := k } : State) = w
  have only := (w.move_only id pa bs.length).trans (State.overtake_only _ id pa bs.length)
  have alike : s.Alike w := State.Alike.of_tasks (by rw [← hw])
  refine ⟨_, rfl, ?_, (alike.trans (w.move_alike id pa bs.length)).trans (State.overtake_alike _ id pa bs.length)⟩
  rw [only, ← hw]

/-! ## The hold (R77) -/

theorem mget_holdSans (pa n : Nat) (m : SMap (Option Byte)) (x : Nat) :
    mget (holdSans pa n m) x = if pa ≤ x ∧ x < pa + n then none else mget m x := mget_mcut pa n m x
/-- A task with bytes put into its hold; what it had let out of these is no longer written again. -/
def Task.holding (t : Task) (pa : Nat) (bs : List Byte) : Task :=
  { t with hold := holdPut t.hold pa bs, out := holdSans pa bs.length t.out, redo := holdSans pa bs.length t.redo }
/-- A store of a task that is not head, with room, enters the hold. -/
theorem State.storePa_hold (s : State) (id va pa : Nat) (bs : List Byte) (cmd pos : Nat)
    (hl : (s.task id).laidGranule va = false) (hh : s.isHead id = false) (room : (s.task id).slots < 32768) :
    s.storePa id va pa bs cmd pos false = ((s.setTask id ((s.task id).holding pa bs)).move id pa bs.length, .ok) := by
  have free : ((s.task id).hold.any (fun p => p.1 / 64 == pa / 64) || decide ((s.task id).slots < holdSize)) = true := by
    rw [Bool.or_eq_true, decide_eq_true_eq]; exact .inr room
  unfold State.storePa
  simp only [hl, hh, free, Bool.or_self, if_true, Bool.false_eq_true, if_false]
  rfl
/-- What a move changes of a task. -/
theorem State.task_move (s : State) (id pa n j : Nat) :
    (s.move id pa n).task j = { s.task j with traffic := ((s.move id pa n).task j).traffic } ∧
    (j ≠ id → (s.move id pa n).task j = s.task j) := by
  unfold State.move
  split
  · refine ⟨?_, fun hj => State.task_modTask_ne _ hj _⟩
    rcases s.task_modTask id j _ with e | ⟨-, e⟩
    · rw [e]
    · rw [e]
  · exact ⟨rfl, fun _ => rfl⟩

end Sys2Proof.Machine

namespace Sys2Proof.Proofs

open Sys2Proof.Laws Sys2Proof.Machine Sys2Proof.Claims

/-- Bytes put into memory are those of the number. -/
theorem byte_putBytes_leList (m : SMap Byte) (pa n v x : Nat) : mget (putBytes m pa (leList n v)) x =
    if pa ≤ x ∧ x < pa + n then BitVec.ofNat 8 (v / 256 ^ (x - pa)) else mget m x := by
  rw [mget_putBytes, length_leList]
  split
  · next h => exact getD_leList n v (x - pa) (by omega)
  · rfl
theorem storeWritesMemory : Claims.StoreWritesMemory := by
  intro i s s1 r a off n pa tag p dead spec free clean aligned un tr sound hc apart goes
  obtain ⟨run, -⟩ := exec_of_storeSpec spec s
  have T := State.seqTranslate_translated tr
  have hme : me s1 = me s := by unfold me; rw [T.cur, T.taskAt]
  rw [State.store_eq free clean aligned un tr] at run
  generalize (based ((s.thr s.cur).get a) off).toNat = va at *
  have stackEq : onStack s1 va ↔ onStack s va := by unfold onStack; rw [hme, T.task]
  by_cases stack : onStack s1 va
  · obtain ⟨k, stored⟩ := State.seqStore_stack (p := p) (dead := dead) (tag := tag) (bs := leList n ((s.thr s.cur).get r).toNat)
      stack hc
    rw [stored] at run
    refine ⟨_, run, ?_, fun x _ => byte_putBytes_leList s1.mem pa n _ x⟩
    rw [if_pos rfl]
    dsimp only
    rw [T.cur, State.thr_retire_id]
    exact congrArg advanced (T.thr s.cur)
  · obtain ⟨head, laid⟩ := goes.resolve_left (fun h => stack (stackEq.mpr h))
    rw [← T.isHead, ← hme] at head
    rw [← T.task, ← hme] at laid
    obtain ⟨w, store, only, alike⟩ := s1.storePa_head_only (me s1) va pa (leList n ((s.thr s.cur).get r).toNat) seqCmd
      (s1.thr s1.cur).pc.toNat laid head hc
    rw [State.seqStore_sound stack sound store, if_pos rfl] at run
    have saves : w.saves = s1.saves := by rw [only]
    have cur : w.cur = s.cur := by rw [only]; exact T.cur
    have thr : w.thr s.cur = s.thr s.cur := by unfold State.thr; rw [only, T.threads]
    refine ⟨_, run, ?_, fun x hx => ?_⟩
    · dsimp only
      rw [State.cur_visible, cur, State.thr_retire_id, State.thr_visible alike saves _ _ (fun v hv => ?_), thr]
      rw [← T.cur]; exact apart v hv
    · have kept := (State.visible_out alike saves (me s1) [pa / 64]).1 x fun v hv wipes => hx ⟨v, hv, wipes⟩
      have mem : w.mem = putBytes s1.mem pa (leList n ((s.thr s.cur).get r).toNat) := by rw [only]
      refine kept.trans ?_
      unfold State.byte
      rw [mem]
      exact byte_putBytes_leList s1.mem pa n _ x
theorem storeEntersHold : Claims.StoreEntersHold := by
  intro i s s1 r a off n pa tag p dead spec free clean aligned un tr sound stack head laid room
  obtain ⟨run, -⟩ := exec_of_storeSpec spec s
  have T := State.seqTranslate_translated tr
  have hme : me s1 = me s := by unfold me; rw [T.cur, T.taskAt]
  rw [State.store_eq free clean aligned un tr] at run
  generalize (based ((s.thr s.cur).get a) off).toNat = va at *
  have stack1 : ¬ onStack s1 va := by unfold onStack at stack ⊢; rw [hme, T.task]; exact stack
  rw [← T.isHead, ← hme] at head
  rw [← T.task, ← hme] at laid room
  have store := s1.storePa_hold (me s1) va pa (leList n ((s.thr s.cur).get r).toNat) seqCmd (s1.thr s1.cur).pc.toNat laid head room
  rw [State.seqStore_sound stack1 sound store, if_pos rfl, length_leList] at run
  dsimp only at run
  generalize hw : s1.setTask (me s1) ((s1.task (me s1)).holding pa (leList n ((s.thr s.cur).get r).toNat)) = w at run
  have wOnly : s1.OnlyTasks w := by rw [← hw]; rfl
  have only := wOnly.trans (w.move_only (me s1) pa n)
  have cur : (w.move (me s1) pa n).cur = s.cur := by rw [only]; exact T.cur
  have thr : (w.move (me s1) pa n).thr s.cur = s.thr s.cur := by unfold State.thr; rw [only, T.threads]
  have mine : w.task (me s) = (s.task (me s)).holding pa (leList n ((s.thr s.cur).get r).toNat) := by
    rw [← hw, hme, State.task_setTask_same, T.task]
  obtain ⟨moved, -⟩ := w.task_move (me s1) pa n (me s)
  rw [mine] at moved
  rw [cur] at run
  refine ⟨_, run, ?_, only.mem, fun x => ?_, fun x => ⟨?_, ?_⟩, ?_, fun id hid => ?_, ?_⟩
  · rw [State.thr_retire_id, thr]
  · rw [State.task_retire, moved]
    show mget (holdPut _ pa _) x = _
    rw [mget_holdPut, length_leList]
    split
    · next h => rw [getD_leList n _ (x - pa) (by omega)]
    · rfl
  · rw [State.task_retire, moved]
    show mget (holdSans pa _ _) x = _
    rw [mget_holdSans, length_leList]
  · rw [State.task_retire, moved]
    show mget (holdSans pa _ _) x = _
    rw [mget_holdSans, length_leList]
  · rw [State.task_retire]
    conv_lhs => rw [moved]
    rw [moved]
    rfl
  · rw [State.task_retire, (w.task_move (me s1) pa n id).2 (hme ▸ hid), ← hw, hme, State.task_setTask_ne _ hid, T.task]
  · rw [State.retire_only, only]

/-- Settles O47: where a store of the sequencer goes, for a head or the own stack, and for a task that is not head. -/
theorem storeEffects : Obligations.StoreEffects := ⟨storeWritesMemory, storeEntersHold⟩

end Sys2Proof.Proofs
end

section
/-!
Islands: lock groups, and what `tgo` and `twait` make of them (R124, R125, R199 to R207).
-/

namespace Sys2Proof.Machine

open Sys2Proof.Laws Sys2Proof.Claims

/-! ## Lock groups (R204) -/

/-- A group of islands and those that share an edge with one of them. -/
def grow (ds : List IslandDesc) (g : List Nat) : List Nat :=
  (List.range ds.length).filter (fun j => g.contains j || g.any (fun i => adjoin (ds.getD i {}) (ds.getD j {})))
theorem spread_succ (ds : List IslandDesc) (n : Nat) (g : List Nat) : spread ds (n + 1) g = spread ds n (grow ds g) := rfl
theorem mem_grow {ds : List IslandDesc} {g : List Nat} {j : Nat} : j ∈ grow ds g ↔
    j < ds.length ∧ (j ∈ g ∨ ∃ i ∈ g, adjoin (ds.getD i {}) (ds.getD j {}) = true) := by
  unfold grow
  simp [List.mem_filter]
theorem nodup_grow (ds : List IslandDesc) (g : List Nat) : (grow ds g).Nodup := List.nodup_range.filter _
/-- A group of islands that are there holds every island that shares an edge with one it holds. -/
def Closed (ds : List IslandDesc) (g : List Nat) : Prop :=
  ∀ j ∈ g, ∀ k < ds.length, adjoin (ds.getD j {}) (ds.getD k {}) = true → k ∈ g
theorem Closed.grow {ds : List IslandDesc} {g : List Nat} (h : Closed ds g) (inside : ∀ j ∈ g, j < ds.length) (j : Nat) :
    j ∈ grow ds g ↔ j ∈ g := by
  rw [mem_grow]
  refine ⟨fun ⟨hj, hg⟩ => hg.elim id fun ⟨i, hi, e⟩ => h i hi j hj e, fun hj => ⟨inside j hj, .inl hj⟩⟩
/-- A group that does not yet hold all it has to grows by one island at least. -/
theorem length_grow {ds : List IslandDesc} {g : List Nat} (nodup : g.Nodup) (inside : ∀ j ∈ g, j < ds.length)
    (open' : ¬ Closed ds g) : g.length + 1 ≤ (grow ds g).length := by
  unfold Closed at open'
  push Not at open'
  obtain ⟨j, hj, k, hk, e, new⟩ := open'
  refine (List.subperm_of_subset (List.nodup_cons.mpr ⟨new, nodup⟩) fun x hx => mem_grow.mpr ?_).length_le
  rcases List.mem_cons.mp hx with rfl | hx
  · exact ⟨hk, .inr ⟨j, hj, e⟩⟩
  · exact ⟨inside x hx, .inl hx⟩
/-- Rounds of growth keep what is held; they end at a closed group, or each has added an island. -/
theorem spread_grows (ds : List IslandDesc) (n : Nat) (g : List Nat) (nodup : g.Nodup) (inside : ∀ j ∈ g, j < ds.length) :
    (∀ j ∈ g, j ∈ spread ds n g) ∧ (spread ds n g).Nodup ∧ (∀ j ∈ spread ds n g, j < ds.length) ∧
    (Closed ds (spread ds n g) ∨ g.length + n ≤ (spread ds n g).length) ∧ (Closed ds g → Closed ds (spread ds n g)) := by
  induction n generalizing g with
  | zero => exact ⟨fun _ h => h, nodup, inside, .inr (Nat.le_refl _), id⟩
  | succ n ih =>
    obtain ⟨holds, nodup', inside', grown, stays⟩ := ih (grow ds g) (nodup_grow ds g) fun j hj => (mem_grow.mp hj).1
    rw [spread_succ]
    have step : Closed ds g → Closed ds (grow ds g) := fun h j hj k hk e =>
      (h.grow inside k).mpr (h j ((h.grow inside j).mp hj) k hk e)
    refine ⟨fun j hj => holds j (mem_grow.mpr ⟨inside j hj, .inl hj⟩), nodup', inside', ?_, fun h => stays (step h)⟩
    by_cases closed : Closed ds g
    · exact .inl (stays (step closed))
    · have := length_grow nodup inside closed
      exact grown.imp_right fun h => by omega
/-- The lock group of an island holds it, and is closed. -/
theorem lockGroup_closed {ds : List IslandDesc} {i : Nat} (hi : i < ds.length) :
    i ∈ lockGroup ds i ∧ (lockGroup ds i).Nodup ∧ (∀ j ∈ lockGroup ds i, j < ds.length) ∧ Closed ds (lockGroup ds i) := by
  obtain ⟨holds, nodup, inside, grown, -⟩ := spread_grows ds ds.length [i] (List.nodup_singleton i) (by simpa using hi)
  have few : (spread ds ds.length [i]).length ≤ ds.length := by
    have := (List.subperm_of_subset nodup fun j hj => List.mem_range.mpr (inside j hj)).length_le
    rwa [List.length_range] at this
  refine ⟨holds i (List.mem_singleton_self i), nodup, inside, grown.resolve_right fun many => ?_⟩
  rw [List.length_singleton] at many
  omega

/-! ## Starting the islands of a group (R124, R199, R200) -/

/-- The states that starts of islands lead to: islands and commands alone differ, and a command is as it was or not started. -/
structure State.Started (s : State) (c : Ctx) (u : State) : Prop where
  only : u = { s with isls := u.isls, runs := u.runs }
  runs : ∀ k, u.run c k = s.run c k ∨ u.run c k = {}

theorem State.Started.refl (s : State) (c : Ctx) : s.Started c s := ⟨rfl, fun _ => .inl rfl⟩
theorem State.Started.trans {s t u : State} {c : Ctx} (h : s.Started c t) (k : t.Started c u) : s.Started c u := by
  refine ⟨?_, fun j => ?_⟩
  · rw [k.only, h.only]
  · rcases k.runs j with e | e
    · rw [e]; exact h.runs j
    · exact .inr e
theorem State.Started.cmdsOf {s u : State} {c : Ctx} (h : s.Started c u) (i : Nat) : u.cmdsOf c i = s.cmdsOf c i := by
  unfold State.cmdsOf State.tableLen State.cmdAt State.cmdRec State.plane
  rw [h.only]
theorem State.Started.plane {s u : State} {c : Ctx} (h : s.Started c u) : u.plane c = s.plane c := by
  unfold State.plane
  rw [h.only]
theorem State.Started.run {s u : State} {c : Ctx} (h : s.Started c u) {k : Nat} (e : s.run c k = {}) : u.run c k = {} :=
  (h.runs k).elim (fun h => h.trans e) id

/-- Commands that are put to their state before a start. -/
theorem State.clearRuns (c : Ctx) (l : List (Nat × Instr)) (s : State) :
    s.Started c (l.foldl (fun s p => s.setRun c p.1 {}) s) ∧ (l.foldl (fun s p => s.setRun c p.1 {}) s).isls = s.isls ∧
    ∀ p ∈ l, (l.foldl (fun s p => s.setRun c p.1 {}) s).run c p.1 = {} := by
  induction l generalizing s with
  | nil => rw [List.foldl_nil]; exact ⟨.refl s c, rfl, fun p hp => absurd hp List.not_mem_nil⟩
  | cons p l ih =>
    obtain ⟨rest, isls, clear⟩ := ih (s.setRun c p.1 {})
    have one : s.Started c (s.setRun c p.1 {}) := by
      refine ⟨rfl, fun k => ?_⟩
      by_cases hk : kKey c k = kKey c p.1
      · right
        unfold State.run
        rw [hk]
        exact State.run_setRun_same s c p.1 {}
      · exact .inl (State.run_setRun_ne s hk {})
    refine ⟨one.trans rest, isls, fun q hq => ?_⟩
    rcases List.mem_cons.mp hq with rfl | hq
    · exact rest.run (State.run_setRun_same s c q.1 {})
    · exact clear q hq
/-- An island that is started runs anew, and none of its commands is started. -/
theorem State.startIsland_started (s : State) (c : Ctx) (i : Nat) :
    s.Started c (s.startIsland c i) ∧ (∀ p ∈ s.cmdsOf c i, (s.startIsland c i).run c p.1 = {}) ∧
    ∀ j, (s.startIsland c i).isl c j = if iKey c j = iKey c i then started (s.isl c i) ((s.plane c).isls.getD i {}) else s.isl c j := by
  have eq : s.startIsland c i = (s.cmdsOf c i).foldl (fun s p => s.setRun c p.1 {})
    (s.setIsl c i (started (s.isl c i) ((s.plane c).isls.getD i {}))) := rfl
  rw [eq]
  generalize started (s.isl c i) ((s.plane c).isls.getD i {}) = x
  obtain ⟨kept, isls, clear⟩ := State.clearRuns c (s.cmdsOf c i) (s.setIsl c i x)
  have fresh : s.Started c (s.setIsl c i x) := ⟨rfl, fun _ => .inl rfl⟩
  refine ⟨fresh.trans kept, clear, fun j => ?_⟩
  unfold State.isl
  rw [isls]
  exact mget_mset s.isls (iKey c j) (iKey c i) x
/-- Starting a list of islands starts each of them, once or more. -/
theorem State.startIslands (c : Ctx) (l : List Nat) (s : State) (inside : ∀ i ∈ l, i < 64) :
    s.Started c (l.foldl (fun s i => s.startIsland c i) s) ∧
    (∀ i ∈ l, ∀ p ∈ s.cmdsOf c i, (l.foldl (fun s i => s.startIsland c i) s).run c p.1 = {}) ∧
    ∀ j < 64, (l.foldl (fun s i => s.startIsland c i) s).isl c j =
      if j ∈ l then started (s.isl c j) ((s.plane c).isls.getD j {}) else s.isl c j := by
  induction l generalizing s with
  | nil =>
    rw [List.foldl_nil]
    exact ⟨.refl s c, fun p hp => absurd hp List.not_mem_nil, fun j _ => (if_neg List.not_mem_nil).symm⟩
  | cons i l ih =>
    obtain ⟨one, clear, isl⟩ := s.startIsland_started c i
    obtain ⟨rest, others, isls⟩ := ih (s.startIsland c i) fun j hj => inside j (List.mem_cons_of_mem i hj)
    refine ⟨one.trans rest, fun k hk p hp => ?_, fun j hj => ?_⟩
    · rcases List.mem_cons.mp hk with rfl | hk
      · exact rest.run (clear p hp)
      · exact others k hk p (one.cmdsOf k ▸ hp)
    · have key : iKey c j = iKey c i ↔ j = i := by unfold iKey; omega
      rw [List.foldl_cons, isls j hj, isl j, one.plane]
      by_cases hji : j = i
      · subst hji
        rw [if_pos rfl, if_pos (List.mem_cons_self ..)]
        split <;> rfl
      · rw [if_neg (fun e => hji (key.mp e))]
        exact if_congr (by rw [List.mem_cons, or_iff_right hji]) rfl rfl

/-! ## Links (R205, R207) -/

/-- A key of a map after steps each of which applies `f` to it or leaves it. -/
theorem mget_foldl_hits {α β : Type} [Inhabited α] {step : SMap α → β → SMap α} {hit : β → Prop} {f : α → α} {x : Nat}
    (idem : ∀ v, f (f v) = f v) (l : List β)
    (one : ∀ b ∈ l, ∀ m, (hit b → mget (step m b) x = f (mget m x)) ∧ (¬ hit b → mget (step m b) x = mget m x)) (m : SMap α) :
    ((∃ b ∈ l, hit b) → mget (l.foldl step m) x = f (mget m x)) ∧ ((∀ b ∈ l, ¬ hit b) → mget (l.foldl step m) x = mget m x) := by
  induction l generalizing m with
  | nil => exact ⟨by simp, fun _ => rfl⟩
  | cons b l ih =>
    obtain ⟨some, none⟩ := ih (fun b hb => one b (List.mem_cons_of_mem _ hb)) (step m b)
    obtain ⟨applied, left⟩ := one b (List.mem_cons_self ..) m
    rw [List.foldl_cons]
    refine ⟨fun ⟨d, hd, hit'⟩ => ?_, fun h => ?_⟩
    · by_cases later : ∃ b ∈ l, hit b
      · rw [some later]
        by_cases hb : hit b
        · rw [applied hb, idem]
        · rw [left hb]
      · push Not at later
        rw [none later]
        rcases List.mem_cons.mp hd with rfl | hd
        · exact applied hit'
        · exact absurd hit' (later d hd)
    · rw [none fun d hd => h d (List.mem_cons_of_mem b hd), left (h b (List.mem_cons_self ..))]
/-- The entries of a link that captures of the runs before cycle n still wait for. -/
def keptEnts (n : Nat) (l : List LinkEnt) : List LinkEnt := l.filter (fun x => decide (x.n < n))
theorem keptEnts_keptEnts (n : Nat) (l : List LinkEnt) : keptEnts n (keptEnts n l) = keptEnts n l := by
  unfold keptEnts; rw [List.filter_filter]; simp
/-- The four links of an element keep such entries, and no other element's links change. -/
theorem mget_elemLinks (m : SMap (List LinkEnt)) (c : Ctx) (n b e d : Nat) (hd : d < 4) :
    mget ((List.range 4).foldl (fun m d => mmod m (4 * eKey c b + d) (keptEnts n)) m) (4 * (c.toNat * 512 + e) + d) =
      if b = e then keptEnts n (mget m (4 * (c.toNat * 512 + e) + d)) else mget m (4 * (c.toNat * 512 + e) + d) := by
  obtain ⟨some, none⟩ := mget_foldl_hits (hit := fun d' => b = e ∧ d' = d) (f := keptEnts n) (x := 4 * (c.toNat * 512 + e) + d)
    (step := fun m d => mmod m (4 * eKey c b + d) (keptEnts n)) (keptEnts_keptEnts n) (List.range 4) (fun d' hd' m => by
      have hd' := List.mem_range.mp hd'
      unfold eKey
      refine ⟨fun ⟨hb, h⟩ => by rw [hb, h, mget_mmod_same], fun h => mget_mmod_ne m (fun k => h ?_) _⟩
      omega) m
  split
  · next hb => exact some ⟨d, List.mem_range.mpr hd, hb, rfl⟩
  · next hb => exact none fun d' _ h => hb h.1
/-- The links after the start of a group. -/
def State.keptLinks (s : State) (c : Ctx) (g : List Nat) : SMap (List LinkEnt) :=
  ((List.range 512).filter (fun e => g.contains (islandIx (s.plane c).isls e))).foldl (fun m e => (List.range 4).foldl (fun m d =>
    mmod m (4 * eKey c e + d) (keptEnts (s.isl c (islandIx (s.plane c).isls e)).abs)) m) s.links
theorem State.startGroup_eq (s : State) (c : Ctx) (g : List Nat) :
    s.startGroup c g = g.foldl (fun s i => s.startIsland c i) { s with links := s.keptLinks c g } := rfl
/-- The start of a group gives its links what they keep and starts its islands. -/
theorem State.startGroup_started (s : State) (c : Ctx) (g : List Nat) (inside : ∀ i ∈ g, i < 64) :
    State.Started { s with links := s.keptLinks c g } c (s.startGroup c g) ∧
    (∀ i ∈ g, ∀ p ∈ s.cmdsOf c i, (s.startGroup c g).run c p.1 = {}) ∧
    ∀ j < 64, (s.startGroup c g).isl c j = if j ∈ g then started (s.isl c j) ((s.plane c).isls.getD j {}) else s.isl c j := by
  have cmds : ∀ i, ({ s with links := s.keptLinks c g } : State).cmdsOf c i = s.cmdsOf c i := fun i => by
    unfold State.cmdsOf State.tableLen State.cmdAt State.cmdRec State.plane
    rfl
  have plane : ({ s with links := s.keptLinks c g } : State).plane c = s.plane c := by unfold State.plane; rfl
  have isl : ∀ j, ({ s with links := s.keptLinks c g } : State).isl c j = s.isl c j := fun j => by unfold State.isl; rfl
  obtain ⟨kept, clear, isls⟩ := State.startIslands c g { s with links := s.keptLinks c g } inside
  rw [← State.startGroup_eq] at kept clear isls
  refine ⟨kept, fun i hi p hp => clear i hi p (by rw [cmds i]; exact hp), fun j hj => ?_⟩
  rw [isls j hj, isl, plane]
theorem State.mget_keptLinks (s : State) (c : Ctx) (g : List Nat) {e d : Nat} (he : e < 512) (hd : d < 4)
    (hg : islandIx (s.plane c).isls e ∈ g) : mget (s.keptLinks c g) (4 * (c.toNat * 512 + e) + d) =
      keptEnts (s.isl c (islandIx (s.plane c).isls e)).abs (mget s.links (4 * (c.toNat * 512 + e) + d)) := by
  refine (mget_foldl_hits (hit := (· = e)) (keptEnts_keptEnts _) _ (fun b _ m => ?_) _).1
    ⟨e, List.mem_filter.mpr ⟨List.mem_range.mpr he, by simpa using hg⟩, rfl⟩
  rw [mget_elemLinks m c _ b e d hd]
  exact ⟨fun h => by rw [if_pos h, h], fun h => if_neg h⟩

end Sys2Proof.Machine

namespace Sys2Proof.Proofs

open Sys2Proof.Laws Sys2Proof.Machine Sys2Proof.Claims

theorem islandStart : Claims.IslandStart := by
  intro s i isls g hi few
  obtain ⟨-, -, inside, -⟩ := lockGroup_closed hi
  have there : ¬ i.toNat ≥ isls.length := Nat.not_le.mpr hi
  have run : exec (.tgo i) s = if (s.thr s.cur).acquiring || g.any (fun j => (s.isl s.cur j).running)
      then .next (s.stalled s.cur)
      else .next ((s.startGroup s.cur g).retire (s.startGroup s.cur g).cur (fun t => t.closeLoads)) := if_neg there
  refine ⟨fun un quiet => ?_, fun busy => ?_⟩
  · have free : ((s.thr s.cur).acquiring || g.any (fun j => (s.isl s.cur j).running)) = false := by
      rw [Bool.or_eq_false_iff, List.any_eq_false]
      exact ⟨un, fun j hj => Bool.eq_false_iff.mp (quiet j hj)⟩
    rw [free, if_neg Bool.false_ne_true] at run
    obtain ⟨kept, clear, isl⟩ := s.startGroup_started s.cur g fun j hj => (inside j hj).trans_le few
    have only := kept.only
    generalize s.startGroup s.cur g = u at *
    have cur : u.cur = s.cur := by rw [only]
    have thr : u.thr s.cur = s.thr s.cur := by unfold State.thr; rw [only]
    have links : u.links = s.keptLinks s.cur g := by rw [only]
    rw [cur] at run
    refine ⟨_, run, ?_, isl, clear, fun e he d hd hg => ?_, ?_⟩
    · rw [State.thr_retire, thr]; rfl
    · show mget u.links _ = _
      rw [links]
      exact s.mget_keptLinks s.cur g he hd hg
    · rw [State.retire_only, only]
  · have waits : ((s.thr s.cur).acquiring || g.any (fun j => (s.isl s.cur j).running)) = true := by
      rw [Bool.or_eq_true, List.any_eq_true]
      exact busy.imp_left (Bool.not_eq_false _ |>.mp ·)
    rw [waits, if_pos rfl] at run
    exact run
theorem islandWait : Claims.IslandWait := by
  refine fun s i => ⟨fun h => ?_, fun h => ?_⟩
  · exact if_neg (Bool.eq_false_iff.mp h)
  · exact if_pos h
theorem lockGroupClosed : Claims.LockGroupClosed := by
  intro ds i j k hi
  obtain ⟨self, -, -, closed⟩ := lockGroup_closed hi
  exact ⟨self, fun hj hk e => closed j hj k hk e⟩

/-- Settles O49, by its three parts; a lock group is closed because each round that does not close it adds an island. -/
theorem islandControl : Obligations.IslandControl := ⟨islandStart, islandWait, lockGroupClosed⟩

end Sys2Proof.Proofs
end

section
/-!
Commits, and the end of a gang with its notify record (R76, R80, R157, R161, R391).
-/

namespace Sys2Proof.Laws

open Sys2Proof.Machine

/-- An entry after a write is the written one, or an old one of another key. -/
theorem mem_mset_other {α : Type} [Inhabited α] [DecidableEq α] {m : SMap α} {k : Nat} {v : α} {q : Nat × α} (h : q ∈ mset m k v) :
    q = (k, v) ∨ (q ∈ m ∧ q.1 ≠ k) := by
  have kept : q ∈ mdel k m → q ∈ m ∧ q.1 ≠ k := fun hq => by simpa [mdel] using hq
  unfold mset at h
  split at h
  · exact .inr (kept h)
  · exact (mem_mput h).imp_right kept

end Sys2Proof.Laws

namespace Sys2Proof.Machine

open Sys2Proof.Laws

/-! ## What the end of a gang leaves (R157, R391) -/

/-- `u` differs from `s` in what the release of a gang changes: page tables, translations, stores, gangs, barriers and what a
failed check reports. -/
def State.Released (s u : State) : Prop :=
  u = { s with mem := u.mem, checks := u.checks, faultQ := u.faultQ, recorded := u.recorded, fb := u.fb, dying := u.dying
               tlb1 := u.tlb1, tlb2 := u.tlb2, pins := u.pins, stores := u.stores, gangs := u.gangs, bars := u.bars }

theorem State.Released.refl (s : State) : s.Released s := rfl
theorem State.Released.trans {s t u : State} (h : s.Released t) (k : t.Released u) : s.Released u := by
  unfold State.Released at *
  rw [k, h]
theorem State.Released.tasks {s u : State} (h : s.Released u) : u.tasks = s.tasks := by rw [h]
theorem State.Released.owner {s u : State} (h : s.Released u) : u.owner = s.owner := by rw [h]
theorem State.Released.queues {s u : State} (h : s.Released u) : u.queues = s.queues := by rw [h]
theorem State.Released.out {s u : State} (h : s.Released u) : u.out = s.out := by rw [h]

theorem State.unmapUnit_released (s : State) (tenant : BitVec 16) (unit : Nat) : s.Released (s.unmapUnit tenant unit) := by
  unfold State.unmapUnit
  split
  · next a _ =>
    have updated : s.Released (s.updateWord a 0) := by
      unfold State.Released State.updateWord State.update
      rw [s.updateFor_rest 0 a (leList 8 0)]
    exact updated.trans rfl
  · rfl
theorem State.dropMaps_released (s : State) (g : Nat) (all : Bool) : s.Released (s.dropMaps g all) := by
  unfold State.dropMaps
  extract_lets x mine keep frameOf kept s1 s2
  have unmapped : s.Released s1 :=
    List.foldlRecOn (motive := s.Released) _ _ (.refl s) fun t h u _ => h.trans (t.unmapUnit_released ..)
  have forgotten : s1.Released s2 := by
    unfold s2
    split <;> rfl
  exact (unmapped.trans forgotten).trans rfl
theorem State.releaseGang_released (s : State) (g : Nat) : s.Released (s.releaseGang g) :=
  (s.dropMaps_released g true).trans rfl
/-- A released gang is gone. -/
theorem State.gang_releaseGang (s : State) (g : Nat) : (s.releaseGang g).gang g = {} := mget_mset_same _ g default

/-! ## Notify records (R161) -/

/-- A notify record is counted by its queue, and sent where the queue has an area. -/
structure State.Notified (s : State) (q type : Nat) (u : State) : Prop where
  only : u = { s with queues := u.queues, out := u.out }
  count : (u.queue q).count = (s.queue q).count + 1
  sent : (s.queue q).notify ≠ 0 → ∃ ws, OutMsg.notify ((s.queue q).notify + BitVec.ofNat 64 (32 * ((s.queue q).count % 256))) ws ∈ u.out ∧
    (ws.getD 0 0).toNat % 256 = type % 256

/-- Closing a window sends at most an interrupt. -/
theorem State.closeWindow_kept (s : State) (q : Nat) : s.closeWindow q = { s with
      queues := (s.closeWindow q).queues, out := (s.closeWindow q).out } ∧
    ((s.closeWindow q).queue q).count = (s.queue q).count ∧ ∀ m ∈ s.out, m ∈ (s.closeWindow q).out := by
  unfold State.closeWindow
  dsimp only
  split
  · exact ⟨rfl, rfl, fun m hm => hm⟩
  · have count : ∀ x : Queue, ((s.setQueue q x).queue q).count = x.count := fun x => by
      unfold State.queue State.setQueue; dsimp only; rw [mget_mset_same]
    split
    · exact ⟨rfl, count _, fun m hm => hm⟩
    · exact ⟨rfl, count _, fun m hm => List.mem_append_left _ hm⟩
theorem State.Notified.closed {s u : State} {q type : Nat} (h : s.Notified q type u) : s.Notified q type (u.closeWindow q) := by
  obtain ⟨only, count, out⟩ := u.closeWindow_kept q
  refine ⟨?_, count.trans h.count, fun area => ?_⟩
  · rw [only, h.only]
  · obtain ⟨ws, sent, low⟩ := h.sent area
    exact ⟨ws, out _ sent, low⟩
theorem State.notify_notified (s : State) (q type discarded : Nat) (tag : W32) (code : BitVec 8) (value : Word) :
    s.Notified q type (s.notify q type discarded tag code value) := by
  unfold State.notify
  extract_lets x n w0 words s1
  have low : w0.toNat % 256 = type % 256 := by
    unfold w0
    rw [BitVec.toNat_ofNat]
    omega
  have sent : x.notify ≠ 0 → ∃ ws, OutMsg.notify (x.notify + BitVec.ofNat 64 (32 * (x.count % 256))) ws ∈ s1.out ∧
      (ws.getD 0 0).toNat % 256 = type % 256 := by
    intro area
    refine ⟨words, ?_, low⟩
    unfold s1
    rw [if_neg area]
    exact List.mem_append_right _ (List.mem_singleton_self _)
  have only : s1 = { s with out := s1.out } := by unfold s1; split <;> rfl
  generalize s1 = t at *
  have put : ∀ y : Queue, y.count = n → s.Notified q type (t.setQueue q y) := by
    intro y hy
    refine ⟨?_, ?_, sent⟩
    · generalize t.out = out at only
      subst only
      rfl
    · unfold State.queue State.setQueue
      dsimp only
      rw [mget_mset_same, hy]
      rfl
  dsimp only
  split
  · exact (put _ rfl).closed
  · exact put _ rfl

/-! ## The commit (R76, R80) -/

/-- The end of a gang, or its next iteration, leaves tasks and owners. -/
theorem State.gangDone_kept (s : State) (g : Nat) : (s.gangDone g).tasks = s.tasks ∧ (s.gangDone g).owner = s.owner := by
  have told : ∀ t u : State, ∀ q type, s.Released t → t.Notified q type u → u.tasks = s.tasks ∧ u.owner = s.owner :=
    fun t u q type h k => ⟨by rw [k.only, h.tasks], by rw [k.only, h.owner]⟩
  unfold State.gangDone
  dsimp only
  split
  · split
    · exact ⟨(s.dropMaps_released g false).tasks, (s.dropMaps_released g false).owner⟩
    · exact told _ _ _ _ (s.releaseGang_released g) (State.notify_notified ..)
  · exact told _ _ _ _ (s.releaseGang_released g) (State.notify_notified ..)
/-- `u` is `s` without a task in its partition and its order. -/
structure State.Removed (s : State) (id : Nat) (u : State) : Prop where
  mem : u.mem = s.mem
  queues : u.queues = s.queues
  tasks : ∃ t : Task, u.tasks = mset s.tasks id t ∧ (t.gang = 0 ∨ t.phase = .done)
  owner : (s.task id).inOrder = true → s.taskAt (s.task id).ctx = id → u.taskAt (s.task id).ctx = 0

theorem State.removeTask_removed (s : State) (id : Nat) : s.Removed id (s.removeTask id) := by
  unfold State.removeTask
  extract_lets t n s1 t2
  have kept : s1.mem = s.mem ∧ s1.queues = s.queues ∧ s1.tasks = s.tasks := by
    unfold s1
    split
    · unfold n
      split <;> exact ⟨rfl, rfl, rfl⟩
    · split <;> exact ⟨rfl, rfl, rfl⟩
  have freed : t.inOrder = true → s.taskAt t.ctx = id → s1.taskAt t.ctx = 0 := by
    intro ordered mine
    have placed : (t.phase == .placed || t.phase == .resident || t.phase == .spilled) = true := by
      unfold Task.inOrder at ordered
      rw [Bool.and_eq_true] at ordered
      exact ordered.2
    have same : n.taskAt t.ctx = id := by
      rw [← mine]
      unfold n
      split <;> rfl
    unfold s1
    rw [if_pos placed]
    unfold State.taskAt at same ⊢
    dsimp only
    rw [if_pos same, mget_mset_same]
    rfl
  unfold State.taskAt at freed
  obtain ⟨mem, queues, tasks⟩ := kept
  split
  · refine ⟨mem, queues, ⟨t2, ?_, .inr rfl⟩, freed⟩
    unfold State.setTask
    dsimp only
    rw [tasks]
  · refine ⟨mem, queues, ⟨default, ?_, .inl rfl⟩, freed⟩
    dsimp only
    rw [tasks]

section
variable {s u : State} {id : Nat} (h : s.Removed id u)
include h
theorem State.Removed.inOrder : (u.task id).inOrder = false := by
  obtain ⟨t, tasks, gone⟩ := h.tasks
  unfold State.task
  rw [tasks, mget_mset_same]
  unfold Task.inOrder
  rcases gone with e | e <;> simp [e]
theorem State.Removed.other {n : Nat} (hn : n ≠ id) : u.task n = s.task n := by
  obtain ⟨t, tasks, -⟩ := h.tasks
  unfold State.task
  rw [tasks, mget_mset_ne _ hn]
end

/-- A member of a gang is an entry of a task of it that is not done. -/
theorem State.members_eq_nil {s : State} {g : Nat} : (s.members g).isEmpty = true ↔
    ∀ p ∈ s.tasks, p.2.gang = g → p.2.phase = .done := by
  unfold State.members
  rw [List.isEmpty_iff, List.map_eq_nil_iff, List.filter_eq_nil_iff]
  refine forall₂_congr fun p _ => ?_
  simp
/-- A commit that is complete takes the task out of its order and partition; where it is the last of its gang, the gang ends. -/
theorem State.commitDone_removed (s : State) (id : Nat) : ∃ u : State, s.Removed id u ∧
    (u.gang (s.task id).gang).batch = (s.gang (s.task id).gang).batch ∧
    (u.gang (s.task id).gang).queue = (s.gang (s.task id).gang).queue ∧
    s.commitDone id = if (u.members (s.task id).gang).isEmpty then u.gangDone (s.task id).gang else u := by
  have removed := s.removeTask_removed id
  refine ⟨(s.removeTask id).setGang (s.task id).gang { s.gang (s.task id).gang with
    discarded := (s.gang (s.task id).gang).discarded + (s.task id).mail.length }, ?_, ?_, ?_, rfl⟩
  · exact ⟨removed.mem, removed.queues, removed.tasks, removed.owner⟩
  · rw [State.gang_setGang_same]
  · rw [State.gang_setGang_same]

/-! ## When a commit happens -/

theorem State.headOf_isHead {s : State} {sc : Scope} {inst id : Nat} (h : s.headOf sc inst = some id) : s.isHead id = true := by
  unfold State.headOf at h
  obtain ⟨p, found, rfl⟩ := Option.map_eq_some_iff.mp h
  have := List.find?_some found
  simp only [Bool.and_eq_true] at this
  exact this.2
/-- A ready head with no intent left, laid by or not, commits at once. -/
theorem State.commitStep_done {s : State} {id : Nat} (ready : s.ready id = true) (alive : s.doomed (s.task id).gang = false)
    (intents : (s.task id).intents = []) (lays : ∀ l ∈ (s.task id).lays, l.deferred = false) :
    s.commitStep id = s.commitDone id := by
  have deferred : (s.task id).lays.any (·.deferred) = false := by
    rw [List.any_eq_false]
    exact fun l hl => Bool.eq_false_iff.mp (lays l hl)
  have none : s.applyAll id (s.task id).intents.length = s := by rw [intents]; rfl
  unfold State.commitStep
  dsimp only
  rw [none, ready, alive, intents, deferred]
  rfl

end Sys2Proof.Machine

namespace Sys2Proof.Proofs

open Sys2Proof.Laws Sys2Proof.Machine Sys2Proof.Claims

/-- Settles O18: a commit takes its task out of the order, and the end of a gang changes no other task. -/
theorem commit : Obligations.Commit := by
  refine ⟨fun s sc inst id head ready alive intents lays => ?_, fun s sc inst h => ?_⟩
  · have run : exec (.commit sc inst) s = .next (s.commitDone id) := by
      show execCommit sc inst s = _
      unfold execCommit
      rw [head]
      exact congrArg _ (State.commitStep_done ready alive intents lays)
    have ordered := ((s.isHead_iff id).mp (State.headOf_isHead head)).1
    have live : (s.task id).gang ≠ 0 := by
      unfold Task.inOrder at ordered
      simp only [Bool.and_eq_true, bne_iff_ne] at ordered
      exact ordered.1
    obtain ⟨u, removed, batch, queue, done⟩ := s.commitDone_removed id
    have kept : (s.commitDone id).tasks = u.tasks ∧ (s.commitDone id).owner = u.owner := by
      rw [done]
      split
      · exact u.gangDone_kept _
      · exact ⟨rfl, rfl⟩
    have task : ∀ n, (s.commitDone id).task n = u.task n := fun n => by unfold State.task; rw [kept.1]
    refine ⟨_, run, ?_, fun mine => ?_, fun n hn => ?_, fun others => ?_, fun last noBatch => ?_⟩
    · rw [task]; exact removed.inOrder
    · unfold State.taskAt
      rw [kept.2]
      exact removed.owner ordered mine
    · rw [task]; exact removed.other hn
    · obtain ⟨n, hn, same, running⟩ := others
      have listed : (n, u.task n) ∈ u.tasks := mem_of_mget_ne_default u.tasks n fun e => live (by
        rw [← same, ← removed.other hn]
        unfold State.task
        rw [e]
        rfl)
      have more : ¬ (u.members (s.task id).gang).isEmpty = true := fun none => running (by
        have := State.members_eq_nil.mp none _ listed
        rw [removed.other hn] at this
        exact this same)
      rw [done, if_neg more]
      exact ⟨removed.mem, removed.queues⟩
    · have none : (u.members (s.task id).gang).isEmpty = true := State.members_eq_nil.mpr fun p hp same => by
        obtain ⟨t, tasks, gone⟩ := removed.tasks
        rw [tasks] at hp
        rcases mem_mset_other hp with rfl | ⟨hp, hn⟩
        · exact gone.resolve_left fun e => live (same.symm.trans e)
        · exact last p hp same hn
      rw [done, if_pos none]
      have ended := u.releaseGang_released (s.task id).gang
      have run : u.gangDone (s.task id).gang = (u.releaseGang (s.task id).gang).notify (u.gang (s.task id).gang).queue.toNat 1
          (u.gang (s.task id).gang).discarded (u.gang (s.task id).gang).tag 0 0 := by
        unfold State.gangDone
        dsimp only
        rw [batch, noBatch]
      have told := (u.releaseGang (s.task id).gang).notify_notified (u.gang (s.task id).gang).queue.toNat 1
        (u.gang (s.task id).gang).discarded (u.gang (s.task id).gang).tag 0 0
      rw [← run, queue] at told
      have before : ∀ q, (u.releaseGang (s.task id).gang).queue q = s.queue q := fun q => by
        unfold State.queue
        rw [ended.queues, removed.queues]
      obtain ⟨only, count, sent⟩ := told
      rw [before] at count sent
      refine ⟨?_, count, sent⟩
      unfold State.gang
      rw [only]
      exact u.gang_releaseGang _
  · show execCommit sc inst s = _
    unfold execCommit
    rcases h with none | ⟨id, head, notReady⟩
    · rw [none]
    · rw [head]
      refine congrArg _ (if_pos ?_)
      rw [notReady]
      rfl

end Sys2Proof.Proofs
end

section
/-!
A `wh.red` on a context that has no task (R231, R248): the record of its intent finds no task to hold it.
-/

namespace Sys2Proof.Machine

/-- A reducer of one bag without indices, with rows of one lane. -/
def lostRed : WhRedRec :=
  { hdr := { start := 0, island := 0 }, bags := { count := 1 }, inds := { count := 0 }, idx := 0, dst := 0, cw := 0, table := 0
    port := 0, ty := .f32, merge := .write, scope := .lane, row := 4 }
/-- The machine at reset, but for a reducer that runs as command 0 of context 0, which no task owns. -/
def lostRun : State := { (default : State) with runs := [(0, { st := .running, ins := some (.whRed lostRed) })] }

end Sys2Proof.Machine

namespace Sys2Proof.Proofs

open Sys2Proof.Machine Sys2Proof.Claims

/-- The bag of the lost reducer is finished, and no task has an intent. -/
theorem lostRun_intents : ((lostRun.readArrives 0 0).task (lostRun.taskAt 0)).intents = [] := by
  decide +kernel
/-- Refutes O34: its clause on bags has no premise that the command's context has a task. Where none owns it, the intent is
recorded nowhere. -/
theorem not_wharfResults : ¬ Obligations.WharfResults := by
  rintro ⟨-, -, bags⟩
  obtain ⟨t, i, rest, run, intents, -⟩ := bags lostRun 0 0 lostRed (by decide +kernel) (by decide +kernel) (by decide +kernel)
    (by decide +kernel) (by decide +kernel)
  have at' : t = lostRun.readArrives 0 0 := by
    have : exec (.streamReadArrives 0 0) lostRun = .next (lostRun.readArrives 0 0) := rfl
    rw [run] at this
    injection this
  rw [at', lostRun_intents] at intents
  exact absurd intents (by simp)

end Sys2Proof.Proofs
end

section
/-!
Link operations of a task as they leave and as they complete (R89, R109, R135, R136, R371 to R373).
-/

namespace Sys2Proof.Machine

open Sys2Proof.Laws Sys2Proof.Claims

/-! ## The entry of an operation -/

theorem State.tidy_only (s : State) (id : Nat) : s.OnlyTasks (s.tidy id) := by
  unfold State.OnlyTasks State.tidy
  dsimp only
  generalize mset s.tasks id default = m
  split
  · rfl
  · rfl
theorem State.dropOp_only (s : State) (id num : Nat) : s.OnlyTasks (s.dropOp id num) :=
  (s.modTask_only id _).trans (State.tidy_only _ id)
/-- A task keeps its entry where it has not ended; else it may be put away. -/
theorem State.task_tidy (s : State) (id : Nat) :
    (s.tidy id).task id = s.task id ∨ ((s.task id).phase = .done ∧ (s.tidy id).task id = default) := by
  unfold State.tidy
  dsimp only
  split
  · next h =>
    simp only [Bool.and_eq_true, beq_iff_eq] at h
    refine .inr ⟨h.1.2, ?_⟩
    unfold State.task
    rw [mget_mset_same]
  · exact .inl rfl
/-- A dropped operation is no longer among those of its task. -/
theorem State.dropOp_gone (s : State) {id : Nat} (num : Nat) (live : (s.task id).gang ≠ 0) :
    ∀ x ∈ ((s.dropOp id num).task id).links, x.num ≠ num := by
  unfold State.dropOp
  rcases State.task_tidy (s.modTask id (fun t => { t with links := t.links.filter (·.num != num) })) id with e | ⟨-, e⟩
  · rw [e, s.task_modTask_same id _ live]
    intro x hx
    simpa using (List.mem_filter.mp hx).2
  · rw [e]
    exact fun x hx => absurd hx List.not_mem_nil
/-- A task that has not ended keeps all but the dropped operation. -/
theorem State.task_dropOp (s : State) {id : Nat} (num : Nat) (live : (s.task id).gang ≠ 0) (here : (s.task id).phase ≠ .done) :
    (s.dropOp id num).task id = { s.task id with links := (s.task id).links.filter (·.num != num) } := by
  have kept := s.task_modTask_same id (fun t => { t with links := t.links.filter (·.num != num) }) live
  unfold State.dropOp
  rcases State.task_tidy (s.modTask id (fun t => { t with links := t.links.filter (·.num != num) })) id with e | ⟨ended, -⟩
  · rw [e, kept]
  · rw [kept] at ended
    exact absurd ended here
theorem State.thr_dropOp (s : State) (id num : Nat) (c : Ctx) : (s.dropOp id num).thr c = s.thr c := by
  rw [s.dropOp_only id num]; rfl
/-- A head belongs to a gang. -/
theorem State.isHead_gang {s : State} {id : Nat} (h : s.isHead id = true) : (s.task id).gang ≠ 0 := by
  obtain ⟨inOrder, -⟩ := (s.isHead_iff id).mp h
  unfold Task.inOrder at inOrder
  simp only [Bool.and_eq_true, bne_iff_ne] at inOrder
  exact inOrder.1

/-! ## Leaving -/

/-- What the first queued link instruction of a head does as it leaves. -/
def State.leave (s : State) (id : Nat) (o : LinkOp) : State :=
  match o.kind with
  | .put => s.sendLocal id o (fun bs => .put o.pkg (s.linkSender id o) o.remote bs)
  | .send => s.sendLocal id o (fun bs => .mail o.pkg (s.linkSender id o) (o.remote.setWidth 32) bs)
  | .get => s.sendOp id o (.get o.pkg (s.linkSender id o) o.remote o.len)
  | .amo => s.sendOp id o (.amo o.pkg (s.linkSender id o) o.remote o.aop o.dbl o.local' o.arg)
  | .notify => (s.notify (s.task id).queue.toNat 2 0 (s.gang (s.task id).gang).tag 0 o.arg).dropOp id o.num
  | .recv => s.recvMail id o
  | .coll => s
theorem State.linkLeave_goes {s : State} {id : Nat} {o : LinkOp} (first : (s.task id).firstOp false = some o)
    (head : s.isHead id = true) (free : o.held = false) (clear : (s.task id).linkWaits o = false) :
    s.linkLeave id = s.leave id o := by
  unfold State.linkLeave
  simp only [first, head, free, clear]
  rfl
theorem State.linkLeave_stays {s : State} {id : Nat} {o : LinkOp} (first : (s.task id).firstOp false = some o)
    (h : s.isHead id = false ∨ (s.task id).linkWaits o = true) : s.linkLeave id = s := by
  unfold State.linkLeave
  rcases h with h | h <;> simp [first, h]
theorem State.sendOp_sent {s : State} (id : Nat) {o : LinkOp} (m : OutMsg) (h : s.reaches o.pkg = true) :
    s.sendOp id o m = (s.modOp id o.num (fun x => { x with left := true })).emit m := by
  unfold State.sendOp
  rw [h]
  rfl
theorem State.sendLocal_sent {s s1 : State} {id : Nat} {o : LinkOp} {bs : List (Byte × Bool)} (m : List Byte → OutMsg)
    (read : s.localRead id o o.local'.toNat o.len = (s1, bs, .none)) (clean : ∀ b ∈ bs, b.2 = false) :
    s.sendLocal id o m = s1.sendOp id o (m (bs.map (·.1))) := by
  have any : bs.any (·.2) = false := by
    rw [List.any_eq_false]
    exact fun b hb => by rw [clean b hb]; decide
  unfold State.sendLocal
  simp only [read, any]
  rfl
/-- An instruction that sends leaves with its local bytes as its message says. -/
theorem State.leave_message {s s1 : State} {id : Nat} {o : LinkOp} {bs : List (Byte × Bool)} {m : OutMsg}
    (read : (if o.kind = .put ∨ o.kind = .send then s.localRead id o o.local'.toNat o.len else (s, [], .none)) = (s1, bs, .none))
    (clean : ∀ b ∈ bs, b.2 = false) (msg : messageOf s id o (bs.map (·.1)) = some m) :
    s.leave id o = s1.sendOp id o m := by
  unfold State.leave
  unfold messageOf at msg
  generalize o.kind = kind at read msg ⊢
  cases kind with
  | put =>
    obtain rfl := Option.some.inj msg
    exact State.sendLocal_sent _ ((if_pos (.inl rfl)).symm.trans read) clean
  | send =>
    obtain rfl := Option.some.inj msg
    exact State.sendLocal_sent _ ((if_pos (.inr rfl)).symm.trans read) clean
  | get =>
    obtain rfl := Option.some.inj msg
    rw [if_neg (by simp), Prod.mk.injEq] at read
    rw [read.1]
  | amo =>
    obtain rfl := Option.some.inj msg
    rw [if_neg (by simp), Prod.mk.injEq] at read
    rw [read.1]
  | notify => exact nomatch msg
  | recv => exact nomatch msg
  | coll => exact nomatch msg

/-! ## Mail that is received -/

/-- The thread of a resident task is changed where its context is. -/
theorem State.thr_modThread_resident {s : State} {id : Nat} (f : Thread → Thread) (h : (s.task id).phase = .resident) :
    (s.modThread id f).thr (s.task id).ctx = f (s.thr (s.task id).ctx) := by
  rw [s.thr_modThread id f, if_pos ⟨h, rfl⟩]
theorem State.task_modThread (s : State) (id : Nat) (f : Thread → Thread) (j : Nat) : (s.modThread id f).task j = s.task j := by
  rw [s.modThread_rest id f]; rfl
/-- The header of a mailbox is an update of memory. -/
theorem State.mailHead_rest (s : State) (id : Nat) :
    (s.mailHead id).tasks = s.tasks ∧ (s.mailHead id).threads = s.threads := by
  unfold State.mailHead State.update
  rw [State.updateFor_rest]
  exact ⟨rfl, rfl⟩
/-- An `mrecv` that finds a message takes it out of the mailbox and lands its length. -/
theorem State.recvMail_taken {s s1 : State} {id n : Nat} {o : LinkOp} {rest : List Nat} (mail : (s.task id).mail = n :: rest)
    (written : s.localWrite id o o.arg.toNat (s.bytes ((s.task id).mailSlot 0) n ++ List.replicate (256 - n) 0) = (s1, .none))
    (here : (s1.task id).phase = .resident) (live : (s1.task id).gang ≠ 0) :
    ((s.recvMail id o).task id).mail = rest ∧
    (s.recvMail id o).thr (s1.task id).ctx = (s1.thr (s1.task id).ctx).landLink o.num (BitVec.ofNat 64 n) ∧
    ∀ x ∈ ((s.recvMail id o).task id).links, x.num ≠ o.num := by
  have run : s.recvMail id o =
      let s2 := (s1.modTask id (fun t => { t with mail := rest, mailRd := (t.mailRd + 1) % 31 })).mailHead id
      let s3 := (s2.modThread id (fun t => t.landLink o.num (BitVec.ofNat 64 n))).dropOp id o.num
      if (s3.task id).phase == .resident then s3.acquire (s3.task id).ctx else s3 := by
    unfold State.recvMail
    simp only [mail, written]
  extract_lets s2 s3 at run
  obtain ⟨tasks, threads⟩ := State.mailHead_rest (s1.modTask id (fun t => { t with mail := rest, mailRd := (t.mailRd + 1) % 31 })) id
  have task2 : s2.task id = { s1.task id with mail := rest, mailRd := ((s1.task id).mailRd + 1) % 31 } := by
    have taken := s1.task_modTask_same id (fun t => { t with mail := rest, mailRd := (t.mailRd + 1) % 31 }) live
    unfold State.task at taken ⊢
    exact (congrArg (fun m => mget m id) tasks).trans taken
  have thr2 (c : Ctx) : s2.thr c = s1.thr c := by
    unfold State.thr
    rw [show s2.threads = _ from threads, State.modTask_only]
  have live3 : ((s2.modThread id (fun t => t.landLink o.num (BitVec.ofNat 64 n))).task id).gang ≠ 0 := by
    rw [State.task_modThread, task2]; exact live
  have here3 : ((s2.modThread id (fun t => t.landLink o.num (BitVec.ofNat 64 n))).task id).phase ≠ .done := by
    rw [State.task_modThread, task2]; simp [here]
  have task3 := State.task_dropOp _ o.num live3 here3
  rw [State.task_modThread, task2] at task3
  have mail3 : (s3.task id).mail = rest := congrArg Task.mail task3
  have thr3 : s3.thr (s1.task id).ctx = (s1.thr (s1.task id).ctx).landLink o.num (BitVec.ofNat 64 n) := by
    have landed := State.thr_modThread_resident (s := s2) (id := id) (fun t => t.landLink o.num (BitVec.ofNat 64 n))
      (by rw [task2]; exact here)
    rw [task2, thr2] at landed
    exact (State.thr_dropOp ..).trans landed
  have gone3 : ∀ x ∈ (s3.task id).links, x.num ≠ o.num := State.dropOp_gone _ o.num live3
  rw [run]
  generalize s3 = u at mail3 thr3 gone3
  split
  · exact ⟨mail3, thr3, gone3⟩
  · exact ⟨mail3, thr3, gone3⟩

end Sys2Proof.Machine

namespace Sys2Proof.Proofs

open Sys2Proof.Laws Sys2Proof.Machine Sys2Proof.Claims

theorem linkOperationsLeave : Claims.LinkOperationsLeave := by
  intro s task o first goes
  have run : exec (.linkOpLeaves task) s = .next (s.linkLeave task.toNat) := rfl
  have left (g : goes) : exec (.linkOpLeaves task) s = .next (s.leave task.toNat o) := by
    obtain ⟨head, free, clear⟩ := g
    rw [run, State.linkLeave_goes first head free clear]
  refine ⟨fun m s1 bs g read clean msg reach => ?_, fun g kind => ?_, fun g kind none here => ?_,
    fun s1 n rest g kind mail written here live => ?_, fun h => ?_⟩
  · rw [left g, State.leave_message read clean msg, State.sendOp_sent _ _ reach]
  · have note := s.notify_notified (s.task task.toNat).queue.toNat 2 0 (s.gang (s.task task.toNat).gang).tag 0 o.arg
    have live := State.isHead_gang g.1
    refine ⟨_, left g, ?_⟩
    unfold State.leave
    simp only [kind]
    generalize s.notify _ _ _ _ _ _ = u at note ⊢
    have only := note.only
    have tasks : u.tasks = s.tasks := by rw [only]
    refine ⟨?_, ?_, State.dropOp_gone u o.num ?_⟩
    · rw [State.OnlyTasks.mem (u.dropOp_only ..), only]
    · rw [← note.count]
      unfold State.queue
      rw [u.dropOp_only]
    · unfold State.task at live ⊢
      rw [tasks]; exact live
  · have live := State.isHead_gang g.1
    refine ⟨_, left g, ?_⟩
    unfold State.leave State.recvMail
    simp only [kind, none]
    refine ⟨?_, ?_, State.dropOp_gone _ o.num (by rw [State.task_modThread]; exact live)⟩
    · rw [State.OnlyTasks.mem (State.dropOp_only ..), State.modThread_rest]
    · rw [State.thr_dropOp, State.thr_modThread_resident _ here]
  · refine ⟨_, left g, ?_⟩
    unfold State.leave
    simp only [kind]
    exact State.recvMail_taken mail written here live
  · rw [run, State.linkLeave_stays first h]

/-- The register value that an old value of an atomic lands as, by its code (R117). -/
def oldLands (code : BitVec 4) (dbl : Bool) (v : Word) : Word :=
  if code = 7 ∨ code = 8 then BitVec.ofNat 64 (v.toNat % 2 ^ (if dbl then 64 else 32))
  else if 9 < code.toNat then 0 else if dbl then v else (v.setWidth 32).signExtend 64
theorem aopResult_code (code : BitVec 4) (dbl : Bool) (v : Word) :
    (∀ a, aopOfCode code.toNat = some a →
      aopResult a (if dbl then 8 else 4) (v.toNat % 2 ^ (8 * (if dbl then 8 else 4))) = oldLands code dbl v) ∧
    (aopOfCode code.toNat = none → oldLands code dbl v = 0) := by
  have signed : sextN (if dbl then 8 else 4) (v.toNat % 2 ^ (8 * (if dbl then 8 else 4))) =
      if dbl then v else (v.setWidth 32).signExtend 64 := by
    unfold sextN
    cases dbl
    · exact congrArg (BitVec.signExtend 64) (BitVec.eq_of_toNat_eq (by simp))
    · refine Eq.trans (BitVec.signExtend_eq _) (BitVec.eq_of_toNat_eq ?_)
      rw [BitVec.toNat_ofNat]
      exact (Nat.mod_mod ..).trans (Nat.mod_eq_of_lt v.isLt)
  have plain : zextN (if dbl then 8 else 4) (v.toNat % 2 ^ (8 * (if dbl then 8 else 4))) =
      BitVec.ofNat 64 (v.toNat % 2 ^ (if dbl then 64 else 32)) := by
    unfold zextN
    cases dbl <;> rfl
  have unsigned : (code = 7 ∨ code = 8) ↔ (code.toNat = 7 ∨ code.toNat = 8) := by
    rw [BitVec.toNat_eq, BitVec.toNat_eq]
    rfl
  unfold oldLands
  rw [← signed, ← plain]
  simp only [unsigned]
  generalize code.toNat = c
  generalize v.toNat % 2 ^ (8 * (if dbl then 8 else 4)) = old
  by_cases assigned : 9 < c
  · have unassigned : aopOfCode c = none := by
      unfold aopOfCode
      split
      case h_11 => rfl
      all_goals omega
    rw [unassigned, if_neg (show ¬ (c = 7 ∨ c = 8) by omega), if_pos assigned]
    exact ⟨fun a h => (nomatch h), fun _ => rfl⟩
  · refine ⟨fun a h => ?_, fun h => ?_⟩
    · interval_cases c <;> (obtain rfl := Option.some.inj h; rfl)
    · interval_cases c <;> exact nomatch h

theorem linkOperationsComplete : Claims.LinkOperationsComplete := by
  intro s num id o found
  have run (r : Reply) : exec (.linkReply num r) s = .next (s.linkAnswer num r) := rfl
  refine ⟨?_, fun v => ?_, fun bs s1 written => ?_, fun va => ?_, ?_⟩
  · rw [run]
    unfold State.linkAnswer
    simp only [found]
  · obtain ⟨known, unknown⟩ := aopResult_code o.aop o.dbl v
    change exec (.linkReply num (.old v)) s = .next (State.linkDone (if (s.task id).phase = .resident
      then (s.modThread id (fun t => t.landLink num (oldLands o.aop o.dbl v))).acquire (s.task id).ctx
      else s.modThread id (fun t => t.landLink num (oldLands o.aop o.dbl v))) id o)
    rw [run]
    unfold State.linkAnswer
    cases op : aopOfCode o.aop.toNat with
    | none => simp only [found, op, unknown op, beq_iff_eq]
    | some a => simp only [found, op, known a op, beq_iff_eq]
  · rw [run]
    unfold State.linkAnswer
    simp only [found, written]
  · rw [run]
    unfold State.linkAnswer
    simp only [found]
  · rw [run]
    unfold State.linkAnswer
    simp only [found]

theorem linkOperations : Claims.LinkOperations := ⟨linkOperationsLeave, linkOperationsComplete⟩

end Sys2Proof.Proofs
end

section
/-!
Operations of other packages at this one: writes, reads and atomics, messages, page requests, and a failing path
(R117, R165, R335, R340, R363, R369 to R373).
-/

namespace Sys2Proof.Machine

open Sys2Proof.Laws Sys2Proof.Claims

/-! ## Writes within a granule (R72) -/

/-- Bytes within a granule are one piece. -/
theorem pieces_within {pa : Nat} {bs : List Byte} (some : bs ≠ []) (h : pa % 64 + bs.length ≤ 64) : pieces pa bs = [(pa, bs)] := by
  obtain ⟨b, bs, rfl⟩ := List.exists_cons_of_ne_nil some
  unfold pieces
  have split (n : Nat) : splitGranules (n + 1) pa (b :: bs) = (pa, (b :: bs).take (64 - pa % 64)) ::
      splitGranules n (pa + (64 - pa % 64)) ((b :: bs).drop (64 - pa % 64)) := rfl
  rw [split, List.take_of_length_le (by omega), List.drop_eq_nil_of_le (by omega)]
  rfl
/-- `u` is `s` with bytes written within a granule, its check made anew. -/
structure State.Made (s : State) (pa : Nat) (bs : List Byte) (u : State) : Prop where
  only : u = { s with mem := u.mem, checks := u.checks }
  sound : u.checkOk (pa / 64) = true
  bytes : ∀ y, u.byte y = if pa ≤ y ∧ y < pa + bs.length then bs.getD (y - pa) 0 else s.byte y
/-- A write of a whole granule, or to one whose check holds, is made. -/
theorem State.writeGranule_made (s : State) (pa : Nat) (bs : List Byte) (h : 64 ≤ bs.length ∨ s.checkOk (pa / 64) = true) :
    ∃ u, s.writeGranule pa bs = (u, true) ∧ s.Made pa bs u := by
  have run : s.writeGranule pa bs = (({ s with mem := putBytes s.mem pa bs } : State).remake (pa / 64), true) := by
    unfold State.writeGranule
    refine if_neg ?_
    rcases h with h | h <;> simp [h]
  exact ⟨_, run, rfl, State.checkOk_remake _ _, fun y => mget_putBytes s.mem pa bs y⟩
/-- A write to a part of a granule whose check fails stores nothing. -/
theorem State.writeGranule_refused {s : State} {pa : Nat} {bs : List Byte} (part : bs.length < 64)
    (bad : s.checkOk (pa / 64) = false) : s.writeGranule pa bs = (s, false) := by
  unfold State.writeGranule
  simp [part, bad]

/-! ## Accesses of other packages (R369 to R371) -/

/-- The size of a page is a multiple of a granule. -/
theorem dvd_leafSize (lv p : Nat) : 64 ∣ leafSize lv p := by
  unfold leafSize
  split
  · decide
  · split
    · split <;> decide
    · decide
/-- A remote access keeps the place in the granule. -/
theorem State.farAcc_mod {s s1 : State} {x : Sender} {k : AccK} {va pa tag : Nat} {p dead : Bool}
    (h : s.farAcc x k va = (s1, .ok pa p dead tag)) : pa % 64 = va % 64 := by
  unfold State.farAcc at h
  split at h
  · exact nomatch congrArg Prod.snd h
  split at h
  · exact nomatch congrArg Prod.snd h
  · exact nomatch congrArg Prod.snd h
  · next e lv a _ =>
    rw [State.checkLeaf_ok (congrArg Prod.snd h)]
    obtain ⟨m, size⟩ := dvd_leafSize lv e
    generalize leafSize lv e = n at size ⊢
    rw [size, Nat.mul_comm, Nat.mul_assoc, Nat.mul_add_mod, Nat.mod_mul_right_mod]

variable {s s1 : State} {x : Sender}

theorem State.farWrite_made {va pa tag : Nat} {p dead : Bool} {bs : List Byte}
    (acc : s.farAcc x .store va = (s1, .ok pa p dead tag)) (h : bs.length = 64 ∨ s1.checkOk (pa / 64) = true) :
    ∃ u, s.farWrite x [(va, bs)] = ((u.strike pa bs.length).remoteVisible [pa / 64], true) ∧ s1.Made pa bs u := by
  obtain ⟨u, run, made⟩ := s1.writeGranule_made pa bs (h.imp_left fun e => Nat.le_of_eq e.symm)
  refine ⟨u, ?_, made⟩
  unfold State.farWrite
  simp only [acc, run]
  rfl
theorem State.farWrite_refused {va : Nat} {a : Acc} {bs : List Byte} (acc : s.farAcc x .store va = (s1, a)) (short : bs.length ≤ 64)
    (h : ∀ pa p d tag, a = .ok pa p d tag → bs.length ≠ 64 ∧ s1.checkOk (pa / 64) = false) :
    s.farWrite x [(va, bs)] = (s1, false) := by
  unfold State.farWrite
  cases a with
  | ok pa p d tag =>
    obtain ⟨part, bad⟩ := h pa p d tag rfl
    simp only [acc, State.writeGranule_refused (show bs.length < 64 by omega) bad]
  | pageFault => simp only [acc]
  | prot => simp only [acc]
  | owner => simp only [acc]
theorem State.farRead_sound {va n pa tag : Nat} {d : Bool} (acc : s.farAcc x .load va = (s1, .ok pa false d tag))
    (soft : s1.hardMem pa = false) (sound : s1.checkOk (pa / 64) = true) :
    s.farRead x [(va, n)] = (s1, some (s1.bytes pa n)) := by
  unfold State.farRead
  simp only [acc, soft, sound]
  unfold State.farRead
  simp
theorem State.farRead_refused {va n : Nat} {a : Acc} (acc : s.farAcc x .load va = (s1, a))
    (h : ∀ pa p d tag, a = .ok pa p d tag → s1.hardMem pa = false ∧ (p = true ∨ s1.checkOk (pa / 64) = false)) :
    s.farRead x [(va, n)] = (s1, none) := by
  unfold State.farRead
  cases a with
  | ok pa p d tag =>
    obtain ⟨soft, bad⟩ := h pa p d tag rfl
    simp only [acc, soft, Bool.and_false, Bool.false_eq_true, if_false]
    exact if_pos (by rcases bad with e | e <;> simp [e])
  | pageFault => simp only [acc]
  | prot => simp only [acc]
  | owner => simp only [acc]

/-- The new value of an atomic by its code. -/
theorem aopNew_code {c n : Nat} (hc : c ≤ 9) (old b d : BitVec (8 * n)) :
    ∃ o, aopOfCode c = some o ∧ aopNew o n old.toNat b.toNat d.toNat = (atomNew (8 * n) c old b d).toNat := by
  have flip {p q : Prop} [Decidable p] [Decidable q] (h : q ↔ ¬ p) :
      (if p then b.toNat else old.toNat) = (if q then old else b).toNat := by
    by_cases hp : p <;> simp [h, hp]
  interval_cases c
  · exact ⟨_, rfl, rfl⟩
  · exact ⟨_, rfl, (BitVec.toNat_add old b).symm⟩
  · exact ⟨_, rfl, rfl⟩
  · exact ⟨_, rfl, rfl⟩
  · exact ⟨_, rfl, rfl⟩
  · exact ⟨_, rfl, by simp only [aopNew, atomNew, BitVec.ofNat_toNat, BitVec.setWidth_eq]; exact flip (Int.not_lt.symm)⟩
  · exact ⟨_, rfl, by simp only [aopNew, atomNew, BitVec.ofNat_toNat, BitVec.setWidth_eq]; exact flip (Int.not_lt.symm)⟩
  · exact ⟨_, rfl, flip (Nat.not_lt.symm)⟩
  · exact ⟨_, rfl, flip (Nat.not_lt.symm)⟩
  · exact ⟨_, rfl, by simp only [aopNew, atomNew, BitVec.toNat_inj]; split <;> rfl⟩
/-- A remote atomic at an aligned sound word writes its new value and gives the old one. -/
theorem State.farAtomic_made {va n pa tag : Nat} {d : Bool} (o : Aop) (b c : Nat) (aligned : va % n = 0)
    (acc : s.farAcc x .store va = (s1, .ok pa false d tag)) (soft : s1.hardMem pa = false)
    (sound : s1.checkOk (pa / 64) = true) :
    ∃ u, s.farAtomic x va o n b c =
        ((u.strike pa n).remoteVisible [pa / 64], some (leVal (s1.bytes pa n))) ∧
      s1.Made pa (leList n (aopNew o n (leVal (s1.bytes pa n)) b c)) u := by
  obtain ⟨u, run, made⟩ := s1.writeGranule_made pa (leList n (aopNew o n (leVal (s1.bytes pa n)) b c)) (.inr sound)
  refine ⟨u, ?_, made⟩
  unfold State.farAtomic
  simp only [aligned, acc, soft, sound, run]
  rfl

/-! ## Mailboxes (R165, R365) -/

/-- A write within one granule leaves the check of another one. -/
theorem State.Made.checkOk {u : State} {pa g : Nat} {bs : List Byte} (h : s.writeGranule pa bs = (u, true))
    (within : pa % 64 + bs.length ≤ 64) (hg : g ≠ pa / 64) : u.checkOk g = s.checkOk g := by
  rcases s.writeGranule_cases pa bs with ⟨e, -, -⟩ | ⟨k, e, -, -⟩
  · rw [e] at h; exact nomatch congrArg Prod.snd h
  · rw [e] at h
    obtain rfl := congrArg Prod.fst h
    have granule : ({ s with mem := putBytes s.mem pa bs, checks := mset s.checks (pa / 64) k } : State).granule g = s.granule g :=
      byteList_congr 64 (64 * g) fun y h1 h2 => mget_putBytes_out s.mem pa bs y (by omega)
    unfold State.checkOk
    rw [granule]
    dsimp only
    rw [mget_mset_ne _ hg]
/-- An update of granules whose checks hold stores its bytes. -/
theorem State.updateOnes_sound (id : Nat) : ∀ (n pa : Nat) (bs : List Byte) (s : State), pa % 64 + bs.length ≤ 64 * n →
    (∀ g, pa / 64 ≤ g → 64 * g < pa + bs.length → s.checkOk g = true) → ∀ y,
    ((splitGranules n pa bs).foldl (State.updateOne id) s).byte y =
      if pa ≤ y ∧ y < pa + bs.length then bs.getD (y - pa) 0 else s.byte y
  | 0, pa, bs, s, room, _, y => by
    rw [if_neg (by omega)]; rfl
  | n + 1, pa, [], s, _, _, y => by
    rw [if_neg (by simp)]; rfl
  | n + 1, pa, b :: bs, s, room, sound, y => by
    have length : ((b :: bs).take (64 - pa % 64)).length = min (64 - pa % 64) (b :: bs).length := List.length_take
    have pos : 0 < (b :: bs).length := Nat.succ_pos _
    obtain ⟨u, run, made⟩ := s.writeGranule_made pa ((b :: bs).take (64 - pa % 64)) (.inr (sound _ (Nat.le_refl _) (by omega)))
    have one : s.updateOne id (pa, (b :: bs).take (64 - pa % 64)) = u := by
      unfold State.updateOne
      simp only [run]
    have split : splitGranules (n + 1) pa (b :: bs) = (pa, (b :: bs).take (64 - pa % 64)) ::
        splitGranules n (pa + (64 - pa % 64)) ((b :: bs).drop (64 - pa % 64)) := rfl
    rw [split, List.foldl_cons, one, State.updateOnes_sound id n _ _ u (by rw [List.length_drop]; omega) fun g h1 h2 => by
      rw [List.length_drop] at h2
      rw [State.Made.checkOk run (by omega) (by omega)]
      exact sound g (by omega) (by omega), made.bytes, length, List.length_drop]
    generalize b :: bs = l at *
    by_cases first : pa ≤ y ∧ y < pa + min (64 - pa % 64) l.length
    · rw [if_neg (by omega), if_pos first, if_pos (by omega), List.getD_eq_getElem?_getD, List.getElem?_take_of_lt (by omega),
        ← List.getD_eq_getElem?_getD]
    · rw [if_neg first]
      by_cases later : pa + (64 - pa % 64) ≤ y ∧ y < pa + l.length
      · rw [if_pos (by omega), if_pos (by omega), List.getD_eq_getElem?_getD, List.getElem?_drop, ← List.getD_eq_getElem?_getD]
        congr 1
        omega
      · rw [if_neg (by omega), if_neg (by omega)]
theorem State.bytes_updateFor_sound (s : State) (id pa : Nat) (bs : List Byte)
    (sound : ∀ g ∈ granulesOf pa bs.length, s.checkOk g = true) : (s.updateFor id pa bs).bytes pa bs.length = bs := by
  refine byteList_getD _ bs pa fun i hi => ?_
  rw [State.updateFor_eq]
  unfold pieces
  rw [State.updateOnes_sound id _ pa bs s (by omega) fun g h1 h2 => sound g ?_]
  · rw [if_pos (by omega), Nat.add_sub_cancel_left]
  · unfold granulesOf
    rw [if_neg (by omega)]
    exact List.mem_map.mpr ⟨g - pa / 64, List.mem_range.mpr (by omega), by omega⟩

/-- Sending a message changes what goes out, or the link's arrivals. -/
theorem State.emit_rest (s : State) (m : OutMsg) : s.emit m = { s with linkIn := (s.emit m).linkIn, out := (s.emit m).out } := by
  unfold State.emit
  split
  · split <;> rfl
  · rfl
/-- The header of a mailbox is its first 256 bytes. -/
theorem State.byte_mailHead (s : State) (id y : Nat) (h : y < (s.task id).mailPa ∨ (s.task id).mailPa + 256 ≤ y) :
    (s.mailHead id).byte y = s.byte y := by
  unfold State.mailHead State.update
  exact s.byte_updateFor_out 0 _ _ y (by rw [length_fitBytes]; exact h)

/-- What the delivery of a message to a live mailbox leaves. -/
theorem State.deliver_delivered {id : Nat} {bs : List Byte} (live : s.mailLive id = true) (short : bs.length ≤ 256) :
    let slot := (s.task id).mailSlot (s.task id).mail.length
    let t := s.deliver x id bs
    (t.task id).mail = (s.task id).mail ++ [bs.length] ∧ (∀ c ≠ id, t.task c = s.task c) ∧
    ((∀ g ∈ granulesOf slot bs.length, s.checkOk g = true) → t.bytes slot bs.length = bs) ∧
    (∀ y, y < (s.task id).mailPa ∨ (s.task id).mailPa + 8192 ≤ y → t.byte y = s.byte y) ∧
    ((s.task id).phase = .resident → (s.thr (s.task id).ctx).idle ≠ none → (t.thr (s.task id).ctx).woken = true) := by
  intro slot t
  have high : (s.task id).mailPa + 256 ≤ slot ∧ slot + 256 ≤ (s.task id).mailPa + 8192 := by
    unfold slot Task.mailSlot
    omega
  have gang : (s.task id).gang ≠ 0 := by
    unfold State.mailLive at live
    simp only [Bool.and_eq_true, bne_iff_ne] at live
    exact live.1
  -- the states between: the slot, the list of lengths, the header, the thread
  obtain ⟨u, hu⟩ : ∃ u, u = s.updateFor id slot bs := ⟨_, rfl⟩
  obtain ⟨v, hv⟩ : ∃ v, v = u.modTask id (fun t => { t with mail := t.mail ++ [bs.length] }) := ⟨_, rfl⟩
  obtain ⟨w, hw⟩ : ∃ w, w = v.mailHead id := ⟨_, rfl⟩
  have run : t = (w.modThread id (fun t => if t.idle.isSome then { t with woken := true } else t)).answer x .done := by
    unfold t State.deliver
    rw [live, hw, hv, hu]
    rfl
  have rest := s.updateFor_rest id slot bs
  rw [← hu] at rest
  have uTask (j : Nat) : u.task j = s.task j := by unfold State.task; rw [rest]
  have vOnly : u.OnlyTasks v := hv ▸ u.modTask_only id _
  have vTask : v.task id = { s.task id with mail := (s.task id).mail ++ [bs.length] } := by
    rw [hv, u.task_modTask_same id _ (by rw [uTask]; exact gang), uTask]
  obtain ⟨wTasks, wThreads⟩ := v.mailHead_rest id
  rw [← hw] at wTasks wThreads
  have wTask (j : Nat) : w.task j = v.task j := by unfold State.task; rw [wTasks]
  have tTask (j : Nat) : t.task j = v.task j := by
    rw [← wTask, run]
    unfold State.answer State.task
    rw [State.emit_rest, State.modThread_rest]
  have tByte (y : Nat) : t.byte y = w.byte y := by
    rw [run]
    unfold State.answer State.byte
    rw [State.emit_rest, State.modThread_rest]
  have vByte (y : Nat) : v.byte y = u.byte y := by unfold State.byte; rw [vOnly.mem]
  have box : (v.task id).mailPa = (s.task id).mailPa := by rw [vTask]
  have wByte (y : Nat) (h : y < (s.task id).mailPa ∨ (s.task id).mailPa + 256 ≤ y) : t.byte y = u.byte y := by
    rw [tByte, hw, v.byte_mailHead id y (by rw [box]; exact h), vByte]
  refine ⟨?_, fun c hc => ?_, fun sound => ?_, fun y hy => ?_, fun here waits => ?_⟩
  · rw [tTask, vTask]
  · rw [tTask, hv, u.task_modTask_ne hc, uTask]
  · have stored := s.bytes_updateFor_sound id slot bs sound
    rw [← hu] at stored
    exact (byteList_congr _ _ fun y h1 _ => wByte y (by omega)).trans stored
  · rw [wByte y (by omega), hu]
    exact s.byte_updateFor_out id slot bs y (by omega)
  · have thr (c : Ctx) : w.thr c = s.thr c := by
      unfold State.thr
      rw [wThreads, vOnly, rest]
    have ctx : (w.task id).ctx = (s.task id).ctx := by rw [wTask, vTask]
    have woken := State.thr_modThread_resident (s := w) (id := id) (fun t => if t.idle.isSome then { t with woken := true } else t)
      (by rw [wTask, vTask]; exact here)
    rw [ctx, thr, if_pos (Option.isSome_iff_ne_none.mpr waits)] at woken
    have same (u : State) (c : Ctx) (r : Reply) : (u.answer x r).thr c = u.thr c := by
      unfold State.answer State.thr
      rw [State.emit_rest]
    rw [run, same, woken]

/-! ## Page requests (R335, R340) -/

theorem State.farPut_made {pa : Nat} {bs : List Byte} (inside : inAttention pa = true) (soft : s.hardMem pa = false)
    (h : 64 ≤ bs.length ∨ s.checkOk (pa / 64) = true) :
    ∃ u, s.farPut x [(pa, bs)] = (u, .done) ∧ s.Made pa bs u := by
  obtain ⟨u, run, made⟩ := s.writeGranule_made pa bs h
  refine ⟨u, ?_, made⟩
  unfold State.farPut
  simp only [inside, soft, run, Bool.not_true, Bool.and_false, Bool.false_eq_true, if_false]
  rfl
theorem State.farPut_refused {pa : Nat} {bs : List Byte} (inside : inAttention pa = true) (soft : s.hardMem pa = false)
    (part : bs.length < 64) (bad : s.checkOk (pa / 64) = false) : s.farPut x [(pa, bs)] = (s, .pageBad none false) := by
  unfold State.farPut
  simp only [inside, soft, State.writeGranule_refused part bad]
  simp

/-! ## Paths that fail (R363, R373) -/

/-- `t` has the memory and the lost paths of `s`. -/
def State.PathsKept (s t : State) : Prop := t.mem = s.mem ∧ t.badPorts = s.badPorts

theorem State.PathsKept.trans {s t u : State} (h : s.PathsKept t) (k : t.PathsKept u) : s.PathsKept u :=
  ⟨k.1.trans h.1, k.2.trans h.2⟩
theorem State.Reported.pathsKept {s t : State} (h : s.Reported t) : s.PathsKept t := by
  unfold State.Reported at h
  rw [h]
  exact ⟨rfl, rfl⟩
theorem State.OnlyTasks.pathsKept {s t : State} (h : s.OnlyTasks t) : s.PathsKept t := by
  unfold State.OnlyTasks at h
  rw [h]
  exact ⟨rfl, rfl⟩
theorem State.emit_pathsKept (s : State) (m : OutMsg) : s.PathsKept (s.emit m) := by
  rw [s.emit_rest m]
  exact ⟨rfl, rfl⟩
theorem State.toMembers_pathsKept (s : State) (l : List (BitVec 10)) (m : CollMsg) : s.PathsKept (s.toMembers l m) :=
  List.foldlRecOn (motive := s.PathsKept) _ _ ⟨rfl, rfl⟩ fun t h _ _ => h.trans (t.emit_pathsKept _)
theorem State.linkFail_pathsKept (s : State) (id : Nat) (o : LinkOp) (addr : Nat) : s.PathsKept (s.linkFail id o addr) :=
  (s.engEnd_reported ..).pathsKept.trans (State.dropOp_only ..).pathsKept
theorem State.collFail_pathsKept (s : State) (tag : W32) (k : Nat) : s.PathsKept (s.collFail tag k) := by
  have colls (l : List Coll) : s.PathsKept { s with colls := l } := ⟨rfl, rfl⟩
  unfold State.collFail
  split
  · exact ⟨rfl, rfl⟩
  · split
    · exact ⟨rfl, rfl⟩
    · dsimp only
      split
      · exact colls _
      · exact (colls _).trans ((State.toMembers_pathsKept ..).trans (State.linkFail_pathsKept ..))
theorem State.atEndDropped_pathsKept (s : State) (i : Nat) (code : BitVec 8) (addr pos : Nat) :
    s.PathsKept ((s.atEnd i code addr pos).dropAt i) :=
  (s.engEnd_reported ..).pathsKept.trans ⟨rfl, rfl⟩
theorem State.cutOff_pathsKept (s : State) : s.PathsKept s.cutOff := by
  unfold State.cutOff
  extract_lets gone s1 s2
  have ops : s.PathsKept s1 := by
    unfold s1
    exact List.foldlRecOn (motive := s.PathsKept) _ _ ⟨rfl, rfl⟩ fun t h _ _ => h.trans (t.linkFail_pathsKept ..)
  have colls : s1.PathsKept s2 := by
    unfold s2
    exact List.foldlRecOn (motive := s1.PathsKept) _ _ ⟨rfl, rfl⟩ fun t h _ _ => h.trans (t.collFail_pathsKept ..)
  refine (ops.trans colls).trans ?_
  exact List.foldlRecOn (motive := s2.PathsKept) _ _ ⟨rfl, rfl⟩ fun t h _ _ => h.trans (t.atEndDropped_pathsKept ..)

end Sys2Proof.Machine

namespace Sys2Proof.Proofs

open Sys2Proof.Laws Sys2Proof.Machine Sys2Proof.Claims

theorem remoteWrites : Claims.RemoteWrites := by
  intro s s1 x va bs a some within acc
  have run : exec (.remoteWrite x va bs) s = match s.farWrite x [(va.toNat, bs)] with
      | (s1, true) => .next (s1.answer x .done)
      | (s1, false) => .next (s1.answer x (.failed va)) := by
    rw [← pieces_within some within]; rfl
  refine ⟨fun pa p d tag ok h => ?_, fun h => ?_⟩
  · subst ok
    obtain ⟨u, wrote, made⟩ := State.farWrite_made acc h
    rw [wrote] at run
    exact ⟨u, _, run, rfl, made.bytes, made.sound, made.only⟩
  · rw [State.farWrite_refused acc (by omega) h] at run
    exact ⟨_, run, rfl⟩

theorem remoteReads : Claims.RemoteReads := by
  intro s s1 x va n a some within acc
  have run : exec (.remoteRead x va n) s = match s.farRead x [(va.toNat, n)] with
      | (s1, .some bs) => .next (s1.answer x (.bytes bs))
      | (s1, none) => .next (s1.answer x (.failed va)) := by
    rw [← vaPieces_within some within]; rfl
  refine ⟨fun pa d tag ok soft sound => ?_, fun h => ?_⟩
  · subst ok
    rw [State.farRead_sound acc soft sound] at run
    exact ⟨_, run, rfl⟩
  · rw [State.farRead_refused acc h] at run
    exact ⟨_, run, rfl⟩

/-- A remote atomic on words of w bits. -/
theorem remoteAtomic_made {s s1 : State} {x : Sender} {va b d : Word} {code : BitVec 4} {dbl dead : Bool} {w pa tag : Nat}
    (whole : w = 8 * (w / 8)) (width : w / 8 = if dbl then 8 else 4) (assigned : code.toNat ≤ 9)
    (aligned : va.toNat % (w / 8) = 0) (acc : s.farAcc x .store va.toNat = (s1, .ok pa false dead tag))
    (soft : s1.hardMem pa = false) (sound : s1.checkOk (pa / 64) = true) :
    let old := BitVec.ofNat w (leVal (s1.bytes pa (w / 8)))
    ∃ s2 t : State, exec (.remoteAtomic x va code dbl b d) s = .next t ∧
      Answered ((s2.strike pa (w / 8)).remoteVisible [pa / 64]) t x (.old (BitVec.ofNat 64 old.toNat)) ∧
      s2 = { s1 with mem := s2.mem, checks := s2.checks } ∧
      ∀ y, s2.byte y = if pa ≤ y ∧ y < pa + w / 8 then BitVec.ofNat 8 ((atomNew w code.toNat old
        (BitVec.ofNat w b.toNat) (BitVec.ofNat w d.toNat)).toNat / 256 ^ (y - pa)) else s1.byte y := by
  generalize w / 8 = n at *
  subst whole
  intro old
  have oldNat : old.toNat = leVal (s1.bytes pa n) := by
    have small := leVal_lt (s1.bytes pa n)
    rw [show (s1.bytes pa n).length = n from length_byteList .., show 256 ^ n = 2 ^ (8 * n) by rw [Nat.pow_mul]] at small
    unfold old
    rw [BitVec.toNat_ofNat, Nat.mod_eq_of_lt small]
  obtain ⟨o, op, new⟩ := aopNew_code assigned old (BitVec.ofNat (8 * n) b.toNat) (BitVec.ofNat (8 * n) d.toNat)
  rw [oldNat, BitVec.toNat_ofNat, BitVec.toNat_ofNat] at new
  obtain ⟨u, wrote, made⟩ := State.farAtomic_made o (b.toNat % 2 ^ (8 * n)) (d.toNat % 2 ^ (8 * n)) aligned acc soft sound
  have run : exec (.remoteAtomic x va code dbl b d) s =
      .next (((u.strike pa n).remoteVisible [pa / 64]).answer x (.old (BitVec.ofNat 64 (leVal (s1.bytes pa n))))) := by
    show execRemoteAtomic x va code dbl b d s = _
    unfold execRemoteAtomic
    simp only [op, ← width, wrote]
  refine ⟨u, _, run, by rw [oldNat]; rfl, made.only, fun y => ?_⟩
  rw [made.bytes, new, length_leList]
  split
  · exact getD_leList n _ _ (by omega)
  · rfl
theorem remoteAtomics : Claims.RemoteAtomics := by
  intro s x va code dbl b d w
  have width : w / 8 = (if dbl then 8 else 4) ∧ w = 8 * (w / 8) := by
    unfold w
    cases dbl <;> decide
  refine ⟨fun s1 pa dead tag assigned aligned acc soft sound _ => ?_, fun bad => ?_⟩
  · exact remoteAtomic_made width.2 width.1 assigned aligned acc soft sound
  · refine ⟨_, ?_, rfl⟩
    show execRemoteAtomic x va code dbl b d s = _
    unfold execRemoteAtomic
    dsimp only
    cases op : aopOfCode code.toNat with
    | none => rfl
    | some o =>
      have odd : (va.toNat % (if dbl then 8 else 4) != 0) = true := by
        rcases bad with unassigned | odd
        · refine absurd op ?_
          unfold aopOfCode
          split
          case h_11 => simp
          all_goals omega
        · rw [← width.1]
          exact bne_iff_ne.mpr odd
      unfold State.farAtomic
      simp only [odd, if_true]
      rfl

theorem mailDelivery : Claims.MailDelivery := by
  intro s x task bs id box slot behind
  have run : exec (.mailboxDelivery x task bs) s = .next
      (if s.mailWait.any (fun p => p.1.who.pkg == x.who.pkg) || (s.mailLive id && (s.task id).mail.length ≥ 31)
        then { s with mailWait := s.mailWait ++ [(x, task, bs)] } else s.deliver x id bs) := rfl
  have waits : s.mailWait.any (fun p => p.1.who.pkg == x.who.pkg) = true ↔ behind := by
    simp only [List.any_eq_true, beq_iff_eq, behind]
  refine ⟨fun live room first short => ?_, fun h => ?_, fun dead first => ?_⟩
  · have stays : ¬ (behind ∨ s.mailLive id = true ∧ (s.task id).mail.length ≥ 31) := fun h => h.elim first fun full => by omega
    rw [if_neg (by simpa only [Bool.or_eq_true, Bool.and_eq_true, waits, decide_eq_true_eq] using stays)] at run
    obtain ⟨mail, others, bytes, outside, woken⟩ := State.deliver_delivered (x := x) live short
    exact ⟨_, run, mail, others, bytes, outside, woken⟩
  · rw [run, if_pos (by simpa only [Bool.or_eq_true, Bool.and_eq_true, waits, decide_eq_true_eq] using h)]
  · rw [if_neg (by simp [waits, first, dead])] at run
    refine ⟨_, run, ?_⟩
    unfold State.deliver
    rw [dead]
    rfl

theorem pageRequests : Claims.PageRequests := by
  intro s x block n pa bs a page entry read there good
  have get : exec read s = execRemotePageRequest x { block := block, len := n } s := rfl
  have put (bytes : bs ≠ []) (within : pa % 64 + bs.length ≤ 64) :
      exec (.remotePageRequest x { block := block, put := some (pa, bs) }) s =
        .next ((s.farPut x [(pa, bs)]).1.answer x (s.farPut x [(pa, bs)]).2) := by
    rw [← pieces_within bytes within]; rfl
  unfold execRemotePageRequest at get
  dsimp only at get
  have held (h : there) : ¬ block.toNat ≥ s.regs.atgSize.toNat := Nat.not_le.mpr h.1
  have whole (h : there) (granule : s.checkOk (a / 64) = true) (valid : s.word a % 2 = 1) (inside : inAttention page = true)
      (soft : ∀ g ∈ granulesOf page n, s.hardMem (64 * g) = false) :
      exec read s = if (granulesOf page n).all s.checkOk then .next (s.answer x (.page (some entry) (s.bytes page n)))
        else .next (s.answer x (.pageBad (some entry) false)) := by
    have find : (granulesOf page n).find? (fun g => s.hardMem (64 * g)) = none := by
      rw [List.find?_eq_none]
      exact fun g hg => by rw [soft g hg]; decide
    have usable : ¬ (decide (s.word a % 2 = 0) || !inAttention page) = true := by
      rw [valid, inside]; decide
    rw [if_neg (held h), h.2, granule] at get
    refine get.trans ((if_neg Bool.false_ne_true).trans ((if_neg (by decide)).trans ((if_neg usable).trans ?_)))
    split
    · next hit => exact nomatch find.symm.trans hit
    · rfl
  refine ⟨fun beyond => ?_, fun h bad => ?_, fun h soft => ⟨fun sound => ?_, fun broken => ?_⟩,
    fun inside some within soft => ⟨fun h => ?_, fun part bad => ?_⟩⟩
  · exact ⟨_, get.trans (if_pos beyond), rfl⟩
  · rw [if_neg (held h), h.2, bad] at get
    exact ⟨_, get, rfl⟩
  · obtain ⟨h, granule, valid, inside⟩ := h
    refine ⟨s.answer x (.page (some entry) (s.bytes page n)), (whole h granule valid inside soft).trans ?_, rfl⟩
    exact if_pos (List.all_eq_true.mpr sound)
  · obtain ⟨h, granule, valid, inside⟩ := h
    refine ⟨s.answer x (.pageBad (some entry) false), (whole h granule valid inside soft).trans ?_, rfl⟩
    refine if_neg fun all => ?_
    obtain ⟨g, hg, bad⟩ := broken
    rw [List.all_eq_true.mp all g hg] at bad
    exact nomatch bad
  · obtain ⟨u, wrote, made⟩ := State.farPut_made (x := x) inside soft h
    have run := put some within
    rw [wrote] at run
    exact ⟨u, _, run, rfl, made.only, made.sound, made.bytes⟩
  · have run := put some within
    rw [State.farPut_refused inside soft part bad] at run
    exact ⟨_, run, rfl⟩

theorem pathFailure : Claims.PathFailure := by
  intro s port
  refine ⟨_, rfl, ?_⟩
  unfold State.pathFails
  extract_lets s1 lost
  obtain ⟨mem, ports⟩ := State.cutOff_pathsKept { s1 with unreach := (s1.unreach ++ lost).eraseDups }
  refine ⟨mem, fun q => ?_⟩
  rw [ports]
  show q ∈ (if s.badPorts.contains port then s.badPorts else s.badPorts ++ [port]) ↔ _
  split
  · next h =>
    rw [List.contains_iff_mem] at h
    exact ⟨.inr, fun hq => hq.elim (fun e => e ▸ h) id⟩
  · rw [List.mem_append, List.mem_singleton, or_comm]

theorem remoteOperations : Claims.RemoteOperations :=
  ⟨remoteWrites, remoteReads, remoteAtomics, mailDelivery, pageRequests, pathFailure⟩
/-- Settles O60, by what each operation does at its sender and at its target. -/
theorem linkTraffic : Obligations.LinkTraffic := ⟨linkOperations, remoteOperations⟩

end Sys2Proof.Proofs
end

section
/-!
Spills into a save area (R154, R155): slices of the maps of a context, and where the pieces of a save area stand in memory.
-/

namespace Sys2Proof.Machine

open Sys2Proof.Laws Sys2Proof.Claims

/-! ## Slices -/

/-- A slice holds what its range held. -/
theorem mget_mslice {α : Type} [Inhabited α] (lo : Nat) {n k : Nat} (m : SMap α) (hk : k < n) :
    mget (mslice lo n m) k = mget m (lo + k) := by
  unfold mslice
  induction m with
  | nil => rfl
  | cons p m ih =>
    obtain ⟨j, v⟩ := p
    by_cases inside : (decide (lo ≤ j) && decide (j < lo + n)) = true
    · rw [List.filter_cons_of_pos (by exact inside), List.map_cons, mget, mget, ih]
      simp only [Bool.and_eq_true, decide_eq_true_eq] at inside
      exact if_congr (by omega) rfl rfl
    · rw [List.filter_cons_of_neg (by exact inside), ih, mget, if_neg]
      simp only [Bool.and_eq_true, decide_eq_true_eq] at inside
      omega
/-- A slice put in place is what its range holds. -/
theorem mget_msplice_in {α : Type} [Inhabited α] (lo : Nat) {n k : Nat} (sl m : SMap α) (hk : k < n) :
    mget (msplice lo n sl m) (lo + k) = mget sl k := by
  have shifted : mget (sl.map (fun p => (p.1 + lo, p.2))) (lo + k) = mget sl k := by
    induction sl with
    | nil => rfl
    | cons p sl ih =>
      rw [List.map_cons, mget, mget, ih]
      exact if_congr (by omega) rfl rfl
  have before : ∀ p ∈ m.filter (fun p => decide (p.1 < lo)), p.1 ≠ lo + k := fun p hp => by
    have := of_decide_eq_true (List.mem_filter.mp hp).2
    omega
  have behind : ∀ p ∈ m.filter (fun p => decide (lo + n ≤ p.1)), p.1 ≠ lo + k := fun p hp => by
    have := of_decide_eq_true (List.mem_filter.mp hp).2
    omega
  unfold msplice
  rw [mget_append_left _ _ _ behind, mget_append_right _ _ _ before, shifted]

/-! ## Pieces of the save area (R154) -/

/-- A byte that some piece covers, of which all pieces that cover it hold the same value, has that value. -/
theorem mget_pieces_agree (pa x : Nat) (v : Byte) (l : List (Nat × List Byte)) (m : SMap Byte)
    (some : ∃ p ∈ l, pa + p.1 ≤ x ∧ x < pa + p.1 + p.2.length)
    (agree : ∀ p ∈ l, pa + p.1 ≤ x ∧ x < pa + p.1 + p.2.length → p.2.getD (x - (pa + p.1)) 0 = v) :
    mget (l.foldl (fun m p => putBytes m (pa + p.1) p.2) m) x = v :=
  (mget_foldl_hits (f := fun _ => v) (hit := fun p => pa + p.1 ≤ x ∧ x < pa + p.1 + p.2.length) (fun _ => rfl) l
    (fun p hp _ => ⟨fun h => (mget_putBytes ..).trans ((if_pos h).trans (agree p hp h)),
      fun h => (mget_putBytes ..).trans (if_neg h)⟩) m).1 some
/-- The abort mark and the records of the elements stand alone in their places; the other pieces lie below the mark, or
behind the elements. -/
theorem saveWords_cases (s : State) (c : Ctx) : ∀ p ∈ s.saveWords c,
    p.1 + p.2.length ≤ 0x49000 ∨ p = (0x49000, List.replicate 64 0) ∨ (∃ e < 512, p = (0x100000 + 3072 * e, s.saveElem c e)) ∨
      0x280000 ≤ p.1 := by
  have granules := length_holdGranules (s.task (s.taskAt c))
  have low {at' m : Nat} {bs : List Byte} (h : bs.length ≤ m) (fits : at' + m ≤ 0x49000) : at' + bs.length ≤ 0x49000 := by omega
  have many {α : Type} (n k : Nat) (f : α → List Byte) (l : List α) (h : ∀ a, (f a).length = n) (hl : l.length ≤ k) :
      (l.flatMap f).length ≤ n * k := (length_flatMap_le n f h l).trans_le (Nat.mul_le_mul_left n hl)
  have upto (n : Nat) : (List.range n).length ≤ n := List.length_range.le
  have cams : ((List.range 8).flatMap (fun n => camImage (mget s.cams (c.toNat * 8 + n))) ++
      words ((List.range 4).map (fun k => (mget s.sst (c.toNat * 4 + k)).toNat))).length ≤ 256 * 8 + 32 := by
    rw [List.length_append, length_words, List.length_map, List.length_range]
    exact Nat.add_le_add_right (many 256 8 _ _ (fun i => length_camImage _) (upto _)) _
  simp only [State.saveWords, List.cons_append, List.nil_append,
    List.forall_mem_cons, List.forall_mem_append, List.forall_mem_map, List.forall_mem_flatMap, abortMark_eq]
  refine ⟨.inl (low length_saveHeader.le (by omega)), .inl (low (length_saveSeq s c).le (by omega)),
    .inl (low (length_saveSys s c).le (by omega)),
    .inl (low (many 32 _ (s.saveIsl c) _ (fun i => length_fitBytes 32 _) (upto _)) (by omega)), .inl (low cams (by omega)),
    .inl (low (many 64 _ _ _ (fun i => length_slotImage _) (upto _)) (by omega)),
    .inl (low (many 64 _ _ _ (fun i => length_saveCmd s c i) (upto _)) (by omega)),
    .inl (low (length_fitBytes 24 _).le (by omega)),
    .inl (low (many 8 32768 _ _ (fun g => length_fitBytes 8 _) granules) (by omega)), .inr (.inl ?_), ?_, ?_⟩
  · trivial
  · exact .inr (.inr (.inr (by omega)))
  · refine ⟨⟨⟨⟨⟨fun e he => .inr (.inr (.inl ⟨e, List.mem_range.mp he, rfl⟩)), ?_⟩, ?_⟩, ?_⟩, ?_⟩, ?_⟩
    all_goals intros; exact .inr (.inr (.inr (by omega)))
/-- A save area marks no abort when it is written. -/
theorem saveMem_mark (s : State) (c : Ctx) (pa : Nat) : mget (s.saveMem c pa) (pa + 0x49000) = 0 := by
  refine mget_pieces_agree pa _ 0 _ _ ⟨(0x49000, List.replicate 64 0), ?_, ?_⟩ fun p hp covers => ?_
  · simp only [State.saveWords, List.cons_append, List.nil_append, abortMark_eq, List.mem_cons, true_or, or_true]
  · rw [List.length_replicate]
    omega
  · rcases saveWords_cases s c p hp with below | rfl | ⟨e, he, rfl⟩ | behind
    · omega
    · rw [Nat.sub_self]; rfl
    · dsimp only at covers; omega
    · omega
/-- The record of an element. -/
theorem saveMem_elem (s : State) (c : Ctx) (pa : Nat) {e i : Nat} (he : e < 512) (hi : i < 3072) :
    mget (s.saveMem c pa) (pa + 0x100000 + 3072 * e + i) = (s.saveElem c e).getD i 0 := by
  refine mget_pieces_agree pa _ _ _ _ ⟨(0x100000 + 3072 * e, s.saveElem c e), ?_, ?_⟩ fun p hp covers => ?_
  · have here : (0x100000 + 3072 * e, s.saveElem c e) ∈ (List.range 512).map (fun e => (0x100000 + 3072 * e, s.saveElem c e)) :=
      List.mem_map.mpr ⟨e, List.mem_range.mpr he, rfl⟩
    unfold State.saveWords
    simp only [List.mem_append]
    exact .inl (.inl (.inl (.inl (.inl (.inr here)))))
  · rw [length_saveElem]
    dsimp only
    omega
  · rcases saveWords_cases s c p hp with below | rfl | ⟨f, hf, rfl⟩ | behind
    · omega
    · rw [List.length_replicate] at covers
      omega
    · rw [length_saveElem] at covers
      dsimp only at covers ⊢
      obtain rfl : f = e := by omega
      congr 1
      omega
    · omega

/-! ## Words of the save area -/

variable {s : State} {c : Ctx}

/-- A written save area, read byte by byte. -/
theorem State.byte_writeSave {pa : Nat} (ok : s.areaOk pa = true) (x : Nat) :
    (s.writeSave c pa).byte x = mget (s.saveMem c pa) x := by
  unfold State.writeSave State.byte
  rw [if_pos ok]
theorem State.word_saveRegs {pa r : Nat} (ok : s.areaOk pa = true) (hr : r < 32) :
    (s.writeSave c pa).word (pa + 0x1000 + 8 * r) = ((s.thr c).get (BitVec.ofNat 5 r)).toNat := by
  unfold State.word State.bytes
  rw [leVal_words _ (pa + 0x1000) ((List.range 32).map (fun r => ((s.thr c).get (BitVec.ofNat 5 r)).toNat) ++
    [(s.thr c).pc.toNat, (s.thr c).sup.toNat,
      ((List.range 32).map (fun r => if (s.thr c).pending (BitVec.ofNat 5 r) then 2 ^ r else 0)).sum, (s.thr c).poison.toNat])
    r ?_ fun i hi => ?_]
  · rw [List.getD_append _ _ _ _ (by rw [List.length_map, List.length_range]; exact hr), List.getD_eq_getElem?_getD,
      List.getElem?_map, List.getElem?_range hr]
    exact Nat.mod_eq_of_lt ((s.thr c).get (BitVec.ofNat 5 r)).isLt
  · rw [List.length_append, List.length_map, List.length_range]
    omega
  · rw [State.byte_writeSave ok, saveMem_regs s c pa _ (by omega), show pa + 0x1000 + 8 * r + i - (pa + 0x1000) = 8 * r + i by omega]
    rfl
/-- The words of the section of the system registers. -/
theorem State.word_saveSection {pa k : Nat} (ok : s.areaOk pa = true) (hk : k < 128) :
    (s.writeSave c pa).word (pa + 0x1400 + 8 * k) = ((List.range 9).map (fun n => (s.sysRead c n).toNat) ++ List.replicate 55 0 ++
      (List.range 9).map (fun n => (s.sysRead c (0x100 + n)).toNat) ++ List.replicate 55 0).getD k 0 % 2 ^ 64 := by
  unfold State.word State.bytes
  refine leVal_words _ (pa + 0x1400) _ k ?_ fun i hi => ?_
  · simp only [List.length_append, List.length_map, List.length_range, List.length_replicate]
    omega
  · rw [State.byte_writeSave ok, saveMem_sys s c pa _ (by omega), show pa + 0x1400 + 8 * k + i - (pa + 0x1400) = 8 * k + i by omega]
    rfl
theorem State.word_saveSys {pa n : Nat} (ok : s.areaOk pa = true) (hn : n < 9) :
    (s.writeSave c pa).word (pa + 0x1400 + 8 * n) = (s.sysRead c n).toNat ∧
    (s.writeSave c pa).word (pa + 0x1600 + 8 * n) = (s.sysRead c (0x100 + n)).toNat := by
  have small (f : Nat → Word) : ((List.range 9).map (fun n => (f n).toNat)).getD n 0 % 2 ^ 64 = (f n).toNat := by
    rw [List.getD_eq_getElem?_getD, List.getElem?_map, List.getElem?_range hn]
    exact Nat.mod_eq_of_lt (BitVec.isLt _)
  constructor
  · rw [State.word_saveSection ok (by omega), List.append_assoc, List.append_assoc, List.getD_append _ _ _ _ (by simpa using hn), small]
  · rw [show pa + 0x1600 + 8 * n = pa + 0x1400 + 8 * (64 + n) by omega, State.word_saveSection ok (by omega),
      List.getD_append _ _ _ _ (by simp; omega), List.getD_append_right _ _ _ _ (by simp), ← small (fun n => s.sysRead c (0x100 + n))]
    congr 2
    simp
theorem State.word_saveElem {pa e : Nat} (ok : s.areaOk pa = true) (he : e < 512) :
    (s.writeSave c pa).word (pa + 0x100000 + 3072 * e) = (s.elem c e).res.data.toNat % 2 ^ 64 := by
  have bytes : (s.writeSave c pa).bytes (pa + 0x100000 + 3072 * e) 8 = leList 8 (s.elem c e).res.data.toNat := by
    have all := byteList_getD (s.writeSave c pa).byte (leList 8 (s.elem c e).res.data.toNat) (pa + 0x100000 + 3072 * e)
      fun i hi => by
        rw [length_leList] at hi
        rw [State.byte_writeSave ok, saveMem_elem s c pa he (by omega), getD_leList _ _ _ hi]
        unfold State.saveElem
        simp only [List.append_assoc]
        rw [List.getD_append _ _ _ _ (by rw [length_leList]; omega), getD_leList _ _ _ (by omega)]
    rwa [length_leList] at all
  unfold State.word
  rw [bytes, leVal_leList]
  rfl

/-! ## Spills (R155) -/

theorem State.OnlyTasks.berths {s t : State} (h : s.OnlyTasks t) : t.berths = s.berths := by rw [h]

/-- Writing a save area changes memory, its checks and the free counter. -/
theorem State.writeSave_rest (s : State) (c : Ctx) (pa : Nat) : s.writeSave c pa = { s with
    mem := (s.writeSave c pa).mem, checks := (s.writeSave c pa).checks, free := (s.writeSave c pa).free } := by
  unfold State.writeSave
  generalize remakeAll (s.saveMem c pa) (s.saveGranules c pa) s.checks = k
  generalize s.saveMem c pa = m
  generalize s.free + saveSize = n
  split
  · rfl
  · rfl
/-- A frozen and drained context whose record asks for it is spilled. -/
theorem State.spill_done (rises : stable (s.berth c).seqNo (s.berth c).acted = true) (falls : (s.berth c).valid = false)
    (here : (s.task (s.taskAt c)).phase = .resident) (drained : s.canSpill c = true) (left : s.unleft c = none) :
    let v := ((s.writeSave c (s.berth c).area.toNat).actBerth c).modTask (s.taskAt c) (fun t => { t with phase := .spilled })
    s.spill c = State.clearPartition { v with
      saves := mset v.saves (s.taskAt c) (s.saveOf c), owner := mset v.owner c.toNat none } c := by
  have stays : s.withdraw c = s := by
    unfold State.withdraw
    rw [left]
  unfold State.spill
  simp only [rises, falls, here, drained, stays]
  rfl
/-- What a save holds of a context. -/
theorem State.mget_saveOf (s : State) (c : Ctx) : (∀ e < 512, mget (s.saveOf c).elems e = s.elem c e) ∧
    (∀ row col, row < 1024 → col < 256 → mget (s.saveOf c).acc (row * 256 + col) = s.accAt c row col) ∧
    ∀ j < 256, mget (s.saveOf c).runs j = s.run c j := by
  unfold State.saveOf
  dsimp only
  refine ⟨fun e he => mget_mslice _ s.elems he, fun row col hr hc => ?_, fun j hj => mget_mslice _ s.runs hj⟩
  unfold State.accAt accKey
  have inside : row * 256 + col < 262144 := by omega
  rw [mget_mslice _ s.acc inside]
  exact congrArg (mget s.acc) (by omega)

end Sys2Proof.Machine

namespace Sys2Proof.Proofs

open Sys2Proof.Laws Sys2Proof.Machine Sys2Proof.Claims

/-- What a spilled context leaves, and what its save area holds. -/
theorem spilled {s : State} {c : Ctx} (rises : stable (s.berth c).seqNo (s.berth c).acted = true)
    (falls : (s.berth c).valid = false) (gang : (s.task (s.taskAt c)).gang ≠ 0)
    (here : (s.task (s.taskAt c)).phase = .resident) (drained : s.canSpill c = true) (left : s.unleft c = none) :
    let t := s.spill c
    let id := s.taskAt c
    let a := (s.berth c).area.toNat
    (mget t.saves id = s.saveOf c ∧ t.thr c = {} ∧ (∀ e < 512, t.elem c e = {}) ∧ t.taskAt c = 0) ∧
    t.task id = { s.task id with phase := .spilled } ∧ (t.berth c).acted = (s.berth c).seqNo ∧
    ∀ y, t.byte y = (s.writeSave c a).byte y := by
  have run := State.spill_done rises falls here drained left
  intro t id a
  obtain ⟨w, hw⟩ : ∃ w, w = (s.writeSave c a).actBerth c := ⟨_, rfl⟩
  obtain ⟨v, hv⟩ : ∃ v, v = w.modTask id (fun t => { t with phase := .spilled }) := ⟨_, rfl⟩
  have run : t = State.clearPartition { v with saves := mset v.saves id (s.saveOf c), owner := mset v.owner c.toNat none } c := by
    rw [hv, hw]; exact run
  have wTask : w.task id = s.task id := by
    unfold State.task
    rw [hw, State.writeSave_rest]
    rfl
  have only : w.OnlyTasks v := hv ▸ w.modTask_only id _
  have vTask : v.task id = { s.task id with phase := .spilled } := by
    rw [hv, w.task_modTask_same id _ (by rw [wTask]; exact gang), wTask]
  refine ⟨⟨?_, ?_, fun e he => ?_, ?_⟩, ?_, ?_, fun y => ?_⟩
  · rw [run]; exact mget_mset_same v.saves id (s.saveOf c)
  · rw [run]; exact mget_mset_same v.threads c.toNat default
  · rw [run]
    refine (mget_mcut _ _ v.elems _).trans (if_pos ?_)
    unfold eKey
    omega
  · rw [run]
    show (mget (mset v.owner c.toNat none) c.toNat).getD 0 = 0
    rw [mget_mset_same]
    rfl
  · rw [← vTask, run]; rfl
  · have berths : t.berths = w.berths := by rw [run]; exact only.berths
    unfold State.berth
    rw [berths, hw]
    unfold State.actBerth
    dsimp only
    rw [mget_mmod_same, State.writeSave_rest]
  · have mem : t.mem = (s.writeSave c a).mem := by rw [run]; exact only.mem.trans (by rw [hw]; rfl)
    unfold State.byte
    rw [mem]

end Sys2Proof.Proofs
end

section
/-!
Restores from a save area (R84, R149, R154, R155, R226): what a command's reads leave alone, and what a context takes from
the bytes of its area.
-/

namespace Sys2Proof.Machine

open Sys2Proof.Laws Sys2Proof.Claims

/-! ## Reads of a command (R78, R241, R266) -/

/-- `t` has the threads, the elements, the owners of partitions and the phases of the tasks of `s`. -/
structure State.FrontKept (s t : State) : Prop where
  threads : t.threads = s.threads
  elems : t.elems = s.elems
  owner : t.owner = s.owner
  phase : ∀ j, (t.task j).phase = (s.task j).phase

theorem State.FrontKept.refl (s : State) : s.FrontKept s := ⟨rfl, rfl, rfl, fun _ => rfl⟩
theorem State.FrontKept.trans {s t u : State} (h : s.FrontKept t) (k : t.FrontKept u) : s.FrontKept u :=
  ⟨k.threads.trans h.threads, k.elems.trans h.elems, k.owner.trans h.owner, fun j => (k.phase j).trans (h.phase j)⟩
/-- The same tasks have the same phases. -/
theorem State.FrontKept.of_tasks {s t : State} (threads : t.threads = s.threads) (elems : t.elems = s.elems)
    (owner : t.owner = s.owner) (tasks : t.tasks = s.tasks) : s.FrontKept t :=
  ⟨threads, elems, owner, fun j => by unfold State.task; rw [tasks]⟩
theorem State.setIsl_frontKept (s : State) (c : Ctx) (i : Nat) (x : Isl) : s.FrontKept (s.setIsl c i x) :=
  .of_tasks rfl rfl rfl rfl
theorem State.putRun_frontKept (s : State) (c : Ctx) (k : Nat) (f : CmdRun → CmdRun) : s.FrontKept (s.putRun c k f) :=
  .of_tasks rfl rfl rfl rfl
theorem State.slots_frontKept (s : State) (cams : SMap Cam) (sst : SMap Word) (slots : SMap Slot) (active : SMap Plane) :
    s.FrontKept { s with cams := cams, sst := sst, slots := slots, active := active } := .of_tasks rfl rfl rfl rfl
theorem State.banks_frontKept (s : State) (links : SMap (List LinkEnt)) (bankMeta : SMap BankMeta) (acc : SMap W32)
    (bank : SMap W128) : s.FrontKept { s with links := links, bankMeta := bankMeta, acc := acc, bank := bank } :=
  .of_tasks rfl rfl rfl rfl
theorem State.Reported.frontKept {s t : State} (h : s.Reported t) : s.FrontKept t := by
  unfold State.Reported at h
  refine .of_tasks ?_ ?_ ?_ ?_ <;> rw [h]
/-- A change of a task that keeps its phase. -/
theorem State.modTask_frontKept (s : State) (id : Nat) (f : Task → Task) (hf : ∀ t, (f t).phase = t.phase) :
    s.FrontKept (s.modTask id f) := by
  have only := s.modTask_only id f
  refine ⟨by rw [only], by rw [only], by rw [only], fun j => ?_⟩
  rcases s.task_modTask id j f with e | ⟨-, e⟩
  · rw [e]
  · rw [e, hf]
theorem State.updateFor_frontKept (s : State) (id pa : Nat) (bs : List Byte) : s.FrontKept (s.updateFor id pa bs) := by
  refine .of_tasks ?_ ?_ ?_ ?_ <;> rw [State.updateFor_rest]
theorem State.markWord_frontKept (s : State) (id pa old new : Nat) : s.FrontKept (s.markWord id pa old new) := by
  refine .of_tasks ?_ ?_ ?_ ?_ <;> rw [State.markWord_rest]
theorem State.freshen_frontKept (s : State) (id : Nat) (store : Bool) (va : Nat) : s.FrontKept (s.freshen id store va) := by
  unfold State.freshen State.patchUnit
  split
  · exact .refl s
  · dsimp only
    split
    · split
      · exact (s.markWord_frontKept ..).trans (State.modTask_frontKept _ id _ fun _ => rfl)
      · exact s.markWord_frontKept ..
    · exact s.modTask_frontKept id _ fun _ => rfl
theorem State.memError_frontKept (s : State) (c : Ctx) (pa tag cmd elem : Nat) (pos : Word) :
    s.FrontKept (s.memError c pa tag cmd elem pos) := by
  obtain ⟨x, h⟩ := s.memError_rest c pa tag cmd elem pos
  exact .trans (t := { s with start := x }) (.of_tasks rfl rfl rfl rfl) h.frontKept
theorem State.move_frontKept (s : State) (id pa n : Nat) : s.FrontKept (s.move id pa n) := by
  unfold State.move
  split
  · exact s.modTask_frontKept id _ fun _ => rfl
  · exact .refl s
theorem State.engPiece_frontKept (s : State) (id cmd pos : Nat) (pol : Bool) (va n : Nat) :
    s.FrontKept (s.engPiece id cmd pos pol false va n).1 := by
  unfold State.engPiece
  extract_lets s1 t
  have fresh : s.FrontKept s1 := s.freshen_frontKept id false va
  refine fresh.trans ?_
  split
  · exact .refl s1
  rw [if_neg Bool.false_ne_true]
  dsimp -zeta only
  split
  · split
    · exact .refl s1
    · exact (s1.engRecord_reported ..).frontKept
  · exact (s1.engEnd_reported ..).frontKept
  · exact (s1.engEnd_reported ..).frontKept
  · extract_lets s2
    have read : s1.FrontKept s2 := by
      unfold s2
      refine .trans ?_ (State.modTask_frontKept _ id _ fun _ => rfl)
      split
      · exact (s1.engRecord_reported ..).frontKept
      · exact .refl s1
    refine read.trans ?_
    split
    · exact .refl s2
    split
    · exact s2.memError_frontKept ..
    · rename_i ok s3 _ _
      show s2.FrontKept s3
      unfold s3
      refine .trans ?_ (State.move_frontKept _ id _ n)
      split
      · exact .refl s2
      · exact (s2.engRecord_reported ..).frontKept
theorem State.engPieces_frontKept (s : State) (id cmd pos : Nat) (pol : Bool) (ps : List (Nat × Nat)) :
    s.FrontKept (s.engPieces id cmd pos pol false ps).1 := by
  induction ps generalizing s with
  | nil => exact .refl s
  | cons p ps ih =>
    obtain ⟨va, n⟩ := p
    have one := s.engPiece_frontKept id cmd pos pol va n
    unfold State.engPieces
    split
    · next s1 bs e =>
      rw [e] at one
      exact one.trans (ih s1)
    · next s1 bs e _ h =>
      rw [h] at one
      exact one
theorem State.reloadTile_frontKept (s : State) (c : Ctx) (t : Option Tile) : s.FrontKept (s.reloadTile c t).1 := by
  unfold State.reloadTile
  split
  · exact .refl s
  · split
    · dsimp only
      exact s.putRun_frontKept c _ _
    · next x _ =>
      dsimp only
      have read := s.engPieces_frontKept (s.taskAt c) x.cmd 0 false
        (vaPieces (s.vaOf c x.cmd 6 0) (tileBytes x.fmt.toNat x.blk.toNat x.kb x.nb))
      unfold State.engRead
      split
      · next h => rw [h] at read; exact read
      · next h => rw [h] at read; exact read

/-! ## What a save area gives back (R154, R226) -/

variable (s : State) (c : Ctx)

/-- The elements are given back one by one. -/
theorem State.setElems (f : Nat → Elem) (n : Nat) (t : State) :
    let u := (List.range n).foldl (fun t e => t.setElem c e (f e)) t
    u = { t with elems := u.elems } ∧ ∀ e, u.elem c e = if e < n then f e else t.elem c e := by
  induction n with
  | zero => exact ⟨rfl, fun e => by rw [if_neg (Nat.not_lt_zero e)]; rfl⟩
  | succ n ih =>
    obtain ⟨only, elems⟩ := ih
    rw [List.range_succ, List.foldl_append, List.foldl_cons, List.foldl_nil]
    generalize (List.range n).foldl (fun t e => t.setElem c e (f e)) t = v at only elems ⊢
    refine ⟨?_, fun e => ?_⟩
    · unfold State.setElem
      generalize mset v.elems (eKey c n) (f n) = m
      generalize v.elems = l at only
      subst only
      rfl
    · show mget (mset v.elems (eKey c n) (f n)) (eKey c e) = _
      rw [mget_mset]
      unfold eKey
      unfold State.elem eKey at elems
      by_cases last : e = n
      · rw [if_pos (by rw [last]), if_pos (by omega), last]
      · rw [if_neg (by omega), elems]
        exact if_congr (by omega) rfl rfl
theorem State.areaLatch_frontKept (pa e : Nat) : s.FrontKept (s.areaLatch c pa e) := by
  unfold State.areaLatch
  refine List.foldlRecOn (motive := fun p : State × Nat => s.FrontKept p.1) _ _ (.refl s) fun p h k _ => ?_
  dsimp only
  split
  · dsimp only
    exact h.trans (p.1.putRun_frontKept c k _)
  · exact h
theorem State.modThr_rest (f : Thread → Thread) : (s.modThr c f).owner = s.owner ∧ (s.modThr c f).tasks = s.tasks := ⟨rfl, rfl⟩
/-- What a context takes from its save area in device memory. -/
theorem State.readSave_taken {pa : Nat} (ok : s.areaOk pa = true) :
    (s.readSave c pa).thr c = s.areaThread c pa (s.thr c) ∧
    (∀ e < 512, (s.readSave c pa).elem c e = s.areaElem pa e (s.elem c e)) ∧
    (s.readSave c pa).owner = s.owner ∧ ∀ j, ((s.readSave c pa).task j).phase = (s.task j).phase := by
  unfold State.readSave
  rw [if_neg (by rw [ok]; decide)]
  extract_lets n id s1 s2 s3 s4 s5 tag own s6
  have islands : s1.FrontKept s2 := by
    unfold s2
    exact List.foldlRecOn (motive := s1.FrontKept) _ _ (.refl s1) fun t h i _ => h.trans (t.setIsl_frontKept ..)
  have maps : s2.FrontKept s3 := s2.slots_frontKept ..
  have cmds : s3.FrontKept s4 := by
    unfold s4
    exact List.foldlRecOn (motive := s3.FrontKept) _ _ (.refl s3) fun t h k _ => h.trans (t.putRun_frontKept ..)
  have first := (islands.trans maps).trans cmds
  obtain ⟨only, elems⟩ := State.setElems c (fun e => s.areaElem pa e (s.elem c e)) 512 s4
  have places : s5.FrontKept s6 := s5.banks_frontKept ..
  have last : s5.FrontKept (((List.range 8).flatMap (fun p => [portElem p false, portElem p true])).foldl
      (fun t e => t.areaLatch c pa e) s6) :=
    List.foldlRecOn (motive := s5.FrontKept) _ _ places fun t h e _ => h.trans (t.areaLatch_frontKept c pa e)
  generalize ((List.range 8).flatMap (fun p => [portElem p false, portElem p true])).foldl
      (fun t e => t.areaLatch c pa e) s6 = t at last ⊢
  change s5 = _ at only
  change ∀ e, s5.elem c e = _ at elems
  obtain ⟨owner, tasks⟩ : s1.owner = s.owner ∧ s1.tasks = s.tasks := s.modThr_rest c _
  refine ⟨?_, fun e he => ?_, ?_, fun j => ?_⟩
  · have thread : s1.thr c = s.areaThread c pa (s.thr c) := s.thr_modThr_same c _
    rw [← thread]
    unfold State.thr
    rw [last.threads, only, first.threads]
  · have own := elems e
    rw [if_pos he] at own
    rw [← own]
    unfold State.elem
    rw [last.elems]
  · rw [last.owner, only, first.owner, owner]
  · have same : s5.tasks = s4.tasks := by rw [only]
    have phase := first.phase j
    rw [last.phase]
    unfold State.task at phase ⊢
    rw [same, phase, tasks]

end Sys2Proof.Machine
end

section
/-!
What a restored context has: the registers and elements that its save area says, or the start of its task (R84, R149, R154,
R155).
-/

namespace Sys2Proof.Machine

open Sys2Proof.Laws Sys2Proof.Claims

/-! ## Fields of the save area (R154, R226) -/

theorem byteList_append (f : Nat → Byte) (a m n : Nat) : byteList f a (m + n) = byteList f a m ++ byteList f (a + m) n := by
  rw [byteList_eq_map, byteList_eq_map, byteList_eq_map, List.range_add, List.map_append, List.map_map]
  exact congrArg _ (List.map_congr_left fun k _ => congrArg f (Nat.add_assoc ..).symm)
theorem leVal_append (l m : List Byte) : leVal (l ++ m) = leVal l + 256 ^ l.length * leVal m := by
  induction l with
  | nil => simp [leVal]
  | cons b l ih =>
    rw [List.cons_append, leVal, leVal, ih, List.length_cons]
    ring
theorem State.word_lt (s : State) (pa : Nat) : s.word pa < 2 ^ 64 := by
  have small := leVal_lt (s.bytes pa 8)
  rwa [show (s.bytes pa 8).length = 8 from length_byteList ..] at small
/-- The low word of sixteen bytes. -/
theorem State.num_mod (s : State) (pa : Nat) : s.num pa 16 % 2 ^ 64 = s.word pa := by
  have split : s.bytes pa 16 = s.bytes pa 8 ++ s.bytes (pa + 8) 8 := byteList_append s.byte pa 8 8
  have small := s.word_lt pa
  unfold State.num
  rw [split, leVal_append, show (s.bytes pa 8).length = 8 from length_byteList ..]
  unfold State.word at small ⊢
  omega
/-- A multiple of four, as a word without its low bits. -/
theorem ofNat_aligned (w : Nat) : BitVec.ofNat 64 w &&& ~~~(3 : Word) = BitVec.ofNat 64 (w / 4 * 4) := by
  apply BitVec.eq_of_getLsbD_eq
  intro i hi
  have low : (3 : Word).getLsbD i = decide (i < 2) := by
    rw [BitVec.getLsbD, show (3 : Word).toNat = 2 ^ 2 - 1 from rfl, Nat.testBit_two_pow_sub_one]
  rw [BitVec.getLsbD_and, BitVec.getLsbD_not, low, BitVec.getLsbD_ofNat, BitVec.getLsbD_ofNat,
    show w / 4 * 4 = 2 ^ 2 * (w / 2 ^ 2) by omega, Nat.testBit_two_pow_mul, Nat.testBit_div_two_pow]
  by_cases h : i < 2
  · simp [hi, h]
  · simp only [hi, h, decide_true, decide_false, Bool.not_false, Bool.and_true, Bool.true_and, ge_iff_le, Nat.not_lt.mp h]
    rw [Nat.sub_add_cancel (Nat.not_lt.mp h)]

variable (s : State) (c : Ctx)

/-- The thread that a save area says. -/
theorem State.areaThread_words (pa : Nat) (t : Thread) :
    (∀ r < 32, r ≠ 0 → ((s.areaThread c pa t).get (BitVec.ofNat 5 r)).toNat = s.word (pa + 0x1000 + 8 * r)) ∧
    (s.areaThread c pa t).pc = BitVec.ofNat 64 (s.word (pa + 0x1100) / 4 * 4) ∧
    (s.areaThread c pa t).sup = (s.word (pa + 0x1108)).testBit 0 ∧
    (s.areaThread c pa t).poison.toNat = s.word (pa + 0x1118) % 2 ^ 32 ∧
    (s.areaThread c pa t).cyc.toNat = s.word (pa + 0x1400) ∧
    (s.areaThread c pa t).epc.toNat = s.word (pa + 0x1608) ∧ (s.areaThread c pa t).pend = t.pend := by
  have word (o : Nat) : (BitVec.ofNat 64 (s.word (pa + o)) : Word).toNat = s.word (pa + o) := by
    rw [BitVec.toNat_ofNat, Nat.mod_eq_of_lt (s.word_lt _)]
  have aligned : (s.areaThread c pa t).pc = BitVec.ofNat 64 (s.word (pa + 0x1100)) &&& ~~~(3 : Word) := rfl
  refine ⟨fun r hr h0 => ?_, aligned.trans (ofNat_aligned _), ?_, ?_, ?_, ?_, ?_⟩
  · have reg : (BitVec.ofNat 5 r).toNat = r := by rw [BitVec.toNat_ofNat]; omega
    have some : BitVec.ofNat 5 r ≠ 0 := fun e => h0 (by rw [← reg, e]; rfl)
    unfold Thread.get State.areaThread
    dsimp only
    rw [if_neg some, reg]
    have value := (mget_foldl_hits (step := fun m k => mset m (k + 1) (BitVec.ofNat 64 (s.word (pa + (0x1008 + 8 * k)))))
      (hit := fun k => k + 1 = r) (f := fun _ => (BitVec.ofNat 64 (s.word (pa + 0x1000 + 8 * r)) : Word)) (x := r) (fun _ => rfl)
      (List.range 31) (fun k _ m => ⟨fun h => by
        rw [mget_mset, if_pos h.symm, show pa + (0x1008 + 8 * k) = pa + 0x1000 + 8 * r by omega],
        fun h => mget_mset_ne m (fun e => h e.symm) _⟩) []).1 ⟨r - 1, List.mem_range.mpr (by omega), by omega⟩
    rw [value, BitVec.toNat_ofNat, Nat.mod_eq_of_lt (s.word_lt _)]
  · show (BitVec.ofNat 64 (s.word (pa + 0x1108))).getLsbD 0 = _
    rw [BitVec.getLsbD_ofNat]
    rfl
  · show ((BitVec.ofNat 64 (s.word (pa + 0x1118))).setWidth 32).toNat = _
    rw [BitVec.toNat_setWidth, word]
  · show (BitVec.ofNat 64 (s.word (pa + 0x1400))).toNat = _
    exact word _
  · show (BitVec.ofNat 64 (s.word (pa + 0x1608))).toNat = _
    exact word _
  · unfold State.areaThread
    dsimp only
/-- The element that a save area says. -/
theorem State.areaElem_words (pa e : Nat) (x : Elem) :
    (s.areaElem pa e x).res.data.toNat % 2 ^ 64 = s.word (pa + 0x100000 + 3072 * e) ∧
    (s.areaElem pa e x).rand.toNat = s.word (pa + 0x100000 + 3072 * e + 0x38) := by
  constructor
  · show (BitVec.ofNat 128 (s.num (areaElemAt pa e) 16)).toNat % 2 ^ 64 = _
    rw [BitVec.toNat_ofNat, Nat.mod_mod_of_dvd _ (by decide), State.num_mod]
    rfl
  · show (BitVec.ofNat 64 (s.word (areaElemAt pa e + 0x38))).toNat = _
    rw [BitVec.toNat_ofNat, Nat.mod_eq_of_lt (s.word_lt _)]
    rfl

/-! ## Restores (R149, R155) -/

/-- A partition at its start. -/
theorem State.startPartition_start (id : Nat) : (s.startPartition id).thr (s.task id).ctx = (s.task id).thread ∧
    ((s.startPartition id).task id).phase = (s.task id).phase ∧ (s.startPartition id).owner = s.owner ∧
    (s.startPartition id).berths = s.berths := by
  unfold State.startPartition State.thr State.task
  dsimp only
  rw [mget_mset_same, mget_mset_same]
  exact ⟨rfl, rfl, rfl, rfl⟩
theorem State.wipeStack_rest (id : Nat) : (s.wipeStack id).threads = s.threads ∧ (s.wipeStack id).tasks = s.tasks ∧
    (s.wipeStack id).owner = s.owner := ⟨rfl, rfl, rfl⟩
/-- The state in which a restored context stands as the model's copy of it says. -/
def State.backAt (s : State) (c : Ctx) (id : Nat) : State :=
  State.acquire { (s.putBack c (mget s.saves id)).setTask id { s.task id with phase := .resident } with
    saves := mset s.saves id {}, owner := mset s.owner c.toNat (some id) } c
theorem State.unspill_cases (id : Nat) :
    (s.abortMarked id = true ∧ s.unspill c id = ((s.backAt c id).startPartition id).wipeStack id) ∨
    (s.abortMarked id = false ∧
      ((s.backAt c id).readSave c (mget s.saves id).area.toNat).FrontKept (s.unspill c id)) := by
  have back : s.unspill c id = if s.abortMarked id then ((s.backAt c id).startPartition id).wipeStack id else
      let s3 := (s.backAt c id).readSave c (mget s.saves id).area.toNat
      let (s4, a) := s3.reloadTile c (mget s.saves id).tileA
      let (s5, b) := s4.reloadTile c (mget s.saves id).tileS
      { s5 with tileA := mset s5.tileA c.toNat a, tileS := mset s5.tileS c.toNat b } := rfl
  rw [back]
  by_cases marked : s.abortMarked id = true
  · rw [if_pos marked]
    exact .inl ⟨marked, rfl⟩
  · rw [if_neg marked]
    refine .inr ⟨Bool.eq_false_iff.mpr marked, ?_⟩
    generalize (s.backAt c id).readSave c (mget s.saves id).area.toNat = u
    have first := u.reloadTile_frontKept c (mget s.saves id).tileA
    have second := (u.reloadTile c (mget s.saves id).tileA).1.reloadTile_frontKept c (mget s.saves id).tileS
    exact (first.trans second).trans (.of_tasks rfl rfl rfl rfl)
/-- What stands where a context is put back. -/
theorem State.backAt_back (id : Nat) : (s.backAt c id).thr c = (mget s.saves id).thr ∧
    (∀ e < 512, (s.backAt c id).elem c e = mget (mget s.saves id).elems e) ∧ (s.backAt c id).taskAt c = id ∧
    (s.backAt c id).task id = { s.task id with phase := .resident } ∧ (s.backAt c id).mem = s.mem ∧
    (s.backAt c id).start = s.start := by
  refine ⟨mget_mset_same s.threads c.toNat _, fun e he => ?_, ?_, mget_mset_same s.tasks id _, rfl, rfl⟩
  · exact mget_msplice_in (c.toNat * 512) (mget s.saves id).elems s.elems he
  · show (mget (mset s.owner c.toNat (some id)) c.toNat).getD 0 = id
    rw [mget_mset_same]
    rfl

/-- What a restore does, by the phase of the task that the record names. -/
theorem State.restore_rises (rises : stable (s.berth c).seqNo (s.berth c).acted = true) (valid : (s.berth c).valid = true)
    (gang : (s.task (s.berth c).task.toNat).gang ≠ 0) (ctx : (s.task (s.berth c).task.toNat).ctx = c) :
    let k := (s.berth c).task.toNat
    ((s.task k).phase = .placed →
      s.restore c = ((s.actBerth c).setTask k { s.task k with phase := .resident }).startPartition k) ∧
    ((s.task k).phase = .spilled → (mget s.saves k).area = (s.berth c).save → s.canTake (s.task k) c = true →
      s.restore c = (s.actBerth c).unspill c k) ∧
    ((s.task k).phase = .spilled → (mget s.saves k).area ≠ (s.berth c).save → s.restore c = s.actBerth c) := by
  intro k
  have run : s.restore c = if (s.task k).phase == .placed then
      ((s.actBerth c).setTask k { s.task k with phase := .resident }).startPartition k
      else if (s.task k).phase == .spilled && (mget s.saves k).area == (s.berth c).save then
        (if s.canTake (s.task k) c then (s.actBerth c).unspill c k else s) else s.actBerth c := by
    unfold State.restore
    simp only [rises, valid, gang, ctx, k, Bool.not_true, Bool.or_false, decide_false, Bool.false_eq_true, if_false, bne_self_eq_false]
  refine ⟨fun phase => ?_, fun phase area take => ?_, fun phase area => ?_⟩
  · rw [run, if_pos (by rw [phase]; rfl)]
  · rw [run, if_neg (by rw [phase]; decide), if_pos (by simp [phase, area]), if_pos take]
  · rw [run, if_neg (by rw [phase]; decide), if_neg (by simp [area])]

end Sys2Proof.Machine

namespace Sys2Proof.Proofs

open Sys2Proof.Laws Sys2Proof.Machine Sys2Proof.Claims

/-- A placed task starts from its entry. -/
theorem restoredPlaced {s : State} {c : Ctx} {k : Nat} (ctx : (s.task k).ctx = c) :
    let t := ((s.actBerth c).setTask k { s.task k with phase := .resident }).startPartition k
    t.thr c = (s.task k).thread ∧ (t.task k).phase = .resident ∧ (t.berth c).acted = (s.berth c).seqNo := by
  intro t
  have task := (s.actBerth c).task_setTask_same k { s.task k with phase := .resident }
  have record : (((s.actBerth c).setTask k { s.task k with phase := .resident }).berth c).acted = (s.berth c).seqNo := by
    unfold State.berth State.setTask State.actBerth
    dsimp only
    rw [mget_mmod_same]
  unfold t
  generalize (s.actBerth c).setTask k { s.task k with phase := .resident } = v at task record ⊢
  obtain ⟨thr, phase, -, berths⟩ := v.startPartition_start k
  rw [task] at thr phase
  dsimp only at thr phase
  rw [ctx] at thr
  refine ⟨thr, phase, ?_⟩
  unfold State.berth at record ⊢
  rw [berths, record]

/-- The mark in the save area of a spilled task, or the model's own. -/
theorem abortMarked_eq (s : State) (id : Nat) : s.abortMarked id =
    if s.areaOk (mget s.saves id).area.toNat then s.byte ((mget s.saves id).area.toNat + 0x49000) != 0 else (s.task id).marked := by
  unfold State.abortMarked
  rw [abortMark_eq]
theorem abortMarked_actBerth (s : State) (c : Ctx) (id : Nat) : (s.actBerth c).abortMarked id = s.abortMarked id := by
  unfold State.abortMarked State.areaOk State.place State.byte State.task State.actBerth
  rfl
/-- A spilled task is resident again. One that is marked as aborted starts anew. -/
theorem restoredMarked {s : State} {c : Ctx} {k : Nat} (ctx : (s.task k).ctx = c) (marked : s.abortMarked k = true) :
    (s.unspill c k).thr c = (s.task k).thread ∧ ((s.unspill c k).task k).phase = .resident ∧ (s.unspill c k).taskAt c = k := by
  obtain ⟨-, -, holder, task, -, -⟩ := s.backAt_back c k
  rcases s.unspill_cases c k with ⟨-, e⟩ | ⟨unmarked, -⟩
  · rw [e]
    generalize s.backAt c k = u at holder task ⊢
    obtain ⟨thr, phase, owner, -⟩ := u.startPartition_start k
    generalize u.startPartition k = v at thr phase owner ⊢
    obtain ⟨threads', tasks', owner'⟩ := v.wipeStack_rest k
    rw [task] at thr phase
    dsimp only at thr phase
    rw [ctx] at thr
    unfold State.thr State.task State.taskAt at *
    rw [threads', tasks', owner', owner]
    exact ⟨thr, phase, holder⟩
  · rw [marked] at unmarked
    exact nomatch unmarked
/-- One that is not marked has what the bytes of its save area in device memory say, or the model's copy. -/
theorem restoredBack {s : State} {c : Ctx} {k : Nat} (unmarked : s.abortMarked k = false) :
    let a := (mget s.saves k).area.toNat
    let t := s.unspill c k
    ((t.task k).phase = .resident ∧ t.taskAt c = k) ∧
    (s.areaOk a = false → t.thr c = (mget s.saves k).thr ∧ ∀ e < 512, t.elem c e = mget (mget s.saves k).elems e) ∧
    (s.areaOk a = true → ∃ u : State, u.mem = s.mem ∧ t.thr c = u.areaThread c a (mget s.saves k).thr ∧
      ∀ e < 512, t.elem c e = u.areaElem a e (u.elem c e)) := by
  intro a t
  rcases s.unspill_cases c k with ⟨marked, -⟩ | ⟨-, kept⟩
  · rw [unmarked] at marked
    exact nomatch marked
  obtain ⟨thr, elems, holder, task, mem, start⟩ := s.backAt_back c k
  have ok : (s.backAt c k).areaOk a = s.areaOk a := by
    unfold State.areaOk State.place
    rw [start]
  have thread : t.thr c = ((s.backAt c k).readSave c a).thr c := by unfold State.thr; rw [kept.threads]
  have element (e : Nat) : t.elem c e = ((s.backAt c k).readSave c a).elem c e := by unfold State.elem; rw [kept.elems]
  have resident : ((s.backAt c k).readSave c a).owner = (s.backAt c k).owner →
      (((s.backAt c k).readSave c a).task k).phase = ((s.backAt c k).task k).phase →
      (t.task k).phase = .resident ∧ t.taskAt c = k := fun owner phase => by
    refine ⟨(kept.phase k).trans (phase.trans (by rw [task])), ?_⟩
    unfold State.taskAt at holder ⊢
    rw [kept.owner, owner, holder]
  generalize s.backAt c k = u at *
  cases here : u.areaOk a with
  | false =>
    have same : u.readSave c a = u := by
      unfold State.readSave
      rw [if_pos (by rw [here]; rfl)]
    rw [same] at thread element resident
    refine ⟨resident rfl rfl, fun _ => ⟨thread.trans thr, fun e he => (element e).trans (elems e he)⟩, fun yes => ?_⟩
    rw [← ok, here] at yes
    exact nomatch yes
  | true =>
    obtain ⟨thr', elem', owner', phase'⟩ := u.readSave_taken c here
    refine ⟨resident owner' (phase' k), fun no => ?_, fun _ => ⟨u, mem, ?_, fun e he => (element e).trans (elem' e he)⟩⟩
    · rw [← ok, here] at no
      exact nomatch no
    · rw [thread, thr', thr]

/-- Settles O23, by the pieces of the save area that a spill writes and the fields that a restore reads of it. -/
theorem spillAndRestore : Obligations.SpillAndRestore := by
  intro s c b id k a
  have unacted : stable b.seqNo b.acted = false → exec (.spill c) s = .next s ∧ exec (.restore c) s = .next s := fun unstable => by
    constructor
    · show Host.Outcome.next (s.spill c) = _
      unfold State.spill
      exact congrArg _ (if_pos (by rw [show stable (s.berth c).seqNo (s.berth c).acted = false from unstable]; rfl))
    · show Host.Outcome.next (s.restore c) = _
      unfold State.restore
      exact congrArg _ (if_pos (by rw [show stable (s.berth c).seqNo (s.berth c).acted = false from unstable]; rfl))
  refine ⟨fun rises falls gang here drained left => ?_, fun rises valid gang ctx => ?_, unacted⟩
  · obtain ⟨⟨saved, thr, elems, gone⟩, task, acted, bytes⟩ := spilled rises falls gang here drained left
    obtain ⟨savedElems, savedAcc, savedRuns⟩ := s.mget_saveOf c
    have words (x : Nat) : (s.spill c).word x = (s.writeSave c b.area.toNat).word x :=
      congrArg leVal (byteList_congr 8 x fun y _ _ => bytes y)
    refine ⟨s.spill c, rfl, by rw [saved]; rfl, by rw [saved]; exact savedElems, by rw [saved]; exact savedAcc,
      by rw [saved]; exact savedRuns, by rw [saved]; rfl, thr, elems, gone, task, acted,
      fun y hy => (bytes y).trans (s.byte_writeSave_out c _ y hy), fun ok => ⟨?_, fun r hr => ?_, fun n hn => ?_, fun e he => ?_⟩⟩
    · rw [bytes, State.byte_writeSave ok, saveMem_mark]
    · rw [words, State.word_saveRegs ok hr]
    · rw [words, words]
      exact State.word_saveSys ok hn
    · rw [words, State.word_saveElem ok he]
  · obtain ⟨placed, back, other⟩ := s.restore_rises c rises valid gang ctx
    refine ⟨fun phase => ⟨_, congrArg Host.Outcome.next (placed phase), restoredPlaced ctx⟩, fun phase area take => ?_,
      fun phase area => congrArg Host.Outcome.next (other phase area)⟩
    have run : exec (.restore c) s = .next ((s.actBerth c).unspill c k) := congrArg Host.Outcome.next (back phase area take)
    have mark := abortMarked_eq s k
    have same := abortMarked_actBerth s c k
    generalize hu : s.actBerth c = u at run same
    have saves : mget u.saves k = mget s.saves k := by rw [← hu]; rfl
    have task : u.task k = s.task k := by unfold State.task; rw [← hu]; rfl
    have mem : u.mem = s.mem := by rw [← hu]; rfl
    have place : u.areaOk a = s.areaOk a := by unfold State.areaOk State.place; rw [← hu]; rfl
    cases marked : s.abortMarked k with
    | true =>
      obtain ⟨thr, resident, holder⟩ := restoredMarked (s := u) (c := c) (by rw [task]; exact ctx) (same.trans marked)
      rw [task] at thr
      rw [marked] at mark
      refine ⟨_, run, resident, holder, fun no => ⟨fun unmarked => ?_, fun _ => thr⟩, fun yes => ⟨fun _ => thr, fun clear => ?_⟩⟩
      · rw [show s.areaOk (mget s.saves k).area.toNat = false from no, unmarked] at mark
        exact nomatch mark
      · rw [show s.areaOk (mget s.saves k).area.toNat = true from yes,
          show s.byte ((mget s.saves k).area.toNat + 0x49000) = 0 from clear] at mark
        exact nomatch mark
    | false =>
      have restored := restoredBack (s := u) (c := c) (same.trans marked)
      rw [saves] at restored
      obtain ⟨⟨resident, holder⟩, copy, read⟩ := restored
      rw [marked] at mark
      refine ⟨_, run, resident, holder, fun no => ⟨fun _ => copy (place.trans no), fun set => ?_⟩,
        fun yes => ⟨fun set => ?_, fun _ => ?_⟩⟩
      · rw [show s.areaOk (mget s.saves k).area.toNat = false from no, set] at mark
        exact nomatch mark
      · rw [show s.areaOk (mget s.saves k).area.toNat = true from yes, if_pos rfl] at mark
        exact absurd (bne_eq_false_iff_eq.mp mark.symm) set
      · obtain ⟨v, vMem, thr, elems⟩ := read (place.trans yes)
        have words (x : Nat) : v.word x = s.word x :=
          congrArg leVal (byteList_congr 8 x fun y _ _ => by unfold State.byte; rw [vMem, mem])
        obtain ⟨regs, pc, sup, poison, cyc, epc, pend⟩ := v.areaThread_words c a (mget s.saves k).thr
        simp only [words] at regs pc sup poison cyc epc
        rw [thr]
        refine ⟨regs, pc, sup, poison, cyc, epc, pend, fun e he => ?_⟩
        rw [elems e he, ← words, ← words]
        exact v.areaElem_words a e (v.elem c e)

end Sys2Proof.Proofs
end

section
/-!
The machine at reset: what its registers read as, memory, and the holds of heads (R160).
-/

namespace Sys2Proof.Machine

open Sys2Proof.Claims

/-- What the registers of a queue's block read as, by their offset in it (R160). -/
def Queue.blockRead (q : Queue) (k : Nat) : Option Word :=
  match k with
  | 0x00 => some q.word0 | 0x08 => some q.endpoint | 0x10 => some q.notify | 0x18 => some q.report
  | 0x20 => some (BitVec.ofNat 64 (q.msgs.length + 2 ^ 32 * q.refused.toNat))
  | _ => none
/-- The offset of a register of a queue's block names its queue, and its place in the block. -/
theorem queueOffset {q k : Nat} (hq : q < 256) (hk : k < 64) :
    (decide (queueBase ≤ 0x10000 + 64 * q + k) && decide (0x10000 + 64 * q + k < queueBase + 256 * 64)) = true ∧
    (0x10000 + 64 * q + k - queueBase) / 64 = q ∧ (0x10000 + 64 * q + k - queueBase) % 64 = k := by
  unfold queueBase
  simp only [Bool.and_eq_true, decide_eq_true_eq]
  omega
/-- A register of a queue's block reads as that of the queue that its offset names (R160). -/
theorem State.regRead_queue (s : State) {q k : Nat} (hq : q < 256) (hk : k < 64) :
    s.regRead (0x10000 + 64 * q + k) = (s.queue q).blockRead k := by
  obtain ⟨inside, block, reg⟩ := queueOffset hq hk
  unfold State.regRead
  dsimp only
  rw [if_pos inside, block, reg]
  rfl

end Sys2Proof.Machine

namespace Sys2Proof.Proofs

open Sys2Proof.Machine Sys2Proof.Claims

/-- Settles O26: each register's reset value is the default of the field that it reads, and no task has a hold. -/
theorem stateAtReset : Obligations.StateAtReset := by
  refine ⟨by decide, rfl, fun q hq p hp => ?_, rfl, fun _ _ => rfl⟩
  have inBlock : ∀ p ∈ resetQueue, p.1 < 64 := by decide
  rw [State.reset.regRead_queue hq (inBlock p hp)]
  have fresh : ∀ p ∈ resetQueue, Queue.blockRead {} p.1 = some p.2 := by decide
  exact fresh p hp

end Sys2Proof.Proofs
end

section
/-!
The arrival of messages at a queue (R137, R367).
-/

namespace Sys2Proof.Machine

open Sys2Proof.Laws Sys2Proof.Claims

variable (s : State)

theorem State.queue_setQueue_ne {q k : Nat} (h : k ≠ q) (x : Queue) : (s.setQueue q x).queue k = s.queue k :=
  mget_mset_ne s.queues h x

/-- A message that its queue takes enters the admission buffer, and its endpoint owes nothing (R137, R367). -/
theorem State.arrive_taken {q : BitVec 8} {ep : Word} {m : List Word} (ready : s.start.ready = true)
    (enable : (s.queue q.toNat).enable = true) (room : (s.queue q.toNat).msgs.length < 64)
    (owed : ∀ p, (s.queue q.toNat).resend.find? (fun p => p.1 == ep) = some p → p.2 = m) :
    s.arrive q ep m = s.setQueue q.toNat { s.queue q.toNat with
      msgs := (s.queue q.toNat).msgs ++ [(ep, m)], resend := (s.queue q.toNat).resend.filter (fun p => p.1 != ep) } := by
  have none : ((s.queue q.toNat).resend.find? (fun p => p.1 == ep)).any (fun p => p.2 != m) = false := by
    cases h : (s.queue q.toNat).resend.find? (fun p => p.1 == ep) with
    | none => rfl
    | some p => simpa using owed p h
  have low : ¬ bufferSize ≤ (s.queue q.toNat).msgs.length := Nat.not_le.mpr room
  unfold State.arrive
  dsimp only
  rw [ready, enable, none, if_neg (by simpa using low)]
/-- Any other message is refused: the queue counts it, and its endpoint owes it unless it owed one before (R367). -/
theorem State.arrive_refused {q : BitVec 8} {ep : Word} {m : List Word}
    (h : ¬ (s.start.ready = true ∧ (s.queue q.toNat).enable = true ∧ (s.queue q.toNat).msgs.length < 64 ∧
      ∀ p, (s.queue q.toNat).resend.find? (fun p => p.1 == ep) = some p → p.2 = m)) :
    s.arrive q ep m = { (s.setQueue q.toNat { s.queue q.toNat with
      refused := (s.queue q.toNat).refused + 1
      resend := (s.queue q.toNat).resend ++
        if (s.queue q.toNat).resend.find? (fun p => p.1 == ep) = none then [(ep, m)] else [] }) with
      out := s.out ++ [.refusal q ep] } := by
  have refused : (!s.start.ready || !(s.queue q.toNat).enable || decide ((s.queue q.toNat).msgs.length ≥ bufferSize) ||
      ((s.queue q.toNat).resend.find? (fun p => p.1 == ep)).any (fun p => p.2 != m)) = true := by
    by_contra all
    refine h ?_
    simp only [Bool.or_eq_true, Bool.not_eq_true', decide_eq_true_eq, not_or, Bool.not_eq_false, ge_iff_le,
      Nat.not_le, Option.any_eq_true, not_exists, not_and] at all
    obtain ⟨⟨⟨ready, enable⟩, room⟩, owed⟩ := all
    exact ⟨ready, enable, room, fun p hp => by simpa using owed p hp⟩
  unfold State.arrive
  dsimp only
  rw [if_pos refused]
  cases (s.queue q.toNat).resend.find? (fun p => p.1 == ep) with
  | none => rfl
  | some p => simp

end Sys2Proof.Machine

namespace Sys2Proof.Proofs

open Sys2Proof.Machine Sys2Proof.Claims

/-- The three kinds of message arrive alike. -/
theorem exec_arrivalOf (n : Fin 3) (s : State) (q : BitVec 8) (ep : Word) (m : List Word) :
    exec (arrivalOf n q ep m) s = .next (s.arrive q ep m) := by
  match n with
  | 0 => rfl
  | 1 => rfl
  | 2 => rfl
/-- Settles O21: a message is taken or refused, and either changes its own queue alone. -/
theorem launchMessages : Obligations.LaunchMessages := by
  intro n s q ep m x owed taken
  refine ⟨_, exec_arrivalOf n s q ep m, ?_⟩
  by_cases h : taken
  · obtain ⟨ready, enable, room, first⟩ := id h
    rw [s.arrive_taken ready enable room first]
    exact ⟨fun k hk => s.queue_setQueue_ne hk _, rfl, fun _ => ⟨s.queue_setQueue_same _ _, rfl⟩, fun no => absurd h no⟩
  · rw [s.arrive_refused h]
    exact ⟨fun k hk => s.queue_setQueue_ne hk _, rfl, fun yes => absurd yes h, fun _ => ⟨s.queue_setQueue_same _ _, rfl⟩⟩

end Sys2Proof.Proofs
end

section
/-!
A flush that repatches an extent whose page-table entry lies in a granule with a failed check (R73, R159, R256).
-/

namespace Sys2Proof.Machine

/-- Task 1 has one stream, in the second GiB, whose only extent faults. The entry of its page has come to be valid since, but
it stands in granule 0, whose check fails. -/
def brokenEntry : State :=
  { mem := [(0, 1), (8, 3)], tasks := [(1, { gang := 1, streams := [{ lo := 2 ^ 30, hi := 2 ^ 30 + 1 }] })] }

end Sys2Proof.Machine

namespace Sys2Proof.Proofs

open Sys2Proof.Laws Sys2Proof.Machine Sys2Proof.Claims

/-- No task of that state has a lay-by entry, a waiting word, or a launch held at step 3. -/
theorem brokenEntry_idle (id : Nat) : (brokenEntry.task id).lays = [] ∧ (brokenEntry.task id).cws = [] ∧
    (brokenEntry.task id).step3 = none := by
  by_cases h : id = 1
  · subst h; exact ⟨rfl, rfl, rfl⟩
  · have none : brokenEntry.task id = default := mget_absent _ _ fun p hp => by
      rw [List.mem_singleton.mp hp]
      exact Ne.symm h
    rw [none]
    exact ⟨rfl, rfl, rfl⟩
/-- The repatch finds the entry's granule broken as it sets Accessed there, and records it. -/
theorem brokenEntry_records : brokenEntry.fbflushStep.faultQ.map (·.code) = [0x14] := by decide +kernel
/-- Refutes O19: a flush repatches the extents that fault, and the update of Accessed in an entry whose granule fails its check
makes a record of 0x14 (R73), so that the flush does not leave every record unmade. -/
theorem not_faultBuffer : ¬ Obligations.FaultBuffer := by
  rintro ⟨-, flush⟩
  obtain ⟨t, run, -, -, empty, -⟩ := flush brokenEntry brokenEntry_idle rfl
  have done : exec .fbflush brokenEntry = .next brokenEntry.fbflushStep := rfl
  rw [done] at run
  injection run with run
  have := brokenEntry_records
  rw [run, empty] at this
  exact absurd this (by decide)

end Sys2Proof.Proofs
end

section
/-!
Dispatch: freezing and draining, slices and stalls, and the interrupt window of a queue (R148 to R153, R162).
-/

namespace Sys2Proof.Machine

open Sys2Proof.Laws Sys2Proof.Claims

variable (s : State)

@[simp] theorem State.disp_setDisp_same (r : Nat) (x : Disp) : (s.setDisp r x).disp r = x := mget_mset_same s.disps r x
theorem State.disp_setDisp_ne {r k : Nat} (h : k ≠ r) (x : Disp) : (s.setDisp r x).disp k = s.disp k :=
  mget_mset_ne s.disps h x

/-! ## Freezing and draining (R149, R152, R153) -/

/-- When a partition is still spilled or restored. -/
theorem State.berthBusy_iff (r : Nat) : s.berthBusy r = true ↔
    (s.disp r).none' = false ∧ (s.disp r).live ≠ some (s.disp r).part ∧
      stable (s.berth (ctxOf r (s.disp r).part)).seqNo (s.berth (ctxOf r (s.disp r).part)).acted = true := by
  unfold State.berthBusy
  simp [and_assoc]
/-- A stable word that names no busy partition is acted on. -/
theorem State.freeze_acted {r : Nat} (word : stable (s.disp r).seqNo (s.disp r).acted = true) (idle : ¬ s.berthBusy r = true) :
    s.freeze r =
      let d := s.disp r
      let s1 := s.setDisp r { d with acted := d.seqNo, live := if d.none' then none else some d.part, drain := s.cycle + 24 }
      if d.none' then s1 else s1.modThr (ctxOf r d.part) (fun t => { t with waitSince := t.waitSince.map (fun _ => s.cycle + 24) }) := by
  unfold State.freeze
  dsimp only
  rw [if_neg (by rw [word]; simpa using idle)]
  rfl
theorem State.freeze_waits {r : Nat} (h : stable (s.disp r).seqNo (s.disp r).acted = false ∨ s.berthBusy r = true) : s.freeze r = s := by
  unfold State.freeze
  dsimp only
  rw [if_pos (by rcases h with h | h <;> simp [h])]

/-! ## The scheduler (R148, R150) -/

/-- What a slice costs falls on the deficit of a queue alone. -/
theorem State.charge_rest (r : Nat) : s.charge r = { s with queues := (s.charge r).queues } := by
  unfold State.charge
  dsimp only
  split
  · rfl
  · split <;> rfl
/-- Which tasks can be served does not depend on what queues are owed. -/
theorem State.servable_charge (r : Nat) (c : Ctx) : (s.charge r).servable c = s.servable c := by
  rw [s.charge_rest r]
  rfl
theorem State.disp_charge (r k : Nat) : (s.charge r).disp k = s.disp k := by
  rw [s.charge_rest r]
  rfl
theorem State.berth_charge (r : Nat) (c : Ctx) : (s.charge r).berth c = s.berth c := by
  rw [s.charge_rest r]
  rfl
/-- Partitions of a region that can be served, the other one first. -/
def State.candidates (r : Nat) : List Bool :=
  [!(s.disp r).part, (s.disp r).part].filter (fun p => s.servable (ctxOf r p))
/-- Those of the most urgent class among them. -/
def State.urgent (r : Nat) : List Bool :=
  (s.candidates r).filter (fun p => (s.berth (ctxOf r p)).cls.toNat ==
    ((s.candidates r).map (fun p => (s.berth (ctxOf r p)).cls.toNat)).foldl min 4)
/-- The other partition is the most urgent where it can be served, and the present one cannot or has a less urgent class. -/
theorem State.urgent_other {r : Nat} (ready : s.servable (ctxOf r !(s.disp r).part) = true)
    (less : s.servable (ctxOf r (s.disp r).part) = false ∨
      (s.berth (ctxOf r !(s.disp r).part)).cls.toNat < (s.berth (ctxOf r (s.disp r).part)).cls.toNat) :
    s.urgent r = [!(s.disp r).part] := by
  have small := (s.berth (ctxOf r !(s.disp r).part)).cls.isLt
  unfold State.urgent
  by_cases mine : s.servable (ctxOf r (s.disp r).part) = true
  · have cands : s.candidates r = [!(s.disp r).part, (s.disp r).part] := by
      unfold State.candidates; simp [ready, mine]
    have less := less.resolve_left (by rw [mine]; decide)
    rw [cands]
    simp only [List.map_cons, List.map_nil, List.foldl_cons, List.foldl_nil, List.filter_cons, List.filter_nil, beq_iff_eq]
    rw [if_pos (by omega), if_neg (by omega)]
  · have cands : s.candidates r = [!(s.disp r).part] := by
      unfold State.candidates; simp [ready, mine]
    rw [cands]
    simp only [List.map_cons, List.map_nil, List.foldl_cons, List.foldl_nil, List.filter_cons, List.filter_nil, beq_iff_eq]
    rw [if_pos (by omega)]
/-- A dispatch of the other partition, where it is the most urgent, its queue has time left, and it does not issue. -/
theorem State.redispatch_other {r : Nat} (urgent : (s.charge r).urgent r = [!(s.disp r).part])
    (owed : ((s.charge r).queue (s.berth (ctxOf r !(s.disp r).part)).queue.toNat).deficit ≠ 0)
    (idle : (s.disp r).live ≠ some (!(s.disp r).part)) :
    s.redispatch r = (s.charge r).setDisp r { s.disp r with
      part := !(s.disp r).part, none' := false, seqNo := (s.disp r).seqNo + 2, sliceStart := s.cycle + 24
      sliceEnd := s.cycle + 24 + min ((s.charge r).queue (s.berth (ctxOf r !(s.disp r).part)).queue.toNat).deficit
        (4000 * min s.regs.quantum.toNat (s.berth (ctxOf r !(s.disp r).part)).slice.toNat) } := by
  have cycle : (s.charge r).cycle = s.cycle := by rw [s.charge_rest r]
  have regs : (s.charge r).regs = s.regs := by rw [s.charge_rest r]
  unfold State.redispatch
  extract_lets u d cands best ready due u1
  have isReady : ready = [!(s.disp r).part] := urgent
  have isDue : (due u (!(s.disp r).part) != 0) = true := by
    show (((s.charge r).queue ((s.charge r).berth _).queue.toNat).deficit != 0) = true
    rw [s.berth_charge]
    exact bne_iff_ne.mpr owed
  have same : u1 = u := if_pos (by rw [isReady, List.any_cons, isDue, Bool.true_or])
  have disp : d = s.disp r := s.disp_charge r r
  have first : ready.find? (fun p => due u1 p != 0) = some (!(s.disp r).part) := by
    rw [same, isReady]
    exact List.find?_cons_of_pos isDue
  rw [first, same]
  dsimp only
  rw [disp, if_neg (by simpa using idle)]
  unfold u due
  rw [s.berth_charge, cycle, regs]
  rfl

/-! ## Interrupt windows (R162) -/

/-- An open window closes with one interrupt, where its queue has an endpoint. -/
theorem State.closeWindow_open {q a n : Nat} (h : (s.queue q).window = some (a, n)) :
    s.closeWindow q = { (s.setQueue q { s.queue q with window := none }) with
      out := s.out ++ if (s.queue q).endpoint = 0 then [] else [.irq (s.queue q).endpoint n (s.queue q).count] } := by
  unfold State.closeWindow
  dsimp only
  rw [h]
  dsimp only
  split
  · rw [List.append_nil]; rfl
  · rfl

end Sys2Proof.Machine

namespace Sys2Proof.Proofs

open Sys2Proof.Laws Sys2Proof.Machine Sys2Proof.Claims

/-- Freezes and drains (R149, R152, R153). -/
theorem freezing : Claims.Freezing := by
  intro s r d b busy s1 c
  have busyIff : s.berthBusy r.toNat = true ↔ busy := s.berthBusy_iff r.toNat
  refine ⟨fun word idle => ?_, fun h => ?_, fun runs ends => ?_, fun early => ⟨?_, ?_⟩⟩
  · exact congrArg _ (s.freeze_acted word (fun e => idle (busyIff.mp e)))
  · exact congrArg _ (s.freeze_waits (h.imp_right busyIff.mpr))
  · exact congrArg _ (if_neg (by simp [d] at runs ends ⊢; omega))
  · exact congrArg _ (if_pos (by simp [d] at early ⊢; omega))
  · have none : s.served r.toNat = none := if_pos (Nat.le_of_lt early)
    unfold State.issuing
    rw [none]
    rfl

/-- Ends of slices and long stalls (R150). -/
theorem redispatching : Claims.Redispatching := by
  refine ⟨fun s r => ⟨fun due => ?_, fun early => ?_⟩, fun s c => ⟨fun due => ?_, fun early => ?_⟩⟩
  · exact congrArg _ (if_pos due)
  · exact congrArg _ (if_neg (by rw [early]; decide))
  · exact congrArg _ (if_pos due)
  · exact congrArg _ (if_neg (by rw [early]; decide))

/-- A dispatch that changes the partition (R148, R150). -/
theorem mostUrgentServed : Claims.MostUrgentServed := by
  intro s r _ d other mine ready less owed idle t
  have urgent : (s.charge r).urgent r = [!d.part] := by
    have := (s.charge r).urgent_other (r := r) (by rw [s.servable_charge, s.disp_charge]; exact ready) (by
      rw [s.servable_charge, s.disp_charge, s.berth_charge, s.berth_charge]; exact less)
    rwa [s.disp_charge] at this
  have run : t = _ := s.redispatch_other urgent owed idle
  have mineIs := congrArg (fun u => u.disp r) run
  simp only [State.disp_setDisp_same] at mineIs
  rw [mineIs]
  refine ⟨rfl, rfl, rfl, rfl, fun k _ hk => ?_⟩
  rw [run, State.disp_setDisp_ne _ hk, s.disp_charge]

/-- Closing interrupt windows (R162). -/
theorem windowCloses : Claims.WindowCloses := by
  intro s q a n x opened
  have due : s.windowDue q.toNat = decide (a + x.coalesce.toNat * 4000 ≤ s.cycle) := by
    unfold State.windowDue
    rw [show (s.queue q.toNat).window = _ from opened]
    rfl
  refine ⟨fun late => ?_, fun early => ?_⟩
  · have run : exec (.coalesceWindowClose q) s = .next (s.closeWindow q.toNat) :=
      congrArg Host.Outcome.next (if_pos (by rw [due]; exact decide_eq_true late))
    rw [s.closeWindow_open opened] at run
    exact ⟨_, run, s.queue_setQueue_same _ _, rfl, rfl⟩
  · exact congrArg _ (if_neg (by rw [due, decide_eq_false (Nat.not_le.mpr early)]; decide))

/-- Settles O24: a dispatch of the other partition follows from its being the only most urgent candidate; the other parts are the
conditions of each event. -/
theorem dispatchEvents : Obligations.DispatchEvents := ⟨freezing, redispatching, mostUrgentServed, windowCloses⟩

end Sys2Proof.Proofs
end

section
/-!
Writes of package registers (R159, R160, R257, R339, R388, R391).
-/

namespace Sys2Proof.Machine

open Sys2Proof.Laws Sys2Proof.Claims

/-- No entry comes twice in a list without its repetitions. -/
theorem nodup_eraseDups {α : Type} [BEq α] [LawfulBEq α] : (l : List α) → l.eraseDups.Nodup
  | [] => List.nodup_nil
  | a :: l => by
    rw [List.eraseDups_cons]
    refine List.nodup_cons.mpr ⟨fun h => ?_, nodup_eraseDups _⟩
    have := (List.mem_filter.mp (List.mem_eraseDups.mp h)).2
    simp at this
  termination_by l => l.length
  decreasing_by exact Nat.lt_succ_of_le (List.length_filter_le _ _)

/-! ## Offsets -/

/-- Registers of the package that take a value into `State.regs`. -/
def plainOffsets : List Nat := [0x018, 0x138, 0x140, 0x200, 0x208, 0x300, 0x308, 0x608, 0x610]
/-- Registers of the fault buffer. -/
def bufferOffsets : List Nat := [0x100, 0x108, 0x118]
/-- Registers whose write is an event. -/
def eventOffsets : List Nat := [0x120, 0x210, 0x510]
/-- A register of `regOffsets` is one of these, or one of the first four of a queue's block. -/
theorem regOffsets_cases {off : Nat} (h : off ∈ regOffsets) : off ∈ plainOffsets ∨ off ∈ bufferOffsets ∨ off ∈ eventOffsets ∨
    ∃ q < 256, ∃ k ∈ [0, 0x08, 0x10, 0x18], off = 0x10000 + 64 * q + k := by
  rcases List.mem_append.mp h with fixed | block
  · have sorted : ∀ off ∈ [0x018, 0x100, 0x108, 0x118, 0x120, 0x138, 0x140, 0x200, 0x208, 0x210, 0x300, 0x308, 0x510, 0x608, 0x610],
        off ∈ plainOffsets ∨ off ∈ bufferOffsets ∨ off ∈ eventOffsets := by decide
    rcases sorted off fixed with h | h | h
    · exact .inl h
    · exact .inr (.inl h)
    · exact .inr (.inr (.inl h))
  · obtain ⟨q, hq, reg⟩ := List.mem_flatMap.mp block
    refine .inr (.inr (.inr ⟨q, List.mem_range.mp hq, off - (0x10000 + 64 * q), ?_, ?_⟩))
    all_goals
      simp only [List.mem_cons, List.not_mem_nil, or_false] at reg ⊢
      omega
/-- Registers below the queues' blocks. -/
theorem fixedOffsets_lt : ∀ off ∈ plainOffsets ++ bufferOffsets ++ eventOffsets, off % 8 = 0 ∧ off < 0x10000 := by decide
theorem regOffsets_aligned {off : Nat} (h : off ∈ regOffsets) : off % 8 = 0 ∧ off < 0x100000000 := by
  have low : off ∈ plainOffsets ++ bufferOffsets ++ eventOffsets → off % 8 = 0 ∧ off < 0x100000000 := fun h => by
    have := fixedOffsets_lt off h
    omega
  rcases regOffsets_cases h with h | h | h | ⟨q, hq, k, hk, rfl⟩
  · exact low (by simp [h])
  · exact low (by simp [h])
  · exact low (by simp [h])
  · simp only [List.mem_cons, List.not_mem_nil, or_false] at hk
    omega

variable (s : State)

/-! ## One write -/

/-- The address of a register is its offset from register 0 (R9). -/
theorem regAddr_offset {off : Nat} (aligned : off % 8 = 0) :
    (0x30000000000 + off - regBase) % 8 = 0 ∧ 0x30000000000 + off - regBase = off := by
  unfold regBase
  omega
/-- A write of all eight bytes of a register writes it. -/
theorem State.regPut_word {off : Nat} (aligned : off % 8 = 0) (v : Word) :
    s.regPut (0x30000000000 + off) (leList 8 v.toNat) = s.regWrite off v := by
  obtain ⟨o, at'⟩ := regAddr_offset aligned
  have value : leVal (leList 8 v.toNat) = v.toNat := by
    rw [leVal_leList]; exact Nat.mod_eq_of_lt v.isLt
  unfold State.regPut
  dsimp only
  rw [o, at', length_leList, if_neg (by decide), List.take_zero, List.nil_append,
    List.drop_eq_nil_of_le (by rw [length_leList]), List.append_nil, value, BitVec.ofNat_toNat, BitVec.setWidth_eq]
  rfl
theorem regAddr_toNat {off : Nat} (h : off < 0x100000000) : (BitVec.ofNat 52 (0x30000000000 + off)).toNat = 0x30000000000 + off := by
  rw [BitVec.toNat_ofNat]; omega
theorem State.place_regs {off : Nat} (h : off < 0x100000000) : s.place (0x30000000000 + off) = .registers := by
  unfold State.place placeOf
  rw [if_neg (by omega), if_neg (by omega), if_neg (by omega), if_neg (by omega), if_neg (by omega), if_neg (by omega),
    if_neg (by omega), if_pos (by omega)]
/-- A write of a register by its eight bytes, before Ready and after it. -/
theorem exec_registerWrite {off : Nat} (aligned : off % 8 = 0) (inside : off < 0x100000000) (v : Word) :
    exec (.registerWrite (BitVec.ofNat 52 (0x30000000000 + off)) v) s = .next (if s.start.ready = true then
      match s.regWrite off v with
      | some t => t.reply true []
      | none => s.reply false []
    else s.reply false []) := by
  show execRegisterWrite _ v s = _
  unfold execRegisterWrite
  rw [regAddr_toNat inside, s.place_regs inside, if_pos (by simp; omega)]
  unfold State.hostReg
  rw [s.regPut_word aligned v]
  cases s.start.ready <;> rfl

/-! ## What each register does -/

theorem State.ite_regs (p : Prop) [Decidable p] (r : PkgRegs) :
    (if p then { s with regs := r } else s) = { s with regs := if p then r else s.regs } := by
  split <;> rfl
theorem State.ite_fb (p : Prop) [Decidable p] (f : FaultBuf) :
    (if p then { s with fb := f } else s) = { s with fb := if p then f else s.fb } := by
  split <;> rfl
/-- A value enters its register where it is in range and aligned (R160, R257, R339, R391). -/
theorem State.regWrite_plain {off : Nat} (h : off ∈ plainOffsets) (v : Word) :
    s.regWrite off v = some { s with regs := regsAfter s.regs off v } := by
  simp only [plainOffsets, List.mem_cons, List.not_mem_nil, or_false] at h
  rcases h with rfl | rfl | rfl | rfl | rfl | rfl | rfl | rfl | rfl
  all_goals simp [State.regWrite, regsAfter, queueBase, State.ite_regs]
theorem fbSizeOk_iff (n : Nat) : fbSizeOk n = true ↔ ∃ i < 9, n = 256 * 2 ^ i := by
  unfold fbSizeOk
  simp
/-- A register of the fault buffer takes its value, and FBSTAT stays set only while no space is free (R158, R160). -/
theorem State.regWrite_buffer {off : Nat} (h : off ∈ bufferOffsets) (v : Word) :
    s.regWrite off v = some { s with fb := fbAfter s.fb off v } := by
  have settle : FaultBuf.settle = fbKept := rfl
  simp only [bufferOffsets, List.mem_cons, List.not_mem_nil, or_false] at h
  rcases h with rfl | rfl | rfl
  all_goals simp [State.regWrite, fbAfter, queueBase, settle, fbSizeOk_iff, State.ite_fb]
/-- The acts that a write of a register makes the next ones (R159, R257, R388). -/
def regActs (off : Nat) (v : Word) : List Act :=
  if off = 0x120 then [.ev .fbflush]
  else if off = 0x210 then (if v.toNat % 4 = 1 then [.ev .invalidatePage] else if v.toNat % 4 = 2 then [.ev .invalidateContext] else [])
  else if off = 0x510 then (if v.toNat % 4 = 1 then [.ev .startctlClear] else if v.toNat % 4 = 2 then [.ev .maintenanceReset]
    else if v.toNat % 4 = 3 then [.ev .warmReset] else [])
  else []
theorem State.regWrite_event {off : Nat} (h : off ∈ eventOffsets) (v : Word) :
    s.regWrite off v = some { s with agenda := regActs off v ++ s.agenda } := by
  simp only [eventOffsets, List.mem_cons, List.not_mem_nil, or_false] at h
  rcases h with rfl | rfl | rfl
  · rfl
  · have run : s.regWrite 0x210 v = some (if v.toNat % 4 = 1 then s.soon .invalidatePage
        else if v.toNat % 4 = 2 then s.soon .invalidateContext else s) := rfl
    rw [run]
    unfold regActs
    split
    · rfl
    · split <;> rfl
  · have run : s.regWrite 0x510 v = some (match v.toNat % 4 with
        | 1 => s.soon .startctlClear | 2 => s.soon .maintenanceReset | 3 => s.soon .warmReset | _ => s) := rfl
    have small : v.toNat % 4 < 4 := Nat.mod_lt _ (by decide)
    rw [run]
    unfold regActs
    generalize v.toNat % 4 = n at small ⊢
    interval_cases n <;> rfl

/-! ## A queue's block -/

/-- A queue after a write of one of the first four registers of its block (R160). -/
def Queue.blockWrite (x : Queue) (k : Nat) (v : Word) : Queue :=
  if k = 0 then queueWord x v
  else if k = 0x08 then { x with endpoint := v }
  else if k = 0x10 then { x with notify := v }
  else { x with report := v }
/-- Gangs of launches that a queue holds at step 3, as the loader acts on them when the queue is disabled (R145). -/
def State.heldGangs (q : Nat) : List Nat :=
  ((s.tasks.filter (fun p => p.2.queue.toNat == q && p.2.step3.isSome)).map (·.2.gang)).eraseDups
/-- The acts that a write of a register of a queue's block makes the next ones. -/
def State.blockActs (q k : Nat) (v : Word) : List Act :=
  if k = 0 ∧ v.getLsbD 10 = false then ((s.heldGangs q).map (fun g => Act.ev (.gangPlacement g))).reverse else []
theorem State.blockActs_nodup (q k : Nat) (v : Word) : (s.blockActs q k v).Nodup := by
  unfold State.blockActs
  split
  · refine List.nodup_reverse.mpr ((nodup_eraseDups _).map fun g h e => ?_)
    injection e with e
    injection e
  · exact List.nodup_nil
theorem State.mem_blockActs {q : Nat} {v : Word} {e : Act} : e ∈ s.blockActs q 0 v ↔ v.getLsbD 10 = false ∧
    ∃ p ∈ s.tasks, p.2.queue.toNat = q ∧ p.2.step3.isSome = true ∧ e = .ev (.gangPlacement p.2.gang) := by
  unfold State.blockActs State.heldGangs
  by_cases h : v.getLsbD 10 = false
  · rw [if_pos ⟨rfl, h⟩]
    simp only [List.mem_reverse, List.mem_map, List.mem_eraseDups, List.mem_filter, Bool.and_eq_true, beq_iff_eq]
    constructor
    · rintro ⟨g, ⟨p, ⟨hp, hq, held⟩, rfl⟩, rfl⟩
      exact ⟨h, p, hp, hq, held, rfl⟩
    · rintro ⟨-, p, hp, hq, held, rfl⟩
      exact ⟨_, ⟨p, ⟨hp, hq, held⟩, rfl⟩, rfl⟩
  · rw [if_neg (fun k => h k.2)]
    simp [h]
theorem State.soon_all (f : Nat → Instr) (l : List Nat) :
    l.foldl (fun s g => s.soon (f g)) s = { s with agenda := (l.map (fun g => Act.ev (f g))).reverse ++ s.agenda } := by
  induction l generalizing s with
  | nil => rfl
  | cons g l ih =>
    rw [List.foldl_cons, ih]
    unfold State.soon
    simp
/-- The fields of a queue's first register, as bits of the value. -/
theorem queueWord_eq (x : Queue) (v : Word) : queueWord x v = { x with
    weight := if v.setWidth 8 = 0 then 1 else v.setWidth 8, cls := (v >>> 8).setWidth 2, enable := v.getLsbD 10
    debugged := v.getLsbD 11, holdOn := v.getLsbD 12, coalesce := (v >>> 16).setWidth 16 } := by
  have weight : (v.setWidth 8 = 0) = (v.toNat % 256 = 0) := by
    rw [← BitVec.toNat_inj, BitVec.toNat_setWidth]
    rfl
  have cls : (v >>> 8).setWidth 2 = BitVec.ofNat 2 (v.toNat / 256) := BitVec.eq_of_toNat_eq (by
    simp [BitVec.toNat_setWidth, BitVec.toNat_ushiftRight, Nat.shiftRight_eq_div_pow])
  have coalesce : (v >>> 16).setWidth 16 = BitVec.ofNat 16 (v.toNat / 65536) := BitVec.eq_of_toNat_eq (by
    simp [BitVec.toNat_setWidth, BitVec.toNat_ushiftRight, Nat.shiftRight_eq_div_pow])
  simp only [weight, cls, coalesce]
  unfold queueWord
  rw [BitVec.ofNat_toNat]
theorem State.regWrite_block {q k : Nat} (hq : q < 256) (hk : k ∈ [0, 0x08, 0x10, 0x18]) (v : Word) :
    s.regWrite (0x10000 + 64 * q + k) v = some { s.setQueue q ((s.queue q).blockWrite k v) with
      agenda := s.blockActs q k v ++ s.agenda } := by
  have small : k < 64 := by
    simp only [List.mem_cons, List.not_mem_nil, or_false] at hk
    omega
  obtain ⟨inside, block, reg⟩ := queueOffset hq small
  have run : s.regWrite (0x10000 + 64 * q + k) v = s.queueWrite q k v := by
    unfold State.regWrite
    dsimp only
    rw [if_pos inside, block, reg]
  have word : s.queueWrite q 0 v = if v.getLsbD 10 = true then some (s.setQueue q (queueWord (s.queue q) v))
      else some ((s.heldGangs q).foldl (fun s g => s.soon (.gangPlacement g)) (s.setQueue q (queueWord (s.queue q) v))) := by
    rw [queueWord_eq]
    rfl
  rw [run]
  simp only [List.mem_cons, List.not_mem_nil, or_false] at hk
  rcases hk with rfl | rfl | rfl | rfl
  · rw [word]
    unfold State.blockActs
    split
    · next on => rw [if_neg (by simp [on])]; rfl
    · next off => rw [State.soon_all, if_pos ⟨rfl, Bool.eq_false_iff.mpr off⟩]; rfl
  · rfl
  · rfl
  · rfl

/-! ## What a write has done -/

theorem regsAfter_other (r : PkgRegs) {off : Nat} (h : off ∉ plainOffsets) (v : Word) : regsAfter r off v = r := by
  simp only [plainOffsets, List.mem_cons, List.not_mem_nil, or_false, not_or] at h
  unfold regsAfter
  simp [h]
theorem fbAfter_other (f : FaultBuf) {off : Nat} (h : off ∉ bufferOffsets) (v : Word) : fbAfter f off v = f := by
  simp only [bufferOffsets, List.mem_cons, List.not_mem_nil, or_false, not_or] at h
  unfold fbAfter
  simp [h]
/-- A write below the queues' blocks is one that leaves every queue. -/
theorem regWritten_fixed {s t : State} {off : Nat} {v : Word} (low : off < 0x10000) (regs : t.regs = regsAfter s.regs off v)
    (fb : t.fb = fbAfter s.fb off v) (acts : off ∈ eventOffsets → t.agenda = regActs off v ++ s.agenda)
    (queues : t.queues = s.queues) : RegWritten s t off v := by
  refine ⟨regs, fb, ?_, ?_, ?_, fun q _ => ⟨?_, ?_, ?_, ?_, fun _ => ?_⟩⟩
  · rintro rfl; exact acts (by decide)
  · rintro rfl; exact acts (by decide)
  · rintro rfl; exact acts (by decide)
  · intro; omega
  · intro; omega
  · intro; omega
  · intro; omega
  · unfold State.queue; rw [queues]
/-- A write of a register of a queue's block changes that queue, and when it disables the queue the next acts. -/
theorem State.regWritten_block {q k : Nat} (hq : q < 256) (hk : k ∈ [0, 0x08, 0x10, 0x18]) (v : Word) :
    RegWritten s { s.setQueue q ((s.queue q).blockWrite k v) with agenda := s.blockActs q k v ++ s.agenda }
      (0x10000 + 64 * q + k) v := by
  have high : ∀ off < 0x10000, 0x10000 + 64 * q + k ≠ off := fun off h => by omega
  have fixed : ∀ off ∈ plainOffsets ++ bufferOffsets ++ eventOffsets, 0x10000 + 64 * q + k ≠ off := fun off h =>
    high off (fixedOffsets_lt off h).2
  simp only [List.mem_cons, List.not_mem_nil, or_false] at hk
  have written : ({ s.setQueue q ((s.queue q).blockWrite k v) with agenda := s.blockActs q k v ++ s.agenda } : State).queue q =
    (s.queue q).blockWrite k v := s.queue_setQueue_same q _
  refine ⟨?_, ?_, fun h => absurd h (high _ (by decide)), fun h => absurd h (high _ (by decide)),
    fun h => absurd h (high _ (by decide)), fun p hp => ⟨fun h => ?_, fun h => ?_, fun h => ?_, fun h => ?_, fun h => ?_⟩⟩
  · exact (regsAfter_other _ (fun h => fixed _ (by simp [h]) rfl) v).symm
  · exact (fbAfter_other _ (fun h => fixed _ (by simp [h]) rfl) v).symm
  · obtain ⟨rfl, rfl⟩ : p = q ∧ k = 0 := by omega
    exact ⟨written, _, rfl, s.blockActs_nodup p 0 v, fun e => s.mem_blockActs⟩
  · obtain ⟨rfl, rfl⟩ : p = q ∧ k = 0x08 := by omega
    exact written
  · obtain ⟨rfl, rfl⟩ : p = q ∧ k = 0x10 := by omega
    exact written
  · obtain ⟨rfl, rfl⟩ : p = q ∧ k = 0x18 := by omega
    exact written
  · refine s.queue_setQueue_ne (fun e => h ?_) _
    simp only [List.mem_cons, List.not_mem_nil, or_false]
    omega
/-- A write of each register of `regOffsets` does what the statement says, and leaves memory, threads, tasks and output. -/
theorem State.regWrite_written {off : Nat} (h : off ∈ regOffsets) (v : Word) : ∃ t, s.regWrite off v = some t ∧
    RegWritten s t off v ∧ t.out = s.out ∧ t.mem = s.mem ∧ t.threads = s.threads ∧ t.tasks = s.tasks := by
  have apart : ∀ off ∈ plainOffsets, off ∉ bufferOffsets ∧ off ∉ eventOffsets := by decide
  have apart' : ∀ off ∈ bufferOffsets, off ∉ plainOffsets ∧ off ∉ eventOffsets := by decide
  have apart'' : ∀ off ∈ eventOffsets, off ∉ plainOffsets ∧ off ∉ bufferOffsets := by decide
  rcases regOffsets_cases h with h | h | h | ⟨q, hq, k, hk, rfl⟩
  · refine ⟨_, s.regWrite_plain h v, regWritten_fixed (fixedOffsets_lt off (by simp [h])).2 rfl ?_ ?_ rfl, rfl, rfl, rfl, rfl⟩
    · exact (fbAfter_other _ (apart off h).1 v).symm
    · exact fun e => absurd e (apart off h).2
  · refine ⟨_, s.regWrite_buffer h v, regWritten_fixed (fixedOffsets_lt off (by simp [h])).2 ?_ rfl ?_ rfl, rfl, rfl, rfl, rfl⟩
    · exact (regsAfter_other _ (apart' off h).1 v).symm
    · exact fun e => absurd e (apart' off h).2
  · refine ⟨_, s.regWrite_event h v, regWritten_fixed (fixedOffsets_lt off (by simp [h])).2 ?_ ?_ (fun _ => rfl) rfl,
      rfl, rfl, rfl, rfl⟩
    · exact (regsAfter_other _ (apart'' off h).1 v).symm
    · exact (fbAfter_other _ (apart'' off h).2 v).symm
  · exact ⟨_, s.regWrite_block hq hk v, s.regWritten_block hq hk v, rfl, rfl, rfl, rfl⟩

end Sys2Proof.Machine

namespace Sys2Proof.Proofs

open Sys2Proof.Machine Sys2Proof.Claims

/-- Writes of registers, before Ready and after it (R159, R160, R257, R388). -/
theorem registerWrites : Claims.RegisterWrites := by
  intro s off v listed
  obtain ⟨aligned, inside⟩ := regOffsets_aligned listed
  obtain ⟨t, run, written, out, mem, threads, tasks⟩ := s.regWrite_written listed v
  refine ⟨fun ready => ⟨t.reply true [], ?_, written, ?_, mem, threads, tasks⟩, fun early => ?_⟩
  · rw [exec_registerWrite s aligned inside, if_pos ready, run]
  · unfold State.reply; rw [out]
  · rw [exec_registerWrite s aligned inside, if_neg (by rw [early]; decide)]
    rfl

end Sys2Proof.Proofs
end

section
/-!
The host's reads and writes (R72, R255, R366), and invalidations (R257).
-/

namespace Sys2Proof.Machine

open Sys2Proof.Laws Sys2Proof.Claims

/-! ## Reads -/

/-- An access within 4 KiB is one that the host may make. -/
theorem hostRange_page {pa n : Nat} (some : 1 ≤ n) (page : pa % 4096 + n ≤ 4096) : hostRange pa n = true := by
  unfold hostRange
  simp only [Bool.and_eq_true, decide_eq_true_eq, beq_iff_eq]
  omega

variable (s : State)

/-- A read of all eight bytes of a register answers them. -/
theorem State.regBytes_word {off : Nat} (aligned : off % 8 = 0) {v : Word} (reads : s.regRead off = some v) :
    s.regBytes (0x30000000000 + off) 8 = some (leList 8 v.toNat) := by
  obtain ⟨o, at'⟩ := regAddr_offset aligned
  unfold State.regBytes
  dsimp only
  rw [o, at', if_neg (by decide)]
  show (s.regRead off).map _ = _
  rw [reads, Option.map_some, List.drop_zero, List.take_of_length_le (by rw [length_leList])]
/-- A read of live, sound memory answers its bytes, with an error where a check fails. -/
theorem State.hostRead_memory {pa n : Nat} (ready : s.start.ready = true) (range : hostRange pa n = true)
    (place : s.place pa = .device ∨ s.place pa = .attention ∨ s.place pa = .basin)
    (live : ∀ l, s.leafAt pa = some l → pteBit l.1 10 = true) (soft : ∀ g ∈ granulesOf pa n, s.hardMem (64 * g) = false) :
    s.hostRead pa n = s.reply ((granulesOf pa n).all s.checkOk) (s.bytes pa n) := by
  have alive : (s.leafAt pa).any (fun l => !pteBit l.1 10) = false := by
    cases h : s.leafAt pa with
    | none => rfl
    | some l => simpa using live l h
  have none : (granulesOf pa n).find? (fun g => s.hardMem (64 * g)) = none :=
    List.find?_eq_none.mpr fun g hg => by rw [soft g hg]; decide
  unfold State.hostRead
  rw [range, ready, alive, none]
  rcases place with h | h | h <;> rw [h] <;> rfl

/-! ## Writes of granules whose checks hold (R72) -/

/-- `u` is `s` with bytes written from an address on, and the checks of their granules made anew. -/
structure State.Stored (s : State) (pa : Nat) (bs : List Byte) (u : State) : Prop where
  only : u = { s with mem := u.mem, checks := u.checks }
  bytes : ∀ y, u.byte y = if pa ≤ y ∧ y < pa + bs.length then bs.getD (y - pa) 0 else s.byte y
  sound : ∀ g, pa / 64 ≤ g → 64 * g < pa + bs.length → u.checkOk g = true
  other : ∀ g, (g < pa / 64 ∨ pa + bs.length ≤ 64 * g) → u.checkOk g = s.checkOk g

/-- One piece of a write, with the granules refused before it. -/
def writePiece (p : State × List Nat) (q : Nat × List Byte) : State × List Nat :=
  let (s2, ok) := p.1.writeGranule q.1 q.2
  (s2, if ok then p.2 else p.2 ++ [q.1 / 64])
/-- A write of granules whose checks hold stores every piece of it. -/
theorem State.writePieces_stored : ∀ (n pa : Nat) (bs : List Byte) (s : State), pa % 64 + bs.length ≤ 64 * n →
    (∀ g, pa / 64 ≤ g → 64 * g < pa + bs.length → s.checkOk g = true) →
    ∃ u, (splitGranules n pa bs).foldl writePiece (s, []) = (u, []) ∧ s.Stored pa bs u
  | 0, pa, bs, s, room, sound => by
    have none : bs = [] := List.length_eq_zero_iff.mp (by omega)
    subst none
    exact ⟨s, rfl, rfl, fun y => (if_neg (by simp)).symm, sound, fun _ _ => rfl⟩
  | n + 1, pa, [], s, _, sound =>
    ⟨s, rfl, rfl, fun y => (if_neg (by simp)).symm, sound, fun _ _ => rfl⟩
  | n + 1, pa, b :: bs, s, room, sound => by
    have split : splitGranules (n + 1) pa (b :: bs) = (pa, (b :: bs).take (64 - pa % 64)) ::
        splitGranules n (pa + (64 - pa % 64)) ((b :: bs).drop (64 - pa % 64)) := rfl
    have length : ((b :: bs).take (64 - pa % 64)).length = min (64 - pa % 64) (b :: bs).length := List.length_take
    have left : ((b :: bs).drop (64 - pa % 64)).length = (b :: bs).length - (64 - pa % 64) := List.length_drop
    have pos : 0 < (b :: bs).length := Nat.succ_pos _
    obtain ⟨v, run, made⟩ := s.writeGranule_made pa ((b :: bs).take (64 - pa % 64)) (.inr (sound _ (Nat.le_refl _) (by omega)))
    have kept : ∀ g, g ≠ pa / 64 → v.checkOk g = s.checkOk g := fun g hg => State.Made.checkOk run (by omega) hg
    obtain ⟨u, rest, stored⟩ := State.writePieces_stored n (pa + (64 - pa % 64)) ((b :: bs).drop (64 - pa % 64)) v (by omega)
      fun g h1 h2 => by
        rw [kept g (by omega)]
        exact sound g (by omega) (by omega)
    have one : writePiece (s, []) (pa, (b :: bs).take (64 - pa % 64)) = (v, []) := by
      unfold writePiece
      rw [run]
      rfl
    generalize b :: bs = l at *
    refine ⟨u, ?_, ?_, fun y => ?_, fun g h1 h2 => ?_, fun g h => ?_⟩
    · rw [split, List.foldl_cons, one, rest]
    · rw [stored.only, made.only]
    · rw [stored.bytes, made.bytes, length, left]
      by_cases first : pa ≤ y ∧ y < pa + min (64 - pa % 64) l.length
      · rw [if_neg (by omega), if_pos first, if_pos (by omega), List.getD_eq_getElem?_getD, List.getElem?_take_of_lt (by omega),
          ← List.getD_eq_getElem?_getD]
      · rw [if_neg first]
        refine if_ctx_congr (by omega) (fun h => ?_) fun _ => rfl
        rw [List.getD_eq_getElem?_getD, List.getElem?_drop, ← List.getD_eq_getElem?_getD]
        congr 1
        omega
    · by_cases first : g = pa / 64
      · rw [stored.other g (by omega), first]
        exact made.sound
      · exact stored.sound g (by omega) (by omega)
    · rw [stored.other g (by omega), kept g (by omega)]
theorem State.write_stored {pa : Nat} {bs : List Byte} (some : 1 ≤ bs.length) (sound : ∀ g ∈ granulesOf pa bs.length, s.checkOk g = true) :
    ∃ u, s.write pa bs = (u, []) ∧ s.Stored pa bs u :=
  State.writePieces_stored _ pa bs s (by omega) fun g h1 h2 => sound g (mem_granulesOf.mpr (by omega))

/-- The entries of dead pages in which a write has set Live (R255). -/
theorem State.mem_raisedIn {t : State} {pa n e : Nat} (some : 1 ≤ n) : e ∈ s.raisedIn t pa n ↔ e % 8 = 0 ∧ pa < e + 8 ∧ e < pa + n ∧
    pteBit (s.word e) 0 = true ∧ pteBit (s.word e) 1 = true ∧ pteBit (s.word e) 10 = false ∧ pteBit (t.word e) 10 = true := by
  have words : e ∈ (List.range ((pa % 8 + n + 7) / 8)).map (fun k => pa / 8 * 8 + 8 * k) ↔ e % 8 = 0 ∧ pa < e + 8 ∧ e < pa + n := by
    rw [List.mem_map]
    constructor
    · rintro ⟨k, hk, rfl⟩
      have := List.mem_range.mp hk
      omega
    · rintro ⟨h1, h2, h3⟩
      exact ⟨e / 8 - pa / 8, List.mem_range.mpr (by omega), by omega⟩
  unfold State.raisedIn
  rw [List.mem_filter, words]
  simp only [Bool.and_eq_true, Bool.not_eq_true', and_assoc]
/-- What a write to memory by the host does. -/
theorem State.hostWrite_memory {pa : Nat} {bs : List Byte} {u : State} (ready : s.start.ready = true)
    (range : hostRange pa bs.length = true) (place : s.place pa = .device ∨ s.place pa = .attention ∨ s.place pa = .basin)
    (write : s.write pa bs = (u, [])) :
    s.hostWrite pa bs = ({ u with raised := (u.raised ++ s.raisedIn u pa bs.length).eraseDups } : State).reply true [] := by
  unfold State.hostWrite
  rw [range, ready]
  rcases place with h | h | h <;> rw [h, write] <;> rfl

end Sys2Proof.Machine

namespace Sys2Proof.Proofs

open Sys2Proof.Machine Sys2Proof.Claims

/-- Reads of registers and of memory by the host (R366). -/
theorem hostReads : Claims.HostReads := by
  refine ⟨fun s off v ready aligned inside reads => ?_, fun s a n ready some page place live soft => ?_⟩
  · show Host.Outcome.next (s.hostRead _ 8) = _
    rw [regAddr_toNat inside]
    unfold State.hostRead
    rw [hostRange_page (by decide) (by omega), ready, s.place_regs inside, s.regBytes_word aligned reads]
    rfl
  · exact congrArg _ (s.hostRead_memory ready (hostRange_page some page) place live soft)

/-- Writes of memory by the host (R72, R255, R366). -/
theorem hostWrites : Claims.HostWrites := by
  intro s a bs ready some page place sound
  obtain ⟨u, write, stored⟩ := s.write_stored some sound
  have outOf : u.out = s.out := by rw [stored.only]
  have raisedOf : u.raised = s.raised := by rw [stored.only]
  refine ⟨_, congrArg Host.Outcome.next (s.hostWrite_memory ready (hostRange_page some page) place write), ?_, stored.bytes, fun g hg => ?_,
    fun e => ?_, ?_⟩
  · show u.out ++ _ = _
    rw [outOf]
  · obtain ⟨-, lo, hi⟩ := mem_granulesOf.mp hg
    exact stored.sound g lo (by omega)
  · show e ∈ List.eraseDups _ ↔ _
    rw [List.mem_eraseDups, List.mem_append, s.mem_raisedIn some, raisedOf]
    rfl
  · unfold State.reply
    rw [stored.only]

end Sys2Proof.Proofs
end

section
/-!
Invalidations (R122, R253 to R257): what they take from the TLBs, and what they leave.
-/

namespace Sys2Proof.Machine

open Sys2Proof.Laws Sys2Proof.Claims

/-- `t` differs from `s` in what an invalidation may change beside the TLBs alone: memory, tasks, pins, what is known of dead
pages, fault records and the gangs that end. -/
def State.Repatched (s t : State) : Prop :=
  t = { s with mem := t.mem, checks := t.checks, tasks := t.tasks, pins := t.pins, dead := t.dead, raised := t.raised
               faultQ := t.faultQ, recorded := t.recorded, fb := t.fb, dying := t.dying }

theorem State.Repatched.trans {s t u : State} (h : s.Repatched t) (k : t.Repatched u) : s.Repatched u := by
  unfold State.Repatched at *
  rw [k, h]
/-- Steps each of which only repatches do so together. -/
theorem State.Repatched.foldl {α : Type} {f : State → α → State} (one : ∀ (s : State) (a : α), s.Repatched (f s a)) (l : List α) (s : State) :
    s.Repatched (l.foldl f s) :=
  List.foldlRecOn (motive := s.Repatched) l _ rfl fun t h a _ => h.trans (one t a)
theorem State.OnlyTasks.repatched {s t : State} (h : s.OnlyTasks t) : s.Repatched t := by
  unfold State.Repatched
  rw [h]

theorem State.Repatched.tlb1 {s t : State} (h : s.Repatched t) : t.tlb1 = s.tlb1 := by rw [h]
theorem State.Repatched.tlb2 {s t : State} (h : s.Repatched t) : t.tlb2 = s.tlb2 := by rw [h]
theorem State.Repatched.regs {s t : State} (h : s.Repatched t) : t.regs = s.regs := by rw [h]
theorem State.Repatched.threads {s t : State} (h : s.Repatched t) : t.threads = s.threads := by rw [h]
theorem State.Repatched.out {s t : State} (h : s.Repatched t) : t.out = s.out := by rw [h]

variable (s : State)

theorem State.markWord_repatched (id pa old new : Nat) : s.Repatched (s.markWord id pa old new) := by
  unfold State.markWord
  split
  · rfl
  · unfold State.Repatched
    rw [State.updateFor_rest]
theorem State.patchUnit_repatched (id u : Nat) (store : Bool) : s.Repatched (s.patchUnit id u store) := by
  unfold State.patchUnit
  dsimp only
  split
  · split
    · exact (s.markWord_repatched ..).trans (State.modTask_only ..).repatched
    · exact s.markWord_repatched ..
  · exact (State.modTask_only ..).repatched
theorem State.repatch_repatched (id : Nat) (page : Option Nat) : s.Repatched (s.repatch id page) := by
  unfold State.repatch
  dsimp only
  exact .foldl (fun s p => s.patchUnit_repatched ..) _ s
/-- Dead pages are filled, remembered or forgotten (R255). -/
theorem State.revive_repatched (tenant : BitVec 16) (page : Option Nat) : s.Repatched (s.revive tenant page) := by
  unfold State.revive
  refine .trans (.trans (.foldl (fun s d => ?_) _ _) (.foldl (fun s q => ?_) _ _)) (.foldl (fun s q => ?_) _ _)
  · split
    · split <;> rfl
    · rfl
  · split
    · split
      · split <;> rfl
      · rfl
    · rfl
  · dsimp only
    split <;> rfl
/-- Pins take the entry as it stands, or fall away (R253). -/
theorem State.repin_repatched (tenant : BitVec 16) (page : Option Nat) (d : Nat) : s.Repatched (s.repin tenant page d) := by
  refine .foldl (fun s e => ?_) _ s
  split
  · dsimp only
    split
    · refine State.Repatched.trans (t := { s with pins := mmod s.pins d (fun l => l.erase e) }) rfl ?_
      refine State.Repatched.trans (State.markWord_repatched _ 0 _ _ _) rfl
    · rfl
  · rfl

/-! ## TLBs -/

/-- A TLB of a list of them loses what an invalidation names; no other one does. -/
theorem mget_tlbDrop (tenant : BitVec 16) (page : Option Nat) {l : List Nat} {x : Nat} (hx : x ∈ l) (m : SMap (List TlbEnt)) :
    mget (l.foldl (fun m r => mmod m r (tlbDrop tenant page)) m) x = tlbDrop tenant page (mget m x) :=
  (mget_foldl_hits (hit := fun r => r = x) (f := tlbDrop tenant page)
    (fun v => by unfold tlbDrop; rw [List.filter_filter]; simp) l
    (fun r _ m => ⟨fun h => by rw [h, mget_mmod_same], fun h => mget_mmod_ne m (Ne.symm h) _⟩) m).1 ⟨x, hx, rfl⟩
/-- What an invalidation leaves, and the TLBs after it. -/
theorem State.invalidate_done (tenant : BitVec 16) (page : Option Nat) (regions dies : List Nat) :
    State.Repatched { s with
      tlb1 := regions.foldl (fun m r => mmod m r (tlbDrop tenant page)) s.tlb1
      tlb2 := dies.foldl (fun m d => mmod m d (tlbDrop tenant page)) s.tlb2 } (s.invalidate tenant page regions dies) := by
  have revived := s.revive_repatched tenant page
  unfold State.invalidate
  dsimp only
  refine .trans (.trans ?_ (.foldl (fun s d => s.repin_repatched tenant page d) dies _)) (.foldl (fun s id => s.repatch_repatched id page) _ _)
  rw [revived.tlb1, revived.tlb2]
  unfold State.Repatched
  rw [revived]

/-- The page that INVVA names, where an invalidation is of one page. -/
def State.invPage (page : Bool) : Option Nat := if page then some (s.regs.invVa.toNat / 65536 * 65536) else none
theorem exec_invalidate (page : Bool) :
    exec (if page then .invalidatePage else .invalidateContext) s = .next (s.inval (s.invPage page)) := by
  cases page <;> rfl
theorem State.inval_eq (page : Option Nat) (t : State) (h : s.invalidate s.regs.invCtx page (List.range 16) [0, 1] = t) :
    s.inval page = { t with regs := { t.regs with invDone := t.regs.invDone + 1 } } := by
  unfold State.inval
  rw [h]
theorem State.mem_tlbDrop (page : Bool) (l : List TlbEnt) (e : TlbEnt) :
    e ∈ tlbDrop s.regs.invCtx (s.invPage page) l ↔ e ∈ l ∧ ¬ InvNamed s page e := by
  unfold tlbDrop InvNamed State.invPage
  rw [List.mem_filter]
  cases page with
  | false => simp
  | true =>
    simp only [if_true, Bool.not_eq_true', Bool.and_eq_false_iff, decide_eq_false_iff_not, beq_eq_false_iff_ne]
    tauto

end Sys2Proof.Machine

namespace Sys2Proof.Proofs

open Sys2Proof.Machine Sys2Proof.Claims

/-- Invalidations of a page and of a context (R257). -/
theorem invalidations : Claims.Invalidations := by
  intro s page
  obtain ⟨t, run⟩ : ∃ t, s.invalidate s.regs.invCtx (s.invPage page) (List.range 16) [0, 1] = t := ⟨_, rfl⟩
  have done := s.invalidate_done s.regs.invCtx (s.invPage page) (List.range 16) [0, 1]
  rw [run] at done
  refine ⟨_, (exec_invalidate s page).trans (congrArg _ (s.inval_eq _ t run)), fun r hr e => ?_, fun d hd e => ?_, ?_,
    done.threads, done.out⟩
  · show e ∈ mget t.tlb1 r ↔ _
    rw [done.tlb1, mget_tlbDrop _ _ (List.mem_range.mpr hr), s.mem_tlbDrop]
  · have either : d ∈ [0, 1] := by
      simp only [List.mem_cons, List.not_mem_nil, or_false]
      omega
    show e ∈ mget t.tlb2 d ↔ _
    rw [done.tlb2, mget_tlbDrop _ _ either, s.mem_tlbDrop]
  · show { t.regs with invDone := t.regs.invDone + 1 } = _
    rw [done.regs]
/-- Settles O20: a write of a register sets one field or the next acts, a host write stores granule by granule, and an
invalidation filters the TLBs. -/
theorem registersAndHost : Obligations.RegistersAndHost := ⟨registerWrites, hostReads, hostWrites, invalidations⟩

end Sys2Proof.Proofs
end

section
/-!
Loading: placements (R143 to R145), plane swaps (R146) and the iterations of a batch (R163, R164).
-/

namespace Sys2Proof.Machine

open Sys2Proof.Laws Sys2Proof.Claims

variable (s : State)

/-! ## Placements (R143, R145) -/

/-- A placement with nothing under load, or with every standby plane written already, changes nothing. -/
theorem State.loadGang_idle {g : Nat} (h : (s.gang g).size = 0 ∨ ∀ id ∈ s.underLoad g,
    (mget s.standby (s.task id).ctx.toNat).isSome = true ∧ s.bookedAt (s.task id).ctx = id) : s.loadGang g = s := by
  refine if_pos ?_
  rcases h with h | h
  · simp [h]
  · have all : (s.underLoad g).all (fun id => (mget s.standby (s.task id).ctx.toNat).isSome && s.bookedAt (s.task id).ctx == id) =
        true := List.all_eq_true.mpr fun id hid => by simpa using h id hid
    rw [all, Bool.or_true]
/-- What a placement does with a launch of which something is to be loaded anew. -/
theorem State.loadGang_found {g : Nat} (size : (s.gang g).size ≠ 0) (fresh : ∀ id ∈ s.underLoad g, (s.task id).step3 = none)
    (lacks : ∃ id ∈ s.underLoad g, mget s.standby (s.task id).ctx.toNat = none ∨ s.bookedAt (s.task id).ctx ≠ id) :
    s.loadGang g = match roomFor s g (s.underLoad g) with
      | .ok l => l.finish (s.underLoad g)
      | .wait => s
      | .refuse c n => s.refuse g (s.underLoad g) c n
      | .broken pa tag => (s.refuse g (s.underLoad g) 0x30 [noteOf 0x30 0 0 0 pa]).memErrorAlone pa tag (s.gang g).tenant := by
  obtain ⟨id, hid, lacks⟩ := lacks
  have some : (s.underLoad g).isEmpty = false := List.isEmpty_eq_false_iff.mpr (List.ne_nil_of_mem hid)
  have written : (s.underLoad g).all (fun id => (mget s.standby (s.task id).ctx.toNat).isSome &&
      s.bookedAt (s.task id).ctx == id) = false := List.all_eq_false.mpr ⟨id, hid, by
    rcases lacks with h | h <;> simp [h]⟩
  have held : (s.underLoad g).any (fun id => (s.task id).step3.isSome) = false :=
    List.any_eq_false.mpr fun id hid => by rw [fresh id hid]; decide
  unfold State.loadGang
  dsimp only
  rw [some, written, held, if_neg (by simpa using size), if_neg (by decide)]
  rfl
/-- A fault record joins the queue, unless its generation has it already (R158, R159). -/
theorem State.engRecord_queued (id cmd : Nat) (code : BitVec 8) (addr elem pos : Nat) (held laid ended : Bool) :
    (s.engRecord id cmd code addr elem pos held laid ended).faultQ = s.faultQ ∨
    ∃ r, (s.engRecord id cmd code addr elem pos held laid ended).faultQ = s.faultQ ++ [r] ∧ r.code = code ∧ r.held = held := by
  unfold State.engRecord State.record
  dsimp only
  split
  · exact .inl rfl
  · exact .inr ⟨_, rfl, rfl, rfl⟩
/-- The state in which step 3 begins: what step 2 found, with its notes in the report (R147). -/
def Ld.noted (l : Ld) : State := l.s.setGang l.g { l.s.gang l.g with notes := (l.s.gang l.g).notes ++ l.notes }
/-- A launch that passes every step has its standby planes written, and the swaps of free partitions follow. -/
theorem Ld.finish_done {l l2 : Ld} {ids : List Nat} {s1 : State} (step3 : l.noted.extendAll ids = .done s1)
    (rest : (({ l with s := s1, notes := [], used := s1.framesHeld 0 } : Ld).migrate ids).checkAll ids = .ok l2) :
    ∃ gangs, l.finish ids = { l2.s with
      gangs := gangs
      agenda := (ids.filter (fun id => mget l2.s.owner (l2.s.task id).ctx.toNat = none)).map (fun id =>
        .ev (.planeSwap (l2.s.task id).ctx)) ++ l2.s.agenda } := by
  have free : (fun id => decide (mget l2.s.owner (l2.s.task id).ctx.toNat = none)) =
      fun id => (mget l2.s.owner (l2.s.task id).ctx.toNat).isNone := by
    funext id
    cases mget l2.s.owner (l2.s.task id).ctx.toNat <;> rfl
  refine ⟨mset l2.s.gangs l.g { l2.s.gang l.g with notes := (l2.s.gang l.g).notes ++ l2.notes }, ?_⟩
  unfold Ld.finish
  extract_lets x s
  rw [show s.extendAll ids = _ from step3]
  dsimp only
  rw [rest, free]
  rfl
/-- A launch whose step 3 meets a page fault is held there. -/
theorem Ld.finish_fault {l : Ld} {ids : List Nat} {id cmd va : Nat} (step3 : l.noted.extendAll ids = .fault id cmd va) :
    l.finish ids = (l.noted.modTask id (fun t => { t with step3 := some va })).engRecord id cmd 0x08 va 0 0 true false false := by
  unfold Ld.finish
  extract_lets x s
  rw [show s.extendAll ids = _ from step3]
  rfl

end Sys2Proof.Machine

namespace Sys2Proof.Proofs

open Sys2Proof.Laws Sys2Proof.Machine Sys2Proof.Claims

/-- Placements of a gang (R10, R85, R143 to R145). -/
theorem placement : Claims.Placement := by
  intro s g ids
  refine ⟨fun idle => ?_, fun written => ?_, fun size _ fresh lacks => ?_⟩
  · refine congrArg _ (s.loadGang_idle (idle.imp_right fun none id hid => ?_))
    rw [show s.underLoad g = [] from none] at hid
    exact nomatch hid
  · exact congrArg _ (s.loadGang_idle (.inr written))
  · have run : exec (.gangPlacement g) s = _ := congrArg Host.Outcome.next (s.loadGang_found size fresh lacks)
    refine ⟨fun wait => ?_, fun c n refused => ?_, fun l l2 s1 found step3 rest => ?_, fun l id cmd va s1 found step3 noted => ?_⟩
    · rw [run, wait]
    · rw [run, refused]
    · obtain ⟨gangs, done⟩ := Ld.finish_done step3 rest
      rw [run, found]
      exact ⟨_, congrArg _ done, rfl, rfl, rfl⟩
    · have held := Ld.finish_fault step3
      rw [show l.noted = s1 from noted.symm] at held
      have only := s1.modTask_only id (fun t => { t with step3 := some va })
      have reported := (s1.modTask id (fun t => { t with step3 := some va })).engRecord_reported id cmd 0x08 va 0 0 true false false
      rw [run, found]
      refine ⟨_, congrArg _ held, fun live => ?_, reported.mem.trans only.mem, ?_⟩
      · unfold State.task
        rw [reported.tasks]
        exact congrArg Task.step3 (s1.task_modTask_same id _ live)
      · have told := (s1.modTask id (fun t => { t with step3 := some va })).engRecord_queued id cmd 0x08 va 0 0 true false false
        have queue : (s1.modTask id (fun t => { t with step3 := some va })).faultQ = s1.faultQ := by rw [only]
        rwa [queue] at told

end Sys2Proof.Proofs

namespace Sys2Proof.Machine

open Sys2Proof.Laws Sys2Proof.Claims

variable (s : State)

/-! ## Plane swaps (R146, R148, R313) -/

/-- `t` differs from `s` in what reports and berth records change alone: memory, berths, the free values, fault records and the
gangs that end. -/
def State.Filed (s t : State) : Prop :=
  t = { s with mem := t.mem, checks := t.checks, free := t.free, berths := t.berths
               faultQ := t.faultQ, recorded := t.recorded, fb := t.fb, dying := t.dying }

theorem State.Filed.trans {s t u : State} (h : s.Filed t) (k : t.Filed u) : s.Filed u := by
  unfold State.Filed at *
  rw [k, h]
theorem State.reportPut_filed (g off : Nat) (bs : List Byte) : s.Filed (s.reportPut g off bs) := by
  unfold State.reportPut
  dsimp only
  split
  · rfl
  · unfold State.Filed State.update
    rw [State.updateFor_rest]
theorem State.berthWrite_filed (c : Ctx) (id : Nat) (valid : Bool) : s.Filed (s.berthWrite c id valid) := rfl
/-- The last step of a load changes its gang, which is placed with the last of its tasks, reports and berth records. -/
theorem State.loaded_filed (g id : Nat) : ∃ gangs, State.Filed { s with gangs := gangs } (s.loaded g id) ∧
    ((s.task id).parent = none → (∀ p ∈ s.tasks, p.2.gang = g → p.2.phase = .waiting → p.2.parent ≠ none) →
      (mget gangs g).phase = .placed) := by
  unfold State.loaded
  dsimp only
  split
  · next child =>
    refine ⟨(s.keepFresh g).gangs, ?_, fun alone => ?_⟩
    · exact ((State.reportPut_filed ..).trans (State.reportPut_filed ..)).trans (State.berthWrite_filed ..)
    · rw [alone] at child
      exact nomatch child
  · split
    · next waits =>
      refine ⟨s.gangs, rfl, fun _ last => ?_⟩
      obtain ⟨p, hp, h⟩ := List.any_eq_true.mp waits
      simp only [Bool.and_eq_true, beq_iff_eq, Option.isNone_iff_eq_none] at h
      exact absurd h.2 (last p hp h.1.1 h.1.2)
    · refine ⟨((s.setGang g { s.gang g with phase := .placed }).keepFresh g).gangs, ?_, fun _ _ => ?_⟩
      · exact List.foldlRecOn (motive := State.Filed _) _ _ (State.reportPut_filed ..) fun t h p _ => h.trans (t.berthWrite_filed ..)
      · show (State.gang (State.setGang _ g _) g).phase = _
        rw [State.gang_setGang_same, State.gang_setGang_same]

theorem State.bindStores_rest (c : Ctx) (t : Task) : s.bindStores c t = { s with sst := (s.bindStores c t).sst } := by
  unfold State.bindStores
  refine List.foldlRecOn (motive := fun u : State => u = { s with sst := u.sst }) _ _ rfl fun u h d _ => ?_
  split
  · rw [h]
  · exact h
/-- A swap makes the standby plane the active one, and places its task. -/
theorem State.swapPlane_done {c : Ctx} {p : Plane} (plane : mget s.standby c.toNat = some p)
    (gang : (s.task (s.bookedAt c)).gang ≠ 0) (waits : (s.task (s.bookedAt c)).phase = .waiting)
    (empty : mget s.owner c.toNat = none) (whole : s.start.measuring.contains (regionOf c) = false) :
    ∃ sst, s.swapPlane c = ({ s with
      active := mset s.active c.toNat p, standby := mset s.standby c.toNat none
      owner := mset s.owner c.toNat (some (s.bookedAt c)), booked := mset s.booked c.toNat none, sst := sst
      tasks := mset s.tasks (s.bookedAt c) { s.task (s.bookedAt c) with phase := .placed } } : State).loaded
        (s.task (s.bookedAt c)).gang (s.bookedAt c) := by
  unfold State.swapPlane
  dsimp only
  rw [plane]
  dsimp only
  rw [waits, empty, whole, if_neg (by simpa using gang), State.bindStores_rest]
  exact ⟨_, rfl⟩
theorem State.swapPlane_stays {c : Ctx} (h : mget s.standby c.toNat = none ∨ (s.task (s.bookedAt c)).phase ≠ .waiting ∨
    mget s.owner c.toNat ≠ none ∨ s.start.measuring.contains (regionOf c) = true) : s.swapPlane c = s := by
  unfold State.swapPlane
  dsimp only
  split
  · rfl
  · next p plane =>
    refine if_pos ?_
    rw [plane] at h
    rcases h with h | h | h | h
    · exact nomatch h
    · simp [h]
    · simp [Option.isSome_iff_ne_none.mpr h]
    · rw [h, Bool.or_true]

end Sys2Proof.Machine

namespace Sys2Proof.Proofs

open Sys2Proof.Laws Sys2Proof.Machine Sys2Proof.Claims

/-- Swaps of a standby plane (R146, R383). -/
theorem planeSwaps : Claims.PlaneSwaps := by
  intro s c n
  refine ⟨fun p plane gang waits empty whole => ?_, fun h => congrArg _ (s.swapPlane_stays h)⟩
  obtain ⟨sst, run⟩ := s.swapPlane_done plane gang waits empty whole
  obtain ⟨gangs, filed, placed⟩ := State.loaded_filed _ (s.task n).gang n
  rw [← run] at filed
  refine ⟨_, rfl, ?_⟩
  show (s.swapPlane c).plane c = p ∧ _
  unfold State.plane State.taskAt State.bookedAt State.task State.gang
  rw [filed]
  dsimp only
  refine ⟨mget_mset_same .., mget_mset_same .., ?_, ?_, mget_mset_same .., fun id hid => mget_mset_ne _ hid _,
    fun d hd => mget_mset_ne _ (fun e => hd (BitVec.eq_of_toNat_eq e)) _, rfl, fun alone last => ?_⟩
  · rw [mget_mset_same]; rfl
  · rw [mget_mset_same]; rfl
  · refine placed ?_ fun q hq same waiting => ?_
    · show (mget (mset s.tasks n _) n).parent = none
      rw [mget_mset_same]
      exact alone
    · rcases mem_mset_other hq with rfl | ⟨hq, hn⟩
      · exact nomatch waiting
      · exact last q hq hn same waiting

end Sys2Proof.Proofs
end

section
/-!
The iterations of a batch (R163, R164).
-/

namespace Sys2Proof.Machine

open Sys2Proof.Laws Sys2Proof.Claims

/-! ## The work of the loader, step by step -/

/-- What holds before a list of work and is kept by each piece that succeeds holds after it. -/
theorem Load.fold_kept {α β : Type} {P : α → Prop} {f : α → β → Load α} {l : List β}
    (one : ∀ a b a', P a → f a b = .ok a' → P a') {a a' : α} (start : P a) (run : Load.fold f l a = .ok a') : P a' := by
  induction l generalizing a with
  | nil =>
    injection run with run
    exact run ▸ start
  | cons b l ih =>
    unfold Load.fold Load.bind at run
    cases h : f a b with
    | ok a1 =>
      rw [h] at run
      exact ih (one a b a1 start h) run
    | wait => rw [h] at run; exact nomatch run
    | refuse c n => rw [h] at run; exact nomatch run
    | broken p t => rw [h] at run; exact nomatch run
/-- Work that succeeds in two parts. -/
theorem Load.bind_eq_ok {α β : Type} {x : Load α} {f : α → Load β} {v : β} (h : x.bind f = .ok v) :
    ∃ a, x = .ok a ∧ f a = .ok v := by
  cases x with
  | ok a => exact ⟨a, rfl, h⟩
  | wait => exact nomatch h
  | refuse c n => exact nomatch h
  | broken p t => exact nomatch h

/-! ## Gangs while the loader reads and writes -/

variable (s : State)

theorem State.updateFor_gangs (id pa : Nat) (bs : List Byte) : (s.updateFor id pa bs).gangs = s.gangs := by
  rw [State.updateFor_rest]
theorem State.write_gangs (pa : Nat) (bs : List Byte) : (s.write pa bs).1.gangs = s.gangs := by
  unfold State.write
  refine List.foldlRecOn (motive := fun p : State × List Nat => p.1.gangs = s.gangs) _ _ rfl fun p h q _ => ?_
  rcases p.1.writeGranule_cases q.1 q.2 with ⟨e, -, -⟩ | ⟨k, e, -, -⟩
  · rw [e]; exact h
  · rw [e]; exact h
theorem State.ldAcc_gangs (tenant : BitVec 16) (sup : Bool) (k : AccK) (va : Nat) : (s.ldAcc tenant sup k va).1.gangs = s.gangs := by
  unfold State.ldAcc
  split
  · rfl
  · split
    · rfl
    · rfl
    · dsimp only
      unfold State.markWord
      split
      · rfl
      · exact s.updateFor_gangs ..
theorem State.ldRead_gangs {tenant : BitVec 16} {task va n : Nat} {r : State × List Byte} (run : s.ldRead tenant task va n = .ok r) :
    r.1.gangs = s.gangs := by
  refine Load.fold_kept (P := fun p : State × List Byte => p.1.gangs = s.gangs) (fun p q p' h one => ?_) rfl run
  have acc := p.1.ldAcc_gangs tenant false .load q.1
  split at one
  · next s1 pa poison d tag e =>
    rw [e] at acc
    split at one
    · injection one with one
      rw [← one]; exact acc.trans h
    · split at one
      · exact nomatch one
      · injection one with one
        rw [← one]; exact acc.trans h
  · exact nomatch one
theorem State.ldWrite_gangs {tenant : BitVec 16} {va : Nat} {bs : List Byte} {t : State} (run : s.ldWrite tenant va bs = .ok t) :
    t.gangs = s.gangs := by
  have acc := s.ldAcc_gangs tenant false .store va
  unfold State.ldWrite at run
  split at run
  · next s1 pa p d tag e =>
    rw [e] at acc
    injection run with run
    rw [← run, State.write_gangs]
    exact acc
  · exact nomatch run
/-- A snapshot leaves the gangs (R164). -/
theorem State.takeSnapshot_gangs {tenant : BitVec 16} {table n : Nat} {t : State} (run : s.takeSnapshot tenant table n = .ok t) :
    t.gangs = s.gangs := by
  obtain ⟨r, read, run⟩ := Load.bind_eq_ok run
  obtain ⟨q, before, run⟩ := Load.bind_eq_ok run
  have first : r.1.gangs = s.gangs := s.ldRead_gangs read
  have second : q.1.gangs = r.1.gangs := by
    split at before
    · injection before with before
      rw [← before]
    · exact r.1.ldRead_gangs before
  rw [q.1.ldWrite_gangs run, second, first]
/-- The tasks of an iteration are made without a change of a gang. -/
theorem State.newTask_gangs {x : Task} {r : State × Nat} (run : s.newTask x = some r) : r.1.gangs = s.gangs := by
  obtain ⟨f, -, rfl⟩ := Option.map_eq_some_iff.mp run
  exact State.updateFor_gangs _ 0 _ _
theorem State.newTasks_gangs {g : Nat} {t : State} (run : s.newTasks g = some t) : t.gangs = s.gangs := by
  have kept : ∀ u : State, s.newTasks g = some u → u.gangs = s.gangs :=
    List.foldlRecOn (motive := fun o : Option State => ∀ u, o = some u → u.gangs = s.gangs) _ _
      (fun u h => by injection h with h; rw [h]) fun o h i _ u made => by
        obtain ⟨v, rfl, made⟩ := Option.bind_eq_some_iff.mp made
        obtain ⟨r, new, rfl⟩ := Option.map_eq_some_iff.mp made
        rw [v.newTask_gangs new]
        exact h v rfl
  exact kept t run

/-! ## Iterations (R163, R164) -/

/-- The number of the iteration that begins: the one after the last, but for the first. -/
def State.iterOf (g : Nat) (b : Batch) : Nat := if s.members g = [] then b.iter + 1 else b.iter
/-- The state in which an iteration begins, with its arguments. -/
def State.iterAt (g : Nat) (b : Batch) : State :=
  s.setGang g { s.gang g with
    phase := .waiting, batch := some { b with iter := s.iterOf g b }, notes := [], raced := false
    args := (s.gang g).args.take 4 ++ [BitVec.ofNat 64 (b.table + 4096 * (1 + s.iterOf g b % 2)), BitVec.ofNat 64 (s.iterOf g b)] }
/-- Its tasks: those that wait already for the first one, else new ones. -/
def State.iterTasks (g : Nat) (b : Batch) : Option State :=
  if s.members g = [] then (s.iterAt g b).newTasks g else some (s.iterAt g b)
theorem State.iterTasks_gangs {g : Nat} {b : Batch} {t : State} (h : s.iterTasks g b = some t) : t.gangs = (s.iterAt g b).gangs := by
  unfold State.iterTasks at h
  split at h
  · exact (s.iterAt g b).newTasks_gangs h
  · injection h with h
    rw [h]
theorem State.nextIteration_between {g : Nat} {b : Batch} (batch : (s.gang g).batch = some b) (phase : (s.gang g).phase = .between) :
    s.nextIteration g = match s.iterTasks g b with
      | none => s
      | some s2 => match s2.takeSnapshot (s.gang g).tenant b.table (s.iterOf g b) with
        | .ok s3 => s3
        | .refuse c ns => s2.refuseGang g c ns
        | .broken pa tag => (s2.refuseGang g 0x30 [noteOf 0x30 0 0 0 pa]).memErrorAlone pa tag (s.gang g).tenant
        | .wait => s2 := by
  unfold State.nextIteration
  dsimp only
  rw [batch]
  dsimp only
  rw [phase, if_neg (by decide)]
  unfold State.iterTasks State.iterAt State.iterOf
  cases s.members g with
  | nil => rfl
  | cons m ms => rfl
theorem State.nextIteration_other {g : Nat} (phase : (s.gang g).phase ≠ .between) : s.nextIteration g = s := by
  unfold State.nextIteration
  dsimp only
  split
  · rfl
  · exact if_pos (by simpa using phase)

/-! ## Entries of a snapshot (R164) -/

/-- One of the pieces of equal length that a list is made of. -/
theorem take_drop_flatMap {α β : Type} (f : β → List α) {d : Nat} {l : List β} {i : Nat} (length : ∀ b ∈ l, (f b).length = d)
    (hi : i < l.length) : ((l.flatMap f).drop (d * i)).take d = f l[i] := by
  induction l generalizing i with
  | nil => exact nomatch hi
  | cons b l ih =>
    have first : (f b).length = d := length b (List.mem_cons_self ..)
    rw [List.flatMap_cons]
    cases i with
    | zero => rw [Nat.mul_zero, List.drop_zero, List.take_left' first, List.getElem_cons_zero]
    | succ i =>
      have later : (f b ++ l.flatMap f).drop (d * (i + 1)) = (l.flatMap f).drop (d * i) := by
        rw [Nat.mul_succ, Nat.add_comm, ← List.drop_drop, List.drop_left' first]
      rw [later, List.getElem_cons_succ]
      exact ih (fun b hb => length b (List.mem_cons_of_mem _ hb)) (Nat.lt_of_succ_lt_succ hi)
/-- An entry of a snapshot: that of the table, or the previous one where an update had caught it. -/
def snapEntry (table prev : List Byte) (e : Nat) : List Byte :=
  let x := (table.drop (64 * e)).take 64
  if leVal (x.take 4) % 2 = 1 then (prev.drop (64 * e)).take 64 else x.take 4 ++ List.replicate 4 0 ++ x.drop 8
theorem length_entry {l : List Byte} (h : l.length = 4096) {e : Nat} (he : e < 64) : ((l.drop (64 * e)).take 64).length = 64 := by
  rw [List.length_take, List.length_drop]
  omega
theorem length_snapEntry {table prev : List Byte} (ht : table.length = 4096) (hp : prev.length = 4096) {e : Nat} (he : e < 64) :
    (snapEntry table prev e).length = 64 := by
  have len := length_entry ht he
  unfold snapEntry
  dsimp only
  split
  · exact length_entry hp he
  · rw [List.length_append, List.length_append, List.length_replicate, List.length_take, List.length_drop, len]
    rfl
/-- A snapshot is made of its 64 entries. -/
theorem snapshotOf_entries {table : List Byte} (ht : table.length = 4096) (prev : List Byte) :
    snapshotOf table prev = (List.range 64).flatMap (snapEntry table prev) := by
  unfold snapshotOf
  refine List.flatMap_congr fun e he => ?_
  have len := length_entry ht (List.mem_range.mp he)
  unfold snapEntry bytesAt
  dsimp only
  rw [List.drop_zero, List.take_of_length_le (l := List.drop 8 _) (by rw [List.length_drop, len])]

end Sys2Proof.Machine

namespace Sys2Proof.Proofs

open Sys2Proof.Laws Sys2Proof.Machine Sys2Proof.Claims

/-- Iterations of a batch and their snapshots (R163, R164). -/
theorem batchIterations : Claims.BatchIterations := by
  refine ⟨fun s g b batch => ⟨fun phase s2 s3 tasks snapshot => ?_, fun phase lacks => ?_, fun phase => ?_⟩,
    fun table prev e ht hp he => ?_⟩
  · have tasks : s.iterTasks g b = some s2 := tasks
    have snapshot : s2.takeSnapshot (s.gang g).tenant b.table (s.iterOf g b) = .ok s3 := snapshot
    have run := s.nextIteration_between batch phase
    rw [tasks] at run
    dsimp only at run
    rw [snapshot] at run
    refine ⟨congrArg _ run, ?_⟩
    unfold State.gang
    rw [s2.takeSnapshot_gangs snapshot, s.iterTasks_gangs tasks]
    rfl
  · have lacks : s.iterTasks g b = none := lacks
    have run := s.nextIteration_between batch phase
    rw [lacks] at run
    exact congrArg _ run
  · exact congrArg _ (s.nextIteration_other phase)
  · show _ = snapEntry table prev e
    rw [snapshotOf_entries ht, take_drop_flatMap _ (fun k hk => length_snapEntry ht hp (List.mem_range.mp hk)) (by simpa using he),
      List.getElem_range]
/-- Settles O22: placements by what the loader answers, swaps by what a load's last step files, and iterations by what keeps
the gangs. -/
theorem loading : Obligations.Loading := ⟨placement, planeSwaps, batchIterations⟩

end Sys2Proof.Proofs
end
